-- ==== Sys2Proof/Word.lean ====
section
/-! DEFINITION. The word types of the Isaeg (spec/00 R7): bits, bytes, 32-bit words and 64-bit pairs, with the plainest
arithmetic on them. -/

namespace Sys2Proof

/-- A byte of memory. -/
abbrev Byte := BitVec 8

/-- A 32-bit register or instruction word. -/
abbrev Word := BitVec 32

/-- A 64-bit value: a register pair, an address, a stamp. -/
abbrev Dword := BitVec 64

namespace Dword

/-- The low 32 bits (the even register of a pair, R7). -/
def lo (x : Dword) : Word := x.setWidth 32

/-- The high 32 bits (the odd register of a pair, R7). -/
def hi (x : Dword) : Word := (x >>> 32).setWidth 32

/-- The pair whose even register holds `l` and whose odd register holds `h` (R7). -/
def ofPair (l h : Word) : Dword := h ++ l

end Dword

/-- Bit `i` of a natural number read as a bit string. -/
def natBit (x i : Nat) : Bool := (x >>> i) % 2 = 1

/-- Bits `[lo + len - 1 : lo]` of a natural number read as a bit string. -/
def natBits (x lo len : Nat) : Nat := (x >>> lo) % 2 ^ len

end Sys2Proof
end

