-- ==== Sys2Proof/Syntax.lean ====
section
/-! DEFINITION. The terms of the model: operands, literal runs, and the one inductive `Instr` with a constructor for every row of
spec/opcode_table.json, the 243 instruction words and the 61 events of the device. -/

namespace Sys2Proof

/-! ### Classes and ports (spec/04 R59, spec/02 Table 2.1) -/

/-- The class of a clause, the CLS field of its header. -/
inductive Cls where
  | gen | wide | mem | ctl | eng | rul | pkd | sys
deriving DecidableEq, Repr

/-- The issue port of a lane. -/
inductive Port where
  | arith | mem | ctl
deriving DecidableEq, Repr

/-! ### Selectors (spec/04 R64, R65) -/

/-- The vector selector space of Table 4.5; every one of its 128 values is one of these. -/
inductive Sel where
  | v (n : Fin 64)
  | k (n : Fin 4)
  | l (n : Fin 2)
  | z
  | vx
  | s (n : Fin 56)
deriving DecidableEq, Repr

/-- The scalar selector space of R65; values 97 to 127 name nothing. -/
inductive SSel where
  | s (n : Fin 96)
  | z
deriving DecidableEq, Repr

/-- A B operand: a selector, or the value of a literal run (R68, R69). -/
inductive Opnd where
  | sel (x : Sel)
  | imm (p : BitVec 24)
  | imm2 (hi lo : BitVec 24)
deriving DecidableEq, Repr

/-- A B operand of the scalar space. -/
inductive SOpnd where
  | sel (x : SSel)
  | imm (p : BitVec 24)
  | imm2 (hi lo : BitVec 24)
deriving DecidableEq, Repr

/-- The guard of a word (R61, R62): none, or predicate `n`, executing where the bit is false when `neg`. -/
inductive Guard where
  | always
  | pred (n : Fin 12) (neg : Bool)
deriving DecidableEq, Repr

/-- Guard and dead mark, common to all words (R61). -/
structure Hd where
  guard : Guard
  k : Bool
deriving DecidableEq, Repr

/-! ### Modifiers (spec/04 R70, R71) -/

/-- A rounding code (R105). -/
inductive RMode where
  | ne | tz | up | dn
deriving DecidableEq, Repr

/-- An ARITHMOD literal (Table 4.9): trap suppression, SAT, FTZ, and the rounding mode when RMV is set. -/
structure Arith where
  toff : BitVec 5
  sat : Bool
  ftz : Bool
  rm : Option RMode
deriving DecidableEq, Repr

/-- Memory order (Table 4.8). -/
inductive Order where
  | plain | acq | rel | acqRel
deriving DecidableEq, Repr

/-- Scope of an ordering operation (Table 9.8). -/
inductive Scope where
  | thr | wrp | blk | clu | dev | sys
deriving DecidableEq, Repr

/-- The SPACE field (R155). -/
inductive Space where
  | glb | own | clw | mir | par
deriving DecidableEq, Repr

/-- The CACHE field (Table 4.8). -/
inductive Cache where
  | keep | strm | l2 | wt
deriving DecidableEq, Repr

/-- A MEMMOD literal (Table 4.8). A field at 0 is `none` and takes its value from CTX.MDEF. `ctr` is the CTR field: 0 to 5 a
counter, 6 the class default, 7 none. -/
structure MemMod where
  signed : Bool
  w64 : Bool
  noagg : Bool
  ctr : BitVec 3
  cache : Option Cache
  space : Option Space
  scope : Option Scope
  ord : Option Order
deriving DecidableEq, Repr

/-! ### Special and control registers (spec/04 Table 4.20, spec/18 Table 18.6) -/

/-- The special registers of Table 4.20. -/
inductive SReg where
  | workid | levels | slot | warp | lane | core | cluster | part | clock | flags | rmode | vix | extheld | link | floor
  | settled | horizon | tcause | tinfo | tpc | taddr | tskid | tmask | synd | tunit | tstamp | nbv
deriving DecidableEq, Repr

/-- The special registers that SWRITE writes. -/
inductive WReg where
  | flags | rmode | vix | link | floor
deriving DecidableEq, Repr

/-- The control registers of Table 18.6. -/
inductive CReg where
  | mode | ctxid | s1root | s2root | ptvec | qsel | qbase | qcfg | reqHead | reqTail | rspHead | rspTail | nextid | tickhold
  | hold | era | gen
deriving DecidableEq, Repr

/-- The control registers that CSRW writes. -/
inductive CWReg where
  | ctxid | s1root | s2root | ptvec | qsel | qbase | qcfg | reqHead | rspTail | tickhold
deriving DecidableEq, Repr

/-! ### Word shapes

One structure for each set of fields that words share. `am` and `mm` are the ARITHMOD and MEMMOD literals of the word's run. -/

/-- GEN and WIDE TRI words. -/
structure Tri where
  h : Hd
  am : Option Arith
  d : Sel
  a : Sel
  b : Opnd
deriving DecidableEq, Repr

/-- DUO words of GEN, WIDE and PKD, and MOV and LMOV. -/
structure Duo where
  h : Hd
  am : Option Arith
  d : Sel
  a : Sel
deriving DecidableEq, Repr

/-- Compares in the vector space (PRED). -/
structure Cmp where
  h : Hd
  am : Option Arith
  cond : BitVec 3
  p : Fin 12
  a : Sel
  b : Opnd
deriving DecidableEq, Repr

/-- MOVI (IMM format). -/
structure MovI where
  h : Hd
  am : Option Arith
  d : Sel
  imm14 : BitVec 14
  lit : Option (BitVec 24)
deriving DecidableEq, Repr

/-- VOTE functions. -/
structure VoteW where
  h : Hd
  am : Option Arith
  d : Sel
  p : Fin 12
deriving DecidableEq, Repr

/-- Conversions through a format slot. -/
structure SlotW where
  h : Hd
  am : Option Arith
  d : Sel
  a : Sel
  s : Fin 8
deriving DecidableEq, Repr

/-- RDFX and RDRM. -/
structure FxD where
  h : Hd
  am : Option Arith
  d : Sel
deriving DecidableEq, Repr

/-- CLRFX and SETFX. -/
structure FxM where
  h : Hd
  am : Option Arith
  d : Sel
  mask : BitVec 5
deriving DecidableEq, Repr

/-- SETRM. -/
structure FxR where
  h : Hd
  am : Option Arith
  d : Sel
  rm : RMode
deriving DecidableEq, Repr

/-- PKD TRI words, which take no IMM run (R68). -/
structure PTri where
  h : Hd
  am : Option Arith
  d : Sel
  a : Sel
  b : Sel
deriving DecidableEq, Repr

/-- MEM words with an offset: loads, stores, atomics other than ACAS. -/
structure MemW where
  h : Hd
  mm : Option MemMod
  d : Sel
  a : Sel
  b : Opnd
deriving DecidableEq, Repr

/-- MEM words whose EA is A alone and whose B is a selector: STWS, STDS, ASW, ASD, ASQ, ACAS. -/
structure MemS where
  h : Hd
  mm : Option MemMod
  d : Sel
  a : Sel
  b : Sel
deriving DecidableEq, Repr

/-- FENCE. -/
structure FenceW where
  h : Hd
  scope : Scope
deriving DecidableEq, Repr

/-- LSTAMP. -/
structure MemDA where
  h : Hd
  mm : Option MemMod
  d : Sel
  a : Sel
deriving DecidableEq, Repr

/-- SETTLE. -/
structure MemA where
  h : Hd
  mm : Option MemMod
  a : Sel
deriving DecidableEq, Repr

/-- PREF. -/
structure MemAB where
  h : Hd
  mm : Option MemMod
  a : Sel
  b : Opnd
deriving DecidableEq, Repr

/-- Words with only a guard. -/
structure HdW where
  h : Hd
deriving DecidableEq, Repr

/-- Words with one vector source A. -/
structure WA where
  h : Hd
  a : Sel
deriving DecidableEq, Repr

/-- Words with one vector destination D. -/
structure WD where
  h : Hd
  d : Sel
deriving DecidableEq, Repr

/-- Words with a vector D and A and no modifier. -/
structure WDA where
  h : Hd
  d : Sel
  a : Sel
deriving DecidableEq, Repr

/-- Words with a vector A and B. -/
structure WAB where
  h : Hd
  a : Sel
  b : Opnd
deriving DecidableEq, Repr

/-- Words with one vector B. -/
structure WB where
  h : Hd
  b : Opnd
deriving DecidableEq, Repr

/-- Words with a vector D, A and B and no modifier. -/
structure WDAB where
  h : Hd
  d : Sel
  a : Sel
  b : Opnd
deriving DecidableEq, Repr

/-- BRA and CALL. -/
structure BrW where
  h : Hd
  off : BitVec 21
deriving DecidableEq, Repr

/-- EXIT and ASSERT. -/
structure SAW where
  h : Hd
  a : SSel
deriving DecidableEq, Repr

/-- BAR, BARA and BARW: level and number (Table 2.3). -/
structure BarW where
  h : Hd
  level : BitVec 2
  num : BitVec 5
deriving DecidableEq, Repr

/-- REGTRY and ELECT. -/
structure PW where
  h : Hd
  p : Fin 12
deriving DecidableEq, Repr

/-- KILL. -/
structure KillW where
  h : Hd
  d : Sel
  a : Sel
  b : Sel
deriving DecidableEq, Repr

/-- SREAD. -/
structure SReadW where
  h : Hd
  d : Sel
  r : SReg
deriving DecidableEq, Repr

/-- SWRITE. -/
structure SWriteW where
  h : Hd
  a : Sel
  r : WReg
deriving DecidableEq, Repr

/-- TRAP. -/
structure TrapW where
  h : Hd
  code : BitVec 7
deriving DecidableEq, Repr

/-- Scalar TRI words. -/
structure STri where
  h : Hd
  d : SSel
  a : SSel
  b : SOpnd
deriving DecidableEq, Repr

/-- SMOV. -/
structure SDA where
  h : Hd
  d : SSel
  a : SSel
deriving DecidableEq, Repr

/-- SMOVI. -/
structure SMovI where
  h : Hd
  d : SSel
  imm14 : BitVec 14
  lit : Option (BitVec 24)
deriving DecidableEq, Repr

/-- SSETP. -/
structure SCmp where
  h : Hd
  cond : BitVec 3
  p : Fin 12
  a : SSel
  b : SOpnd
deriving DecidableEq, Repr

/-- SLD. -/
structure SLdW where
  h : Hd
  mm : Option MemMod
  d : SSel
  a : SSel
  b : SOpnd
deriving DecidableEq, Repr

/-- VTOS. -/
structure VtosW where
  h : Hd
  d : SSel
  a : Sel
deriving DecidableEq, Repr

/-- MMA, MMASP and ACCST: a format slot and an offset. -/
structure FsA where
  h : Hd
  s : Fin 8
  a : Sel
deriving DecidableEq, Repr

/-- SLOTRD. -/
structure FsD where
  h : Hd
  s : Fin 8
  d : Sel
deriving DecidableEq, Repr

/-- RLQ. -/
structure RlqW where
  h : Hd
  p : Fin 12
  a : Sel
  b : Opnd
deriving DecidableEq, Repr

/-- CSRR. -/
structure CsrrW where
  h : Hd
  d : Sel
  r : CReg
deriving DecidableEq, Repr

/-- CSRW. -/
structure CsrwW where
  h : Hd
  a : Sel
  r : CWReg
deriving DecidableEq, Repr

/-! ### Arguments of the device's events -/

/-- A page-request queue (spec/12 R226): partition, virtual function, and stage 2 when `s2`. -/
structure QKey where
  part : Nat
  vf : Nat
  s2 : Bool
deriving DecidableEq, Repr

/-- A register of a page queue that software writes (Table 12.3). -/
inductive QReg where
  | qbase | qcfg
deriving DecidableEq, Repr

/-- A barrier (Table 2.3): level 0 to 3, the unit it belongs to (a warp, a block, a cluster group, or a launch, by its
number in the model), and the barrier's number; the grid barriers of a redundant launch's shadow copy are numbered 2 and 3. -/
structure BarKey where
  level : Nat
  unit : Nat
  num : Nat
deriving DecidableEq, Repr

/-- A thread: its warp's number in the model and its slot. -/
structure TKey where
  warp : Nat
  slot : Nat
deriving DecidableEq, Repr

/-- A message arriving from outside the package (spec/15 R253): tag, payload, and the stamp its endpoint carries. -/
structure Msg where
  tag : Word
  payload : List Byte
  stamp : Dword
deriving DecidableEq, Repr

/-- Where an arriving message comes from: an outside endpoint, or a SEND of this package by its number. -/
inductive MsgSrc where
  | ext (m : Msg)
  | send (id : Nat)
deriving DecidableEq, Repr

/-- The configuration under which a partition runs one virtual function (spec/12 R221, spec/15 R264). -/
structure VfCfg where
  part : Nat
  vf : BitVec 8
  asid : BitVec 16
  s1root : Dword
  s2root : Dword
deriving DecidableEq, Repr

/-- The size of a partition's history pool in entries, and of its spill area (spec/09 R170). -/
structure PoolCfg where
  part : Nat
  size : Nat
  spill : Nat
deriving DecidableEq, Repr

/-- A software arm that firmware knows of (spec/15 R254): its partition, its tag, and the address of its descriptor. -/
structure SoftCfg where
  part : Nat
  tag : Word
  addr : Nat
deriving DecidableEq, Repr

/-- What the boot ROM and firmware bring up (spec/13 R244): the outcome of the signature check, the image, and the
configuration it sets: virtual functions, history pools, software arms, the quanta of partitions in microseconds, the launch records that
firmware starts as privileged contexts (spec/18 R323), and the bytes of the CXL device at each die's port (R239). -/
structure BootCfg where
  sigOk : Bool
  failCode : Word
  digest : List Byte
  version : Dword
  vfs : List VfCfg
  pools : List PoolCfg
  soft : List SoftCfg
  quanta : List (Nat × Nat)
  contexts : List (Nat × Dword)
  cxl : List Nat
deriving DecidableEq, Repr

/-- The kind of an invalidation (spec/12 R228). -/
inductive InvKind where
  | va | asid | ipa | vmid
deriving DecidableEq, Repr

/-- An engine of a core. -/
inductive Engine where
  | copy | matrix | rule
deriving DecidableEq, Repr

/-- The operation of a host atomic (spec/09 R184). -/
inductive AtomOp where
  | add | min | max | and | or | xor | xchg | cas | fadd | dadd
deriving DecidableEq, Repr

/-- An answer of the storage service to a checkpoint query or chunk (spec/13 R242). -/
inductive CkptReply where
  | held | absent | refuse | linkLost
deriving DecidableEq, Repr

/-- Who reads and clears an error counter (Table 13.2). -/
inductive CtrReader where
  | vf (part : Nat) | host | hypervisor
deriving DecidableEq, Repr

/-- The error counters of Table 13.2, each of one unit by its package number (R2): a cluster of a partition, a slice, a stack, a link of a die,
the core that lost packets came from. -/
inductive ErrCtr where
  | correctedSram (part cluster : Nat)
  | uncorrected (part : Nat)
  | pageQueue (q : QKey)
  | sliceCorrected (slice : Nat)
  | stackCorrected (stack : Nat)
  | linkFec (die link : Nat)
  | linkRetrains (die link : Nat)
  | linkLost (source : Nat)
  | tardy (part : Nat)
deriving DecidableEq, Repr

/-- What comes from outside the device and has no row of the table: the errors that its parts find (R238, R239, R299, R360, R362, R382), the hypervisor's
setting of a quantum in microseconds, and software's arms (R254). -/
inductive Outside where
  | sramCorrected (cluster : Nat)
  | sliceCorrected (slice : Nat)
  | stackCorrected (stack : Nat)
  | linkFec (die link : Nat)
  | badLine (line : Nat)
  | badTile (core tile : Nat)
  | stuckTile (core tile : Nat)
  | engineUe (core : Nat) (e : Engine)
  | quantum (part micros : Nat)
  | softArm (c : SoftCfg)
deriving DecidableEq, Repr

/-- The instructions and events of the Isaeg: one constructor for each row of spec/opcode_table.json, in its order. -/
inductive Instr where
  | iadd (t : Tri)
  | isub (t : Tri)
  | imul (t : Tri)
  | imad (t : Tri)
  | imulh (t : Tri)
  | imulhn (t : Tri)
  | and (t : Tri)
  | or (t : Tri)
  | xor (t : Tri)
  | andn (t : Tri)
  | shl (t : Tri)
  | shr (t : Tri)
  | sar (t : Tri)
  | fdiv (t : Tri)
  | imin (t : Tri)
  | imax (t : Tri)
  | nmin (t : Tri)
  | nmax (t : Tri)
  | isetp (t : Cmp)
  | sel (t : Tri)
  | mov (t : Duo)
  | movi (t : MovI)
  | shfl (t : Tri)
  | voteAny (t : VoteW)
  | voteAll (t : VoteW)
  | voteBallot (t : VoteW)
  | fadd (t : Tri)
  | fmul (t : Tri)
  | ffma (t : Tri)
  | ffmal (t : Tri)
  | fmin (t : Tri)
  | fmax (t : Tri)
  | fsetp (t : Cmp)
  | ineg (t : Duo)
  | iabs (t : Duo)
  | not (t : Duo)
  | popc (t : Duo)
  | clz (t : Duo)
  | brev (t : Duo)
  | bswap (t : Duo)
  | fneg (t : Duo)
  | fabs (t : Duo)
  | frcp (t : Duo)
  | fsqrt (t : Duo)
  | frsq (t : Duo)
  | fex2 (t : Duo)
  | flg2 (t : Duo)
  | fsin (t : Duo)
  | fcos (t : Duo)
  | fclass (t : Duo)
  | frint (t : Duo)
  | cvtF32I32 (t : Duo)
  | cvtF32N32 (t : Duo)
  | cvtI32F32 (t : Duo)
  | cvtN32F32 (t : Duo)
  | cvtF16F32 (t : Duo)
  | cvtF32F16 (t : Duo)
  | cvtBf16F32 (t : Duo)
  | cvtF32Bf16 (t : Duo)
  | cvtI32I8 (t : Duo)
  | cvtI32I16 (t : Duo)
  | quant (t : SlotW)
  | deq (t : SlotW)
  | dadd (t : Tri)
  | dsub (t : Tri)
  | dmul (t : Tri)
  | dfma (t : Tri)
  | dfmal (t : Tri)
  | ddiv (t : Tri)
  | dmin (t : Tri)
  | dmax (t : Tri)
  | dsetp (t : Cmp)
  | dscale (t : Tri)
  | ladd (t : Tri)
  | lsub (t : Tri)
  | lmul (t : Tri)
  | lmulh (t : Tri)
  | lmulhn (t : Tri)
  | land (t : Tri)
  | lor (t : Tri)
  | lxor (t : Tri)
  | lshl (t : Tri)
  | lshr (t : Tri)
  | lsar (t : Tri)
  | lsetp (t : Cmp)
  | lmin (t : Tri)
  | lmax (t : Tri)
  | lea (t : Tri)
  | lea4 (t : Tri)
  | lea8 (t : Tri)
  | lmov (t : Duo)
  | dneg (t : Duo)
  | dabs (t : Duo)
  | dsqrt (t : Duo)
  | dclass (t : Duo)
  | drint (t : Duo)
  | dgetexp (t : Duo)
  | dgetmant (t : Duo)
  | lneg (t : Duo)
  | lpopc (t : Duo)
  | lclz (t : Duo)
  | cvtF64F32 (t : Duo)
  | cvtF32F64 (t : Duo)
  | cvtF64I32 (t : Duo)
  | cvtF64N32 (t : Duo)
  | cvtF64I64 (t : Duo)
  | cvtF64N64 (t : Duo)
  | cvtI32F64 (t : Duo)
  | cvtN32F64 (t : Duo)
  | cvtI64F64 (t : Duo)
  | cvtN64F64 (t : Duo)
  | cvtI64I32 (t : Duo)
  | cvtN64N32 (t : Duo)
  | rdfx (t : FxD)
  | clrfx (t : FxM)
  | setfx (t : FxM)
  | rdrm (t : FxD)
  | setrm (t : FxR)
  | paddF2 (t : PTri)
  | pmulF2 (t : PTri)
  | pfmaF2 (t : PTri)
  | paddH2 (t : PTri)
  | pmulH2 (t : PTri)
  | pfmaH2 (t : PTri)
  | paddB2 (t : PTri)
  | pmulB2 (t : PTri)
  | pfmaB2 (t : PTri)
  | pminH2 (t : PTri)
  | pmaxH2 (t : PTri)
  | pminB2 (t : PTri)
  | pmaxB2 (t : PTri)
  | pdot2H (t : PTri)
  | pdot2B (t : PTri)
  | pdot4I8 (t : PTri)
  | pdot4N8 (t : PTri)
  | paddI16 (t : PTri)
  | psubI16 (t : PTri)
  | f2toh2 (t : Duo)
  | f2tob2 (t : Duo)
  | h2tof2 (t : Duo)
  | b2tof2 (t : Duo)
  | quant4 (t : SlotW)
  | deq4 (t : SlotW)
  | ldb (t : MemW)
  | ldbs (t : MemW)
  | ldh (t : MemW)
  | ldhs (t : MemW)
  | ldw (t : MemW)
  | ldd (t : MemW)
  | ldq (t : MemW)
  | stb (t : MemW)
  | sth (t : MemW)
  | stw (t : MemW)
  | std (t : MemW)
  | stq (t : MemW)
  | stws (t : MemS)
  | stds (t : MemS)
  | asw (t : MemS)
  | asd (t : MemS)
  | asq (t : MemS)
  | aadd (t : MemW)
  | amin (t : MemW)
  | amax (t : MemW)
  | aand (t : MemW)
  | aor (t : MemW)
  | axor (t : MemW)
  | axch (t : MemW)
  | acas (t : MemS)
  | afadd (t : MemW)
  | adadd (t : MemW)
  | fenceFull (t : FenceW)
  | fenceAcq (t : FenceW)
  | fenceRel (t : FenceW)
  | lstamp (t : MemDA)
  | floorup (t : WDA)
  | settle (t : MemA)
  | tagl (t : WDA)
  | tags (t : WDA)
  | tagi (t : WA)
  | tagc (t : WA)
  | pref (t : MemAB)
  | bra (t : BrW)
  | brx (t : WA)
  | call (t : BrW)
  | callx (t : WA)
  | ret (t : HdW)
  | exit (t : SAW)
  | bar (t : BarW)
  | bara (t : BarW)
  | barw (t : BarW)
  | pause (t : WB)
  | regacq (t : HdW)
  | regtry (t : PW)
  | regrel (t : HdW)
  | kill (t : KillW)
  | setx (t : WAB)
  | sread (t : SReadW)
  | swrite (t : SWriteW)
  | elect (t : PW)
  | assert (t : SAW)
  | trap (t : TrapW)
  | bkpt (t : HdW)
  | nop (t : HdW)
  | sadd (t : STri)
  | ssub (t : STri)
  | smul (t : STri)
  | smov (t : SDA)
  | smovi (t : SMovI)
  | ssetp (t : SCmp)
  | sld (t : SLdW)
  | slea (t : STri)
  | sand (t : STri)
  | vtos (t : VtosW)
  | mma (t : FsA)
  | mmasp (t : FsA)
  | accz (t : WAB)
  | accld (t : WDAB)
  | accst (t : FsA)
  | kick (t : WA)
  | arvi (t : WAB)
  | send (t : WDAB)
  | slotrd (t : FsD)
  | rlqRd (t : RlqW)
  | rlqWr (t : RlqW)
  | rcfg (t : WA)
  | rtld (t : WAB)
  | rstep (t : WA)
  | rpack (t : WAB)
  | runpack (t : WAB)
  | rcount (t : WDAB)
  | rgen (t : WD)
  | rabort (t : HdW)
  | csrr (t : CsrrW)
  | csrw (t : CsrwW)
  | eret (t : HdW)
  | eretall (t : HdW)
  | xinvVa (t : WAB)
  | xinvAsid (t : WB)
  | xinvIpa (t : WAB)
  | xinvVmid (t : WB)
  | xsync (t : HdW)
  | hset (t : WA)
  | ckpt (t : WDA)
  | pickerFormBundle (core lane : Nat) (port : Port)
  | pauseExpiry (t : TKey)
  | longOpResult (id : Nat)
  | memResponse (id : Nat)
  | sliceCommit (id : Nat)
  | sliceLoad (id : Nat)
  | asofWalk (id : Nat)
  | referenceTick
  | settledUpdate
  | holdStallTimeout (part : Nat)
  | eraRebase
  | tickholdWrite (v : Dword)
  | barrierPhaseComplete (b : BarKey)
  | walkComplete (id : Nat)
  | pageResponse (q : QKey)
  | queueConfigWrite (q : QKey) (r : QReg) (v : Dword)
  | reqHeadWrite (q : QKey) (v : Word)
  | rspTailWrite (q : QKey) (v : Word)
  | mgmtInvalidate (part : Nat) (kind : InvKind) (vf : BitVec 8) (asid : BitVec 16) (addr : Dword)
  | haltBroadcast (block core lane : Nat)
  | handlerEntry (block : Nat)
  | preempt (launch : Nat)
  | preemptDeferralTimeout (launch : Nat)
  | contextRestore (launch : Nat)
  | contextDiscard (launch : Nat)
  | gangSwitchTick (sched : List VfCfg)
  | tardyDeadline (die : Nat)
  | windowCompare (block : Nat)
  | taggedMessage (part : Nat) (src : MsgSrc)
  | armInstall (part n : Nat) (desc : BitVec 256)
  | armQuantum (part : Nat)
  | dispatchPlace (part : Nat)
  | backfillBlockTimeout (part : Nat)
  | blockRetire (block : Nat)
  | copyRequestStart (core : Nat)
  | copyGranule (core : Nat)
  | sendResponse (id : Nat) (status : Word)
  | mirrorStoreArrival (id core : Nat)
  | clusterWindowWrite (id : Nat)
  | matrixOpStart (core : Nat)
  | multicastGroupReady (core : Nat)
  | matrixOpComplete (core op : Nat)
  | ruleStepStart (core : Nat)
  | ruleGeneration (core : Nat)
  | ckptServiceReply (id : Nat) (reply : CkptReply)
  | partitionEntryWrite (n : Nat) (v : Word)
  | linkDead (die link : Nat) (lostReqs : List Nat) (lostEngines : List (Nat × Engine))
  | rerouteResume (die : Nat)
  | remoteWrite (part : Nat) (addr : Dword) (data : List Byte)
  | hostAtomic (part : Nat) (addr : Dword) (op : AtomOp) (w64 signed : Bool) (x cmp : Dword)
  | frameMigration (part : Nat) (old new : Nat) (stage : Fin 5)
  | errorCounterClear (reader : CtrReader) (c : ErrCtr)
  | powerOn (cfg : BootCfg)
  | attestationRequest (nonce : List Byte)
  | powerCap
  | reservedOpcode (w : Word)
  | sendPayloadRead (id : Nat)
  | busyRetry (id : Nat)
  | supplyRemoved
  | linkRetrain (link : Nat)
  | partitionResetComplete (part : Nat)
deriving DecidableEq, Repr

end Sys2Proof
end

