-- ==== Sys2Proof/Decode.lean ====
section
/-! DEFINITION. The decoder and the encoder of instruction words (spec/04): raw fields, the signature of every word (class,
opcode, field use, accepted literals, latency), the literal run, the decode faults in the order of R80, and the encoder. -/

namespace Sys2Proof

/-! ### Raw fields (R61, R67, R68) -/

/-- The fields of an instruction word and its literal run, as bits. `op` is apart: the signature holds it. -/
structure Raw where
  g : BitVec 4
  n : Bool
  k : Bool
  d : BitVec 7
  a : BitVec 7
  b : BitVec 7
  am : Option (BitVec 24)
  mm : Option (BitVec 24)
  hi : Option (BitVec 24)
  im : Option (BitVec 24)
deriving DecidableEq, Repr

/-- Whether a word is a literal word (R61, R67): bits [31:27] all ones. -/
def isLiteral (w : Word) : Bool := w.extractLsb' 27 5 == 0x1F#5

/-- KIND of a literal word. -/
def litKind (w : Word) : BitVec 3 := w.extractLsb' 24 3

/-- PAYLOAD of a literal word. -/
def litPayload (w : Word) : BitVec 24 := w.extractLsb' 0 24

/-- The literal word of a kind and payload. -/
def litWord (kind : BitVec 3) (p : BitVec 24) : Word := 0x1F#5 ++ kind ++ p

/-- The fields of a word, with an empty run. -/
def rawFields (w : Word) : Raw :=
  { g := w.extractLsb' 28 4, n := w.getLsbD 27, k := w.getLsbD 26, d := w.extractLsb' 14 7, a := w.extractLsb' 7 7,
    b := w.extractLsb' 0 7, am := none, mm := none, hi := none, im := none }

/-- The OP field. -/
def wordOp (w : Word) : BitVec 5 := w.extractLsb' 21 5

/-- The immediate part of a run: nothing, one IMM, or HIGH directly followed by IMM (R68). -/
def runImm (r : Raw) : List Word → Option Raw
  | [] => some r
  | [x] => if litKind x == 0 then some { r with im := some (litPayload x) } else none
  | [x, y] =>
    if litKind x == 1 && litKind y == 0 then some { r with hi := some (litPayload x), im := some (litPayload y) } else none
  | _ => none

/-- A literal run put beside the fields of its word; `none` when the run breaks the order or count of R68. -/
def withRun (r : Raw) (run : List Word) : Option Raw :=
  match run with
  | [] => some r
  | x :: rest =>
    if litKind x == 2 then runImm { r with mm := some (litPayload x) } rest
    else if litKind x == 3 then runImm { r with am := some (litPayload x) } rest
    else runImm r run

/-- The literal words of a run, in the order of R68. -/
def Raw.runWords (r : Raw) : List Word :=
  (r.mm.map (litWord 2)).toList ++ (r.am.map (litWord 3)).toList ++ (r.hi.map (litWord 1)).toList
    ++ (r.im.map (litWord 0)).toList

/-! ### Selectors as bits (Table 4.5, R65) -/

/-- The selector a vector-space value names. -/
def Sel.ofBits (x : BitVec 7) : Sel :=
  let n := x.toNat
  if h : n < 64 then .v ⟨n, h⟩
  else if n < 68 then .k (Fin.ofNat 4 (n - 64))
  else if n < 70 then .l (Fin.ofNat 2 (n - 68))
  else if n = 70 then .z
  else if n = 71 then .vx
  else .s (Fin.ofNat 56 (n - 72))

/-- The value of a vector-space selector. -/
def Sel.bits : Sel → BitVec 7
  | .v n => BitVec.ofNat 7 n
  | .k n => BitVec.ofNat 7 (64 + n)
  | .l n => BitVec.ofNat 7 (68 + n)
  | .z => 70
  | .vx => 71
  | .s n => BitVec.ofNat 7 (72 + n)

/-- The selector a scalar-space value names; 97 to 127 name nothing and are refused before this is used (R65). -/
def SSel.ofBits (x : BitVec 7) : SSel :=
  if h : x.toNat < 96 then .s ⟨x.toNat, h⟩ else .z

/-- The value of a scalar-space selector. -/
def SSel.bits : SSel → BitVec 7
  | .s n => BitVec.ofNat 7 n
  | .z => 96

/-- The guard of the G and N fields; G 12 to 14 are refused before this is used (R61). -/
def Guard.ofBits (g : BitVec 4) (n : Bool) : Guard :=
  if h : g.toNat < 12 then .pred ⟨g.toNat, h⟩ n else .always

/-- The G field. -/
def Guard.g : Guard → BitVec 4
  | .always => 15
  | .pred n _ => BitVec.ofNat 4 n

/-- The N field. -/
def Guard.n : Guard → Bool
  | .always => false
  | .pred _ neg => neg

/-- The rounding mode of a two-bit code (R105). -/
def RMode.ofBits (x : BitVec 2) : RMode :=
  match x.toNat with
  | 0 => .ne
  | 1 => .tz
  | 2 => .up
  | _ => .dn

/-- The code of a rounding mode (R105). -/
def RMode.bits : RMode → BitVec 2
  | .ne => 0
  | .tz => 1
  | .up => 2
  | .dn => 3

/-! ### Modifier payloads (Tables 4.8, 4.9) -/

/-- An ARITHMOD payload; `none` for a reserved bit or RM without RMV (R71). -/
def Arith.ofPayload (p : BitVec 24) : Option Arith :=
  if p.extractLsb' 10 14 != 0 then none
  else if !p.getLsbD 2 && p.extractLsb' 0 2 != 0 then none
  else some { toff := p.extractLsb' 5 5, sat := p.getLsbD 4, ftz := p.getLsbD 3,
              rm := if p.getLsbD 2 then some (RMode.ofBits (p.extractLsb' 0 2)) else none }

/-- The payload of an ARITHMOD literal. -/
def Arith.payload (m : Arith) : BitVec 24 :=
  (0 : BitVec 14) ++ m.toff ++ BitVec.ofBool m.sat ++ BitVec.ofBool m.ftz ++ BitVec.ofBool m.rm.isSome
    ++ (match m.rm with | some r => r.bits | none => 0)

/-- A CACHE code: `some none` is 0, the MDEF value. -/
def Cache.ofCode : Nat → Option (Option Cache)
  | 0 => some none
  | 1 => some (some .keep)
  | 2 => some (some .strm)
  | 3 => some (some .l2)
  | 4 => some (some .wt)
  | _ => none

/-- The CACHE code. -/
def Cache.code : Option Cache → BitVec 3
  | none => 0
  | some .keep => 1
  | some .strm => 2
  | some .l2 => 3
  | some .wt => 4

/-- A SPACE code. -/
def Space.ofCode : Nat → Option (Option Space)
  | 0 => some none
  | 1 => some (some .glb)
  | 2 => some (some .own)
  | 3 => some (some .clw)
  | 4 => some (some .mir)
  | 5 => some (some .par)
  | _ => none

/-- The SPACE code. -/
def Space.code : Option Space → BitVec 3
  | none => 0
  | some .glb => 1
  | some .own => 2
  | some .clw => 3
  | some .mir => 4
  | some .par => 5

/-- A SCOPE code. -/
def Scope.ofCode : Nat → Option (Option Scope)
  | 0 => some none
  | 1 => some (some .thr)
  | 2 => some (some .wrp)
  | 3 => some (some .blk)
  | 4 => some (some .clu)
  | 5 => some (some .dev)
  | 6 => some (some .sys)
  | _ => none

/-- The SCOPE code. -/
def Scope.code : Option Scope → BitVec 3
  | none => 0
  | some .thr => 1
  | some .wrp => 2
  | some .blk => 3
  | some .clu => 4
  | some .dev => 5
  | some .sys => 6

/-- An ORD code. -/
def Order.ofCode : Nat → Option (Option Order)
  | 0 => some none
  | 1 => some (some .plain)
  | 2 => some (some .acq)
  | 3 => some (some .rel)
  | 4 => some (some .acqRel)
  | _ => none

/-- The ORD code. -/
def Order.code : Option Order → BitVec 3
  | none => 0
  | some .plain => 1
  | some .acq => 2
  | some .rel => 3
  | some .acqRel => 4

/-- A MEMMOD payload; `none` for a reserved bit or field value (R70). -/
def MemMod.ofPayload (p : BitVec 24) : Option MemMod :=
  if p.extractLsb' 18 6 != 0 then none
  else
    match Cache.ofCode (p.extractLsb' 9 3).toNat, Space.ofCode (p.extractLsb' 6 3).toNat,
      Scope.ofCode (p.extractLsb' 3 3).toNat, Order.ofCode (p.extractLsb' 0 3).toNat with
    | some c, some sp, some sc, some o =>
      some { signed := p.getLsbD 17, w64 := p.getLsbD 16, noagg := p.getLsbD 15, ctr := p.extractLsb' 12 3, cache := c,
             space := sp, scope := sc, ord := o }
    | _, _, _, _ => none

/-- The payload of a MEMMOD literal. -/
def MemMod.payload (m : MemMod) : BitVec 24 :=
  (0 : BitVec 6) ++ BitVec.ofBool m.signed ++ BitVec.ofBool m.w64 ++ BitVec.ofBool m.noagg ++ m.ctr ++ Cache.code m.cache
    ++ Space.code m.space ++ Scope.code m.scope ++ Order.code m.ord

/-! ### Register numbers (Tables 4.20, 18.6) -/

/-- The special register of a number; `none` for an unlisted one (R82). -/
def SReg.ofNum : Nat → Option SReg
  | 0 => some .workid
  | 2 => some .levels
  | 4 => some .slot
  | 5 => some .warp
  | 6 => some .lane
  | 7 => some .core
  | 8 => some .cluster
  | 9 => some .part
  | 10 => some .clock
  | 12 => some .flags
  | 13 => some .rmode
  | 14 => some .vix
  | 15 => some .extheld
  | 16 => some .link
  | 18 => some .floor
  | 20 => some .settled
  | 22 => some .horizon
  | 24 => some .tcause
  | 25 => some .tinfo
  | 26 => some .tpc
  | 28 => some .taddr
  | 30 => some .tskid
  | 31 => some .tmask
  | 32 => some .synd
  | 34 => some .tunit
  | 36 => some .tstamp
  | 38 => some .nbv
  | _ => none

/-- The number of a special register. -/
def SReg.num : SReg → BitVec 7
  | .workid => 0
  | .levels => 2
  | .slot => 4
  | .warp => 5
  | .lane => 6
  | .core => 7
  | .cluster => 8
  | .part => 9
  | .clock => 10
  | .flags => 12
  | .rmode => 13
  | .vix => 14
  | .extheld => 15
  | .link => 16
  | .floor => 18
  | .settled => 20
  | .horizon => 22
  | .tcause => 24
  | .tinfo => 25
  | .tpc => 26
  | .taddr => 28
  | .tskid => 30
  | .tmask => 31
  | .synd => 32
  | .tunit => 34
  | .tstamp => 36
  | .nbv => 38

/-- Whether a special register is a pair (Table 4.20). -/
def SReg.pair : SReg → Bool
  | .workid | .levels | .clock | .link | .floor | .settled | .horizon | .tpc | .taddr | .synd | .tstamp => true
  | _ => false

/-- The writable special register of a number; `none` for a read-only or unlisted one (R82). -/
def WReg.ofNum : Nat → Option WReg
  | 12 => some .flags
  | 13 => some .rmode
  | 14 => some .vix
  | 16 => some .link
  | 18 => some .floor
  | _ => none

/-- The number of a writable special register. -/
def WReg.num : WReg → BitVec 7
  | .flags => 12
  | .rmode => 13
  | .vix => 14
  | .link => 16
  | .floor => 18

/-- Whether a writable special register is a pair. -/
def WReg.pair : WReg → Bool
  | .link | .floor => true
  | _ => false

/-- The control register of a number; `none` for an unlisted one (R323). -/
def CReg.ofNum : Nat → Option CReg
  | 0x00 => some .mode
  | 0x02 => some .ctxid
  | 0x04 => some .s1root
  | 0x06 => some .s2root
  | 0x08 => some .ptvec
  | 0x10 => some .qsel
  | 0x12 => some .qbase
  | 0x14 => some .qcfg
  | 0x15 => some .reqHead
  | 0x16 => some .reqTail
  | 0x17 => some .rspHead
  | 0x18 => some .rspTail
  | 0x19 => some .nextid
  | 0x20 => some .tickhold
  | 0x22 => some .hold
  | 0x24 => some .era
  | 0x26 => some .gen
  | _ => none

/-- The number of a control register. -/
def CReg.num : CReg → BitVec 7
  | .mode => 0x00
  | .ctxid => 0x02
  | .s1root => 0x04
  | .s2root => 0x06
  | .ptvec => 0x08
  | .qsel => 0x10
  | .qbase => 0x12
  | .qcfg => 0x14
  | .reqHead => 0x15
  | .reqTail => 0x16
  | .rspHead => 0x17
  | .rspTail => 0x18
  | .nextid => 0x19
  | .tickhold => 0x20
  | .hold => 0x22
  | .era => 0x24
  | .gen => 0x26

/-- Whether a control register is a pair (Table 18.6). -/
def CReg.pair : CReg → Bool
  | .s1root | .s2root | .ptvec | .qbase | .tickhold | .hold => true
  | _ => false

/-- The writable control register of a number; `none` for a read-only or unlisted one (R323). -/
def CWReg.ofNum : Nat → Option CWReg
  | 0x02 => some .ctxid
  | 0x04 => some .s1root
  | 0x06 => some .s2root
  | 0x08 => some .ptvec
  | 0x10 => some .qsel
  | 0x12 => some .qbase
  | 0x14 => some .qcfg
  | 0x15 => some .reqHead
  | 0x18 => some .rspTail
  | 0x20 => some .tickhold
  | _ => none

/-- The number of a writable control register. -/
def CWReg.num : CWReg → BitVec 7
  | .ctxid => 0x02
  | .s1root => 0x04
  | .s2root => 0x06
  | .ptvec => 0x08
  | .qsel => 0x10
  | .qbase => 0x12
  | .qcfg => 0x14
  | .reqHead => 0x15
  | .rspTail => 0x18
  | .tickhold => 0x20

/-- Whether a writable control register is a pair. -/
def CWReg.pair : CWReg → Bool
  | .s1root | .s2root | .ptvec | .qbase | .tickhold => true
  | _ => false

/-! ### Signatures -/

/-- How a word uses a 7-bit field (R63 to R66, R73 to R79, Table 4.17). -/
inductive FK where
  | free        -- any bits: an immediate, an offset, or a function code checked by the map
  | s32         -- 32-bit vector source
  | s64         -- 64-bit vector source
  | sQuad       -- a quad source (R346)
  | shflA       -- 32-bit source other than vx (R137)
  | sW64        -- 32-bit source, 64-bit under W64 (R205)
  | d32         -- 32-bit vector destination, or data read from D
  | d64         -- 64-bit vector destination, or data read from D
  | dQuad       -- a quad destination or data (Table 10.3)
  | dW64        -- atomic operand: 32-bit, 64-bit under W64 (R202)
  | d64B        -- 64-bit destination named by B (R199)
  | z           -- must be z of the vector space
  | zS          -- must be z of the scalar space
  | c32         -- 32-bit scalar-space source
  | c64         -- 64-bit scalar-space source
  | e32         -- 32-bit scalar-space destination
  | e64         -- 64-bit scalar-space destination
  | pred        -- condition and predicate number
  | pred0       -- condition 0 and a predicate number
  | vote        -- a predicate number, upper bits zero (R140)
  | kill        -- v, k or z (R77)
  | raw         -- a raw number, every value accepted
  | fx0         -- zero (R342)
  | fxMask      -- a five-bit mask, upper bits zero (R342)
  | fxRm        -- a rounding code, upper bits zero (R342)
  | fence       -- kind 0 to 2 and scope 1 to 6 (R76)
  | bar         -- a barrier of Table 2.3
  | fslot       -- a format slot, upper bits zero (R78)
  | slotB       -- a raw slot number 0 to 7 (R306)
  | rlq         -- kind 0 or 1, and a predicate number (R305)
  | xinv        -- an invalidation kind, upper bits zero (R228)
  | spr         -- a special register number (R82)
  | spw         -- a writable special register number (R82)
  | dSp         -- the destination of SREAD: 64-bit for a pair register (R82)
  | sSp         -- the source of SWRITE: 64-bit for a pair register (R82)
  | csr         -- a control register number (R323)
  | csw         -- a writable control register number (R323)
  | dCr         -- the destination of CSRR
  | sCr         -- the source of CSRW
deriving DecidableEq, Repr

/-- How a word reads an immediate run (Table 4.7). -/
inductive ImmK where
  | no | i32 | f32 | i64 | off | f64 | movi
deriving DecidableEq, Repr

/-- Which ARITHMOD fields a word accepts (Tables 7.1, 20.1); `lit` is whether it accepts the literal at all (R68, R118). -/
structure ArK where
  lit : Bool
  rm : Bool
  ftz : Bool
  sat : Bool
  toff : Bool
deriving DecidableEq, Repr

/-- Which MEMMOD fields a word accepts (Table 10.1, R289). -/
inductive MmK where
  | no | ld | st | sts | as | at | atS | af | ls | se | pf
deriving DecidableEq, Repr

/-- The signature of an instruction word: where the class maps place it, how it uses its fields, which literals it accepts,
and its place in the timing contract. -/
structure Sig where
  cls : Cls
  op : BitVec 5
  fn : Option (BitVec 7)
  d : FK
  a : FK
  b : FK
  imm : ImmK
  ar : ArK
  mm : MmK
  lat : Nat
  shifts : Bool
  readsD : Bool
  long : Bool
  l0 : Bool
deriving DecidableEq, Repr


/-- No ARITHMOD literal. -/
def ArK.none : ArK := ⟨false, false, false, false, false⟩

/-! ### Shapes and raw fields

For each shape, the fields it has as bits, and the shape that fields give. -/

/-- The B operand of a word with its run (R69). -/
def Opnd.ofRaw (r : Raw) : Opnd :=
  match r.im, r.hi with
  | none, _ => .sel (Sel.ofBits r.b)
  | some p, none => .imm p
  | some p, some h => .imm2 h p

/-- The B operand of a scalar-space word. -/
def SOpnd.ofRaw (r : Raw) : SOpnd :=
  match r.im, r.hi with
  | none, _ => .sel (SSel.ofBits r.b)
  | some p, none => .imm p
  | some p, some h => .imm2 h p

/-- The B field of an operand: z stands under an IMM run (R68). -/
def Opnd.bits : Opnd → BitVec 7
  | .sel x => x.bits
  | _ => 70

/-- The B field of a scalar-space operand. -/
def SOpnd.bits : SOpnd → BitVec 7
  | .sel x => x.bits
  | _ => 96

/-- The IMM payload of an operand. -/
def Opnd.im : Opnd → Option (BitVec 24)
  | .sel _ => none
  | .imm p => some p
  | .imm2 _ p => some p

/-- The HIGH payload of an operand. -/
def Opnd.hi : Opnd → Option (BitVec 24)
  | .imm2 h _ => some h
  | _ => none

/-- The IMM payload of a scalar operand. -/
def SOpnd.im : SOpnd → Option (BitVec 24)
  | .sel _ => none
  | .imm p => some p
  | .imm2 _ p => some p

/-- The HIGH payload of a scalar operand. -/
def SOpnd.hi : SOpnd → Option (BitVec 24)
  | .imm2 h _ => some h
  | _ => none

/-- A predicate number of a PRED word's D field; 12 to 15 are refused before this is used (R63). -/
def predOf (x : BitVec 7) : Fin 12 := Fin.ofNat 12 (x.toNat % 16)

/-- The D field of a PRED word. -/
def predField (cond : BitVec 3) (p : Fin 12) : BitVec 7 := cond ++ BitVec.ofNat 4 p

/-- Guard and dead mark of raw fields. -/
def Hd.ofRaw (r : Raw) : Hd := ⟨Guard.ofBits r.g r.n, r.k⟩

/-- Raw fields of a head and three field values, with an empty run. -/
def Hd.raw (h : Hd) (d a b : BitVec 7) : Raw :=
  { g := h.guard.g, n := h.guard.n, k := h.k, d := d, a := a, b := b, am := none, mm := none, hi := none, im := none }

/-- The ARITHMOD literal of raw fields. -/
def amOf (r : Raw) : Option Arith := r.am.bind Arith.ofPayload

/-- The MEMMOD literal of raw fields. -/
def mmOf (r : Raw) : Option MemMod := r.mm.bind MemMod.ofPayload

/-- z of the vector space, as a field. -/
def selZ : BitVec 7 := 70

/-- z of the scalar space, as a field. -/
def selZS : BitVec 7 := 96

def Tri.ofRaw (r : Raw) : Tri := ⟨Hd.ofRaw r, amOf r, Sel.ofBits r.d, Sel.ofBits r.a, Opnd.ofRaw r⟩
def Tri.raw (t : Tri) : Raw :=
  { t.h.raw t.d.bits t.a.bits t.b.bits with am := t.am.map Arith.payload, im := t.b.im, hi := t.b.hi }
def Duo.ofRaw (r : Raw) : Duo := ⟨Hd.ofRaw r, amOf r, Sel.ofBits r.d, Sel.ofBits r.a⟩
def Duo.raw (b : BitVec 7) (t : Duo) : Raw := { t.h.raw t.d.bits t.a.bits b with am := t.am.map Arith.payload }
def Cmp.ofRaw (r : Raw) : Cmp := ⟨Hd.ofRaw r, amOf r, r.d.extractLsb' 4 3, predOf r.d, Sel.ofBits r.a, Opnd.ofRaw r⟩
def Cmp.raw (t : Cmp) : Raw :=
  { t.h.raw (predField t.cond t.p) t.a.bits t.b.bits with am := t.am.map Arith.payload, im := t.b.im, hi := t.b.hi }
def MovI.ofRaw (r : Raw) : MovI := ⟨Hd.ofRaw r, amOf r, Sel.ofBits r.d, r.a ++ r.b, r.im⟩
def MovI.raw (t : MovI) : Raw :=
  { t.h.raw t.d.bits (t.imm14.extractLsb' 7 7) (t.imm14.extractLsb' 0 7) with
    am := t.am.map Arith.payload, im := t.lit }
def VoteW.ofRaw (r : Raw) : VoteW := ⟨Hd.ofRaw r, amOf r, Sel.ofBits r.d, predOf r.a⟩
def VoteW.raw (b : BitVec 7) (t : VoteW) : Raw :=
  { t.h.raw t.d.bits (predField 0 t.p) b with am := t.am.map Arith.payload }
def SlotW.ofRaw (r : Raw) : SlotW := ⟨Hd.ofRaw r, amOf r, Sel.ofBits r.d, Sel.ofBits r.a, Fin.ofNat 8 (r.b.toNat % 8)⟩
def SlotW.raw (b : BitVec 7) (t : SlotW) : Raw :=
  { t.h.raw t.d.bits t.a.bits (b + BitVec.ofNat 7 t.s) with am := t.am.map Arith.payload }
def FxD.ofRaw (r : Raw) : FxD := ⟨Hd.ofRaw r, amOf r, Sel.ofBits r.d⟩
def FxD.raw (b : BitVec 7) (t : FxD) : Raw := { t.h.raw t.d.bits 0 b with am := t.am.map Arith.payload }
def FxM.ofRaw (r : Raw) : FxM := ⟨Hd.ofRaw r, amOf r, Sel.ofBits r.d, r.a.extractLsb' 0 5⟩
def FxM.raw (b : BitVec 7) (t : FxM) : Raw :=
  { t.h.raw t.d.bits ((0 : BitVec 2) ++ t.mask) b with am := t.am.map Arith.payload }
def FxR.ofRaw (r : Raw) : FxR := ⟨Hd.ofRaw r, amOf r, Sel.ofBits r.d, RMode.ofBits (r.a.extractLsb' 0 2)⟩
def FxR.raw (b : BitVec 7) (t : FxR) : Raw :=
  { t.h.raw t.d.bits ((0 : BitVec 5) ++ t.rm.bits) b with am := t.am.map Arith.payload }
def PTri.ofRaw (r : Raw) : PTri := ⟨Hd.ofRaw r, amOf r, Sel.ofBits r.d, Sel.ofBits r.a, Sel.ofBits r.b⟩
def PTri.raw (t : PTri) : Raw := { t.h.raw t.d.bits t.a.bits t.b.bits with am := t.am.map Arith.payload }
def MemW.ofRaw (r : Raw) : MemW := ⟨Hd.ofRaw r, mmOf r, Sel.ofBits r.d, Sel.ofBits r.a, Opnd.ofRaw r⟩
def MemW.raw (t : MemW) : Raw :=
  { t.h.raw t.d.bits t.a.bits t.b.bits with mm := t.mm.map MemMod.payload, im := t.b.im, hi := t.b.hi }
def MemS.ofRaw (r : Raw) : MemS := ⟨Hd.ofRaw r, mmOf r, Sel.ofBits r.d, Sel.ofBits r.a, Sel.ofBits r.b⟩
def MemS.raw (t : MemS) : Raw := { t.h.raw t.d.bits t.a.bits t.b.bits with mm := t.mm.map MemMod.payload }
def FenceW.ofRaw (r : Raw) : FenceW := ⟨Hd.ofRaw r, ((Scope.ofCode (r.d.toNat % 16)).join).getD .thr⟩
def FenceW.raw (kind : BitVec 3) (t : FenceW) : Raw :=
  t.h.raw (kind ++ ((0 : BitVec 1) ++ Scope.code (some t.scope))) selZ selZ
def MemDA.ofRaw (r : Raw) : MemDA := ⟨Hd.ofRaw r, mmOf r, Sel.ofBits r.d, Sel.ofBits r.a⟩
def MemDA.raw (b : BitVec 7) (t : MemDA) : Raw := { t.h.raw t.d.bits t.a.bits b with mm := t.mm.map MemMod.payload }
def MemA.ofRaw (r : Raw) : MemA := ⟨Hd.ofRaw r, mmOf r, Sel.ofBits r.a⟩
def MemA.raw (b : BitVec 7) (t : MemA) : Raw := { t.h.raw selZ t.a.bits b with mm := t.mm.map MemMod.payload }
def MemAB.ofRaw (r : Raw) : MemAB := ⟨Hd.ofRaw r, mmOf r, Sel.ofBits r.a, Opnd.ofRaw r⟩
def MemAB.raw (t : MemAB) : Raw :=
  { t.h.raw selZ t.a.bits t.b.bits with mm := t.mm.map MemMod.payload, im := t.b.im, hi := t.b.hi }
def HdW.ofRaw (r : Raw) : HdW := ⟨Hd.ofRaw r⟩
def HdW.raw (t : HdW) : Raw := t.h.raw selZ selZ selZ
def WA.ofRaw (r : Raw) : WA := ⟨Hd.ofRaw r, Sel.ofBits r.a⟩
def WA.raw (b : BitVec 7) (t : WA) : Raw := t.h.raw selZ t.a.bits b
def WD.ofRaw (r : Raw) : WD := ⟨Hd.ofRaw r, Sel.ofBits r.d⟩
def WD.raw (t : WD) : Raw := t.h.raw t.d.bits selZ selZ
def WDA.ofRaw (r : Raw) : WDA := ⟨Hd.ofRaw r, Sel.ofBits r.d, Sel.ofBits r.a⟩
def WDA.raw (b : BitVec 7) (t : WDA) : Raw := t.h.raw t.d.bits t.a.bits b
def WAB.ofRaw (r : Raw) : WAB := ⟨Hd.ofRaw r, Sel.ofBits r.a, Opnd.ofRaw r⟩
def WAB.raw (d : BitVec 7) (t : WAB) : Raw := { t.h.raw d t.a.bits t.b.bits with im := t.b.im, hi := t.b.hi }
def WB.ofRaw (r : Raw) : WB := ⟨Hd.ofRaw r, Opnd.ofRaw r⟩
def WB.raw (d : BitVec 7) (t : WB) : Raw := { t.h.raw d selZ t.b.bits with im := t.b.im, hi := t.b.hi }
def WDAB.ofRaw (r : Raw) : WDAB := ⟨Hd.ofRaw r, Sel.ofBits r.d, Sel.ofBits r.a, Opnd.ofRaw r⟩
def WDAB.raw (t : WDAB) : Raw := { t.h.raw t.d.bits t.a.bits t.b.bits with im := t.b.im, hi := t.b.hi }
def BrW.ofRaw (r : Raw) : BrW := ⟨Hd.ofRaw r, r.d ++ r.a ++ r.b⟩
def BrW.raw (t : BrW) : Raw := t.h.raw (t.off.extractLsb' 14 7) (t.off.extractLsb' 7 7) (t.off.extractLsb' 0 7)
def SAW.ofRaw (r : Raw) : SAW := ⟨Hd.ofRaw r, SSel.ofBits r.a⟩
def SAW.raw (t : SAW) : Raw := t.h.raw selZS t.a.bits selZS
def BarW.ofRaw (r : Raw) : BarW := ⟨Hd.ofRaw r, r.d.extractLsb' 5 2, r.d.extractLsb' 0 5⟩
def BarW.raw (t : BarW) : Raw := t.h.raw (t.level ++ t.num) selZ selZ
def PW.ofRaw (r : Raw) : PW := ⟨Hd.ofRaw r, predOf r.d⟩
def PW.raw (t : PW) : Raw := t.h.raw (predField 0 t.p) selZ selZ
def KillW.ofRaw (r : Raw) : KillW := ⟨Hd.ofRaw r, Sel.ofBits r.d, Sel.ofBits r.a, Sel.ofBits r.b⟩
def KillW.raw (t : KillW) : Raw := t.h.raw t.d.bits t.a.bits t.b.bits
def SReadW.ofRaw (r : Raw) : SReadW := ⟨Hd.ofRaw r, Sel.ofBits r.d, (SReg.ofNum r.b.toNat).getD .workid⟩
def SReadW.raw (t : SReadW) : Raw := t.h.raw t.d.bits selZ t.r.num
def SWriteW.ofRaw (r : Raw) : SWriteW := ⟨Hd.ofRaw r, Sel.ofBits r.a, (WReg.ofNum r.b.toNat).getD .flags⟩
def SWriteW.raw (t : SWriteW) : Raw := t.h.raw selZ t.a.bits t.r.num
def TrapW.ofRaw (r : Raw) : TrapW := ⟨Hd.ofRaw r, r.b⟩
def TrapW.raw (t : TrapW) : Raw := t.h.raw selZ selZ t.code
def STri.ofRaw (r : Raw) : STri := ⟨Hd.ofRaw r, SSel.ofBits r.d, SSel.ofBits r.a, SOpnd.ofRaw r⟩
def STri.raw (t : STri) : Raw := { t.h.raw t.d.bits t.a.bits t.b.bits with im := t.b.im, hi := t.b.hi }
def SDA.ofRaw (r : Raw) : SDA := ⟨Hd.ofRaw r, SSel.ofBits r.d, SSel.ofBits r.a⟩
def SDA.raw (t : SDA) : Raw := t.h.raw t.d.bits t.a.bits selZS
def SMovI.ofRaw (r : Raw) : SMovI := ⟨Hd.ofRaw r, SSel.ofBits r.d, r.a ++ r.b, r.im⟩
def SMovI.raw (t : SMovI) : Raw :=
  { t.h.raw t.d.bits (t.imm14.extractLsb' 7 7) (t.imm14.extractLsb' 0 7) with im := t.lit }
def SCmp.ofRaw (r : Raw) : SCmp := ⟨Hd.ofRaw r, r.d.extractLsb' 4 3, predOf r.d, SSel.ofBits r.a, SOpnd.ofRaw r⟩
def SCmp.raw (t : SCmp) : Raw :=
  { t.h.raw (predField t.cond t.p) t.a.bits t.b.bits with im := t.b.im, hi := t.b.hi }
def SLdW.ofRaw (r : Raw) : SLdW := ⟨Hd.ofRaw r, mmOf r, SSel.ofBits r.d, SSel.ofBits r.a, SOpnd.ofRaw r⟩
def SLdW.raw (t : SLdW) : Raw :=
  { t.h.raw t.d.bits t.a.bits t.b.bits with mm := t.mm.map MemMod.payload, im := t.b.im, hi := t.b.hi }
def VtosW.ofRaw (r : Raw) : VtosW := ⟨Hd.ofRaw r, SSel.ofBits r.d, Sel.ofBits r.a⟩
def VtosW.raw (t : VtosW) : Raw := t.h.raw t.d.bits t.a.bits selZ
def FsA.ofRaw (r : Raw) : FsA := ⟨Hd.ofRaw r, Fin.ofNat 8 (r.d.toNat % 8), Sel.ofBits r.a⟩
def FsA.raw (t : FsA) : Raw := t.h.raw (BitVec.ofNat 7 t.s) t.a.bits selZ
def FsD.ofRaw (r : Raw) : FsD := ⟨Hd.ofRaw r, Fin.ofNat 8 (r.b.toNat % 8), Sel.ofBits r.d⟩
def FsD.raw (t : FsD) : Raw := t.h.raw t.d.bits selZ (BitVec.ofNat 7 t.s)
def RlqW.ofRaw (r : Raw) : RlqW := ⟨Hd.ofRaw r, predOf r.d, Sel.ofBits r.a, Opnd.ofRaw r⟩
def RlqW.raw (kind : BitVec 3) (t : RlqW) : Raw :=
  { t.h.raw (predField kind t.p) t.a.bits t.b.bits with im := t.b.im, hi := t.b.hi }
def CsrrW.ofRaw (r : Raw) : CsrrW := ⟨Hd.ofRaw r, Sel.ofBits r.d, (CReg.ofNum r.b.toNat).getD .mode⟩
def CsrrW.raw (t : CsrrW) : Raw := t.h.raw t.d.bits selZ t.r.num
def CsrwW.ofRaw (r : Raw) : CsrwW := ⟨Hd.ofRaw r, Sel.ofBits r.a, (CWReg.ofNum r.b.toNat).getD .ctxid⟩
def CsrwW.raw (t : CsrwW) : Raw := t.h.raw selZ t.a.bits t.r.num

/-! ### Decode faults (R80) -/

/-- The cause codes that decode raises (Table 4.21). -/
inductive DecCause where
  | guard | reserved | priv | literal | operand
deriving DecidableEq, Repr

/-- A decode fault with its TINFO. -/
structure DecFault where
  cause : DecCause
  info : Word
deriving DecidableEq, Repr

/-- What decode knows beside the word: the class of the word's place, how many earlier words of the clause shift the latches,
the privileged and handler states of the bundle's context, and the A element formats of the launch's slots. -/
structure DecCtx where
  cls : Cls
  nsh : Nat
  priv : Bool
  handler : Bool
  fmts : List Nat
deriving DecidableEq, Repr

/-- The 32-bit vector source rule (R64, R66): any selector but an invalid latch (R35). -/
def srcOk (nsh : Nat) (x : BitVec 7) : Bool :=
  if x.toNat = 68 then 1 ≤ nsh else if x.toNat = 69 then 2 ≤ nsh else true

/-- The 64-bit vector source rule (R66). -/
def src64Ok (nsh : Nat) (x : BitVec 7) : Bool :=
  if x.toNat < 68 then x.toNat % 2 == 0
  else if x.toNat < 72 then srcOk nsh x
  else x.toNat % 2 == 0

/-- The 32-bit vector destination rule: v, k, z or vx (R66). -/
def dstOk (x : BitVec 7) : Bool := x.toNat < 68 || x.toNat == 70 || x.toNat == 71

/-- The 64-bit vector destination rule. -/
def dst64Ok (x : BitVec 7) : Bool := dstOk x && (68 ≤ x.toNat || x.toNat % 2 == 0)

/-- The quad rule of Table 10.3. -/
def quadOk (x : BitVec 7) : Bool := dstOk x && (68 ≤ x.toNat || x.toNat % 4 == 0)

/-- Whether a field meets its rule. `w64` is the word's W64 modifier and `spec` the special or control number of B. -/
def FK.ok (nsh : Nat) (w64 : Bool) (spec : Nat) (k : FK) (x : BitVec 7) : Bool :=
  match k with
  | .free | .raw => true
  | .s32 => srcOk nsh x
  | .s64 => src64Ok nsh x
  | .sQuad => quadOk x && x != 70
  | .shflA => srcOk nsh x && x != 71
  | .sW64 => if w64 then src64Ok nsh x else srcOk nsh x
  | .d32 => dstOk x
  | .d64 => dst64Ok x
  | .dQuad => quadOk x
  | .dW64 => if w64 then dst64Ok x else dstOk x
  | .d64B => dst64Ok x
  | .z => x == selZ
  | .zS => x == selZS
  | .c32 => x.toNat ≤ 96
  | .c64 => x.toNat ≤ 96 && x.toNat % 2 == 0
  | .e32 => x.toNat ≤ 96
  | .e64 => x.toNat ≤ 96 && x.toNat % 2 == 0
  | .pred => x.toNat % 16 < 12
  | .pred0 => x.toNat < 12
  | .vote => x.toNat < 12
  | .kill => x.toNat < 68 || x == selZ
  | .fx0 => x == 0
  | .fxMask => x.toNat < 32
  | .fxRm => x.toNat < 4
  | .fence => x.toNat / 16 < 3 && 1 ≤ x.toNat % 16 && x.toNat % 16 ≤ 6
  | .bar =>
    x.toNat % 32 < (match x.toNat / 32 with | 0 => 4 | 1 => 16 | 2 => 8 | _ => 2)
  | .fslot => x.toNat < 8
  | .slotB => x.toNat < 8
  | .rlq => x.toNat / 16 < 2 && x.toNat % 16 < 12
  | .xinv => x.toNat < 4
  | .spr => (SReg.ofNum x.toNat).isSome
  | .spw => (WReg.ofNum x.toNat).isSome
  | .dSp => if ((SReg.ofNum spec).map SReg.pair).getD false then dst64Ok x else dstOk x
  | .sSp => if ((WReg.ofNum spec).map WReg.pair).getD false then src64Ok nsh x else srcOk nsh x
  | .csr => (CReg.ofNum x.toNat).isSome
  | .csw => (CWReg.ofNum x.toNat).isSome
  | .dCr => if ((CReg.ofNum spec).map CReg.pair).getD false then dst64Ok x else dstOk x
  | .sCr => if ((CWReg.ofNum spec).map CWReg.pair).getD false then src64Ok nsh x else srcOk nsh x

/-- Whether a field is one that an IMM run replaces, and the value it must then hold (R68). -/
def FK.immHole (k : FK) : Option (BitVec 7) :=
  match k with
  | .c32 => some selZS
  | .s32 | .s64 | .shflA | .sW64 => some selZ
  | _ => none

/-- Whether the immediate part of a run is accepted (R68, Table 4.7). -/
def immOk (sg : Sig) (r : Raw) : Bool :=
  match r.im, r.hi with
  | none, none => true
  | none, some _ => false
  | some _, h =>
    match sg.imm with
    | .no => false
    | .movi => h.isNone && r.a.toNat < 2
    | .i32 | .f32 => h.isNone && (sg.b.immHole == some r.b)
    | .i64 | .off | .f64 => sg.b.immHole == some r.b

/-- Whether an ARITHMOD literal is accepted (R71). -/
def arithOk (k : ArK) (p : BitVec 24) : Bool :=
  match Arith.ofPayload p with
  | none => false
  | some m => k.lit && (m.rm.isNone || k.rm) && (!m.ftz || k.ftz) && (!m.sat || k.sat) && (m.toff == 0 || k.toff)

/-- Whether a MEMMOD's fields are all accepted by a word (Table 10.1, R289). -/
def memModOk (k : MmK) (m : MemMod) : Bool :=
  let ord := match m.ord, k with
    | none, _ => true
    | some .plain, .ld | some .acq, .ld => true
    | some .plain, .st | some .rel, .st | some .plain, .sts | some .rel, .sts => true
    | some _, .at | some _, .atS | some _, .af => true
    | _, _ => false
  let scope := match k with
    | .as | .ls | .se | .pf => m.scope.isNone
    | _ => true
  let space := match m.space, k with
    | none, _ => true
    | some .glb, .sts | some .glb, .as | some .glb, .ls => true
    | some _, .sts | some _, .as | some _, .ls | some _, .se => false
    | some x, .pf => x == .glb || x == .own || x == .clw
    | _, _ => true
  let cache := match k with
    | .as | .ls | .se => m.cache.isNone
    | _ => true
  let ctr := match k with
    | .st => true
    | .pf => m.ctr == 6
    | _ => m.ctr != 7
  let noagg := match k with
    | .at | .atS | .af => true
    | _ => !m.noagg
  let w64 := match k with
    | .at | .atS => true
    | _ => !m.w64
  let sgn := match k with
    | .atS => true
    | _ => !m.signed
  k != .no && ord && scope && space && cache && ctr && noagg && w64 && sgn

/-- Whether the literal run of a word is accepted (R68). -/
def litOk (sg : Sig) (r : Raw) : Bool :=
  (match r.am with | none => true | some p => arithOk sg.ar p)
    && (match r.mm with | none => true | some p => match MemMod.ofPayload p with | none => false | some m => memModOk sg.mm m)
    && immOk sg r

/-- The W64 modifier of a run (R202). -/
def rawW64 (r : Raw) : Bool := ((mmOf r).map MemMod.w64).getD false

/-- The field-3 case of an operand fault: the slot format of QUANT, DEQ, QUANT4 and DEQ4 (R148, R346), then the implicit l0
of FFMAL and DFMAL (R35). -/
def otherFault (c : DecCtx) (sg : Sig) (r : Raw) : Option Nat :=
  if sg.l0 && c.nsh < 1 then some 68
  else if (sg.cls == .gen && sg.op == 31 || sg.cls == .pkd && sg.op == 19) && 0x40 ≤ r.b.toNat && r.b.toNat < 0x50 then
    let f := c.fmts.getD (r.b.toNat % 8) 0
    let lo := if sg.cls == .gen then 1 else 4
    if f < lo || 7 < f then some f else none
  else none

/-- The operand fault of a word, in the order A, B, D, other (R80). -/
def operandFault (c : DecCtx) (sg : Sig) (r : Raw) : Option Word :=
  let w64 := rawW64 r
  let bad := fun (k : FK) (x : BitVec 7) => !k.ok c.nsh w64 r.b.toNat x
  if bad sg.a r.a then some (BitVec.ofNat 32 r.a.toNat)
  else if bad sg.b r.b then some (BitVec.ofNat 32 (0x100 + r.b.toNat))
  else if bad sg.d r.d then some (BitVec.ofNat 32 (0x200 + r.d.toNat))
  else (otherFault c sg r).map (fun v => BitVec.ofNat 32 (0x300 + v))

/-- The word of fields under an opcode (Table 4.3). -/
def Raw.word (r : Raw) (op : BitVec 5) : Word :=
  r.g ++ BitVec.ofBool r.n ++ BitVec.ofBool r.k ++ op ++ r.d ++ r.a ++ r.b

/-! ### The signature of every word (Tables 4.11 to 4.18) -/

/-- The signature of an instruction word; an event has none. -/
def Instr.sig : Instr → Option Sig
  | .iadd _ => some ⟨.gen, 0, none, .d32, .s32, .s32, .i32, ⟨true, false, false, true, false⟩, .no, 4, true, false, false, false⟩
  | .isub _ => some ⟨.gen, 1, none, .d32, .s32, .s32, .i32, ⟨true, false, false, true, false⟩, .no, 4, true, false, false, false⟩
  | .imul _ => some ⟨.gen, 2, none, .d32, .s32, .s32, .i32, ⟨true, false, false, true, false⟩, .no, 6, true, false, false, false⟩
  | .imad _ => some ⟨.gen, 3, none, .d32, .s32, .s32, .i32, ⟨true, false, false, true, false⟩, .no, 6, true, true, false, false⟩
  | .imulh _ => some ⟨.gen, 4, none, .d32, .s32, .s32, .i32, ⟨true, false, false, false, false⟩, .no, 6, true, false, false, false⟩
  | .imulhn _ => some ⟨.gen, 5, none, .d32, .s32, .s32, .i32, ⟨true, false, false, false, false⟩, .no, 6, true, false, false, false⟩
  | .and _ => some ⟨.gen, 6, none, .d32, .s32, .s32, .i32, ⟨true, false, false, false, false⟩, .no, 4, true, false, false, false⟩
  | .or _ => some ⟨.gen, 7, none, .d32, .s32, .s32, .i32, ⟨true, false, false, false, false⟩, .no, 4, true, false, false, false⟩
  | .xor _ => some ⟨.gen, 8, none, .d32, .s32, .s32, .i32, ⟨true, false, false, false, false⟩, .no, 4, true, false, false, false⟩
  | .andn _ => some ⟨.gen, 9, none, .d32, .s32, .s32, .i32, ⟨true, false, false, false, false⟩, .no, 4, true, false, false, false⟩
  | .shl _ => some ⟨.gen, 10, none, .d32, .s32, .s32, .i32, ⟨true, false, false, false, false⟩, .no, 4, true, false, false, false⟩
  | .shr _ => some ⟨.gen, 11, none, .d32, .s32, .s32, .i32, ⟨true, false, false, false, false⟩, .no, 4, true, false, false, false⟩
  | .sar _ => some ⟨.gen, 12, none, .d32, .s32, .s32, .i32, ⟨true, false, false, false, false⟩, .no, 4, true, false, false, false⟩
  | .fdiv _ => some ⟨.gen, 13, none, .d32, .s32, .s32, .f32, ⟨true, true, true, true, true⟩, .no, 0, false, false, true, false⟩
  | .imin _ => some ⟨.gen, 14, none, .d32, .s32, .s32, .i32, ⟨true, false, false, false, false⟩, .no, 4, true, false, false, false⟩
  | .imax _ => some ⟨.gen, 15, none, .d32, .s32, .s32, .i32, ⟨true, false, false, false, false⟩, .no, 4, true, false, false, false⟩
  | .nmin _ => some ⟨.gen, 16, none, .d32, .s32, .s32, .i32, ⟨true, false, false, false, false⟩, .no, 4, true, false, false, false⟩
  | .nmax _ => some ⟨.gen, 17, none, .d32, .s32, .s32, .i32, ⟨true, false, false, false, false⟩, .no, 4, true, false, false, false⟩
  | .isetp _ => some ⟨.gen, 18, none, .pred, .s32, .s32, .i32, ⟨true, false, false, false, false⟩, .no, 4, false, false, false, false⟩
  | .sel _ => some ⟨.gen, 19, none, .d32, .s32, .s32, .i32, ⟨true, false, false, false, false⟩, .no, 4, true, false, false, false⟩
  | .mov _ => some ⟨.gen, 20, none, .d32, .s32, .z, .no, ⟨true, false, false, false, false⟩, .no, 4, true, false, false, false⟩
  | .movi _ => some ⟨.gen, 21, none, .d32, .free, .free, .movi, ⟨true, false, false, false, false⟩, .no, 4, true, false, false, false⟩
  | .shfl _ => some ⟨.gen, 22, none, .d32, .shflA, .s32, .i32, ⟨true, false, false, false, false⟩, .no, 6, true, false, false, false⟩
  | .voteAny _ => some ⟨.gen, 23, some 0, .d32, .vote, .free, .no, ⟨true, false, false, false, false⟩, .no, 8, true, false, false, false⟩
  | .voteAll _ => some ⟨.gen, 23, some 1, .d32, .vote, .free, .no, ⟨true, false, false, false, false⟩, .no, 8, true, false, false, false⟩
  | .voteBallot _ => some ⟨.gen, 23, some 2, .d32, .vote, .free, .no, ⟨true, false, false, false, false⟩, .no, 8, true, false, false, false⟩
  | .fadd _ => some ⟨.gen, 24, none, .d32, .s32, .s32, .f32, ⟨true, true, true, true, true⟩, .no, 6, true, false, false, false⟩
  | .fmul _ => some ⟨.gen, 25, none, .d32, .s32, .s32, .f32, ⟨true, true, true, true, true⟩, .no, 6, true, false, false, false⟩
  | .ffma _ => some ⟨.gen, 26, none, .d32, .s32, .s32, .f32, ⟨true, true, true, true, true⟩, .no, 6, true, true, false, false⟩
  | .ffmal _ => some ⟨.gen, 27, none, .d32, .s32, .s32, .f32, ⟨true, true, true, true, true⟩, .no, 6, true, false, false, true⟩
  | .fmin _ => some ⟨.gen, 28, none, .d32, .s32, .s32, .f32, ⟨true, false, true, false, true⟩, .no, 6, true, false, false, false⟩
  | .fmax _ => some ⟨.gen, 29, none, .d32, .s32, .s32, .f32, ⟨true, false, true, false, true⟩, .no, 6, true, false, false, false⟩
  | .fsetp _ => some ⟨.gen, 30, none, .pred, .s32, .s32, .f32, ⟨true, false, true, false, true⟩, .no, 4, false, false, false, false⟩
  | .ineg _ => some ⟨.gen, 31, some 0, .d32, .s32, .free, .no, ⟨true, false, false, true, false⟩, .no, 4, true, false, false, false⟩
  | .iabs _ => some ⟨.gen, 31, some 1, .d32, .s32, .free, .no, ⟨true, false, false, true, false⟩, .no, 4, true, false, false, false⟩
  | .not _ => some ⟨.gen, 31, some 2, .d32, .s32, .free, .no, ⟨true, false, false, false, false⟩, .no, 4, true, false, false, false⟩
  | .popc _ => some ⟨.gen, 31, some 3, .d32, .s32, .free, .no, ⟨true, false, false, false, false⟩, .no, 4, true, false, false, false⟩
  | .clz _ => some ⟨.gen, 31, some 4, .d32, .s32, .free, .no, ⟨true, false, false, false, false⟩, .no, 4, true, false, false, false⟩
  | .brev _ => some ⟨.gen, 31, some 5, .d32, .s32, .free, .no, ⟨true, false, false, false, false⟩, .no, 4, true, false, false, false⟩
  | .bswap _ => some ⟨.gen, 31, some 6, .d32, .s32, .free, .no, ⟨true, false, false, false, false⟩, .no, 4, true, false, false, false⟩
  | .fneg _ => some ⟨.gen, 31, some 16, .d32, .s32, .free, .no, ArK.none, .no, 4, true, false, false, false⟩
  | .fabs _ => some ⟨.gen, 31, some 17, .d32, .s32, .free, .no, ArK.none, .no, 4, true, false, false, false⟩
  | .frcp _ => some ⟨.gen, 31, some 18, .d32, .s32, .free, .no, ⟨true, true, true, true, true⟩, .no, 0, false, false, true, false⟩
  | .fsqrt _ => some ⟨.gen, 31, some 19, .d32, .s32, .free, .no, ⟨true, true, true, true, true⟩, .no, 0, false, false, true, false⟩
  | .frsq _ => some ⟨.gen, 31, some 20, .d32, .s32, .free, .no, ⟨true, true, true, true, true⟩, .no, 0, false, false, true, false⟩
  | .fex2 _ => some ⟨.gen, 31, some 21, .d32, .s32, .free, .no, ⟨true, true, true, true, true⟩, .no, 0, false, false, true, false⟩
  | .flg2 _ => some ⟨.gen, 31, some 22, .d32, .s32, .free, .no, ⟨true, true, true, true, true⟩, .no, 0, false, false, true, false⟩
  | .fsin _ => some ⟨.gen, 31, some 23, .d32, .s32, .free, .no, ⟨true, true, true, true, true⟩, .no, 0, false, false, true, false⟩
  | .fcos _ => some ⟨.gen, 31, some 24, .d32, .s32, .free, .no, ⟨true, true, true, true, true⟩, .no, 0, false, false, true, false⟩
  | .fclass _ => some ⟨.gen, 31, some 25, .d32, .s32, .free, .no, ⟨true, false, true, false, false⟩, .no, 4, true, false, false, false⟩
  | .frint _ => some ⟨.gen, 31, some 26, .d32, .s32, .free, .no, ⟨true, true, true, false, true⟩, .no, 4, true, false, false, false⟩
  | .cvtF32I32 _ => some ⟨.gen, 31, some 32, .d32, .s32, .free, .no, ⟨true, true, true, false, true⟩, .no, 4, true, false, false, false⟩
  | .cvtF32N32 _ => some ⟨.gen, 31, some 33, .d32, .s32, .free, .no, ⟨true, true, true, false, true⟩, .no, 4, true, false, false, false⟩
  | .cvtI32F32 _ => some ⟨.gen, 31, some 34, .d32, .s32, .free, .no, ⟨true, true, true, true, true⟩, .no, 4, true, false, false, false⟩
  | .cvtN32F32 _ => some ⟨.gen, 31, some 35, .d32, .s32, .free, .no, ⟨true, true, true, true, true⟩, .no, 4, true, false, false, false⟩
  | .cvtF16F32 _ => some ⟨.gen, 31, some 36, .d32, .s32, .free, .no, ⟨true, true, true, true, true⟩, .no, 4, true, false, false, false⟩
  | .cvtF32F16 _ => some ⟨.gen, 31, some 37, .d32, .s32, .free, .no, ⟨true, false, true, false, true⟩, .no, 4, true, false, false, false⟩
  | .cvtBf16F32 _ => some ⟨.gen, 31, some 38, .d32, .s32, .free, .no, ⟨true, true, false, true, true⟩, .no, 4, true, false, false, false⟩
  | .cvtF32Bf16 _ => some ⟨.gen, 31, some 39, .d32, .s32, .free, .no, ⟨true, false, false, false, true⟩, .no, 4, true, false, false, false⟩
  | .cvtI32I8 _ => some ⟨.gen, 31, some 40, .d32, .s32, .free, .no, ⟨true, false, false, false, false⟩, .no, 4, true, false, false, false⟩
  | .cvtI32I16 _ => some ⟨.gen, 31, some 41, .d32, .s32, .free, .no, ⟨true, false, false, false, false⟩, .no, 4, true, false, false, false⟩
  | .quant _ => some ⟨.gen, 31, some 64, .d32, .s32, .free, .no, ⟨true, false, false, false, true⟩, .no, 4, true, false, false, false⟩
  | .deq _ => some ⟨.gen, 31, some 72, .d32, .s32, .free, .no, ⟨true, false, false, false, true⟩, .no, 4, true, false, false, false⟩
  | .dadd _ => some ⟨.wide, 0, none, .d64, .s64, .s64, .f64, ⟨true, true, false, true, true⟩, .no, 8, true, false, false, false⟩
  | .dsub _ => some ⟨.wide, 1, none, .d64, .s64, .s64, .f64, ⟨true, true, false, true, true⟩, .no, 8, true, false, false, false⟩
  | .dmul _ => some ⟨.wide, 2, none, .d64, .s64, .s64, .f64, ⟨true, true, false, true, true⟩, .no, 8, true, false, false, false⟩
  | .dfma _ => some ⟨.wide, 3, none, .d64, .s64, .s64, .f64, ⟨true, true, false, true, true⟩, .no, 8, true, true, false, false⟩
  | .dfmal _ => some ⟨.wide, 4, none, .d64, .s64, .s64, .f64, ⟨true, true, false, true, true⟩, .no, 8, true, false, false, true⟩
  | .ddiv _ => some ⟨.wide, 5, none, .d64, .s64, .s64, .f64, ⟨true, true, false, true, true⟩, .no, 0, false, false, true, false⟩
  | .dmin _ => some ⟨.wide, 6, none, .d64, .s64, .s64, .f64, ⟨true, false, false, false, true⟩, .no, 8, true, false, false, false⟩
  | .dmax _ => some ⟨.wide, 7, none, .d64, .s64, .s64, .f64, ⟨true, false, false, false, true⟩, .no, 8, true, false, false, false⟩
  | .dsetp _ => some ⟨.wide, 8, none, .pred, .s64, .s64, .f64, ⟨true, false, false, false, true⟩, .no, 4, false, false, false, false⟩
  | .dscale _ => some ⟨.wide, 9, none, .d64, .s64, .s32, .i32, ⟨true, true, false, true, true⟩, .no, 8, true, false, false, false⟩
  | .ladd _ => some ⟨.wide, 10, none, .d64, .s64, .s64, .i64, ⟨true, false, false, true, false⟩, .no, 4, true, false, false, false⟩
  | .lsub _ => some ⟨.wide, 11, none, .d64, .s64, .s64, .i64, ⟨true, false, false, true, false⟩, .no, 4, true, false, false, false⟩
  | .lmul _ => some ⟨.wide, 12, none, .d64, .s64, .s64, .i64, ⟨true, false, false, true, false⟩, .no, 8, true, false, false, false⟩
  | .lmulh _ => some ⟨.wide, 13, none, .d64, .s64, .s64, .i64, ⟨true, false, false, false, false⟩, .no, 8, true, false, false, false⟩
  | .lmulhn _ => some ⟨.wide, 14, none, .d64, .s64, .s64, .i64, ⟨true, false, false, false, false⟩, .no, 8, true, false, false, false⟩
  | .land _ => some ⟨.wide, 15, none, .d64, .s64, .s64, .i64, ⟨true, false, false, false, false⟩, .no, 4, true, false, false, false⟩
  | .lor _ => some ⟨.wide, 16, none, .d64, .s64, .s64, .i64, ⟨true, false, false, false, false⟩, .no, 4, true, false, false, false⟩
  | .lxor _ => some ⟨.wide, 17, none, .d64, .s64, .s64, .i64, ⟨true, false, false, false, false⟩, .no, 4, true, false, false, false⟩
  | .lshl _ => some ⟨.wide, 18, none, .d64, .s64, .s32, .i32, ⟨true, false, false, false, false⟩, .no, 4, true, false, false, false⟩
  | .lshr _ => some ⟨.wide, 19, none, .d64, .s64, .s32, .i32, ⟨true, false, false, false, false⟩, .no, 4, true, false, false, false⟩
  | .lsar _ => some ⟨.wide, 20, none, .d64, .s64, .s32, .i32, ⟨true, false, false, false, false⟩, .no, 4, true, false, false, false⟩
  | .lsetp _ => some ⟨.wide, 21, none, .pred, .s64, .s64, .i64, ⟨true, false, false, false, false⟩, .no, 4, false, false, false, false⟩
  | .lmin _ => some ⟨.wide, 22, none, .d64, .s64, .s64, .i64, ⟨true, false, false, false, false⟩, .no, 4, true, false, false, false⟩
  | .lmax _ => some ⟨.wide, 23, none, .d64, .s64, .s64, .i64, ⟨true, false, false, false, false⟩, .no, 4, true, false, false, false⟩
  | .lea _ => some ⟨.wide, 24, none, .d64, .s64, .s32, .off, ⟨true, false, false, false, false⟩, .no, 8, true, false, false, false⟩
  | .lea4 _ => some ⟨.wide, 25, none, .d64, .s64, .s32, .off, ⟨true, false, false, false, false⟩, .no, 8, true, false, false, false⟩
  | .lea8 _ => some ⟨.wide, 26, none, .d64, .s64, .s32, .off, ⟨true, false, false, false, false⟩, .no, 8, true, false, false, false⟩
  | .lmov _ => some ⟨.wide, 27, none, .d64, .s64, .z, .no, ⟨true, false, false, false, false⟩, .no, 4, true, false, false, false⟩
  | .dneg _ => some ⟨.wide, 28, some 0, .d64, .s64, .free, .no, ArK.none, .no, 4, true, false, false, false⟩
  | .dabs _ => some ⟨.wide, 28, some 1, .d64, .s64, .free, .no, ArK.none, .no, 4, true, false, false, false⟩
  | .dsqrt _ => some ⟨.wide, 28, some 2, .d64, .s64, .free, .no, ⟨true, true, false, true, true⟩, .no, 0, false, false, true, false⟩
  | .dclass _ => some ⟨.wide, 28, some 3, .d32, .s64, .free, .no, ⟨true, false, false, false, false⟩, .no, 4, true, false, false, false⟩
  | .drint _ => some ⟨.wide, 28, some 4, .d64, .s64, .free, .no, ⟨true, true, false, false, true⟩, .no, 8, true, false, false, false⟩
  | .dgetexp _ => some ⟨.wide, 28, some 5, .d64, .s64, .free, .no, ⟨true, false, false, false, true⟩, .no, 8, true, false, false, false⟩
  | .dgetmant _ => some ⟨.wide, 28, some 6, .d64, .s64, .free, .no, ⟨true, false, false, false, true⟩, .no, 8, true, false, false, false⟩
  | .lneg _ => some ⟨.wide, 28, some 8, .d64, .s64, .free, .no, ⟨true, false, false, true, false⟩, .no, 4, true, false, false, false⟩
  | .lpopc _ => some ⟨.wide, 28, some 9, .d32, .s64, .free, .no, ⟨true, false, false, false, false⟩, .no, 4, true, false, false, false⟩
  | .lclz _ => some ⟨.wide, 28, some 10, .d32, .s64, .free, .no, ⟨true, false, false, false, false⟩, .no, 4, true, false, false, false⟩
  | .cvtF64F32 _ => some ⟨.wide, 28, some 32, .d64, .s32, .free, .no, ⟨true, false, false, false, true⟩, .no, 8, true, false, false, false⟩
  | .cvtF32F64 _ => some ⟨.wide, 28, some 33, .d32, .s64, .free, .no, ⟨true, true, false, true, true⟩, .no, 8, true, false, false, false⟩
  | .cvtF64I32 _ => some ⟨.wide, 28, some 34, .d64, .s32, .free, .no, ⟨true, false, false, false, true⟩, .no, 8, true, false, false, false⟩
  | .cvtF64N32 _ => some ⟨.wide, 28, some 35, .d64, .s32, .free, .no, ⟨true, false, false, false, true⟩, .no, 8, true, false, false, false⟩
  | .cvtF64I64 _ => some ⟨.wide, 28, some 36, .d64, .s64, .free, .no, ⟨true, true, false, false, true⟩, .no, 8, true, false, false, false⟩
  | .cvtF64N64 _ => some ⟨.wide, 28, some 37, .d64, .s64, .free, .no, ⟨true, true, false, false, true⟩, .no, 8, true, false, false, false⟩
  | .cvtI32F64 _ => some ⟨.wide, 28, some 38, .d32, .s64, .free, .no, ⟨true, true, false, true, true⟩, .no, 8, true, false, false, false⟩
  | .cvtN32F64 _ => some ⟨.wide, 28, some 39, .d32, .s64, .free, .no, ⟨true, true, false, true, true⟩, .no, 8, true, false, false, false⟩
  | .cvtI64F64 _ => some ⟨.wide, 28, some 40, .d64, .s64, .free, .no, ⟨true, true, false, true, true⟩, .no, 8, true, false, false, false⟩
  | .cvtN64F64 _ => some ⟨.wide, 28, some 41, .d64, .s64, .free, .no, ⟨true, true, false, true, true⟩, .no, 8, true, false, false, false⟩
  | .cvtI64I32 _ => some ⟨.wide, 28, some 42, .d64, .s32, .free, .no, ⟨true, false, false, false, true⟩, .no, 8, true, false, false, false⟩
  | .cvtN64N32 _ => some ⟨.wide, 28, some 43, .d64, .s32, .free, .no, ⟨true, false, false, false, true⟩, .no, 8, true, false, false, false⟩
  | .rdfx _ => some ⟨.wide, 29, some 0, .d32, .fx0, .free, .no, ⟨true, false, false, false, false⟩, .no, 4, true, false, false, false⟩
  | .clrfx _ => some ⟨.wide, 29, some 1, .d32, .fxMask, .free, .no, ⟨true, false, false, false, false⟩, .no, 4, true, false, false, false⟩
  | .setfx _ => some ⟨.wide, 29, some 2, .d32, .fxMask, .free, .no, ⟨true, false, false, false, false⟩, .no, 4, true, false, false, false⟩
  | .rdrm _ => some ⟨.wide, 29, some 3, .d32, .fx0, .free, .no, ⟨true, false, false, false, false⟩, .no, 4, true, false, false, false⟩
  | .setrm _ => some ⟨.wide, 29, some 4, .d32, .fxRm, .free, .no, ⟨true, false, false, false, false⟩, .no, 4, true, false, false, false⟩
  | .paddF2 _ => some ⟨.pkd, 0, none, .d64, .s64, .s64, .no, ⟨true, true, true, true, true⟩, .no, 6, true, false, false, false⟩
  | .pmulF2 _ => some ⟨.pkd, 1, none, .d64, .s64, .s64, .no, ⟨true, true, true, true, true⟩, .no, 6, true, false, false, false⟩
  | .pfmaF2 _ => some ⟨.pkd, 2, none, .d64, .s64, .s64, .no, ⟨true, true, true, true, true⟩, .no, 6, true, true, false, false⟩
  | .paddH2 _ => some ⟨.pkd, 3, none, .d32, .s32, .s32, .no, ⟨true, true, true, true, true⟩, .no, 6, true, false, false, false⟩
  | .pmulH2 _ => some ⟨.pkd, 4, none, .d32, .s32, .s32, .no, ⟨true, true, true, true, true⟩, .no, 6, true, false, false, false⟩
  | .pfmaH2 _ => some ⟨.pkd, 5, none, .d32, .s32, .s32, .no, ⟨true, true, true, true, true⟩, .no, 6, true, true, false, false⟩
  | .paddB2 _ => some ⟨.pkd, 6, none, .d32, .s32, .s32, .no, ⟨true, true, false, true, true⟩, .no, 6, true, false, false, false⟩
  | .pmulB2 _ => some ⟨.pkd, 7, none, .d32, .s32, .s32, .no, ⟨true, true, false, true, true⟩, .no, 6, true, false, false, false⟩
  | .pfmaB2 _ => some ⟨.pkd, 8, none, .d32, .s32, .s32, .no, ⟨true, true, false, true, true⟩, .no, 6, true, true, false, false⟩
  | .pminH2 _ => some ⟨.pkd, 9, none, .d32, .s32, .s32, .no, ⟨true, false, true, false, true⟩, .no, 6, true, false, false, false⟩
  | .pmaxH2 _ => some ⟨.pkd, 10, none, .d32, .s32, .s32, .no, ⟨true, false, true, false, true⟩, .no, 6, true, false, false, false⟩
  | .pminB2 _ => some ⟨.pkd, 11, none, .d32, .s32, .s32, .no, ⟨true, false, false, false, true⟩, .no, 6, true, false, false, false⟩
  | .pmaxB2 _ => some ⟨.pkd, 12, none, .d32, .s32, .s32, .no, ⟨true, false, false, false, true⟩, .no, 6, true, false, false, false⟩
  | .pdot2H _ => some ⟨.pkd, 13, none, .d32, .s32, .s32, .no, ⟨true, true, true, true, true⟩, .no, 8, true, true, false, false⟩
  | .pdot2B _ => some ⟨.pkd, 14, none, .d32, .s32, .s32, .no, ⟨true, true, false, true, true⟩, .no, 8, true, true, false, false⟩
  | .pdot4I8 _ => some ⟨.pkd, 15, none, .d32, .s32, .s32, .no, ⟨true, false, false, true, false⟩, .no, 8, true, true, false, false⟩
  | .pdot4N8 _ => some ⟨.pkd, 16, none, .d32, .s32, .s32, .no, ⟨true, false, false, true, false⟩, .no, 8, true, true, false, false⟩
  | .paddI16 _ => some ⟨.pkd, 17, none, .d32, .s32, .s32, .no, ⟨true, false, false, true, false⟩, .no, 6, true, false, false, false⟩
  | .psubI16 _ => some ⟨.pkd, 18, none, .d32, .s32, .s32, .no, ⟨true, false, false, true, false⟩, .no, 6, true, false, false, false⟩
  | .f2toh2 _ => some ⟨.pkd, 19, some 0, .d32, .s64, .free, .no, ⟨true, true, true, true, true⟩, .no, 6, true, false, false, false⟩
  | .f2tob2 _ => some ⟨.pkd, 19, some 1, .d32, .s64, .free, .no, ⟨true, true, false, true, true⟩, .no, 6, true, false, false, false⟩
  | .h2tof2 _ => some ⟨.pkd, 19, some 2, .d64, .s32, .free, .no, ⟨true, false, true, false, true⟩, .no, 6, true, false, false, false⟩
  | .b2tof2 _ => some ⟨.pkd, 19, some 3, .d64, .s32, .free, .no, ⟨true, false, false, false, true⟩, .no, 6, true, false, false, false⟩
  | .quant4 _ => some ⟨.pkd, 19, some 64, .d32, .sQuad, .free, .no, ⟨true, false, false, false, true⟩, .no, 8, true, false, false, false⟩
  | .deq4 _ => some ⟨.pkd, 19, some 72, .dQuad, .s32, .free, .no, ⟨true, false, false, false, true⟩, .no, 8, true, false, false, false⟩
  | .ldb _ => some ⟨.mem, 0, none, .d32, .s64, .s32, .off, ArK.none, .ld, 0, false, false, false, false⟩
  | .ldbs _ => some ⟨.mem, 1, none, .d32, .s64, .s32, .off, ArK.none, .ld, 0, false, false, false, false⟩
  | .ldh _ => some ⟨.mem, 2, none, .d32, .s64, .s32, .off, ArK.none, .ld, 0, false, false, false, false⟩
  | .ldhs _ => some ⟨.mem, 3, none, .d32, .s64, .s32, .off, ArK.none, .ld, 0, false, false, false, false⟩
  | .ldw _ => some ⟨.mem, 4, none, .d32, .s64, .s32, .off, ArK.none, .ld, 0, false, false, false, false⟩
  | .ldd _ => some ⟨.mem, 5, none, .d64, .s64, .s32, .off, ArK.none, .ld, 0, false, false, false, false⟩
  | .ldq _ => some ⟨.mem, 6, none, .dQuad, .s64, .s32, .off, ArK.none, .ld, 0, false, false, false, false⟩
  | .stb _ => some ⟨.mem, 7, none, .d32, .s64, .s32, .off, ArK.none, .st, 0, false, true, false, false⟩
  | .sth _ => some ⟨.mem, 8, none, .d32, .s64, .s32, .off, ArK.none, .st, 0, false, true, false, false⟩
  | .stw _ => some ⟨.mem, 9, none, .d32, .s64, .s32, .off, ArK.none, .st, 0, false, true, false, false⟩
  | .std _ => some ⟨.mem, 10, none, .d64, .s64, .s32, .off, ArK.none, .st, 0, false, true, false, false⟩
  | .stq _ => some ⟨.mem, 11, none, .dQuad, .s64, .s32, .off, ArK.none, .st, 0, false, true, false, false⟩
  | .stws _ => some ⟨.mem, 12, none, .d32, .s64, .d64B, .no, ArK.none, .sts, 0, false, true, false, false⟩
  | .stds _ => some ⟨.mem, 13, none, .d64, .s64, .d64B, .no, ArK.none, .sts, 0, false, true, false, false⟩
  | .asw _ => some ⟨.mem, 14, none, .d32, .s64, .s64, .no, ArK.none, .as, 0, false, false, false, false⟩
  | .asd _ => some ⟨.mem, 15, none, .d64, .s64, .s64, .no, ArK.none, .as, 0, false, false, false, false⟩
  | .asq _ => some ⟨.mem, 16, none, .dQuad, .s64, .s64, .no, ArK.none, .as, 0, false, false, false, false⟩
  | .aadd _ => some ⟨.mem, 17, none, .dW64, .s64, .s32, .off, ArK.none, .at, 0, false, true, false, false⟩
  | .amin _ => some ⟨.mem, 18, none, .dW64, .s64, .s32, .off, ArK.none, .atS, 0, false, true, false, false⟩
  | .amax _ => some ⟨.mem, 19, none, .dW64, .s64, .s32, .off, ArK.none, .atS, 0, false, true, false, false⟩
  | .aand _ => some ⟨.mem, 20, none, .dW64, .s64, .s32, .off, ArK.none, .at, 0, false, true, false, false⟩
  | .aor _ => some ⟨.mem, 21, none, .dW64, .s64, .s32, .off, ArK.none, .at, 0, false, true, false, false⟩
  | .axor _ => some ⟨.mem, 22, none, .dW64, .s64, .s32, .off, ArK.none, .at, 0, false, true, false, false⟩
  | .axch _ => some ⟨.mem, 23, none, .dW64, .s64, .s32, .off, ArK.none, .at, 0, false, true, false, false⟩
  | .acas _ => some ⟨.mem, 24, none, .dW64, .s64, .sW64, .no, ArK.none, .at, 0, false, true, false, false⟩
  | .afadd _ => some ⟨.mem, 25, none, .d32, .s64, .s32, .off, ArK.none, .af, 0, false, true, false, false⟩
  | .adadd _ => some ⟨.mem, 26, none, .d64, .s64, .s32, .off, ArK.none, .at, 0, false, true, false, false⟩
  | .fenceFull _ => some ⟨.mem, 27, none, .fence, .z, .z, .no, ArK.none, .no, 0, false, false, false, false⟩
  | .fenceAcq _ => some ⟨.mem, 27, none, .fence, .z, .z, .no, ArK.none, .no, 0, false, false, false, false⟩
  | .fenceRel _ => some ⟨.mem, 27, none, .fence, .z, .z, .no, ArK.none, .no, 0, false, false, false, false⟩
  | .lstamp _ => some ⟨.mem, 28, some 0, .d64, .s64, .free, .no, ArK.none, .ls, 0, false, false, false, false⟩
  | .floorup _ => some ⟨.mem, 28, some 1, .d64, .s64, .free, .no, ArK.none, .no, 4, false, false, false, false⟩
  | .settle _ => some ⟨.mem, 28, some 2, .z, .s64, .free, .no, ArK.none, .se, 0, false, false, false, false⟩
  | .tagl _ => some ⟨.mem, 29, some 0, .d32, .s64, .free, .no, ArK.none, .no, 4, false, false, false, false⟩
  | .tags _ => some ⟨.mem, 29, some 1, .d32, .s64, .free, .no, ArK.none, .no, 0, false, true, false, false⟩
  | .tagi _ => some ⟨.mem, 29, some 2, .z, .s64, .free, .no, ArK.none, .no, 0, false, false, false, false⟩
  | .tagc _ => some ⟨.mem, 29, some 3, .z, .s64, .free, .no, ArK.none, .no, 0, false, false, false, false⟩
  | .pref _ => some ⟨.mem, 30, none, .z, .s64, .s32, .off, ArK.none, .pf, 0, false, false, false, false⟩
  | .bra _ => some ⟨.ctl, 0, none, .free, .free, .free, .no, ArK.none, .no, 0, false, false, false, false⟩
  | .brx _ => some ⟨.ctl, 1, none, .z, .s64, .z, .no, ArK.none, .no, 0, false, false, false, false⟩
  | .call _ => some ⟨.ctl, 2, none, .free, .free, .free, .no, ArK.none, .no, 4, false, false, false, false⟩
  | .callx _ => some ⟨.ctl, 3, none, .z, .s64, .z, .no, ArK.none, .no, 4, false, false, false, false⟩
  | .ret _ => some ⟨.ctl, 4, none, .z, .z, .z, .no, ArK.none, .no, 0, false, false, false, false⟩
  | .exit _ => some ⟨.ctl, 5, none, .zS, .c64, .zS, .no, ArK.none, .no, 0, false, false, false, false⟩
  | .bar _ => some ⟨.ctl, 6, none, .bar, .z, .z, .no, ArK.none, .no, 0, false, false, false, false⟩
  | .bara _ => some ⟨.ctl, 7, none, .bar, .z, .z, .no, ArK.none, .no, 0, false, false, false, false⟩
  | .barw _ => some ⟨.ctl, 8, none, .bar, .z, .z, .no, ArK.none, .no, 0, false, false, false, false⟩
  | .pause _ => some ⟨.ctl, 9, none, .z, .z, .s32, .i32, ArK.none, .no, 0, false, false, false, false⟩
  | .regacq _ => some ⟨.ctl, 10, none, .z, .z, .z, .no, ArK.none, .no, 0, false, false, false, false⟩
  | .regtry _ => some ⟨.ctl, 11, none, .pred0, .z, .z, .no, ArK.none, .no, 4, false, false, false, false⟩
  | .regrel _ => some ⟨.ctl, 12, none, .z, .z, .z, .no, ArK.none, .no, 0, false, false, false, false⟩
  | .kill _ => some ⟨.ctl, 13, none, .kill, .kill, .kill, .no, ArK.none, .no, 0, false, false, false, false⟩
  | .setx _ => some ⟨.ctl, 14, none, .z, .s32, .s32, .i32, ArK.none, .no, 4, false, false, false, false⟩
  | .sread _ => some ⟨.ctl, 15, none, .dSp, .z, .spr, .no, ArK.none, .no, 4, true, false, false, false⟩
  | .swrite _ => some ⟨.ctl, 16, none, .z, .sSp, .spw, .no, ArK.none, .no, 4, false, false, false, false⟩
  | .elect _ => some ⟨.ctl, 17, none, .pred0, .z, .z, .no, ArK.none, .no, 4, false, false, false, false⟩
  | .assert _ => some ⟨.ctl, 18, none, .zS, .c64, .zS, .no, ArK.none, .no, 0, false, false, false, false⟩
  | .trap _ => some ⟨.ctl, 19, none, .z, .z, .raw, .no, ArK.none, .no, 0, false, false, false, false⟩
  | .bkpt _ => some ⟨.ctl, 20, none, .z, .z, .z, .no, ArK.none, .no, 0, false, false, false, false⟩
  | .nop _ => some ⟨.ctl, 21, none, .z, .z, .z, .no, ArK.none, .no, 0, false, false, false, false⟩
  | .sadd _ => some ⟨.ctl, 22, none, .e32, .c32, .c32, .i32, ArK.none, .no, 4, false, false, false, false⟩
  | .ssub _ => some ⟨.ctl, 23, none, .e32, .c32, .c32, .i32, ArK.none, .no, 4, false, false, false, false⟩
  | .smul _ => some ⟨.ctl, 24, none, .e32, .c32, .c32, .i32, ArK.none, .no, 6, false, false, false, false⟩
  | .smov _ => some ⟨.ctl, 25, none, .e32, .c32, .zS, .no, ArK.none, .no, 4, false, false, false, false⟩
  | .smovi _ => some ⟨.ctl, 26, none, .e32, .free, .free, .movi, ArK.none, .no, 4, false, false, false, false⟩
  | .ssetp _ => some ⟨.ctl, 27, none, .pred, .c32, .c32, .i32, ArK.none, .no, 4, false, false, false, false⟩
  | .sld _ => some ⟨.ctl, 28, none, .e32, .c64, .c32, .off, ArK.none, .ld, 0, false, false, false, false⟩
  | .slea _ => some ⟨.ctl, 29, none, .e64, .c64, .c32, .off, ArK.none, .no, 4, false, false, false, false⟩
  | .sand _ => some ⟨.ctl, 30, none, .e32, .c32, .c32, .i32, ArK.none, .no, 4, false, false, false, false⟩
  | .vtos _ => some ⟨.ctl, 31, none, .e32, .s32, .z, .no, ArK.none, .no, 4, false, false, false, false⟩
  | .mma _ => some ⟨.eng, 0, none, .fslot, .s32, .z, .no, ArK.none, .no, 0, false, false, false, false⟩
  | .mmasp _ => some ⟨.eng, 1, none, .fslot, .s32, .z, .no, ArK.none, .no, 0, false, false, false, false⟩
  | .accz _ => some ⟨.eng, 2, none, .z, .s32, .s32, .i32, ArK.none, .no, 0, false, false, false, false⟩
  | .accld _ => some ⟨.eng, 3, none, .d32, .s32, .s32, .i32, ArK.none, .no, 8, true, false, false, false⟩
  | .accst _ => some ⟨.eng, 4, none, .fslot, .s32, .z, .no, ArK.none, .no, 0, false, false, false, false⟩
  | .kick _ => some ⟨.eng, 5, none, .z, .s32, .z, .no, ArK.none, .no, 0, false, false, false, false⟩
  | .arvi _ => some ⟨.eng, 6, none, .z, .s32, .s32, .i32, ArK.none, .no, 0, false, false, false, false⟩
  | .send _ => some ⟨.eng, 7, none, .d32, .s64, .s32, .i32, ArK.none, .no, 0, false, false, false, false⟩
  | .slotrd _ => some ⟨.eng, 8, none, .d64, .z, .slotB, .no, ArK.none, .no, 4, false, false, false, false⟩
  | .rlqRd _ => some ⟨.eng, 9, none, .rlq, .s64, .s32, .i32, ArK.none, .no, 4, false, false, false, false⟩
  | .rlqWr _ => some ⟨.eng, 9, none, .rlq, .s64, .s32, .i32, ArK.none, .no, 4, false, false, false, false⟩
  | .rcfg _ => some ⟨.rul, 0, none, .z, .s32, .z, .no, ArK.none, .no, 0, false, false, false, false⟩
  | .rtld _ => some ⟨.rul, 1, none, .z, .s32, .s32, .i32, ArK.none, .no, 0, false, false, false, false⟩
  | .rstep _ => some ⟨.rul, 2, none, .z, .s32, .z, .no, ArK.none, .no, 0, false, false, false, false⟩
  | .rpack _ => some ⟨.rul, 3, none, .z, .s32, .s32, .i32, ArK.none, .no, 0, false, false, false, false⟩
  | .runpack _ => some ⟨.rul, 4, none, .z, .s32, .s32, .i32, ArK.none, .no, 0, false, false, false, false⟩
  | .rcount _ => some ⟨.rul, 5, none, .d64, .s32, .s32, .i32, ArK.none, .no, 4, false, false, false, false⟩
  | .rgen _ => some ⟨.rul, 6, none, .d64, .z, .z, .no, ArK.none, .no, 4, false, false, false, false⟩
  | .rabort _ => some ⟨.rul, 7, none, .z, .z, .z, .no, ArK.none, .no, 0, false, false, false, false⟩
  | .csrr _ => some ⟨.sys, 0, none, .dCr, .z, .csr, .no, ArK.none, .no, 4, false, false, false, false⟩
  | .csrw _ => some ⟨.sys, 1, none, .z, .sCr, .csw, .no, ArK.none, .no, 4, false, false, false, false⟩
  | .eret _ => some ⟨.sys, 2, none, .z, .z, .z, .no, ArK.none, .no, 0, false, false, false, false⟩
  | .eretall _ => some ⟨.sys, 3, none, .z, .z, .z, .no, ArK.none, .no, 0, false, false, false, false⟩
  | .xinvVa _ => some ⟨.sys, 4, none, .xinv, .s64, .s32, .i32, ArK.none, .no, 0, false, false, false, false⟩
  | .xinvAsid _ => some ⟨.sys, 4, none, .xinv, .z, .s32, .i32, ArK.none, .no, 0, false, false, false, false⟩
  | .xinvIpa _ => some ⟨.sys, 4, none, .xinv, .s64, .s32, .i32, ArK.none, .no, 0, false, false, false, false⟩
  | .xinvVmid _ => some ⟨.sys, 4, none, .xinv, .z, .s32, .i32, ArK.none, .no, 0, false, false, false, false⟩
  | .xsync _ => some ⟨.sys, 5, none, .z, .z, .z, .no, ArK.none, .no, 0, false, false, false, false⟩
  | .hset _ => some ⟨.sys, 6, none, .z, .s64, .z, .no, ArK.none, .no, 0, false, false, false, false⟩
  | .ckpt _ => some ⟨.sys, 7, none, .d32, .s64, .z, .no, ArK.none, .no, 0, false, false, false, false⟩
  | .pickerFormBundle _ _ _ => none
  | .pauseExpiry _ => none
  | .longOpResult _ => none
  | .memResponse _ => none
  | .sliceCommit _ => none
  | .sliceLoad _ => none
  | .asofWalk _ => none
  | .referenceTick => none
  | .settledUpdate => none
  | .holdStallTimeout _ => none
  | .eraRebase => none
  | .tickholdWrite _ => none
  | .barrierPhaseComplete _ => none
  | .walkComplete _ => none
  | .pageResponse _ => none
  | .queueConfigWrite _ _ _ => none
  | .reqHeadWrite _ _ => none
  | .rspTailWrite _ _ => none
  | .mgmtInvalidate _ _ _ _ _ => none
  | .haltBroadcast _ _ _ => none
  | .handlerEntry _ => none
  | .preempt _ => none
  | .preemptDeferralTimeout _ => none
  | .contextRestore _ => none
  | .contextDiscard _ => none
  | .gangSwitchTick _ => none
  | .tardyDeadline _ => none
  | .windowCompare _ => none
  | .taggedMessage _ _ => none
  | .armInstall _ _ _ => none
  | .armQuantum _ => none
  | .dispatchPlace _ => none
  | .backfillBlockTimeout _ => none
  | .blockRetire _ => none
  | .copyRequestStart _ => none
  | .copyGranule _ => none
  | .sendResponse _ _ => none
  | .mirrorStoreArrival _ _ => none
  | .clusterWindowWrite _ => none
  | .matrixOpStart _ => none
  | .multicastGroupReady _ => none
  | .matrixOpComplete _ _ => none
  | .ruleStepStart _ => none
  | .ruleGeneration _ => none
  | .ckptServiceReply _ _ => none
  | .partitionEntryWrite _ _ => none
  | .linkDead _ _ _ _ => none
  | .rerouteResume _ => none
  | .remoteWrite _ _ _ => none
  | .hostAtomic _ _ _ _ _ _ _ => none
  | .frameMigration _ _ _ _ => none
  | .errorCounterClear _ _ => none
  | .powerOn _ => none
  | .attestationRequest _ => none
  | .powerCap => none
  | .reservedOpcode _ => none
  | .sendPayloadRead _ => none
  | .busyRetry _ => none
  | .supplyRemoved => none
  | .linkRetrain _ => none
  | .partitionResetComplete _ => none

/-- The raw fields of an instruction word; an event has none. -/
def Instr.raw : Instr → Option Raw
  | .iadd t => some (Tri.raw t)
  | .isub t => some (Tri.raw t)
  | .imul t => some (Tri.raw t)
  | .imad t => some (Tri.raw t)
  | .imulh t => some (Tri.raw t)
  | .imulhn t => some (Tri.raw t)
  | .and t => some (Tri.raw t)
  | .or t => some (Tri.raw t)
  | .xor t => some (Tri.raw t)
  | .andn t => some (Tri.raw t)
  | .shl t => some (Tri.raw t)
  | .shr t => some (Tri.raw t)
  | .sar t => some (Tri.raw t)
  | .fdiv t => some (Tri.raw t)
  | .imin t => some (Tri.raw t)
  | .imax t => some (Tri.raw t)
  | .nmin t => some (Tri.raw t)
  | .nmax t => some (Tri.raw t)
  | .isetp t => some (Cmp.raw t)
  | .sel t => some (Tri.raw t)
  | .mov t => some (Duo.raw selZ t)
  | .movi t => some (MovI.raw t)
  | .shfl t => some (Tri.raw t)
  | .voteAny t => some (VoteW.raw 0 t)
  | .voteAll t => some (VoteW.raw 1 t)
  | .voteBallot t => some (VoteW.raw 2 t)
  | .fadd t => some (Tri.raw t)
  | .fmul t => some (Tri.raw t)
  | .ffma t => some (Tri.raw t)
  | .ffmal t => some (Tri.raw t)
  | .fmin t => some (Tri.raw t)
  | .fmax t => some (Tri.raw t)
  | .fsetp t => some (Cmp.raw t)
  | .ineg t => some (Duo.raw 0 t)
  | .iabs t => some (Duo.raw 1 t)
  | .not t => some (Duo.raw 2 t)
  | .popc t => some (Duo.raw 3 t)
  | .clz t => some (Duo.raw 4 t)
  | .brev t => some (Duo.raw 5 t)
  | .bswap t => some (Duo.raw 6 t)
  | .fneg t => some (Duo.raw 16 t)
  | .fabs t => some (Duo.raw 17 t)
  | .frcp t => some (Duo.raw 18 t)
  | .fsqrt t => some (Duo.raw 19 t)
  | .frsq t => some (Duo.raw 20 t)
  | .fex2 t => some (Duo.raw 21 t)
  | .flg2 t => some (Duo.raw 22 t)
  | .fsin t => some (Duo.raw 23 t)
  | .fcos t => some (Duo.raw 24 t)
  | .fclass t => some (Duo.raw 25 t)
  | .frint t => some (Duo.raw 26 t)
  | .cvtF32I32 t => some (Duo.raw 32 t)
  | .cvtF32N32 t => some (Duo.raw 33 t)
  | .cvtI32F32 t => some (Duo.raw 34 t)
  | .cvtN32F32 t => some (Duo.raw 35 t)
  | .cvtF16F32 t => some (Duo.raw 36 t)
  | .cvtF32F16 t => some (Duo.raw 37 t)
  | .cvtBf16F32 t => some (Duo.raw 38 t)
  | .cvtF32Bf16 t => some (Duo.raw 39 t)
  | .cvtI32I8 t => some (Duo.raw 40 t)
  | .cvtI32I16 t => some (Duo.raw 41 t)
  | .quant t => some (SlotW.raw 64 t)
  | .deq t => some (SlotW.raw 72 t)
  | .dadd t => some (Tri.raw t)
  | .dsub t => some (Tri.raw t)
  | .dmul t => some (Tri.raw t)
  | .dfma t => some (Tri.raw t)
  | .dfmal t => some (Tri.raw t)
  | .ddiv t => some (Tri.raw t)
  | .dmin t => some (Tri.raw t)
  | .dmax t => some (Tri.raw t)
  | .dsetp t => some (Cmp.raw t)
  | .dscale t => some (Tri.raw t)
  | .ladd t => some (Tri.raw t)
  | .lsub t => some (Tri.raw t)
  | .lmul t => some (Tri.raw t)
  | .lmulh t => some (Tri.raw t)
  | .lmulhn t => some (Tri.raw t)
  | .land t => some (Tri.raw t)
  | .lor t => some (Tri.raw t)
  | .lxor t => some (Tri.raw t)
  | .lshl t => some (Tri.raw t)
  | .lshr t => some (Tri.raw t)
  | .lsar t => some (Tri.raw t)
  | .lsetp t => some (Cmp.raw t)
  | .lmin t => some (Tri.raw t)
  | .lmax t => some (Tri.raw t)
  | .lea t => some (Tri.raw t)
  | .lea4 t => some (Tri.raw t)
  | .lea8 t => some (Tri.raw t)
  | .lmov t => some (Duo.raw selZ t)
  | .dneg t => some (Duo.raw 0 t)
  | .dabs t => some (Duo.raw 1 t)
  | .dsqrt t => some (Duo.raw 2 t)
  | .dclass t => some (Duo.raw 3 t)
  | .drint t => some (Duo.raw 4 t)
  | .dgetexp t => some (Duo.raw 5 t)
  | .dgetmant t => some (Duo.raw 6 t)
  | .lneg t => some (Duo.raw 8 t)
  | .lpopc t => some (Duo.raw 9 t)
  | .lclz t => some (Duo.raw 10 t)
  | .cvtF64F32 t => some (Duo.raw 32 t)
  | .cvtF32F64 t => some (Duo.raw 33 t)
  | .cvtF64I32 t => some (Duo.raw 34 t)
  | .cvtF64N32 t => some (Duo.raw 35 t)
  | .cvtF64I64 t => some (Duo.raw 36 t)
  | .cvtF64N64 t => some (Duo.raw 37 t)
  | .cvtI32F64 t => some (Duo.raw 38 t)
  | .cvtN32F64 t => some (Duo.raw 39 t)
  | .cvtI64F64 t => some (Duo.raw 40 t)
  | .cvtN64F64 t => some (Duo.raw 41 t)
  | .cvtI64I32 t => some (Duo.raw 42 t)
  | .cvtN64N32 t => some (Duo.raw 43 t)
  | .rdfx t => some (FxD.raw 0 t)
  | .clrfx t => some (FxM.raw 1 t)
  | .setfx t => some (FxM.raw 2 t)
  | .rdrm t => some (FxD.raw 3 t)
  | .setrm t => some (FxR.raw 4 t)
  | .paddF2 t => some (PTri.raw t)
  | .pmulF2 t => some (PTri.raw t)
  | .pfmaF2 t => some (PTri.raw t)
  | .paddH2 t => some (PTri.raw t)
  | .pmulH2 t => some (PTri.raw t)
  | .pfmaH2 t => some (PTri.raw t)
  | .paddB2 t => some (PTri.raw t)
  | .pmulB2 t => some (PTri.raw t)
  | .pfmaB2 t => some (PTri.raw t)
  | .pminH2 t => some (PTri.raw t)
  | .pmaxH2 t => some (PTri.raw t)
  | .pminB2 t => some (PTri.raw t)
  | .pmaxB2 t => some (PTri.raw t)
  | .pdot2H t => some (PTri.raw t)
  | .pdot2B t => some (PTri.raw t)
  | .pdot4I8 t => some (PTri.raw t)
  | .pdot4N8 t => some (PTri.raw t)
  | .paddI16 t => some (PTri.raw t)
  | .psubI16 t => some (PTri.raw t)
  | .f2toh2 t => some (Duo.raw 0 t)
  | .f2tob2 t => some (Duo.raw 1 t)
  | .h2tof2 t => some (Duo.raw 2 t)
  | .b2tof2 t => some (Duo.raw 3 t)
  | .quant4 t => some (SlotW.raw 64 t)
  | .deq4 t => some (SlotW.raw 72 t)
  | .ldb t => some (MemW.raw t)
  | .ldbs t => some (MemW.raw t)
  | .ldh t => some (MemW.raw t)
  | .ldhs t => some (MemW.raw t)
  | .ldw t => some (MemW.raw t)
  | .ldd t => some (MemW.raw t)
  | .ldq t => some (MemW.raw t)
  | .stb t => some (MemW.raw t)
  | .sth t => some (MemW.raw t)
  | .stw t => some (MemW.raw t)
  | .std t => some (MemW.raw t)
  | .stq t => some (MemW.raw t)
  | .stws t => some (MemS.raw t)
  | .stds t => some (MemS.raw t)
  | .asw t => some (MemS.raw t)
  | .asd t => some (MemS.raw t)
  | .asq t => some (MemS.raw t)
  | .aadd t => some (MemW.raw t)
  | .amin t => some (MemW.raw t)
  | .amax t => some (MemW.raw t)
  | .aand t => some (MemW.raw t)
  | .aor t => some (MemW.raw t)
  | .axor t => some (MemW.raw t)
  | .axch t => some (MemW.raw t)
  | .acas t => some (MemS.raw t)
  | .afadd t => some (MemW.raw t)
  | .adadd t => some (MemW.raw t)
  | .fenceFull t => some (FenceW.raw 0 t)
  | .fenceAcq t => some (FenceW.raw 1 t)
  | .fenceRel t => some (FenceW.raw 2 t)
  | .lstamp t => some (MemDA.raw 0 t)
  | .floorup t => some (WDA.raw 1 t)
  | .settle t => some (MemA.raw 2 t)
  | .tagl t => some (WDA.raw 0 t)
  | .tags t => some (WDA.raw 1 t)
  | .tagi t => some (WA.raw 2 t)
  | .tagc t => some (WA.raw 3 t)
  | .pref t => some (MemAB.raw t)
  | .bra t => some (BrW.raw t)
  | .brx t => some (WA.raw selZ t)
  | .call t => some (BrW.raw t)
  | .callx t => some (WA.raw selZ t)
  | .ret t => some (HdW.raw t)
  | .exit t => some (SAW.raw t)
  | .bar t => some (BarW.raw t)
  | .bara t => some (BarW.raw t)
  | .barw t => some (BarW.raw t)
  | .pause t => some (WB.raw selZ t)
  | .regacq t => some (HdW.raw t)
  | .regtry t => some (PW.raw t)
  | .regrel t => some (HdW.raw t)
  | .kill t => some (KillW.raw t)
  | .setx t => some (WAB.raw selZ t)
  | .sread t => some (SReadW.raw t)
  | .swrite t => some (SWriteW.raw t)
  | .elect t => some (PW.raw t)
  | .assert t => some (SAW.raw t)
  | .trap t => some (TrapW.raw t)
  | .bkpt t => some (HdW.raw t)
  | .nop t => some (HdW.raw t)
  | .sadd t => some (STri.raw t)
  | .ssub t => some (STri.raw t)
  | .smul t => some (STri.raw t)
  | .smov t => some (SDA.raw t)
  | .smovi t => some (SMovI.raw t)
  | .ssetp t => some (SCmp.raw t)
  | .sld t => some (SLdW.raw t)
  | .slea t => some (STri.raw t)
  | .sand t => some (STri.raw t)
  | .vtos t => some (VtosW.raw t)
  | .mma t => some (FsA.raw t)
  | .mmasp t => some (FsA.raw t)
  | .accz t => some (WAB.raw selZ t)
  | .accld t => some (WDAB.raw t)
  | .accst t => some (FsA.raw t)
  | .kick t => some (WA.raw selZ t)
  | .arvi t => some (WAB.raw selZ t)
  | .send t => some (WDAB.raw t)
  | .slotrd t => some (FsD.raw t)
  | .rlqRd t => some (RlqW.raw 0 t)
  | .rlqWr t => some (RlqW.raw 1 t)
  | .rcfg t => some (WA.raw selZ t)
  | .rtld t => some (WAB.raw selZ t)
  | .rstep t => some (WA.raw selZ t)
  | .rpack t => some (WAB.raw selZ t)
  | .runpack t => some (WAB.raw selZ t)
  | .rcount t => some (WDAB.raw t)
  | .rgen t => some (WD.raw t)
  | .rabort t => some (HdW.raw t)
  | .csrr t => some (CsrrW.raw t)
  | .csrw t => some (CsrwW.raw t)
  | .eret t => some (HdW.raw t)
  | .eretall t => some (HdW.raw t)
  | .xinvVa t => some (WAB.raw 0 t)
  | .xinvAsid t => some (WB.raw 1 t)
  | .xinvIpa t => some (WAB.raw 2 t)
  | .xinvVmid t => some (WB.raw 3 t)
  | .xsync t => some (HdW.raw t)
  | .hset t => some (WA.raw selZ t)
  | .ckpt t => some (WDA.raw selZ t)
  | .pickerFormBundle _ _ _ => none
  | .pauseExpiry _ => none
  | .longOpResult _ => none
  | .memResponse _ => none
  | .sliceCommit _ => none
  | .sliceLoad _ => none
  | .asofWalk _ => none
  | .referenceTick => none
  | .settledUpdate => none
  | .holdStallTimeout _ => none
  | .eraRebase => none
  | .tickholdWrite _ => none
  | .barrierPhaseComplete _ => none
  | .walkComplete _ => none
  | .pageResponse _ => none
  | .queueConfigWrite _ _ _ => none
  | .reqHeadWrite _ _ => none
  | .rspTailWrite _ _ => none
  | .mgmtInvalidate _ _ _ _ _ => none
  | .haltBroadcast _ _ _ => none
  | .handlerEntry _ => none
  | .preempt _ => none
  | .preemptDeferralTimeout _ => none
  | .contextRestore _ => none
  | .contextDiscard _ => none
  | .gangSwitchTick _ => none
  | .tardyDeadline _ => none
  | .windowCompare _ => none
  | .taggedMessage _ _ => none
  | .armInstall _ _ _ => none
  | .armQuantum _ => none
  | .dispatchPlace _ => none
  | .backfillBlockTimeout _ => none
  | .blockRetire _ => none
  | .copyRequestStart _ => none
  | .copyGranule _ => none
  | .sendResponse _ _ => none
  | .mirrorStoreArrival _ _ => none
  | .clusterWindowWrite _ => none
  | .matrixOpStart _ => none
  | .multicastGroupReady _ => none
  | .matrixOpComplete _ _ => none
  | .ruleStepStart _ => none
  | .ruleGeneration _ => none
  | .ckptServiceReply _ _ => none
  | .partitionEntryWrite _ _ => none
  | .linkDead _ _ _ _ => none
  | .rerouteResume _ => none
  | .remoteWrite _ _ _ => none
  | .hostAtomic _ _ _ _ _ _ _ => none
  | .frameMigration _ _ _ _ => none
  | .errorCounterClear _ _ => none
  | .powerOn _ => none
  | .attestationRequest _ => none
  | .powerCap => none
  | .reservedOpcode _ => none
  | .sendPayloadRead _ => none
  | .busyRetry _ => none
  | .supplyRemoved => none
  | .linkRetrain _ => none
  | .partitionResetComplete _ => none

/-! ### From fields to an instruction (R72 to R79) -/

/-- The map of class GEN: Tables 4.11 and 4.12. -/
def buildGen (op : Nat) (r : Raw) : Option Instr :=
  match op with
  | 0 => some (.iadd (Tri.ofRaw r))
  | 1 => some (.isub (Tri.ofRaw r))
  | 2 => some (.imul (Tri.ofRaw r))
  | 3 => some (.imad (Tri.ofRaw r))
  | 4 => some (.imulh (Tri.ofRaw r))
  | 5 => some (.imulhn (Tri.ofRaw r))
  | 6 => some (.and (Tri.ofRaw r))
  | 7 => some (.or (Tri.ofRaw r))
  | 8 => some (.xor (Tri.ofRaw r))
  | 9 => some (.andn (Tri.ofRaw r))
  | 10 => some (.shl (Tri.ofRaw r))
  | 11 => some (.shr (Tri.ofRaw r))
  | 12 => some (.sar (Tri.ofRaw r))
  | 13 => some (.fdiv (Tri.ofRaw r))
  | 14 => some (.imin (Tri.ofRaw r))
  | 15 => some (.imax (Tri.ofRaw r))
  | 16 => some (.nmin (Tri.ofRaw r))
  | 17 => some (.nmax (Tri.ofRaw r))
  | 18 => some (.isetp (Cmp.ofRaw r))
  | 19 => some (.sel (Tri.ofRaw r))
  | 20 => some (.mov (Duo.ofRaw r))
  | 21 => some (.movi (MovI.ofRaw r))
  | 22 => some (.shfl (Tri.ofRaw r))
  | 23 =>
    match r.b.toNat with
    | 0 => some (.voteAny (VoteW.ofRaw r))
    | 1 => some (.voteAll (VoteW.ofRaw r))
    | 2 => some (.voteBallot (VoteW.ofRaw r))
    | _ => none
  | 24 => some (.fadd (Tri.ofRaw r))
  | 25 => some (.fmul (Tri.ofRaw r))
  | 26 => some (.ffma (Tri.ofRaw r))
  | 27 => some (.ffmal (Tri.ofRaw r))
  | 28 => some (.fmin (Tri.ofRaw r))
  | 29 => some (.fmax (Tri.ofRaw r))
  | 30 => some (.fsetp (Cmp.ofRaw r))
  | 31 =>
    match r.b.toNat with
    | 0 => some (.ineg (Duo.ofRaw r))
    | 1 => some (.iabs (Duo.ofRaw r))
    | 2 => some (.not (Duo.ofRaw r))
    | 3 => some (.popc (Duo.ofRaw r))
    | 4 => some (.clz (Duo.ofRaw r))
    | 5 => some (.brev (Duo.ofRaw r))
    | 6 => some (.bswap (Duo.ofRaw r))
    | 16 => some (.fneg (Duo.ofRaw r))
    | 17 => some (.fabs (Duo.ofRaw r))
    | 18 => some (.frcp (Duo.ofRaw r))
    | 19 => some (.fsqrt (Duo.ofRaw r))
    | 20 => some (.frsq (Duo.ofRaw r))
    | 21 => some (.fex2 (Duo.ofRaw r))
    | 22 => some (.flg2 (Duo.ofRaw r))
    | 23 => some (.fsin (Duo.ofRaw r))
    | 24 => some (.fcos (Duo.ofRaw r))
    | 25 => some (.fclass (Duo.ofRaw r))
    | 26 => some (.frint (Duo.ofRaw r))
    | 32 => some (.cvtF32I32 (Duo.ofRaw r))
    | 33 => some (.cvtF32N32 (Duo.ofRaw r))
    | 34 => some (.cvtI32F32 (Duo.ofRaw r))
    | 35 => some (.cvtN32F32 (Duo.ofRaw r))
    | 36 => some (.cvtF16F32 (Duo.ofRaw r))
    | 37 => some (.cvtF32F16 (Duo.ofRaw r))
    | 38 => some (.cvtBf16F32 (Duo.ofRaw r))
    | 39 => some (.cvtF32Bf16 (Duo.ofRaw r))
    | 40 => some (.cvtI32I8 (Duo.ofRaw r))
    | 41 => some (.cvtI32I16 (Duo.ofRaw r))
    | 64 | 65 | 66 | 67 | 68 | 69 | 70 | 71 => some (.quant (SlotW.ofRaw r))
    | 72 | 73 | 74 | 75 | 76 | 77 | 78 | 79 => some (.deq (SlotW.ofRaw r))
    | _ => none
  | _ => none

/-- The map of class WIDE: Tables 4.13 and 4.14. -/
def buildWide (op : Nat) (r : Raw) : Option Instr :=
  match op with
  | 0 => some (.dadd (Tri.ofRaw r))
  | 1 => some (.dsub (Tri.ofRaw r))
  | 2 => some (.dmul (Tri.ofRaw r))
  | 3 => some (.dfma (Tri.ofRaw r))
  | 4 => some (.dfmal (Tri.ofRaw r))
  | 5 => some (.ddiv (Tri.ofRaw r))
  | 6 => some (.dmin (Tri.ofRaw r))
  | 7 => some (.dmax (Tri.ofRaw r))
  | 8 => some (.dsetp (Cmp.ofRaw r))
  | 9 => some (.dscale (Tri.ofRaw r))
  | 10 => some (.ladd (Tri.ofRaw r))
  | 11 => some (.lsub (Tri.ofRaw r))
  | 12 => some (.lmul (Tri.ofRaw r))
  | 13 => some (.lmulh (Tri.ofRaw r))
  | 14 => some (.lmulhn (Tri.ofRaw r))
  | 15 => some (.land (Tri.ofRaw r))
  | 16 => some (.lor (Tri.ofRaw r))
  | 17 => some (.lxor (Tri.ofRaw r))
  | 18 => some (.lshl (Tri.ofRaw r))
  | 19 => some (.lshr (Tri.ofRaw r))
  | 20 => some (.lsar (Tri.ofRaw r))
  | 21 => some (.lsetp (Cmp.ofRaw r))
  | 22 => some (.lmin (Tri.ofRaw r))
  | 23 => some (.lmax (Tri.ofRaw r))
  | 24 => some (.lea (Tri.ofRaw r))
  | 25 => some (.lea4 (Tri.ofRaw r))
  | 26 => some (.lea8 (Tri.ofRaw r))
  | 27 => some (.lmov (Duo.ofRaw r))
  | 28 =>
    match r.b.toNat with
    | 0 => some (.dneg (Duo.ofRaw r))
    | 1 => some (.dabs (Duo.ofRaw r))
    | 2 => some (.dsqrt (Duo.ofRaw r))
    | 3 => some (.dclass (Duo.ofRaw r))
    | 4 => some (.drint (Duo.ofRaw r))
    | 5 => some (.dgetexp (Duo.ofRaw r))
    | 6 => some (.dgetmant (Duo.ofRaw r))
    | 8 => some (.lneg (Duo.ofRaw r))
    | 9 => some (.lpopc (Duo.ofRaw r))
    | 10 => some (.lclz (Duo.ofRaw r))
    | 32 => some (.cvtF64F32 (Duo.ofRaw r))
    | 33 => some (.cvtF32F64 (Duo.ofRaw r))
    | 34 => some (.cvtF64I32 (Duo.ofRaw r))
    | 35 => some (.cvtF64N32 (Duo.ofRaw r))
    | 36 => some (.cvtF64I64 (Duo.ofRaw r))
    | 37 => some (.cvtF64N64 (Duo.ofRaw r))
    | 38 => some (.cvtI32F64 (Duo.ofRaw r))
    | 39 => some (.cvtN32F64 (Duo.ofRaw r))
    | 40 => some (.cvtI64F64 (Duo.ofRaw r))
    | 41 => some (.cvtN64F64 (Duo.ofRaw r))
    | 42 => some (.cvtI64I32 (Duo.ofRaw r))
    | 43 => some (.cvtN64N32 (Duo.ofRaw r))
    | _ => none
  | 29 =>
    match r.b.toNat with
    | 0 => some (.rdfx (FxD.ofRaw r))
    | 1 => some (.clrfx (FxM.ofRaw r))
    | 2 => some (.setfx (FxM.ofRaw r))
    | 3 => some (.rdrm (FxD.ofRaw r))
    | 4 => some (.setrm (FxR.ofRaw r))
    | _ => none
  | _ => none

/-- The map of class MEM: Table 4.16. -/
def buildMem (op : Nat) (r : Raw) : Option Instr :=
  match op with
  | 0 => some (.ldb (MemW.ofRaw r))
  | 1 => some (.ldbs (MemW.ofRaw r))
  | 2 => some (.ldh (MemW.ofRaw r))
  | 3 => some (.ldhs (MemW.ofRaw r))
  | 4 => some (.ldw (MemW.ofRaw r))
  | 5 => some (.ldd (MemW.ofRaw r))
  | 6 => some (.ldq (MemW.ofRaw r))
  | 7 => some (.stb (MemW.ofRaw r))
  | 8 => some (.sth (MemW.ofRaw r))
  | 9 => some (.stw (MemW.ofRaw r))
  | 10 => some (.std (MemW.ofRaw r))
  | 11 => some (.stq (MemW.ofRaw r))
  | 12 => some (.stws (MemS.ofRaw r))
  | 13 => some (.stds (MemS.ofRaw r))
  | 14 => some (.asw (MemS.ofRaw r))
  | 15 => some (.asd (MemS.ofRaw r))
  | 16 => some (.asq (MemS.ofRaw r))
  | 17 => some (.aadd (MemW.ofRaw r))
  | 18 => some (.amin (MemW.ofRaw r))
  | 19 => some (.amax (MemW.ofRaw r))
  | 20 => some (.aand (MemW.ofRaw r))
  | 21 => some (.aor (MemW.ofRaw r))
  | 22 => some (.axor (MemW.ofRaw r))
  | 23 => some (.axch (MemW.ofRaw r))
  | 24 => some (.acas (MemS.ofRaw r))
  | 25 => some (.afadd (MemW.ofRaw r))
  | 26 => some (.adadd (MemW.ofRaw r))
  | 27 =>
    match r.d.toNat / 16 with
    | 0 => some (.fenceFull (FenceW.ofRaw r))
    | 1 => some (.fenceAcq (FenceW.ofRaw r))
    | _ => some (.fenceRel (FenceW.ofRaw r))
  | 28 =>
    match r.b.toNat with
    | 0 => some (.lstamp (MemDA.ofRaw r))
    | 1 => some (.floorup (WDA.ofRaw r))
    | 2 => some (.settle (MemA.ofRaw r))
    | _ => none
  | 29 =>
    match r.b.toNat with
    | 0 => some (.tagl (WDA.ofRaw r))
    | 1 => some (.tags (WDA.ofRaw r))
    | 2 => some (.tagi (WA.ofRaw r))
    | 3 => some (.tagc (WA.ofRaw r))
    | _ => none
  | 30 => some (.pref (MemAB.ofRaw r))
  | _ => none

/-- The map of class CTL: Table 4.17. -/
def buildCtl (op : Nat) (r : Raw) : Option Instr :=
  match op with
  | 0 => some (.bra (BrW.ofRaw r))
  | 1 => some (.brx (WA.ofRaw r))
  | 2 => some (.call (BrW.ofRaw r))
  | 3 => some (.callx (WA.ofRaw r))
  | 4 => some (.ret (HdW.ofRaw r))
  | 5 => some (.exit (SAW.ofRaw r))
  | 6 => some (.bar (BarW.ofRaw r))
  | 7 => some (.bara (BarW.ofRaw r))
  | 8 => some (.barw (BarW.ofRaw r))
  | 9 => some (.pause (WB.ofRaw r))
  | 10 => some (.regacq (HdW.ofRaw r))
  | 11 => some (.regtry (PW.ofRaw r))
  | 12 => some (.regrel (HdW.ofRaw r))
  | 13 => some (.kill (KillW.ofRaw r))
  | 14 => some (.setx (WAB.ofRaw r))
  | 15 => some (.sread (SReadW.ofRaw r))
  | 16 => some (.swrite (SWriteW.ofRaw r))
  | 17 => some (.elect (PW.ofRaw r))
  | 18 => some (.assert (SAW.ofRaw r))
  | 19 => some (.trap (TrapW.ofRaw r))
  | 20 => some (.bkpt (HdW.ofRaw r))
  | 21 => some (.nop (HdW.ofRaw r))
  | 22 => some (.sadd (STri.ofRaw r))
  | 23 => some (.ssub (STri.ofRaw r))
  | 24 => some (.smul (STri.ofRaw r))
  | 25 => some (.smov (SDA.ofRaw r))
  | 26 => some (.smovi (SMovI.ofRaw r))
  | 27 => some (.ssetp (SCmp.ofRaw r))
  | 28 => some (.sld (SLdW.ofRaw r))
  | 29 => some (.slea (STri.ofRaw r))
  | 30 => some (.sand (STri.ofRaw r))
  | 31 => some (.vtos (VtosW.ofRaw r))
  | _ => none

/-- The map of class ENG: Table 4.18. -/
def buildEng (op : Nat) (r : Raw) : Option Instr :=
  match op with
  | 0 => some (.mma (FsA.ofRaw r))
  | 1 => some (.mmasp (FsA.ofRaw r))
  | 2 => some (.accz (WAB.ofRaw r))
  | 3 => some (.accld (WDAB.ofRaw r))
  | 4 => some (.accst (FsA.ofRaw r))
  | 5 => some (.kick (WA.ofRaw r))
  | 6 => some (.arvi (WAB.ofRaw r))
  | 7 => some (.send (WDAB.ofRaw r))
  | 8 => some (.slotrd (FsD.ofRaw r))
  | 9 =>
    match r.d.toNat / 16 % 2 with
    | 0 => some (.rlqRd (RlqW.ofRaw r))
    | _ => some (.rlqWr (RlqW.ofRaw r))
  | _ => none

/-- The map of class RUL: Table 4.18. -/
def buildRul (op : Nat) (r : Raw) : Option Instr :=
  match op with
  | 0 => some (.rcfg (WA.ofRaw r))
  | 1 => some (.rtld (WAB.ofRaw r))
  | 2 => some (.rstep (WA.ofRaw r))
  | 3 => some (.rpack (WAB.ofRaw r))
  | 4 => some (.runpack (WAB.ofRaw r))
  | 5 => some (.rcount (WDAB.ofRaw r))
  | 6 => some (.rgen (WD.ofRaw r))
  | 7 => some (.rabort (HdW.ofRaw r))
  | _ => none

/-- The map of class PKD: Table 4.15. -/
def buildPkd (op : Nat) (r : Raw) : Option Instr :=
  match op with
  | 0 => some (.paddF2 (PTri.ofRaw r))
  | 1 => some (.pmulF2 (PTri.ofRaw r))
  | 2 => some (.pfmaF2 (PTri.ofRaw r))
  | 3 => some (.paddH2 (PTri.ofRaw r))
  | 4 => some (.pmulH2 (PTri.ofRaw r))
  | 5 => some (.pfmaH2 (PTri.ofRaw r))
  | 6 => some (.paddB2 (PTri.ofRaw r))
  | 7 => some (.pmulB2 (PTri.ofRaw r))
  | 8 => some (.pfmaB2 (PTri.ofRaw r))
  | 9 => some (.pminH2 (PTri.ofRaw r))
  | 10 => some (.pmaxH2 (PTri.ofRaw r))
  | 11 => some (.pminB2 (PTri.ofRaw r))
  | 12 => some (.pmaxB2 (PTri.ofRaw r))
  | 13 => some (.pdot2H (PTri.ofRaw r))
  | 14 => some (.pdot2B (PTri.ofRaw r))
  | 15 => some (.pdot4I8 (PTri.ofRaw r))
  | 16 => some (.pdot4N8 (PTri.ofRaw r))
  | 17 => some (.paddI16 (PTri.ofRaw r))
  | 18 => some (.psubI16 (PTri.ofRaw r))
  | 19 =>
    match r.b.toNat with
    | 0 => some (.f2toh2 (Duo.ofRaw r))
    | 1 => some (.f2tob2 (Duo.ofRaw r))
    | 2 => some (.h2tof2 (Duo.ofRaw r))
    | 3 => some (.b2tof2 (Duo.ofRaw r))
    | 64 | 65 | 66 | 67 | 68 | 69 | 70 | 71 => some (.quant4 (SlotW.ofRaw r))
    | 72 | 73 | 74 | 75 | 76 | 77 | 78 | 79 => some (.deq4 (SlotW.ofRaw r))
    | _ => none
  | _ => none

/-- The map of class SYS: Table 4.18. -/
def buildSys (op : Nat) (r : Raw) : Option Instr :=
  match op with
  | 0 => some (.csrr (CsrrW.ofRaw r))
  | 1 => some (.csrw (CsrwW.ofRaw r))
  | 2 => some (.eret (HdW.ofRaw r))
  | 3 => some (.eretall (HdW.ofRaw r))
  | 4 =>
    match r.d.toNat % 4 with
    | 0 => some (.xinvVa (WAB.ofRaw r))
    | 1 => some (.xinvAsid (WB.ofRaw r))
    | 2 => some (.xinvIpa (WAB.ofRaw r))
    | _ => some (.xinvVmid (WB.ofRaw r))
  | 5 => some (.xsync (HdW.ofRaw r))
  | 6 => some (.hset (WA.ofRaw r))
  | 7 => some (.ckpt (WDA.ofRaw r))
  | _ => none

/-- The instruction that fields stand for in a class; `none` is RESERVED_OPCODE. -/
def build (c : Cls) (op : Nat) (r : Raw) : Option Instr :=
  match c with
  | .gen => buildGen op r
  | .wide => buildWide op r
  | .mem => buildMem op r
  | .ctl => buildCtl op r
  | .eng => buildEng op r
  | .rul => buildRul op r
  | .pkd => buildPkd op r
  | .sys => buildSys op r

/-- The decode fault of a word whose signature and run are known, after guard and opcode: PRIVILEGED, ILLEGAL_LITERAL,
ILLEGAL_OPERAND (R79, R80). -/
def Sig.fault (c : DecCtx) (sg : Sig) (w : Word) (r : Option Raw) : Option DecFault :=
  if sg.cls == .sys && !c.priv && !(c.handler && (sg.op == 2 || sg.op == 3)) then some ⟨.priv, w⟩
  else
    match r with
    | none => some ⟨.literal, w⟩
    | some r =>
      if !litOk sg r then some ⟨.literal, w⟩
      else (operandFault c sg r).map (fun v => ⟨.operand, v⟩)

/-- The fate of an instruction word after its literal run (R80, R81). -/
def decodeWord (c : DecCtx) (run : List Word) (w : Word) : Except DecFault Instr :=
  let r0 := rawFields w
  if 12 ≤ r0.g.toNat && r0.g.toNat < 15 then .error ⟨.guard, w⟩
  else
    match build c.cls (wordOp w).toNat r0 with
    | none => .error ⟨.reserved, w⟩
    | some i0 =>
      match i0.sig with
      | none => .error ⟨.reserved, w⟩
      | some sg =>
        match sg.fault c w (withRun r0 run) with
        | some f => .error f
        | none =>
          match (withRun r0 run).bind (build c.cls (wordOp w).toNat) with
          | some i => .ok i
          | none => .error ⟨.reserved, w⟩

/-- Whether the word in a place of a class shifts the latches, by its opcode alone (R35 counts words by position). -/
def wordShifts (c : Cls) (w : Word) : Bool :=
  match build c (wordOp w).toNat (rawFields w) with
  | some i => (i.sig.map Sig.shifts).getD false
  | none => false

/-! ### Clauses (R57 to R60) -/

/-- The fields of a clause header (Table 4.1). -/
structure Header where
  drain : BitVec 15
  tc : Bool
  step : Nat
  wait : BitVec 6
  cls : Cls
  n : Nat
deriving DecidableEq, Repr

/-- The class of a CLS code. -/
def Cls.ofCode : Nat → Cls
  | 0 => .gen
  | 1 => .wide
  | 2 => .mem
  | 3 => .ctl
  | 4 => .eng
  | 5 => .rul
  | 6 => .pkd
  | _ => .sys

/-- The CLS code of a class. -/
def Cls.code : Cls → Nat
  | .gen => 0
  | .wide => 1
  | .mem => 2
  | .ctl => 3
  | .eng => 4
  | .rul => 5
  | .pkd => 6
  | .sys => 7

/-- The port a class runs on (Table 2.1). -/
def Cls.port : Cls → Port
  | .gen | .wide | .pkd => .arith
  | .mem | .eng => .mem
  | .ctl | .rul | .sys => .ctl

/-- A header word read (R59). -/
def Header.ofWord (w : Word) : Header :=
  { drain := w.extractLsb' 17 15, tc := w.getLsbD 16, step := (w.extractLsb' 13 3).toNat, wait := w.extractLsb' 7 6,
    cls := Cls.ofCode (w.extractLsb' 4 3).toNat, n := (w.extractLsb' 0 4).toNat }

/-- The word of a header. -/
def Header.word (h : Header) : Word :=
  h.drain ++ BitVec.ofBool h.tc ++ BitVec.ofNat 3 h.step ++ h.wait ++ BitVec.ofNat 3 h.cls.code ++ BitVec.ofNat 4 h.n

/-- Whether word `w` is a BRA, BRX, CALL, CALLX, RET or EXIT of the CTL map. -/
def isTransfer (w : Word) : Bool := !isLiteral w && wordOp w ≤ 5#5

/-- Whether some DRAIN bit `i ≥ n` is set. -/
def drainBeyond (h : Header) : Bool := h.drain.toNat >>> h.n != 0

/-- Whether some DRAIN bit is set for a literal word. -/
def drainLiteral (h : Header) (ws : List Word) : Bool :=
  (ws.zipIdx).any (fun x => isLiteral x.1 && h.drain.getLsbD x.2)

/-- The reason code of ILLEGAL_CLAUSE (Table 4.2), the first condition found; `none` when the clause may start. -/
def clauseReason (h : Header) (ws : List Word) : Option Nat :=
  if h.n = 0 then some 1
  else if drainBeyond h then some 2
  else if drainLiteral h ws then some 3
  else if (ws.getLast?.map isLiteral).getD false then some 4
  else if h.tc && !(ws.getLast?.map isTransfer).getD false then some 5
  else if h.cls == .ctl && ((if h.tc then ws.dropLast else ws).any isTransfer) then some 6
  else none

/-- The class under which word `i` of a clause decodes: CTL for the last word of a TC clause (R59). -/
def Header.wordCls (h : Header) (i : Nat) : Cls := if h.tc && i + 1 == h.n then .ctl else h.cls

/-- How many of the words before place `i` shift the latches. -/
def shiftsBefore (h : Header) (ws : List Word) (i : Nat) : Nat :=
  (((ws.take i).zipIdx).filter (fun x => !isLiteral x.1 && wordShifts (h.wordCls x.2) x.1)).length

/-- The literal run that stands directly before place `i`, and the place of its first word. -/
def runBefore (ws : List Word) (i : Nat) : List Word :=
  ((ws.take i).reverse.takeWhile isLiteral).reverse

/-! ### The encoder -/

/-- The words of an instruction: its literal run, then the word; an event has none. -/
def encode (i : Instr) : List Word :=
  match i.sig, i.raw with
  | some sg, some r => r.runWords ++ [r.word sg.op]
  | _, _ => []

/-- Whether an instruction is an instruction word, not an event of the device. -/
def Instr.isWord (i : Instr) : Bool := i.sig.isSome

/-- A context that refuses nothing for its own sake: two earlier shifting words, privileged, INT8 in every slot. -/
def DecCtx.open (c : Cls) : DecCtx := ⟨c, 2, true, false, [6, 6, 6, 6, 6, 6, 6, 6]⟩

/-! ### The table's numbering

A word of the table does not carry its class: the clause header does (R59). The table's word is therefore read in the class
whose map accepts it and fixes most of its bits, the earlier class of `Cls.all` winning a tie (assumption log 10). -/

/-- The classes, in the order in which a tie is settled. -/
def Cls.all : List Cls := [.gen, .wide, .mem, .ctl, .eng, .rul, .pkd, .sys]

/-- How many bits of a field its rule fixes. -/
def FK.fixed : FK → Nat
  | .z | .zS | .fx0 => 7
  | .fxMask | .vote | .pred0 => 2
  | .fence | .fslot | .slotB => 3
  | .fxRm | .xinv => 7
  | _ => 0

/-- How many bits of a word its row of the table fixes. -/
def Sig.fixed (s : Sig) : Nat :=
  5 + s.d.fixed + s.a.fixed + (if s.fn.isSome then 7 else s.b.fixed)

/-- The context in which a table word of a class is read: two earlier shifting words where the class has such words. -/
def tableCtx (c : Cls) : DecCtx :=
  { DecCtx.open c with nsh := match c with | .mem | .rul | .sys => 0 | _ => 2 }

/-- What a class makes of a table word, and how many bits its row fixes. -/
def tableRead (w : Word) (c : Cls) : Option (Instr × Nat) :=
  if isLiteral w then none
  else
    match decodeWord (tableCtx c) [] w with
    | .ok i => some (i, (i.sig.map Sig.fixed).getD 0)
    | .error _ => none

/-- The better of two readings, the first winning a tie. -/
def betterRead (x y : Option (Cls × Instr × Nat)) : Option (Cls × Instr × Nat) :=
  match x, y with
  | none, y => y
  | x, none => x
  | some a, some b => if a.2.2 < b.2.2 then some b else some a

/-- The class and the instruction of a table word. -/
def tableClass (w : Word) : Option (Cls × Instr × Nat) :=
  (Cls.all.map (fun c => (tableRead w c).map (fun p => (c, p.1, p.2)))).foldl betterRead none

/-- The instruction the decoder reads from an instruction whose bits are `w`, numbered as the opcode table numbers them: a
single 32-bit word. -/
def decodeTableWord (nbits w : Nat) : Option Instr :=
  if nbits ≤ 32 then (tableClass (BitVec.ofNat 32 w)).map (fun x => x.2.1) else none

end Sys2Proof
end

