-- ==== Sys2Proof/Machine/Flags.lean ====
section
/-! DEFINITION. Numbers to the bit (spec/06): formats, exact values, rounding with its flags, arithmetic, conversions and the
correctly rounded functions. Every function answers the result's bits and the flags it raises. -/

namespace Sys2Proof.Machine

/-! ### Flags (Table 6.3) -/

/-- The flag set of a result: bit 4 IV, 3 DZ, 2 OF, 1 UF, 0 IX. -/
abbrev FlagSet := BitVec 5

/-- Invalid operation. -/
def fIV : FlagSet := 0x10

/-- Division by zero. -/
def fDZ : FlagSet := 0x08

/-- Overflow with inexact. -/
def fOF : FlagSet := 0x05

/-- Underflow with inexact. -/
def fUF : FlagSet := 0x03

/-- Inexact. -/
def fIX : FlagSet := 0x01

/-! ### Formats (Table 6.1) -/

/-- A format: widths of exponent and fraction; `e4m3` marks the format without infinities. -/
structure FFmt where
  ew : Nat
  fw : Nat
  e4m3 : Bool
deriving DecidableEq, Repr

/-- binary64. -/
def b64 : FFmt := ⟨11, 52, false⟩

/-- binary32. -/
def b32 : FFmt := ⟨8, 23, false⟩

/-- binary16. -/
def b16 : FFmt := ⟨5, 10, false⟩

/-- BF16. -/
def bf16 : FFmt := ⟨8, 7, false⟩

/-- FP8 E4M3. -/
def e4m3 : FFmt := ⟨4, 3, true⟩

/-- FP8 E5M2. -/
def e5m2 : FFmt := ⟨5, 2, false⟩

/-- The exponent bias. -/
def FFmt.bias (f : FFmt) : Nat := 2 ^ (f.ew - 1) - 1

/-- Significand bits. -/
def FFmt.prec (f : FFmt) : Nat := f.fw + 1

/-- The exponent of the smallest normal. -/
def FFmt.emin (f : FFmt) : Int := 1 - (f.bias : Int)

/-- The exponent of the largest finite value. -/
def FFmt.emax (f : FFmt) : Int := if f.e4m3 then 8 else f.bias

/-- The significand of the largest finite value, as an integer of `prec` bits. -/
def FFmt.maxMant (f : FFmt) : Nat := if f.e4m3 then 14 else 2 ^ f.prec - 1

/-- A sign bit in place. -/
def FFmt.signBit (f : FFmt) (s : Bool) : Nat := if s then 2 ^ (f.ew + f.fw) else 0

/-- ±0. -/
def FFmt.zero (f : FFmt) (s : Bool) : Nat := f.signBit s

/-- The infinity of a sign; in E4M3, which has none, the NaN of that sign (R120). -/
def FFmt.inf (f : FFmt) (s : Bool) : Nat :=
  f.signBit s + (if f.e4m3 then 0x7F else (2 ^ f.ew - 1) * 2 ^ f.fw)

/-- The largest finite value of a sign. -/
def FFmt.maxFin (f : FFmt) (s : Bool) : Nat := f.signBit s + (if f.e4m3 then 0x7E else (2 ^ f.ew - 1) * 2 ^ f.fw - 1)

/-- The default NaN (Table 6.2). -/
def FFmt.nan (f : FFmt) : Nat := if f.e4m3 then 0x7F else (2 ^ f.ew - 1) * 2 ^ f.fw + 2 ^ (f.fw - 1)

/-- A NaN's bits with the quiet bit set (R115); E4M3 has no signalling NaN. -/
def FFmt.quiet (f : FFmt) (x : Nat) : Nat := if f.e4m3 then x else x ||| 2 ^ (f.fw - 1)

/-- What bits stand for (R103): a NaN, quiet or signalling; an infinity; or `(-1)^s × m × 2^e`, where `m` may be 0. -/
inductive Fp where
  | nan (quiet : Bool)
  | inf (s : Bool)
  | num (s : Bool) (m : Nat) (e : Int)
deriving DecidableEq, Repr

/-- The value of bits in a format (R103). -/
def FFmt.read (f : FFmt) (x : Nat) : Fp :=
  let s := natBit x (f.ew + f.fw)
  let e := natBits x f.fw f.ew
  let m := natBits x 0 f.fw
  if e = 0 then .num s m (f.emin - f.fw)
  else if f.e4m3 && e == 15 && m == 7 then .nan true
  else if !f.e4m3 && e == 2 ^ f.ew - 1 then (if m = 0 then .inf s else .nan (natBit m (f.fw - 1)))
  else .num s (2 ^ f.fw + m) ((e : Int) - f.bias - f.fw)

/-- Whether a value is a signalling NaN. -/
def Fp.isSnan : Fp → Bool
  | .nan q => !q
  | _ => false

/-- Whether a value is a NaN. -/
def Fp.isNan : Fp → Bool
  | .nan _ => true
  | _ => false

/-- The sign of bits. -/
def FFmt.sign (f : FFmt) (x : Nat) : Bool := natBit x (f.ew + f.fw)

/-- Whether bits are a subnormal. -/
def FFmt.isSub (f : FFmt) (x : Nat) : Bool := natBits x f.fw f.ew == 0 && natBits x 0 f.fw != 0

/-- An operand under FTZ (R110): a subnormal is the zero of its sign. -/
def FFmt.flushIn (f : FFmt) (ftz : Bool) (x : Nat) : Nat := if ftz && f.isSub x then f.zero (f.sign x) else x

/-! ### Rounding (R105 to R112) -/

/-- The bit length of a number. -/
def bitLen (n : Nat) : Nat := if n = 0 then 0 else n.log2 + 1

/-- `m × 2^k` rounded down to an integer, with what was lost: 0 nothing, 1 below half, 2 half, 3 above half. `more` says that
the number is a little above `m`, by less than one unit. -/
def shiftDown (m : Nat) (k : Int) (more : Bool) : Nat × Nat :=
  if 0 ≤ k then (m * 2 ^ k.toNat, if more then 1 else 0)
  else
    let n := (-k).toNat
    let q := m / 2 ^ n
    let r := m % 2 ^ n
    let half := 2 ^ (n - 1)
    (q, if r < half then (if r = 0 && !more then 0 else 1) else if r = half && !more then 2 else 3)

/-- Whether to add one to a significand rounded down (R105). -/
def roundUp (rm : RMode) (s : Bool) (odd : Bool) (lost : Nat) : Bool :=
  match rm with
  | .ne => lost == 3 || (lost == 2 && odd)
  | .tz => false
  | .up => lost != 0 && !s
  | .dn => lost != 0 && s

/-- A significand rounded at a quantum: the integer number of `2^q`, and whether it differs from the number. -/
def roundAt (rm : RMode) (s : Bool) (m : Nat) (e : Int) (more : Bool) (q : Int) : Nat × Bool :=
  let (x, lost) := shiftDown m (e - q) more
  (if roundUp rm s (x % 2 == 1) lost then x + 1 else x, lost != 0)

/-- The bits of a nonzero finite number `x × 2^q` that the format holds exactly. -/
def FFmt.pack (f : FFmt) (s : Bool) (x : Nat) (q : Int) : Nat :=
  if x = 0 then f.zero s
  else if x < 2 ^ f.fw then f.signBit s + x
  else
    let (x, q) := if x = 2 ^ f.prec then (x / 2, q + 1) else (x, q)
    f.signBit s + (q + f.fw + f.bias).toNat * 2 ^ f.fw + (x - 2 ^ f.fw)

/-- What an overflow delivers (R111, R120): the largest finite value under SAT; otherwise the infinity or the largest finite
value as the mode directs, and for the 8-bit formats the infinity, or NaN, under every mode. -/
def FFmt.overflow (f : FFmt) (rm : RMode) (sat s : Bool) : Nat :=
  if sat then f.maxFin s
  else if f.fw ≤ 3 then f.inf s
  else
    match rm with
    | .ne => f.inf s
    | .tz => f.maxFin s
    | .up => if s then f.maxFin s else f.inf s
    | .dn => if s then f.inf s else f.maxFin s

/-- The modifiers of an operation: rounding mode, SAT and FTZ. -/
structure FEnv where
  rm : RMode
  sat : Bool
  ftz : Bool
deriving DecidableEq, Repr

/-- Round to nearest even with no modifier. -/
def FEnv.ne : FEnv := ⟨.ne, false, false⟩

/-- The number `(-1)^s × m × 2^e`, a little more in magnitude when `more`, rounded to a format (R105, R107, R108, R110, R111).
A number with `more` has at least two bits beyond the precision. -/
def FFmt.round (f : FFmt) (v : FEnv) (s : Bool) (m : Nat) (e : Int) (more : Bool) : Nat × FlagSet :=
  if m = 0 && !more then (f.zero s, 0)
  else
    let top := e + (bitLen m : Int) - 1
    let qu := top - f.fw
    let (xu, _) := roundAt v.rm s m e more qu
    -- the exponent of the number rounded with unbounded range
    let eu := if xu = 2 ^ f.prec then top + 1 else top
    let tooBig := f.emax < eu || (f.emax == eu && (f.maxMant < (if xu = 2 ^ f.prec then xu / 2 else xu)))
    if tooBig then (f.overflow v.rm v.sat s, fOF)
    else
      let qmin := f.emin - f.fw
      let q := if qu < qmin then qmin else qu
      let (x, ix) := roundAt v.rm s m e more q
      let tiny := eu < f.emin
      let bits := f.pack s x q
      if v.ftz && f.isSub bits then (f.zero s, fUF)
      else (bits, if ix then (if tiny then fUF else fIX) else 0)

/-- The first NaN of the operands, in order, quieted (R116); the default NaN when there is none. -/
def FFmt.pickNan (f : FFmt) (xs : List Nat) : Nat :=
  match xs.find? (fun x => (f.read x).isNan) with
  | some x => f.quiet x
  | none => f.nan

/-- IV when some operand is a signalling NaN (R107). -/
def FFmt.snanFlag (f : FFmt) (xs : List Nat) : FlagSet := if xs.any (fun x => (f.read x).isSnan) then fIV else 0

/-- The sign of an exact zero sum (R141): − under roundTowardNegative alone, and the common sign of two zeros. -/
def zeroSign (rm : RMode) (s1 s2 : Bool) : Bool := if s1 = s2 then s1 else rm == .dn

/-- The sum of two numbers as sign, magnitude and exponent. -/
def addExact (s1 : Bool) (m1 : Nat) (e1 : Int) (s2 : Bool) (m2 : Nat) (e2 : Int) : Bool × Nat × Int :=
  let e := min e1 e2
  let x : Int := (if s1 then -1 else 1) * (m1 * 2 ^ (e1 - e).toNat : Nat) + (if s2 then -1 else 1) * (m2 * 2 ^ (e2 - e).toNat : Nat)
  (decide (x < 0), x.natAbs, e)

/-! ### Arithmetic (R141, R336) -/

/-- a + b. -/
def FFmt.add (f : FFmt) (v : FEnv) (a0 b0 : Nat) : Nat × FlagSet :=
  let a := f.flushIn v.ftz a0
  let b := f.flushIn v.ftz b0
  match f.read a, f.read b with
  | .nan _, _ | _, .nan _ => (f.pickNan [a, b], f.snanFlag [a, b])
  | .inf s, .inf t => if s = t then (f.inf s, 0) else (f.nan, fIV)
  | .inf s, _ => (f.inf s, 0)
  | _, .inf t => (f.inf t, 0)
  | .num s1 m1 e1, .num s2 m2 e2 =>
    let (s, m, e) := addExact s1 m1 e1 s2 m2 e2
    if m = 0 then (f.zero (zeroSign v.rm s1 s2), 0) else f.round v s m e false

/-- A value with its sign flipped. -/
def FFmt.neg (f : FFmt) (x : Nat) : Nat := if f.sign x then x - f.signBit true else x + f.signBit true

/-- a − b; a NaN of b keeps the sign it has in b (R116). -/
def FFmt.sub (f : FFmt) (v : FEnv) (a b : Nat) : Nat × FlagSet :=
  if (f.read a).isNan || (f.read b).isNan then (f.pickNan [a, b], f.snanFlag [a, b]) else f.add v a (f.neg b)

/-- a × b. -/
def FFmt.mul (f : FFmt) (v : FEnv) (a0 b0 : Nat) : Nat × FlagSet :=
  let a := f.flushIn v.ftz a0
  let b := f.flushIn v.ftz b0
  match f.read a, f.read b with
  | .nan _, _ | _, .nan _ => (f.pickNan [a, b], f.snanFlag [a, b])
  | .inf s, .inf t => (f.inf (s != t), 0)
  | .inf s, .num t m _ | .num t m _, .inf s => if m = 0 then (f.nan, fIV) else (f.inf (s != t), 0)
  | .num s1 m1 e1, .num s2 m2 e2 => f.round v (s1 != s2) (m1 * m2) (e1 + e2) false

/-- a × b + c with one rounding; 0 × ∞ raises IV whatever the addend (R107), and a NaN result is the first NaN of a, b, c. -/
def FFmt.fma (f : FFmt) (v : FEnv) (a0 b0 c0 : Nat) : Nat × FlagSet :=
  let a := f.flushIn v.ftz a0
  let b := f.flushIn v.ftz b0
  let c := f.flushIn v.ftz c0
  let bad : Bool := match f.read a, f.read b with
    | .inf _, .num _ m _ | .num _ m _, .inf _ => m == 0
    | _, _ => false
  if (f.read a).isNan || (f.read b).isNan || (f.read c).isNan then
    (f.pickNan [a, b, c], f.snanFlag [a, b, c] ||| (if bad then fIV else 0))
  else if bad then (f.nan, fIV)
  else
    match f.read a, f.read b, f.read c with
    | .inf s, _, .inf t =>
      let p := s != f.sign b
      if p = t then (f.inf t, 0) else (f.nan, fIV)
    | _, .inf s, .inf t =>
      let p := s != f.sign a
      if p = t then (f.inf t, 0) else (f.nan, fIV)
    | .inf s, _, _ => (f.inf (s != f.sign b), 0)
    | _, .inf s, _ => (f.inf (s != f.sign a), 0)
    | _, _, .inf t => (f.inf t, 0)
    | .num s1 m1 e1, .num s2 m2 e2, .num s3 m3 e3 =>
      let (s, m, e) := addExact (s1 != s2) (m1 * m2) (e1 + e2) s3 m3 e3
      if m = 0 then (f.zero (if m3 = 0 || m1 * m2 = 0 then zeroSign v.rm (s1 != s2) s3 else v.rm == .dn), 0)
      else f.round v s m e false
    | _, _, _ => (f.nan, 0)

/-- a / b (Table 6.7). -/
def FFmt.div (f : FFmt) (v : FEnv) (a0 b0 : Nat) : Nat × FlagSet :=
  let a := f.flushIn v.ftz a0
  let b := f.flushIn v.ftz b0
  match f.read a, f.read b with
  | .nan _, _ | _, .nan _ => (f.pickNan [a, b], f.snanFlag [a, b])
  | .inf _, .inf _ => (f.nan, fIV)
  | .inf s, .num t _ _ => (f.inf (s != t), 0)
  | .num s _ _, .inf t => (f.zero (s != t), 0)
  | .num s m1 e1, .num t m2 e2 =>
    if m2 = 0 then (if m1 = 0 then (f.nan, fIV) else (f.inf (s != t), fDZ))
    else
      let k := bitLen m2 + f.prec + 3
      f.round v (s != t) (m1 * 2 ^ k / m2) (e1 - e2 - k) (m1 * 2 ^ k % m2 != 0)

/-- The integer square root, one bit at a time from bit `n` down. -/
def isqrt (x : Nat) : Nat → Nat → Nat
  | 0, r => r
  | n + 1, r => if (r + 2 ^ n) * (r + 2 ^ n) ≤ x then isqrt x n (r + 2 ^ n) else isqrt x n r

/-- √a (Table 6.7). -/
def FFmt.sqrt (f : FFmt) (v : FEnv) (a0 : Nat) : Nat × FlagSet :=
  let a := f.flushIn v.ftz a0
  match f.read a with
  | .nan _ => (f.pickNan [a], f.snanFlag [a])
  | .inf s => if s then (f.nan, fIV) else (f.inf false, 0)
  | .num s m e =>
    if m = 0 then (f.zero s, 0)
    else if s then (f.nan, fIV)
    else
      let k := 2 * f.prec + 6
      let k := if (e - k) % 2 = 0 then k else k + 1
      let x := m * 2 ^ k
      let r := isqrt x (f.prec + 3 + f.prec + 6) 0
      f.round v false r ((e - k) / 2) (r * r != x)

/-- 1/√a (Table 6.7). -/
def FFmt.rsqrt (f : FFmt) (v : FEnv) (a0 : Nat) : Nat × FlagSet :=
  let a := f.flushIn v.ftz a0
  match f.read a with
  | .nan _ => (f.pickNan [a], f.snanFlag [a])
  | .inf s => if s then (f.nan, fIV) else (f.zero false, 0)
  | .num s m e =>
    if m = 0 then (f.inf s, fDZ)
    else if s then (f.nan, fIV)
    else
      -- 1 / √(m × 2^e) with e made even: √(2^(2k) / m) × 2^(-k - e/2)
      let (m, e) := if e % 2 = 0 then (m, e) else (2 * m, e - 1)
      let k := 2 * f.prec + 8
      let r := isqrt (2 ^ (2 * k) / m) (k + 1) 0
      f.round v false r (-(k : Int) - e / 2) (r * r * m != 2 ^ (2 * k))

/-- 1/a (Table 6.7). -/
def FFmt.rcp (f : FFmt) (v : FEnv) (a : Nat) : Nat × FlagSet :=
  if (f.read a).isNan then (f.pickNan [a], f.snanFlag [a]) else f.div v (f.bias * 2 ^ f.fw) a

/-! ### Correctly rounded functions (R123)

Fixed-point values with 2^420 as the unit. Each series is summed with an error far below the distance of its exact value from
every rounding boundary, and a lower bound of the value is rounded with `more`. -/

/-- Bits of the fixed-point unit. -/
def fxBits : Nat := 420

/-- π in fixed point, rounded down. -/
def fxPi : Nat :=
  0x3243f6a8885a308d313198a2e03707344a4093822299f31d0082efa98ec4e6c89452821e638d01377be5466cf34e90c6cc0ac29b7c

/-- The sum of `x^(2k+1) / (2k+1)!` with alternating signs from term `t = x^i / i!` on, for `n` terms. -/
def fxTrig (x2 : Nat) (t i : Nat) (plus : Bool) : Nat → Int
  | 0 => 0
  | n + 1 => (if plus then (t : Int) else -t) + fxTrig x2 (t * x2 / 2 ^ fxBits / ((i + 1) * (i + 2))) (i + 2) (!plus) n

/-- sin of a fixed-point angle from 0 to π/4. -/
def fxSin (x : Nat) : Nat := (fxTrig (x * x / 2 ^ fxBits) x 1 true 50).toNat

/-- cos of a fixed-point angle from 0 to π/4. -/
def fxCos (x : Nat) : Nat := (fxTrig (x * x / 2 ^ fxBits) (2 ^ fxBits) 0 true 50).toNat

/-- The sum of `x^k / k!` from term `t = x^i / i!` on. -/
def fxExp (x : Nat) (t i : Nat) : Nat → Nat
  | 0 => 0
  | n + 1 => t + fxExp x (t * x / 2 ^ fxBits / (i + 1)) (i + 1) n

/-- The sum of `z^(2k+1) / (2k+1)`: the area tangent. -/
def fxAtanh (z2 : Nat) (t i : Nat) : Nat → Nat
  | 0 => 0
  | n + 1 => t / i + fxAtanh z2 (t * z2 / 2 ^ fxBits) (i + 2) n

/-- ln 2 in fixed point. -/
def fxLn2 : Nat := 2 * fxAtanh (2 ^ fxBits / 9) (2 ^ fxBits / 3) 1 140

/-- A lower bound of a fixed-point result, well above its summing error. -/
def fxSlack : Nat := 2 ^ 40

/-- sin (`cos = false`) or cos of a binary32 number `m × 2^e` in radians, as sign and fixed-point magnitude: the argument
reduced exactly against π/2 (R123). -/
def fxTrigOf (isCos : Bool) (s : Bool) (m : Nat) (e : Int) : Bool × Nat :=
  let x := m * 2 ^ (e + fxBits).toNat
  -- quarter turns, with the argument scaled so that the number of turns is exact
  let n := 2 * x / fxPi
  let r := x - n * fxPi / 2
  let q := (n + (if isCos then 1 else 0)) % 4
  let useCos := q % 2 = 1
  let small := 4 * r ≤ fxPi
  let mag := if useCos == small then fxCos (if small then r else fxPi / 2 - r) else fxSin (if small then r else fxPi / 2 - r)
  (if isCos then decide (2 ≤ q) else (s != decide (2 ≤ q)), mag)

/-- FSIN and FCOS of a binary32 value. -/
def fpTrig (isCos : Bool) (v : FEnv) (a0 : Nat) : Nat × FlagSet :=
  let a := b32.flushIn v.ftz a0
  match b32.read a with
  | .nan _ => (b32.pickNan [a], b32.snanFlag [a])
  | .inf _ => (b32.nan, fIV)
  | .num s m e =>
    if m = 0 then (if isCos then (0x3F800000, 0) else (b32.zero s, 0))
    else
      let (t, x) := fxTrigOf isCos s m e
      b32.round v t (x - fxSlack) (-(fxBits : Int)) true

/-- FEX2 of a binary32 value. -/
def fpEx2 (v : FEnv) (a0 : Nat) : Nat × FlagSet :=
  let a := b32.flushIn v.ftz a0
  match b32.read a with
  | .nan _ => (b32.pickNan [a], b32.snanFlag [a])
  | .inf s => if s then (b32.zero false, 0) else (b32.inf false, 0)
  | .num s m e =>
    if m = 0 then (0x3F800000, 0)
    -- beyond these bounds every result overflows or is below every subnormal
    else if 9 ≤ e + (bitLen m : Int) then
      (if s then b32.round v false 1 (-400) false else b32.round v false 1 400 false)
    else
      let x := m * 2 ^ (e + fxBits).toNat
      let k := x / 2 ^ fxBits
      let fr := x % 2 ^ fxBits
      if fr = 0 then b32.round v false 1 (if s then -(k : Int) else k) false
      else
        let (k, fr) : Int × Nat := if s then (-(k : Int) - 1, 2 ^ fxBits - fr) else (k, fr)
        let y := fxExp (fr * fxLn2 / 2 ^ fxBits) (2 ^ fxBits) 0 90
        b32.round v false (y - fxSlack) (k - fxBits) true

/-- FLG2 of a binary32 value. -/
def fpLg2 (v : FEnv) (a0 : Nat) : Nat × FlagSet :=
  let a := b32.flushIn v.ftz a0
  match b32.read a with
  | .nan _ => (b32.pickNan [a], b32.snanFlag [a])
  | .inf s => if s then (b32.nan, fIV) else (b32.inf false, 0)
  | .num s m e =>
    if m = 0 then (b32.inf true, fDZ)
    else if s then (b32.nan, fIV)
    else
      let top := e + (bitLen m : Int) - 1
      if m = 2 ^ (bitLen m - 1) then
        (if top = 0 then (b32.zero false, 0) else b32.round v (decide (top < 0)) top.natAbs 0 false)
      else
        -- m / 2^(bitLen m - 1) lies in (1, 2); log2 of it is 2 atanh((y-1)/(y+1)) / ln 2
        let d := 2 ^ (bitLen m - 1)
        let z := (m - d) * 2 ^ fxBits / (m + d)
        let l := 2 * fxAtanh (z * z / 2 ^ fxBits) z 1 140 * 2 ^ fxBits / fxLn2
        let x : Int := top * (2 ^ fxBits : Nat) + l
        b32.round v (decide (x < 0)) (x.natAbs - fxSlack) (-(fxBits : Int)) true

/-! ### Comparison, minimum and maximum, class (R117, R132, R146) -/

/-- Whether a < b, both numbers or infinities. -/
def Fp.lt (a b : Fp) : Bool :=
  match a, b with
  | .inf s, .inf t => s && !t
  | .inf s, _ => s
  | _, .inf t => !t
  | .num s1 m1 e1, .num s2 m2 e2 =>
    let (s, m, _) := addExact s1 m1 e1 (!s2) m2 e2
    s && m != 0
  | _, _ => false

/-- Whether a = b, +0 and −0 equal. -/
def Fp.eq (a b : Fp) : Bool := !a.isNan && !b.isNan && !a.lt b && !b.lt a

/-- A compare under a condition of Table 7.3, with its flags. -/
def FFmt.cmp (f : FFmt) (ftz : Bool) (cond : BitVec 3) (a0 b0 : Nat) : Bool × FlagSet :=
  let a := f.read (f.flushIn ftz a0)
  let b := f.read (f.flushIn ftz b0)
  let un := a.isNan || b.isNan
  let r := match cond.toNat with
    | 0 => a.eq b
    | 1 => un || !a.eq b
    | 2 => !un && a.lt b
    | 3 => !un && !b.lt a
    | 4 => !un && b.lt a
    | 5 => !un && !a.lt b
    | 6 => !un
    | _ => un
  (r, if a.isSnan || b.isSnan || (un && 2 ≤ cond.toNat && cond.toNat ≤ 5) then fIV else 0)

/-- minimumNumber and maximumNumber (R117), −0 below +0. -/
def FFmt.minmax (f : FFmt) (ftz isMax : Bool) (a0 b0 : Nat) : Nat × FlagSet :=
  let a := f.flushIn ftz a0
  let b := f.flushIn ftz b0
  let fl := f.snanFlag [a, b]
  match (f.read a).isNan, (f.read b).isNan with
  | true, true => (f.pickNan [a, b], fl)
  | true, false => (b, fl)
  | false, true => (a, fl)
  | false, false =>
    let lt := if (f.read a).eq (f.read b) then f.sign a && !f.sign b else (f.read a).lt (f.read b)
    let gt := if (f.read a).eq (f.read b) then f.sign b && !f.sign a else (f.read b).lt (f.read a)
    (if isMax then (if lt then b else a) else (if gt then b else a), fl)

/-- The class mask of Table 7.6. -/
def FFmt.classify (f : FFmt) (ftz : Bool) (a0 : Nat) : Nat :=
  let a := f.flushIn ftz a0
  match f.read a with
  | .nan q => if q then 2 else 1
  | .inf s => if s then 4 else 512
  | .num s m _ =>
    if m = 0 then (if s then 32 else 64)
    else if f.isSub a then (if s then 16 else 128)
    else (if s then 8 else 256)

/-- A value rounded to an integral value in its format, its sign kept (R146). -/
def FFmt.rint (f : FFmt) (v : FEnv) (a0 : Nat) : Nat × FlagSet :=
  let a := f.flushIn v.ftz a0
  match f.read a with
  | .nan _ => (f.pickNan [a], f.snanFlag [a])
  | .inf s => (f.inf s, 0)
  | .num s m e =>
    if m = 0 || 0 ≤ e then (a, 0)
    else
      let (x, ix) := roundAt v.rm s m e false 0
      ((f.round FEnv.ne s x 0 false).1, if ix then fIX else 0)

/-! ### Conversions (R119 to R122) -/

/-- A NaN of one format in another (R119, R120): sign kept, quieted, the top of its fraction kept. -/
def convNan (src dst : FFmt) (x : Nat) : Nat :=
  let s := src.sign x
  if src.e4m3 then dst.nan + dst.signBit s
  else if dst.e4m3 then dst.signBit s + 0x7F
  else
    let fr := natBits (src.quiet x) 0 src.fw
    let fr := if src.fw ≤ dst.fw then fr * 2 ^ (dst.fw - src.fw) else fr / 2 ^ (src.fw - dst.fw)
    dst.signBit s + (2 ^ dst.ew - 1) * 2 ^ dst.fw + fr

/-- A value of one format in another: exact when it is wider (R119), rounded otherwise. `sat` acts on infinities of E4M3 as
R120 gives. -/
def fpConv (src dst : FFmt) (v : FEnv) (a : Nat) : Nat × FlagSet :=
  match src.read a with
  | .nan q => (convNan src dst a, if q then 0 else fIV)
  | .inf s =>
    if dst.e4m3 then (if v.sat then (dst.maxFin s, 0) else (dst.inf s, fIV)) else (dst.inf s, 0)
  | .num s m e => dst.round v s m e false

/-- A conversion with FTZ on its operand (R110). -/
def fpConvF (src dst : FFmt) (v : FEnv) (a : Nat) : Nat × FlagSet := fpConv src dst v (src.flushIn v.ftz a)

/-- A floating-point value as an integer of `w` bits (R121): rounded, and at the end of the range when out of it, with IV, or
with IX under SAT. The integer is answered as a bit string. -/
def fpToInt (src : FFmt) (v : FEnv) (signed : Bool) (w : Nat) (a0 : Nat) : Nat × FlagSet :=
  let a := src.flushIn v.ftz a0
  let lo : Int := if signed then -(2 ^ (w - 1) : Nat) else 0
  let hi : Int := if signed then (2 ^ (w - 1) : Nat) - 1 else (2 ^ w : Nat) - 1
  let out := if v.sat then fIX else fIV
  let bits := fun (x : Int) => (x % (2 ^ w : Nat)).toNat
  match src.read a with
  | .nan _ => (0, fIV)
  | .inf s => (bits (if s then lo else hi), out)
  | .num s m e =>
    let (x, ix) := roundAt v.rm s m e false 0
    let y : Int := if s then -(x : Int) else x
    if y < lo then (bits lo, out)
    else if hi < y then (bits hi, out)
    else (bits y, if ix then fIX else 0)

/-- An integer as a floating-point value (R122). -/
def intToFp (dst : FFmt) (rm : RMode) (x : Int) : Nat × FlagSet := dst.round ⟨rm, false, false⟩ (decide (x < 0)) x.natAbs 0 false

/-- A binary32 or binary64 value quieted when it is a signalling NaN, else unchanged (Table 7.8, FP32). -/
def FFmt.quietCopy (f : FFmt) (a : Nat) : Nat × FlagSet :=
  if (f.read a).isSnan then (f.quiet a, fIV) else (a, 0)

/-! ### Format slots (R148, R364, Table 21.2) -/

/-- The float format of a slot's element code, for the codes that are floats. -/
def slotFmt : Nat → Option FFmt
  | 0 => some b64
  | 1 => some b32
  | 2 => some bf16
  | 3 => some b16
  | 4 => some e4m3
  | 5 => some e5m2
  | _ => none

/-- A value converted to a slot's element format (Table 7.8, Table 21.7), with the slot's rounding and SAT. -/
def toSlot (src : FFmt) (code : Nat) (v : FEnv) (a : Nat) : Nat × FlagSet :=
  match slotFmt code with
  | some d => if d = src then src.quietCopy a else fpConv src d v a
  | none => fpToInt src v (code == 6) 8 a

/-- An element of a slot's format as a value of a wider format (Table 7.8, DEQ). -/
def fromSlot (dst : FFmt) (code : Nat) (a : Nat) : Nat × FlagSet :=
  match slotFmt code with
  | some s => if s = dst then dst.quietCopy a else fpConv s dst FEnv.ne (a % 2 ^ (1 + s.ew + s.fw))
  | none =>
    let x := a % 256
    intToFp dst .ne (if code = 6 && 128 ≤ x then (x : Int) - 256 else x)

/-- A slot's A element format. -/
def slotA (x : Dword) : Nat := (x.extractLsb' 0 4).toNat

/-- A slot's rounding and SAT (R105, R348). -/
def slotEnv (x : Dword) : FEnv := ⟨RMode.ofBits (x.extractLsb' 17 2), x.getLsbD 16, false⟩

/-! ### Integer arithmetic (R104, R129) -/

/-- An exact result clamped to i32 (R129). -/
def clampI32 (x : Int) : Word := BitVec.ofInt 32 (if x < -2147483648 then -2147483648 else if 2147483647 < x then 2147483647 else x)

/-- An exact result clamped to i64. -/
def clampI64 (x : Int) : Dword :=
  BitVec.ofInt 64 (if x < -9223372036854775808 then -9223372036854775808
    else if 9223372036854775807 < x then 9223372036854775807 else x)

/-- An integer compare under a condition of Table 7.3. -/
def intCmp (cond : BitVec 3) (a b : BitVec n) : Bool :=
  match cond.toNat with
  | 0 => a == b
  | 1 => a != b
  | 2 => a.slt b
  | 3 => a.sle b
  | 4 => b.slt a
  | 5 => b.sle a
  | 6 => a.ult b
  | _ => b.ule a

/-- The number of set bits. -/
def popCount (x : Nat) : Nat → Nat
  | 0 => 0
  | n + 1 => x % 2 + popCount (x / 2) n

/-- The `n` bits of a number in reverse order. -/
def revBits (x : Nat) : Nat → Nat
  | 0 => 0
  | n + 1 => (x % 2) * 2 ^ n + revBits (x / 2) n

end Sys2Proof.Machine
end

