-- ==== Sys2Proof/Config.lean ====
section
/-! DEFINITION. The constants of the package as shipped (spec/00 Table 0.1, R2) and the free values: opaque constants that
nothing in the model can evaluate, one for each value the manual leaves open (assumption log 7). -/

namespace Sys2Proof.Config

/-! ### Organisation (R1, R2, R5) -/

/-- Cores per cluster. -/
def coresPerCluster : Nat := 4

/-- Clusters per die. -/
def clustersPerDie : Nat := 32

/-- Clusters in the package. -/
def clusters : Nat := 128

/-- Cores in the package. -/
def cores : Nat := 512

/-- Lanes in a core. -/
def lanes : Nat := 32

/-- Threads in a warp. -/
def warpThreads : Nat := 32

/-- Base blocks and extended blocks that one lane's file holds (R5, R39). -/
def laneBlocks : Nat := 8

/-- Memory-side slices in the package. -/
def slices : Nat := 192

/-- Dies in the package. -/
def dies : Nat := 4

/-- HBM4E stacks of a die (R3). -/
def dieStacks : Nat := 3

/-- Links of a die: 6 die-to-die and 4 ISL (R3); the first number the die-to-die links (DESIGN CHOICE, log 9). -/
def dieLinks : Nat := 10

/-- Links of the package: those of die `d` have the numbers from `d` times `dieLinks` (R3). -/
def links : Nat := dies * dieLinks

/-- A die and one of its links (R3). -/
def linkOk (die link : Nat) : Bool := decide (die < dies) && decide (link < dieLinks)

/-- The bytes of a CXL device that are mapped: its first 2 TiB (R239). -/
def cxlBytes : Nat := 2 ^ 41

/-- The bytes of a history entry (Table 9.7). -/
def entryBytes : Nat := 80

/-- Scratchpad bytes of one core. -/
def scratchBytes : Nat := 0x100000

/-- Core cycles in one stamp tick: 40 ns at 1.5 GHz (Table 0.1). -/
def cyclesPerTick : Nat := 60

/-- Cycles between two computations of SETTLED (R165). -/
def settleCycles : Nat := 256

/-- Stamp ticks in one microsecond. -/
def ticksPerMicro : Nat := 25

/-! ### Free values

Each takes the number of the free choice being made (`State.fresh`), so two choices are never linked. A claim about a free
value holds for every value. -/

/-- A free bit: which of two outcomes the manual allows comes about. -/
opaque freeBit : Nat → Bool

/-- A free 32-bit word: a value the manual leaves undefined. -/
opaque freeWord : Nat → BitVec 32

/-- A free byte: a value the manual leaves undefined. -/
opaque freeByte : Nat → BitVec 8

/-- A free natural number: a choice among several things that the manual leaves open. -/
opaque freeNat : Nat → Nat

/-- How far the core clock steps down at the power cap (R245), which the manual does not give. -/
opaque cappedClock : Nat

/-- The device identity key, derived from the SRAM physical unclonable function (R244). -/
opaque identityKey : List Byte

/-- The SLH-DSA-SHA2-128f signature of a message under a key (R244): the algorithm is named and not given. -/
opaque slhDsaSign : List Byte → List Byte → List Byte

end Sys2Proof.Config
end

