-- ==== Sys2Proof/Machine/State.lean ====
section
/-! DEFINITION. The state of the whole device as plain data: threads, warps, blocks, launches, lanes, cores, slices, memory and
its history, translation, engines, partitions and the front end; the outcomes that stop the model; the state after reset. -/

namespace Sys2Proof.Machine

/-- A table keyed by numbers, its keys rising. A key that is absent stands for the default the reader names. -/
abbrev Tab (α : Type) := List (Nat × α)

/-- Memory: bytes by address, addresses strictly rising, no zero byte listed; an unlisted byte reads 0 (log 2). -/
abbrev Memory := List Host.Cell

/-- The canonical form of a memory: addresses strictly rising and no byte equal to what an unlisted address reads as. -/
def Memory.wf : Memory → Bool
  | [] => true
  | [c] => c.2 != 0
  | c :: d :: rest => c.2 != 0 && decide (c.1 < d.1) && Memory.wf (d :: rest)

/-! ### Threads (spec/02, spec/03, spec/18) -/

/-- The causes of Table 4.21. -/
inductive Cause where
  | none | illegalClause | illegalGuard | reservedOpcode | illegalOperand | illegalLiteral | privileged | stallShort | voidRead
  | idxRange | regBlock | fpExc | addrInvalid | misaligned | xlatFatal | xlatS2Fatal | permission | rangeLock | histGone | memUe
  | capFault | barrierMisuse | assertion | userTrap | breakpoint | sdcMismatch | halted
deriving DecidableEq, Repr

/-- The run state of a thread (R13). -/
inductive ThState where
  | ready | issuing | waiting | paused | parked | halted | exited
deriving DecidableEq, Repr

/-- What a waiting thread waits on inside a clause (R267): a barrier phase, or the extended block. `abort` marks a thread that was
stopped while it waited at an RABORT, which it waits at again (R385). -/
inductive WaitOn where
  | barrier (level num phase : Nat)
  | regacq
  | abort
deriving DecidableEq, Repr

/-- The eight trap registers (R82). -/
structure TrapRegs where
  cause : Cause
  info : Word
  tpc : Dword
  addr : Dword
  skid : Word
  synd : Dword
  unit : Word
  stamp : Dword
deriving DecidableEq, Repr

/-- What a fault writes into the trap registers (R82). `from_` is the TPC and the count of TSKID of a deferred error, which
names an earlier word (R171, R194). -/
structure TrapInfo where
  cause : Cause
  info : Word
  addr : Dword
  stamp : Dword
  from_ : Option (Dword × Nat)
deriving DecidableEq, Repr

/-- A fixed-latency write in flight to a v register (0 to 63) or k slot (64 to 67), landing at cycle `at` (R51). -/
structure Pend where
  loc : Nat
  val : Word
  land : Nat
deriving DecidableEq, Repr

/-- A latch value and the cycle from which it is readable (R34, R51). -/
structure Lat where
  val : Dword
  land : Nat
deriving DecidableEq, Repr

/-- A destination of an asynchronous result: the storage, the outstanding word it belongs to, whether its response has
written it, the response's value once known, and whether another write has taken its place (R54, R55). -/
structure AsyncDst where
  loc : Nat
  word : Nat
  req : Nat
  idx : Nat
  value : Option Word
  lost : Bool
deriving DecidableEq, Repr

/-- An arrival at a barrier that still awaits its wait (R28). -/
structure Arrival where
  level : Nat
  num : Nat
  phase : Nat
deriving DecidableEq, Repr

/-- A deferred error of a memory word (R171, R194): its trap registers and counter, and the words issued when it was issued. -/
structure Deferred where
  cause : Cause
  addr : Dword
  stamp : Dword
  tpc : Dword
  ctr : Nat
  issued : Nat
deriving DecidableEq, Repr

/-- A position in the program: a clause header and a word place within the clause. -/
structure Pos where
  pc : Dword
  word : Nat
deriving DecidableEq, Repr

/-- The handler save state of a thread (R38, R311, R313). -/
structure SaveArea where
  lat : List Lat
  k : Vector Word 4
  kvoid : BitVec 4
  resume : Pos
  wait : Option WaitOn
deriving DecidableEq, Repr

/-- A thread (R13). `slotAt` is the cycle from which its own next slot may begin (R52, R53), `ready` the one from which it is a
candidate with the threads that left a bundle beside it. `wrote` is the greatest stamp of the global stores and atomics it has committed
(R164). -/
structure Thread where
  st : ThState
  pos : Pos
  link : Dword
  flags : BitVec 5
  rmode : BitVec 2
  vix : Word
  v : Vector Word 64
  vvoid : BitVec 64
  k : Vector Word 4
  kvoid : BitVec 4
  lat : List Lat
  pend : List Pend
  async : List AsyncDst
  trap : TrapRegs
  tmask : Word
  handler : Bool
  save : Option SaveArea
  resume : Pos
  pause : Nat
  since : Nat
  ready : Nat
  slotAt : Nat
  candAt : Nat
  issued : Nat
  skid : Nat
  arrival : List Arrival
  wait : Option WaitOn
  deferred : List Deferred
  toff : BitVec 5
  succ : Option Dword
  accesses : Nat
  sig : Dword
  records : Nat
  stores : Nat
  window : Bool
  cleared : Bool
  wrote : Dword
deriving DecidableEq, Repr

/-! ### Warps, blocks, groups (spec/02) -/

/-- An in-flight write of a scalar register: readable by the writing bundle from `own`, by others from `other` (R20, R43). -/
structure SPend where
  reg : Nat
  val : Word
  bundle : Nat
  own : Nat
  other : Nat
deriving DecidableEq, Repr

/-- A scalar register that an SLD is to write: the outstanding word, the request, the bundle, the response's value once known, and
whether another write has taken its place (R43, R54, R55). -/
structure SAsync where
  reg : Nat
  word : Nat
  req : Nat
  bundle : Nat
  value : Option Word
  lost : Bool
deriving DecidableEq, Repr

/-- An in-flight write of predicate bits: those of `mask` take those of `bits` (R20, R133). -/
structure PPend where
  pred : Nat
  mask : Word
  bits : Word
  bundle : Nat
  own : Nat
  other : Nat
deriving DecidableEq, Repr

/-- A FLOOR raise that other bundles do not yet see (R20, R210). -/
structure FPend where
  val : Dword
  bundle : Nat
  other : Nat
deriving DecidableEq, Repr

/-- A word that a counter counts: the responses, chains, operations or steps still due for the warp, and the greatest value
that raises FLOOR when the counter falls (R163, R192). -/
structure OutWord where
  word : Nat
  ctr : Nat
  left : Nat
  floor : Dword
deriving DecidableEq, Repr

/-- A barrier: its phase number, and the cycle of the last arrival once every member has arrived (R27, R28). -/
structure Barrier where
  phase : Nat
  last : Option Nat
deriving DecidableEq, Repr

/-- A warp (R14). `fell` holds for each counter the cycle in which it last fell to zero (R17). -/
structure Warp where
  launch : Nat
  block : Nat
  num : Nat
  core : Nat
  lane : Nat
  threads : List Thread
  s : Vector Word 96
  spend : List SPend
  sasync : List SAsync
  preds : Vector Word 12
  ppend : List PPend
  ctr : Vector (BitVec 6) 6
  fell : Vector Nat 6
  out : List OutWord
  ext : Bool
  acqAt : Option Nat
  floor : Dword
  fpend : List FPend
  bars : Tab Barrier
deriving DecidableEq, Repr

/-- A halt in progress (R309, R310): when it was raised, the lanes (`core × 32 + lane`) it has reached, and the thread that
will enter the handler. -/
structure Halt where
  raised : Nat
  reached : List Nat
  thread : TKey
deriving DecidableEq, Repr

/-- A block (R25): its identifier, its group, the cores that hold its area with the area's base on each, the area's size,
and its halt. -/
structure Block where
  launch : Nat
  id : Nat
  group : Nat
  shadow : Bool
  warps : List Nat
  areas : Tab Nat
  size : Nat
  halt : Option Halt
  bars : Tab Barrier
  ended : Bool
deriving DecidableEq, Repr

/-- The area that a block of a group was given on a core (R154): the block's identifier and number, the core, the base and the size. -/
structure GroupArea where
  id : Nat
  block : Nat
  core : Nat
  base : Nat
  size : Nat
deriving DecidableEq, Repr

/-- A placed cluster group (R25, R261): the blocks of it that are resident, how many have been placed, and the areas of all of them;
under RED the partner copy's number (R319). -/
structure Group where
  launch : Nat
  id : Nat
  cluster : Nat
  blocks : List Nat
  placed : Nat
  areas : List GroupArea
  shadow : Bool
  partner : Option Nat
  bars : Tab Barrier
deriving DecidableEq, Repr

/-! ### Launches, which are contexts (spec/15, spec/18) -/

/-- A mirror window descriptor (R300). -/
structure Mirror where
  base : Nat
  size : Nat
  mask : BitVec 16
  first : Nat
deriving DecidableEq, Repr

/-- A launch record (Table 15.3). -/
structure Record where
  prio : Nat
  red : Bool
  res : Bool
  entry : Dword
  levels : Dword
  extents : List Nat
  spad : Nat
  lanew : Nat
  args : Dword
  caps : Dword
  capn : Nat
  nbv : Nat
  mdef : Word
  slots : List Dword
  mirrors : List Mirror
  trap : Dword
  fxe : BitVec 5
  chkSb : Bool
  chkVoid : Bool
  succ : Dword
deriving DecidableEq, Repr

/-- A capability entry with its live allowance (R302). -/
structure Cap where
  valid : Bool
  pkg : Nat
  part : Nat
  tag : Word
  allow : Nat
  rwrite : Bool
  fire : Bool
  send : Bool
deriving DecidableEq, Repr

/-- The translation a context runs under (R221). -/
structure Xlat where
  part : Nat
  vf : BitVec 8
  asid : BitVec 16
  s1root : Dword
  s2root : Dword
deriving DecidableEq, Repr

/-- An outstanding page request (R226): its ID once posted, type, page, core, and ASID. -/
structure PageReq where
  id : Option Nat
  kind : Nat
  page : Nat
  core : Nat
  asid : BitVec 16
deriving DecidableEq, Repr

/-- A page response that the front end holds for a saved context (R230). -/
structure HeldResp where
  queue : QKey
  req : PageReq
  deny : Bool
deriving DecidableEq, Repr

/-- How far a context has come. -/
inductive LStatus where
  | pending     -- fired, groups still to place
  | running     -- every block placed
  | complete    -- every block retired
  | ended       -- stopped for good by a fault or ASSERT, saved, held until discarded (R282, R312)
deriving DecidableEq, Repr

/-- A launch and its context. `ring` is the number under which an arm holds its ring entry busy (R253, R254). A saved context comes back
cluster by cluster (R265): `back` are those of its clusters on which it runs again. `blocks` is set once its next group has waited 10 ms
(R262). `named` are the records that its blocks' exits have fired, and `barren` that one was refused, after which nothing fires from it (R31, R257); of a launch so fired, `viaExit`
is its record and `exitLaunch` the launch whose exits named it. -/
structure Launch where
  rcd : Record
  recAddr : Dword
  payAddr : Dword
  payLen : Nat
  tag : Word
  floor : Dword
  prio : Nat
  order : Nat
  ring : Option Nat
  xlat : Xlat
  gen : BitVec 16
  priv : Bool
  ptvec : Dword
  qsel : BitVec 9
  caps : List Cap
  capsRead : Bool
  nextBlock : Nat
  retired : Nat
  status : LStatus
  waitSince : Nat
  blocks : Bool
  saved : Bool
  back : List Nat
  stopAt : Option Nat
  exitFloor : Dword
  named : List Dword
  barren : Bool
  viaExit : Option Dword
  exitLaunch : Option Nat
  bars : Tab Barrier
  heldResp : List HeldResp
deriving DecidableEq, Repr

/-! ### Ports and bundles (spec/02) -/

/-- An active bundle (R18): its threads in pass order, its clause, the next word's place, and the cycle at which the next
pass may begin. `walked` holds the numbers of the walks that the held pass has waited for (R215), `acted` the threads of a
held pass that have handed their commands over (R295, R358, R370), `acts` the number from which that word's commands count, and
`failed` the threads that the word's checks have stopped meanwhile (R303). -/
structure Bundle where
  id : Nat
  threads : List TKey
  pc : Dword
  hdr : Header
  words : List Word
  pos : Nat
  next : Nat
  fetched : Bool
  walked : List Nat
  acted : List TKey
  acts : Nat
  failed : List (TKey × TrapInfo)
deriving DecidableEq, Repr

/-- The bundle whose word is being issued, with the cycle of its pass, and the place of the run's first word. -/
structure Cur where
  port : Nat
  start : Nat
  first : Nat
deriving DecidableEq, Repr

/-! ### Translation (spec/11, spec/12) -/

/-- Effective page attributes (R158). -/
structure Attrs where
  cache : Nat
  sa : Bool
  sc : Bool
  hist : Bool
  write : Bool
  exec : Bool
deriving DecidableEq, Repr

/-- A translation: input page, output address of the page or block, its size as a power of two, attributes, the addresses of
the leaves it went through, the size of the stage-2 leaf as a power of two, and whether DIRTY and CKPT, and ACCESSED, are set in them (R222, R223). -/
structure TlbEntry where
  xlat : Xlat
  va : Nat
  pa : Nat
  log : Nat
  ipa : Nat
  attrs : Attrs
  leaf1 : Nat
  leaf2 : Option Nat
  log2 : Nat
  dirty : Bool
deriving DecidableEq, Repr

/-- How a walk ends (Table 12.2). -/
inductive WalkEnd where
  | ok (e : TlbEntry)
  | miss (s2 : Bool) (page : Nat) (tableRead : Bool)
  | fatal (s2 : Bool)
  | ue (s2 : Bool)
deriving DecidableEq, Repr

/-- Who waits for a walk: a bundle by its number, or a released access. -/
inductive WalkFor where
  | bundle (id : Nat)
  | request (id : Nat)
deriving DecidableEq, Repr

/-- What an invalidation drops: its partition, kind, VF, ASID and address (R228). -/
structure InvSpec where
  part : Nat
  kind : InvKind
  vf : BitVec 8
  asid : BitVec 16
  addr : Nat
deriving DecidableEq, Repr

/-- A walk in flight (R215, R224). `marks` is whether some access that sets ACCESSED waits for it, which a read of parameter space does not
(R155); `drops` are the invalidations posted since it began, which keep what they match out of the TLBs (R228). -/
structure Walk where
  id : Nat
  xlat : Xlat
  va : Nat
  core : Nat
  waits : List WalkFor
  due : Nat
  marks : Bool
  drops : List InvSpec
  done : Option WalkEnd
deriving DecidableEq, Repr

/-- The registers and requests of a page queue (Table 12.3). -/
structure PageQueue where
  base : Dword
  cfg : Word
  reqHead : Word
  reqTail : Word
  rspHead : Word
  rspTail : Word
  nextId : BitVec 16
  reqs : List PageReq
  errors : Word
deriving DecidableEq, Repr

/-- An invalidation posted and not yet at every TLB's end (R228, R229): its partition, the thread that posted it, the walks that began
before it, and the requests sent through a dropped translation. -/
structure Inval where
  id : Nat
  part : Nat
  by_ : Option TKey
  walks : List Nat
  reqs : List Nat
deriving DecidableEq, Repr

/-! ### Requests (spec/08, spec/09, spec/10) -/

/-- What a request does at its place. -/
inductive ReqKind where
  | load (bytes : Nat) (signed : Bool)
  | store (data : List Byte)
  | stamped (data : List Byte)
  | asof (bytes : Nat) (s : Dword)
  | atomic (op : AtomOp) (w64 signed : Bool)
  | lstamp
  | settle (a : Dword)
  | pref
  | fetch
deriving DecidableEq, Repr

/-- Where a request goes; `len` is how many bytes of a parameter-space access have a backing. -/
inductive Place where
  | global
  | scratch (core : Nat)
  | cluster (core : Nat)
  | mirror (window : Nat) (members : List Nat)
  | param (len : Nat)
deriving DecidableEq, Repr

/-- How far a request has come. -/
inductive Stage where
  | parked (s2 : Bool) (page : Nat)   -- held in the fault buffer (R216)
  | walking (group : Nat)             -- released, with others of one response, its walk repeated (R217)
  | sent                              -- on its way to where it is served
  | stalled (since : Nat)             -- a historied write waiting for the hold (R173)
  | held                              -- a redundant launch's store, in the buffer until its window matches (R319)
  | served                            -- served or committed; the response is on its way
deriving DecidableEq, Repr

/-- One thread's part of a request: the destination storage, the operands of an atomic, the prefix operand of its group
(R206), the number of the access among the thread's global accesses (R319), the outstanding word of its warp,
and its own value of the response. -/
structure Part where
  thread : TKey
  dst : List Nat
  x : Dword
  cmp : Dword
  pre : Option Dword
  access : Nat
  word : Nat
  value : List Word
deriving DecidableEq, Repr

/-- A request in flight (R316): who sent it, under which translation, what it does, where, and how far it has come. `pa2` is where a
parameter read goes on in the next page. -/
structure Req where
  id : Nat
  launch : Nat
  gen : BitVec 16
  core : Nat
  lane : Nat
  word : Nat
  tpc : Dword
  kind : ReqKind
  place : Place
  va : Dword
  xlat : Xlat
  tlb : Option TlbEntry
  pa : Nat
  pa2 : Nat
  attrs : Attrs
  hint : Cache
  acq : Bool
  rel : Bool
  ctr : Nat
  floor : Dword
  parts : List Part
  sdst : Option Nat
  order : Nat
  slice : Nat
  stage : Stage
  due : Nat
  stamp : Dword
  raise : Option Dword
  ue : Bool
  gone : Bool
  issued : List Nat
  killA : List (List Nat)
  left : List Nat
deriving DecidableEq, Repr

/-- A completion record (R316): the response a slice sent for a request of a context being saved. -/
structure Completion where
  launch : Nat
  req : Nat
  stamp : Dword
  data : List Word
deriving DecidableEq, Repr

/-! ### Long operations (R143, R144) -/

/-- A long operation's result on its way. -/
structure LongOp where
  id : Nat
  thread : TKey
  word : Nat
  dst : Option Nat
  vals : List Word
  flags : BitVec 5
  due : Nat
deriving DecidableEq, Repr

/-- A SHFL's read of a thread outside its pass, to be taken at the pass's last slot (R137, R139): the reader with the storage of its D
and the cycle it lands, the thread read with the storage of A there, and the cycle after the pass's last slot. -/
structure ShflRead where
  reader : TKey
  dst : Option Nat
  land : Nat
  src : TKey
  loc : Nat
  stop : Nat
deriving DecidableEq, Repr

/-! ### Core units -/

/-- A line of a core's L1 (R160), with the value its fill carried (R163). An L1 lists its lines with the highest retention first. -/
structure L1Line where
  line : Nat
  data : List Byte
  carried : Dword
deriving DecidableEq, Repr

/-- The space of a locked range (R185). -/
inductive LockSpace where
  | scratch | tile | global (part : Nat) (vf : BitVec 8) (asid : BitVec 16)
deriving DecidableEq, Repr

/-- A range-lock entry: a byte interval `[lo, hi)`, a destination or a source, and the operation and block that own it. -/
structure Lock where
  op : Nat
  block : Nat
  space : LockSpace
  lo : Nat
  hi : Nat
  dst : Bool
deriving DecidableEq, Repr

/-- A way of the tag table (R187): its key, and when it was last used. -/
structure TagWay where
  set : Nat
  way : Nat
  key : Dword
  used : Nat
deriving DecidableEq, Repr

/-- The tag table (R187, R213). -/
structure TagTable where
  ls : Nat
  lw : Nat
  lz : Nat
  base : Nat
  ways : List TagWay
  clock : Nat
deriving DecidableEq, Repr

/-- A chain handed to the copy engine by KICK (R249): the operation number its locks carry, the block, the counted word, the
next request's offset, how many requests have been read, the FLOOR it carries, and whether w4 has been told of its end. -/
structure Chain where
  op : Nat
  block : Nat
  warp : Nat
  word : Nat
  at_ : Nat
  count : Nat
  floor : Dword
  told : Bool
deriving DecidableEq, Repr

/-- The fields of a copy request (Table 17.1). -/
structure CopyReq where
  rsvd : Nat
  last : Bool
  esz : Nat
  op : Nat
  arrive : Nat
  src : Dword
  dst : Dword
  len0 : Nat
  len1 : Nat
  ss1 : Dword
  ds1 : Dword
  len2 : Nat
  resume : Nat
deriving DecidableEq, Repr

/-- The copy engine: queued chains, the first of which runs; `read` when its request has been read and waits for lock entries;
`running` when it has started; `req` the running request as read at its start, and again after a restore (R291); the global lines that it has
stamped, with their stamps (R294); the page it waits for, with its stage; and whether another core's write has reached its locked range
(R186). -/
structure CopyEng where
  queue : List Chain
  read : Bool
  running : Bool
  req : Option CopyReq
  lines : List (Nat × Dword)
  waiting : Option (Bool × Nat)
  hit : Bool
  due : Nat
deriving DecidableEq, Repr

/-- What a matrix queue entry does. -/
inductive MatKind where
  | mma (sparse : Bool)
  | zero (mask : BitVec 16)
  | store
deriving DecidableEq, Repr

/-- An operation of the matrix engine (R325, R331, R358, R362): its block as read at issue, its arrival word, and its
progress in K steps or rows, with the greatest stamp of its stores and the global lines that it has stamped (R294). -/
structure MatOp where
  op : Nat
  block : Nat
  warp : Nat
  word : Nat
  kind : MatKind
  slot : Nat
  params : List Byte
  arrive : Option Nat
  floor : Dword
  started : Bool
  steps : Nat
  stamp : Dword
  lines : List (Nat × Dword)
  group : Bool
  waiting : Option (Bool × Nat)
  hit : Bool
  due : Nat
deriving DecidableEq, Repr

/-- A step of the Waffle (R370); `kept` when it was queued behind a pending abort (R385). -/
structure RuleStep where
  op : Nat
  block : Nat
  warp : Nat
  word : Nat
  g : Word
  started : Bool
  kept : Bool
deriving DecidableEq, Repr

/-- The rule context of a core (R374): the bound descriptor with its block, the table, the queue, the half-step, the pending
abort, and what the running step keeps. -/
structure Waffle where
  bound : Option (Nat × Nat)
  table : Tab (BitVec 4)
  queue : List RuleStep
  half : Bool
  aborting : Bool
  hit : Bool
  due : Nat
deriving DecidableEq, Repr

/-- A core. `badTiles` are the tiles that hold an uncorrectable error, and `stuckTiles` those in which a write fails SECDED (R360, R362).
`arrived` holds, for each scratchpad byte that an engine's arrival-word update wrote last, the greatest stamp of the
global stores of the operations that updated the word so far, and whether one of the updates was final (R183, Table 9.6). -/
structure Core where
  scratch : Memory
  tiles : Tab Word
  badTiles : List Nat
  stuckTiles : List Nat
  l1 : List L1Line
  tlb : List TlbEntry
  locks : List Lock
  tags : TagTable
  copy : CopyEng
  mat : List MatOp
  waffle : Waffle
  resetAt : Nat
  arrived : Tab (Dword × Bool)
deriving DecidableEq, Repr

/-! ### Slices and history (spec/09) -/

/-- A memory-side slice (R162): its logical tick and the last stamp it assigned. -/
structure Slice where
  tick : BitVec 48
  last : Dword
deriving DecidableEq, Repr

/-- A history entry (Table 9.7), the superseding version's stamp beside it (R172), its number in the pool, and whether it is
freed and kept only for an as-of walk in flight (R200). -/
structure HistEntry where
  num : Nat
  data : List Byte
  stamp : Dword
  line : Nat
  link : Option Nat
  part : Nat
  colour : BitVec 8
  later : Dword
  spilled : Bool
  poisoned : Bool
  freed : Bool
deriving DecidableEq, Repr

/-- The history metadata of a line (R168). -/
structure LineMeta where
  stamp : Dword
  link : Option Nat
  cut : Bool
deriving DecidableEq, Repr

/-! ### Partitions and the front end (spec/13, spec/15) -/

/-- A hardware arm (Table 15.1). `busy` are its busy entries, each with the number that the launch which holds it carries (R253), and `past`
those held under the host's earlier descriptors while a software arm is mapped here (R252, R254). -/
structure Arm where
  tag : Word
  armed : Bool
  prio : Nat
  launch : Dword
  ring : Dword
  count : Nat
  size : Nat
  fill : Nat
  busy : List (Nat × Nat)
  past : List (Nat × Nat)
  soft : Option Nat
  since : Nat
deriving DecidableEq, Repr

/-- A software arm (R254): its tag and its descriptor's address, the hardware arm that it is mapped to, and while unmapped its fill
index and busy entries. -/
structure SoftArm where
  tag : Word
  addr : Nat
  mapped : Option Nat
  pending : Bool
  fill : Nat
  busy : List (Nat × Nat)
deriving DecidableEq, Repr

/-- A partition: its entry (Table 13.1), the state of a reset, the VF it runs and the configuration of each VF, its history
pool, its arms, and its error counters. -/
structure Partition where
  entry : Word
  fenced : Bool
  resetting : Bool
  resetDue : Nat
  vf : BitVec 8
  cfgs : List VfCfg
  poolSize : Nat
  spillSize : Nat
  pool : List HistEntry
  poolNext : Nat
  horizon : Dword
  hold : Dword
  holdRead : Dword
  stallSince : Option Nat
  arms : Tab Arm
  soft : List SoftArm
  quantum : Nat
  softNext : Nat
  quantumDue : Nat
  corrected : Tab Word
  uncorrected : Word
  tardy : Word
  tardyRun : Nat
  nextVf : Option VfCfg
deriving DecidableEq, Repr

/-- A message of SEND on its way, or one refused with BUSY and to be retried (R253, R303). The shadow copy of a redundant launch
sends nothing: its record waits for the primary's response to the same access (Table 18.4). `late` is its place in the order of arrival once
the front end has put it off. -/
structure SendMsg where
  id : Nat
  launch : Nat
  thread : TKey
  word : Nat
  dst : Option Nat
  cap : Nat
  pkg : Nat
  part : Nat
  tag : Word
  fire : Bool
  rwrite : Bool
  floor : Dword
  shadow : Bool
  access : Nat
  core : Nat
  off : Nat
  len : Nat
  op : Nat
  payload : Option (List Byte)
  status : Option Word
  retry : Nat
  late : Option Nat
  due : Nat
deriving DecidableEq, Repr

/-- A message from outside refused with BUSY, whose endpoint will retry, or put off at the front end (R253). -/
structure Retry where
  id : Nat
  part : Nat
  msg : Msg
  interval : Nat
  late : Option Nat
  due : Nat
deriving DecidableEq, Repr

/-- Where a checkpoint stream stands: its descriptor to be read; a chunk to be taken up; a chunk whose CKPT bits are cleared, to be read; a
query sent; the chunk itself to be sent; the chunk sent. -/
inductive CkStage where
  | begin | next | reading | asked | sending | sent
deriving DecidableEq, Repr

/-- A checkpoint stream (R242, R243): `desc` is its descriptor's address and `core` the one that began it; with the chunk it is at and its
data, and its status once it has ended. -/
structure Ckpt where
  id : Nat
  launch : Nat
  xlat : Xlat
  thread : TKey
  core : Nat
  word : Nat
  dst : Option Nat
  desc : Nat
  base : Nat
  len : Nat
  ckid : Dword
  endpoint : Dword
  floor : Dword
  shadow : Bool
  access : Nat
  chunk : Nat
  stage : CkStage
  data : List Byte
  status : Option Word
  due : Nat
deriving DecidableEq, Repr

/-- A frame being migrated (R241) and the steps done; `waits` are the page requests that firmware's queue holds for it when its leaves are
rewritten (R231). -/
structure Migration where
  part : Nat
  old : Nat
  new : Nat
  stage : Nat
  waits : List (QKey × PageReq)
deriving DecidableEq, Repr

/-- What the device sends to the outside: events, responses, acknowledgements and messages. -/
inductive Out where
  | refused (part : Nat) (rcd : Dword) (reason : Nat)
  | msgReply (part : Nat) (tag : Word) (status : Word)
  | busy (part : Nat) (tag : Word)
  | faultEvent (part : Nat) (cause : Cause) (tpc : Dword) (workid : Dword)
  | debugEvent (part : Nat) (workid : Dword) (count : Nat) (tpc ptr : Dword)
  | holdBroken (part : Nat)
  | eraEvent (part : Nat) (era : BitVec 16)
  | pageNotify (q : QKey)
  | invalAck (part : Nat)
  | errorReply (part : Nat)
  | retry (part : Nat)
  | notReady
  | ack (part : Nat)
  | sent (pkg part : Nat) (tag : Word) (fire rwrite : Bool) (floor : Dword) (data : List Byte)
  | ckQuery (endpoint ckid : Dword) (off : Nat) (hash : List Byte)
  | ckChunk (endpoint ckid : Dword) (off : Nat) (data : List Byte)
  | atomicReply (part : Nat) (old : Dword)
  | attest (report signature : List Byte)
deriving DecidableEq, Repr

/-- The boot stage (R244). -/
inductive BootStage where
  | bringUp | starting | ready
deriving DecidableEq, Repr

/-- One turn of the agenda: an event of the device; what comes from outside without a row of the table; the next word of a port;
or the earliest of everything, which is also what an empty agenda means (log 1). -/
inductive Turn where
  | event (i : Instr)
  | outside (o : Outside)
  | port (k : Nat)
  | any
deriving DecidableEq, Repr

/-- A core's contents in the save area, with the launches whose contexts they belong to (R317). -/
structure CoreImage where
  core : Nat
  launches : List Nat
  data : Core
deriving DecidableEq, Repr

/-- What a SYS word writes that takes effect later: a control register (R323), a partition's hold stamp, and what HOLD reads (R324). -/
inductive CtlTo where
  | reg (r : CWReg)
  | hold
  | holdRead
deriving DecidableEq, Repr

/-- Such a write on its way: the launch it is made for, the cycle in which it takes effect, and the value. -/
structure CtlWrite where
  launch : Nat
  due : Nat
  what : CtlTo
  value : List Word
deriving DecidableEq, Repr

/-- A record of a redundant pair (R319 to R321): a thread's value of its k-th global access, kept for the shadow. -/
structure RedVal where
  thread : TKey
  access : Nat
  value : List Word
  stamp : Dword
deriving DecidableEq, Repr

/-- A window closed by one copy and awaiting the other (R321): the thread and its block, the signature, the number of records, the
close point's word, the block barrier whose arrival closed it, the number of the next request at the close, and whether a full
buffer forced it. -/
structure RedWindow where
  thread : TKey
  block : Nat
  sig : Dword
  records : Nat
  tpc : Dword
  shadow : Bool
  barrier : Option Nat
  order : Nat
  forced : Bool
deriving DecidableEq, Repr

/-- A fault that a thread of a redundant launch has taken (R322): the words it had issued, and the cause and word. -/
structure RedFault where
  thread : TKey
  issued : Nat
  cause : Cause
  tpc : Dword
deriving DecidableEq, Repr

/-! ### The state -/

/-- The state of the device. -/
structure State where
  -- the model's own fields (logs 1, 7)
  agenda : List Turn
  cycle : Nat
  fresh : Nat
  uid : Nat
  cur : Option Cur
  out : List Out
  -- platform (spec/13)
  supply : Bool
  boot : BootStage
  failCode : Word
  imageOk : Bool
  digest : List Byte
  version : Dword
  powerCap : Bool
  pausedDies : List Nat
  deadLinks : List (Nat × Nat)
  -- the host's error counters: by slice, by stack, by link, and by the core that lost packets came from (Table 13.2)
  sliceCorrected : Tab Word
  stackCorrected : Tab Word
  linkFec : Tab Word
  linkRetrains : Tab Word
  linkLost : Tab Word
  -- the bytes mapped of each die's CXL device (R239)
  cxl : List Nat
  -- time and stamps (spec/09)
  refTick : BitVec 48
  tickDue : Nat
  hold : Dword
  holdIgnored : Bool
  settled : Dword
  settleDue : Nat
  era : BitVec 16
  slices : Tab Slice
  -- the L2's lines, by slice and bank, the latest first (R159, R160)
  l2 : Tab (List Nat)
  -- memory
  mem : Memory
  poison : List Nat
  lineMeta : Tab LineMeta
  migrations : List Migration
  completions : List Completion
  reqs : List Req
  walks : List Walk
  invals : List Inval
  queues : List (QKey × PageQueue)
  clusterTlb : Tab (List TlbEntry)
  -- cores and units
  cores : Tab Core
  bundles : Tab Bundle
  portFree : Tab Nat
  longs : List LongOp
  shfls : List ShflRead
  warps : Tab Warp
  blocks : Tab Block
  groups : Tab Group
  launches : Tab Launch
  -- partitions and messages
  parts : Tab Partition
  sends : List SendMsg
  retries : List Retry
  ckpts : List Ckpt
  -- control writes on their way (R323, R324)
  ctls : List CtlWrite
  -- what saved contexts have left on their cores (R317)
  images : List CoreImage
  -- redundant execution
  redVals : List RedVal
  redWindows : List RedWindow
  redFaults : List RedFault
  -- gang schedule (spec/15)
  switchAt : Option Nat
deriving DecidableEq, Repr

/-- The faults of the model: what stops the machine as a whole. -/
inductive Fault where
  /-- The supply is removed (R246): the module keeps no state and does nothing until power returns. Raised by `step`; safe,
  for the hardware does nothing either. -/
  | noSupply
deriving DecidableEq, Repr

/-- The refusals of the model. -/
inductive Refusal where
  /-- The instruction has no meaning in the model; raised by an arm of `exec` alone. Safe: a run stops where hardware goes
  on. -/
  | notModelled (mnemonic : String)
deriving DecidableEq, Repr

/-! ### Time -/

/-- Core cycles in a stamp tick: 60, and fewer once the power cap has stepped the core clock down (R245), how many left open. -/
def State.tickCycles (s : State) : Nat :=
  if s.powerCap then Config.cappedClock % (Config.cyclesPerTick - 1) + 1 else Config.cyclesPerTick

/-- Core cycles in a microsecond. -/
def State.micro (s : State) : Nat := Config.ticksPerMicro * s.tickCycles

/-! ### Contexts off their cores -/

/-- Whether a launch's context is off a core: saved, and not yet back on the core's cluster. -/
def Launch.offAt (l : Launch) (core : Nat) : Bool := l.saved && !l.back.contains (core / Config.coresPerCluster)

/-- Whether a launch's context has been saved to be restored, and is off a core. -/
def Launch.awayAt (l : Launch) (core : Nat) : Bool := l.offAt core && l.status != .ended

/-! ### Reset -/

/-- The trap registers before a first trap (R82). -/
def TrapRegs.zero : TrapRegs :=
  { cause := .none, info := 0, tpc := 0, addr := 0, skid := 0, synd := 0, unit := 0, stamp := 0 }

/-- The tag table after a core reset (R213). -/
def TagTable.reset : TagTable := { ls := 10, lw := 2, lz := 6, base := 0, ways := [], clock := 0 }

/-- The copy engine with nothing queued. -/
def CopyEng.reset : CopyEng :=
  { queue := [], read := false, running := false, req := none, lines := [], waiting := none, hit := false, due := 0 }

/-- The rule context with no binding and a table of zeros (R374). -/
def Waffle.reset : Waffle :=
  { bound := none, table := [], queue := [], half := false, aborting := false, hit := false, due := 0 }

/-- A core after its reset. -/
def Core.reset : Core :=
  { scratch := [], tiles := [], badTiles := [], stuckTiles := [], l1 := [], tlb := [], locks := [], tags := TagTable.reset, copy := CopyEng.reset, mat := [],
    waffle := Waffle.reset, resetAt := 0, arrived := [] }

/-- A slice at firmware start (R162). -/
def Slice.reset : Slice := { tick := 1, last := 0 }

/-- A page queue's registers (Table 12.3). -/
def PageQueue.reset : PageQueue :=
  { base := 0, cfg := 8, reqHead := 0, reqTail := 0, rspHead := 0, rspTail := 0, nextId := 0, reqs := [], errors := 0 }

/-- A partition whose entry is zero (Table 13.1), with the default quantum of 250 µs (R254). -/
def Partition.reset : Partition :=
  { entry := 0, fenced := false, resetting := false, resetDue := 0, vf := 0, cfgs := [], poolSize := 0, spillSize := 0,
    pool := [], poolNext := 0, horizon := 0, hold := 0, holdRead := 0, stallSince := none, arms := [], soft := [],
    quantum := 250, softNext := 0, quantumDue := 375000, corrected := [], uncorrected := 0, tardy := 0, tardyRun := 0,
    nextVf := none }

/-- The device with its supply just connected: in bring-up, nothing resident, nothing in memory (logs 1 to 5). -/
def State.reset : State :=
  { agenda := [], cycle := 0, fresh := 0, uid := 0, cur := none, out := [],
    supply := true, boot := .bringUp, failCode := 0, imageOk := true, digest := [], version := 0, powerCap := false,
    pausedDies := [], deadLinks := [], sliceCorrected := [], stackCorrected := [], linkFec := [], linkRetrains := [],
    linkLost := [], cxl := [],
    refTick := 1, tickDue := Config.cyclesPerTick, hold := 0, holdIgnored := false, settled := 0, settleDue := Config.settleCycles, era := 0,
    slices := [], l2 := [], mem := [], poison := [], lineMeta := [], migrations := [], completions := [], reqs := [], walks := [],
    invals := [], queues := [], clusterTlb := [], cores := [], bundles := [], portFree := [], longs := [], shfls := [], warps := [],
    blocks := [], groups := [], launches := [], parts := [], sends := [], retries := [], ckpts := [], ctls := [], images := [], redVals := [],
    redWindows := [], redFaults := [], switchAt := none }

end Sys2Proof.Machine
end

