-- ==== Sys2Proof/Machine/Ops.lean ====
section
/-! DEFINITION. The named operations: tables, memory bytes, the units of the device, register storage in time, traps and
halts, and the end of a pass. -/

namespace Sys2Proof.Machine

/-! ### Tables -/

/-- The entry of a key. -/
def Tab.find (l : Tab α) (k : Nat) : Option α :=
  match l with
  | [] => none
  | (j, x) :: rest => if j = k then some x else if k < j then none else Tab.find rest k

/-- A table with an entry put in, its keys still rising. -/
def Tab.put (l : Tab α) (k : Nat) (v : α) : Tab α :=
  match l with
  | [] => [(k, v)]
  | (j, x) :: rest => if j = k then (k, v) :: rest else if k < j then (k, v) :: (j, x) :: rest else (j, x) :: Tab.put rest k v

/-- A table without a key. -/
def Tab.drop (l : Tab α) (k : Nat) : Tab α := l.filter (fun e => e.1 != k)

/-- A table with the entry of a key changed, if it has one. -/
def Tab.upd (l : Tab α) (k : Nat) (f : α → α) : Tab α := l.map (fun e => if e.1 = k then (e.1, f e.2) else e)

/-- Insertion by a key into a list sorted by it, after the entries with an equal key. -/
def insertBy (key : α → Nat) (x : α) : List α → List α
  | [] => [x]
  | y :: rest => if key x < key y then x :: y :: rest else y :: insertBy key x rest

/-- A list sorted by a key, entries of equal keys keeping their order. -/
def sortBy (key : α → Nat) (l : List α) : List α := l.foldl (fun acc x => insertBy key x acc) []

/-! ### Bytes -/

/-- A byte of memory; an unlisted byte reads 0 (log 2). -/
def Memory.byte (m : Memory) (a : Nat) : Byte :=
  match m with
  | [] => 0
  | c :: rest => if c.1 = a then c.2 else if a < c.1 then 0 else Memory.byte rest a

/-- A memory with one byte written, in canonical form. -/
def Memory.put (m : Memory) (a : Nat) (b : Byte) : Memory :=
  match m with
  | [] => if b = 0 then [] else [(a, b)]
  | c :: rest =>
    if c.1 = a then (if b = 0 then rest else (a, b) :: rest)
    else if a < c.1 then (if b = 0 then c :: rest else (a, b) :: c :: rest)
    else c :: Memory.put rest a b

/-- `n` bytes from an address, lowest first. -/
def Memory.bytes (m : Memory) (a : Nat) : Nat → List Byte
  | 0 => []
  | n + 1 => m.byte a :: Memory.bytes m (a + 1) n

/-- A memory with bytes written from an address. -/
def Memory.puts (m : Memory) (a : Nat) : List Byte → Memory
  | [] => m
  | b :: rest => Memory.puts (m.put a b) (a + 1) rest

/-- The number little-endian bytes stand for (R7). -/
def leNat : List Byte → Nat
  | [] => 0
  | b :: rest => b.toNat + 256 * leNat rest

/-- The `n` little-endian bytes of a number (R7). -/
def leBytes (x : Nat) : Nat → List Byte
  | 0 => []
  | n + 1 => BitVec.ofNat 8 x :: leBytes (x / 256) n

/-- A number from `n` bytes of memory. -/
def Memory.nat (m : Memory) (a n : Nat) : Nat := leNat (m.bytes a n)

/-- A list of words from little-endian bytes: four bytes to a word. -/
def wordsOf (l : List Byte) : List Word :=
  match l with
  | a :: b :: c :: d :: rest => BitVec.ofNat 32 (leNat [a, b, c, d]) :: wordsOf rest
  | [] => []
  | short => [BitVec.ofNat 32 (leNat short)]

/-- The two words of a 64-bit value, the low one first (R7). -/
def Dword.words (x : Dword) : List Word := [x.lo, x.hi]

/-- The 64-bit value of up to two words, the low one first. -/
def dwordOf (l : List Word) : Dword := Dword.ofPair (l.headD 0) (l.tail.headD 0)

/-- The number a list of words stands for, the low word first. -/
def wordsNat : List Word → Nat
  | [] => 0
  | w :: rest => w.toNat + 4294967296 * wordsNat rest

/-- The greater of two unsigned values. -/
def umax (a b : BitVec n) : BitVec n := if a.toNat < b.toNat then b else a

/-! ### Units -/

/-- The number of a port: its lane's number and its kind. -/
def portKey (core lane : Nat) (p : Port) : Nat :=
  (core * Config.lanes + lane) * 3 + (match p with | .arith => 0 | .mem => 1 | .ctl => 2)

/-- The lane number (`core × 32 + lane`) of a port. -/
def portLane (k : Nat) : Nat := k / 3

/-- The core of a port. -/
def portCore (k : Nat) : Nat := k / 3 / Config.lanes

/-- A core, in its reset state when nothing has touched it. -/
def State.core (s : State) (c : Nat) : Core := (Tab.find s.cores c).getD Core.reset

/-- The state with a core changed. -/
def State.modCore (s : State) (c : Nat) (f : Core → Core) : State := { s with cores := Tab.put s.cores c (f (s.core c)) }

/-- The state with a warp changed. -/
def State.modWarp (s : State) (w : Nat) (f : Warp → Warp) : State := { s with warps := Tab.upd s.warps w f }

/-- The state with a block changed. -/
def State.modBlock (s : State) (b : Nat) (f : Block → Block) : State := { s with blocks := Tab.upd s.blocks b f }

/-- The state with a group changed. -/
def State.modGroup (s : State) (g : Nat) (f : Group → Group) : State := { s with groups := Tab.upd s.groups g f }

/-- The state with a launch changed. -/
def State.modLaunch (s : State) (l : Nat) (f : Launch → Launch) : State := { s with launches := Tab.upd s.launches l f }

/-- The state with a bundle changed. -/
def State.modBundle (s : State) (p : Nat) (f : Bundle → Bundle) : State := { s with bundles := Tab.upd s.bundles p f }

/-- A partition, in its reset state when nothing has touched it. -/
def State.part (s : State) (p : Nat) : Partition := (Tab.find s.parts p).getD Partition.reset

/-- The state with a partition changed. -/
def State.modPart (s : State) (p : Nat) (f : Partition → Partition) : State :=
  { s with parts := Tab.put s.parts p (f (s.part p)) }

/-- A slice. -/
def State.slice (s : State) (n : Nat) : Slice := (Tab.find s.slices n).getD Slice.reset

/-- A page queue. -/
def State.queue (s : State) (q : QKey) : PageQueue := ((s.queues.find? (fun e => e.1 == q)).map (·.2)).getD PageQueue.reset

/-- The state with a page queue changed. -/
def State.modQueue (s : State) (q : QKey) (f : PageQueue → PageQueue) : State :=
  if s.queues.any (fun e => e.1 == q) then
    { s with queues := s.queues.map (fun e => if e.1 == q then (e.1, f e.2) else e) }
  else { s with queues := s.queues ++ [(q, f PageQueue.reset)] }

/-- A thread. -/
def State.thread (s : State) (t : TKey) : Option Thread := (Tab.find s.warps t.warp).bind (fun w => w.threads[t.slot]?)

/-- A warp's threads with one changed. -/
def Warp.modThread (w : Warp) (slot : Nat) (f : Thread → Thread) : Warp := { w with threads := w.threads.modify slot f }

/-- The state with a thread changed. -/
def State.modThread (s : State) (t : TKey) (f : Thread → Thread) : State :=
  s.modWarp t.warp (fun w => w.modThread t.slot f)

/-- The launch of a warp. -/
def State.launchOf (s : State) (w : Nat) : Option Launch := (Tab.find s.warps w).bind (fun x => Tab.find s.launches x.launch)

/-- The block of a warp. -/
def State.blockOf (s : State) (w : Nat) : Option Block := (Tab.find s.warps w).bind (fun x => Tab.find s.blocks x.block)

/-- A fresh number for a unit, and the state that has given it. -/
def State.newId (s : State) : Nat × State := (s.uid, { s with uid := s.uid + 1 })

/-- A free bit, and the state that has taken it (log 7). -/
def State.freeBit (s : State) : Bool × State := (Config.freeBit s.fresh, { s with fresh := s.fresh + 1 })

/-- A message or event to the outside. -/
def State.emit (s : State) (o : Out) : State := { s with out := s.out ++ [o] }

/-- A management message served once firmware is ready; before that it draws NOT_READY (R244). -/
def State.whenReady (s : State) (f : State → State) : State := if s.boot = .ready then f s else s.emit .notReady

/-- Every thread key of a warp. -/
def Warp.keys (w : Warp) (n : Nat) : List TKey := (List.range w.threads.length).map (fun i => ⟨n, i⟩)

/-- Every thread key of a block. -/
def State.blockKeys (s : State) (b : Nat) : List TKey :=
  ((Tab.find s.blocks b).map Block.warps).getD [] |>.flatMap (fun w => ((Tab.find s.warps w).map (fun x => x.keys w)).getD [])

/-! ### Work identifiers (R23, R25) -/

/-- EXTENTi of a launch record. -/
def Record.extent (r : Record) (i : Nat) : Nat := r.extents.getD i 1

/-- The width of field `i` of LEVELS (Table 2.2). -/
def levelWidth (levels : Dword) (i : Nat) : Nat := (levels.extractLsb' (6 * i) 6).toNat

/-- WORKID of a thread: its block's identifier above its warp number and slot (R23). -/
def workId (levels : Dword) (blockId warp slot : Nat) : Dword :=
  BitVec.ofNat 64 (slot + warp * 2 ^ levelWidth levels 0 + blockId * 2 ^ (levelWidth levels 0 + levelWidth levels 1))

/-- WORKID of a thread in the state. -/
def State.workIdOf (s : State) (t : TKey) : Dword :=
  match Tab.find s.warps t.warp, s.blockOf t.warp, s.launchOf t.warp with
  | some w, some b, some l => workId l.rcd.levels b.id w.num t.slot
  | _, _, _ => 0

/-! ### Register storage in time (R36, R39, R45, R51, R54) -/

/-- The stored word of a location: v0 to v63 at 0 to 63, k0 to k3 at 64 to 67. -/
def Thread.raw (t : Thread) (loc : Nat) : Word :=
  if loc < 64 then t.v.toList.getD loc 0 else t.k.toList.getD (loc - 64) 0

/-- Whether a location is void (R44). -/
def Thread.isVoid (t : Thread) (loc : Nat) : Bool := if loc < 64 then t.vvoid.getLsbD loc else t.kvoid.getLsbD (loc - 64)

/-- Bit `i` of a mask set or cleared. -/
def setBit (m : BitVec n) (i : Nat) (b : Bool) : BitVec n :=
  if b then m ||| BitVec.ofNat n (1 <<< i) else m &&& ~~~ BitVec.ofNat n (1 <<< i)

/-- A location made void or not. -/
def Thread.setVoid (t : Thread) (loc : Nat) (b : Bool) : Thread :=
  if loc < 64 then { t with vvoid := setBit t.vvoid loc b } else { t with kvoid := setBit t.kvoid (loc - 64) b }

/-- A location written at once, and revived (R45). -/
def Thread.store (t : Thread) (loc : Nat) (x : Word) : Thread :=
  (if loc < 64 then { t with v := t.v.setIfInBounds loc x } else { t with k := t.k.setIfInBounds (loc - 64) x }).setVoid loc false

/-- The thread once every write that lands by cycle `c` has landed, in the order of landing and then of issue (R55). A write in flight
to a k slot that a voiding point meets lands all the same and revives the slot: R37 and R45 say nothing of it (DESIGN CHOICE, log 16). -/
def Thread.land (c : Nat) (t : Thread) : Thread :=
  (sortBy Pend.land (t.pend.filter (fun p => p.land ≤ c))).foldl (fun t p => t.store p.loc p.val)
    { t with pend := t.pend.filter (fun p => c < p.land) }

/-- The thread once every fixed-latency write in flight has landed (R56). -/
def Thread.settle (t : Thread) : Thread :=
  { (sortBy Pend.land t.pend).foldl (fun t p => t.store p.loc p.val) { t with pend := [] } with
    lat := t.lat.map (fun l => { l with land := 0 }) }

/-- A location about to be written revived, with 0 under it when it was void (R45). -/
def Thread.revive (t : Thread) (loc : Nat) : Thread := if t.isVoid loc then t.store loc 0 else t

/-- A fixed-latency write issued: the location is revived, and the value lands at `land`. -/
def Thread.write (t : Thread) (loc : Nat) (x : Word) (land : Nat) : Thread :=
  let t := t.revive loc
  { t with pend := t.pend ++ [{ loc := loc, val := x, land := land }] }

/-- The words of a value written to consecutive locations. -/
def Thread.writes (t : Thread) (loc : Nat) (land : Nat) : List Word → Thread
  | [] => t
  | x :: rest => Thread.writes (t.write loc x land) (loc + 1) land rest

/-- A latch shift (R34): l0 takes the value, readable from `land`. -/
def Thread.shift (t : Thread) (x : Dword) (land : Nat) : Thread := { t with lat := ({ val := x, land := land } :: t.lat).take 3 }

/-- Whether a fixed or asynchronous result for a location is not yet readable at cycle `c` (R54, R55). -/
def Thread.early (t : Thread) (loc c : Nat) : Bool :=
  t.pend.any (fun p => p.loc == loc && c < p.land) || t.async.any (fun a => a.loc == loc)

/-- The k slots of a thread void (R37). -/
def Thread.voidK (t : Thread) : Thread := { t with kvoid := 0xF }

/-- A scalar register as a bundle reads it at cycle `c`: the last write it can see (R20, R43). -/
def Warp.sget (w : Warp) (n bundle c : Nat) : Word :=
  match (w.spend.filter (fun p => p.reg == n && (if p.bundle == bundle then p.own ≤ c else p.other ≤ c))).getLast? with
  | some p => p.val
  | none => w.s.toList.getD n 0

/-- Whether a scalar register has a write of this bundle that is not yet readable (R43). -/
def Warp.searly (w : Warp) (n bundle c : Nat) : Bool :=
  w.spend.any (fun p => p.reg == n && p.bundle == bundle && c < p.own) || w.sasync.any (fun a => a.reg == n && a.bundle == bundle)

/-- A scalar write issued at a slot. -/
def Warp.sput (w : Warp) (n : Nat) (x : Word) (bundle slot lat : Nat) : Warp :=
  { w with spend := w.spend ++ [{ reg := n, val := x, bundle := bundle, own := slot + lat, other := slot + 4 }] }

/-- The predicate bits of a warp as a bundle reads them at cycle `c` (R20, R133). -/
def Warp.pget (w : Warp) (n bundle c : Nat) : Word :=
  w.ppend.foldl (fun m p =>
    if p.pred == n && (if p.bundle == bundle then p.own ≤ c else p.other ≤ c) then (m &&& ~~~ p.mask) ||| (p.bits &&& p.mask)
    else m) (w.preds.toList.getD n 0)

/-- Whether a predicate bit has a write of this bundle that is not yet readable (R133). -/
def Warp.pearly (w : Warp) (n slot bundle c : Nat) : Bool :=
  w.ppend.any (fun p => p.pred == n && p.bundle == bundle && p.mask.getLsbD slot && c < p.own)

/-- A predicate write issued at a slot. -/
def Warp.pput (w : Warp) (n : Nat) (mask bits : Word) (bundle slot : Nat) : Warp :=
  { w with ppend := w.ppend ++ [{ pred := n, mask := mask, bits := bits, bundle := bundle, own := slot + 4, other := slot + 4 }] }

/-- A warp whose scalar and predicate writes that everyone can see by cycle `c` have landed; a write lands after every
earlier one. -/
def Warp.land (c : Nat) (w : Warp) : Warp :=
  let sd := w.spend.takeWhile (fun p => p.own ≤ c && p.other ≤ c)
  let pd := w.ppend.takeWhile (fun p => p.own ≤ c && p.other ≤ c)
  let fd := w.fpend.filter (fun p => c < p.other)
  { w with
    floor := (w.fpend.filter (fun p => p.other ≤ c)).foldl (fun f p => umax f p.val) w.floor
    s := sd.foldl (fun v p => v.setIfInBounds p.reg p.val) w.s
    spend := w.spend.drop sd.length
    preds := pd.foldl (fun v p => v.setIfInBounds p.pred ((v.toList.getD p.pred 0 &&& ~~~ p.mask) ||| (p.bits &&& p.mask))) w.preds
    ppend := w.ppend.drop pd.length
    fpend := fd }

/-- A warp with every write in flight landed (R56). -/
def Warp.settle (w : Warp) : Warp :=
  { w with
    floor := w.fpend.foldl (fun f p => umax f p.val) w.floor
    s := w.spend.foldl (fun v p => v.setIfInBounds p.reg p.val) w.s
    spend := []
    preds := w.ppend.foldl (fun v p => v.setIfInBounds p.pred ((v.toList.getD p.pred 0 &&& ~~~ p.mask) ||| (p.bits &&& p.mask))) w.preds
    ppend := []
    fpend := []
    threads := w.threads.map Thread.settle }

/-- FLOOR as a bundle sees it at cycle `c`: the writing bundle's own raises at once, others' after 4 cycles (R20, R210). -/
def Warp.floorFor (w : Warp) (bundle c : Nat) : Dword :=
  (w.fpend.filter (fun p => p.bundle == bundle || p.other ≤ c)).foldl (fun f p => umax f p.val) w.floor

/-- FLOOR with every raise in flight. -/
def Warp.floorAll (w : Warp) : Dword := w.fpend.foldl (fun f p => umax f p.val) w.floor

/-- FLOOR raised at once for every bundle (R163). -/
def Warp.raise (w : Warp) (x : Dword) : Warp := { w with floor := umax w.floor x }

/-! ### Causes (Table 4.21) -/

/-- The code of a cause. -/
def Cause.code : Cause → Nat
  | .none => 0x00
  | .illegalClause => 0x01
  | .illegalGuard => 0x02
  | .reservedOpcode => 0x03
  | .illegalOperand => 0x04
  | .illegalLiteral => 0x05
  | .privileged => 0x06
  | .stallShort => 0x08
  | .voidRead => 0x09
  | .idxRange => 0x0A
  | .regBlock => 0x0B
  | .fpExc => 0x10
  | .addrInvalid => 0x18
  | .misaligned => 0x19
  | .xlatFatal => 0x1A
  | .xlatS2Fatal => 0x1B
  | .permission => 0x1C
  | .rangeLock => 0x1D
  | .histGone => 0x1E
  | .memUe => 0x1F
  | .capFault => 0x20
  | .barrierMisuse => 0x21
  | .assertion => 0x28
  | .userTrap => 0x29
  | .breakpoint => 0x2A
  | .sdcMismatch => 0x30
  | .halted => 0x31

/-- The cause of a decode fault. -/
def Cause.ofDecode : DecCause → Cause
  | .guard => .illegalGuard
  | .reserved => .reservedOpcode
  | .priv => .privileged
  | .literal => .illegalLiteral
  | .operand => .illegalOperand

/-- A fault with a cause and TINFO alone. -/
def TrapInfo.of (c : Cause) (i : Nat) : TrapInfo := { cause := c, info := BitVec.ofNat 32 i, addr := 0, stamp := 0, from_ := none }

/-- A fault with a cause and an address. -/
def TrapInfo.at_ (c : Cause) (a : Dword) : TrapInfo := { cause := c, info := 0, addr := a, stamp := 0, from_ := none }

/-- TINFO of IDX_RANGE (R9): the value clamped to 24 signed bits above a low byte. -/
def idxInfo (x : Int) (low : Nat) : Nat :=
  let c : Int := if x < -8388608 then -8388608 else if 8388607 < x then 8388607 else x
  (c % 16777216).toNat * 256 + low

/-! ### Taking a trap

One operation for every cause: `recordTrap` writes a thread's trap registers and stops it, `raiseHalt` starts the halt of
its block (R309, R310), and `enterHandler` takes the chosen thread to the handler (R311). `endContext` is the other way a
trap ends (R312). -/

/-- The deferred errors of a thread without the one that a fault delivers (R194). -/
def Thread.undefer (t : Thread) (i : TrapInfo) : List Deferred :=
  match i.from_ with
  | none => t.deferred
  | some (tpc, _) => t.deferred.eraseP (fun d => d.cause == i.cause && d.tpc == tpc && d.addr == i.addr && d.stamp == i.stamp)

/-- A thread with its trap registers written, stopped, every fixed-latency write landed (R56). `resume` is where it goes on. A deferred
error that is delivered leaves the thread's list. -/
def Thread.recordTrap (t : Thread) (i : TrapInfo) (tpc : Dword) (skid : Nat) (resume : Pos) : Thread :=
  { t.settle with
    st := .halted
    trap := { cause := i.cause, info := i.info, tpc := (i.from_.map (·.1)).getD tpc, addr := i.addr,
              skid := BitVec.ofNat 32 ((i.from_.map (·.2)).getD skid), synd := 0, unit := 0,
              stamp := i.stamp }
    deferred := t.undefer i
    resume := resume
    pos := resume
    toff := 0
    skid := 0 }

/-- The address of a word of a clause: the header's for place 0 before the clause starts, else the word's (R57). -/
def Pos.addr (p : Pos) : Dword := if p.word = 0 then p.pc else p.pc + BitVec.ofNat 64 (4 * (p.word + 1))

/-- The address of word `i` of the clause at `pc` (R57). -/
def wordAddr (pc : Dword) (i : Nat) : Dword := pc + BitVec.ofNat 64 (4 * (i + 1))

/-- A thread stopped by its block's halt, with TCAUSE = HALTED and TPC naming the next word it would have issued (R310). Flags that
are suppressed at that word stay so (R114). -/
def Thread.halt (t : Thread) : Thread :=
  { t.recordTrap (TrapInfo.of .halted 0) t.pos.addr t.skid t.pos with toff := t.toff }

/-- The lane numbers that hold a thread of a block. -/
def State.blockLanes (s : State) (b : Nat) : List Nat :=
  ((((Tab.find s.blocks b).map Block.warps).getD []).filterMap
    (fun w => (Tab.find s.warps w).map (fun x => x.core * Config.lanes + x.lane))).eraseDups

/-- The state with a context stopped for good (R312): every thread of it at an instruction boundary, every write landed, no
bundle of it active. It is saved, and held until it is discarded. -/
def State.stopContext (s : State) (l : Nat) : State :=
  let mine := fun (t : TKey) => ((Tab.find s.warps t.warp).map (fun w => w.launch == l)).getD false
  { s with
    warps := s.warps.map (fun e => if e.2.launch = l then (e.1, e.2.settle) else e)
    bundles := s.bundles.filter (fun e => !(e.2.threads.any mine))
    launches := Tab.upd s.launches l (fun x => { x with status := .ended, saved := true, back := [], gen := x.gen + 1, stopAt := none }) }

/-- A context ended by a fault (R255, R312): stopped, and a fault event to the partition's host endpoint. -/
def State.endContext (s : State) (l : Nat) (cause : Cause) (tpc workid : Dword) : State :=
  match Tab.find s.launches l with
  | none => s
  | some x => if x.status == .ended then s else (s.stopContext l).emit (.faultEvent x.xlat.part cause tpc workid)

/-- A halt raised by a fault of `t` at a cycle: it takes the place of one that was raised at a later cycle, by a pass that began
before, and has reached no lane (R309). -/
def Block.raised (b : Block) (t : TKey) (now : Nat) : Block :=
  match b.halt with
  | none => { b with halt := some { raised := now, reached := [], thread := t } }
  | some h =>
    if h.reached.isEmpty && decide (now < h.raised) then { b with halt := some { raised := now, reached := [], thread := t } } else b

/-- The first fault of a block raises its halt (R309, R310) with `t` to enter the handler; a fault while a halt stands only
stops its own thread; a fault in handler state, or with no handler, ends the context (R255, R311, R312). `handler` is
whether the thread was in handler state. A redundant launch's fault is noted for the other copy (R322). -/
def State.raiseHalt (s : State) (t : TKey) (handler : Bool) (now : Nat) : State :=
  match Tab.find s.warps t.warp, s.launchOf t.warp with
  | some w, some l =>
    let s : State := match s.thread t with
      | some th =>
        if l.rcd.red then
          { s with redFaults := s.redFaults ++ [{ thread := t, issued := th.issued, cause := th.trap.cause, tpc := th.trap.tpc }] }
        else s
      | none => s
    let trapTo := if l.priv then l.ptvec else l.rcd.trap
    if handler || trapTo = 0 then
      match s.thread t with
      | some th => s.endContext w.launch th.trap.cause th.trap.tpc (s.workIdOf t)
      | none => s
    else
      s.modBlock w.block (fun b => b.raised t now)
  | _, _ => s

/-- Whether a thread would still issue if its block were not halted (R310): it is ready or issuing. -/
def Thread.running (t : Thread) : Bool := t.st == .ready || t.st == .issuing

/-- The halted block's thread enters the handler (R311): latches and k slots saved, the program counter at TRAP, or at PTVEC
in privileged state, and the thread a candidate there. An address that is no multiple of 4 is fetched as it stands (DESIGN CHOICE,
log 13: the spec refuses such an ENTRY alone). -/
def State.enterHandler (s : State) (t : TKey) : State :=
  match s.launchOf t.warp with
  | none => s
  | some l =>
    let pc := if l.priv then l.ptvec else l.rcd.trap
    s.modThread t (fun th =>
      { th with
        save := some { lat := th.lat, k := th.k, kvoid := th.kvoid,
                       resume := if th.trap.cause = Cause.userTrap || th.trap.cause = Cause.breakpoint then th.pos else th.resume,
                       wait := none }
        handler := true
        st := .ready
        pos := ⟨pc, 0⟩
        since := s.cycle
        ready := s.cycle
        slotAt := s.cycle
        candAt := s.cycle })

/-! ### Returning from a trap (R313) -/

/-- A halted thread resumed at its recorded point (Table 18.2): its own barrier wait, or ready there. -/
def Thread.resumeHalted (t : Thread) (now : Nat) : Thread :=
  match t.wait with
  | some (.barrier _ _ _) | some .regacq => { t with st := .waiting, skid := 0 }
  | _ => { t with st := .ready, pos := t.resume, since := now, ready := now, slotAt := now, candAt := now, skid := 0 }

/-- The handler thread returns (R313): latches and k slots from the save state, out of handler state, ready at the resume
point; after FP_EXC the flags of TINFO[4:0] are suppressed once (R114). -/
def Thread.leaveHandler (t : Thread) (now : Nat) : Thread :=
  match t.save with
  | none => { t with handler := false }
  | some a =>
    let t := { t.settle with lat := a.lat, k := a.k, kvoid := a.kvoid, save := none, handler := false, resume := a.resume,
                             toff := if t.trap.cause = Cause.fpExc then t.trap.info.setWidth 5 else 0 }
    t.resumeHalted now

/-! ### Members of barriers, counters -/

/-- Counter `j` of a warp raised by one (R192). -/
def Warp.ctrUp (w : Warp) (j : Nat) : Warp := { w with ctr := w.ctr.setIfInBounds j (w.ctr.toList.getD j 0 + 1) }

/-- Counter `j` of a warp lowered by one at a cycle, which is noted when it stands at zero then. -/
def Warp.ctrDown (w : Warp) (j now : Nat) : Warp :=
  let n := w.ctr.toList.getD j 0 - 1
  { w with ctr := w.ctr.setIfInBounds j n, fell := if n = 0 then w.fell.setIfInBounds j now else w.fell }

/-- A counted word opened: the counter rises by one, to fall when `left` responses have come. -/
def Warp.openWord (w : Warp) (word ctr left : Nat) : Warp :=
  { w.ctrUp ctr with out := w.out ++ [{ word := word, ctr := ctr, left := left, floor := 0 }] }

/-- The destinations of an outstanding word given up by its threads: the results are readable (R53, R193). -/
def Warp.closeAsync (w : Warp) (word : Nat) : Warp :=
  { w with sasync := w.sasync.filter (fun a => a.word != word)
           threads := w.threads.map (fun t => { t with async := t.async.filter (fun a => a.word != word) }) }

/-- One response of an outstanding word at a cycle: with the last one the counter falls, the destinations become readable, and FLOOR
rises by the greatest value carried (R163, R192). -/
def Warp.answer (w : Warp) (word : Nat) (value : Option Dword) (now : Nat) : Warp :=
  match w.out.find? (fun o => o.word == word) with
  | none => w
  | some o =>
    let f := match value with | some v => umax o.floor v | none => o.floor
    if o.left ≤ 1 then
      (({ w with out := w.out.filter (fun x => x.word != word) }.ctrDown o.ctr now).closeAsync word).raise f
    else { w with out := w.out.map (fun x => if x.word = word then { x with left := x.left - 1, floor := f } else x) }

/-- Whether every counter that a WAIT field names is zero (R17). -/
def Warp.waitMet (w : Warp) (wait : BitVec 6) : Bool :=
  (List.range 6).all (fun j => !wait.getLsbD j || w.ctr.toList.getD j 0 == 0)

end Sys2Proof.Machine
end

