-- ==== Sys2Proof/Machine/Operands.lean ====
section
/-! DEFINITION. Passes and operands (spec/02 R19, spec/03): what a pass knows, guards, every operand form read with its checks,
bank durations, the commit of a result in the order of R45, and the end of a pass with its faults (R10, R309). -/

namespace Sys2Proof.Machine

/-! ### The pass -/

/-- The pass being issued: the bundle and launch, the threads in pass order, the cycle of the first slot, the cycles of one
slot, the word's place, and the place of its run's first word. -/
structure Pass where
  port : Nat
  bundle : Nat
  launch : Nat
  rcd : Record
  priv : Bool
  part : Nat
  keys : List TKey
  start : Nat
  dur : Nat
  pos : Nat
  first : Nat
  pc : Dword
  hdr : Header
  size : Nat
  fresh : Nat
  walked : List Nat
deriving DecidableEq, Repr

/-- One thread of a pass: the thread with its writes landed at its slot, its warp, its place in the pass, the cycle of its slot,
and the cycle of its warp's first slot. -/
structure TCtx where
  key : TKey
  th : Thread
  w : Warp
  j : Nat
  slot : Nat
  wslot : Nat
  p : Pass
deriving DecidableEq, Repr

/-- The pass whose word is being issued. -/
def State.pass (s : State) : Option Pass :=
  match s.cur with
  | none => none
  | some c =>
    match Tab.find s.bundles c.port with
    | none => none
    | some b =>
      match b.threads.head?.bind (fun t => Tab.find s.warps t.warp) with
      | none => none
      | some w =>
        match Tab.find s.launches w.launch with
        | none => none
        | some l =>
          some { port := c.port, bundle := b.id, launch := w.launch, rcd := l.rcd, priv := l.priv, part := l.xlat.part,
                 keys := b.threads, start := c.start, dur := 1, pos := b.pos, first := c.first, pc := b.pc, hdr := b.hdr,
                 size := b.words.length, fresh := s.fresh, walked := b.walked }

/-- The place of a warp's first thread in a pass. -/
def Pass.warpPlace (p : Pass) (w : Nat) : Nat := p.keys.findIdx (fun k => k.warp == w)

/-- The core and lane of a pass. -/
def Pass.core (p : Pass) : Nat := portCore p.port

/-- The lane number of a pass. -/
def Pass.lane (p : Pass) : Nat := portLane p.port

/-- The cycle after a pass's last slot (R19). -/
def Pass.stop (p : Pass) : Nat := p.start + max p.keys.length 4 * p.dur

/-- The address TPC names for the pass's word: its run's first literal, or the word (R68, R80). -/
def Pass.tpc (p : Pass) : Dword := wordAddr p.pc p.first

/-- The place after the pass's word (R57). -/
def Pass.after (p : Pass) : Pos :=
  if p.pos + 1 < p.size then ⟨p.pc, p.pos + 1⟩ else ⟨p.pc + BitVec.ofNat 64 (4 * (p.hdr.n + 1)), 0⟩

/-- The threads of a pass as its word finds them. -/
def Pass.ctxs (p : Pass) (s : State) : List TCtx :=
  p.keys.zipIdx.filterMap (fun (k, j) =>
    match Tab.find s.warps k.warp with
    | none => none
    | some w =>
      (w.threads[k.slot]?).map (fun t =>
        { key := k, th := t.land (p.start + j * p.dur), w := w, j := j, slot := p.start + j * p.dur,
          wslot := p.start + p.warpPlace k.warp * p.dur, p := p }))

/-- The `n`-th free bit of a thread's word (log 7). -/
def TCtx.free (c : TCtx) (n : Nat) : Bool := Config.freeBit (c.p.fresh + 16 * c.j + n)

/-! ### Guards (R62, R133) -/

/-- Whether a thread executes under a guard. -/
def TCtx.guard (c : TCtx) (g : Guard) : Except TrapInfo Bool :=
  match g with
  | .always => .ok true
  | .pred n neg =>
    if c.p.rcd.chkSb && c.w.pearly n c.key.slot c.p.bundle c.slot then .error (TrapInfo.of .stallShort (0x380 + n))
    else .ok ((c.w.pget n c.p.bundle c.slot).getLsbD c.key.slot != neg)

/-! ### Operands -/

/-- A source operand: a selector read as `n` words, words that an immediate run supplies, or nothing. -/
inductive Src where
  | sel (x : Sel) (n : Nat)
  | imm (ws : List Word)
  | none
deriving DecidableEq, Repr

/-- Where a selector points once resolved in a thread: storage (v or k), a latch, a scalar register, or zero. -/
inductive Where where
  | file (loc : Nat)
  | latch (n : Nat)
  | scalar (n : Nat)
  | zero
deriving DecidableEq, Repr

/-- A thread's allocation: 64 registers with an extended block, 32 without (R48). -/
def TCtx.alloc (c : TCtx) : Nat := if c.w.ext then 64 else 32

/-- A selector resolved for an operand of `n` words (R41, R48). -/
def TCtx.resolve (c : TCtx) (x : Sel) (n : Nat) : Except TrapInfo Where :=
  match x with
  | .v r => if 32 < r.val + n && !c.w.ext then .error (TrapInfo.of .regBlock r) else .ok (.file r)
  | .k r => .ok (.file (64 + r))
  | .l r => .ok (.latch r)
  | .z => .ok .zero
  | .s r => .ok (.scalar r)
  | .vx =>
    let i := c.th.vix.toInt
    if i < 0 || (c.alloc : Int) ≤ i || i % (n : Int) ≠ 0 then .error (TrapInfo.of .idxRange (idxInfo i c.alloc))
    else .ok (.file i.toNat)

/-- The asynchronous result outstanding for a location whose value is known. -/
def Thread.asyncNew (t : Thread) (loc : Nat) : Option Word := (t.async.find? (fun a => a.loc == loc)).bind AsyncDst.value

/-- One 32-bit half read from storage (R46, R54): void first, then readiness. -/
def TCtx.half (c : TCtx) (fld h loc : Nat) : Except TrapInfo Word :=
  if c.th.isVoid loc then
    (if c.p.rcd.chkVoid then .error (TrapInfo.of .voidRead (fld * 256 + loc)) else .ok 0)
  else if c.th.early loc c.slot then
    if c.p.rcd.chkSb then .error (TrapInfo.of .stallShort (fld * 256 + loc))
    else
      match c.th.asyncNew loc with
      | some x => .ok (if c.free ((fld % 3) * 4 + h) then x else c.th.raw loc)
      | none => .ok (c.th.raw loc)
  else .ok (c.th.raw loc)

/-- Consecutive halves from storage. -/
def TCtx.halves (c : TCtx) (fld h loc : Nat) : Nat → Except TrapInfo (List Word)
  | 0 => .ok []
  | n + 1 =>
    match c.half fld h loc with
    | .error e => .error e
    | .ok x =>
      match c.halves fld (h + 1) (loc + 1) n with
      | .error e => .error e
      | .ok xs => .ok (x :: xs)

/-- A latch read (R35, R51, R54). -/
def TCtx.latch (c : TCtx) (fld n : Nat) : Except TrapInfo Dword :=
  match c.th.lat.drop n with
  | [] => .ok 0
  | l :: rest =>
    if l.land ≤ c.slot then .ok l.val
    else if c.p.rcd.chkSb then .error (TrapInfo.of .stallShort (fld * 256 + 68 + n))
    else .ok ((rest.head?.map Lat.val).getD 0)

/-- The `n`-th free bit of a warp's scalar work (log 7). -/
def TCtx.sfree (c : TCtx) (n : Nat) : Bool := Config.freeBit (c.p.fresh + 512 + 16 * c.p.warpPlace c.key.warp + n)

/-- A scalar register read by a word of the pass (R20, R43). While an SLD of this bundle is due, a free bit chooses between the
old contents and the new. -/
def TCtx.scalar (c : TCtx) (fld n : Nat) : Except TrapInfo Word :=
  if c.p.rcd.chkSb && c.w.searly n c.p.bundle c.wslot then .error (TrapInfo.of .stallShort (fld * 256 + 0xA0 + n))
  else
    match (c.w.sasync.find? (fun a => a.reg == n && a.bundle == c.p.bundle && !a.lost)).bind SAsync.value with
    | some x => .ok (if c.sfree (fld % 3 * 4 + n % 4) then x else c.w.sget n c.p.bundle c.wslot)
    | none => .ok (c.w.sget n c.p.bundle c.wslot)

/-- Consecutive scalar registers. -/
def TCtx.scalars (c : TCtx) (fld n : Nat) : Nat → Except TrapInfo (List Word)
  | 0 => .ok []
  | k + 1 =>
    match c.scalar fld n with
    | .error e => .error e
    | .ok x =>
      match c.scalars fld (n + 1) k with
      | .error e => .error e
      | .ok xs => .ok (x :: xs)

/-- A source operand as words, the low word first (R66). A latch supplies at most 64 bits. -/
def TCtx.read (c : TCtx) (fld : Nat) (x : Src) : Except TrapInfo (List Word) :=
  match x with
  | .none => .ok []
  | .imm ws => .ok ws
  | .sel x n =>
    match c.resolve x n with
    | .error e => .error e
    | .ok .zero => .ok (List.replicate n 0)
    | .ok (.file loc) => c.halves fld 0 loc n
    | .ok (.scalar r) => c.scalars fld r n
    | .ok (.latch l) =>
      match c.latch fld l with
      | .error e => .error e
      | .ok v => .ok ((Dword.words v).take n)

/-! ### Immediates (Table 4.7) -/

/-- The 48-bit payload of a HIGH and an IMM literal. -/
def pay48 (hi lo : BitVec 24) : BitVec 48 := hi ++ lo

/-- B as a 32-bit integer. -/
def bI32 : Opnd → Src
  | .sel x => .sel x 1
  | .imm p | .imm2 _ p => .imm [p.signExtend 32]

/-- B as binary32. -/
def bF32 : Opnd → Src
  | .sel x => .sel x 1
  | .imm p | .imm2 _ p => .imm [p ++ (0 : BitVec 8)]

/-- B as a 64-bit integer. -/
def bI64 : Opnd → Src
  | .sel x => .sel x 2
  | .imm p => .imm (Dword.words (p.signExtend 64))
  | .imm2 h p => .imm (Dword.words ((pay48 h p).signExtend 64))

/-- B as an address offset: 32 bits sign-extended when it is a register (Table 4.7). -/
def bOff : Opnd → Src
  | .sel x => .sel x 1
  | .imm p => .imm (Dword.words (p.signExtend 64))
  | .imm2 h p => .imm (Dword.words ((pay48 h p).signExtend 64))

/-- B as binary64. -/
def bF64 : Opnd → Src
  | .sel x => .sel x 2
  | .imm p => .imm (Dword.words (p ++ (0 : BitVec 40)))
  | .imm2 h p => .imm (Dword.words (pay48 h p ++ (0 : BitVec 16)))

/-- An offset operand's words as a 64-bit offset: one word is sign-extended. -/
def offsetOf (ws : List Word) : Dword :=
  match ws with
  | [x] => x.signExtend 64
  | _ => dwordOf ws

/-! ### Bank duration (R49, R50) -/

/-- The file registers a source reads in a thread. -/
def Src.banks (t : Thread) : Src → List Nat
  | .sel (.v r) n => (List.range n).map (fun i => r.val + i)
  | .sel .vx n => (List.range n).map (fun i => (t.vix.toInt % 64).toNat + i)
  | _ => []

/-- A thread's bank count. -/
def bankCount (regs : List Nat) : Nat :=
  let rs := regs.eraseDups
  (List.range 4).foldl (fun m b => max m (rs.filter (fun r => r % 4 == b)).length) 1

/-- The slot duration of a pass whose word reads some sources. Threads whose guard is false count with the others (DESIGN CHOICE,
log 16: R50 does not say whether such a thread reads its file). -/
def Pass.slotDur (p : Pass) (s : State) (srcs : List Src) : Nat :=
  (p.ctxs s).foldl (fun m c => max m (bankCount (srcs.flatMap (fun x => x.banks c.th)))) 1

/-! ### Commit (R45, R112) -/

/-- The flags of long operations that are due by each thread's slot merged before a word that reads or writes FLAGS runs there (R144,
R342): such a result comes before the word although the pass's step began before it. -/
def State.mergeFlags (s : State) (srcs : List Src) : State :=
  match s.pass with
  | none => s
  | some p0 =>
    let p := { p0 with dur := p0.slotDur s srcs }
    (p.ctxs s).foldl (fun s c =>
      let due := fun (o : LongOp) => o.thread == c.key && decide (o.due ≤ c.slot)
      { s.modThread c.key (fun t => { t with flags := (s.longs.filter due).foldl (fun f o => f ||| o.flags) t.flags }) with
        longs := s.longs.map (fun o => if due o then { o with flags := 0 } else o) }) s

/-- A vector word of the arithmetic port and its like: operands, addend with its TINFO field, destination with its words,
predicate, latency, and whether it shifts the latches. -/
structure VWord where
  h : Hd
  am : Option Arith
  a : Src
  b : Src
  c : Src
  cfld : Nat
  d : Option (Sel × Nat)
  pred : Option (Fin 12)
  lat : Nat
  shifts : Bool
deriving DecidableEq, Repr

/-- How a word leaves one thread of its pass: its guard failed, it faulted, or it completed with a thread and a result. -/
inductive Did where
  | skip (t : Thread)
  | fault (i : TrapInfo)
  | done (t : Thread) (ws : List Word)
deriving DecidableEq, Repr

/-- TOFF of an ARITHMOD literal. -/
def toffOf (m : Option Arith) : BitVec 5 := (m.map Arith.toff).getD 0

/-- The rounding mode, SAT and FTZ of a word in a thread (R105). -/
def TCtx.env (c : TCtx) (m : Option Arith) : FEnv :=
  { rm := (m.bind Arith.rm).getD (RMode.ofBits c.th.rmode), sat := (m.map Arith.sat).getD false,
    ftz := (m.map Arith.ftz).getD false }

/-- The flags whose trap a thread takes among those a word raises (R112, R114, R311). -/
def TCtx.trapping (c : TCtx) (m : Option Arith) (f : FlagSet) : FlagSet :=
  if c.th.handler then 0 else f &&& c.p.rcd.fxe &&& ~~~ (toffOf m ||| c.th.toff)

/-- The locations of a destination of `n` words; z and no destination have none (R48, R66). -/
def TCtx.dest (c : TCtx) (d : Option (Sel × Nat)) : Except TrapInfo (List Nat) :=
  match d with
  | none => .ok []
  | some (x, n) =>
    match c.resolve x n with
    | .error e => .error e
    | .ok (.file loc) => .ok ((List.range n).map (fun i => loc + i))
    | .ok _ => .ok []

/-- The write check of R55: the first location with an earlier write in flight faults under CHK.SB. -/
def TCtx.writeCheck (c : TCtx) (locs : List Nat) : Option TrapInfo :=
  if c.p.rcd.chkSb then
    (locs.find? (fun l => c.th.early l c.slot)).map (fun l => TrapInfo.of .stallShort (0x200 + l))
  else none

/-- The locations a source names, which a K mark voids (R44). -/
def TCtx.markLocs (c : TCtx) (x : Src) : List Nat :=
  match x with
  | .sel x n =>
    match c.resolve x n with
    | .ok (.file loc) => (List.range n).map (fun i => loc + i)
    | _ => []
  | _ => []

/-- The K mark applied (R44). -/
def TCtx.mark (c : TCtx) (h : Hd) (x : Src) (t : Thread) : Thread :=
  if h.k then (c.markLocs x).foldl (fun t l => t.setVoid l true) t else t

/-- One fixed-latency half issued against what is in flight for its location (R55): where an asynchronous result is
outstanding, a free bit chooses which of the two stands. -/
def TCtx.issueHalf (c : TCtx) (land : Nat) (t : Thread) (i loc : Nat) (x : Word) : Thread :=
  if t.async.any (fun a => a.loc == loc && !a.lost) then
    if c.free (12 + i) then
      Thread.write { t with async := t.async.map (fun (a : AsyncDst) => if a.loc = loc then { a with lost := true } else a) } loc x land
    else t.revive loc
  else t.write loc x land

/-- A fixed-latency result issued to its locations. -/
def TCtx.issueTo (c : TCtx) (land : Nat) (t : Thread) (locs : List Nat) (ws : List Word) : Thread :=
  ((locs.zip ws).zipIdx).foldl (fun t e => c.issueHalf land t e.2 e.1.1 e.1.2) t

/-- The effect of a word that computes a result in a thread whose guard holds, in the order of R45, R112 and R125. An armed FP_EXC is
taken before D is checked for REG_BLOCK, IDX_RANGE or STALL_SHORT (DESIGN CHOICE, log 16: the spec gives no order of the two). -/
def TCtx.commit (c : TCtx) (v : VWord) (ws : List Word) (f : FlagSet) (land : Nat) : Did :=
  let m := c.trapping v.am f
  if m ≠ 0 then .fault (TrapInfo.of .fpExc (m.toNat + f.toNat * 256))
  else
    match c.dest v.d with
    | .error e => .fault e
    | .ok locs =>
      match c.writeCheck locs with
      | some e => .fault e
      | none =>
        let t := c.mark v.h v.a { c.th with toff := 0 }
        let t := c.issueTo land t locs ws
        let t := { t with flags := t.flags ||| f }
        .done (if v.shifts then t.shift (dwordOf ws) land else t) ws

/-- A thread whose guard failed: a word that shifts the latches shifts a zero (R34). -/
def TCtx.skipped (c : TCtx) (v : VWord) : Thread :=
  if v.shifts then c.th.shift 0 (c.slot + v.lat) else c.th

/-- The three sources of a word read in the order A, B, addend. -/
def TCtx.operands (c : TCtx) (v : VWord) : Except TrapInfo (List Word × List Word × List Word) :=
  match c.read 0 v.a with
  | .error e => .error e
  | .ok a =>
    match c.read 1 v.b with
    | .error e => .error e
    | .ok b =>
      match c.read v.cfld v.c with
      | .error e => .error e
      | .ok x => .ok (a, b, x)

/-- What a vector word computes in a thread: from its operands, the result's words and the flags raised. -/
abbrev VOp := TCtx → List Word → List Word → List Word → List Word × FlagSet

/-- A vector word in one thread (R47). -/
def TCtx.run (c : TCtx) (v : VWord) (op : VOp) : Did :=
  match c.guard v.h.guard with
  | .error e => .fault e
  | .ok false => .skip (c.skipped v)
  | .ok true =>
    match c.operands v with
    | .error e => .fault e
    | .ok (a, b, x) =>
      let r := op c a b x
      c.commit v r.1 r.2 (c.slot + v.lat)

/-! ### The end of a pass -/

/-- The threads of a pass as their word left them, put back. -/
def State.putDone (s : State) (rs : List (TCtx × Did)) : State :=
  rs.foldl (fun s r =>
    match r.2 with
    | .skip t | .done t _ => s.modThread r.1.key (fun _ => t)
    | .fault _ => s) s

/-- The threads that faulted, in pass order. -/
def faultsOf (rs : List (TCtx × Did)) : List (TKey × TrapInfo) :=
  rs.filterMap (fun r => match r.2 with | .fault i => some (r.1.key, i) | _ => none)

/-- The threads that completed the word, with their results. -/
def doneOf (rs : List (TCtx × Did)) : List (TCtx × List Word) :=
  rs.filterMap (fun r => match r.2 with | .done _ ws => some (r.1, ws) | _ => none)

/-- The cycle from which a bundle of threads leaving together gives each its slot no sooner than R53 allows. -/
def leaveAt (stop : Nat) (ready : List Nat) : Nat := (ready.zipIdx).foldl (fun m e => max m (e.1 - e.2)) stop

/-- The cycle from which threads in pass order may begin a pass, each in a slot of its own no sooner than R52 and R53 allow. -/
def State.nextFor (s : State) (start : Nat) (keys : List TKey) : Nat :=
  leaveAt start (keys.map (fun k => ((s.thread k).map Thread.slotAt).getD 0))

/-- The threads that leave a bundle at one position become candidates together (R18, R53). -/
def State.leaveGroup (s : State) (keys : List TKey) (stop : Nat) : State :=
  let at_ := s.nextFor stop keys
  keys.foldl (fun s k => s.modThread k (fun t =>
    { t with st := if stop ≤ t.pause then .paused else .ready, ready := at_, candAt := at_ - 1, since := stop })) s

/-- The threads of a list grouped by their position, in order of first appearance. -/
def groupsOf (s : State) (keys : List TKey) : List (List TKey) :=
  let pos := fun (k : TKey) => (s.thread k).map Thread.pos
  ((keys.map pos).eraseDups).map (fun q => keys.filter (fun k => pos k == q))

/-- A bundle ended: its threads leave the issuing state and its port is free from the bundle's next cycle (R18). -/
def State.endBundle (s : State) (port : Nat) : State :=
  match Tab.find s.bundles port with
  | none => s
  | some b =>
    let live := b.threads.filter (fun k => ((s.thread k).map (fun t => t.st == .issuing)).getD false)
    let s := { s with bundles := Tab.drop s.bundles port, portFree := Tab.put s.portFree port b.next }
    (groupsOf s live).foldl (fun s g => s.leaveGroup g b.next) s

/-- What a pass does to the times and counts of one of its threads: its next word no sooner than 4 cycles on, plus STEP when
the word was drained (R52, R53); a word issued, which ends the suppression of R114; and a word past a halt that stands (R310). The
word in which a thread faults counts too, under a halt that another bundle has raised (DESIGN CHOICE, log 16: R10 puts such a thread's
TSKID at 0, R310 counts the words issued since the halt). -/
def Thread.passed (t : Thread) (slot step : Nat) (after : Pos) (late : Bool) : Thread :=
  { t with ready := slot + 4 + step, slotAt := slot + 4 + step, toff := if t.st = ThState.issuing then 0 else t.toff,
           issued := t.issued + 1, skid := if late then t.skid + 1 else t.skid,
           pos := if t.st = ThState.issuing then after else t.pos }

/-- Whether a halt of a thread's block was raised at or before a cycle. -/
def State.haltedBy (s : State) (w c : Nat) : Bool :=
  ((s.blockOf w).bind Block.halt).any (fun h => h.raised ≤ c)

/-- A thread stopped before the pass's word by its own fault. `pos` keeps the word after it for TRAP and BKPT, after which the
handler thread goes on there (Table 18.2). -/
def Thread.faultAt (t : Thread) (i : TrapInfo) (p : Pass) : Thread :=
  let u := t.recordTrap i p.tpc t.skid ⟨p.pc, p.first⟩
  if i.cause = Cause.userTrap || i.cause = Cause.breakpoint then { u with pos := p.after } else u

/-- The faults of a pass taken (R10, R309): each faulting thread records its own cause and stops before the word, every other
thread of the pass still issuing stops after it, the first raises the block's halt, and the bundle ends. -/
def State.faultPass (s : State) (p : Pass) (faults : List (TKey × TrapInfo)) : State :=
  let handler := fun (k : TKey) => ((s.thread k).map Thread.handler).getD false
  let s1 := faults.foldl (fun s e => s.modThread e.1 (fun t => t.faultAt e.2 p)) s
  let s2 := p.keys.foldl (fun s k => s.modThread k (fun t => if t.st = ThState.issuing then t.halt else t)) s1
  let s3 := s2.endBundle p.port
  faults.foldl (fun s3 e =>
    s3.raiseHalt e.1 (handler e.1) (p.start + (p.keys.findIdx (· == e.1)) * p.dur)) s3

/-- The STEP that follows the pass's word, when it was drained (R52). -/
def Pass.stepAfter (p : Pass) : Nat := if p.hdr.drain.getLsbD p.pos then p.hdr.step else 0

/-- Where a thread of a pass goes on: at its target when it transfers, else at the next word. -/
def Pass.goesTo (p : Pass) (targets : List (TKey × Dword)) (k : TKey) : Pos :=
  ((targets.find? (fun x => x.1 == k)).map (fun x => (⟨x.2, 0⟩ : Pos))).getD p.after

/-- Every thread's times, counts and position at the end of a pass, and the bundle's next word after the slots and STEP (R19, R52). -/
def State.passOn (s : State) (p : Pass) (targets : List (TKey × Dword)) : State :=
  let s : State := { s with cur := none, fresh := max s.fresh p.fresh + 1024 }
  let s := p.keys.zipIdx.foldl (fun s e => s.modThread e.1 (fun t =>
    t.passed (p.start + e.2 * p.dur) p.stepAfter (p.goesTo targets e.1) (s.haltedBy e.1.warp p.start))) s
  s.modBundle p.port (fun b => { b with pos := p.pos + 1, next := p.stop + p.stepAfter, walked := [], acted := [], acts := 0, failed := [] })

/-- The threads of a bundle that a test keeps; when some have gone, the others' next slots are their places among those kept, no
sooner than R52 allows each. -/
def State.keepIn (s : State) (port : Nat) (keep : TKey → Bool) : State :=
  s.modBundle port (fun b =>
    let ks := b.threads.filter keep
    { b with threads := ks, next := if ks.length = b.threads.length then b.next else s.nextFor b.next ks })

/-- The threads that left the issuing state out of the bundle, and after the last word, or the last thread, the end of the bundle. -/
def State.thinBundle (s : State) (p : Pass) : State :=
  let s := s.keepIn p.port (fun k => ((s.thread k).map (fun t => t.st == .issuing)).getD false)
  if p.size ≤ p.pos + 1 || ((Tab.find s.bundles p.port).map (fun b => b.threads.isEmpty)).getD true then s.endBundle p.port
  else s

/-- The end of a pass: every thread's times and counts, the faults, or the threads that transfer at their targets and those that
left out of the bundle. -/
def State.endPass (s : State) (p : Pass) (targets : List (TKey × Dword)) (faults : List (TKey × TrapInfo)) : State :=
  if faults ≠ [] then (s.passOn p targets).faultPass p faults else (s.passOn p targets).thinBundle p

/-- A pass whose word waits: the port tries the word again in the next cycle, and nothing else happens (R22). -/
def State.holdPass (s : State) (p : Pass) : State :=
  { s with cur := none }.modBundle p.port (fun b => { b with next := max b.next s.cycle + 1 })

/-- The predicate bits that a word's threads write (R20, R133). -/
def State.putPreds (s : State) (p : Pass) (n : Option (Fin 12)) (rs : List (TCtx × List Word)) : State :=
  match n with
  | none => s
  | some n =>
    rs.foldl (fun s r =>
      let bit : Word := BitVec.ofNat 32 (1 <<< r.1.key.slot)
      s.modWarp r.1.key.warp (fun w => w.pput n bit (if r.2.headD 0 = 0 then 0 else bit) p.bundle r.1.slot)) s

/-- A pass in lock step: every thread of the pass left by the word as `run` says, then the end of the pass. -/
def State.lockstep (s : State) (srcs : List Src) (pred : Option (Fin 12)) (run : List TCtx → List (TCtx × Did)) : State :=
  match s.pass with
  | none => s
  | some p0 =>
    let p := { p0 with dur := p0.slotDur s srcs }
    let rs := run (p.ctxs s)
    ((s.putDone rs).putPreds p pred (doneOf rs)).endPass p [] (faultsOf rs)

/-- A pass of a vector word: each thread by itself in its slot. -/
def State.vector (s : State) (v : VWord) (op : VOp) : State :=
  s.lockstep [v.a, v.b, v.c] v.pred (fun cs => cs.map (fun c => (c, c.run v op)))

/-- A pass whose threads act in pass order on what they share: each sees what the threads before it did. -/
def State.serial (s : State) (srcs : List Src) (f : State → TCtx → State × Did) : State :=
  match s.pass with
  | none => s
  | some p0 =>
    let p := { p0 with dur := p0.slotDur s srcs }
    let r := (p.ctxs s).foldl (fun (acc : State × List (TCtx × Did)) c =>
      let q := f acc.1 c
      (q.1, acc.2 ++ [(c, q.2)])) (s, [])
    (r.1.putDone r.2).endPass p [] (faultsOf r.2)

/-! ### Long operations (R113, R143, R144) -/

/-- A thread's part in a long operation: it faults before the operation; it traps on the flags, taking part in the count; or it
waits for the result, with the locations of its destination. -/
inductive LongPart where
  | skip (t : Thread)
  | fault (i : TrapInfo)
  | trap (i : TrapInfo)
  | issue (t : Thread) (dst : List Nat) (ws : List Word) (f : FlagSet)
deriving DecidableEq, Repr

/-- A long operation in one thread: its flags are known at the word (log 8), so a trap is taken there (R113). -/
def TCtx.long (c : TCtx) (v : VWord) (op : VOp) : LongPart :=
  match c.guard v.h.guard with
  | .error e => .fault e
  | .ok false => .skip c.th
  | .ok true =>
    match c.operands v with
    | .error e => .fault e
    | .ok (a, b, x) =>
      let r := op c a b x
      let m := c.trapping v.am r.2
      if m ≠ 0 then .trap (TrapInfo.of .fpExc (m.toNat + r.2.toNat * 256))
      else
        match c.dest v.d with
        | .error e => .fault e
        | .ok locs =>
          match c.writeCheck locs with
          | some e => .fault e
          | none => .issue (c.mark v.h v.a { c.th with toff := 0 }) locs r.1 r.2

/-- A destination that awaits an asynchronous result (R53 to R55). Against a write already in flight a free bit chooses which
stands. -/
def TCtx.awaitHalf (c : TCtx) (word req idx : Nat) (value : Option Word) (t : Thread) (i loc : Nat) : Thread :=
  let clash := t.early loc c.slot
  let late := clash && c.free (12 + i)
  let t := if clash && !late then
      { t with pend := t.pend.filter (fun q => q.loc != loc)
               async := t.async.map (fun (a : AsyncDst) => if a.loc = loc then { a with lost := true } else a) }
    else t
  { t with async := t.async ++ [{ loc := loc, word := word, req := req, idx := idx, value := value, lost := late }] }

/-- A destination given to an asynchronous result: revived (R45), and awaiting it. -/
def TCtx.expectHalf (c : TCtx) (word req idx : Nat) (value : Option Word) (t : Thread) (i loc : Nat) : Thread :=
  c.awaitHalf word req idx value (t.revive loc) i loc

/-- Every location of a destination whose word has parked: it awaits the response, and is revived when the access is sent. -/
def TCtx.await (c : TCtx) (word req : Nat) (t : Thread) (locs : List Nat) : Thread :=
  (locs.zipIdx).foldl (fun t e => c.awaitHalf word req e.2 none t e.2 e.1) t

/-- Every location of an asynchronous destination. -/
def TCtx.expect (c : TCtx) (word req : Nat) (vals : List Word) (t : Thread) (locs : List Nat) : Thread :=
  (locs.zipIdx).foldl (fun t e => c.expectHalf word req e.2 (vals[e.2]?) t e.2 e.1) t

/-- Whether a counter stands at 63 in some warp of a pass, so that a word that counts on it waits (R144, R192). -/
def Pass.full (p : Pass) (s : State) (ctr : Nat) : Bool :=
  p.keys.any (fun k => ((Tab.find s.warps k.warp).map (fun w => (w.ctr.toList.getD ctr 0).toNat == 63)).getD false)

/-- The number of the outstanding word of a warp at the pass being issued: one for each place of the pass. -/
def Pass.wordId (p : Pass) (uid w : Nat) : Nat := uid + p.warpPlace w

/-- A pass of a long operation: each warp with a thread that takes part has w5 raised by one, and each such thread's result is
on its way (R143, R144). -/
def State.long (s : State) (v : VWord) (op : VOp) : State :=
  match s.pass with
  | none => s
  | some p0 =>
    let p := { p0 with dur := p0.slotDur s [v.a, v.b, v.c] }
    if p.full s 5 then s.holdPass p
    else
      let rs := (p.ctxs s).map (fun c => (c, c.long v op))
      let takes := rs.filter (fun r => match r.2 with | .issue _ _ _ _ | .trap _ => true | _ => false)
      let warps := (takes.map (fun r => r.1.key.warp)).eraseDups
      let u := s.uid
      let s := { s with uid := u + 64 }
      let s := warps.foldl (fun s w => s.modWarp w (fun x =>
        x.openWord (p.wordId u w) 5 (takes.filter (fun r => r.1.key.warp == w)).length)) s
      let s := rs.foldl (fun s r =>
        let id := u + 32 + r.1.j
        let word := p.wordId u r.1.key.warp
        let op := fun (dst : Option Nat) (vals : List Word) (f : FlagSet) =>
          ({ id := id, thread := r.1.key, word := word, dst := dst, vals := vals, flags := f,
             due := r.1.slot + v.lat } : LongOp)
        match r.2 with
        | .skip t => s.modThread r.1.key (fun _ => t)
        | .fault _ => s
        | .trap _ => { s with longs := s.longs ++ [op none [] 0] }
        | .issue t dst ws f =>
          { s.modThread r.1.key (fun _ => r.1.expect word id ws t dst) with longs := s.longs ++ [op dst.head? ws f] }) s
      s.endPass p [] (rs.filterMap (fun r =>
        match r.2 with | .fault i | .trap i => some (r.1.key, i) | _ => none))

/-- A decode fault (R80): every thread of the bundle faults at the word. -/
def State.decodeFault (s : State) (f : DecFault) : State :=
  match s.pass with
  | none => s
  | some p =>
    s.endPass p [] (p.keys.map (fun k => (k, { cause := Cause.ofDecode f.cause, info := f.info, addr := 0, stamp := 0, from_ := none })))

end Sys2Proof.Machine
end

