-- ==== Sys2Proof/Machine/Gen.lean ====
section
/-! DEFINITION. The GEN class (spec/07): integer, logic, shifts, compares, selection, moves, SHFL and VOTE, binary32 arithmetic,
long operations, single-operand functions and conversions. -/

namespace Sys2Proof.Machine

/-- The first word of an operand. -/
def w0 (l : List Word) : Word := l.headD 0

/-! ### Shapes of GEN words -/

/-- A TRI word of 32-bit integers. -/
def Tri.int (t : Tri) (lat : Nat) (readsD : Bool) : VWord :=
  { h := t.h, am := t.am, a := .sel t.a 1, b := bI32 t.b, c := if readsD then .sel t.d 1 else .none, cfld := 2,
    d := some (t.d, 1), pred := none, lat := lat, shifts := true }

/-- A TRI word of binary32. -/
def Tri.f32 (t : Tri) (lat : Nat) (c : Src) (cfld : Nat) : VWord :=
  { h := t.h, am := t.am, a := .sel t.a 1, b := bF32 t.b, c := c, cfld := cfld, d := some (t.d, 1), pred := none, lat := lat,
    shifts := true }

/-- A compare of 32-bit operands. -/
def Cmp.word (t : Cmp) (b : Src) (n : Nat) : VWord :=
  { h := t.h, am := t.am, a := .sel t.a n, b := b, c := .none, cfld := 2, d := none, pred := some t.p, lat := 4,
    shifts := false }

/-- A word with one source of `n` words and a destination of `m`. -/
def Duo.word (t : Duo) (n m lat : Nat) : VWord :=
  { h := t.h, am := t.am, a := .sel t.a n, b := .none, c := .none, cfld := 2, d := some (t.d, m), pred := none, lat := lat,
    shifts := true }

/-- A conversion through a format slot. -/
def SlotW.word (t : SlotW) (n m lat : Nat) : VWord :=
  { h := t.h, am := t.am, a := .sel t.a n, b := .none, c := .none, cfld := 2, d := some (t.d, m), pred := none, lat := lat,
    shifts := true }

/-- An integer operation from its function on three words. -/
def intOp (f : Word → Word → Word → Word) : VOp := fun _ a b c => ([f (w0 a) (w0 b) (w0 c)], 0)

/-- An integer operation that SAT clamps (R129): from the exact result. -/
def satOp (m : Option Arith) (f : Int → Int → Int → Int) : VOp := fun _ a b c =>
  let x := f (w0 a).toInt (w0 b).toInt (w0 c).toInt
  ([if (m.map Arith.sat).getD false then clampI32 x else BitVec.ofInt 32 x], 0)

/-- A binary32 operation on three operands. -/
def f32Op (m : Option Arith) (f : FEnv → Nat → Nat → Nat → Nat × FlagSet) : VOp := fun c a b x =>
  let r := f (c.env m) (w0 a).toNat (w0 b).toNat (w0 x).toNat
  ([BitVec.ofNat 32 r.1], r.2)

/-- A truth value as a word. -/
def bit32 (b : Bool) : Word := if b then 1 else 0

/-! ### Integer arithmetic, logic and shifts (R128 to R130) -/

/-- SHL, n of 32 or more giving 0. -/
def shl32 (a b : Word) : Word := a <<< (b.toNat % 64)

/-- SHR, n of 32 or more giving 0. -/
def shr32 (a b : Word) : Word := a >>> (b.toNat % 64)

/-- SAR, n of 32 or more giving the sign. -/
def sar32 (a b : Word) : Word := a.sshiftRight (b.toNat % 64)

/-- IADD (R128, R129). -/
def execIadd (t : Tri) (s : State) : Host.Outcome State Fault Refusal :=
  .next (s.vector (Tri.int t 4 false) (satOp t.am (fun a b _ => a + b)))

/-- ISUB. -/
def execIsub (t : Tri) (s : State) : Host.Outcome State Fault Refusal :=
  .next (s.vector (Tri.int t 4 false) (satOp t.am (fun a b _ => a - b)))

/-- IMUL. -/
def execImul (t : Tri) (s : State) : Host.Outcome State Fault Refusal :=
  .next (s.vector (Tri.int t 6 false) (satOp t.am (fun a b _ => a * b)))

/-- IMAD. -/
def execImad (t : Tri) (s : State) : Host.Outcome State Fault Refusal :=
  .next (s.vector (Tri.int t 6 true) (satOp t.am (fun a b c => a * b + c)))

/-- IMULH: the high half of the signed product. -/
def execImulh (t : Tri) (s : State) : Host.Outcome State Fault Refusal :=
  .next (s.vector (Tri.int t 6 false) (intOp (fun a b _ => BitVec.ofInt 32 (a.toInt * b.toInt / 4294967296))))

/-- IMULHN: the high half of the unsigned product. -/
def execImulhn (t : Tri) (s : State) : Host.Outcome State Fault Refusal :=
  .next (s.vector (Tri.int t 6 false) (intOp (fun a b _ => BitVec.ofNat 32 (a.toNat * b.toNat / 4294967296))))

/-- AND (R130). -/
def execAnd (t : Tri) (s : State) : Host.Outcome State Fault Refusal :=
  .next (s.vector (Tri.int t 4 false) (intOp (fun a b _ => a &&& b)))

/-- OR. -/
def execOr (t : Tri) (s : State) : Host.Outcome State Fault Refusal :=
  .next (s.vector (Tri.int t 4 false) (intOp (fun a b _ => a ||| b)))

/-- XOR. -/
def execXor (t : Tri) (s : State) : Host.Outcome State Fault Refusal :=
  .next (s.vector (Tri.int t 4 false) (intOp (fun a b _ => a ^^^ b)))

/-- ANDN. -/
def execAndn (t : Tri) (s : State) : Host.Outcome State Fault Refusal :=
  .next (s.vector (Tri.int t 4 false) (intOp (fun a b _ => a &&& ~~~ b)))

/-- SHL. -/
def execShl (t : Tri) (s : State) : Host.Outcome State Fault Refusal :=
  .next (s.vector (Tri.int t 4 false) (intOp (fun a b _ => shl32 a b)))

/-- SHR. -/
def execShr (t : Tri) (s : State) : Host.Outcome State Fault Refusal :=
  .next (s.vector (Tri.int t 4 false) (intOp (fun a b _ => shr32 a b)))

/-- SAR. -/
def execSar (t : Tri) (s : State) : Host.Outcome State Fault Refusal :=
  .next (s.vector (Tri.int t 4 false) (intOp (fun a b _ => sar32 a b)))

/-- IMIN. -/
def execImin (t : Tri) (s : State) : Host.Outcome State Fault Refusal :=
  .next (s.vector (Tri.int t 4 false) (intOp (fun a b _ => if a.slt b then a else b)))

/-- IMAX. -/
def execImax (t : Tri) (s : State) : Host.Outcome State Fault Refusal :=
  .next (s.vector (Tri.int t 4 false) (intOp (fun a b _ => if a.slt b then b else a)))

/-- NMIN. -/
def execNmin (t : Tri) (s : State) : Host.Outcome State Fault Refusal :=
  .next (s.vector (Tri.int t 4 false) (intOp (fun a b _ => if a.ult b then a else b)))

/-- NMAX. -/
def execNmax (t : Tri) (s : State) : Host.Outcome State Fault Refusal :=
  .next (s.vector (Tri.int t 4 false) (intOp (fun a b _ => if a.ult b then b else a)))

/-! ### Compares and selection (R131 to R136) -/

/-- ISETP. -/
def execIsetp (t : Cmp) (s : State) : Host.Outcome State Fault Refusal :=
  .next (s.vector (Cmp.word t (bI32 t.b) 1) (fun _ a b _ => ([bit32 (intCmp t.cond (w0 a) (w0 b))], 0)))

/-- SEL in one thread: the guard chooses, and only the chosen operand is read (R134). -/
def TCtx.selRun (c : TCtx) (t : Tri) : Did :=
  let v := Tri.int t 4 false
  match c.guard t.h.guard with
  | .error e => .fault e
  | .ok take =>
    match c.read (if take then 0 else 1) (if take then v.a else v.b) with
    | .error e => .fault e
    | .ok x => c.commit v x 0 (c.slot + 4)

/-- SEL. -/
def execSel (t : Tri) (s : State) : Host.Outcome State Fault Refusal :=
  .next (s.lockstep [.sel t.a 1, bI32 t.b] none (fun cs => cs.map (fun c => (c, c.selRun t))))

/-- MOV (R135). -/
def execMov (t : Duo) (s : State) : Host.Outcome State Fault Refusal :=
  .next (s.vector (Duo.word t 1 1 4) (intOp (fun a _ _ => a)))

/-- The value of MOVI and SMOVI (Table 4.7). -/
def moviValue (imm14 : BitVec 14) (lit : Option (BitVec 24)) : Word :=
  match lit with
  | none => imm14.signExtend 32
  | some p => p ++ imm14.extractLsb' 0 8

/-- MOVI (R136). -/
def execMovi (t : MovI) (s : State) : Host.Outcome State Fault Refusal :=
  .next (s.vector
    { h := t.h, am := t.am, a := .none, b := .imm [moviValue t.imm14 t.lit], c := .none, cfld := 2, d := some (t.d, 1),
      pred := none, lat := 4, shifts := true } (intOp (fun _ b _ => b)))

/-! ### Reaching across the warp (R137 to R140) -/

/-- A source of a thread as it stands, with no check: void storage reads 0 (R11, R137). -/
def TCtx.peek (c : TCtx) (x : Sel) : Word :=
  match c.resolve x 1 with
  | .error _ => 0
  | .ok .zero => 0
  | .ok (.file loc) => if c.th.isVoid loc then 0 else c.th.raw loc
  | .ok (.scalar r) => c.w.sget r c.p.bundle c.wslot
  | .ok (.latch l) =>
    match c.th.lat.drop l with
    | [] => 0
    | y :: rest => if y.land ≤ c.slot then y.val.lo else ((rest.head?.map (fun z => z.val.lo)).getD 0)

/-- What a thread of the pass gives to SHFL, and whether its own checks fault (R137 step 1). -/
def TCtx.contrib (c : TCtx) (t : Tri) : Word × Option TrapInfo :=
  match c.guard t.h.guard with
  | .error e => (c.peek t.a, some e)
  | .ok false => (c.peek t.a, none)
  | .ok true =>
    match c.read 0 (.sel t.a 1) with
    | .error e => (c.peek t.a, some e)
    | .ok x => (w0 x, none)

/-- The value SHFL reads from slot `j` of the executing thread's warp (R137 step 3). -/
def shflFrom (cs : List (TCtx × Word)) (c : TCtx) (a : Sel) (j : Nat) : Word :=
  match cs.find? (fun r => r.1.key == ⟨c.key.warp, j⟩) with
  | some r => r.2
  | none =>
    match c.w.threads[j]? with
    | none => 0
    | some u =>
      match a with
      | .l _ => 0
      | _ => TCtx.peek { c with key := ⟨c.key.warp, j⟩, th := u.land (c.p.stop - 1), slot := c.p.stop - 1 } a

/-- SHFL in the threads of a pass. -/
def shflRun (t : Tri) (cs : List TCtx) : List (TCtx × Did) :=
  let v := { Tri.int t 6 false with c := Src.none }
  let gave := cs.map (fun c => (c, c.contrib t))
  let vals := gave.map (fun r => (r.1, r.2.1))
  gave.map (fun r =>
    let c := r.1
    (c,
      match r.2.2 with
      | some e => .fault e
      | none =>
        match c.guard t.h.guard with
        | .error e => .fault e
        | .ok false => .skip (c.skipped v)
        | .ok true =>
          match c.read 1 (bI32 t.b) with
          | .error e => .fault e
          | .ok b => c.commit v [shflFrom vals c t.a ((w0 b).toNat % 32)] 0 (max (c.slot + 6) c.p.stop)))

/-- The storage that a selector of SHFL's A names in a thread outside the pass. -/
def shflLoc : Sel → Option Nat
  | .v n => some n
  | .k n => some (64 + n)
  | _ => none

/-- The reads of a SHFL that end with its pass: those of threads outside it, which other bundles may still write (R139). -/
def shflReads (t : Tri) (cs : List TCtx) : List ShflRead :=
  (shflRun t cs).filterMap (fun r =>
    let c := r.1
    match r.2, c.read 1 (bI32 t.b), shflLoc t.a, c.dest (some (t.d, 1)) with
    | .done _ _, .ok b, some loc, .ok ds =>
      let j := (w0 b).toNat % 32
      if cs.any (fun x => x.key == ⟨c.key.warp, j⟩) || (c.w.threads[j]?).isNone then none
      else some { reader := c.key, dst := ds.head?, land := max (c.slot + 6) c.p.stop, src := ⟨c.key.warp, j⟩, loc := loc, stop := c.p.stop }
    | _, _, _, _ => none)

/-- The reads that a SHFL's pass leaves for its end. -/
def State.shflRest (s : State) (t : Tri) : List ShflRead :=
  match s.pass with
  | none => []
  | some p0 => shflReads t (({ p0 with dur := p0.slotDur s [.sel t.a 1, bI32 t.b] } : Pass).ctxs s)

/-- SHFL. The values that it takes from outside its pass are as they stand when the pass begins; the end of the pass puts right those
that have changed by then (`State.shflEnd`). -/
def execShfl (t : Tri) (s : State) : Host.Outcome State Fault Refusal :=
  .next (let u := s.lockstep [.sel t.a 1, bI32 t.b] none (shflRun t); { u with shfls := sortBy ShflRead.stop (u.shfls ++ s.shflRest t) })

/-- Storage of a thread as it stands at a cycle, with no check: void storage, and v32 to v63 without an extended block, read 0 (R11). -/
def Thread.standing (t : Thread) (ext : Bool) (loc c : Nat) : Word :=
  let t := t.land c
  if (32 ≤ loc && loc < 64 && !ext) || t.isVoid loc then 0 else t.raw loc

/-- A thread whose SHFL delivers a value: its write is still on its way, unless a stop has completed it (R56), and so is l0. -/
def Thread.shuffled (t : Thread) (dst : Option Nat) (land : Nat) (x : Word) : Thread :=
  let t := match dst with
    | none => t
    | some d =>
      if t.pend.any (fun p => p.loc == d && p.land == land) then
        { t with pend := t.pend.map (fun (p : Pend) => if p.loc = d && p.land == land then { p with val := x } else p) }
      else t.store d x
  { t with lat := match t.lat with | [] => [] | l :: rest => { l with val := dwordOf [x] } :: rest }

/-- The end of a SHFL's pass: one read of a thread outside it taken, as that thread stands at the pass's last slot (R137, R139). -/
def State.shflEnd (s : State) : State :=
  match s.shfls with
  | [] => s
  | r :: rest =>
    let s : State := { s with shfls := rest }
    match s.thread r.src, Tab.find s.warps r.src.warp with
    | some u, some w => s.modThread r.reader (fun t => if t.st = .exited then t else t.shuffled r.dst r.land (u.standing w.ext r.loc (r.stop - 1)))
    | _, _ => s

/-- VOTE in the threads of a pass: `f` of the slots and bits of the thread's participants (R140). -/
def voteRun (t : VoteW) (f : List (Nat × Bool) → Word) (cs : List TCtx) : List (TCtx × Did) :=
  let v : VWord := { h := t.h, am := t.am, a := .none, b := .none, c := .none, cfld := 2, d := some (t.d, 1), pred := none,
                     lat := 8, shifts := true }
  let own := cs.map (fun c => (c, c.guard t.h.guard, c.guard (.pred t.p false)))
  let parts := own.filterMap (fun r =>
    match r.2.1, r.2.2 with | .ok true, .ok b => some (r.1.key, b) | _, _ => none)
  own.map (fun r =>
    let c := r.1
    (c,
      match r.2.1, r.2.2 with
      | .error e, _ => .fault e
      | .ok false, _ => .skip (c.skipped v)
      | .ok true, .error e => .fault e
      | .ok true, .ok _ =>
        c.commit v [f ((parts.filter (fun q => q.1.warp == c.key.warp)).map (fun q => (q.1.slot, q.2)))] 0
          (max (c.slot + 8) c.p.stop)))

/-- VOTE.ANY. -/
def execVoteAny (t : VoteW) (s : State) : Host.Outcome State Fault Refusal :=
  .next (s.lockstep [] none (voteRun t (fun l => bit32 (l.any (·.2)))))

/-- VOTE.ALL. -/
def execVoteAll (t : VoteW) (s : State) : Host.Outcome State Fault Refusal :=
  .next (s.lockstep [] none (voteRun t (fun l => bit32 (l.all (·.2)))))

/-- VOTE.BALLOT. -/
def execVoteBallot (t : VoteW) (s : State) : Host.Outcome State Fault Refusal :=
  .next (s.lockstep [] none (voteRun t (fun l =>
    l.foldl (fun m q => if q.2 then m ||| BitVec.ofNat 32 (1 <<< q.1) else m) 0)))

/-! ### Binary32 arithmetic (R141, R142) -/

/-- FADD. -/
def execFadd (t : Tri) (s : State) : Host.Outcome State Fault Refusal :=
  .next (s.vector (Tri.f32 t 6 .none 2) (f32Op t.am (fun v a b _ => b32.add v a b)))

/-- FMUL. -/
def execFmul (t : Tri) (s : State) : Host.Outcome State Fault Refusal :=
  .next (s.vector (Tri.f32 t 6 .none 2) (f32Op t.am (fun v a b _ => b32.mul v a b)))

/-- FFMA: D is the addend. -/
def execFfma (t : Tri) (s : State) : Host.Outcome State Fault Refusal :=
  .next (s.vector (Tri.f32 t 6 (.sel t.d 1) 2) (f32Op t.am (fun v a b c => b32.fma v a b c)))

/-- FFMAL: l0 is the addend. -/
def execFfmal (t : Tri) (s : State) : Host.Outcome State Fault Refusal :=
  .next (s.vector (Tri.f32 t 6 (.sel (.l 0) 1) 3) (f32Op t.am (fun v a b c => b32.fma v a b c)))

/-- FMIN. -/
def execFmin (t : Tri) (s : State) : Host.Outcome State Fault Refusal :=
  .next (s.vector (Tri.f32 t 6 .none 2) (f32Op t.am (fun v a b _ => b32.minmax v.ftz false a b)))

/-- FMAX. -/
def execFmax (t : Tri) (s : State) : Host.Outcome State Fault Refusal :=
  .next (s.vector (Tri.f32 t 6 .none 2) (f32Op t.am (fun v a b _ => b32.minmax v.ftz true a b)))

/-- FSETP (R132). -/
def execFsetp (t : Cmp) (s : State) : Host.Outcome State Fault Refusal :=
  .next (s.vector (Cmp.word t (bF32 t.b) 1) (fun c a b _ =>
    let r := b32.cmp (c.env t.am).ftz t.cond (w0 a).toNat (w0 b).toNat
    ([bit32 r.1], r.2)))

/-! ### Long operations (R143) -/

/-- FDIV. -/
def execFdiv (t : Tri) (s : State) : Host.Outcome State Fault Refusal :=
  .next (s.long (Tri.f32 t 30 .none 2) (f32Op t.am (fun v a b _ => b32.div v a b)))

/-- FRCP. -/
def execFrcp (t : Duo) (s : State) : Host.Outcome State Fault Refusal :=
  .next (s.long (Duo.word t 1 1 18) (f32Op t.am (fun v a _ _ => b32.rcp v a)))

/-- FSQRT. -/
def execFsqrt (t : Duo) (s : State) : Host.Outcome State Fault Refusal :=
  .next (s.long (Duo.word t 1 1 22) (f32Op t.am (fun v a _ _ => b32.sqrt v a)))

/-- FRSQ. -/
def execFrsq (t : Duo) (s : State) : Host.Outcome State Fault Refusal :=
  .next (s.long (Duo.word t 1 1 24) (f32Op t.am (fun v a _ _ => b32.rsqrt v a)))

/-- FEX2. -/
def execFex2 (t : Duo) (s : State) : Host.Outcome State Fault Refusal :=
  .next (s.long (Duo.word t 1 1 34) (f32Op t.am (fun v a _ _ => fpEx2 v a)))

/-- FLG2. -/
def execFlg2 (t : Duo) (s : State) : Host.Outcome State Fault Refusal :=
  .next (s.long (Duo.word t 1 1 34) (f32Op t.am (fun v a _ _ => fpLg2 v a)))

/-- FSIN. -/
def execFsin (t : Duo) (s : State) : Host.Outcome State Fault Refusal :=
  .next (s.long (Duo.word t 1 1 40) (f32Op t.am (fun v a _ _ => fpTrig false v a)))

/-- FCOS. -/
def execFcos (t : Duo) (s : State) : Host.Outcome State Fault Refusal :=
  .next (s.long (Duo.word t 1 1 40) (f32Op t.am (fun v a _ _ => fpTrig true v a)))

/-! ### Single-operand functions (R145, R146) -/

/-- INEG. -/
def execIneg (t : Duo) (s : State) : Host.Outcome State Fault Refusal :=
  .next (s.vector (Duo.word t 1 1 4) (satOp t.am (fun a _ _ => -a)))

/-- IABS. -/
def execIabs (t : Duo) (s : State) : Host.Outcome State Fault Refusal :=
  .next (s.vector (Duo.word t 1 1 4) (satOp t.am (fun a _ _ => if a < 0 then -a else a)))

/-- NOT. -/
def execNot (t : Duo) (s : State) : Host.Outcome State Fault Refusal :=
  .next (s.vector (Duo.word t 1 1 4) (intOp (fun a _ _ => ~~~ a)))

/-- POPC. -/
def execPopc (t : Duo) (s : State) : Host.Outcome State Fault Refusal :=
  .next (s.vector (Duo.word t 1 1 4) (intOp (fun a _ _ => BitVec.ofNat 32 (popCount a.toNat 32))))

/-- CLZ. -/
def execClz (t : Duo) (s : State) : Host.Outcome State Fault Refusal :=
  .next (s.vector (Duo.word t 1 1 4) (intOp (fun a _ _ => BitVec.ofNat 32 (32 - bitLen a.toNat))))

/-- BREV. -/
def execBrev (t : Duo) (s : State) : Host.Outcome State Fault Refusal :=
  .next (s.vector (Duo.word t 1 1 4) (intOp (fun a _ _ => BitVec.ofNat 32 (revBits a.toNat 32))))

/-- A word with its bytes in reverse order. -/
def swap32 (a : Word) : Word := a.extractLsb' 0 8 ++ a.extractLsb' 8 8 ++ a.extractLsb' 16 8 ++ a.extractLsb' 24 8

/-- BSWAP. -/
def execBswap (t : Duo) (s : State) : Host.Outcome State Fault Refusal :=
  .next (s.vector (Duo.word t 1 1 4) (intOp (fun a _ _ => swap32 a)))

/-- FNEG (R118). -/
def execFneg (t : Duo) (s : State) : Host.Outcome State Fault Refusal :=
  .next (s.vector (Duo.word t 1 1 4) (intOp (fun a _ _ => a ^^^ 0x80000000)))

/-- FABS. -/
def execFabs (t : Duo) (s : State) : Host.Outcome State Fault Refusal :=
  .next (s.vector (Duo.word t 1 1 4) (intOp (fun a _ _ => a &&& 0x7FFFFFFF)))

/-- FCLASS. -/
def execFclass (t : Duo) (s : State) : Host.Outcome State Fault Refusal :=
  .next (s.vector (Duo.word t 1 1 4) (f32Op t.am (fun v a _ _ => (b32.classify v.ftz a, 0))))

/-- FRINT. -/
def execFrint (t : Duo) (s : State) : Host.Outcome State Fault Refusal :=
  .next (s.vector (Duo.word t 1 1 4) (f32Op t.am (fun v a _ _ => b32.rint v a)))

/-! ### Conversions (R147, R148) -/

/-- CVT.F32.I32. -/
def execCvtF32I32 (t : Duo) (s : State) : Host.Outcome State Fault Refusal :=
  .next (s.vector (Duo.word t 1 1 4) (f32Op t.am (fun v a _ _ => intToFp b32 v.rm (BitVec.ofNat 32 a).toInt)))

/-- CVT.F32.N32. -/
def execCvtF32N32 (t : Duo) (s : State) : Host.Outcome State Fault Refusal :=
  .next (s.vector (Duo.word t 1 1 4) (f32Op t.am (fun v a _ _ => intToFp b32 v.rm a)))

/-- CVT.I32.F32. -/
def execCvtI32F32 (t : Duo) (s : State) : Host.Outcome State Fault Refusal :=
  .next (s.vector (Duo.word t 1 1 4) (f32Op t.am (fun v a _ _ => fpToInt b32 v true 32 a)))

/-- CVT.N32.F32. -/
def execCvtN32F32 (t : Duo) (s : State) : Host.Outcome State Fault Refusal :=
  .next (s.vector (Duo.word t 1 1 4) (f32Op t.am (fun v a _ _ => fpToInt b32 v false 32 a)))

/-- CVT.F16.F32. -/
def execCvtF16F32 (t : Duo) (s : State) : Host.Outcome State Fault Refusal :=
  .next (s.vector (Duo.word t 1 1 4) (f32Op t.am (fun v a _ _ => fpConvF b32 b16 v a)))

/-- CVT.F32.F16. -/
def execCvtF32F16 (t : Duo) (s : State) : Host.Outcome State Fault Refusal :=
  .next (s.vector (Duo.word t 1 1 4) (f32Op t.am (fun v a _ _ => fpConvF b16 b32 v (a % 65536))))

/-- CVT.BF16.F32. -/
def execCvtBf16F32 (t : Duo) (s : State) : Host.Outcome State Fault Refusal :=
  .next (s.vector (Duo.word t 1 1 4) (f32Op t.am (fun v a _ _ => fpConv b32 bf16 v a)))

/-- CVT.F32.BF16. -/
def execCvtF32Bf16 (t : Duo) (s : State) : Host.Outcome State Fault Refusal :=
  .next (s.vector (Duo.word t 1 1 4) (f32Op t.am (fun v a _ _ => fpConv bf16 b32 v (a % 65536))))

/-- CVT.I32.I8. -/
def execCvtI32I8 (t : Duo) (s : State) : Host.Outcome State Fault Refusal :=
  .next (s.vector (Duo.word t 1 1 4) (intOp (fun a _ _ => (a.extractLsb' 0 8).signExtend 32)))

/-- CVT.I32.I16. -/
def execCvtI32I16 (t : Duo) (s : State) : Host.Outcome State Fault Refusal :=
  .next (s.vector (Duo.word t 1 1 4) (intOp (fun a _ _ => (a.extractLsb' 0 16).signExtend 32)))

/-- A format slot of the launch. -/
def TCtx.fslot (c : TCtx) (n : Fin 8) : Dword := c.p.rcd.slots.getD n 0

/-- QUANT (R148). -/
def execQuant (t : SlotW) (s : State) : Host.Outcome State Fault Refusal :=
  .next (s.vector (SlotW.word t 1 1 4) (fun c a _ _ =>
    let x := c.fslot t.s
    let r := toSlot b32 (slotA x) (slotEnv x) (w0 a).toNat
    ([BitVec.ofNat 32 r.1], r.2)))

/-- DEQ. -/
def execDeq (t : SlotW) (s : State) : Host.Outcome State Fault Refusal :=
  .next (s.vector (SlotW.word t 1 1 4) (fun c a _ _ =>
    let r := fromSlot b32 (slotA (c.fslot t.s)) (w0 a).toNat
    ([BitVec.ofNat 32 r.1], r.2)))

end Sys2Proof.Machine
end

