-- ==== Sys2Proof/Machine/Translate.lean ====
section
/-! DEFINITION. Translation (spec/12): page-table walks of both stages, the TLBs, ACCESSED, DIRTY and CKPT, the walkers, the
page-request queues and the fault buffer. -/

namespace Sys2Proof.Machine

/-! ### Walks (R219 to R221) -/

/-- The number of the 64-byte line of a physical address. -/
def lineOf (pa : Nat) : Nat := pa / 64

/-- The virtual or intermediate page of an address. -/
def pageOf (a : Nat) : Nat := a / 65536 * 65536

/-- The shifts of the index of levels 1, 2 and 3, which are also the sizes their leaves map. -/
def walkLevels : List Nat := [42, 29, 16]

/-- A leaf that a stage of a walk ends at: the output address, the size it maps, its bits, and its own address. -/
structure Leaf where
  out : Nat
  log : Nat
  bits : Nat
  addr : Nat
deriving DecidableEq, Repr

/-- Output address bits of an entry. -/
def entryOA (e : Nat) : Nat := natBits e 16 36 * 65536

/-- Whether a leaf entry breaks Table 9.3 at a size. -/
def badLeaf (e log : Nat) : Bool :=
  natBits e 52 12 != 0 || natBits e 10 4 != 0 || natBits e 14 2 == 3 || entryOA e % 2 ^ log != 0

/-- Whether a table entry breaks Table 12.1. -/
def badTable (e : Nat) : Bool := natBits e 52 12 != 0 || natBits e 2 14 != 0

/-- One stage of a walk from a table, over the levels left. `place` gives the physical address of an entry of this stage, with
the leaves met on the way, or how the walk ends there. The leaves met are answered with the outcome. -/
def walkStage (s : State) (s2 : Bool) (page : Nat) (place : Nat → Except WalkEnd (Nat × List Nat)) (table input : Nat) :
    List Nat → Except WalkEnd Leaf × List Nat
  | [] => (.error (.fatal s2), [])
  | sh :: rest =>
    match place (table + 8 * (input / 2 ^ sh % 8192)) with
    | .error e => (.error e, [])
    | .ok (pa, met) =>
      if s.poison.contains (lineOf pa) then (.error (.ue s2), met)
      else
        let e := s.mem.nat pa 8
        if e % 2 = 0 then (.error (.miss s2 page false), met)
        else if natBit e 1 then
          if badLeaf e sh then (.error (.fatal s2), met)
          else (.ok { out := entryOA e + input % 2 ^ sh, log := sh, bits := e, addr := pa }, met ++ [pa])
        else if badTable e then (.error (.fatal s2), met)
        else
          let r := walkStage s s2 page place (entryOA e) input rest
          (r.1, met ++ r.2)

/-- Stage 2 of an intermediate physical address, as the tables have it. -/
def State.leaf2 (s : State) (root ipa : Nat) : Except WalkEnd Leaf × List Nat :=
  if 2 ^ 55 ≤ ipa then (.error (.fatal true), [])
  else walkStage s true (pageOf ipa) (fun a => .ok (a, [])) root ipa walkLevels

/-- Whether a physical address lies in a frame that firmware is moving (R231, R241). -/
def State.migrating (s : State) (pa : Nat) : Bool := s.migrations.any (fun m => m.old == pageOf pa)

/-- Stage 2 of an intermediate physical address: an access to a frame being moved misses (R231). -/
def State.walk2 (s : State) (root ipa : Nat) : Except WalkEnd Leaf × List Nat :=
  match s.leaf2 root ipa with
  | (.ok l, met) => if s.migrating l.out then (.error (.miss true (pageOf ipa) false), met) else (.ok l, met)
  | r => r

/-- Whether a stage-2 miss stands for a frame being moved. -/
def State.frozen (s : State) (x : Xlat) (s2 : Bool) (page : Nat) : Bool :=
  s2 && x.s2root != 0 && (match (s.leaf2 x.s2root.toNat page).1 with | .ok l => s.migrating l.out | .error _ => false)

/-- The physical address of a stage-1 table entry (R220): its address goes through stage 2 when that is enabled. -/
def State.tablePlace (s : State) (x : Xlat) (a : Nat) : Except WalkEnd (Nat × List Nat) :=
  if x.s2root = 0 then .ok (a, [])
  else
    match s.walk2 x.s2root.toNat a with
    | (.ok l, met) => .ok (l.out, met)
    | (.error (.miss s2 p _), _) => .error (.miss s2 p true)
    | (.error e, _) => .error e

/-- Effective attributes of two stages (R158). -/
def attrsOf (b1 b2 : Nat) : Attrs :=
  { cache := max (natBits b1 14 2) (natBits b2 14 2), sa := natBit b1 8 || natBit b2 8, sc := natBit b1 7 || natBit b2 7,
    hist := natBit b1 6 || natBit b2 6, write := natBit b1 2 && natBit b2 2, exec := natBit b1 3 && natBit b2 3 }

/-- Whether a leaf has DIRTY and CKPT set. -/
def leafDirty (b : Nat) : Bool := natBit b 5 && natBit b 9

/-- A whole walk (R220, R221, Table 12.2), with the addresses of the leaves met. An address outside the 55-bit space, which only a program
counter can hold (R58), ends as a walk that fails (DESIGN CHOICE, log 13: the chapters give no cause for such a fetch). -/
def State.walkAll (s : State) (x : Xlat) (va : Nat) : WalkEnd × List Nat :=
  if x.s1root = 0 then (.miss false (pageOf va) false, [])
  else if 2 ^ 55 ≤ va then (.fatal false, [])
  else
    match walkStage s false (pageOf va) (s.tablePlace x) x.s1root.toNat va walkLevels with
    | (.error e, met) => (e, met)
    | (.ok l1, met1) =>
      if x.s2root = 0 then
        let m := 2 ^ l1.log
        (.ok { xlat := x, va := va / m * m, pa := l1.out / m * m, log := l1.log, ipa := l1.out / m * m,
               attrs := { attrsOf l1.bits l1.bits with cache := natBits l1.bits 14 2 }, leaf1 := l1.addr, leaf2 := none, log2 := 0,
               dirty := leafDirty l1.bits }, met1)
      else
        match s.walk2 x.s2root.toNat l1.out with
        | (.error e, met2) => (e, met1 ++ met2)
        | (.ok l2, met2) =>
          let m := 2 ^ min l1.log l2.log
          (.ok { xlat := x, va := va / m * m, pa := l2.out / m * m, log := min l1.log l2.log, ipa := l1.out / m * m,
                 attrs := attrsOf l1.bits l2.bits, leaf1 := l1.addr, leaf2 := some l2.addr, log2 := l2.log,
                 dirty := leafDirty l1.bits && leafDirty l2.bits }, met1 ++ met2)

/-- The physical address an entry gives. -/
def TlbEntry.phys (e : TlbEntry) (va : Nat) : Nat := e.pa + va % 2 ^ e.log

/-- An address translated by reading the tables alone, with no effect on any state. -/
def State.peekXlat (s : State) (x : Xlat) (va : Nat) : Option TlbEntry :=
  match (s.walkAll x va).1 with
  | .ok e => some e
  | _ => none

/-! ### TLBs (R222) -/

/-- Whether two translations carry one tag. -/
def Xlat.sameTag (a b : Xlat) : Bool := a.part == b.part && a.vf == b.vf && a.asid == b.asid

/-- Whether an entry translates an address of a context: nothing does while S1ROOT is 0 (R221). -/
def TlbEntry.hits (e : TlbEntry) (x : Xlat) (va : Nat) : Bool := x.s1root != 0 && e.xlat.sameTag x && e.va == va / 2 ^ e.log * 2 ^ e.log

/-- An entry put at the front of a TLB of `cap` entries, least recently used last. -/
def tlbPut (cap : Nat) (e : TlbEntry) (l : List TlbEntry) : List TlbEntry :=
  (e :: l.filter (fun y => !(y.xlat.sameTag e.xlat && y.va == e.va && y.log == e.log))).take cap

/-- The cluster TLB of a core. -/
def State.ctlb (s : State) (core : Nat) : List TlbEntry := (Tab.find s.clusterTlb (core / Config.coresPerCluster)).getD []

/-- The state with an entry put into a core's TLB and its cluster's. -/
def State.tlbInstall (s : State) (core : Nat) (e : TlbEntry) : State :=
  { s.modCore core (fun c => { c with tlb := tlbPut 256 e c.tlb }) with
    clusterTlb := Tab.put s.clusterTlb (core / Config.coresPerCluster) (tlbPut 4096 e (s.ctlb core)) }

/-- A lookup: the core TLB first, then the cluster TLB, whose hit is copied into the core's. -/
def State.tlbLookup (s : State) (core : Nat) (x : Xlat) (va : Nat) : Option (TlbEntry × State) :=
  match (s.core core).tlb.find? (fun e => e.hits x va) with
  | some e => some (e, s.modCore core (fun c => { c with tlb := tlbPut 256 e c.tlb }))
  | none => ((s.ctlb core).find? (fun e => e.hits x va)).map (fun e => (e, s.tlbInstall core e))

/-- The state with every TLB entry that satisfies a test dropped. -/
def State.tlbDrop (s : State) (f : TlbEntry → Bool) : State :=
  { s with
    cores := s.cores.map (fun c => (c.1, { c.2 with tlb := c.2.tlb.filter (fun e => !f e) }))
    clusterTlb := s.clusterTlb.map (fun c => (c.1, c.2.filter (fun e => !f e))) }

/-! ### Home slices and stamps (R149, R159, R161, R162) -/

/-- The home slice of a physical address (R159). -/
def homeSlice (pa : Nat) : Nat :=
  let h := natBits pa 6 46
  ((h ^^^ (h >>> 16) ^^^ (h >>> 32)) % 65536) % Config.slices

/-- The bank of a physical address within its home slice, among those of a partition's colour mask (R159). -/
def bankOf (colour : BitVec 8) (pa : Nat) : Nat :=
  let banks := (List.range 8).filter (fun i => colour.getLsbD i)
  banks.getD ((natBits pa 6 10 ^^^ natBits pa 16 10) % banks.length) 0

/-- The least stamp of a slice at or after a tick and above a bound (R149). -/
def stampAfter (slice tick bound : Nat) : Nat :=
  let t := max tick (bound / 65536)
  let low := bound % 65536
  if bound / 65536 < t || low < slice * 256 then t * 65536 + slice * 256
  else if low / 256 = slice && low % 256 < 255 then bound + 1
  else (t + 1) * 65536 + slice * 256

/-- A slice's logical tick: the reference tick moves it up (R162). -/
def State.sliceTick (s : State) (n : Nat) : Nat := max (s.slice n).tick.toNat s.refTick.toNat

/-- A stamp assigned by a slice to a request that carries a floor (R149). -/
def State.assignStamp (s : State) (n : Nat) (floor : Dword) : State × Dword :=
  let x := stampAfter n (s.sliceTick n) (max (s.slice n).last.toNat floor.toNat)
  let st : Dword := BitVec.ofNat 64 x
  ({ s with slices := Tab.put s.slices n { tick := BitVec.ofNat 48 (max (s.sliceTick n) (x / 65536)), last := st } }, st)

/-! ### Bits the device sets in leaves (R157, R223) -/

/-- Bytes of one line that the device itself writes at their home slice: stamped as any store (R149). The write goes through no page, so
it makes no entry, and a line that has history metadata has its chain cut as R169 does for a page without HIST (DEDUCED, log 27). -/
def State.devicePut (s : State) (pa : Nat) (data : List Byte) : State :=
  let r := s.assignStamp (homeSlice pa) 0
  { r.1 with
    mem := r.1.mem.puts pa data
    lineMeta := Tab.upd r.1.lineMeta (lineOf pa) (fun _ => { stamp := r.2, link := none, cut := true }) }

/-- An entry of a table with bits ORed in, at its home slice. -/
def State.orEntry (s : State) (pa bits : Nat) : State := s.devicePut pa (leBytes (s.mem.nat pa 8 ||| bits) 8)

/-- ACCESSED set in every leaf met whose bit is clear. -/
def State.setAccessed (s : State) (met : List Nat) : State :=
  met.foldl (fun s a => if natBit (s.mem.nat a 8) 4 then s else s.orEntry a 16) s

/-- DIRTY and CKPT set for a store or atomic to an address through an entry that does not show them, stage 1 first (R223). Where a leaf no
longer shows VALID the entry is dropped and the access misses at that leaf's stage, on the page that it names there (R216). -/
def State.setDirty (s : State) (e : TlbEntry) (va : Nat) : State × Option (Bool × Nat) :=
  if e.dirty then (s, none)
  else
    let same := fun (y : TlbEntry) => y.xlat.sameTag e.xlat && y.va == e.va && y.log == e.log
    let mark := fun (s : State) =>
      { s with
        cores := s.cores.map (fun c => (c.1, { c.2 with tlb := c.2.tlb.map (fun y => if same y then { y with dirty := true } else y) }))
        clusterTlb := s.clusterTlb.map (fun c => (c.1, c.2.map (fun y => if same y then { y with dirty := true } else y))) }
    if s.mem.nat e.leaf1 8 % 2 = 0 then (s.tlbDrop same, some (false, pageOf va))
    else
      let s1 := s.orEntry e.leaf1 0x220
      match e.leaf2 with
      | none => (mark s1, none)
      | some l2 => if s1.mem.nat l2 8 % 2 = 0 then (s1.tlbDrop same, some (true, pageOf (e.ipa + va % 2 ^ e.log))) else (mark (s1.orEntry l2 0x220), none)

/-- A counter raised by one, saturating (R238). -/
def satUp (w : Word) : Word := if w = 0xFFFFFFFF then w else w + 1

/-- An uncorrectable error counted in a partition's Uncorrected counter (Table 13.2). -/
def State.countUe (s : State) (part : Nat) : State := s.modPart part (fun p => { p with uncorrected := satUp p.uncorrected })

/-! ### Walkers (R215, R224) -/

/-- Whether a translation of a context falls under an invalidation by its tags. -/
def InvSpec.tags (i : InvSpec) (x : Xlat) : Bool :=
  x.part == i.part && x.vf == i.vf && (match i.kind with | .va | .asid => x.asid == i.asid | _ => true)

/-- Whether a translation matches an invalidation (R228). -/
def InvSpec.drops (i : InvSpec) (e : TlbEntry) : Bool :=
  i.tags e.xlat &&
    (match i.kind with
      | .va => i.addr / 2 ^ e.log == e.va / 2 ^ e.log
      | .ipa => e.leaf2.isSome && i.addr / 2 ^ e.log2 == e.ipa / 2 ^ e.log2
      | _ => true)

/-- Whether a walk that ends so has found a translation which an invalidation posted since it began matches. -/
def Walk.matched (w : Walk) (e : WalkEnd) : Bool := match e with | .ok e => w.drops.any (fun i => i.drops e) | _ => false

/-- Whether what a walk has found is not to be used any more (R215). -/
def Walk.stale (w : Walk) : Bool := w.done.any w.matched

/-- The die of a core. -/
def dieOf (core : Nat) : Nat := core / (Config.coresPerCluster * Config.clustersPerDie)

/-- Whether a walk serves a page of a context on a die. -/
def Walk.serves (w : Walk) (x : Xlat) (va die : Nat) : Bool :=
  w.xlat == x && pageOf w.va == pageOf va && dieOf w.core == die && w.done.isNone

/-- The delay of a walk under the default schedule: 50 cycles for each read of the deepest walk (R224, log 8). -/
def walkDelay (x : Xlat) : Nat := if x.s2root = 0 then 150 else 750

/-- A walk asked for: shared with one in flight for the page from any core of the die, or begun (R224). A walk begun while all
32 walkers are busy is due after the walk it waits for. `marks` is whether the access sets ACCESSED. Answers its number. -/
def State.askWalk (s : State) (core : Nat) (x : Xlat) (va : Nat) (marks : Bool) (who : WalkFor) : State × Nat :=
  match s.walks.find? (fun w => w.serves x va (dieOf core)) with
  | some w =>
    ({ s with walks := s.walks.map (fun y => if y.id = w.id then { y with waits := y.waits ++ [who], marks := y.marks || marks } else y) }, w.id)
  | none =>
    let busy := s.walks.filter (fun w => dieOf w.core == dieOf core && w.done.isNone)
    let from_ := if busy.length < 32 then s.cycle else (((busy.map Walk.due).reverse.drop 31).headD s.cycle)
    ({ s with
       uid := s.uid + 1
       walks := s.walks ++ [{ id := s.uid, xlat := x, va := va, core := core, waits := [who], due := from_ + walkDelay x, marks := marks,
                              drops := [], done := none }] }, s.uid)

/-- The translations that satisfy a test used no more: they leave every TLB, and what waits for a walk that found one walks again. -/
def State.forget (s : State) (f : TlbEntry → Bool) : State :=
  let s := s.tlbDrop f
  { s with walks := s.walks.map (fun (w : Walk) =>
      match w.done with
      | some (.ok e) => if f e then { w with done := none, due := s.cycle + walkDelay w.xlat } else w
      | _ => w) }

/-- The outcome a walk ends with is remembered for bundles alone; a walk that no bundle waits for is forgotten. -/
def State.dropWalks (s : State) (ids : List Nat) (bundle : Nat) : State :=
  { s with walks := s.walks.filterMap (fun w =>
      if ids.contains w.id then
        let rest := w.waits.filter (fun x => x != .bundle bundle)
        if w.done.isSome && rest.isEmpty then none else some { w with waits := rest }
      else some w) }

/-! ### Page requests (R216, R226, R227) -/

/-- Whether a queue is disabled: LOG outside 4 to 16, or a base that is not a multiple of 64. -/
def PageQueue.disabled (q : PageQueue) : Bool :=
  let log := natBits q.cfg.toNat 0 5
  log < 4 || 16 < log || q.base.toNat % 64 != 0

/-- The entries of a ring. -/
def PageQueue.entries (q : PageQueue) : Nat := 2 ^ natBits q.cfg.toNat 0 5

/-- Whether the request ring is full. -/
def PageQueue.full (q : PageQueue) : Bool := q.entries ≤ (q.reqTail - q.reqHead).toNat

/-- The first ID from `id` on that no outstanding request holds; `n` tries suffice. -/
def freeId (used : List (BitVec 16)) (id : BitVec 16) : Nat → BitVec 16
  | 0 => id
  | n + 1 => if used.contains id then freeId used (id + 1) n else id

/-- The 32 bytes of a page request (Table 12.4). -/
def reqEntry (q : QKey) (id : BitVec 16) (r : PageReq) : List Byte :=
  leBytes id.toNat 2 ++ leBytes (r.kind + (if q.s2 then 16 else 0)) 2 ++ leBytes q.vf 1 ++ leBytes q.part 1 ++ leBytes r.core 2
    ++ leBytes r.page 8 ++ leBytes (if q.s2 then 0 else r.asid.toNat) 2 ++ List.replicate 14 0

/-- One held request posted, when the ring has room and an ID is free (R226). -/
def State.postOne (s : State) (k : QKey) : Option State :=
  let q := s.queue k
  match q.reqs.find? (fun r => r.id.isNone) with
  | none => none
  | some r =>
    let used := q.reqs.filterMap PageReq.id
    if q.full || q.disabled || 65536 ≤ used.length then none
    else
      let id := freeId (used.map (BitVec.ofNat 16)) q.nextId (used.length + 1)
      let at_ := q.base.toNat + 32 * (q.reqTail.toNat % q.entries)
      let s := s.devicePut at_ (reqEntry k id r)
      let taken := id :: used.map (BitVec.ofNat 16)
      some ((s.modQueue k (fun q =>
        { q with reqTail := q.reqTail + 1, nextId := freeId taken (id + 1) taken.length
                 reqs := (q.reqs.takeWhile (fun y => y.id.isSome)) ++ [{ r with id := some id.toNat }]
                   ++ ((q.reqs.dropWhile (fun y => y.id.isSome)).drop 1) })).emit (.pageNotify k))

/-- Every held request that can be posted. -/
def State.postHeld (s : State) (k : QKey) : Nat → State
  | 0 => s
  | n + 1 => match s.postOne k with | some s' => State.postHeld s' k n | none => s

/-- A page request for a missed page: joined with one outstanding from the core, or new, posted at once when the ring has room
and nothing is held before it (R216, R226). For a frame being moved nothing goes to the queue (R231). -/
def State.pageRequest (s : State) (x : Xlat) (core kind : Nat) (s2 : Bool) (page : Nat) : State :=
  let k : QKey := ⟨x.part, x.vf.toNat, s2⟩
  let asid := if s2 then 0 else x.asid
  let q := s.queue k
  if s.frozen x s2 page || q.reqs.any (fun r => r.page == page && r.core == core && r.asid == asid) then s
  else
    (s.modQueue k (fun q => { q with reqs := q.reqs ++ [{ id := none, kind := kind, page := page, core := core, asid := asid }] })).postHeld
      k 1

/-- Whether the queue that a miss of a page goes to is disabled, so that the miss is denied at once (R227). -/
def State.queueOff (s : State) (x : Xlat) (s2 : Bool) (page : Nat) : Bool :=
  (s.queue ⟨x.part, x.vf.toNat, s2⟩).disabled && !s.frozen x s2 page

/-- The entries of a core's fault buffer in use (R225): parked accesses and parked fetches. Those of a saved context have left with it
(R230). -/
def State.parkedOn (s : State) (core : Nat) : Nat :=
  (s.reqs.filter (fun r => r.core == core && !((Tab.find s.launches r.launch).any (fun l => l.offAt core))
      && (match r.stage with | .parked _ _ | .walking _ => true | _ => false))).foldl
    (fun n r => n + if r.sdst.isSome then 1 else max r.parts.length 1) 0

end Sys2Proof.Machine
end

