-- ==== Sys2Proof/Machine/Memory.lean ====
section
/-! DEFINITION. The memory side (spec/08, spec/09): where an address lands, home slices, stamps, history, the L1, scratchpads,
range locks, and what a store, a load, an as-of load and an atomic do at the place where they take effect. -/

namespace Sys2Proof.Machine

/-! ### Where an address lands (R153 to R155) -/

/-- What an effective address names. -/
inductive Target where
  | glb (va : Nat)
  | own (off : Nat)
  | clw (q off : Nat)
  | mir (m off : Nat)
  | par (off : Nat)
  | bad
deriving DecidableEq, Repr

/-- The fields of a space's row of Table 9.1. -/
def targetFields (sp : Space) (ea : Nat) : Target :=
  let low := ea % 2 ^ 56
  match sp with
  | .glb => if natBit ea 55 then .bad else .glb low
  | .own => if low / 2 ^ 20 = 0 then .own low else .bad
  | .clw => if low / 2 ^ 22 = 0 then .clw (natBits ea 20 2) (ea % 2 ^ 20) else .bad
  | .mir => if low / 2 ^ 22 = 0 then .mir (natBits ea 20 2) (ea % 2 ^ 20) else .bad
  | .par => if ea / 2 ^ 17 = 0 then .par ea else .bad

/-- The space a generic address's top byte names. -/
def spaceOfTop (t : Nat) : Option Space :=
  match t with
  | 0x00 => some .glb
  | 0xFD => some .mir
  | 0xFE => some .clw
  | 0xFF => some .own
  | _ => none

/-- An address decoded under a SPACE field (R155). -/
def decodeAddr (sp : Space) (ea : Dword) : Target :=
  let a := ea.toNat
  let top := a / 2 ^ 56
  match sp with
  | .glb => match spaceOfTop top with | some x => targetFields x a | none => .bad
  | .par => targetFields .par a
  | sp => if top = 0 || spaceOfTop top == some sp then targetFields sp a else .bad

/-- The area in which an offset falls when areas lie side by side in a list's order, and the byte it names. -/
def areaSpot (off : Nat) : List GroupArea → Option (GroupArea × Nat)
  | [] => none
  | a :: rest => if off < a.size then some (a, a.base + off) else areaSpot (off - a.size) rest

/-- The scratchpad byte of a core at an offset of a group's area on it (R154): the areas of the group's blocks there, in increasing
identifier. An area that another group's block has taken over (R31) is no part of it any more. -/
def State.groupByte (s : State) (g core off : Nat) : Option Nat :=
  match Tab.find s.groups g with
  | none => none
  | some x =>
    (areaSpot off (sortBy GroupArea.id (x.areas.filter (fun a => a.core == core)))).bind (fun a =>
      if (Tab.find s.blocks a.1.block).all (fun b => b.group == g) then some a.2 else none)

/-- The mirror window `m` of a launch record, when it is defined (R300). -/
def Record.window (r : Record) (m : Nat) : Option Mirror := (r.mirrors[m]?).bind (fun w => if w.size = 0 then none else some w)

/-- The package core of an index within a cluster. -/
def clusterCore (cluster q : Nat) : Nat := cluster * Config.coresPerCluster + q

/-- Whether a core is a member of a mirror window (Table 17.5). -/
def Mirror.member (w : Mirror) (core : Nat) : Bool := decide (w.first ≤ core) && w.mask.getLsbD (core - w.first)

/-- The cores of a mirror window. -/
def Mirror.members (w : Mirror) : List Nat := ((List.range 16).filter (fun i => w.mask.getLsbD i)).map (fun i => w.first + i)

/-- The area of the launch's lowest-identified block of one copy resident on a core, as base and size (R301). -/
def State.mirrorArea (s : State) (launch core : Nat) (shadow : Bool) : Option (Nat × Nat) :=
  let bs := s.blocks.filter (fun b => b.2.launch == launch && b.2.shadow == shadow && (Tab.find b.2.areas core).isSome)
  match bs with
  | [] => none
  | b :: rest =>
    let low := rest.foldl (fun m x => if x.2.id < m.2.id then x else m) b
    (Tab.find low.2.areas core).map (fun a => (a, low.2.size))

/-- A core of a cluster group's primary copy, as the shadow copy names it: the same core of the shadow's cluster (R319). -/
def State.shadowCore (s : State) (launch core : Nat) : Nat :=
  match s.groups.find? (fun g => g.2.launch == launch && !g.2.shadow && g.2.cluster == core / Config.coresPerCluster) with
  | none => core
  | some g =>
    match g.2.partner.bind (fun q => Tab.find s.groups q) with
    | none => core
    | some q => clusterCore q.cluster (core % Config.coresPerCluster)

/-- The cores of a mirror window as one copy of a launch names them. -/
def State.mirrorCores (s : State) (launch : Nat) (w : Mirror) (shadow : Bool) : List Nat :=
  if shadow then w.members.map (s.shadowCore launch) else w.members

/-- The scratchpad byte a target names on a core: the core and its scratchpad address, and whether the byte lies in an area;
`none` when a check of Table 9.1 fails. A mirror window names its bytes on the issuing core, a member (R301). -/
def State.scratchPlace (s : State) (block core : Nat) (rcd : Record) (t : Target) : Option (Nat × Nat × Bool) :=
  match Tab.find s.blocks block with
  | none => none
  | some b =>
    match t with
    | .own off => (Tab.find b.areas core).bind (fun base => if off < b.size then some (core, base + off, true) else none)
    | .clw q off =>
      let c := clusterCore (core / Config.coresPerCluster) q
      (s.groupByte b.group c off).map (fun a => (c, a, true))
    | .mir m off =>
      match rcd.window m with
      | none => none
      | some w =>
        if off < w.size && (s.mirrorCores b.launch w b.shadow).contains core then
          match s.mirrorArea b.launch core b.shadow with
          | none => none
          | some a => some (core, a.1 + w.base + off, decide (w.base + off < a.2))
        else none
    | _ => none

/-! ### The tick (R165, R166) -/

/-- Whether the reference tick is held (R166). -/
def State.tickHeld (s : State) : Bool := s.hold.getLsbD 63

/-- SETTLED as R165 computes it: the greatest value of the tick below the least logical tick. -/
def State.settleValue (s : State) : Dword :=
  let t := (List.range Config.slices).foldl (fun m n => min m (s.sliceTick n)) (s.sliceTick 0)
  BitVec.ofNat 64 ((t - 1) * 65536 + 65535)

/-! ### History (R168 to R173) -/

/-- Capacity of a partition's pool and spill area. -/
def Partition.cap (p : Partition) : Nat := p.poolSize + p.spillSize

/-- Entries that count toward the capacity. -/
def Partition.live (p : Partition) : Nat := (p.pool.filter (fun e => !e.freed)).length

/-- The colour mask of a partition's entry word (Table 13.1). -/
def Partition.colour (p : Partition) : BitVec 8 := p.entry.extractLsb' 16 8

/-- Whether an as-of load in flight still needs an entry that is being freed (R200). -/
def State.asofNeeds (s : State) (part : Nat) (later : Dword) : Bool :=
  s.reqs.any (fun r =>
    match r.kind with
    | .asof _ st => decide (st.toNat < later.toNat) && (((Tab.find s.launches r.launch).map (fun l => l.xlat.part == part)).getD false)
    | _ => false)

/-- The oldest live entry freed, HORIZON raised to the stamp of the version that superseded it (R172). -/
def State.freeOldest (s : State) (part : Nat) : State :=
  match (s.part part).pool.find? (fun e => !e.freed) with
  | none => s
  | some e =>
    let keep := s.asofNeeds part e.later
    s.modPart part (fun p =>
      { p with
        horizon := umax p.horizon e.later
        pool := if keep then p.pool.map (fun y => if y.num = e.num then { y with freed := true } else y)
                else p.pool.filter (fun y => y.num != e.num) })

/-- Freed entries that no as-of walk needs any more leave the pool. -/
def State.purgePool (s : State) (part : Nat) : State :=
  s.modPart part (fun p => { p with pool := p.pool.filter (fun e => !e.freed || s.asofNeeds part e.later) })

/-- Entries beyond the pool's own size, oldest first, lie in the spill area (R170). -/
def markSpill (size : Nat) (l : List HistEntry) : List HistEntry :=
  (l.zipIdx).map (fun e => { e.1 with spilled := decide (e.2 + size < l.length) })

/-- Whether making one more entry, superseded at `x`, would raise HORIZON above a hold in force (R173). -/
def State.wouldStall (s : State) (part : Nat) (x : Dword) : Bool :=
  let p := s.part part
  if p.hold = 0 || p.live < p.cap then false
  else
    let later := match p.pool.find? (fun e => !e.freed) with | some e => if p.cap = 0 then x else e.later | none => x
    decide (p.horizon.toNat ≤ p.hold.toNat) && decide (p.hold.toNat < later.toNat)

/-- The history entry of a write to a historied line, made before the data is written, and the line's new stamp (R169). -/
def State.makeEntry (s : State) (part pa : Nat) (x : Dword) : State :=
  let line := lineOf pa
  let m := (Tab.find s.lineMeta line).getD { stamp := 0, link := none, cut := false }
  let p := s.part part
  let e : HistEntry :=
    { num := p.poolNext, data := s.mem.bytes (line * 64) 64, stamp := m.stamp, line := line, link := m.link, part := part,
      colour := p.colour, later := x, spilled := false, poisoned := s.poison.contains line, freed := false }
  let s := s.purgePool part
  let s := s.modPart part (fun p => { p with pool := p.pool ++ [e], poolNext := p.poolNext + 1 })
  let s := if (s.part part).cap < (s.part part).live then s.freeOldest part else s
  let s := s.modPart part (fun p => { p with pool := markSpill p.poolSize p.pool })
  { s with lineMeta := Tab.put s.lineMeta line { stamp := x, link := some e.num, cut := m.cut } }

/-- What a write does to a line's history metadata: an entry on a historied page; on another page the chain of a line that has
metadata is cut (R169). -/
def State.noteHistory (s : State) (part pa : Nat) (hist : Bool) (x : Dword) : State :=
  if hist then s.makeEntry part pa x
  else
    match Tab.find s.lineMeta (lineOf pa) with
    | none => s
    | some _ => { s with lineMeta := Tab.put s.lineMeta (lineOf pa) { stamp := x, link := none, cut := true } }

/-- The entry of a number in a pool. -/
def entryOf (pool : List HistEntry) (n : Nat) : Option HistEntry := pool.find? (fun e => e.num == n)

/-- How an as-of walk ends: the bytes of the version and its stamp, or no version, or an uncorrectable error (R171). -/
inductive AsofEnd where
  | found (data : List Byte) (stamp : Dword)
  | gone
  | ue
deriving DecidableEq, Repr

/-- The walk of a chain from a link (R171). -/
def walkChain (pool : List HistEntry) (st : Dword) : Nat → Option Nat → AsofEnd
  | 0, _ => .gone
  | n + 1, link =>
    match link.bind (entryOf pool) with
    | none => .gone
    | some e =>
      if e.poisoned then .ue
      else if e.stamp.toNat ≤ st.toNat then .found e.data e.stamp
      else walkChain pool st n e.link

/-- The line that holds a line's data: of a frame whose chains have moved, and whose data has not yet, the old frame's (R241). -/
def State.dataLine (s : State) (line : Nat) : Nat :=
  match s.migrations.find? (fun m => m.new / 65536 == line / 1024 && m.stage == 2) with
  | some m => m.old / 65536 * 1024 + line % 1024
  | none => line

/-- The version of a line with the greatest stamp at or below S (R151, R168, R171). -/
def State.asofLine (s : State) (part line : Nat) (st : Dword) : AsofEnd :=
  let m := (Tab.find s.lineMeta line).getD { stamp := 0, link := none, cut := false }
  if m.stamp.toNat ≤ st.toNat then
    (if s.poison.contains (s.dataLine line) then .ue else .found (s.mem.bytes (s.dataLine line * 64) 64) m.stamp)
  else walkChain (s.part part).pool st ((s.part part).pool.length + 1) m.link

/-! ### Writes at the home slice -/

/-- The bytes of one line written, poison cleared by a write of the whole line (R194). -/
def State.putBytes (s : State) (pa : Nat) (data : List Byte) : State :=
  { s with
    mem := s.mem.puts pa data
    poison := if pa % 64 = 0 && decide (64 ≤ data.length) then s.poison.filter (fun l => l != lineOf pa) else s.poison }

/-- A store of bytes within one line committed at its home slice: stamp, history, data (R149, R169). -/
def State.commitStore (s : State) (part pa : Nat) (hist : Bool) (floor : Dword) (data : List Byte) : State × Dword :=
  let (s, x) := s.assignStamp (homeSlice pa) floor
  ((s.noteHistory part pa hist x).putBytes pa data, x)

/-! ### Atomic operations (Table 10.4, R203, R205) -/

/-- m′ of an atomic on operands of 4 bytes, or 8 when `w64`. -/
def atomNew (op : AtomOp) (w64 signed : Bool) (m x cmp : Dword) : Dword :=
  let wide : Dword → Dword := fun v => if w64 then v else (v.setWidth 32).setWidth 64
  let sext : Dword → Dword := fun v => if w64 then v else (v.setWidth 32).signExtend 64
  let m := wide m
  let x := wide x
  let less := if signed then (sext m).slt (sext x) else m.ult x
  wide (match op with
    | .add => m + x
    | .min => if less then m else x
    | .max => if less then x else m
    | .and => m &&& x
    | .or => m ||| x
    | .xor => m ^^^ x
    | .xchg => x
    | .cas => if m = wide cmp then x else m
    | .fadd => BitVec.ofNat 64 (b32.add FEnv.ne m.toNat x.toNat).1
    | .dadd => BitVec.ofNat 64 (b64.add FEnv.ne m.toNat x.toNat).1)

/-- The bytes of an atomic access. -/
def atomBytes (w64 : Bool) : Nat := if w64 then 8 else 4

/-- A read and write of memory for an atomic, committed at the home slice even when no byte changes (R204); answers the old
value and the stamp. -/
def State.commitAtomic (s : State) (part pa : Nat) (hist : Bool) (floor : Dword) (n : Nat) (f : Dword → Dword) :
    State × Dword × Dword :=
  let m : Dword := BitVec.ofNat 64 (s.mem.nat pa n)
  let r := s.commitStore part pa hist floor (leBytes (f m).toNat n)
  (r.1, m, r.2)

/-! ### Loads at the home slice (Table 9.6) -/

/-- The value that the response of a load read at the slice carries. -/
def State.readCarries (s : State) (pa : Nat) : Dword :=
  match Tab.find s.lineMeta (lineOf pa) with
  | some m => m.stamp
  | none => (s.slice (homeSlice pa)).last

/-- Bytes read as a load's words (Table 10.3): one word, extended, or the words in order. -/
def loadWords (bytes : Nat) (signed : Bool) (l : List Byte) : List Word :=
  let x := leNat l
  if bytes = 1 then [if signed then (BitVec.ofNat 8 x).signExtend 32 else BitVec.ofNat 32 x]
  else if bytes = 2 then [if signed then (BitVec.ofNat 16 x).signExtend 32 else BitVec.ofNat 32 x]
  else wordsOf l

/-! ### The L1 (R160, Table 9.4) -/

/-- The lines of an L1: 128 KiB of 64 bytes. -/
def l1Cap : Nat := 2048

/-- The line of a core's L1 that holds an address. -/
def Core.l1Find (c : Core) (pa : Nat) : Option L1Line := c.l1.find? (fun l => l.line == lineOf pa)

/-- A core without a line in its L1. -/
def Core.l1Drop (c : Core) (pa : Nat) : Core := { c with l1 := c.l1.filter (fun l => l.line != lineOf pa) }

/-- A list of L1 lines with one at the lowest retention, or at the highest. -/
def l1Insert (low : Bool) (x : L1Line) (l : List L1Line) : List L1Line :=
  if low then l.take (l1Cap - 1) ++ [x] else (x :: l).take l1Cap

/-- A core with a line read at the slice: a new line when the access allocates, at the lowest retention under stream (Table 9.4), and a
present one refreshed in its place (R160). -/
def State.l1Fill (s : State) (core pa : Nat) (alloc : Option Cache) (carried : Dword) : State :=
  let new : L1Line := { line := lineOf pa, data := s.mem.bytes (lineOf pa * 64) 64, carried := carried }
  s.modCore core (fun c =>
    match alloc with
    | some h => { c with l1 := l1Insert (h == .strm) new (c.l1Drop pa).l1 }
    | none => { c with l1 := c.l1.map (fun l => if l.line = lineOf pa then new else l) })

/-- The lines of one bank of an L2 slice: 64 KiB of 64 bytes. -/
def l2Cap : Nat := 1024

/-- A line of a partition's access allocated in its bank of the L2 (R159, Table 9.4), unless the page is one of no allocation. -/
def State.l2Fill (s : State) (part pa page : Nat) : State :=
  if page = 2 then s
  else
    let k := homeSlice pa * 8 + bankOf (s.part part).colour pa
    { s with l2 := Tab.put s.l2 k ((lineOf pa :: ((Tab.find s.l2 k).getD []).filter (fun l => l != lineOf pa)).take l2Cap) }

/-- The whole L1 of a core invalidated. -/
def State.l1Clear (s : State) (core : Nat) : State := s.modCore core (fun c => { c with l1 := [] })

/-- What a committed store does to the storing core's copy of its line: updates it under keep and write-through, and invalidates
it otherwise. -/
def State.l1Store (s : State) (core pa : Nat) (hint : Cache) (page : Nat) (data : List Byte) : State :=
  s.modCore core (fun c =>
    if page = 0 && (hint == .keep || hint == .wt) then
      { c with l1 := c.l1.map (fun l =>
          if l.line = lineOf pa then
            { l with data := l.data.take (pa % 64) ++ data ++ l.data.drop (pa % 64 + data.length) }
          else l) }
    else c.l1Drop pa)

/-- Whether a load's hint allocates a line, given the page's CACHE code. -/
def hintAllocs (hint : Cache) (page : Nat) : Bool := page == 0 && hint != .l2

/-- The hint under which a load that reads at the slice allocates in L1, when it does (Table 9.4). -/
def Req.l1Hint (r : Req) : Option Cache :=
  if r.place == .global && !r.acq && !r.attrs.sc && hintAllocs r.hint r.attrs.cache then some r.hint else none

/-! ### Scratchpads (R182) -/

/-- A core's scratchpad written; bytes of an arrival word written over no longer show its final update. -/
def State.scratchPut (s : State) (core a : Nat) (data : List Byte) : State :=
  s.modCore core (fun c =>
    { c with scratch := c.scratch.puts a data
             arrived := c.arrived.filter (fun e => e.1 < a || a + data.length ≤ e.1) })

/-- Bytes of a core's scratchpad. -/
def State.scratchGet (s : State) (core a n : Nat) : List Byte := (s.core core).scratch.bytes a n

/-- The greatest stamp that an acquire load of scratchpad bytes carries: that of an arrival word's final update (Table 9.6). -/
def State.arrivalFloor (s : State) (core a n : Nat) : Option Dword :=
  match ((s.core core).arrived.filter (fun e => a ≤ e.1 && e.1 < a + n && e.2.2)).map (fun e => e.2.1) with
  | [] => none
  | x :: rest => some (rest.foldl umax x)

/-- An engine's update of an arrival word's eight bytes: `final` when REMAIN becomes 0 or ERR is set; `floor` is the greatest
stamp of the operation's global stores (R183). -/
def State.arrivalPut (s : State) (core a : Nat) (value : Dword) (floor : Dword) (final : Bool) : State :=
  let old := (s.core core).arrived.filter (fun e => a ≤ e.1 && e.1 < a + 8)
  let f := old.foldl (fun m e => umax m e.2.1) floor
  let fin := final || old.any (fun e => e.2.2)
  (s.scratchPut core a (leBytes value.toNat 8)).modCore core (fun c =>
    { c with arrived := (List.range 8).foldl (fun t i => Tab.put t (a + i) (f, fin)) c.arrived })

/-! ### Range locks (R185, R186) -/

/-- Whether a lock covers some byte of an access. -/
def Lock.covers (l : Lock) (sp : LockSpace) (lo n : Nat) : Bool := l.space == sp && decide (l.lo < lo + n) && decide (lo < l.hi)

/-- Whether an access of a core's own thread meets a range lock (Table 9.10). -/
def Core.locked (c : Core) (sp : LockSpace) (lo n : Nat) (write : Bool) : Bool :=
  c.locks.any (fun l => l.covers sp lo n && (write || l.dst))

/-- The space of a context's global ranges. -/
def Xlat.lockSpace (x : Xlat) : LockSpace := .global x.part x.vf x.asid

/-- Operations marked as hit: they end with ERR = 3 (R185, R186). -/
def State.hitOps (s : State) (hit : List Nat) : State :=
  { s with cores := s.cores.map (fun e =>
      (e.1,
       { e.2 with
         copy := if (e.2.copy.queue.head?.map (fun q => hit.contains q.op)).getD false && e.2.copy.running
           then { e.2.copy with hit := true } else e.2.copy
         mat := e.2.mat.map (fun m => if hit.contains m.op then { m with hit := true } else m)
         waffle := if (e.2.waffle.queue.head?.map (fun q => hit.contains q.op)).getD false
           then { e.2.waffle with hit := true } else e.2.waffle })) }

/-- A write that arrives at a core from another core: discarded when it reaches a locked range, whose operation then ends with an
error (R186). `hit` says which operations. -/
def State.remotePut (s : State) (core a : Nat) (data : List Byte) : State :=
  let hit := ((s.core core).locks.filter (fun l => l.covers .scratch a data.length)).map Lock.op
  if hit.isEmpty then s.scratchPut core a data else s.hitOps hit

end Sys2Proof.Machine
end

