-- ==== Sys2Proof/Machine/Red.lean ====
section
/-! DEFINITION. Redundant execution (spec/18 R319 to R322): the twin of a thread in the other copy, signatures, held stores, and
the closing of windows. -/

namespace Sys2Proof.Machine

/-! ### Copies -/

/-- Whether a warp belongs to a redundant launch, and whether it is the shadow copy. -/
def State.redCopy (s : State) (w : Nat) : Option Bool :=
  match s.launchOf w, s.blockOf w with
  | some l, some b => if l.rcd.red then some b.shadow else none
  | _, _ => none

/-- The block of the other copy. -/
def State.twinBlock (s : State) (b : Nat) : Option Nat :=
  match Tab.find s.blocks b with
  | none => none
  | some x =>
    match Tab.find s.groups x.group with
    | none => none
    | some g => (g.partner.bind (fun q => Tab.find s.groups q)).bind (fun h =>
        h.blocks.find? (fun y => ((Tab.find s.blocks y).map (fun z => z.id == x.id)).getD false))

/-- The thread of the other copy with the same place. -/
def State.twin (s : State) (t : TKey) : Option TKey :=
  match Tab.find s.warps t.warp with
  | none => none
  | some w =>
    match (s.twinBlock w.block).bind (fun b => Tab.find s.blocks b) with
    | none => none
    | some y => (y.warps.find? (fun v => ((Tab.find s.warps v).map (fun z => z.num == w.num)).getD false)).map (fun v => ⟨v, t.slot⟩)

/-! ### Signatures (R320) -/

/-- One bit of CRC-64/ECMA-182. -/
def crcBit (c : Dword) : Dword := if c.getLsbD 63 then (c <<< 1) ^^^ 0x42F0E1EBA9EA3693 else c <<< 1

/-- One byte of CRC-64/ECMA-182. -/
def crcByte (c : Dword) (b : Byte) : Dword :=
  (List.range 8).foldl (fun x _ => crcBit x) (c ^^^ ((b.setWidth 64) <<< 56))

/-- A signature fed with the bytes of a record. -/
def crcFeed (c : Dword) (l : List Byte) : Dword := l.foldl crcByte c

/-- The record of a store or atomic (R320): address, size with bit 7 for an atomic, data or operands. -/
def redRecord (ea : Dword) (size : Nat) (atomic : Bool) (data : List Byte) : List Byte :=
  leBytes ea.toNat 8 ++ [BitVec.ofNat 8 (size + (if atomic then 128 else 0))] ++ data

/-- A thread with a record in its window. -/
def Thread.redFeed (t : Thread) (rec : List Byte) (store : Bool) : Thread :=
  { t with sig := crcFeed t.sig rec, records := t.records + 1, stores := if store then t.stores + 1 else t.stores }

/-! ### Windows (R321) -/

/-- A thread's window closed at a word. -/
def State.redClose (s : State) (t : TKey) (tpc : Dword) (barrier : Option Nat) (forced : Bool) : State :=
  match Tab.find s.warps t.warp, s.thread t, s.redCopy t.warp with
  | some w, some th, some sh =>
    { s.modThread t (fun x => { x with sig := 0, records := 0, stores := 0 }) with
      redWindows := s.redWindows ++
        [{ thread := t, block := w.block, sig := th.sig, records := th.records, tpc := tpc, shadow := sh, barrier := barrier,
           order := s.uid, forced := forced }] }
  | _, _, _ => s

/-- The shadow of a window that a full buffer forced closes its own at the same count of records (Table 18.5). -/
def State.redForced (s : State) (t : TKey) : State :=
  match s.redCopy t.warp, s.twin t, s.thread t with
  | some true, some q, some th =>
    let forced := fun (k : TKey) => s.redWindows.filter (fun w => w.thread == k && w.forced)
    if (((forced q).drop (forced t).length).head?).any (fun w => w.records == th.records) then s.redClose t th.pos.addr none true
    else s
  | _, _, _ => s

/-- The windows closed, as by a full buffer (Table 18.5), of threads with held stores that satisfy a test, so that those come to commit: each
at its thread's current count, and at once in the shadow where that has come to the same count. `place` gives the word of a thread in the
middle of one; any other stands before its next word. -/
def State.closeHeld (s : State) (f : Req → Bool) (place : TKey → Option Dword) : State :=
  let ts := ((s.reqs.filter (fun r => r.stage == .held && f r)).flatMap (fun r => r.parts.map Part.thread)).eraseDups
  ts.foldl (fun s t =>
    match s.thread t with
    | some th =>
      if 0 < th.records then
        let s := s.redClose t ((place t).getD th.pos.addr) none true
        match s.twin t with | some q => s.redForced q | none => s
      else s
    | none => s) s

/-- What a redundant thread does before a word that closes its window: close it and wait; go on waiting; or pass. A thread of a
launch that is not redundant passes. -/
inductive Gate where
  | pass
  | wait
  | close
deriving DecidableEq, Repr

/-- The gate of a thread at a word that closes its window. -/
def State.redGate (s : State) (t : TKey) : Gate :=
  match s.redCopy t.warp, s.thread t with
  | some _, some th => if th.cleared then .pass else if th.window then .wait else .close
  | _, _ => .pass

/-- The state once every thread of a list that must has closed its window, and whether all may pass. -/
def State.redPass (s : State) (ts : List TKey) (tpc : Dword) : State × Bool :=
  ts.foldl (fun (acc : State × Bool) t =>
    match acc.1.redGate t with
    | .pass => acc
    | .wait => (acc.1, false)
    | .close => ((acc.1.redClose t tpc none false).modThread t (fun x => { x with window := true }), false)) (s, true)

/-- Threads of a redundant launch that went through their gate need it again at their next such word. -/
def State.redThrough (s : State) (ts : List TKey) : State :=
  ts.foldl (fun s t => if (s.redCopy t.warp).isNone then s else s.modThread t (fun x => { x with cleared := false })) s

/-- Whether the shadow's copy of a thread must wait before its next global access: the primary has not issued that access yet
(R319). -/
def State.redBehind (s : State) (t : TKey) : Bool :=
  match s.redCopy t.warp, s.twin t with
  | some true, some q =>
    match s.thread t, s.thread q with
    | some th, some pr => decide (pr.accesses ≤ th.accesses)
    | _, _ => false
  | _, _ => false

/-- The record that the primary's access has left for the shadow. -/
def State.redValue (s : State) (t : TKey) (access : Nat) : Option RedVal :=
  (s.twin t).bind (fun q => s.redVals.find? (fun v => v.thread == q && v.access == access))

/-- Whether a request belongs to the shadow copy of a redundant launch. -/
def State.reqShadow (s : State) (r : Req) : Bool := (r.parts.head?.bind (fun q => s.redCopy q.thread.warp)) == some true

/-- Whether a request belongs to a redundant launch. -/
def State.reqRed (s : State) (r : Req) : Bool := (r.parts.head?.bind (fun q => s.redCopy q.thread.warp)).isSome

/-- Whether a request is a global store that has not committed; every one of a redundant launch comes from its write buffer. -/
def Req.storeDue (r : Req) : Bool :=
  r.place == .global && (match r.kind with | .store _ | .stamped _ => true | _ => false)
    && (match r.stage with | .held | .sent | .stalled _ => true | _ => false)

/-- The bytes held in the write buffer of a cluster group. -/
def State.heldBytes (s : State) (launch core : Nat) : Nat :=
  (s.reqs.filter (fun r => r.launch == launch && r.core / Config.coresPerCluster == core / Config.coresPerCluster
      && r.stage == .held)).foldl
    (fun n r => n + (match r.kind with | .store d | .stamped d => d.length | _ => 0)) 0

/-- A group's stores that have not committed: held, or past their window's match and on their way. -/
def State.groupStores (s : State) (launch core : Nat) : List Req :=
  s.reqs.filter (fun r => r.launch == launch && r.core / Config.coresPerCluster == core / Config.coresPerCluster && r.storeDue)

/-- Bytes read from memory with the group's held stores laid over them in order, also once they are on their way (Table 18.4). -/
def State.heldOver (s : State) (launch core pa : Nat) (data : List Byte) : List Byte :=
  (s.groupStores launch core).foldl
    (fun l r =>
      match r.kind with
      | .store d | .stamped d =>
        (l.zipIdx).map (fun e =>
          if r.pa ≤ pa + e.2 && pa + e.2 < r.pa + d.length then d.getD (pa + e.2 - r.pa) e.1 else e.1)
      | _ => l) data

end Sys2Proof.Machine
end

