-- ==== Sys2Proof/Machine/Lsu.lean ====
section
/-! DEFINITION. The lane's load-store unit (spec/10, spec/11): modifiers, the checks of Table 10.2, translation and parking of a
pass, the sending of requests with aggregation, and what a request does at a scratchpad. -/

namespace Sys2Proof.Machine

/-! ### Modifiers (R190) -/

/-- The modifiers of a MEM word after CTX.MDEF. `ctr` 7 is no counter. -/
structure Mods where
  ord : Order
  space : Space
  cache : Cache
  ctr : Nat
  noagg : Bool
deriving DecidableEq, Repr

/-- Whether a word's row of Table 10.1 lists an ORD. -/
def ordListed (k : MmK) (o : Order) : Bool :=
  match k, o with
  | _, .plain => true
  | .ld, .acq | .st, .rel | .sts, .rel => true
  | .at, _ | .atS, _ | .af, _ => true
  | _, _ => false

/-- Whether a word's row lists a SPACE. -/
def spaceListed (k : MmK) (x : Space) : Bool :=
  match k with
  | .ld | .st | .at | .atS | .af => true
  | .pf => x == .glb || x == .own || x == .clw
  | _ => x == .glb

/-- The modifiers of a word from its MEMMOD literal, CTX.MDEF and its class default counter. -/
def modsOf (mm : Option MemMod) (mdef : Word) (k : MmK) (dflt : Nat) : Mods :=
  let dOrd := ((Order.ofCode (mdef.extractLsb' 0 3).toNat).join).getD .plain
  let dSpace := ((Space.ofCode (mdef.extractLsb' 6 3).toNat).join).getD .glb
  let dCache := ((Cache.ofCode (mdef.extractLsb' 9 3).toNat).join).getD .keep
  let ord := (mm.bind MemMod.ord).getD dOrd
  let space := (mm.bind MemMod.space).getD dSpace
  let c := ((mm.map MemMod.ctr).getD 6).toNat
  { ord := if ordListed k ord then ord else .plain, space := if spaceListed k space then space else .glb,
    cache := (mm.bind MemMod.cache).getD dCache, ctr := if c = 6 then dflt else c,
    noagg := (mm.map MemMod.noagg).getD false }

/-! ### What a MEM word is -/

/-- The kind of a MEM word with an address. -/
inductive MKind where
  | load (bytes : Nat) (signed : Bool)
  | store (bytes : Nat)
  | stamped (bytes : Nat)
  | asof (bytes : Nat)
  | atomic (op : AtomOp) (w64 signed : Bool)
  | lstamp
deriving DecidableEq, Repr

/-- A MEM word with an address: A, offset, D as data or operand, B as as-of stamp or new value, and the destination. -/
structure MWord where
  h : Hd
  mm : Option MemMod
  row : MmK
  dflt : Nat
  a : Src
  off : Src
  data : Src
  extra : Src
  dst : Option (Sel × Nat)
  kind : MKind
deriving DecidableEq, Repr

/-- The bytes a word accesses. -/
def MKind.bytes : MKind → Nat
  | .load n _ | .store n | .stamped n | .asof n => n
  | .atomic _ w _ => atomBytes w
  | .lstamp => 1

/-- Whether a word writes memory. -/
def MKind.writes : MKind → Bool
  | .store _ | .stamped _ | .atomic _ _ _ => true
  | _ => false

/-- Whether a word takes global addresses alone (R199, R200, R209). -/
def MKind.globalOnly : MKind → Bool
  | .stamped _ | .asof _ | .lstamp => true
  | _ => false

/-- Whether a word is an atomic. -/
def MKind.isAtomic : MKind → Bool
  | .atomic _ _ _ => true
  | _ => false

/-- TYPE of a page request (Table 12.4). -/
def MKind.pageKind : MKind → Nat
  | .store _ | .stamped _ => 1
  | .atomic _ _ _ => 2
  | _ => 0

/-! ### Checks of one thread (Table 10.2) -/

/-- A thread's access once steps 1 to 5 have passed. `va` is the address to translate; `spot` the scratchpad byte and whether it
lies in an area; `len` how many bytes of the access the parameter space backs, and `pa2` where those beyond a page's end lie. -/
structure MPlan where
  c : TCtx
  ea : Dword
  target : Target
  dst : List Nat
  data : List Byte
  x : Dword
  cmp : Dword
  va : Option Nat
  spot : Option (Nat × Nat × Bool)
  len : Nat
  pa2 : Nat
deriving DecidableEq, Repr

/-- What a parameter-space offset reads: the virtual address, if any, and how many bytes of the access it backs (Table 9.2). -/
def paramVa (l : Launch) (off n : Nat) : Option Nat × Nat :=
  if off < 0x100 then (some ((l.recAddr + BitVec.ofNat 64 off).toNat), n)
  else if off < 0x1100 then
    let o := off - 0x100
    if l.payLen ≤ o then (none, 0) else (some ((l.payAddr + BitVec.ofNat 64 o).toNat), min n (l.payLen - o))
  else (some ((l.rcd.args + BitVec.ofNat 64 (off - 0x1100)).toNat), n)

/-- Steps 2 to 5 of Table 10.2. -/
def State.addrCheck (s : State) (c : TCtx) (k : MKind) (sp : Space) (ea : Dword) :
    Except TrapInfo (Target × Option (Nat × Nat × Bool) × Option Nat × Nat) :=
  let core := c.p.core
  let n := k.bytes
  let bad := Except.error (TrapInfo.at_ .addrInvalid ea)
  let t := decodeAddr sp ea
  let spot := match t with | .own _ | .clw _ _ | .mir _ _ => s.scratchPlace c.w.block core c.p.rcd t | _ => none
  let ok : Bool := match t with
    | .glb _ => true
    | .own _ | .clw _ _ => spot.isSome && !k.globalOnly
    | .mir _ _ => spot.isSome && !k.globalOnly && !k.isAtomic
    | .par o => !k.globalOnly && decide (o < 0x11100)
    | .bad => false
  if !ok then bad
  else if ea.toNat % n ≠ 0 then .error (TrapInfo.at_ .misaligned ea)
  else if k.writes && (match t with | .par _ => true | _ => false) then .error (TrapInfo.at_ .permission ea)
  else
    let l := Tab.find s.launches c.p.launch
    let locked := match t, spot, l with
      | .glb va, _, some l => (s.core core).locked l.xlat.lockSpace va n k.writes
      | .par o, _, some l =>
        (paramVa l o n).1.any (fun va => (s.core core).locked l.xlat.lockSpace va (paramVa l o n).2 false)
      | _, some (q, a, true), _ => q == core && (s.core core).locked .scratch a n k.writes
      | _, _, _ => false
    if locked then .error (TrapInfo.at_ .rangeLock ea)
    else
      match t, l with
      | .glb va, _ => .ok (t, spot, some va, n)
      | .par o, some l => .ok (t, spot, (paramVa l o n).1, (paramVa l o n).2)
      | _, _ => .ok (t, spot, none, n)

/-- The data bytes of `n` that words hold. -/
def dataBytes (ws : List Word) (n : Nat) : List Byte := leBytes (wordsNat ws) n

/-- Steps 1 to 5 of Table 10.2 for a thread. -/
def State.memPlan (s : State) (c : TCtx) (m : MWord) (mods : Mods) : Except TrapInfo MPlan :=
  match c.read 0 m.a with
  | .error e => .error e
  | .ok a =>
    match c.read 1 m.off with
    | .error e => .error e
    | .ok off =>
      match c.read 1 m.extra with
      | .error e => .error e
      | .ok ex =>
        match c.read 2 m.data with
        | .error e => .error e
        | .ok d =>
          match c.dest m.dst with
          | .error e => .error e
          | .ok locs =>
            match c.writeCheck locs with
            | some e => .error e
            | none =>
              let ea := dwordOf a + offsetOf off
              match s.addrCheck c m.kind mods.space ea with
              | .error e => .error e
              | .ok (t, spot, va, len) =>
                let isCas : Bool := match m.kind with | .atomic .cas _ _ => true | _ => false
                .ok { c := c, ea := ea, target := t, dst := locs, data := dataBytes d m.kind.bytes,
                      x := if isCas then dwordOf ex else match m.kind with | .asof _ => dwordOf ex | _ => dwordOf d,
                      cmp := if isCas then dwordOf d else 0, va := va, spot := spot, len := len, pa2 := 0 }

/-! ### Waiting before a word issues (R160, R181, R196, R198) -/

/-- Whether a request belongs to a thread. -/
def Req.of (r : Req) (t : TKey) : Bool := r.parts.any (fun q => q.thread == t)

/-- Whether a request is a global store or atomic. -/
def Req.globalWrite (r : Req) : Bool :=
  r.place == .global && (match r.kind with | .store _ | .stamped _ | .atomic _ _ _ => true | _ => false)

/-- Whether a request is a memory access (not SETTLE, PREF or a fetch). -/
def Req.access_ (r : Req) : Bool := match r.kind with | .settle _ | .pref | .fetch => false | _ => true

/-- Whether a request is an atomic. -/
def Req.isAtomic (r : Req) : Bool := match r.kind with | .atomic _ _ _ => true | _ => false

/-- Whether a request brings a value. -/
def Req.brings (r : Req) : Bool :=
  match r.kind with | .load _ _ | .asof _ _ | .atomic _ _ _ | .lstamp => true | _ => false

/-- Whether a request is a load whose value is not there yet, as-of loads apart, which nothing waits for (R201). -/
def Req.valueDue (r : Req) : Bool :=
  r.brings && r.stage != .served && r.stage != .held && (match r.kind with | .asof _ _ => false | _ => true)

/-- Whether a thread may not issue its next access yet: an acquire without its value, or an access to an SC page that is not
complete (R181, R196). -/
def State.blocked (s : State) (t : TKey) : Bool := s.reqs.any (fun r => r.of t && r.access_ && r.stage != .held && (r.acq || r.attrs.sc))

/-- Whether a mirror store of a thread has not reached the issuing core, which it must before the thread's next access (R182). -/
def State.mirrorDue (s : State) (t : TKey) : Bool :=
  s.reqs.any (fun r => r.of t && r.stage == .sent && (match r.place with | .mirror _ _ => r.left.contains r.core | _ => false))

/-- Whether an earlier store or atomic of a thread, in any space, has no response yet (R160, R198, R274, R388); a redundant launch's
held store has had its response (R321). -/
def State.writesDue (s : State) (t : TKey) : Bool :=
  s.reqs.any (fun r => r.of t && r.stage != .held && (match r.kind with | .store _ | .stamped _ | .atomic _ _ _ => true | _ => false))

/-- Whether an earlier load of a thread has no value yet: what it returns may not depend on what comes after a barrier arrival or on an
engine's command (R177, R178, R183). -/
def State.valuesDue (s : State) (t : TKey) : Bool := s.reqs.any (fun r => r.of t && r.valueDue)

/-- Whether a request is one at a scratchpad that has not taken effect on the issuing core. -/
def Req.atOwn (r : Req) : Bool :=
  r.stage == .sent && (match r.place with | .scratch _ => true | .mirror _ _ => r.left.contains r.core | _ => false)

/-- Whether an access of a thread still waits at its own scratchpad. -/
def State.ownDue (s : State) (t : TKey) : Bool := s.reqs.any (fun r => r.of t && r.atOwn)

/-- Whether a word that itself reads, or `writes`, its core's scratchpad must wait: the thread may not issue its next access yet (R181, R196),
an earlier one waits at the own scratchpad (R182), or the word writes and an earlier load has no value yet (R178). -/
def State.accessDue (s : State) (t : TKey) (writes : Bool) : Bool := s.blocked t || s.ownDue t || (writes && s.valuesDue t)

/-- The fault of a deferred error delivered to a thread (R171, R194). -/
def Deferred.fault (d : Deferred) (issued : Nat) : TrapInfo :=
  { cause := d.cause, info := 0, addr := d.addr, stamp := d.stamp, from_ := some (d.tpc, issued - d.issued) }

/-! ### Translation of a pass (R215, R216, R225) -/

/-- A page's translation for the pass: from a walk the pass waited for, else from the TLBs, else a walk is asked for. `none`: it
is not known yet. `marks` is whether the access sets ACCESSED. -/
def State.lookPage (s : State) (p : Pass) (x : Xlat) (va : Nat) (marks : Bool) : State × Option WalkEnd :=
  match s.walks.find? (fun w => ((Tab.find s.bundles p.port).map (fun b => b.walked.contains w.id)).getD false
      && pageOf w.va == pageOf va && w.xlat == x && !w.stale) with
  | some w => (s, w.done)
  | none =>
    match s.tlbLookup p.core x va with
    | some (e, s) => (s, some (.ok e))
    | none =>
      let r := s.askWalk p.core x va marks (.bundle p.bundle)
      (r.1.modBundle p.port (fun b => { b with walked := b.walked ++ [r.2] }), none)

/-- The translations of the distinct pages of a pass. -/
def State.lookPages (s : State) (p : Pass) (x : Xlat) (vas : List Nat) (marks : Bool) : State × List (Nat × Option WalkEnd) :=
  ((vas.map pageOf).eraseDups).foldl (fun (acc : State × List (Nat × Option WalkEnd)) pg =>
    let r := acc.1.lookPage p x pg marks
    (r.1, acc.2 ++ [(pg, r.2)])) (s, [])

/-- What a held pass already knows of its pages kept for it, so that a TLB replacement does not change it (R215). -/
def State.keepPages (s : State) (p : Pass) (x : Xlat) (l : List (Nat × Option WalkEnd)) : State :=
  l.foldl (fun s e =>
    match e.2 with
    | none => s
    | some w =>
      if s.walks.any (fun y => y.waits.contains (.bundle p.bundle) && pageOf y.va == e.1 && y.xlat == x && !y.stale) then s
      else
        let kept : Walk := { id := s.uid, xlat := x, va := e.1, core := p.core, waits := [.bundle p.bundle], due := s.cycle,
                             marks := true, drops := [], done := some w }
        ({ s with uid := s.uid + 1, walks := s.walks ++ [kept] } : State).modBundle p.port
          (fun b => { b with walked := b.walked ++ [s.uid] }))
    s

/-- Where a thread's access stands after steps 6 to 8. -/
inductive MFate where
  | skip
  | fault (i : TrapInfo)
  | park (m : MPlan) (s2 : Bool) (page : Nat) (table : Bool)
  | send (m : MPlan) (e : Option TlbEntry)
deriving DecidableEq, Repr

/-- Whether an access is sent or parked. -/
def MFate.goes : MFate → Bool
  | .send _ _ | .park _ _ _ _ => true
  | _ => false

/-- Whether a store through an entry would find a leaf invalid (R223). -/
def State.dirtyMiss (s : State) (e : TlbEntry) : Bool :=
  !e.dirty && (s.mem.nat e.leaf1 8 % 2 == 0 || (e.leaf2.map (fun a => s.mem.nat a 8 % 2 == 0)).getD false)

/-- A translation fault at an address. -/
def fatalAt (s2 : Bool) (ea : Dword) : TrapInfo := TrapInfo.at_ (if s2 then .xlatS2Fatal else .xlatFatal) ea

/-- The address TADDR names for a plan's translation: the virtual address read (R155). -/
def MPlan.taddr (m : MPlan) : Dword := match m.target with | .par _ => BitVec.ofNat 64 (m.va.getD 0) | _ => m.ea

/-- The virtual pages that a plan's access lies in: two where a parameter read goes over a page's end (R155). -/
def MPlan.pages (m : MPlan) : List Nat :=
  match m.va, m.target with
  | none, _ => []
  | some va, .par _ => [pageOf va, pageOf (va + (m.len - 1))].eraseDups
  | some va, _ => [pageOf va]

/-- The fate of a plan with the translation of its second page, where it has one. -/
def State.secondPage (s : State) (x : Xlat) (pages : List (Nat × Option WalkEnd)) (f : MFate) : MFate :=
  match f with
  | .send m (some e) =>
    match m.pages with
    | [_, pg] =>
      match (pages.find? (fun e => e.1 == pg)).bind (·.2) with
      | none => .skip
      | some (.fatal s2) | some (.ue s2) => .fault (fatalAt s2 m.taddr)
      | some (.miss s2 page table) => if s.queueOff x s2 page then .fault (fatalAt s2 m.taddr) else .park m s2 page table
      | some (.ok e2) => .send { m with pa2 := e2.phys pg } (some e)
    | _ => f
  | _ => f

/-- Steps 6 to 8 of Table 10.2 for a thread. -/
def State.memFate (s : State) (k : MKind) (x : Xlat) (pages : List (Nat × Option WalkEnd)) (m : MPlan) : State × MFate :=
  match m.va with
  | none => (s, .send m none)
  | some va =>
    match (pages.find? (fun e => e.1 == pageOf va)).bind (·.2) with
    | none => (s, .skip)
    | some (.fatal s2) | some (.ue s2) => (s, .fault (fatalAt s2 m.taddr))
    | some (.miss s2 page table) =>
      if s.queueOff x s2 page then (s, .fault (fatalAt s2 m.taddr)) else (s, .park m s2 page table)
    | some (.ok e) =>
      if k.writes && !e.attrs.write then (s, .fault (TrapInfo.at_ .permission m.taddr))
      else
        match k with
        | .asof _ =>
          if decide (m.x.toNat < (s.part x.part).horizon.toNat) || !e.attrs.hist then
            (s, .fault { cause := .histGone, info := 0, addr := m.ea, stamp := m.x, from_ := none })
          else (s, .send m (some e))
        | _ =>
          if k.writes then
            match s.setDirty e va with
            | (s, none) => (s, .send m (some e))
            | (s, some (s2, page)) =>
              if s.queueOff x s2 page then (s, .fault (fatalAt s2 m.taddr)) else (s, .park m s2 page false)
          else (s, s.secondPage x pages (.send m (some e)))

/-! ### Scratchpad accesses -/

/-- The prefix operands of an aggregated group (R206). -/
def prefixes (f : Dword → Dword → Dword) : Option Dword → List Dword → List (Option Dword)
  | _, [] => []
  | acc, x :: rest => acc :: prefixes f (some (match acc with | none => x | some a => f a x)) rest

/-- The operand a group's request carries. -/
def groupOperand (f : Dword → Dword → Dword) : List Dword → Dword
  | [] => 0
  | x :: rest => rest.foldl f x

/-- The words of an atomic's old value. -/
def oldWords (w64 : Bool) (x : Dword) : List Word := if w64 then Dword.words x else [x.lo]

/-- The value that each part of an atomic's group receives from the old value (R206). -/
def groupValues (op : AtomOp) (w64 signed : Bool) (m : Dword) (parts : List Part) : List Part :=
  parts.map (fun q => { q with value := oldWords w64 (match q.pre with | none => m | some y => atomNew op w64 signed m y q.cmp) })

/-- What an atomic request makes of memory. -/
def groupNew (op : AtomOp) (w64 signed : Bool) (parts : List Part) (m : Dword) : Dword :=
  let cmp := (parts.head?.map Part.cmp).getD 0
  atomNew op w64 signed m (groupOperand (fun a b => atomNew op w64 signed a b cmp) (parts.map Part.x)) cmp

/-- A request served at a scratchpad byte of a core: its writes made, its values read. Writes from another core meet that core's
range locks (R186). -/
def State.serveScratch (s : State) (r : Req) (core a : Nat) : State × Req :=
  let put := fun (s : State) (d : List Byte) => if core = r.core then s.scratchPut core a d else s.remotePut core a d
  match r.kind with
  | .load n sg =>
    let v := loadWords n sg (s.scratchGet core a n)
    (if r.acq then s.l1Clear r.core else s,
     { r with parts := r.parts.map (fun q => { q with value := v }), raise := if r.acq then s.arrivalFloor core a n else none,
              stage := .served })
  | .store d | .stamped d => (put s d, { r with stage := .served })
  | .atomic op w64 sg =>
    let m : Dword := BitVec.ofNat 64 (leNat (s.scratchGet core a (atomBytes w64)))
    let x := groupNew op w64 sg r.parts m
    let s := put s (leBytes x.toNat (atomBytes w64))
    (if r.acq then s.l1Clear r.core else s, { r with parts := groupValues op w64 sg m r.parts, stage := .served })
  | _ => (s, { r with stage := .served })

/-! ### Sending (R188, R192, R206) -/

/-- The delays with which the default schedule lets requests and responses come about (log 8). -/
def nearDelay : Nat := 30

/-- The delay of a request to a slice. -/
def farDelay : Nat := 160

/-- Whether a load may be served from the core's L1 (R160, Table 9.4): a plain load of a page and hint that allow it, the line
present, no store or atomic of the core, nor one of its redundant group, to the line on its way, and no earlier load of its threads
from the line either (R177). A shadow copy takes the primary's value instead (R319). -/
def State.l1Serves (s : State) (core pa : Nat) (at_ : Attrs) (mods : Mods) (ts : List TKey) : Option L1Line :=
  if s.reqs.any (fun r => r.place == .global && r.valueDue && lineOf r.pa == lineOf pa && ts.any r.of) then none
  else if mods.ord != .plain || at_.sc || !hintAllocs mods.cache at_.cache then none
  else if ts.any (fun t => s.redCopy t.warp == some true) then none
  else if s.reqs.any (fun r => (r.core == core || (s.reqRed r && r.core / Config.coresPerCluster == core / Config.coresPerCluster))
      && r.globalWrite && lineOf r.pa == lineOf pa && r.stage != .served) then none
  else (s.core core).l1Find pa

/-- The translation of a launch that is gone. -/
def Xlat.none : Xlat := { part := 0, vf := 0, asid := 0, s1root := 0, s2root := 0 }

/-- Attributes of an access that is not translated. -/
def Attrs.none : Attrs := { cache := 0, sa := false, sc := false, hist := false, write := true, exec := false }

/-- The kind of a request from its word and its thread's plan. -/
def MKind.req (k : MKind) (m : MPlan) : ReqKind :=
  match k with
  | .load n sg => .load n sg
  | .store _ => .store m.data
  | .stamped _ => .stamped m.data
  | .asof n => .asof n m.x
  | .atomic op w sg => .atomic op w sg
  | .lstamp => .lstamp

/-- Where a plan's request goes. -/
def State.placeOf (s : State) (launch core : Nat) (shadow : Bool) (m : MPlan) : Place :=
  match m.target, m.spot with
  | .glb _, _ => .global
  | .par _, _ => .param m.len
  | .mir w _, _ =>
    match ((Tab.find s.launches launch).bind (fun l => l.rcd.window w)) with
    | none => .scratch core
    | some x => .mirror w ((s.mirrorCores launch x shadow).filter (· != core))
  | _, some (q, _, _) => if q = core then .scratch core else .cluster q
  | _, none => .scratch core

/-- A request of a group of plans: the first plan's address, one part for each thread. It carries the warp's FLOOR at the slot (R149), and
not less than the stamps of what its threads have committed before, since those happen before it (R164; DEDUCED, log 27). -/
def State.mkReq (s : State) (p : Pass) (mw : MWord) (mods : Mods) (base : Nat) (shadow : Bool) (e : Option TlbEntry)
    (ms : List MPlan) (stage : Stage) : Option Req :=
  match ms with
  | [] => none
  | m :: _ =>
    let k := mw.kind.req m
    let f := fun (a b : Dword) => match mw.kind with | .atomic op w sg => atomNew op w sg a b m.cmp | _ => b
    let pres := prefixes f none (ms.map MPlan.x)
    let gen := ((Tab.find s.launches p.launch).map Launch.gen).getD 0
    let xlat := ((Tab.find s.launches p.launch).map Launch.xlat).getD Xlat.none
    let floor := ms.foldl (fun fl y => umax (umax fl (y.c.w.floorFor p.bundle y.c.slot)) y.c.th.wrote) 0
    let pa := match e, m.va with | some e, some va => e.phys va | _, _ => (m.spot.map (fun x => x.2.1)).getD 0
    let wr := mw.kind.writes
    some
      { id := base + 32 + m.c.j, launch := p.launch, gen := gen, core := p.core, lane := p.lane,
        word := p.wordId base m.c.key.warp, tpc := p.tpc, kind := k, place := s.placeOf p.launch p.core shadow m,
        va := m.taddr, xlat := xlat, tlb := e, pa := pa, pa2 := m.pa2, attrs := (e.map TlbEntry.attrs).getD Attrs.none, hint := mods.cache,
        acq := (mods.ord == .acq || mods.ord == .acqRel) && (!wr || mw.kind.isAtomic), rel := mods.ord == .rel || mods.ord == .acqRel,
        ctr := mods.ctr, floor := floor,
        parts := (ms.zip pres).map (fun y =>
          { thread := y.1.c.key, dst := y.1.dst, x := y.1.x, cmp := y.1.cmp, pre := y.2, access := y.1.c.th.accesses,
            word := p.wordId base y.1.c.key.warp, value := [] }),
        sdst := none, order := base + 32 + m.c.j, slice := homeSlice pa, stage := stage,
        due := m.c.slot + (match m.target with | .glb _ | .par _ => farDelay | _ => nearDelay), stamp := 0, raise := none, ue := false,
        gone := false, issued := ms.map (fun y => y.c.th.issued + 1),
        killA := ms.map (fun y => if mw.h.k then y.c.markLocs mw.a else []),
        left := [] }

/-- A load of parameter space: the bytes past its backing read as zero (Table 9.2). -/
def cutBytes (len : Nat) (l : List Byte) : List Byte := (l.zipIdx).map (fun e => if e.2 < len then e.1 else 0)

/-- Whether a request goes to a mirror window. -/
def Req.mirrored (r : Req) : Bool := match r.place with | .mirror _ _ => true | _ => false

/-- Whether an earlier request is one that a later one of its core and lane must follow at the same scratchpad whatever their threads:
two atomics of one word at one address, which take effect in pass order (R205), and two mirror stores, which take effect in source
order (R182). -/
def Req.leads (y r : Req) : Bool :=
  y.id != r.id && y.core == r.core && decide (y.order < r.order) && y.stage == .sent
    && ((y.place == r.place && y.pa == r.pa && y.tpc == r.tpc && y.lane == r.lane && y.isAtomic && r.isAtomic)
      || (y.mirrored && r.mirrored && y.left.contains r.core))

/-- Whether a request at the issuing core's scratchpad must wait for its effect: a store or atomic behind a load of its thread that
has no value yet (R178), any access behind one of its thread that waits so (R182), or one that another leads. -/
def State.ownWaits (s : State) (r : Req) : Bool :=
  let w : Bool := match r.kind with | .store _ | .stamped _ | .atomic _ _ _ => true | _ => false
  s.reqs.any (fun y => y.leads r || (r.parts.any (fun q => y.of q.thread) && (y.atOwn || (w && y.valueDue))))

/-- A load served with values that need no access, as an acquire invalidating the L1 first (R160). -/
def State.serveValue (s : State) (r : Req) (value : Part → List Word) (raise : Option Dword) (due : Nat) : State × Req :=
  (if r.acq then s.l1Clear r.core else s,
   { r with parts := r.parts.map (fun q => { q with value := value q }), raise := raise, stage := .served, due := due })

/-- A load of a mirror window at the issuing core, whose bytes beyond the area are free values (R301, log 7). -/
def State.serveMirror (s : State) (r : Req) (n a room : Nat) (signed : Bool) : State × Req :=
  if n ≤ room then s.serveScratch r r.core a
  else
    let free := fun (i : Nat) => Config.freeByte (s.fresh + 512 + i)
    let l := (s.scratchGet r.core a n).zipIdx.map (fun e => if e.2 < room then e.1 else free e.2)
    State.serveValue { s with fresh := s.fresh + 1024 } r (fun _ => loadWords n signed l) none r.due

/-- The bytes of the issuing core's area from a mirror window's byte on. -/
def State.mirrorRoom (s : State) (r : Req) (a : Nat) : Nat :=
  let shadow := ((r.parts.head?.bind (fun q => s.redCopy q.thread.warp))) == some true
  ((s.mirrorArea r.launch r.core shadow).map (fun x => x.1 + x.2 - a)).getD 0

/-- A request that takes effect as it issues, served there; any other is on its way (R182, R196). A mirror store whose bytes go past the
area is discarded (R301). -/
def State.sendReq (s : State) (mods : Mods) (m : MPlan) (r : Req) : State × Req :=
  match r.place, m.spot with
  | .scratch c, some (_, a, _) => if s.ownWaits r then (s, r) else s.serveScratch r c a
  | .mirror _ members, some (_, a, _) =>
    match r.kind with
    | .store d =>
      if s.ownWaits r then (s, { r with left := r.core :: members })
      else
        let r := { r with left := members, stage := if members.isEmpty then .served else .sent }
        (if s.mirrorRoom r a < d.length then s
         else if (s.core r.core).locked .scratch a d.length true then s.remotePut r.core a d
         else s.scratchPut r.core a d, r)
    | .load n sg => if s.ownWaits r then (s, r) else s.serveMirror r n a (s.mirrorRoom r a) sg
    | _ => s.serveScratch r r.core a
  | .param _, _ =>
    match m.va, r.kind with
    | none, .load n sg => s.serveValue r (fun _ => loadWords n sg (List.replicate n 0)) none r.due
    | _, _ => (s, r)
  | .global, _ =>
    match r.kind with
    | .load n sg =>
      match s.l1Serves r.core r.pa r.attrs mods (r.parts.map Part.thread) with
      | some l => s.serveValue r (fun _ => loadWords n sg ((l.data.drop (r.pa % 64)).take n)) (some l.carried) (s.cycle + nearDelay)
      | none => (s, r)
    | _ => (s, r)
  | _, _ => (s, r)

/-- Whether the threads of a pass at equal addresses are aggregated (R206). -/
def aggregates (k : MKind) (mods : Mods) (nbv : Nat) : Bool :=
  match k with
  | .atomic .xchg _ _ | .atomic .cas _ _ => false
  | .atomic .fadd _ _ | .atomic .dadd _ _ => !mods.noagg && decide (3 ≤ nbv)
  | .atomic _ _ _ => !mods.noagg
  | _ => false

/-- The sent plans of a pass as requests: one each, or one for each address when they are aggregated. -/
def sendGroups (agg : Bool) (l : List (MPlan × Option TlbEntry)) : List (List (MPlan × Option TlbEntry)) :=
  if agg then ((l.map (fun e => e.1.ea)).eraseDups).map (fun a => l.filter (fun e => e.1.ea == a)) else l.map (fun e => [e])

/-- The place of the first thread of the group that a thread's plan belongs to. -/
def headOf (groups : List (List (MPlan × Option TlbEntry))) (j : Nat) : Nat :=
  (((groups.find? (fun g => g.any (fun e => e.1.c.j == j))).bind List.head?).map (fun e => e.1.c.j)).getD j

/-- The values a served request brings made known to the destinations that await them, so that an early read may return them
(R54). -/
def State.known (s : State) (r : Req) : State :=
  let s := r.parts.foldl (fun s q => s.modThread q.thread (fun t =>
    { t with async := t.async.map (fun a => if a.req = r.id then { a with value := q.value[a.idx]? } else a) })) s
  match r.sdst with
  | none => s
  | some _ =>
    match r.parts with
    | [] => s
    | q :: _ => s.modWarp q.thread.warp (fun w =>
        { w with sasync := w.sasync.map (fun a => if a.req = r.id then { a with value := q.value.head? } else a) })

/-- The thread of a plan that sends: its K mark is applied, and its destination is revived and awaits the response (R188, R193). -/
def MPlan.issued (m : MPlan) (word req : Nat) (mw : MWord) (t : Thread) : Thread :=
  m.c.expect word req [] { m.c.mark mw.h mw.a t with toff := 0 } m.dst

/-- The thread of a plan that parks at its word (R216): its writes in flight complete (R56), and its destination awaits the response;
its K mark, and with it the destination's revival, come when the access is sent (R217). -/
def MPlan.parked (m : MPlan) (word req : Nat) (p : Pass) (t : Thread) : Thread :=
  { (m.c.await word req t m.dst).settle with
    toff := 0, st := .parked, pos := p.after, resume := ⟨p.pc, p.first⟩, trap := { t.trap with addr := m.taddr } }

/-- TMASK of the executing threads of a pass in which some have parked (R216): the parked slots of each one's own warp. -/
def State.noteParked (s : State) (ks : List TKey) : State :=
  let parked := ks.filter (fun k => ((s.thread k).map (fun t => t.st == .parked)).getD false)
  let mask := fun (w : Nat) => parked.foldl (fun (m : Word) k => if k.warp = w then m ||| BitVec.ofNat 32 (1 <<< k.slot) else m) 0
  if parked.isEmpty then s else ks.foldl (fun s k => s.modThread k (fun t => { t with tmask := mask k.warp })) s

/-- The records that a store or atomic of a redundant launch adds to its thread's signature (R320). -/
def redBytes (k : MKind) (m : MPlan) : List Byte :=
  match k with
  | .store n | .stamped n => redRecord m.ea n false m.data
  | .atomic op w _ =>
    redRecord m.ea (atomBytes w) true
      ((match op with | .cas => leBytes m.cmp.toNat (atomBytes w) | _ => []) ++ leBytes m.x.toNat (atomBytes w))
  | _ => []

/-- The request of a redundant launch at its send (Table 18.4): a store is acknowledged at once, and the primary's is held. -/
def State.redSend (s : State) (copy : Option Bool) (r : Req) : State × Req :=
  match copy, r.place, r.kind with
  | some sh, .global, .store _ =>
    (if sh then s else { s with reqs := s.reqs ++ [{ r with id := s.uid, word := s.uid, stage := .held,
                                                            parts := r.parts.map (fun q => { q with dst := [] }) }],
                                uid := s.uid + 1 },
     { r with kind := .store [], place := .param 0, stage := .served, due := s.cycle + nearDelay })
  | _, _, _ => (s, r)

/-- A plan's thread counted in a redundant launch: one more access, the record fed to the signature, the shadow's forced close,
and the close after the 1,024th store (Table 18.5). -/
def State.redNote (s : State) (p : Pass) (k : MKind) (m : MPlan) : State :=
  match s.redCopy m.c.key.warp with
  | none => s
  | some _ =>
    let glb : Bool := match m.target with | .glb _ | .par _ => true | _ => false
    let s := s.modThread m.c.key (fun t =>
      let t := if glb then { t with accesses := t.accesses + 1 } else t
      if k.writes then t.redFeed (redBytes k m) (match k with | .atomic _ _ _ => false | _ => true) else t)
    let s := s.redForced m.c.key
    if ((s.thread m.c.key).map (fun t => decide (1024 ≤ t.stores))).getD false then s.redClose m.c.key p.tpc none false else s

/-- The end of a MEM word's pass once every thread's fate is known: requests sent in slot order with counters raised (R192), the
parked threads placed in the fault buffer with their page requests (R216), and the pass ended. -/
def State.memSend (s : State) (p : Pass) (mw : MWord) (mods : Mods) (x : Xlat) (fates : List (TCtx × MFate)) : State :=
  let base := s.uid
  let copy := s.redCopy ((p.keys.head?.map TKey.warp).getD 0)
  let s := { s with uid := base + 64 }
  let sends := fates.filterMap (fun r => match r.2 with | .send m e => some (m, e) | _ => none)
  let parks := fates.filterMap (fun r => match r.2 with | .park m s2 pg tb => some (m, s2, pg, tb) | _ => none)
  let groups := sendGroups (aggregates mw.kind mods p.rcd.nbv) sends
  -- the requests of each warp, which its counter awaits
  let due := fun (w : Nat) =>
    (groups.filter (fun g => g.any (fun e => e.1.c.key.warp == w))).length + (parks.filter (fun k => k.1.c.key.warp == w)).length
  let warps := ((sends.map (fun e => e.1.c.key.warp)) ++ (parks.map (fun k => k.1.c.key.warp))).eraseDups
  let s := if mods.ctr < 6 then warps.foldl (fun s w => s.modWarp w (fun y => y.openWord (p.wordId base w) mods.ctr (due w))) s else s
  -- threads that sent, threads that parked
  let s := sends.foldl (fun s e =>
    s.modThread e.1.c.key (fun _ =>
      e.1.issued (p.wordId base e.1.c.key.warp) (base + 32 + headOf groups e.1.c.j) mw e.1.c.th)) s
  let s := sends.foldl (fun s e => s.redNote p mw.kind e.1) s
  let s := groups.foldl (fun s g =>
    match s.mkReq p mw mods base (copy.getD false) ((g.head?.map (·.2)).join) (g.map (·.1)) .sent, g.head? with
    | some r, some (m, _) =>
      let q := s.redSend copy r
      let t := q.1.sendReq mods m q.2
      State.known { t.1 with reqs := t.1.reqs ++ [t.2] } t.2
    | _, _ => s) s
  let s := parks.foldl (fun s k =>
    let m := k.1
    let s := s.modThread m.c.key (fun _ => m.parked (p.wordId base m.c.key.warp) (base + 32 + m.c.j) p m.c.th)
    let s := s.redNote p mw.kind m
    let s := match s.mkReq p mw mods base (copy.getD false) none [m] (.parked k.2.1 k.2.2.1) with
      | some r => { s with reqs := s.reqs ++ [r] }
      | none => s
    s.pageRequest x p.core (if k.2.2.2 then 6 else mw.kind.pageKind) k.2.1 k.2.2.1) s
  let ran := fates.filterMap (fun r => match r.2 with | .skip => none | _ => some r.1.key)
  (s.noteParked ran).endPass p [] (fates.filterMap (fun r => match r.2 with | .fault i => some (r.1.key, i) | _ => none))

/-- Whether a plan could end the pass's hold only with a fault-buffer entry (R225). -/
def State.willPark (s : State) (k : MKind) (x : Xlat) (pages : List (Nat × Option WalkEnd)) (m : MPlan) : Bool :=
  match m.va with
  | none => false
  | some va =>
    match (pages.find? (fun e => e.1 == pageOf va)).bind (·.2) with
    | some (.miss s2 page _) => !s.queueOff x s2 page
    | some (.ok e) =>
      if k.writes then e.attrs.write && s.dirtyMiss e
      else match s.secondPage x pages (.send m (some e)) with | .park _ _ _ _ => true | _ => false
    | _ => false

/-- A pass of a MEM word with an address (R188 to R192, R215, R216). -/
def State.memWord (s : State) (mw : MWord) : State :=
  match s.pass with
  | none => s
  | some p0 =>
    let p := { p0 with dur := p0.slotDur s [mw.a, mw.off, mw.data, mw.extra] }
    match Tab.find s.launches p.launch with
    | none => s
    | some l =>
      let mods := modsOf mw.mm p.rcd.mdef mw.row mw.dflt
      let acq := mods.ord == .acq || mods.ord == .acqRel
      let rel := mods.ord == .rel || mods.ord == .acqRel
      let cs := (p.ctxs s).map (fun c => (c, c.guard mw.h.guard))
      let ex := (cs.filter (fun r => match r.2 with | .ok true => true | _ => false)).map (fun r => r.1.key)
      let closes := rel || mw.kind.isAtomic || (match mw.kind with | .stamped _ => true | _ => false)
      if p.full s mods.ctr then s.holdPass p
      else if ex.any (fun t => s.blocked t || s.mirrorDue t) then s.holdPass p
      else
        let g := if closes then s.redPass ex p.tpc else (s, true)
        let s := g.1
        if !g.2 || (closes && ex.any (fun t => (rel || l.rcd.red) && s.writesDue t)) then s.holdPass p
        else if l.rcd.red && mw.kind.writes && !closes && decide (0x10000 < s.heldBytes p.launch p.core + 16 * ex.length) then
          -- the cluster's buffer is full: every open window in it closes, and the store waits
          (s.closeHeld (fun r => r.launch == p.launch && r.core / Config.coresPerCluster == p.core / Config.coresPerCluster)
            (fun t => if ex.contains t then some p.tpc else none)).holdPass p
        else
          let plans := cs.map (fun r =>
            (r.1,
             match r.2 with
             | .error e => Except.error (some e)
             | .ok false => .error none
             | .ok true =>
               match (if acq || rel then r.1.th.deferred.head? else none) with
               | some d => .error (some (d.fault r.1.th.issued))
               | none => match s.memPlan r.1 mw mods with | .error e => .error (some e) | .ok m => .ok m))
          let vas := plans.flatMap (fun r => match r.2 with | .ok m => m.pages | _ => [])
          let look := s.lookPages p l.xlat vas (mods.space != .par)
          if look.2.any (fun e => e.2.isNone) then (look.1.keepPages p l.xlat look.2).holdPass p
          else
            let s := look.1
            let need := (plans.filter (fun r => match r.2 with | .ok m => s.willPark mw.kind l.xlat look.2 m | _ => false)).length
            if 256 < s.parkedOn p.core + need then (s.keepPages p l.xlat look.2).holdPass p
            else
              let held := (s.keepPages p l.xlat look.2).holdPass p
              let s := s.dropWalks (((Tab.find s.bundles p.port).map Bundle.walked).getD []) p.bundle
              let r := plans.foldl (fun (acc : State × List (TCtx × MFate)) r =>
                match r.2 with
                | .error none => (acc.1, acc.2 ++ [(r.1, .skip)])
                | .error (some i) => (acc.1, acc.2 ++ [(r.1, .fault i)])
                | .ok m =>
                  let f := acc.1.memFate mw.kind l.xlat look.2 m
                  (f.1, acc.2 ++ [(r.1, f.2)])) (s, [])
              if r.2.any (fun f => f.2.goes && s.redBehind f.1.key) then held
              else
                let s := r.1.memSend p mw mods l.xlat r.2
                if closes then s.redThrough ex else s

end Sys2Proof.Machine
end

