-- ==== Sys2Proof/Machine/Mem.lean ====
section
/-! DEFINITION. The MEM class (spec/10): loads, stores, as-of loads, atomics, fences, the STAMP group, the tag group and
prefetch. -/

namespace Sys2Proof.Machine

/-! ### Shapes of MEM words -/

/-- A load of R195. -/
def MemW.load (t : MemW) (bytes : Nat) (signed : Bool) (n : Nat) : MWord :=
  { h := t.h, mm := t.mm, row := .ld, dflt := 0, a := .sel t.a 2, off := bOff t.b, data := .none, extra := .none,
    dst := some (t.d, n), kind := .load bytes signed }

/-- A store of R197: D of `n` words is the data. -/
def MemW.store (t : MemW) (bytes n : Nat) : MWord :=
  { h := t.h, mm := t.mm, row := .st, dflt := 1, a := .sel t.a 2, off := bOff t.b, data := .sel t.d n, extra := .none,
    dst := none, kind := .store bytes }

/-- A stamped store of R199: B receives the stamp. -/
def MemS.stamped (t : MemS) (bytes n : Nat) : MWord :=
  { h := t.h, mm := t.mm, row := .sts, dflt := 1, a := .sel t.a 2, off := .none, data := .sel t.d n, extra := .none,
    dst := some (t.b, 2), kind := .stamped bytes }

/-- An as-of load of R200: B holds the stamp S. -/
def MemS.asof (t : MemS) (bytes n : Nat) : MWord :=
  { h := t.h, mm := t.mm, row := .as, dflt := 3, a := .sel t.a 2, off := .none, data := .none, extra := .sel t.b 2,
    dst := some (t.d, n), kind := .asof bytes }

/-- Whether a word's MEMMOD selects 64 bits. -/
def mmWide (m : Option MemMod) : Bool := (m.map MemMod.w64).getD false

/-- Whether a word's MEMMOD selects signed compares. -/
def mmSigned (m : Option MemMod) : Bool := (m.map MemMod.signed).getD false

/-- The words of an atomic's operand. -/
def mmWords (m : Option MemMod) : Nat := if mmWide m then 2 else 1

/-- An atomic of R202 whose width W64 chooses. -/
def MemW.atomic (t : MemW) (row : MmK) (op : AtomOp) : MWord :=
  { h := t.h, mm := t.mm, row := row, dflt := 2, a := .sel t.a 2, off := bOff t.b, data := .sel t.d (mmWords t.mm),
    extra := .none, dst := some (t.d, mmWords t.mm), kind := .atomic op (mmWide t.mm) (mmSigned t.mm) }

/-- A floating-point atomic of R203. -/
def MemW.fatomic (t : MemW) (op : AtomOp) (wide : Bool) : MWord :=
  { h := t.h, mm := t.mm, row := .af, dflt := 2, a := .sel t.a 2, off := bOff t.b, data := .sel t.d (if wide then 2 else 1),
    extra := .none, dst := some (t.d, if wide then 2 else 1), kind := .atomic op wide false }

/-- ACAS (R205): D is the comparand and receives the old value, B the new value. -/
def MemS.cas (t : MemS) : MWord :=
  { h := t.h, mm := t.mm, row := .at, dflt := 2, a := .sel t.a 2, off := .none, data := .sel t.d (mmWords t.mm),
    extra := .sel t.b (mmWords t.mm), dst := some (t.d, mmWords t.mm), kind := .atomic .cas (mmWide t.mm) false }

/-! ### Loads (R195, R196) -/

/-- LDB (Table 10.3). -/
def execLdb (t : MemW) (s : State) : Host.Outcome State Fault Refusal :=
  .next (s.memWord (MemW.load t 1 false 1))

/-- LDBS (Table 10.3). -/
def execLdbs (t : MemW) (s : State) : Host.Outcome State Fault Refusal :=
  .next (s.memWord (MemW.load t 1 true 1))

/-- LDH (Table 10.3). -/
def execLdh (t : MemW) (s : State) : Host.Outcome State Fault Refusal :=
  .next (s.memWord (MemW.load t 2 false 1))

/-- LDHS (Table 10.3). -/
def execLdhs (t : MemW) (s : State) : Host.Outcome State Fault Refusal :=
  .next (s.memWord (MemW.load t 2 true 1))

/-- LDW (Table 10.3). -/
def execLdw (t : MemW) (s : State) : Host.Outcome State Fault Refusal :=
  .next (s.memWord (MemW.load t 4 false 1))

/-- LDD (Table 10.3). -/
def execLdd (t : MemW) (s : State) : Host.Outcome State Fault Refusal :=
  .next (s.memWord (MemW.load t 8 false 2))

/-- LDQ (Table 10.3). -/
def execLdq (t : MemW) (s : State) : Host.Outcome State Fault Refusal :=
  .next (s.memWord (MemW.load t 16 false 4))

/-! ### Stores (R197 to R199) -/

/-- STB (R197). -/
def execStb (t : MemW) (s : State) : Host.Outcome State Fault Refusal :=
  .next (s.memWord (MemW.store t 1 1))

/-- STH (R197). -/
def execSth (t : MemW) (s : State) : Host.Outcome State Fault Refusal :=
  .next (s.memWord (MemW.store t 2 1))

/-- STW (R197). -/
def execStw (t : MemW) (s : State) : Host.Outcome State Fault Refusal :=
  .next (s.memWord (MemW.store t 4 1))

/-- STD (R197). -/
def execStd (t : MemW) (s : State) : Host.Outcome State Fault Refusal :=
  .next (s.memWord (MemW.store t 8 2))

/-- STQ (R197). -/
def execStq (t : MemW) (s : State) : Host.Outcome State Fault Refusal :=
  .next (s.memWord (MemW.store t 16 4))

/-- STWS (R199). -/
def execStws (t : MemS) (s : State) : Host.Outcome State Fault Refusal :=
  .next (s.memWord (MemS.stamped t 4 1))

/-- STDS (R199). -/
def execStds (t : MemS) (s : State) : Host.Outcome State Fault Refusal :=
  .next (s.memWord (MemS.stamped t 8 2))

/-! ### As-of loads (R200, R201) -/

/-- ASW (R200). -/
def execAsw (t : MemS) (s : State) : Host.Outcome State Fault Refusal :=
  .next (s.memWord (MemS.asof t 4 1))

/-- ASD (R200). -/
def execAsd (t : MemS) (s : State) : Host.Outcome State Fault Refusal :=
  .next (s.memWord (MemS.asof t 8 2))

/-- ASQ (R200). -/
def execAsq (t : MemS) (s : State) : Host.Outcome State Fault Refusal :=
  .next (s.memWord (MemS.asof t 16 4))

/-! ### Atomics (Table 10.4) -/

/-- AADD (R202). -/
def execAadd (t : MemW) (s : State) : Host.Outcome State Fault Refusal :=
  .next (s.memWord (MemW.atomic t .at .add))

/-- AMIN (R202). -/
def execAmin (t : MemW) (s : State) : Host.Outcome State Fault Refusal :=
  .next (s.memWord (MemW.atomic t .atS .min))

/-- AMAX (R202). -/
def execAmax (t : MemW) (s : State) : Host.Outcome State Fault Refusal :=
  .next (s.memWord (MemW.atomic t .atS .max))

/-- AAND (R202). -/
def execAand (t : MemW) (s : State) : Host.Outcome State Fault Refusal :=
  .next (s.memWord (MemW.atomic t .at .and))

/-- AOR (R202). -/
def execAor (t : MemW) (s : State) : Host.Outcome State Fault Refusal :=
  .next (s.memWord (MemW.atomic t .at .or))

/-- AXOR (R202). -/
def execAxor (t : MemW) (s : State) : Host.Outcome State Fault Refusal :=
  .next (s.memWord (MemW.atomic t .at .xor))

/-- AXCH (R202). -/
def execAxch (t : MemW) (s : State) : Host.Outcome State Fault Refusal :=
  .next (s.memWord (MemW.atomic t .at .xchg))

/-- ACAS (R205). -/
def execAcas (t : MemS) (s : State) : Host.Outcome State Fault Refusal :=
  .next (s.memWord (MemS.cas t))

/-- AFADD (R203). -/
def execAfadd (t : MemW) (s : State) : Host.Outcome State Fault Refusal :=
  .next (s.memWord (MemW.fatomic t .fadd false))

/-- ADADD (R203). -/
def execAdadd (t : MemW) (s : State) : Host.Outcome State Fault Refusal :=
  .next (s.memWord (MemW.fatomic t .dadd true))

/-! ### Fences (R180, R208) -/

/-- Whether a thread still has an access that a fence waits for: any access for full and release, one that brings a value for
acquire. -/
def State.fenceDue (s : State) (t : TKey) (all : Bool) : Bool := s.reqs.any (fun r => r.of t && r.access_ && (all || r.brings))

/-- A fence: the pass is held until every executing thread's earlier accesses are complete; then the L1 is invalidated under
`acq`, and a deferred error is delivered (R194). A full or release fence closes a redundant thread's window (Table 18.5). -/
def State.fenceWord (s : State) (h : Hd) (acq rel : Bool) : State :=
  match s.pass with
  | none => s
  | some p =>
    let cs := (p.ctxs s).map (fun c => (c, c.guard h.guard))
    let ex := (cs.filter (fun r => match r.2 with | .ok true => true | _ => false)).map (fun r => r.1.key)
    let g := if rel then s.redPass ex p.tpc else (s, true)
    let s := g.1
    if !g.2 || ex.any (fun t => s.fenceDue t rel) then s.holdPass p
    else
      let s := if acq && !ex.isEmpty then s.l1Clear p.core else s
      (if rel then s.redThrough ex else s).endPass p []
        (cs.filterMap (fun r =>
          match r.2 with
          | .error e => some (r.1.key, e)
          | .ok false => none
          | .ok true => (r.1.th.deferred.head?).map (fun d => (r.1.key, d.fault r.1.th.issued))))

/-- FENCE.full (R208). -/
def execFenceFull (t : FenceW) (s : State) : Host.Outcome State Fault Refusal :=
  .next (s.fenceWord t.h true true)

/-- FENCE.acq (R208). -/
def execFenceAcq (t : FenceW) (s : State) : Host.Outcome State Fault Refusal :=
  .next (s.fenceWord t.h true false)

/-- FENCE.rel (R208). -/
def execFenceRel (t : FenceW) (s : State) : Host.Outcome State Fault Refusal :=
  .next (s.fenceWord t.h false true)

/-! ### The STAMP group (R209 to R211) -/

/-- LSTAMP (R209). -/
def execLstamp (t : MemDA) (s : State) : Host.Outcome State Fault Refusal :=
  .next (s.memWord
    { h := t.h, mm := t.mm, row := .ls, dflt := 0, a := .sel t.a 2, off := .none, data := .none, extra := .none,
      dst := some (t.d, 2), kind := .lstamp })

/-- A word whose D is readable 4 cycles on and that shifts no latch. -/
def quietWord (h : Hd) (a c : Src) (d : Option (Sel × Nat)) : VWord :=
  { h := h, am := none, a := a, b := .none, c := c, cfld := 2, d := d, pred := none, lat := 4, shifts := false }

/-- A thread of a serial pass with a shared effect: its guard, its operands A and D, what the effect answers, and its commit. -/
def State.quiet (s : State) (c : TCtx) (v : VWord) (f : State → List Word → List Word → Except TrapInfo (State × List Word)) :
    State × Did :=
  match c.guard v.h.guard with
  | .error e => (s, .fault e)
  | .ok false => (s, .skip c.th)
  | .ok true =>
    match c.operands v with
    | .error e => (s, .fault e)
    | .ok (a, _, x) =>
      match f s a x with
      | .error e => (s, .fault e)
      | .ok (s1, ws) =>
        match c.commit v ws 0 (c.slot + v.lat) with
        | .fault e => (s, .fault e)
        | r => (s1, r)

/-- FLOORUP (R210): FLOOR raised in pass order, and D written with the FLOOR that results. -/
def execFloorup (t : WDA) (s : State) : Host.Outcome State Fault Refusal :=
  .next (s.serial [.sel t.a 2] (fun s c =>
    s.quiet c (quietWord t.h (.sel t.a 2) .none (some (t.d, 2))) (fun s a _ =>
      match Tab.find s.warps c.key.warp with
      | none => .ok (s, [0, 0])
      | some w =>
        let f := umax (w.floorFor c.p.bundle c.slot) (dwordOf a)
        .ok (s.modWarp c.key.warp (fun w =>
          { w with fpend := w.fpend ++ [{ val := f, bundle := c.p.bundle, other := c.slot + 4 }] }), Dword.words f))))

/-- SETTLE (R211): each warp's counter waits for SETTLED to reach the greatest A of its executing threads. -/
def execSettle (t : MemA) (s : State) : Host.Outcome State Fault Refusal :=
  .next (
    match s.pass with
    | none => s
    | some p0 =>
      let v := quietWord t.h (.sel t.a 2) .none none
      let p := { p0 with dur := p0.slotDur s [v.a] }
      let mods := modsOf t.mm p.rcd.mdef .se 3
      if p.full s mods.ctr then s.holdPass p
      else
        let rs := (p.ctxs s).map (fun c => (c, c.run v (fun _ a _ _ => (a, 0))))
        let done := doneOf rs
        let base := s.uid
        let warps := (done.map (fun r => r.1.key.warp)).eraseDups
        let s := { s.putDone rs with uid := base + 64 }
        let s := if mods.ctr < 6 then
            warps.foldl (fun s w =>
              let mine := done.filter (fun r => r.1.key.warp == w)
              let a := mine.foldl (fun m r => umax m (dwordOf r.2)) 0
              let gen := ((Tab.find s.launches p.launch).map Launch.gen).getD 0
              let slot := (mine.head?.map (fun r => r.1.slot)).getD p.start
              let id := base + 32 + p.warpPlace w
              let r : Req :=
                { id := id, launch := p.launch, gen := gen, core := p.core, lane := p.lane, word := p.wordId base w, tpc := p.tpc,
                  kind := .settle a, place := .param 0, va := 0, xlat := Xlat.none, tlb := none, pa := 0, pa2 := 0,
                  attrs := Attrs.none, hint := .keep, acq := false, rel := false, ctr := mods.ctr, floor := 0, parts := [], sdst := none, order := id, slice := 0,
                  stage := if s.tickHeld || decide (a.toNat ≤ s.settled.toNat) then .served else .sent,
                  due := slot + nearDelay, stamp := 0, raise := none, ue := false, gone := false, issued := [], killA := [], left := [] }
              { s.modWarp w (fun y => y.openWord (p.wordId base w) mods.ctr 1) with reqs := s.reqs ++ [r] }) s
          else s
        s.endPass p [] (faultsOf rs))

/-! ### The tag table (R187, R212, R213) -/

/-- Sets, ways and slot size of a tag table. -/
def TagTable.sets (t : TagTable) : Nat := 2 ^ t.ls

/-- The ways of a set. -/
def TagTable.nways (t : TagTable) : Nat := 2 ^ t.lw

/-- The set a key maps to. -/
def TagTable.setOf (t : TagTable) (key : Dword) : Nat := key.toNat % t.sets

/-- The valid way of a set that holds a key. -/
def TagTable.hit (t : TagTable) (key : Dword) : Option TagWay := t.ways.find? (fun w => w.set == t.setOf key && w.key == key)

/-- The victim of a set: its lowest-numbered invalid way, else its least recently used. -/
def TagTable.victim (t : TagTable) (set : Nat) : Nat :=
  let mine := t.ways.filter (fun w => w.set == set)
  match (List.range t.nways).find? (fun i => !mine.any (fun w => w.way == i)) with
  | some i => i
  | none => ((sortBy TagWay.used mine).head?.map TagWay.way).getD 0

/-- TAGL: the slot of a key and the way made most recently used, or bit 31 with the victim's slot. -/
def TagTable.look (t : TagTable) (key : Dword) : TagTable × Word :=
  match t.hit key with
  | some w =>
    ({ t with clock := t.clock + 1,
              ways := t.ways.map (fun y => if y.set = w.set ∧ y.way = w.way then { y with used := t.clock + 1 } else y) },
     BitVec.ofNat 32 (w.set * t.nways + w.way))
  | none => (t, 0x80000000 ||| BitVec.ofNat 32 (t.setOf key * t.nways + t.victim (t.setOf key)))

/-- TAGS: a key installed at a slot; another way of that set with the key is invalidated. -/
def TagTable.install (t : TagTable) (k : Nat) (key : Dword) : TagTable :=
  let set := k / t.nways
  let way := k % t.nways
  { t with
    clock := t.clock + 1
    ways := t.ways.filter (fun y => !(y.set == set && (y.way == way || y.key == key)))
      ++ [{ set := set, way := way, key := key, used := t.clock + 1 }] }

/-- TAGI: the way that holds a key in its set invalidated. -/
def TagTable.drop (t : TagTable) (key : Dword) : TagTable :=
  { t with ways := t.ways.filter (fun y => !(y.set == t.setOf key && y.key == key)) }

/-- The reason for which TAGC's operand fails, in an area of a size (Table 10.7); the lowest reason is given (log 20). -/
def tagcReason (x : Dword) (area : Nat) : Option Nat :=
  let n := x.toNat
  let base := natBits n 32 20
  let lz := natBits n 8 5
  let lw := natBits n 4 4
  let ls := natBits n 0 4
  if natBits n 52 12 ≠ 0 || natBits n 13 19 ≠ 0 then some 1
  else if base % 2 ^ lz ≠ 0 then some 2
  else if area < base + 2 ^ (ls + lw + lz) then some 3
  else if lz < 4 || 16 < lz then some 4
  else if 12 < ls + lw then some 5
  else none

/-- TAGC: the table reconfigured and void. -/
def tagcTable (x : Dword) : TagTable :=
  { ls := natBits x.toNat 0 4, lw := natBits x.toNat 4 4, lz := natBits x.toNat 8 5, base := natBits x.toNat 32 20, ways := [],
    clock := 0 }

/-- The state with a core's tag table changed. -/
def State.modTags (s : State) (core : Nat) (f : TagTable → TagTable) : State := s.modCore core (fun c => { c with tags := f c.tags })

/-- TAGL (Table 10.6). -/
def execTagl (t : WDA) (s : State) : Host.Outcome State Fault Refusal :=
  .next (s.serial [.sel t.a 2] (fun s c =>
    s.quiet c (quietWord t.h (.sel t.a 2) .none (some (t.d, 1))) (fun s a _ =>
      let r := (s.core c.p.core).tags.look (dwordOf a)
      .ok (s.modTags c.p.core (fun _ => r.1), [r.2]))))

/-- TAGS (Table 10.6). -/
def execTags (t : WDA) (s : State) : Host.Outcome State Fault Refusal :=
  .next (s.serial [.sel t.a 2, .sel t.d 1] (fun s c =>
    s.quiet c (quietWord t.h (.sel t.a 2) (.sel t.d 1) none) (fun s a x =>
      let tt := (s.core c.p.core).tags
      let k := (x.headD 0).toNat
      if tt.sets * tt.nways ≤ k then .error (TrapInfo.of .idxRange (idxInfo (k : Int) 0))
      else .ok (s.modTags c.p.core (fun y => y.install k (dwordOf a)), []))))

/-- TAGI (Table 10.6). -/
def execTagi (t : WA) (s : State) : Host.Outcome State Fault Refusal :=
  .next (s.serial [.sel t.a 2] (fun s c =>
    s.quiet c (quietWord t.h (.sel t.a 2) .none none) (fun s a _ =>
      .ok (s.modTags c.p.core (fun y => y.drop (dwordOf a)), []))))

/-- TAGC (R213). -/
def execTagc (t : WA) (s : State) : Host.Outcome State Fault Refusal :=
  .next (s.serial [.sel t.a 2] (fun s c =>
    s.quiet c (quietWord t.h (.sel t.a 2) .none none) (fun s a _ =>
      match tagcReason (dwordOf a) (((Tab.find s.blocks c.w.block).map Block.size).getD 0) with
      | some r => .error (TrapInfo.of .illegalOperand (0x3F0 + r))
      | none => .ok (s.modTags c.p.core (fun _ => tagcTable (dwordOf a)), []))))

/-! ### Prefetch (R214) -/

/-- Whether every leaf of a list shows ACCESSED. -/
def State.leavesSeen (s : State) (leaves : List Nat) : Bool := leaves.all (fun a => natBit (s.mem.nat a 8) 4)

/-- A prefetch's translation, with no effect on any state: `none` where it is dropped. -/
def State.prefXlat (s : State) (core : Nat) (x : Xlat) (va : Nat) : Option TlbEntry :=
  match ((s.core core).tlb ++ s.ctlb core).find? (fun e => e.hits x va) with
  | some e => some e
  | none =>
    match s.walkAll x va with
    | (.ok e, met) => if s.leavesSeen met then some e else none
    | _ => none

/-- The line a thread's prefetch asks for. -/
def State.prefOf (s : State) (c : TCtx) (sp : Space) (a off : Src) (x : Xlat) : Option TlbEntry × Nat :=
  match c.read 0 a, c.read 1 off with
  | .ok ws, .ok o =>
    match s.addrCheck c (.load 1 false) sp (dwordOf ws + offsetOf o) with
    | .ok (.glb va, _, _, _) => (s.prefXlat c.p.core x va, va)
    | _ => (none, 0)
  | _, _ => (none, 0)

/-- PREF (R214): a request that brings a line, or nothing; it never faults and never parks. -/
def execPref (t : MemAB) (s : State) : Host.Outcome State Fault Refusal :=
  .next (
    match s.pass with
    | none => s
    | some p0 =>
      let p := { p0 with dur := p0.slotDur s [.sel t.a 2, bOff t.b] }
      match Tab.find s.launches p.launch with
      | none => s
      | some l =>
        let mods := modsOf t.mm p.rcd.mdef .pf 7
        let base := s.uid
        let reqs := (p.ctxs s).filterMap (fun c =>
          match c.guard t.h.guard with
          | .ok true =>
            match s.prefOf c mods.space (.sel t.a 2) (bOff t.b) l.xlat with
            | (some e, va) =>
              some ({ id := base + 32 + c.j, launch := p.launch, gen := l.gen, core := p.core, lane := p.lane,
                      word := p.wordId base c.key.warp, tpc := p.tpc, kind := .pref, place := .global, va := BitVec.ofNat 64 va,
                      xlat := l.xlat, tlb := some e, pa := e.phys va, pa2 := 0, attrs := e.attrs, hint := mods.cache,
                      acq := false, rel := false, ctr := 7, floor := 0, parts := [], sdst := none, order := base + 32 + c.j, slice := homeSlice (e.phys va), stage := .sent,
                      due := c.slot + farDelay, stamp := 0, raise := none, ue := false, gone := false, issued := [], killA := [],
                      left := [] } : Req)
            | _ => none
          | _ => none)
        State.endPass { s with uid := base + 64, reqs := s.reqs ++ reqs } p [] [])

end Sys2Proof.Machine
end

