-- ==== Sys2Proof/Machine/Sync.lean ====
section
/-! DEFINITION. Barriers (spec/02 R27 to R29), the extended block (spec/03 R40 to R42), the exit of threads and the end of a
block's threads (spec/02 R30, spec/16 R271, R272). -/

namespace Sys2Proof.Machine

/-! ### Release from a wait inside a clause (R267) -/

/-- A thread released from its wait at a cycle: a candidate at the word after it, no sooner than R52 and R53 allow; from a park it
waits out no stall (R56). Where the word was its clause's last, a pause of the clause holds (R21, R275). -/
def Thread.release (t : Thread) (now : Nat) : Thread :=
  let at_ := if t.st = .parked then now else max t.slotAt now
  { t with st := if t.pos.word = 0 && decide (now ≤ t.pause) then .paused else .ready, wait := none, since := now, ready := at_, slotAt := at_,
           candAt := at_ }

/-- A thread that leaves its bundle to wait, to go on at a place. -/
def Thread.waitAt (t : Thread) (w : WaitOn) (after : Pos) : Thread := { t with st := .waiting, wait := some w, pos := after }

/-! ### Barriers -/

/-- The latency of a barrier level (Table 2.3); the grid's is the one of an idle package. -/
def barLatency : Nat → Nat
  | 0 => 4
  | 1 => 20
  | 2 => 40
  | _ => 600

/-- The barrier of a level and number that a thread belongs to. -/
def State.barKey (s : State) (t : TKey) (level num : Nat) : Option BarKey :=
  match Tab.find s.warps t.warp, s.blockOf t.warp with
  | some w, some b =>
    some (match level with
      | 0 => ⟨0, t.warp, num⟩
      | 1 => ⟨1, w.block, num⟩
      | 2 => ⟨2, b.group, num⟩
      | _ => ⟨3, w.launch, num + (if b.shadow then 2 else 0)⟩)
  | _, _ => none

/-- A barrier before its first arrival. -/
def Barrier.start : Barrier := { phase := 0, last := none }

/-- The barriers of a unit. -/
def State.barsOf (s : State) (level unit : Nat) : Tab Barrier :=
  match level with
  | 0 => ((Tab.find s.warps unit).map Warp.bars).getD []
  | 1 => ((Tab.find s.blocks unit).map Block.bars).getD []
  | 2 => ((Tab.find s.groups unit).map Group.bars).getD []
  | _ => ((Tab.find s.launches unit).map Launch.bars).getD []

/-- A barrier. -/
def State.bar (s : State) (k : BarKey) : Barrier := (Tab.find (s.barsOf k.level k.unit) k.num).getD Barrier.start

/-- The state with a barrier written. -/
def State.putBar (s : State) (k : BarKey) (b : Barrier) : State :=
  match k.level with
  | 0 => s.modWarp k.unit (fun w => { w with bars := Tab.put w.bars k.num b })
  | 1 => s.modBlock k.unit (fun x => { x with bars := Tab.put x.bars k.num b })
  | 2 => s.modGroup k.unit (fun x => { x with bars := Tab.put x.bars k.num b })
  | _ => s.modLaunch k.unit (fun x => { x with bars := Tab.put x.bars k.num b })

/-- The members of a barrier (Table 2.3). -/
def State.barMembers (s : State) (k : BarKey) : List TKey :=
  match k.level with
  | 0 => ((Tab.find s.warps k.unit).map (fun w => w.keys k.unit)).getD []
  | 1 => s.blockKeys k.unit
  | 2 => (((Tab.find s.groups k.unit).map Group.blocks).getD []).flatMap s.blockKeys
  | _ => (s.blocks.filter (fun b => b.2.launch == k.unit && b.2.shadow == decide (2 ≤ k.num))).flatMap (fun b => s.blockKeys b.1)

/-- The number that a barrier's words name. -/
def barNum (k : BarKey) : Nat := if k.level = 3 then k.num % 2 else k.num

/-- The phase in which a thread last arrived at a barrier, while that arrival awaits its wait. -/
def Thread.arrivedAt (t : Thread) (k : BarKey) : Option Nat :=
  (t.arrival.find? (fun a => a.level == k.level && a.num == barNum k)).map Arrival.phase

/-- A thread without its arrival at a barrier. -/
def Thread.unarrive (t : Thread) (k : BarKey) : Thread :=
  { t with arrival := t.arrival.filter (fun a => !(a.level == k.level && a.num == barNum k)) }

/-- A thread with an arrival in a phase. -/
def Thread.arrive (t : Thread) (k : BarKey) (phase : Nat) : Thread :=
  { t.unarrive k with arrival := (t.unarrive k).arrival ++ [{ level := k.level, num := barNum k, phase := phase }] }

/-- Whether a member counts as arrived in a phase (R29). -/
def Thread.counts (t : Thread) (k : BarKey) (phase : Nat) : Bool := t.st == .exited || t.arrivedAt k == some phase

/-- Whether every block of a group has been placed (R25): one that a takeover has begun may still have blocks to come (R31). -/
def State.groupWhole (s : State) (g : Nat) : Bool :=
  match Tab.find s.groups g with
  | none => true
  | some x => ((Tab.find s.launches x.launch).map (fun l => decide (l.rcd.extent 2 ≤ x.placed))).getD true

/-- Whether the members of a barrier are all placed (Table 2.3). A grid barrier's launch is resident, and placed whole (R263). -/
def State.barWhole (s : State) (k : BarKey) : Bool := k.level != 2 || s.groupWhole k.unit

/-- The last arrival noted, once every member has arrived and some member by a barrier word. -/
def State.barCheck (s : State) (k : BarKey) (slot : Nat) : State :=
  let b := s.bar k
  let ms := (s.barMembers k).filterMap s.thread
  if b.last.isNone && s.barWhole k && ms.any (fun t => t.arrivedAt k == some b.phase) && ms.all (fun t => t.counts k b.phase) then
    s.putBar k { b with last := some slot }
  else s

/-- Whether a store of a redundant block's thread whose window has matched has not committed yet. -/
def State.windowOut (s : State) (block : Nat) : Bool :=
  s.reqs.any (fun r => r.storeDue && r.stage != .held && s.reqRed r
    && r.parts.any (fun q => ((Tab.find s.warps q.thread.warp).map (fun w => w.block == block)).getD false))

/-- Whether a phase may complete once its latency has elapsed: every member has arrived, and a redundant block's window has
matched and its stores have committed (R321). -/
def State.barReady (s : State) (k : BarKey) : Bool :=
  (s.bar k).last.isSome && !(k.level == 1
    && (s.redWindows.any (fun w => w.barrier == some k.num && w.block == k.unit) || s.windowOut k.unit))

/-- A phase completes (R28, R29): the FLOORs of the warps that arrived are merged, the waiters' k slots are voided and their core's
L1 invalidated (R274), the waiters are released, and the phase number advances. -/
def State.phaseComplete (s : State) (k : BarKey) (now : Nat) : State :=
  let b := s.bar k
  let ms := s.barMembers k
  let came := ms.filter (fun t => ((s.thread t).map (fun x => x.counts k b.phase)).getD false)
  let ws := (came.map TKey.warp).eraseDups
  let fl := ws.foldl (fun f w => umax f (((Tab.find s.warps w).map Warp.floorAll).getD 0)) 0
  let s := ws.foldl (fun s w => s.modWarp w (fun x => x.raise fl)) s
  let waits := ms.filter (fun t => ((s.thread t).map (fun x => x.wait == some (.barrier k.level (barNum k) b.phase))).getD false)
  let s := waits.foldl (fun s t =>
    match Tab.find s.warps t.warp with
    | some w => s.l1Clear w.core
    | none => s) s
  let s := waits.foldl (fun s t => s.modThread t (fun x => ((x.land now).voidK.unarrive k).release now)) s
  s.putBar k { phase := b.phase + 1, last := none }

/-! ### The extended block -/

/-- Whether a warp still has a thread that has not exited. -/
def Warp.live (w : Warp) : Bool := w.threads.any (fun t => t.st != .exited)

/-- Whether a launch's context has been saved to be restored. -/
def Launch.away (l : Launch) : Bool := l.saved && l.status != .ended

/-- The warps resident on a lane: those of a context that has been saved to be restored have left it. -/
def State.laneWarps (s : State) (core lane : Nat) : List (Nat × Warp) :=
  s.warps.filter (fun e => e.2.core == core && e.2.lane == lane && e.2.live
    && !((Tab.find s.launches e.2.launch).any (fun l => l.awayAt e.2.core)))

/-- Extended blocks free on a lane (R39). -/
def State.laneFree (s : State) (core lane : Nat) : Nat :=
  let ws := s.laneWarps core lane
  Config.laneBlocks - ws.length - (ws.filter (fun e => e.2.ext)).length

/-- The warps queued for an extended block on a lane, first to be granted first (R40). -/
def State.laneQueue (s : State) (core lane : Nat) : List (Nat × Warp) :=
  sortBy (fun e => (e.2.acqAt.getD 0) * 65536 + e.2.num) ((s.laneWarps core lane).filter (fun e => e.2.acqAt.isSome))

/-- v32 to v63 void. -/
def Thread.voidExt (t : Thread) : Thread := { t with vvoid := t.vvoid ||| 0xFFFFFFFF00000000 }

/-- A warp given an extended block at a cycle: v32 to v63 void, and the threads that wait in REGACQ released. -/
def Warp.grant (w : Warp) (now : Nat) : Warp :=
  { w with ext := true, acqAt := none, threads := w.threads.map (fun t =>
      if t.voidExt.wait = some .regacq then t.voidExt.release now else t.voidExt) }

/-- A warp without its extended block: results still due for v32 to v63 are discarded (R276). -/
def Warp.ungrant (w : Warp) : Warp :=
  { w with ext := false, threads := w.threads.map (fun t =>
      { t with pend := t.pend.filter (fun p => p.loc < 32 || 64 ≤ p.loc), async := t.async.filter (fun a => a.loc < 32 || 64 ≤ a.loc) }) }

/-- Queued warps granted while blocks are free; `n` bounds the grants. -/
def State.grantLane (s : State) (core lane now : Nat) : Nat → State
  | 0 => s
  | n + 1 =>
    if s.laneFree core lane = 0 then s
    else
      match (s.laneQueue core lane).head? with
      | none => s
      | some e => State.grantLane (s.modWarp e.1 (fun w => w.grant now)) core lane now n

/-! ### Exit (R29, R30, R271, R272) -/

/-- The barriers of a thread's units at which some member has arrived and awaits its phase. -/
def State.barsFor (s : State) (t : TKey) : List BarKey :=
  [0, 1, 2, 3].flatMap (fun level =>
    match s.barKey t level 0 with
    | none => []
    | some k =>
      let nums := (s.barMembers k).flatMap (fun m =>
        ((s.thread m).map (fun x => (x.arrival.filter (fun a => a.level == level)).map Arrival.num)).getD [])
      (nums.eraseDups).filterMap (fun n => s.barKey t level n))

/-- A thread exits at a slot: it counts as arrived everywhere, its outstanding long operations write nothing any more and still count
for w5 (R144), and with the last
thread of its warp the warp's registers, counters and extended block are released. -/
def State.exitThread (s : State) (t : TKey) (succ : Option Dword) (slot : Nat) : State :=
  let s := s.modThread t (fun x =>
    { x with st := .exited, wait := none, arrival := [], succ := succ, async := [], deferred := [], handler := false, save := none })
  let s := { s with longs := s.longs.map (fun (o : LongOp) => if o.thread = t then { o with dst := none, vals := [], flags := 0 } else o) }
  let s := (s.barsFor t).foldl (fun s k => s.barCheck k slot) s
  match Tab.find s.warps t.warp with
  | none => s
  | some w =>
    if w.live then s
    else
      (s.modWarp t.warp (fun w => { w with ext := false, acqAt := none, out := [], ctr := Vector.replicate 6 0, sasync := [] })).grantLane
        w.core w.lane slot Config.laneBlocks

/-- Whether a request waits in the fault buffer. -/
def Req.parked (r : Req) : Bool := match r.stage with | .parked _ _ | .walking _ => true | _ => false

/-- The handler's thread ends its block (R272): parked accesses leave the fault buffer and are never sent, every thread exits, and
no successor is named. -/
def State.endBlock (s : State) (b slot : Nat) : State :=
  let ks := s.blockKeys b
  let s := { s with reqs := s.reqs.filter (fun r => !(r.parked && r.parts.any (fun q => ks.contains q.thread))) }
  let s := s.modBlock b (fun x => { x with halt := none })
  ks.foldl (fun s t =>
    if ((s.thread t).map (fun x => x.st == .exited)).getD true then s.modThread t (fun x => { x with succ := none })
    else s.exitThread t none slot) s

end Sys2Proof.Machine
end

