-- ==== Sys2Proof/Machine/Ctl.lean ====
section
/-! DEFINITION. The CTL class (spec/16): transfers, EXIT, barriers, PAUSE, the extended block, KILL and index, special registers,
election, assertions, traps, and the scalar words. -/

namespace Sys2Proof.Machine

/-! ### Threads that execute a word -/

/-- The executing threads of a pass and the faults of the guards (R62, R133). -/
def Pass.execs (p : Pass) (s : State) (h : Hd) : List TCtx × List (TKey × TrapInfo) :=
  let cs := (p.ctxs s).map (fun c => (c, c.guard h.guard))
  ((cs.filter (fun r => match r.2 with | .ok true => true | _ => false)).map (·.1),
   cs.filterMap (fun r => match r.2 with | .error e => some (r.1.key, e) | _ => none))

/-- Executing threads grouped by warp, in pass order. -/
def byWarp (cs : List TCtx) : List (Nat × List TCtx) :=
  ((cs.map (fun c => c.key.warp)).eraseDups).map (fun w => (w, cs.filter (fun c => c.key.warp == w)))

/-- A word of a thread that commits at once: a change of the thread, `f` answering the fault that stops it, and then its K mark, which
comes after every read (R45). -/
def TCtx.quick (c : TCtx) (h : Hd) (a : Src) (f : TCtx → List Word → Except TrapInfo Thread) : Did :=
  match c.guard h.guard with
  | .error e => .fault e
  | .ok false => .skip c.th
  | .ok true =>
    match c.read 0 a with
    | .error e => .fault e
    | .ok ws =>
      match f { c with th := { c.th with toff := 0 } } ws with
      | .error e => .fault e
      | .ok t => .done (c.mark h a t) ws

/-! ### Transfers (R269, R270) -/

/-- A transfer: each executing thread that passes the checks goes to its target, and a call sets LINK to the next clause. -/
def State.transfer (s : State) (h : Hd) (a : Src) (call check : Bool) (target : TCtx → List Word → Dword) : State :=
  match s.pass with
  | none => s
  | some p0 =>
    let p := { p0 with dur := p0.slotDur s [a] }
    let rs := (p.ctxs s).map (fun c =>
      (c, c.quick h a (fun c ws =>
        let g := target c ws
        if check && g.toNat % 4 ≠ 0 then .error (TrapInfo.at_ .misaligned g)
        else if check && g.toNat / 2 ^ 55 ≠ 0 then .error (TrapInfo.at_ .addrInvalid g)
        else .ok (if call then { c.th with link := p.pc + BitVec.ofNat 64 (4 * (p.hdr.n + 1)) } else c.th))))
    let targets := (doneOf rs).map (fun r => (r.1.key, target r.1 r.2))
    (s.putDone rs).endPass p targets (faultsOf rs)

/-- The target of a direct transfer (R63). -/
def directTarget (off : BitVec 21) (c : TCtx) : Dword := wordAddr c.p.pc c.p.pos + (off.signExtend 64 <<< 2)

/-- BRA (R269). -/
def execBra (t : BrW) (s : State) : Host.Outcome State Fault Refusal :=
  .next (s.transfer t.h .none false false (fun c _ => directTarget t.off c))

/-- CALL (R269). -/
def execCall (t : BrW) (s : State) : Host.Outcome State Fault Refusal :=
  .next (s.transfer t.h .none true false (fun c _ => directTarget t.off c))

/-- BRX (R270). -/
def execBrx (t : WA) (s : State) : Host.Outcome State Fault Refusal :=
  .next (s.transfer t.h (.sel t.a 2) false true (fun _ ws => dwordOf ws))

/-- CALLX (R270). -/
def execCallx (t : WA) (s : State) : Host.Outcome State Fault Refusal :=
  .next (s.transfer t.h (.sel t.a 2) true true (fun _ ws => dwordOf ws))

/-- RET (R270). -/
def execRet (t : HdW) (s : State) : Host.Outcome State Fault Refusal :=
  .next (s.transfer t.h .none false true (fun c _ => c.th.link))

/-! ### Scalar operands (R43, R65) -/

/-- Words of the scalar space. -/
def TCtx.sread (c : TCtx) (fld : Nat) (x : SSel) (n : Nat) : Except TrapInfo (List Word) :=
  match x with
  | .z => .ok (List.replicate n 0)
  | .s r => c.scalars fld r n

/-- B as a 32-bit integer of the scalar space. -/
def TCtx.sopnd (c : TCtx) (x : SOpnd) : Except TrapInfo (List Word) :=
  match x with
  | .sel x => c.sread 1 x 1
  | .imm p | .imm2 _ p => .ok [p.signExtend 32]

/-- B as an address offset of the scalar space (Table 4.7). -/
def TCtx.soff (c : TCtx) (x : SOpnd) : Except TrapInfo (List Word) :=
  match x with
  | .sel x => c.sread 1 x 1
  | .imm p => .ok (Dword.words (p.signExtend 64))
  | .imm2 h p => .ok (Dword.words ((pay48 h p).signExtend 64))

/-- The scalar write check of R55 (R43). -/
def TCtx.sWriteCheck (c : TCtx) (d : SSel) (n : Nat) : Option TrapInfo :=
  match d with
  | .z => none
  | .s r =>
    if c.p.rcd.chkSb then
      ((List.range n).find? (fun i => c.w.searly (r.val + i) c.p.bundle c.wslot)).map
        (fun i => TrapInfo.of .stallShort (0x200 + 0xA0 + r.val + i))
    else none

/-- One scalar register written by a fixed-latency word: against an SLD of the bundle that is due, a free bit chooses which stands
(R55). -/
def TCtx.sissue (c : TCtx) (r : Nat) (x : Word) (lat i : Nat) (w : Warp) : Warp :=
  let w := if w.sasync.any (fun a => a.reg == r && a.bundle == c.p.bundle && !a.lost) && c.sfree (12 + i) then
      { w with sasync := w.sasync.map (fun a => if a.reg = r && a.bundle == c.p.bundle then { a with lost := true } else a) }
    else w
  w.sput r x c.p.bundle c.wslot lat

/-- A scalar result written to D and the registers after it. -/
def TCtx.sissueTo (c : TCtx) (d : SSel) (ws : List Word) (lat : Nat) (w : Warp) : Warp :=
  match d with
  | .z => w
  | .s r => (ws.zipIdx).foldl (fun w e => c.sissue (r.val + e.2) e.1 lat e.2 w) w

/-! ### Words that execute once for each warp (R266) -/

/-- A scalar word: what each warp with an executing thread makes of the state, or the fault that each of its executing threads
takes. -/
def State.scalarWord (s : State) (h : Hd) (f : State → TCtx → Except TrapInfo State) : State :=
  match s.pass with
  | none => s
  | some p =>
    let e := p.execs s h
    let r := (byWarp e.1).foldl (fun (acc : State × List (TKey × TrapInfo)) g =>
      match g.2.head? with
      | none => acc
      | some c =>
        match f acc.1 c with
        | .error i => (acc.1, acc.2 ++ g.2.map (fun c => (c.key, i)))
        | .ok s => (s, acc.2)) (s, e.2)
    r.1.endPass p [] (p.keys.filterMap (fun k => r.2.find? (fun x => x.1 == k)))

/-- A scalar word that computes D of `n` words. -/
def State.scalarOp (s : State) (h : Hd) (d : SSel) (n lat : Nat) (f : TCtx → Except TrapInfo (List Word)) : State :=
  s.scalarWord h (fun s c =>
    match f c with
    | .error e => .error e
    | .ok ws =>
      match c.sWriteCheck d n with
      | some e => .error e
      | none => .ok (s.modWarp c.key.warp (c.sissueTo d ws lat)))

/-- The operands A and B of a scalar TRI word, read in that order. -/
def TCtx.stri (c : TCtx) (t : STri) (f : Word → Word → Word) : Except TrapInfo (List Word) :=
  match c.sread 0 t.a 1 with
  | .error e => .error e
  | .ok a =>
    match c.sopnd t.b with
    | .error e => .error e
    | .ok b => .ok [f (w0 a) (w0 b)]

/-- SADD (R285). -/
def execSadd (t : STri) (s : State) : Host.Outcome State Fault Refusal :=
  .next (s.scalarOp t.h t.d 1 4 (fun c => c.stri t (fun a b => a + b)))

/-- SSUB (R285). -/
def execSsub (t : STri) (s : State) : Host.Outcome State Fault Refusal :=
  .next (s.scalarOp t.h t.d 1 4 (fun c => c.stri t (fun a b => a - b)))

/-- SMUL (R285). -/
def execSmul (t : STri) (s : State) : Host.Outcome State Fault Refusal :=
  .next (s.scalarOp t.h t.d 1 6 (fun c => c.stri t (fun a b => a * b)))

/-- SAND (R285). -/
def execSand (t : STri) (s : State) : Host.Outcome State Fault Refusal :=
  .next (s.scalarOp t.h t.d 1 4 (fun c => c.stri t (fun a b => a &&& b)))

/-- SMOV (R286). -/
def execSmov (t : SDA) (s : State) : Host.Outcome State Fault Refusal :=
  .next (s.scalarOp t.h t.d 1 4 (fun c => c.sread 0 t.a 1))

/-- SMOVI (R286). -/
def execSmovi (t : SMovI) (s : State) : Host.Outcome State Fault Refusal :=
  .next (s.scalarOp t.h t.d 1 4 (fun _ => .ok [moviValue t.imm14 t.lit]))

/-- SLEA (R288). -/
def execSlea (t : STri) (s : State) : Host.Outcome State Fault Refusal :=
  .next (s.scalarOp t.h t.d 2 4 (fun c =>
    match c.sread 0 t.a 2 with
    | .error e => .error e
    | .ok a =>
      match c.soff t.b with
      | .error e => .error e
      | .ok b => .ok (Dword.words (dwordOf a + offsetOf b))))

/-- SSETP (R287): bit N of every thread of the warp. -/
def execSsetp (t : SCmp) (s : State) : Host.Outcome State Fault Refusal :=
  .next (s.scalarWord t.h (fun s c =>
    match c.sread 0 t.a 1 with
    | .error e => .error e
    | .ok a =>
      match c.sopnd t.b with
      | .error e => .error e
      | .ok b =>
        .ok (s.modWarp c.key.warp (fun w =>
          w.pput t.p 0xFFFFFFFF (if intCmp t.cond (w0 a) (w0 b) then 0xFFFFFFFF else 0) c.p.bundle c.wslot))))

/-- VTOS (R290): A of the lowest-numbered executing slot of each warp, in that slot, from which D's latency runs; its read faults in
that thread alone. -/
def execVtos (t : VtosW) (s : State) : Host.Outcome State Fault Refusal :=
  .next (
    match s.pass with
    | none => s
    | some p0 =>
      let p := { p0 with dur := p0.slotDur s [.sel t.a 1] }
      let e := p.execs s t.h
      let r := (byWarp e.1).foldl (fun (acc : State × List (TKey × TrapInfo)) g =>
        match g.2.head? with
        | none => acc
        | some c =>
          match c.read 0 (.sel t.a 1) with
          | .error i => (acc.1, acc.2 ++ [(c.key, i)])
          | .ok ws =>
            let c' := { c with wslot := c.slot }
            match c'.sWriteCheck t.d 1 with
            | some i => (acc.1, acc.2 ++ g.2.map (fun c => (c.key, i)))
            | none =>
              ((acc.1.modThread c.key (fun _ => c.mark t.h (.sel t.a 1) { c.th with toff := 0 })).modWarp c.key.warp
                (c'.sissueTo t.d ws 4), acc.2)) (s, e.2)
      r.1.endPass p [] (p.keys.filterMap (fun k => r.2.find? (fun x => x.1 == k))))

/-! ### SLD (R289) -/

/-- The plan of a warp's SLD, made in its first executing thread. -/
def State.sldPlan (s : State) (c : TCtx) (t : SLdW) (mods : Mods) : Except TrapInfo MPlan :=
  match c.sread 0 t.a 2 with
  | .error e => .error e
  | .ok a =>
    match c.soff t.b with
    | .error e => .error e
    | .ok off =>
      match c.sWriteCheck t.d 1 with
      | some e => .error e
      | none =>
        let ea := dwordOf a + offsetOf off
        match s.addrCheck c (.load 4 false) mods.space ea with
        | .error e => .error e
        | .ok (tg, spot, va, len) =>
          .ok { c := c, ea := ea, target := tg, dst := [], data := [], x := 0, cmp := 0, va := va, spot := spot, len := len, pa2 := 0 }

/-- The word that an SLD's request carries. -/
def SLdW.word (t : SLdW) : MWord :=
  { h := t.h, mm := t.mm, row := .ld, dflt := 0, a := .none, off := .none, data := .none, extra := .none, dst := none,
    kind := .load 4 false }

/-- The scalar register that a destination names. -/
def SSel.num : SSel → Option Nat
  | .z => none
  | .s r => some r

/-- The request of a warp's SLD: one part for each executing thread. -/
def State.sldReq (s : State) (p : Pass) (t : SLdW) (mods : Mods) (base : Nat) (shadow : Bool) (e : Option TlbEntry) (m : MPlan)
    (cs : List TCtx) (stage : Stage) : Option Req :=
  (s.mkReq p (SLdW.word t) mods base shadow e [m] stage).map (fun r =>
    { r with
      sdst := some ((SSel.num t.d).getD 96)
      parts := cs.map (fun c => { thread := c.key, dst := [], x := 0, cmp := 0, pre := none, access := c.th.accesses,
                                  word := p.wordId base c.key.warp, value := [] })
      issued := cs.map (fun c => c.th.issued + 1), killA := cs.map (fun _ => []) })

/-- A warp whose scalar register an SLD is to write; against a write of the bundle not yet readable a free bit chooses which
stands (R55). -/
def TCtx.sexpect (c : TCtx) (d : SSel) (word req : Nat) (w : Warp) : Warp :=
  match d with
  | .z => w
  | .s r =>
    let clash := w.searly r c.p.bundle c.wslot
    { w with sasync := w.sasync ++ [{ reg := r, word := word, req := req, bundle := c.p.bundle, value := none,
                                      lost := clash && c.sfree 14 }] }

/-- SLD (R289). -/
def execSld (t : SLdW) (s : State) : Host.Outcome State Fault Refusal :=
  .next (
    match s.pass with
    | none => s
    | some p =>
      match Tab.find s.launches p.launch with
      | none => s
      | some l =>
        let mods := modsOf t.mm p.rcd.mdef .ld 0
        let e := p.execs s t.h
        let acq := mods.ord == .acq
        if p.full s mods.ctr || e.1.any (fun c => s.blocked c.key || s.mirrorDue c.key) then s.holdPass p
        else
          let late := if acq then e.1.filterMap (fun c => (c.th.deferred.head?).map (fun d => (c.key, d.fault c.th.issued))) else []
          let live := e.1.filter (fun c => !(late.any (fun x => x.1 == c.key)))
          let plans := (byWarp live).filterMap (fun g => g.2.head?.map (fun c => (g.2, s.sldPlan c t mods)))
          let vas := plans.flatMap (fun g => match g.2 with | .ok m => m.pages | _ => [])
          let look := s.lookPages p l.xlat vas (mods.space != .par)
          if look.2.any (fun x => x.2.isNone) then (look.1.keepPages p l.xlat look.2).holdPass p
          else
            let need := (plans.filter (fun g => match g.2 with | .ok m => s.willPark (.load 4 false) l.xlat look.2 m | _ => false)).length
            if 256 < s.parkedOn p.core + need then (look.1.keepPages p l.xlat look.2).holdPass p
            else if plans.any (fun g =>
                (match g.2 with | .ok m => (look.1.memFate (.load 4 false) l.xlat look.2 m).2.goes | _ => false)
                  && g.1.any (fun c => s.redBehind c.key)) then (look.1.keepPages p l.xlat look.2).holdPass p
            else
              let s := look.1.dropWalks (((Tab.find s.bundles p.port).map Bundle.walked).getD []) p.bundle
              let base := s.uid
              let copy := ((p.keys.head?.map TKey.warp).bind s.redCopy)
              let s := { s with uid := base + 64 }
              let r := plans.foldl (fun (acc : State × List (TKey × TrapInfo)) g =>
                let bad := fun (i : TrapInfo) => acc.2 ++ g.1.map (fun c => (c.key, i))
                match g.2 with
                | .error i => (acc.1, bad i)
                | .ok m =>
                  let f := acc.1.memFate (.load 4 false) l.xlat look.2 m
                  let word := p.wordId base m.c.key.warp
                  let id := base + 32 + m.c.j
                  let open_ := fun (s : State) =>
                    let s := if mods.ctr < 6 then s.modWarp m.c.key.warp (fun w => w.openWord word mods.ctr 1) else s
                    let s := s.modWarp m.c.key.warp (m.c.sexpect t.d word id)
                    let glb : Bool := match m.target with | .glb _ | .par _ => true | _ => false
                    if glb && copy.isSome then
                      g.1.foldl (fun s c => s.modThread c.key (fun y => { y with accesses := y.accesses + 1 })) s
                    else s
                  match f.2 with
                  | .skip => (f.1, acc.2)
                  | .fault i => (f.1, bad i)
                  | .send m en =>
                    match f.1.sldReq p t mods base (copy.getD false) en m g.1 .sent with
                    | none => (f.1, acc.2)
                    | some q =>
                      let y := (open_ f.1).sendReq mods m q
                      (State.known { y.1 with reqs := y.1.reqs ++ [y.2] } y.2, acc.2)
                  | .park m s2 pg tb =>
                    let s := g.1.foldl (fun s c => s.modThread c.key (fun y =>
                      { y.settle with st := .parked, pos := p.after, resume := ⟨p.pc, p.first⟩, trap := { y.trap with addr := m.taddr } })) (open_ f.1)
                    let s := match s.sldReq p t mods base (copy.getD false) none m g.1 (.parked s2 pg) with
                      | some q => { s with reqs := s.reqs ++ [q] }
                      | none => s
                    (s.pageRequest l.xlat p.core (if tb then 6 else 0) s2 pg, acc.2)) (s, e.2 ++ late)
              (r.1.noteParked (e.1.map TCtx.key)).endPass p [] (p.keys.filterMap (fun k => r.2.find? (fun x => x.1 == k))))

/-! ### EXIT (R271, R272) -/

/-- Whether a thread still has a request without its response: memory requests, and messages of SEND. -/
def State.exitDue (s : State) (t : TKey) : Bool := s.reqs.any (fun r => r.of t) || s.sends.any (fun m => m.thread == t)

/-- EXIT (R271); in handler state it ends the block (R272). -/
def execExit (t : SAW) (s : State) : Host.Outcome State Fault Refusal :=
  .next (
    match s.pass with
    | none => s
    | some p =>
      let e := p.execs s t.h
      let ex := e.1.map TCtx.key
      let g := s.redPass ex p.tpc
      if !g.2 || ex.any g.1.exitDue then g.1.holdPass p
      else
        let r := e.1.foldl (fun (acc : State × List (TKey × TrapInfo)) c =>
          match c.th.deferred.head? with
          | some d => (acc.1, acc.2 ++ [(c.key, d.fault c.th.issued)])
          | none =>
            match (match t.a with | .z => .ok none | a => (c.sread 0 a 2).map some : Except TrapInfo (Option (List Word))) with
            | .error i => (acc.1, acc.2 ++ [(c.key, i)])
            | .ok rec =>
              (if c.th.handler then acc.1.endBlock c.w.block c.slot else acc.1.exitThread c.key (rec.map dwordOf) c.slot, acc.2))
          (g.1.redThrough ex, e.2)
        r.1.endPass p [] (p.keys.filterMap (fun k => r.2.find? (fun x => x.1 == k))))

/-! ### Barrier words (R268, R273, R274) -/

/-- The barrier fault that a thread takes before any hold: in handler state, or at a grid barrier without RES. -/
def barFault (c : TCtx) (level : Nat) : Option TrapInfo :=
  if c.th.handler || (level = 3 && !c.p.rcd.res) then some (TrapInfo.of .barrierMisuse 0) else none

/-- A thread's arrival at a barrier: a second one in a phase faults. A redundant thread's window closes with a block barrier's
arrival (Table 18.5). -/
def State.barArrive (s : State) (c : TCtx) (k : BarKey) : Except TrapInfo State :=
  let b := s.bar k
  if ((s.thread c.key).bind (fun t => t.arrivedAt k)) = some b.phase then .error (TrapInfo.of .barrierMisuse 0)
  else
    let s := if k.level = 1 && (s.redCopy c.key.warp).isSome then s.redClose c.key c.p.tpc (some k.num) false else s
    .ok ((s.modThread c.key (fun t => t.arrive k b.phase)).barCheck k c.slot)

/-- A barrier word: the executing threads arrive, or wait, or both. An arrival waits for the thread's earlier stores and atomics (R274), and
for the values of its earlier loads, which may not be those of a store that follows the barrier (R177; DEDUCED, log 27). A thread whose
phase has not completed by the end of the pass leaves its bundle (R267). -/
def State.barWord (s : State) (t : BarW) (arrive wait : Bool) : State :=
  match s.pass with
  | none => s
  | some p =>
    let level := t.level.toNat
    let num := t.num.toNat
    let e := p.execs s t.h
    let pre := e.1.filterMap (fun c => (barFault c level).map (fun i => (c.key, i)))
    let cs := e.1.filter (fun c => (barFault c level).isNone)
    let ex := cs.map TCtx.key
    let g := if arrive && level ≠ 1 then s.redPass ex p.tpc else (s, true)
    if !g.2 || (arrive && ex.any (fun k => g.1.writesDue k || g.1.valuesDue k)) then g.1.holdPass p
    else
      let s := if arrive && level ≠ 1 then g.1.redThrough ex else g.1
      -- arrivals in pass order
      let r := cs.foldl (fun (acc : State × List (TKey × TrapInfo)) c =>
        match c.th.deferred.head?, acc.1.barKey c.key level num with
        | some d, _ => (acc.1, acc.2 ++ [(c.key, d.fault c.th.issued)])
        | none, none => acc
        | none, some k =>
          if arrive then
            match acc.1.barArrive c k with
            | .error i => (acc.1, acc.2 ++ [(c.key, i)])
            | .ok s => (s, acc.2)
          else if ((acc.1.thread c.key).bind (fun y => y.arrivedAt k)).isNone then
            (acc.1, acc.2 ++ [(c.key, TrapInfo.of .barrierMisuse 0)])
          else acc) (s, e.2 ++ pre)
      let faults := p.keys.filterMap (fun k => r.2.find? (fun x => x.1 == k))
      let waiters := if wait then cs.filter (fun c => !(faults.any (fun x => x.1 == c.key))) else []
      -- phases that complete before the pass ends
      let keys := (waiters.filterMap (fun c => r.1.barKey c.key level num)).eraseDups
      let s := keys.foldl (fun s k =>
        match (s.bar k).last with
        | some c => if s.barReady k && decide (c + barLatency level < p.stop) then s.phaseComplete k (c + barLatency level) else s
        | none => s) r.1
      -- waits that are over, and waits that begin
      let s := waiters.foldl (fun s c =>
        match s.barKey c.key level num with
        | none => s
        | some k =>
          match (s.thread c.key).bind (fun y => y.arrivedAt k) with
          | none => s
          | some ph =>
            if ph < (s.bar k).phase then (s.modThread c.key (fun y => (y.land c.slot).voidK.unarrive k)).l1Clear p.core
            else s.modThread c.key (fun y => y.waitAt (.barrier level num ph) p.after)) s
      s.endPass p [] faults

/-- BAR (R273). -/
def execBar (t : BarW) (s : State) : Host.Outcome State Fault Refusal := .next (s.barWord t true true)

/-- BARA (R273). -/
def execBara (t : BarW) (s : State) : Host.Outcome State Fault Refusal := .next (s.barWord t true false)

/-- BARW (R273). -/
def execBarw (t : BarW) (s : State) : Host.Outcome State Fault Refusal := .next (s.barWord t false true)

/-! ### PAUSE, KILL, SETX, NOP, TRAP, BKPT, ELECT -/

/-- A pass of a word that only changes its own thread. -/
def State.quickWord (s : State) (h : Hd) (a b : Src) (f : TCtx → List Word → List Word → Except TrapInfo Thread) : State :=
  s.lockstep [a, b] none (fun cs => cs.map (fun c =>
    (c, c.quick h a (fun c ws => match c.read 1 b with | .error e => .error e | .ok bs => f c ws bs))))

/-- PAUSE (R21, R275). -/
def execPause (t : WB) (s : State) : Host.Outcome State Fault Refusal :=
  .next (s.quickWord t.h .none (bI32 t.b) (fun c _ b =>
    let n := min (w0 b).toNat 65535
    .ok { c.th.voidK with pause := if n = 0 then c.th.pause else c.slot + n }))

/-- The storage that a selector of KILL names. -/
def killLoc : Sel → List Nat
  | .v n => [n]
  | .k n => [64 + n]
  | _ => []

/-- KILL (R277). -/
def execKill (t : KillW) (s : State) : Host.Outcome State Fault Refusal :=
  .next (s.quickWord { t.h with k := false } .none .none (fun c _ _ =>
    let locs := killLoc t.d ++ killLoc t.a ++ killLoc t.b
    match locs.find? (fun l => decide (32 ≤ l) && decide (l < 64) && !c.w.ext) with
    | some l => .error (TrapInfo.of .regBlock l)
    | none => .ok (locs.foldl (fun y l => y.setVoid l true) c.th)))

/-- SETX (R278). -/
def execSetx (t : WAB) (s : State) : Host.Outcome State Fault Refusal :=
  .next (s.quickWord t.h (.sel t.a 1) (bI32 t.b) (fun c a b => .ok { c.th with vix := w0 a + w0 b }))

/-- NOP (R284). -/
def execNop (t : HdW) (s : State) : Host.Outcome State Fault Refusal :=
  .next (s.quickWord t.h .none .none (fun c _ _ => .ok c.th))

/-- TRAP (R283). -/
def execTrap (t : TrapW) (s : State) : Host.Outcome State Fault Refusal :=
  .next (s.quickWord t.h .none .none (fun _ _ _ => .error (TrapInfo.of .userTrap t.code.toNat)))

/-- BKPT (R283). -/
def execBkpt (t : HdW) (s : State) : Host.Outcome State Fault Refusal :=
  .next (s.quickWord t.h .none .none (fun _ _ _ => .error (TrapInfo.of .breakpoint 0)))

/-- ELECT (R281). -/
def execElect (t : PW) (s : State) : Host.Outcome State Fault Refusal :=
  .next (s.lockstep [] (some t.p) (fun cs =>
    let rs := cs.map (fun c => (c, c.guard t.h.guard))
    let first := fun (c : TCtx) =>
      (rs.find? (fun r => r.1.key.warp == c.key.warp && (match r.2 with | .ok true => true | _ => false))).map (fun r => r.1.key)
        == some c.key
    rs.map (fun r =>
      (r.1, match r.2 with
        | .error e => .fault e
        | .ok false => .skip r.1.th
        | .ok true => .done { r.1.th with toff := 0 } [if first r.1 then 1 else 0]))))

/-! ### The extended block (R40, R276) -/

/-- Whether a bundle holds every thread of a warp that has not exited. -/
def Pass.whole (p : Pass) (w : Warp) (n : Nat) : Bool :=
  (w.keys n).all (fun k => p.keys.contains k || ((w.threads[k.slot]?).map (fun t => t.st == .exited)).getD true)

/-- Whether a lane can grant at once: a block free and no request queued. -/
def State.extFree (s : State) (w : Warp) : Bool := 0 < s.laneFree w.core w.lane && (s.laneQueue w.core w.lane).isEmpty

/-- A word of the extended block, warp by warp: `f` says what a whole warp's word does, or its fault; a warp that is not whole
faults. `busy` faults come before. -/
def State.extWord (s : State) (h : Hd) (handlerOk : Bool) (f : State → Pass → Nat → Warp → List TCtx → Except Nat State) : State :=
  match s.pass with
  | none => s
  | some p =>
    let e := p.execs s h
    let pre := if handlerOk then [] else (e.1.filter (fun c => c.th.handler)).map (fun c => (c.key, TrapInfo.of .barrierMisuse 0))
    let live := e.1.filter (fun c => !(pre.any (fun x => x.1 == c.key)))
    let r := (byWarp live).foldl (fun (acc : State × List (TKey × TrapInfo)) g =>
      match Tab.find acc.1.warps g.1 with
      | none => acc
      | some w =>
        match (if p.whole w g.1 then f acc.1 p g.1 w g.2 else .error 0xFF) with
        | .error i => (acc.1, acc.2 ++ g.2.map (fun c => (c.key, TrapInfo.of .regBlock i)))
        | .ok s => (s, acc.2)) (s, e.2 ++ pre)
    r.1.endPass p [] (p.keys.filterMap (fun k => r.2.find? (fun x => x.1 == k)))

/-- The slot of a warp's word. -/
def slotOf (cs : List TCtx) : Nat := (cs.head?.map TCtx.wslot).getD 0

/-- The executing threads' k slots void at their slots (R37). -/
def State.voidKs (s : State) (cs : List TCtx) : State := cs.foldl (fun s c => s.modThread c.key (fun t => (t.land c.slot).voidK)) s

/-- REGACQ (Table 3.2). -/
def execRegacq (t : HdW) (s : State) : Host.Outcome State Fault Refusal :=
  .next (s.extWord t.h false (fun s p n w cs =>
    if w.ext then .error 0xFE
    else if s.extFree w then .ok ((s.voidKs cs).modWarp n (fun w => w.grant (slotOf cs)))
    else
      .ok (cs.foldl (fun s c => s.modThread c.key (fun t => t.waitAt .regacq p.after))
        ((s.voidKs cs).modWarp n (fun w => { w with acqAt := some (slotOf cs) })))))

/-- REGTRY (Table 3.2). -/
def execRegtry (t : PW) (s : State) : Host.Outcome State Fault Refusal :=
  .next (s.extWord t.h true (fun s p n w cs =>
    let ok := w.ext || s.extFree w
    .ok ((if ok && !w.ext then s.modWarp n (fun w => w.grant (slotOf cs)) else s).putPreds p (some t.p)
      (cs.map (fun c => (c, [if ok then 1 else 0]))))))

/-- REGREL (Table 3.2). -/
def execRegrel (t : HdW) (s : State) : Host.Outcome State Fault Refusal :=
  .next (s.extWord t.h true (fun s _ n w cs =>
    if w.ext then
      .ok (((s.voidKs cs).modWarp n Warp.ungrant).grantLane w.core w.lane (slotOf cs) Config.laneBlocks)
    else .error 0xFE))

/-! ### Special registers (R82, R279, R280) -/

/-- A 32-bit value as a register's words. -/
def natWord (n : Nat) : List Word := [BitVec.ofNat 32 n]

/-- The words of a special register as it stands at a thread's slot (Table 4.20). -/
def State.special (s : State) (c : TCtx) (r : SReg) : List Word :=
  let core := c.p.core
  match r with
  | .workid => Dword.words (s.workIdOf c.key)
  | .levels => Dword.words c.p.rcd.levels
  | .slot => natWord c.key.slot
  | .warp => natWord c.w.num
  | .lane => natWord (c.p.lane % Config.lanes)
  | .core => natWord core
  | .cluster => natWord (core / Config.coresPerCluster)
  | .part => natWord c.p.part
  | .clock => Dword.words (BitVec.ofNat 64 (c.slot - (s.core core).resetAt))
  | .flags => [c.th.flags.setWidth 32]
  | .rmode => [c.th.rmode.setWidth 32]
  | .vix => [c.th.vix]
  | .extheld => natWord (if c.w.ext then 1 else 0)
  | .link => Dword.words c.th.link
  | .floor => Dword.words (c.w.floorFor c.p.bundle c.slot)
  | .settled => Dword.words s.settled
  | .horizon => Dword.words (s.part c.p.part).horizon
  | .tcause => natWord c.th.trap.cause.code
  | .tinfo => [c.th.trap.info]
  | .tpc => Dword.words c.th.trap.tpc
  | .taddr => Dword.words c.th.trap.addr
  | .tskid => [c.th.trap.skid]
  | .tmask => [c.th.tmask]
  | .synd => Dword.words c.th.trap.synd
  | .tunit => [c.th.trap.unit]
  | .tstamp => Dword.words c.th.trap.stamp
  | .nbv => natWord c.p.rcd.nbv

/-- SREAD (R279). -/
def execSread (t : SReadW) (s : State) : Host.Outcome State Fault Refusal :=
  .next ((if t.r = SReg.flags then s.mergeFlags [] else s).vector
    { h := t.h, am := none, a := .none, b := .none, c := .none, cfld := 2, d := some (t.d, if SReg.pair t.r then 2 else 1), pred := none,
      lat := 4, shifts := true } (fun c _ _ _ => (s.special c t.r, 0)))

/-- The words that SWRITE reads. -/
def WReg.words : WReg → Nat
  | .link | .floor => 2
  | _ => 1

/-- SWRITE (R280). -/
def execSwrite (t : SWriteW) (s : State) : Host.Outcome State Fault Refusal :=
  .next ((if t.r = WReg.flags then s.mergeFlags [.sel t.a (WReg.words t.r)] else s).serial [.sel t.a (WReg.words t.r)] (fun s c =>
    match c.quick t.h (.sel t.a (WReg.words t.r)) (fun c ws =>
      .ok (match t.r with
        | .flags => { c.th with flags := (w0 ws).setWidth 5 }
        | .rmode => { c.th with rmode := (w0 ws).setWidth 2 }
        | .vix => { c.th with vix := w0 ws }
        | .link => { c.th with link := dwordOf ws }
        | .floor => c.th)) with
    | .done th ws =>
      (match t.r with
        | .floor => s.modWarp c.key.warp (fun w =>
            { w with fpend := w.fpend ++ [{ val := dwordOf ws, bundle := c.p.bundle, other := c.slot + 4 }] })
        | _ => s, .done th ws)
    | r => (s, r)))

/-! ### ASSERT (R282) -/

/-- ASSERT (R282). -/
def execAssert (t : SAW) (s : State) : Host.Outcome State Fault Refusal :=
  .next (
    match s.pass with
    | none => s
    | some p =>
      let e := p.execs s t.h
      let ex := e.1.map TCtx.key
      let g := s.redPass ex p.tpc
      if ex.isEmpty then s.endPass p [] e.2
      else if !g.2 || ex.any g.1.exitDue then g.1.holdPass p
      else
        let reads := e.1.map (fun c => (c, c.sread 0 t.a 2))
        let bad := reads.filterMap (fun r => match r.2 with | .error i => some (r.1.key, i) | _ => none)
        let fired := reads.filterMap (fun r => match r.2 with | .ok ws => some (r.1, dwordOf ws) | _ => none)
        match fired.head? with
        | none => g.1.endPass p [] (p.keys.filterMap (fun k => (e.2 ++ bad).find? (fun x => x.1 == k)))
        | some (c, ptr) =>
          let s := fired.foldl (fun s r => s.modThread r.1.key (fun th =>
            th.recordTrap (TrapInfo.of .assertion 0) p.tpc th.skid ⟨p.pc, p.first⟩)) g.1
          let s := { s with cur := none, fresh := s.fresh + 1024 }
          (s.stopContext p.launch).emit (.debugEvent p.part (s.workIdOf c.key) fired.length p.tpc ptr))

end Sys2Proof.Machine
end

