-- ==== Sys2Proof/Machine/Eng.lean ====
section
/-! DEFINITION. What the engines share (spec/17): own-scratchpad offsets, the handing of commands, range locks, arrival words, the
engine's accesses to global memory; and the ENG words of spec/17: ARVI, KICK, SEND, SLOTRD and RLQ. -/

namespace Sys2Proof.Machine

/-! ### Own-scratchpad offsets (R389) -/

/-- The generic address of an own-scratchpad offset. -/
def ownAddr (off : Nat) : Dword := BitVec.ofNat 64 (0xFF00000000000000 + off % 2 ^ 32)

/-- A block's area on a core, as base and size. -/
def State.ownArea (s : State) (block core : Nat) : Option (Nat × Nat) :=
  (Tab.find s.blocks block).bind (fun b => (Tab.find b.areas core).map (fun a => (a, b.size)))

/-- The scratchpad address of `n` bytes at an offset of a block's area. -/
def State.ownBytes (s : State) (block core off n : Nat) : Option Nat :=
  (s.ownArea block core).bind (fun a => if off + n ≤ a.2 then some (a.1 + off) else none)

/-- An offset checked: its alignment, then that its bytes lie in the area. -/
def State.ownCheck (s : State) (block core off align n : Nat) : Except TrapInfo Nat :=
  if off % align ≠ 0 then .error (TrapInfo.at_ .misaligned (ownAddr off))
  else
    match s.ownBytes block core off n with
    | none => .error (TrapInfo.at_ .addrInvalid (ownAddr off))
    | some a => .ok a

/-- An offset checked, and then its bytes against the locks of Table 9.10. -/
def State.ownLocked (s : State) (block core off align n : Nat) (write : Bool) : Except TrapInfo Nat :=
  match s.ownCheck block core off align n with
  | .error e => .error e
  | .ok a =>
    if decide (0 < n) && (s.core core).locked .scratch a n write then .error (TrapInfo.at_ .rangeLock (ownAddr off)) else .ok a

/-! ### Words that hand commands over (R295, R308, R358, R380) -/

/-- A thread that has handed its command over: its K mark applied. -/
def TCtx.handed (c : TCtx) (h : Hd) (a : Src) : Thread := c.mark h a { c.th with toff := 0 }

/-- w4 of a warp raised for one more command of a word: the word is counted once, and keeps one response in hand until its pass
ends. -/
def Warp.hand (w : Warp) (word : Nat) : Warp :=
  if w.out.any (fun o => o.word == word) then
    { w with out := w.out.map (fun o => if o.word = word then { o with left := o.left + 1 } else o) }
  else w.openWord word 4 2

/-- What a word that hands commands over does: its sources, whether it counts in w4, whether it is a release (R183), whether each thread's
checks come before it waits (`early`, R303) or after, whether the unit has no room for a command, what each thread's operands make of it,
and the handing over, given the word's number and the command's. -/
structure Hand (α : Type) where
  h : Hd
  srcs : List Src
  counts : Bool
  release : Bool
  early : Bool
  full : State → Pass → α → Bool
  plan : State → TCtx → Except TrapInfo α
  act : State → TCtx → Nat → Nat → α → State

/-- Whether a release must wait for a thread: for its earlier stores and atomics, and, but for a SEND, which orders those alone (Table 24.1),
for the values of its earlier loads, which may not depend on what the command does (R177, R183). -/
def Hand.due (d : Hand α) (s : State) (t : TKey) : Bool := s.writesDue t || (!d.early && s.valuesDue t)

/-- Whether w4 of a warp cannot take the word, which it does not count yet (R308). -/
def Hand.wide (d : Hand α) (s : State) (w word : Nat) : Bool :=
  d.counts && (Tab.find s.warps w).any (fun x => x.ctr[4] == 63 && !(x.out.any (fun o => o.word == word)))

/-- The threads of a pass hand their commands over in pass order, until one must wait, for its earlier stores, its warp's w4 or room in the
unit: answers the state, the threads that have acted, the faults, and whether the pass must wait. -/
def Hand.all (d : Hand α) (p : Pass) (base : Nat) : List TCtx → State → State × List TKey × List (TKey × TrapInfo) × Bool
  | [], s => (s, [], [], false)
  | c :: rest, s =>
    match d.plan s c with
    | .error i =>
      let r := Hand.all d p base rest s
      (r.1, r.2.1, (c.key, i) :: r.2.2.1, r.2.2.2)
    | .ok x =>
      let word := p.wordId base c.key.warp
      let g := if d.release && d.early then s.redPass [c.key] p.tpc else (s, true)
      let s := g.1
      if !g.2 || (d.release && d.early && d.due s c.key) || d.wide s c.key.warp word || d.full s p x then (s, [], [], true)
      else
        let s := if d.counts then s.modWarp c.key.warp (fun w => w.hand word) else s
        let r := Hand.all d p base rest (d.act s c word (base + 32 + c.j) x)
        (r.1, c.key :: r.2.1, r.2.2.1, r.2.2.2)

/-- A pass of a word that hands commands over. -/
def State.handWord (s : State) (d : Hand α) : State :=
  match s.pass with
  | none => s
  | some p0 =>
    let p := { p0 with dur := p0.slotDur s d.srcs }
    let acted := ((Tab.find s.bundles p.port).map Bundle.acted).getD []
    let failed := ((Tab.find s.bundles p.port).map Bundle.failed).getD []
    let e := p.execs s d.h
    let todo := e.1.filter (fun c => !acted.contains c.key && !failed.any (fun f => f.1 == c.key))
    let ex := todo.map TCtx.key
    if (d.counts && acted.isEmpty && p.full s 4) || ex.any s.blocked then s.holdPass p
    else
      let g := if d.release && !d.early then s.redPass ex p.tpc else (s, true)
      if !g.2 || (d.release && !d.early && ex.any (d.due g.1)) then g.1.holdPass p
      else
        let base := if acted.isEmpty then g.1.uid else ((Tab.find s.bundles p.port).map Bundle.acts).getD 0
        let s := if acted.isEmpty then { g.1 with uid := base + 64 } else g.1
        let r := d.all p base todo s
        let u := if d.release then r.1.redThrough (r.2.1 ++ r.2.2.1.map (·.1)) else r.1
        let done := acted ++ r.2.1
        let bad := failed ++ r.2.2.1
        if r.2.2.2 then (u.modBundle p.port (fun b => { b with acted := done, acts := base, failed := bad })).holdPass p
        else
          let s := if d.counts then
              ((done.map TKey.warp).eraseDups).foldl (fun s w => s.modWarp w (fun x => x.answer (p.wordId base w) none s.cycle)) u
            else u
          s.endPass p [] (p.keys.filterMap (fun k => (e.2 ++ bad).find? (fun x => x.1 == k)))

/-! ### Words on the own scratchpad -/

/-- A thread of a serial pass: its guard, its operands A, B and addend, what the effect answers, and its commit. -/
def State.onOwn (s : State) (c : TCtx) (v : VWord)
    (f : State → List Word → List Word → Except TrapInfo (State × List Word)) : State × Did :=
  match c.guard v.h.guard with
  | .error e => (s, .fault e)
  | .ok false => (s, .skip (c.skipped v))
  | .ok true =>
    match c.operands v with
    | .error e => (s, .fault e)
    | .ok (a, b, _) =>
      match f s a b with
      | .error e => (s, .fault e)
      | .ok (s1, ws) =>
        match c.commit v ws 0 (c.slot + v.lat) with
        | .fault e => (s, .fault e)
        | r => (s1, r)

/-- A word with operands A and B and a D readable after `lat` cycles. -/
def ownWord (h : Hd) (a b : Src) (d : Option (Sel × Nat)) (lat : Nat) (shifts : Bool) : VWord :=
  { h := h, am := none, a := a, b := b, c := .none, cfld := 2, d := d, pred := none, lat := lat, shifts := shifts }

/-- A pass of such a word. -/
def State.ownPass (s : State) (v : VWord) (f : State → TCtx → List Word → List Word → Except TrapInfo (State × List Word)) : State :=
  s.serial [v.a, v.b] (fun s c => s.onOwn c v (fun s a b => f s c a b))

/-- A pass held while the scratchpad access that its word makes must wait in some executing thread. -/
def State.afterOwn (s : State) (h : Hd) (writes : Bool) (go : State → State) : State :=
  match s.pass with
  | none => s
  | some p => if (p.execs s h).1.any (fun c => s.accessDue c.key writes) then s.holdPass p else go s

/-- ARVI (R248). -/
def execArvi (t : WAB) (s : State) : Host.Outcome State Fault Refusal :=
  .next (s.afterOwn t.h true (fun s => s.ownPass (ownWord t.h (.sel t.a 1) (bI32 t.b) none 4 false) (fun s c a b =>
    match s.ownLocked c.w.block c.p.core (w0 a).toNat 8 8 true with
    | .error e => .error e
    | .ok x => .ok (s.scratchPut c.p.core x (leBytes (w0 b).toNat 8), []))))

/-- SLOTRD (R306). -/
def execSlotrd (t : FsD) (s : State) : Host.Outcome State Fault Refusal :=
  .next (s.vector (ownWord t.h .none .none (some (t.d, 2)) 4 false)
    (fun c _ _ _ => (Dword.words (c.p.rcd.slots.getD t.s.val 0), 0)))

/-! ### RLQ (R305) -/

/-- Where an address stands in a core's lock table: its space and place there, when it decodes to one that the table may hold. -/
def State.lockPlace (s : State) (c : TCtx) (ea : Dword) : Option (LockSpace × Nat) :=
  match decodeAddr .glb ea with
  | .glb va => (Tab.find s.launches c.p.launch).map (fun l => (l.xlat.lockSpace, va))
  | t =>
    match s.scratchPlace c.w.block c.p.core c.p.rcd t with
    | some (q, a, _) => if q = c.p.core then some (.scratch, a) else none
    | none => none

/-- Whether an access of an interval would break Table 9.10. -/
def State.wouldLock (s : State) (c : TCtx) (ea : Dword) (n : Nat) (write : Bool) : Bool :=
  match s.lockPlace c ea with
  | some (sp, a) => decide (0 < n) && (s.core c.p.core).locked sp a n write
  | none => false

/-- A query of the range locks. -/
def State.rlqWord (s : State) (t : RlqW) (write : Bool) : State :=
  s.vector { ownWord t.h (.sel t.a 2) (bI32 t.b) none 4 false with pred := some t.p }
    (fun c a b _ => ([if s.wouldLock c (dwordOf a) (w0 b).toNat write then 1 else 0], 0))

/-- RLQ.rd (R305). -/
def execRlqRd (t : RlqW) (s : State) : Host.Outcome State Fault Refusal := .next (s.rlqWord t false)

/-- RLQ.wr (R305). -/
def execRlqWr (t : RlqW) (s : State) : Host.Outcome State Fault Refusal := .next (s.rlqWord t true)

/-! ### KICK (R249) -/

/-- The copy engine of a core changed. -/
def State.modCopy (s : State) (core : Nat) (f : CopyEng → CopyEng) : State := s.modCore core (fun c => { c with copy := f c.copy })

/-- Whether a copy engine holds 16 chains that it has not begun. -/
def CopyEng.full (e : CopyEng) : Bool := 16 ≤ (e.queue.filter (fun q => q.count == 0)).length

/-- KICK (R249, R295). -/
def execKick (t : WA) (s : State) : Host.Outcome State Fault Refusal :=
  .next (s.handWord
    { h := t.h, srcs := [.sel t.a 1], counts := true, release := true, early := false
      full := fun s p _ => (s.core p.core).copy.full
      plan := fun _ c =>
        match c.read 0 (.sel t.a 1) with
        | .error e => .error e
        | .ok a => if (w0 a).toNat % 64 ≠ 0 then .error (TrapInfo.at_ .misaligned (ownAddr (w0 a).toNat)) else .ok (w0 a).toNat
      act := fun s c word id off =>
        (s.modThread c.key (fun _ => c.handed t.h (.sel t.a 1))).modCopy c.p.core (fun e =>
          { e with
            due := if e.queue.isEmpty then c.slot + nearDelay else e.due
            queue := e.queue ++ [{ op := id, block := c.w.block, warp := c.key.warp, word := word, at_ := off, count := 0,
                                   floor := c.w.floorFor c.p.bundle c.slot, told := false }] }) })

/-! ### SEND (R303) -/

/-- A CAP_FAULT with its reason. -/
def capFault (reason off : Nat) : TrapInfo :=
  { cause := .capFault, info := BitVec.ofNat 32 reason, addr := ownAddr off, stamp := 0, from_ := none }

/-- A SEND's plan: its thread and copy, the capability's number and entry, the payload's place and length, the locations of D,
and the operand A. -/
structure SendPlan where
  key : TKey
  shadow : Bool
  i : Nat
  cap : Cap
  off : Nat
  len : Nat
  dst : List Nat
  a : Dword
deriving DecidableEq, Repr

/-- A SEND's checks in a thread. The shadow copy of a redundant launch sends nothing, so its allowance is not checked. -/
def State.sendPlan (s : State) (c : TCtx) (t : WDAB) : Except TrapInfo SendPlan :=
  match c.read 0 (.sel t.a 2) with
  | .error e => .error e
  | .ok a =>
    match c.read 1 (bI32 t.b) with
    | .error e => .error e
    | .ok b =>
      match c.dest (some (t.d, 1)) with
      | .error e => .error e
      | .ok locs =>
        match c.writeCheck locs with
        | some e => .error e
        | none =>
          let i := (w0 a).toNat
          let shadow := s.redCopy c.key.warp == some true
          let off := (dwordOf a).hi.toNat
          let len := (w0 b).toNat
          match Tab.find s.launches c.p.launch with
          | none => .error (capFault 1 off)
          | some l =>
            match (if i < l.rcd.capn then l.caps[i]? else none) with
            | none => .error (capFault 1 off)
            | some k =>
              if !k.valid then .error (capFault 2 off)
              else if !k.send then .error (capFault 3 off)
              else if 4096 < len then .error (capFault 4 off)
              else
                match s.ownBytes c.w.block c.p.core off len with
                | none => .error (capFault 5 off)
                | some x =>
                  if k.allow < len && !shadow then .error (capFault 6 off)
                  else .ok { key := c.key, shadow := shadow, i := i, cap := k, off := x, len := len, dst := locs, a := dwordOf a }

/-- A capability's allowance changed. -/
def State.modAllow (s : State) (launch i : Nat) (f : Nat → Nat) : State :=
  s.modLaunch launch (fun l => { l with caps := l.caps.modify i (fun k => { k with allow := f k.allow }) })

/-- The operands of a redundant thread's SEND or CKPT fed to its signature, and the access counted (Table 18.4). -/
def State.redOperand (s : State) (t : TKey) (x : Dword) (n : Nat) : State :=
  match s.redCopy t.warp with
  | none => s
  | some _ => s.modThread t (fun th => { th.redFeed (leBytes x.toNat 8 ++ leBytes n 4) false with accesses := th.accesses + 1 })

/-- SEND (R303). -/
def execSend (t : WDAB) (s : State) : Host.Outcome State Fault Refusal :=
  .next (s.handWord
    { h := t.h, srcs := [.sel t.a 2, bI32 t.b], counts := true, release := true, early := true
      full := fun s p x => if x.shadow then s.redBehind x.key else decide (32 ≤ (s.core p.core).locks.length)
      plan := fun s c => s.sendPlan c t
      act := fun s c word id x =>
        let m : SendMsg :=
          { id := id, launch := c.p.launch, thread := c.key, word := word, dst := x.dst.head?, cap := x.i, pkg := x.cap.pkg,
            part := x.cap.part, tag := x.cap.tag, fire := x.cap.fire, rwrite := x.cap.rwrite,
            floor := c.w.floorFor c.p.bundle c.slot, shadow := x.shadow, access := c.th.accesses, core := c.p.core, off := x.off,
            len := x.len, op := id, payload := if x.shadow then some [] else none, status := none, retry := 0, late := none,
            due := c.slot + nearDelay }
        let s := s.modThread c.key (fun _ => c.expect word id [] (c.handed t.h (.sel t.a 2)) x.dst)
        let s := s.redOperand c.key x.a x.len
        if x.shadow then { s with sends := s.sends ++ [m] }
        else
          let l : Lock := { op := id, block := c.w.block, space := .scratch, lo := x.off, hi := x.off + x.len, dst := false }
          { (s.modAllow c.p.launch x.i (fun n => n - x.len)).modCore c.p.core (fun y => { y with locks := y.locks ++ [l] }) with
            sends := s.sends ++ [m] } })

/-! ### Locks of engine operations (R185) -/

/-- Whether every core's table has room for the entries that an operation needs. -/
def State.locksFit (s : State) (ls : List (Nat × Lock)) : Bool :=
  ((ls.map (·.1)).eraseDups).all (fun c => decide ((s.core c).locks.length + (ls.filter (fun l => l.1 == c)).length ≤ 32))

/-- Whether a range overlaps a destination that another operation holds in the same table. -/
def State.locksClash (s : State) (ls : List (Nat × Lock)) : Bool :=
  ls.any (fun l => (s.core l.1).locks.any (fun k => k.dst && k.op != l.2.op && k.covers l.2.space l.2.lo (l.2.hi - l.2.lo)))

/-- The entries of an operation put into their tables. -/
def State.addLocks (s : State) (ls : List (Nat × Lock)) : State :=
  ls.foldl (fun s l => s.modCore l.1 (fun c => { c with locks := c.locks ++ [l.2] })) s

/-- Every entry of an operation freed. -/
def State.freeLocks (s : State) (op : Nat) : State :=
  { s with cores := s.cores.map (fun e => (e.1, { e.2 with locks := e.2.locks.filter (fun l => l.op != op) })) }

/-- A write of an engine's operation at a scratchpad, `far` when it comes from another core or through a mirror window: its own
entries are no hindrance; those of other operations are (R185, R186). -/
def State.engPut (s : State) (op : Nat) (far : Bool) (core a : Nat) (data : List Byte) : State :=
  if !far || !((s.core core).locks.any (fun l => l.op != op && l.covers .scratch a data.length)) then s.scratchPut core a data
  else
    let mine := (s.core core).locks.filter (fun l => l.op == op)
    let s := s.modCore core (fun c => { c with locks := c.locks.filter (fun l => l.op != op) })
    (s.remotePut core a data).modCore core (fun c => { c with locks := c.locks ++ mine })

/-! ### Places that an engine names -/

/-- A target moved by a displacement within its space. -/
def Target.shift (t : Target) (d : Int) : Option Target :=
  let go := fun (off : Nat) (mk : Nat → Target) => if (off : Int) + d < 0 then none else some (mk ((off : Int) + d).toNat)
  match t with
  | .glb va => go va .glb
  | .own off => go off .own
  | .clw q off => go off (.clw q)
  | .mir m off => go off (.mir m)
  | .par off => go off .par
  | .bad => none

/-- Who an engine acts for: its core, the block, and the launch record, translation and copy that the block runs under. -/
structure EngCtx where
  core : Nat
  block : Nat
  launch : Nat
  rcd : Record
  xlat : Xlat
  shadow : Bool
deriving DecidableEq, Repr

/-- The context of a block's command on a core, while the block is resident. -/
def State.engCtx (s : State) (core block : Nat) : Option EngCtx :=
  match Tab.find s.blocks block with
  | none => none
  | some b => (Tab.find s.launches b.launch).map (fun l =>
      { core := core, block := block, launch := b.launch, rcd := l.rcd, xlat := l.xlat, shadow := b.shadow && l.rcd.red })

/-- Whether an engine stands still for a command: its context has been taken off the core (R312, R315). -/
def State.engStill (s : State) (block : Nat) : Bool :=
  match Tab.find s.blocks block with
  | none => false
  | some b =>
    (Tab.find s.launches b.launch).any (fun l => l.offAt (((Tab.find s.groups b.group).map Group.cluster).getD 0 * Config.coresPerCluster))

/-- The bytes that a command names from an address, from displacement `lo` to `hi`: every byte of a scratchpad or window range must
exist. `ok` is whether the space is allowed. -/
def State.spanOk (s : State) (x : EngCtx) (ea : Dword) (lo hi : Int) (mirror : Bool) : Bool :=
  let t := decodeAddr .glb ea
  let ends := fun (t : Target) => (s.scratchPlace x.block x.core x.rcd t).isSome
  match t with
  | .glb _ => true
  | .own _ | .clw _ _ => (t.shift lo).any ends && (t.shift (hi - 1)).any ends
  | .mir _ _ => mirror && (t.shift lo).any ends && (t.shift (hi - 1)).any ends
  | _ => false

/-- The members of a mirror window whose area holds `n` bytes at a window offset, with their scratchpad address and how many bytes of the
area follow it (R301). -/
def State.mirrorPlaces (s : State) (x : EngCtx) (m off n : Nat) : List (Nat × Nat × Nat) :=
  match x.rcd.window m with
  | none => []
  | some w => (s.mirrorCores x.launch w x.shadow).filterMap (fun c =>
      match s.mirrorArea x.launch c x.shadow with
      | none => none
      | some a => if w.base + off + n ≤ a.2 then some (c, a.1 + w.base + off, a.2 - w.base - off) else none)

/-- The lock entries of a range (R185): one in the table of the core that holds it, or one in each member's for a mirror window. -/
def State.spanLocks (s : State) (x : EngCtx) (op : Nat) (ea : Dword) (lo hi : Int) (dst : Bool) : List (Nat × Lock) :=
  let n := (hi - lo).toNat
  let mk := fun (sp : LockSpace) (a n : Nat) => ({ op := op, block := x.block, space := sp, lo := a, hi := a + n, dst := dst } : Lock)
  match (decodeAddr .glb ea).shift lo with
  | none => []
  | some (.glb va) => [(x.core, mk x.xlat.lockSpace va n)]
  | some (.mir m off) => (s.mirrorPlaces x m off 1).map (fun q => (q.1, mk .scratch q.2.1 (min n q.2.2)))
  | some t =>
    match s.scratchPlace x.block x.core x.rcd t with
    | some (q, a, _) => [(q, mk .scratch a n)]
    | none => []

/-- One element's place: a global address, or scratchpad bytes. -/
inductive EPlace where
  | glb (va : Nat)
  | scr (l : List (Nat × Nat)) (far : Bool)
deriving DecidableEq, Repr

/-- The place of an element of `n` bytes at an address. An element of a mirror window that goes beyond a member's area has no place
there. -/
def State.engPlace (s : State) (x : EngCtx) (n : Nat) (ea : Dword) : EPlace :=
  match decodeAddr .glb ea with
  | .glb _ | .bad | .par _ => .glb ea.toNat
  | .mir m off => .scr ((s.mirrorPlaces x m off n).map (fun q => (q.1, q.2.1))) true
  | t =>
    match s.scratchPlace x.block x.core x.rcd t with
    | some (q, a, _) => .scr [(q, a)] (q != x.core)
    | none => .scr [] false

/-! ### Arrival words (R296, R297) -/

/-- An update of an arrival word: the units completed, or an error. Answers the word and whether the update is the operation's
last. -/
def arriveUpd (w : Dword) (kind units err : Nat) : Dword × Bool :=
  let remain := natBits w.toNat 0 32
  let under := remain < units
  let remain' := remain - units
  let old := natBits w.toNat 32 8
  let e := if err ≠ 0 then err else if under then 6 else 0
  let set := e ≠ 0
  let err' := if old ≠ 0 then old else e
  (BitVec.ofNat 64 (remain' + err' * 2 ^ 32 + kind * 2 ^ 40), set || remain' = 0)

/-- An arrival word updated by an operation whose global stores carried stamps up to `floor`; answers whether the update is
final, and whether it is one of REMAIN below zero. -/
def State.arrive_ (s : State) (core a kind units err : Nat) (floor : Dword) : State × Bool × Bool :=
  let w : Dword := BitVec.ofNat 64 (leNat (s.scratchGet core a 8))
  let r := arriveUpd w kind units err
  (s.arrivalPut core a r.1 floor r.2, r.2, decide (natBits w.toNat 0 32 < units) && err == 0)

/-! ### Engine accesses to global memory (R225) -/

/-- How an engine's translation ends. -/
inductive EngXlat where
  | ok (e : TlbEntry)
  | err (n : Nat)
  | wait (s2 : Bool) (page : Nat)
deriving DecidableEq, Repr

/-- What a walk's miss does to an engine's command: denied at once where the queue is disabled (R227), else a page request. -/
def State.engMiss (s : State) (core : Nat) (x : Xlat) (kind : Nat) (s2 : Bool) (page : Nat) : State × EngXlat :=
  if s.queueOff x s2 page then (s, .err 2) else (s.pageRequest x core kind s2 page, .wait s2 page)

/-- An engine's translation through an entry: WRITE, DIRTY and CKPT (R223, R294). -/
def State.engUse (s : State) (core : Nat) (x : Xlat) (va : Nat) (write : Bool) (e : TlbEntry) : State × EngXlat :=
  if write && !e.attrs.write then (s, .err 2)
  else if write then
    match s.setDirty e va with
    | (s, none) => (s, .ok e)
    | (s, some (s2, page)) => s.engMiss core x 5 s2 page
  else (s, .ok e)

/-- An engine's translation of an address. -/
def State.engXlat (s : State) (core : Nat) (x : Xlat) (va : Nat) (write : Bool) : State × EngXlat :=
  match s.tlbLookup core x va with
  | some (e, s) => s.engUse core x va write e
  | none =>
    let r := s.walkAll x va
    let s := s.setAccessed r.2
    match r.1 with
    | .ok e => (s.tlbInstall core e).engUse core x va write e
    | .miss s2 page table => s.engMiss core x (if table then 6 else if write then 5 else 4) s2 page
    | .fatal _ => (s, .err 2)
    | .ue _ => (s.countUe x.part, .err 1)

/-- The translations of a list of addresses, each with whether it is written, page by page; stops at the first that is not
translated. -/
def State.engPages (s : State) (core : Nat) (x : Xlat) : List (Nat × Bool) → State × Except EngXlat (List ((Nat × Bool) × TlbEntry))
  | [] => (s, .ok [])
  | (va, w) :: rest =>
    match s.engXlat core x va w with
    | (s, .ok e) =>
      match State.engPages s core x rest with
      | (s, .ok l) => (s, .ok (((va, w), e) :: l))
      | r => r
    | (s, r) => (s, .error r)

/-- The entry for an address among translated pages. -/
def pageEntry (l : List ((Nat × Bool) × TlbEntry)) (va : Nat) (write : Bool) : Option TlbEntry :=
  (l.find? (fun e => e.1.1 == pageOf va && e.1.2 == write)).map (·.2)

/-- Whether a line still carries the stamp that a command has given it. -/
def State.stillStamped (s : State) (line : Nat) (x : Dword) : Bool := (Tab.find s.lineMeta line).all (fun m => m.stamp == x)

/-- Bytes written by a command to global memory at its home slice. A line is stamped once (R294), unless another write has stamped it
meanwhile (DEDUCED, log 57); answers the stamp, and the lines stamped so far with it; nothing when a hold makes the write wait (R173). -/
def State.engStore (s : State) (x : EngCtx) (e : TlbEntry) (va : Nat) (floor : Dword) (data : List Byte) (lines : List (Nat × Dword)) :
    Option (State × Dword × List (Nat × Dword)) :=
  let pa := e.phys va
  if x.shadow then some (s, 0, lines)
  else
    match lines.find? (fun l => l.1 == lineOf pa && s.stillStamped l.1 l.2) with
    | some l => some (s.putBytes pa data, l.2, lines)
    | none =>
      let r := s.assignStamp (homeSlice pa) floor
      if e.attrs.hist && s.wouldStall x.xlat.part r.2 then none
      else some ((r.1.noteHistory x.xlat.part pa e.attrs.hist r.2).putBytes pa data, r.2,
        (lineOf pa, r.2) :: lines.filter (fun l => l.1 != lineOf pa))

/-- A partition's hold noted as making a write wait. -/
def State.noteStall (s : State) (part : Nat) : State :=
  s.modPart part (fun p => { p with stallSince := some (p.stallSince.getD s.cycle) })

/-- Lines found poisoned passed on to the destination (R299, R360). -/
def State.poisonLines (s : State) (pas : List Nat) : State :=
  { s with poison := pas.foldl (fun l a => if l.contains (lineOf a) then l else lineOf a :: l) s.poison }

/-- Bytes that an error leaves undefined: free values at a list of places (log 7). -/
def State.spoil (s : State) (x : EngCtx) (ps : List EPlace) (n : Nat) : State :=
  let s' := ps.zipIdx.foldl (fun s e =>
    let data := (List.range n).map (fun i => Config.freeByte (s.fresh + e.2 * n + i))
    match e.1 with
    | .scr l _ => l.foldl (fun s q => s.scratchPut q.1 q.2 data) s
    | .glb va =>
      match (if x.shadow then none else s.peekXlat x.xlat va) with
      | some t => { s with mem := s.mem.puts (t.phys va) data }
      | none => s) s
  { s' with fresh := s.fresh + ps.length * n + 1 }

end Sys2Proof.Machine
end

