-- ==== Sys2Proof/Machine/Copy.lean ====
section
/-! DEFINITION. The copy request engine (spec/17 R291 to R299, spec/14 R249): requests, chains, granules and errors. -/

namespace Sys2Proof.Machine

/-! ### Requests (Table 17.1) -/

/-- A request read from its 64 bytes. -/
def copyReq (l : List Byte) : CopyReq :=
  let f := fun (o n : Nat) => leNat ((l.drop o).take n)
  { rsvd := f 0 4 / 512 + f 0x34 4, last := natBit (f 0 4) 8, esz := natBits (f 0 4) 4 4, op := natBits (f 0 4) 0 4,
    arrive := f 4 4, src := BitVec.ofNat 64 (f 8 8), dst := BitVec.ofNat 64 (f 0x10 8), len0 := f 0x18 4, len1 := f 0x1C 4,
    ss1 := BitVec.ofNat 64 (f 0x20 8), ds1 := BitVec.ofNat 64 (f 0x28 8), len2 := f 0x30 4, resume := f 0x38 8 }

/-- The rows of a request, over all its planes (R292). -/
def CopyReq.rows (r : CopyReq) : Nat := (if r.op = 2 || r.op = 3 then r.len1 else 1) * (if r.op = 3 then r.len2 else 1)

/-- The bytes a request moves. -/
def CopyReq.total (r : CopyReq) : Nat := r.len0 * r.rows

/-- The bytes of an element. -/
def CopyReq.elem (r : CopyReq) : Nat := 2 ^ r.esz

/-- The displacement of the byte at a place in copy order, under a row stride. -/
def CopyReq.disp (r : CopyReq) (stride : Dword) (i : Nat) : Int :=
  (i % r.len0 : Nat) + (if r.op = 2 || r.op = 3 then ((i / r.len0 : Nat) : Int) * stride.toInt else 0)

/-- The lowest byte touched under a stride, and the one after the highest. -/
def CopyReq.span (r : CopyReq) (stride : Dword) : Int × Int :=
  let end_ : Int := if r.op = 2 || r.op = 3 then ((r.rows - 1 : Nat) : Int) * stride.toInt else 0
  (min 0 end_, max 0 end_ + r.len0)

/-- The checks of R293 but for ARRIVE. -/
def State.copyOk (s : State) (x : EngCtx) (r : CopyReq) : Bool :=
  let two := r.op = 2 || r.op = 3
  let e := r.elem
  let sp := r.span r.ss1
  let dp := r.span r.ds1
  r.rsvd = 0 && r.esz ≤ 4 && r.op ≤ 4 && !(r.op = 1 && r.esz = 4) && !(r.op = 4 && r.esz ≠ 2)
    && (two || (r.len1 = 0 && r.ss1 = 0 && r.ds1 = 0)) && (r.op = 3 || r.len2 = 0)
    && r.len0 ≠ 0 && (!two || r.len1 ≠ 0) && (r.op ≠ 3 || r.len2 ≠ 0)
    && (r.op = 1 || r.src.toNat % e = 0) && r.dst.toNat % e = 0 && r.len0 % e = 0 && r.ss1.toNat % e = 0 && r.ds1.toNat % e = 0
    && r.resume % 256 = 0 && r.resume < r.total
    && (r.op = 1 || s.spanOk x r.src sp.1 sp.2 false) && s.spanOk x r.dst dp.1 dp.2 true

/-- The scratchpad address of a request's arrival word, when ARRIVE names one (R293). -/
def State.copyArrive (s : State) (x : EngCtx) (r : CopyReq) : Option Nat :=
  if r.arrive % 8 = 0 then s.ownBytes x.block x.core r.arrive 8 else none

/-- The locks of a request whose 64 bytes stand at an address. -/
def State.copyLocks (s : State) (x : EngCtx) (op at_ : Nat) (r : CopyReq) : List (Nat × Lock) :=
  let sp := r.span r.ss1
  let dp := r.span r.ds1
  [(x.core, { op := op, block := x.block, space := .scratch, lo := at_, hi := at_ + 64, dst := false })]
    ++ (if r.op = 1 then [] else s.spanLocks x op r.src sp.1 sp.2 false) ++ s.spanLocks x op r.dst dp.1 dp.2 true

/-! ### The ends of requests and chains -/

/-- w4 told that a chain's LAST request has been fetched, or that it has ended (R249). -/
def State.copyTell (s : State) (core : Nat) : State :=
  match (s.core core).copy.queue with
  | [] => s
  | q :: rest =>
    if q.told then s
    else (s.modWarp q.warp (fun w => w.answer q.word none s.cycle)).modCopy core (fun e => { e with queue := { q with told := true } :: rest })

/-- The head chain ended. -/
def State.chainEnd (s : State) (core : Nat) : State :=
  (s.copyTell core).modCopy core (fun e =>
    { queue := e.queue.drop 1, read := false, running := false, req := none, lines := [], waiting := none, hit := false, due := s.cycle + nearDelay })

/-- The later requests of a chain, from an offset and a count of those read, ended with ERR = 5 (R299). -/
def State.copyAbort (s : State) (x : EngCtx) (off count : Nat) : Nat → State
  | 0 => s
  | n + 1 =>
    if 64 ≤ count then s
    else
      match s.ownBytes x.block x.core off 64 with
      | none => s
      | some a =>
        let r := copyReq (s.scratchGet x.core a 64)
        let s := match s.copyArrive x r with
          | none => s
          | some w => (s.arrive_ x.core w 1 0 5 0).1
        if r.last then s else State.copyAbort s x (off + 64) (count + 1) n

/-- The head request: as read when it started or was resumed, else as its 64 bytes stand (R291). -/
def State.copyCur (s : State) (core a : Nat) : CopyReq := (s.core core).copy.req.getD (copyReq (s.scratchGet core a 64))

/-- The running or just read request ended with an error (R299): its word, the bytes it wrote, its RESUME and its locks; then the
chain. `told` is whether the word already shows the error. -/
def State.copyFail (s : State) (core err : Nat) (told : Bool) : State :=
  match (s.core core).copy.queue with
  | [] => s
  | q :: _ =>
    match s.engCtx core q.block with
    | none => (s.freeLocks q.op).chainEnd core
    | some x =>
      match s.ownBytes q.block core q.at_ 64 with
      | none => (s.freeLocks q.op).chainEnd core
      | some a =>
        let r := s.copyCur core a
        let s1 := if told then s else
          match s.copyArrive x r with
          | none => s
          | some w => (s.arrive_ core w 1 0 err 0).1
        let s2 := if (s.core core).copy.running then
            (s1.spoil x ((List.range r.resume).map (fun i => s.engPlace x 1 (r.dst + BitVec.ofInt 64 (r.disp r.ds1 i)))) 1).spoil x
              [.scr [(core, a + 0x38)] false] 8
          else s1.spoil x [.scr [(core, a + 0x38)] false] 8
        let s3 := s2.freeLocks q.op
        (if r.last then s3 else s3.copyAbort x (q.at_ + 64) q.count 64).chainEnd core

/-- The running request ended without an error: the chain goes on with its next (R249). -/
def State.copyNext (s : State) (core : Nat) (q : Chain) (last : Bool) : State :=
  let s := s.freeLocks q.op
  if last then s.chainEnd core
  else s.modCopy core (fun e =>
    { e with queue := { q with at_ := q.at_ + 64, told := ((e.queue.head?.map Chain.told).getD false) } :: e.queue.drop 1
             read := false, running := false, req := none, lines := [], hit := false, due := s.cycle + nearDelay })

/-! ### COPY_REQUEST_START (R293, R295) -/

/-- COPY_REQUEST_START. -/
def execCopyRequestStart (core : Nat) (s : State) : Host.Outcome State Fault Refusal :=
  .next (
    let e := (s.core core).copy
    match e.queue with
    | [] => s
    | q :: rest =>
      if e.running || e.waiting.isSome || s.engStill q.block then s
      else
        match s.engCtx core q.block, s.ownBytes q.block core q.at_ 64 with
        | some x, some a =>
          let r := copyReq (s.scratchGet core a 64)
          let locks := s.copyLocks x q.op a r
          -- a request that waits for lock entries has been read, and is not counted again
          let s := if e.read then s else s.modCopy core (fun y => { y with queue := { q with count := q.count + 1 } :: rest, read := true })
          let s := if r.last then s.copyTell core else s
          let count := if e.read then q.count else q.count + 1
          if (s.copyArrive x r).isNone || !s.copyOk x r || (count = 64 && !r.last) then s.copyFail core 6 false
          else if !s.locksFit locks then s.modCopy core (fun y => { y with due := s.cycle + nearDelay })
          else if s.locksClash locks then s.copyFail core 3 false
          else (s.addLocks locks).modCopy core (fun y =>
            { y with read := false, running := true, req := some r, lines := [], hit := false, due := s.cycle + nearDelay })
        | _, _ => s.chainEnd core)

/-! ### COPY_GRANULE (R249, R292, R294) -/

/-- One element of a granule written. -/
def State.copyElem (s : State) (x : EngCtx) (q : Chain) (r : CopyReq) (pages : List ((Nat × Bool) × TlbEntry)) (i : Nat)
    (acc : Dword × List (Nat × Dword)) : Option (State × Dword × List (Nat × Dword)) :=
  let n := r.elem
  let src := s.engPlace x n (r.src + BitVec.ofInt 64 (r.disp r.ss1 i))
  let dst := s.engPlace x n (r.dst + BitVec.ofInt 64 (r.disp r.ds1 i))
  let get := fun (p : EPlace) (w : Bool) =>
    match p with
    | .glb va => ((pageEntry pages va w).map (fun e => s.mem.bytes (e.phys va) n)).getD (List.replicate n 0)
    | .scr ((c, a) :: _) _ => s.scratchGet c a n
    | .scr [] _ => List.replicate n 0
  let v := if r.op = 1 then leBytes r.src.toNat n else get src false
  let add := fun (old : List Byte) => if r.op = 4 then leBytes (b32.add FEnv.ne (leNat old) (leNat v)).1 4 else v
  match dst with
  | .scr l far => some (l.foldl (fun s c => s.engPut q.op far c.1 c.2 (add (s.scratchGet c.1 c.2 n))) s, acc.1, acc.2)
  | .glb va =>
    match pageEntry pages va true with
    | none => some (s, acc.1, acc.2)
    | some e => (s.engStore x e va q.floor (add (get dst true)) acc.2).map (fun y => (y.1, umax acc.1 y.2.1, y.2.2))

/-- The elements of a granule, in copy order. -/
def State.copyElems (s : State) (x : EngCtx) (q : Chain) (r : CopyReq) (pages : List ((Nat × Bool) × TlbEntry)) :
    List Nat → Dword × List (Nat × Dword) → Option (State × Dword × List (Nat × Dword))
  | [], acc => some (s, acc)
  | i :: rest, acc =>
    match s.copyElem x q r pages i acc with
    | none => none
    | some y => State.copyElems y.1 x q r pages rest y.2

/-- The global pages that a granule's elements lie on: those read, then those written. -/
def State.copyPages (s : State) (x : EngCtx) (r : CopyReq) (idx : List Nat) : List (Nat × Bool) :=
  let of_ := fun (ea : Dword) (stride : Dword) (w : Bool) => idx.filterMap (fun i =>
    match s.engPlace x r.elem (ea + BitVec.ofInt 64 (r.disp stride i)) with
    | .glb va => some (pageOf va, w)
    | .scr _ _ => none)
  ((if r.op = 1 then [] else of_ r.src r.ss1 false) ++ of_ r.dst r.ds1 true).eraseDups

/-- The destination lines of the elements whose source, or whose destination under add-f32, is poisoned; `none` when none is. -/
def State.copyPoison (s : State) (x : EngCtx) (r : CopyReq) (pages : List ((Nat × Bool) × TlbEntry)) (idx : List Nat) :
    Option (List Nat) :=
  let pa := fun (ea stride : Dword) (w : Bool) (i : Nat) =>
    match s.engPlace x r.elem (ea + BitVec.ofInt 64 (r.disp stride i)) with
    | .glb va => (pageEntry pages va w).map (fun e => e.phys va)
    | .scr _ _ => none
  let bad := fun (o : Option Nat) => o.any (fun a => s.poison.contains (lineOf a))
  let hits := idx.filter (fun i => (r.op ≠ 1 && bad (pa r.src r.ss1 false i)) || (r.op = 4 && bad (pa r.dst r.ds1 true i)))
  if hits.isEmpty then none else some (hits.filterMap (pa r.dst r.ds1 true))

/-- The elements of a request's next granule, by their first bytes. -/
def CopyReq.granule (r : CopyReq) : List Nat := (List.range (min 256 (r.total - r.resume) / r.elem)).map (fun j => r.resume + j * r.elem)

/-- Whether a core has a mirror store on its way, which a granule multicast by its engine follows (R182, R294). -/
def State.mirrorSent (s : State) (core : Nat) : Bool :=
  s.reqs.any (fun r => r.core == core && !r.left.isEmpty && (match r.place with | .mirror _ _ => true | _ => false))

/-- Whether the next granule must wait: for injection to resume on the core's die where it touches global memory (R236), or for the core's
own mirror stores. -/
def State.copyHeld (s : State) (core : Nat) : Bool :=
  let e := (s.core core).copy
  match e.queue with
  | [] => false
  | q :: _ =>
    match s.engCtx core q.block, s.ownBytes q.block core q.at_ 64 with
    | some x, some a =>
      let r := s.copyCur core a
      e.running && !e.hit
        && ((s.pausedDies.contains (dieOf core) && !(s.copyPages x r r.granule).isEmpty)
          || ((match decodeAddr .glb r.dst with | .mir _ _ => true | _ => false) && s.mirrorSent core))
    | _, _ => false

/-- COPY_GRANULE. -/
def execCopyGranule (core : Nat) (s : State) : Host.Outcome State Fault Refusal :=
  .next (
    let e := (s.core core).copy
    match e.queue with
    | [] => s
    | q :: _ =>
      if !e.running || s.engStill q.block then s
      else if e.hit then s.copyFail core 3 false
      else if e.waiting.isSome || s.copyHeld core then s
      else
        match s.engCtx core q.block, s.ownBytes q.block core q.at_ 64 with
        | some x, some a =>
          let r := s.copyCur core a
          let n := min 256 (r.total - r.resume)
          let idx := r.granule
          match s.engPages core x.xlat (s.copyPages x r idx) with
          | (s, .error (.err k)) => s.copyFail core k false
          | (s, .error (.wait s2 page)) => s.modCopy core (fun y => { y with waiting := some (s2, page) })
          | (s, .error (.ok _)) => s
          | (s, .ok pages) =>
            match s.copyPoison x r pages idx with
            | some lines => ((s.countUe x.xlat.part).copyFail core 1 false).poisonLines (if x.shadow then [] else lines)
            | none =>
              match s.copyElems x q r pages idx (0, e.lines) with
              | none => (s.noteStall x.xlat.part).modCopy core (fun y => { y with due := s.cycle + nearDelay })
              | some (s, stamp, lines) =>
                let done := r.resume + n
                let s := (s.scratchPut core (a + 0x38) (leBytes done 8)).modCopy core (fun y =>
                  { y with req := some { r with resume := done }, lines := lines })
                match s.copyArrive x r with
                | none => s.copyFail core 6 true
                | some w =>
                  let u := s.arrive_ core w 1 n 0 stamp
                  if u.2.2 then u.1.copyFail core 6 true
                  else if u.2.1 || r.total ≤ done then u.1.copyNext core q r.last
                  else u.1.modCopy core (fun y => { y with due := s.cycle + nearDelay })
        | _, _ => s.copyFail core 3 false)

end Sys2Proof.Machine
end

