-- ==== Sys2Proof/Machine/Matrix.lean ====
section
/-! DEFINITION. The matrix engine (spec/21, spec/19 R325 to R331): MMA, MMASP, ACCZ, ACCLD and ACCST, the start of operations,
multicast groups, the sums of every format and version, and errors. -/

namespace Sys2Proof.Machine

/-! ### Slots and blocks (Tables 19.1, 19.2, 21.2, 21.3) -/

/-- The fields of an MMA parameter block and its slot. -/
structure Mma where
  sparse : Bool
  slot : Nat
  a : Dword
  b : Dword
  m : Nat
  n : Nat
  k : Nat
  lda : Nat
  ldb : Nat
  asc : Dword
  bsc : Dword
  tile : Nat
  meta_ : Dword
  flags : Nat
  rest : Nat
deriving DecidableEq, Repr

/-- A little-endian field of a block. -/
def field (l : List Byte) (o n : Nat) : Nat := leNat ((l.drop o).take n)

/-- A parameter block read. -/
def mmaOf (sparse : Bool) (slot : Nat) (l : List Byte) : Mma :=
  { sparse := sparse, slot := slot, a := BitVec.ofNat 64 (field l 0 8), b := BitVec.ofNat 64 (field l 8 8), m := field l 0x10 2,
    n := field l 0x12 2, k := field l 0x14 4, lda := field l 0x18 4, ldb := field l 0x1C 4, asc := BitVec.ofNat 64 (field l 0x20 8),
    bsc := BitVec.ofNat 64 (field l 0x28 8), tile := field l 0x30 4, meta_ := BitVec.ofNat 64 (field l 0x38 8), flags := field l 0x40 4,
    rest := field l 0x44 60 }

/-- The fields of a store block and its slot. -/
structure AccSt where
  slot : Nat
  dst : Dword
  ldc : Nat
  m : Nat
  n : Nat
  tile : Nat
  rest : Nat
deriving DecidableEq, Repr

/-- A store block read. -/
def accStOf (slot : Nat) (l : List Byte) : AccSt :=
  { slot := slot, dst := BitVec.ofNat 64 (field l 0 8), ldc := field l 8 4, m := field l 0xC 2, n := field l 0xE 2,
    tile := field l 0x10 4, rest := field l 0x18 40 }

/-- The A, B and OUT formats and the scale modes of a slot. -/
def slotA_ (x : Nat) : Nat := natBits x 0 4

/-- BFMT. -/
def slotB_ (x : Nat) : Nat := natBits x 4 4

/-- OUT. -/
def slotOut (x : Nat) : Nat := natBits x 8 4

/-- ASM. -/
def slotAsm (x : Nat) : Nat := natBits x 12 2

/-- BSM. -/
def slotBsm (x : Nat) : Nat := natBits x 14 2

/-- SPARSE. -/
def slotSparse (x : Nat) : Bool := natBit x 19

/-- The bytes of an element of a format code. -/
def elemBytes (code : Nat) : Nat := match code with | 0 => 8 | 1 => 4 | 2 | 3 => 2 | _ => 1

/-- The K step of an A format (Table 21.3). -/
def kStep (code : Nat) : Nat := match code with | 0 => 16 | 1 => 32 | 2 | 3 => 64 | _ => 128

/-- Whether a dimension is allowed. -/
def dimOk (n : Nat) : Bool := n == 64 || n == 128 || n == 192 || n == 256

/-- Whether a slot's formats and modes form a row of Table 21.3, for MMASP or for MMA (R349, R356). -/
def slotOk (x : Nat) (sparse : Bool) : Bool :=
  let a := slotA_ x
  let b := slotB_ x
  let eight := (4 ≤ a && a ≤ 5 && 4 ≤ b && b ≤ 5) || (6 ≤ a && a ≤ 7 && 6 ≤ b && b ≤ 7)
  (if a ≤ 3 then b == a && slotAsm x == 0 && slotBsm x == 0 && (2 ≤ a || !sparse) else eight) && slotSparse x == sparse

/-- The tiles of a result of 64 × 64 blocks (R351). -/
def tileCount (afmt m n : Nat) : Nat := (m / 64) * (n / 64) * (if afmt = 0 then 2 else 1)

/-- Whether a tile range is allowed. -/
def tilesOk (afmt tile m n : Nat) : Bool := tile ≤ 15 && (afmt ≠ 0 || tile % 2 = 0) && tile + tileCount afmt m n ≤ 16

/-- AT. -/
def Mma.at_ (x : Mma) : Bool := natBit x.flags 4

/-- BT. -/
def Mma.bt (x : Mma) : Bool := natBit x.flags 5

/-- ACC. -/
def Mma.acc (x : Mma) : Bool := natBit x.flags 6

/-- MASK. -/
def Mma.mask (x : Mma) : Nat := x.flags % 16

/-- The bytes of one stored row of A, and how many rows are stored. -/
def Mma.rowsA (x : Mma) : Nat × Nat :=
  let e := elemBytes (slotA_ x.slot)
  if x.sparse then (x.k / 2 * e, x.m) else if x.at_ then (x.m * e, x.k) else (x.k * e, x.m)

/-- The bytes of one stored row of B, and how many rows are stored. -/
def Mma.rowsB (x : Mma) : Nat × Nat :=
  let e := elemBytes (slotA_ x.slot)
  if x.bt then (x.k * e, x.n) else (x.n * e, x.k)

/-- The scales that A's mode and B's mode read (Table 21.4). -/
def Mma.scalesA (x : Mma) : Nat :=
  match slotAsm x.slot with | 0 => 0 | 1 => x.m * (x.k / 128) | 2 => (x.m + 127) / 128 * (x.k / 128) | _ => 1

/-- The scales that B's mode reads. -/
def Mma.scalesB (x : Mma) : Nat :=
  match slotBsm x.slot with | 0 => 0 | 1 => x.n * (x.k / 128) | 2 => x.k / 128 * ((x.n + 127) / 128) | _ => 1

/-- The bytes of the metadata. -/
def Mma.metaBytes (x : Mma) : Nat := if x.sparse then x.m * (x.k / 4) / 2 else 0

/-- The ranges an operation reads: address and bytes from the first to the last (R350, R352, R356). -/
def Mma.spans (x : Mma) : List (Dword × Nat) :=
  let f := fun (r : Nat × Nat) (ld : Nat) => (r.2 - 1) * ld + r.1
  [(x.a, f x.rowsA x.lda), (x.b, f x.rowsB x.ldb)]
    ++ (if x.scalesA = 0 then [] else [(x.asc, 4 * x.scalesA)]) ++ (if x.scalesB = 0 then [] else [(x.bsc, 4 * x.scalesB)])
    ++ (if x.sparse then [(x.meta_, x.metaBytes)] else [])

/-- The pieces an operation reads: each stored row of the operands, the scales and the metadata. -/
def Mma.pieces (x : Mma) : List (Dword × Nat) :=
  (List.range x.rowsA.2).map (fun i => (x.a + BitVec.ofNat 64 (i * x.lda), x.rowsA.1))
    ++ (List.range x.rowsB.2).map (fun i => (x.b + BitVec.ofNat 64 (i * x.ldb), x.rowsB.1)) ++ x.spans.drop 2

/-- Whether an address is a global one. -/
def isGlobal (a : Dword) : Bool := match decodeAddr .glb a with | .glb _ => true | _ => false

/-- Whether a span lies wholly in global memory, or in a scratchpad area that the thread may reach (R350). -/
def State.spanIn (s : State) (c : EngCtx) (ea : Dword) (n : Nat) : Bool :=
  s.spanOk c ea 0 n false && (!isGlobal ea || ea.toNat + n ≤ 2 ^ 55)

/-- The checks of R327, R349, R350 and R356 at the start of an operation, and the first rule of R330. -/
def State.mmaOk (s : State) (c : EngCtx) (x : Mma) : Bool :=
  slotOk x.slot x.sparse && dimOk x.m && dimOk x.n && x.k ≠ 0 && x.k % kStep (slotA_ x.slot) = 0
    && x.a.toNat % 16 = 0 && x.b.toNat % 16 = 0 && x.lda % 16 = 0 && x.ldb % 16 = 0 && x.rowsA.1 ≤ x.lda && x.rowsB.1 ≤ x.ldb
    && x.flags < 128 && x.rest = 0 && tilesOk (slotA_ x.slot) x.tile x.m x.n
    && (!x.sparse || (!x.at_ && x.meta_.toNat % 16 = 0))
    && (x.scalesA = 0 || (isGlobal x.asc && x.asc.toNat % 256 = 0)) && (x.scalesB = 0 || (isGlobal x.bsc && x.bsc.toNat % 256 = 0))
    && (x.mask = 0 || natBit x.mask (c.core % Config.coresPerCluster))
    && x.spans.all (fun p => s.spanIn c p.1 p.2)

/-- The checks of R331 and R364. -/
def State.accStOk (s : State) (c : EngCtx) (x : AccSt) : Bool :=
  let e := elemBytes (slotOut x.slot)
  slotA_ x.slot ≤ 7 && slotOut x.slot ≤ 7 && dimOk x.m && dimOk x.n && x.rest = 0 && tilesOk (slotA_ x.slot) x.tile x.m x.n
    && x.dst.toNat % e = 0 && x.ldc % e = 0 && s.spanIn c x.dst ((x.m - 1) * x.ldc + x.n * e)

/-! ### Tiles (R351) -/

/-- A tile element. -/
def Core.tileAt (c : Core) (tile i j : Nat) : Word := (Tab.find c.tiles (tile * 4096 + i * 64 + j)).getD 0

/-- Tile elements written; a zero is not listed (log 2). -/
def Core.tilePut (c : Core) (tile i j : Nat) (x : Word) : Core :=
  { c with tiles := if x = 0 then Tab.drop c.tiles (tile * 4096 + i * 64 + j) else Tab.put c.tiles (tile * 4096 + i * 64 + j) x }

/-- An accumulator value: one word, or the two of a tile pair for binary64. -/
def Core.accAt (c : Core) (afmt tile n m j : Nat) : Nat :=
  let b := m / 64 * (n / 64) + j / 64
  if afmt = 0 then
    (c.tileAt (tile + 2 * b) (m % 64) (j % 64)).toNat + 2 ^ 32 * (c.tileAt (tile + 2 * b + 1) (m % 64) (j % 64)).toNat
  else (c.tileAt (tile + b) (m % 64) (j % 64)).toNat

/-- An accumulator value written. -/
def Core.accPut (c : Core) (afmt tile n m j x : Nat) : Core :=
  let b := m / 64 * (n / 64) + j / 64
  if afmt = 0 then
    (c.tilePut (tile + 2 * b) (m % 64) (j % 64) (BitVec.ofNat 32 x)).tilePut (tile + 2 * b + 1) (m % 64) (j % 64)
      (BitVec.ofNat 32 (x / 2 ^ 32))
  else c.tilePut (tile + b) (m % 64) (j % 64) (BitVec.ofNat 32 x)

/-- The tiles of a mask. -/
def maskTiles (mask : BitVec 16) : List Nat := (List.range 16).filter (fun i => mask.getLsbD i)

/-- The slot word of an operation. -/
def EngCtx.slot (c : EngCtx) (n : Nat) : Nat := (c.rcd.slots.getD n 0).toNat

/-- The tiles that a queue entry names. -/
def MatOp.tiles (o : MatOp) (c : EngCtx) : List Nat :=
  match o.kind with
  | .zero m => maskTiles m
  | .mma sp =>
    let x := mmaOf sp (c.slot o.slot) o.params
    (List.range (tileCount (slotA_ x.slot) x.m x.n)).map (fun i => x.tile + i)
  | .store =>
    let x := accStOf (c.slot o.slot) o.params
    (List.range (tileCount (slotA_ x.slot) x.m x.n)).map (fun i => x.tile + i)

/-- The byte interval of tiles in a lock's terms. -/
def tileLock (op block lo n : Nat) (dst : Bool) : Lock :=
  { op := op, block := block, space := .tile, lo := lo * 16384, hi := (lo + n) * 16384, dst := dst }

/-- The runs of consecutive tiles of a rising list. -/
def tileRuns : List Nat → List (Nat × Nat)
  | [] => []
  | t :: rest =>
    match tileRuns rest with
    | (lo, n) :: more => if lo = t + 1 then (t, n + 1) :: more else (t, 1) :: (lo, n) :: more
    | [] => [(t, 1)]

/-- Whether a tile is locked against an access of a thread. -/
def Core.tileLocked (c : Core) (t : Nat) (write : Bool) : Bool := c.locked .tile (t * 16384) 16384 write

/-! ### Issue (R325, R331, R356, R358, R362) -/

/-- The matrix queue of a core changed. -/
def State.modMat (s : State) (core : Nat) (f : List MatOp → List MatOp) : State := s.modCore core (fun c => { c with mat := f c.mat })

/-- Whether the engine holds 8 operations that have not started. -/
def Core.matFull (c : Core) : Bool := 8 ≤ (c.mat.filter (fun o => !o.started)).length

/-- A lock on tile memory met by a thread: the cause gives TADDR no value (R82). -/
def tileFault : TrapInfo := TrapInfo.of .rangeLock 0

/-- An operation not yet started. -/
def MatOp.new (op block warp word : Nat) (kind : MatKind) (slot : Nat) (params : List Byte) (arrive : Option Nat) (floor : Dword)
    (due : Nat) : MatOp :=
  { op := op, block := block, warp := warp, word := word, kind := kind, slot := slot, params := params, arrive := arrive,
    floor := floor, started := false, steps := 0, stamp := 0, lines := [], group := false, waiting := none, hit := false, due := due }

/-- A word that hands a block to the engine: the block of `n` bytes at A, whose ARRIVE lies at `arr`. -/
def State.matHand (s : State) (t : FsA) (kind : MatKind) (n arr : Nat) (counts checkTiles : Bool) : State :=
  s.handWord
    { h := t.h, srcs := [.sel t.a 1], counts := counts, release := true, early := false
      full := fun s p _ => (s.core p.core).matFull
      plan := fun s c =>
        match c.read 0 (.sel t.a 1) with
        | .error e => .error e
        | .ok a =>
          match s.ownCheck c.w.block c.p.core (w0 a).toNat n n with
          | .error e => .error e
          | .ok x =>
            let l := s.scratchGet c.p.core x n
            match s.ownCheck c.w.block c.p.core (field l arr 4) 8 8 with
            | .error e => .error e
            | .ok _ =>
              let y := accStOf (c.p.rcd.slots.getD t.s.val 0).toNat l
              let tiles := (List.range (tileCount (slotA_ y.slot) y.m y.n)).map (fun i => y.tile + i)
              if checkTiles && dimOk y.m && dimOk y.n && tiles.any (fun i => (s.core c.p.core).tileLocked i true) then
                .error tileFault
              else .ok l
      act := fun s c word id l =>
        (s.modThread c.key (fun _ => c.handed t.h (.sel t.a 1))).modMat c.p.core (fun q =>
          q ++ [MatOp.new id c.w.block c.key.warp word kind t.s.val l (some (field l arr 4)) (c.w.floorFor c.p.bundle c.slot)
                  (c.slot + nearDelay)]) }

/-- MMA (R325). -/
def execMma (t : FsA) (s : State) : Host.Outcome State Fault Refusal := .next (s.matHand t (.mma false) 128 0x34 true false)

/-- MMASP (R356). -/
def execMmasp (t : FsA) (s : State) : Host.Outcome State Fault Refusal := .next (s.matHand t (.mma true) 128 0x34 true false)

/-- ACCST (R331). -/
def execAccst (t : FsA) (s : State) : Host.Outcome State Fault Refusal := .next (s.matHand t .store 64 0x14 false true)

/-- ACCZ (R362). -/
def execAccz (t : WAB) (s : State) : Host.Outcome State Fault Refusal :=
  .next (s.handWord
    { h := t.h, srcs := [.sel t.a 1, bI32 t.b], counts := false, release := false, early := false
      full := fun s p _ => (s.core p.core).matFull
      plan := fun s c =>
        match c.read 0 (.sel t.a 1) with
        | .error e => .error e
        | .ok a =>
          match c.read 1 (bI32 t.b) with
          | .error e => .error e
          | .ok b =>
            if 65536 ≤ (w0 a).toNat then .error (TrapInfo.of .idxRange (idxInfo (w0 a).toInt 0))
            else
              let off := if t.b = .sel .z then none else some (w0 b).toNat
              match (match off with | none => .ok 0 | some o => s.ownCheck c.w.block c.p.core o 8 8 : Except TrapInfo Nat) with
              | .error e => .error e
              | .ok _ =>
                let mask : BitVec 16 := (w0 a).setWidth 16
                if (maskTiles mask).any (fun i => (s.core c.p.core).tileLocked i true) then .error tileFault else .ok (mask, off)
      act := fun s c word id x =>
        (s.modThread c.key (fun _ => c.handed t.h (.sel t.a 1))).modMat c.p.core (fun q =>
          q ++ [MatOp.new id c.w.block c.key.warp word (.zero x.1) 0 [] x.2 0 (c.slot + nearDelay)]) })

/-- ACCLD (R363). -/
def execAccld (t : WDAB) (s : State) : Host.Outcome State Fault Refusal :=
  .next (s.ownPass (ownWord t.h (.sel t.a 1) (bI32 t.b) (some (t.d, 1)) 8 true) (fun s c a b =>
    let x := (w0 a).toNat
    let y := (w0 b).toNat
    if 1024 ≤ x then .error (TrapInfo.of .idxRange (idxInfo (w0 a).toInt 0))
    else if 64 ≤ y then .error (TrapInfo.of .idxRange (idxInfo (w0 b).toInt 1))
    else if (s.core c.p.core).tileLocked (x / 64) false then .error tileFault
    else .ok (s, [(s.core c.p.core).tileAt (x / 64) (x % 64) y])))

/-! ### Ends (R327, R360) -/

/-- w4 lowered for an operation that starts, or that ends before it starts. -/
def State.matTell (s : State) (o : MatOp) : State :=
  match o.kind with
  | .mma _ => if o.started then s else s.modWarp o.warp (fun w => w.answer o.word none s.cycle)
  | _ => s

/-- Tiles left undefined (log 7). -/
def State.spoilTiles (s : State) (core : Nat) (tiles : List Nat) : State :=
  let ks := (tiles.filter (· < 16)).flatMap (fun t => (List.range 4096).map (fun i => t * 4096 + i))
  { s.modCore core (fun c => { c with tiles := ks.foldl (fun m k => Tab.put m k (Config.freeWord (s.fresh + k))) c.tiles }) with
    fresh := s.fresh + 65536 }

/-- An operation's final update, its locks freed and its place in the queue given up; an update of REMAIN below zero leaves its
tiles undefined. -/
def State.matEnd (s : State) (core : Nat) (o : MatOp) (err : Nat) (stamp : Dword) : State × Bool :=
  let s := s.matTell o
  let r : State × Bool := match o.arrive.bind (fun a => s.ownBytes o.block core a 8) with
    | none => (s, false)
    | some w =>
      let u := s.arrive_ core w 2 1 err stamp
      (u.1, u.2.2)
  ((r.1.freeLocks o.op).modMat core (fun q => q.filter (fun y => y.op != o.op)), r.2)

/-- The bytes of output rows. -/
def AccSt.rowPlaces (x : AccSt) (rows : Nat) : List Dword :=
  (List.range rows).flatMap (fun r => (List.range (x.n * elemBytes (slotOut x.slot))).map (fun i => x.dst + BitVec.ofNat 64 (r * x.ldc + i)))

/-- What an operation that ends with an error leaves undefined: the tiles it names, and the bytes that an ACCST has begun to write in its
first `rows` rows. -/
def State.matSpoil (s : State) (core : Nat) (o : MatOp) (rows : Nat) : State :=
  match s.engCtx core o.block with
  | none => s
  | some c =>
    let s := s.spoilTiles core (o.tiles c)
    match o.kind with
      | .store => s.spoil c (((accStOf (c.slot o.slot) o.params).rowPlaces rows).map (s.engPlace c 1)) 1
      | _ => s

/-- An operation ended with an error once it has started. -/
def State.matFail (s : State) (core : Nat) (o : MatOp) (err rows : Nat) : State := ((s.matSpoil core o rows).matEnd core o err 0).1

/-! ### MATRIX_OP_START (R327, R331, R358, R362) -/

/-- The locks of an operation. -/
def State.matLocks (s : State) (c : EngCtx) (o : MatOp) : List (Nat × Lock) :=
  match o.kind with
  | .zero m => (tileRuns (maskTiles m)).map (fun r => (c.core, tileLock o.op o.block r.1 r.2 true))
  | .mma sp =>
    let x := mmaOf sp (c.slot o.slot) o.params
    x.spans.flatMap (fun p => s.spanLocks c o.op p.1 0 p.2 false)
      ++ [(c.core, tileLock o.op o.block x.tile (tileCount (slotA_ x.slot) x.m x.n) true)]
  | .store =>
    let x := accStOf (c.slot o.slot) o.params
    (c.core, tileLock o.op o.block x.tile (tileCount (slotA_ x.slot) x.m x.n) false)
      :: s.spanLocks c o.op x.dst 0 ((x.m - 1) * x.ldc + x.n * elemBytes (slotOut x.slot) : Nat) true

/-- Whether an operation's checks hold. -/
def State.matOk (s : State) (c : EngCtx) (o : MatOp) : Bool :=
  match o.kind with
  | .zero _ => true
  | .mma sp => s.mmaOk c (mmaOf sp (c.slot o.slot) o.params)
  | .store => s.accStOk c (accStOf (c.slot o.slot) o.params)

/-- Whether an operation must wait for one that runs: a multicast wait holds the queue, a tile of it is in use, or an MMA runs (R358). -/
def MatOp.behind (o : MatOp) (c : EngCtx) (l : List MatOp) (ctx : Nat → Option EngCtx) : Bool :=
  let mine := o.tiles c
  l.any (fun y => y.started &&
    (y.group || (match o.kind, y.kind with | .mma _, .mma _ => true | _, _ => false)
      || ((ctx y.block).map (fun d => (y.tiles d).any mine.contains)).getD false))

/-- Whether a range overlaps a destination of a copy or of a rule step (Table 21.6). -/
def State.matClash (s : State) (ls : List (Nat × Lock)) : Bool :=
  let mats := s.cores.flatMap (fun e => e.2.mat.map MatOp.op)
  ls.any (fun l => (s.core l.1).locks.any (fun k => k.dst && !mats.contains k.op && k.covers l.2.space l.2.lo (l.2.hi - l.2.lo)))

/-- The operand address that a multicast shares: the one in a cluster window, B where both are (R330). -/
def Mma.shared (x : Mma) : Option Dword :=
  let win := fun (a : Dword) => match decodeAddr .glb a with | .clw _ _ => true | _ => false
  if win x.b then some x.b else if win x.a then some x.a else none

/-- Whether an MMA is one of a multicast group: its MASK names another core, and an operand is shared. -/
def Mma.multicast (x : Mma) (core : Nat) : Bool := x.mask ≠ 0 && x.mask ≠ 2 ^ (core % Config.coresPerCluster) && x.shared.isSome

/-- The MACs that a format completes in a cycle (Table 21.1), doubled by sparsity. -/
def macRate (code : Nat) (sparse : Bool) : Nat :=
  (match code with | 0 => 256 | 1 => 1024 | 2 | 3 => 4096 | _ => 8192) * (if sparse then 2 else 1)

/-- The cycles that the default schedule gives an operation (R347, R362). -/
def MatOp.cycles (o : MatOp) (c : EngCtx) : Nat :=
  match o.kind with
  | .zero m => 32 * (maskTiles m).length
  | .mma sp => let x := mmaOf sp (c.slot o.slot) o.params; x.m * x.n * x.k / macRate (slotA_ x.slot) sp + 80
  | .store => let x := accStOf (c.slot o.slot) o.params; x.m * x.n / 64 + 80

/-- MATRIX_OP_START. -/
def execMatrixOpStart (core : Nat) (s : State) : Host.Outcome State Fault Refusal :=
  .next (
    let l := (s.core core).mat
    match l.find? (fun o => !o.started) with
    | none => s
    | some o =>
      if s.engStill o.block then s
      else
      match s.engCtx core o.block with
      | none => (s.matEnd core o 3 0).1
      | some c =>
        let again := s.modMat core (fun q => q.map (fun y => if y.op = o.op then { y with due := s.cycle + nearDelay } else y))
        if o.behind c l (s.engCtx core) then again
        else if !s.matOk c o then (s.matEnd core o 6 0).1
        else
          let locks := s.matLocks c o
          if !s.locksFit locks then again
          else if s.matClash locks then s.matFail core o 3 0
          else
            let group := match o.kind with
              | .mma sp => (mmaOf sp (c.slot o.slot) o.params).multicast core
              | _ => false
            ((s.matTell o).addLocks locks).modMat core (fun q =>
              q.map (fun y => if y.op = o.op then { y with started := true, group := group, due := s.cycle + o.cycles c } else y)))

/-! ### MULTICAST_GROUP_READY (R330) -/

/-- The operation of a core that waits for its multicast group, with its parameters. -/
def State.groupOp (s : State) (core : Nat) : Option (MatOp × Mma) :=
  match (s.core core).mat.find? (fun o => o.started && o.group) with
  | none => none
  | some o =>
    match s.engCtx core o.block, o.kind with
    | some c, .mma sp => some (o, mmaOf sp (c.slot o.slot) o.params)
    | _, _ => none

/-- The cluster group of a block. -/
def State.groupOfBlock (s : State) (b : Nat) : Option Nat := (Tab.find s.blocks b).map Block.group

/-- The members of a waiting core's multicast, once every member waits in it: the same cluster group, MASK and shared address. -/
def State.groupReady (s : State) (core : Nat) : Option (List (Nat × MatOp × Mma)) :=
  match s.groupOp core with
  | none => none
  | some (o, x) =>
    let cs := ((List.range Config.coresPerCluster).filter (fun q => natBit x.mask q)).map
      (fun q => clusterCore (core / Config.coresPerCluster) q)
    let ms := cs.filterMap (fun c => (s.groupOp c).map (fun r => (c, r)))
    if ms.length = cs.length && !s.engStill o.block && ms.all (fun r => s.groupOfBlock r.2.1.block == s.groupOfBlock o.block && r.2.2.mask == x.mask
        && r.2.2.shared == x.shared) then some ms
    else none

/-- Whether an operation of a core is of a multicast with a mask and a shared address. -/
def State.memberOf (s : State) (core : Nat) (x : Mma) (o : MatOp) : Bool :=
  match s.engCtx core o.block, o.kind with
  | some c, .mma sp => let y := mmaOf sp (c.slot o.slot) o.params; y.mask == x.mask && y.shared == x.shared
  | _, _ => false

/-- Whether a started operation of a core is of such a multicast. -/
def State.fellow (s : State) (core : Nat) (x : Mma) : Bool := (s.core core).mat.any (fun o => o.started && s.memberOf core x o)

/-- Whether every member of a multicast is still at work (R361). -/
def State.fellows (s : State) (core : Nat) (x : Mma) : Bool :=
  ((List.range Config.coresPerCluster).filter (fun q => natBit x.mask q)).all
    (fun q => s.fellow (clusterCore (core / Config.coresPerCluster) q) x)

/-- Whether an operation is of a multicast whose members have gone on together: the shared operand is delivered (R330). -/
def State.delivered (s : State) (op : Nat) : Bool :=
  s.cores.any (fun e => e.2.mat.any (fun o => o.op == op && o.started && !o.group && (match s.engCtx e.1 o.block, o.kind with
    | some c, .mma sp => (mmaOf sp (c.slot o.slot) o.params).multicast e.1
    | _, _ => false)))

/-- What members must agree in: K, N, M, and the shared operand's transpose bit and leading dimension. -/
def Mma.agree (x y : Mma) : Bool :=
  let b := fun (z : Mma) => z.shared == some z.b
  x.k == y.k && x.n == y.n && x.m == y.m && b x == b y && (if b x then x.bt == y.bt && x.ldb == y.ldb else x.at_ == y.at_ && x.lda == y.lda)

/-- MULTICAST_GROUP_READY. -/
def execMulticastGroupReady (core : Nat) (s : State) : Host.Outcome State Fault Refusal :=
  .next (
    match s.groupReady core, s.groupOp core with
    | some ms, some (_, x) =>
      if ms.all (fun r => x.agree r.2.2) then
        ms.foldl (fun s r => s.modMat r.1 (fun q => q.map (fun y =>
          if y.op = r.2.1.op then
            { y with group := false, due := s.cycle + (((s.engCtx r.1 y.block).map y.cycles).getD 0) } else y))) s
      else ms.foldl (fun s r => s.matFail r.1 r.2.1 6 0) s
    | _, _ => s)

/-! ### The sums (R329, R353 to R357) -/

/-- An element of a slot's format as a number. -/
def matRead (code x : Nat) : Fp :=
  match slotFmt code with
  | some f => f.read x
  | none => if code = 6 && 128 ≤ x then .num true (256 - x) 0 else .num false x 0

/-- A NaN that the engine delivers is the default one (R355). -/
def FFmt.plainNan (f : FFmt) (x : Nat) : Nat := if (f.read x).isNan then f.nan else x

/-- A product: a NaN, an infinity, or a number. -/
def fpProduct (a b : Fp) : Fp :=
  match a, b with
  | .nan _, _ | _, .nan _ => .nan true
  | .inf s, .inf t => .inf (s != t)
  | .inf s, .num t m _ | .num t m _, .inf s => if m = 0 then .nan true else .inf (s != t)
  | .num s m e, .num t n f => .num (s != t) (m * n) (e + f)

/-- A sum of products taken exactly, special values as R355 gives. -/
def fpSum (ps : List Fp) : Fp :=
  if ps.any Fp.isNan || (ps.contains (.inf true) && ps.contains (.inf false)) then .nan true
  else if ps.contains (.inf true) then .inf true
  else if ps.contains (.inf false) then .inf false
  else
    ps.foldl (fun acc p =>
      match acc, p with
      | .num s m e, .num t n f => if n = 0 then acc else if m = 0 then p else let r := addExact s m e t n f; .num r.1 r.2.1 r.2.2
      | x, _ => x) (.num false 0 0)

/-- A chunk sum rounded to binary32: an exact zero is +0. -/
def chunkSum (ps : List Fp) : Nat :=
  match fpSum ps with
  | .nan _ => b32.nan
  | .inf s => b32.inf s
  | .num s m e => if m = 0 then 0 else (b32.round FEnv.ne s m e false).1

/-- binary32 addition and multiplication of the engine. -/
def mAdd (a b : Nat) : Nat := b32.plainNan (b32.add FEnv.ne a b).1

/-- binary32 multiplication of the engine. -/
def mMul (a b : Nat) : Nat := b32.plainNan (b32.mul FEnv.ne a b).1

/-- The exact products of a part of K from `lo`, `n` long. -/
def prodsIn (af bf lo n : Nat) (l : List (Nat × Nat × Nat)) : List Fp :=
  (l.filter (fun p => lo ≤ p.1 && p.1 < lo + n)).map (fun p => fpProduct (matRead af p.2.1) (matRead bf p.2.2))

/-- One K step of an element from `k0`: `l` holds the positions, A elements and B elements of the step. -/
def stepSum (af bf nbv k0 sa sb : Nat) (l : List (Nat × Nat × Nat)) (acc : Nat) : Nat :=
  if af = 0 then l.foldl (fun acc p => b64.plainNan (b64.fma FEnv.ne p.2.1 p.2.2 acc).1) acc
  else if af = 1 then l.foldl (fun acc p => b32.plainNan (b32.fma FEnv.ne p.2.1 p.2.2 acc).1) acc
  else if af ≤ 3 then mAdd acc (chunkSum (prodsIn af bf k0 64 l))
  else if nbv = 1 then
    (List.range 4).foldl (fun acc i => mAdd acc (mMul (mMul (chunkSum (prodsIn af bf (k0 + 32 * i) 32 l)) sa) sb)) acc
  else
    let q := if nbv = 2 then mAdd (chunkSum (prodsIn af bf k0 64 l)) (chunkSum (prodsIn af bf (k0 + 64) 64 l))
      else chunkSum (prodsIn af bf k0 128 l)
    mAdd acc (mMul (mMul q sa) sb)

/-! ### MATRIX_OP_COMPLETE -/

/-- A little-endian number at an address that a command reads. -/
def State.engNat (s : State) (c : EngCtx) (pages : List ((Nat × Bool) × TlbEntry)) (ea : Dword) (n : Nat) : Nat :=
  match s.engPlace c n ea with
  | .glb va => ((pageEntry pages va false).map (fun e => s.mem.nat (e.phys va) n)).getD 0
  | .scr ((q, a) :: _) _ => leNat (s.scratchGet q a n)
  | .scr [] _ => 0

/-- The pages of pieces that lie in global memory. -/
def State.piecePages (s : State) (c : EngCtx) (write : Bool) (ps : List (Dword × Nat)) : List (Nat × Bool) :=
  (ps.flatMap (fun p =>
    match s.engPlace c 1 p.1 with
    | .glb va => if p.2 = 0 then [] else (List.range ((va + p.2 - 1) / 65536 - va / 65536 + 1)).map (fun i => (pageOf va + i * 65536, write))
    | _ => [])).eraseDups

/-- The global lines of a piece, by an address in each. -/
def State.pieceLines (s : State) (c : EngCtx) (pages : List ((Nat × Bool) × TlbEntry)) (p : Dword × Nat) : List Nat :=
  match s.engPlace c 1 p.1 with
  | .glb va => (List.range ((va + p.2 + 63) / 64 - va / 64)).filterMap (fun i =>
      let a := (va / 64 + i) * 64
      ((pages.find? (fun e => e.1.1 == pageOf a)).map (fun e => e.2.phys a)))
  | _ => []

/-- Whether a piece meets a poisoned line. -/
def State.piecePoison (s : State) (c : EngCtx) (pages : List ((Nat × Bool) × TlbEntry)) (ps : List (Dword × Nat)) : Bool :=
  ps.any (fun p => (s.pieceLines c pages p).any (fun a => s.poison.contains (lineOf a)))

/-- The pieces of memory that an operation reads, or that an ACCST writes. -/
def MatOp.pieces (o : MatOp) (c : EngCtx) : List (Dword × Nat) :=
  match o.kind with
  | .zero _ => []
  | .mma sp => (mmaOf sp (c.slot o.slot) o.params).pieces
  | .store =>
    let x := accStOf (c.slot o.slot) o.params
    (List.range x.m).map (fun r => (x.dst + BitVec.ofNat 64 (r * x.ldc), x.n * elemBytes (slotOut x.slot)))

/-- Whether an operation transfers anything to or from global memory. -/
def MatOp.crosses (o : MatOp) (s : State) (c : EngCtx) : Bool := !(s.piecePages c false (o.pieces c)).isEmpty

/-- The elements of row `m` of A in a K step, with their positions. -/
def State.rowA (s : State) (c : EngCtx) (pages : List ((Nat × Bool) × TlbEntry)) (x : Mma) (m k0 : Nat) : List (Nat × Nat) :=
  let e := elemBytes (slotA_ x.slot)
  let n := kStep (slotA_ x.slot)
  let get := fun (o : Nat) => s.engNat c pages (x.a + BitVec.ofNat 64 o) e
  if x.sparse then
    (List.range (n / 4)).flatMap (fun i =>
      let g := k0 / 4 + i
      let idx := m * (x.k / 4) + g
      let b := s.engNat c pages (x.meta_ + BitVec.ofNat 64 (idx / 2)) 1
      let nib := if idx % 2 = 0 then b % 16 else b / 16
      [(4 * g + nib % 4, get (m * x.lda + 2 * g * e)), (4 * g + nib / 4, get (m * x.lda + (2 * g + 1) * e))])
  else (List.range n).map (fun i => (k0 + i, get (if x.at_ then (k0 + i) * x.lda + m * e else m * x.lda + (k0 + i) * e)))

/-- Whether some nibble of a step's metadata is out of order (R356). -/
def State.badMeta (s : State) (c : EngCtx) (pages : List ((Nat × Bool) × TlbEntry)) (x : Mma) : Bool :=
  x.sparse && (List.range (x.m * (x.k / 4))).any (fun i =>
    let b := s.engNat c pages (x.meta_ + BitVec.ofNat 64 (i / 2)) 1
    let nib := if i % 2 = 0 then b % 16 else b / 16
    nib / 4 ≤ nib % 4)

/-- The scales of row `m` of A and column `j` of B in a chunk (Table 21.4). -/
def State.scaleA (s : State) (c : EngCtx) (pages : List ((Nat × Bool) × TlbEntry)) (x : Mma) (m ch : Nat) : Nat :=
  let get := fun (i : Nat) => s.engNat c pages (x.asc + BitVec.ofNat 64 (4 * i)) 4
  match slotAsm x.slot with
  | 0 => 0x3F800000
  | 1 => get (m * (x.k / 128) + ch)
  | 2 => get (m / 128 * (x.k / 128) + ch)
  | _ => get 0

/-- The B scale of a column in a chunk. -/
def State.scaleB (s : State) (c : EngCtx) (pages : List ((Nat × Bool) × TlbEntry)) (x : Mma) (j ch : Nat) : Nat :=
  let get := fun (i : Nat) => s.engNat c pages (x.bsc + BitVec.ofNat 64 (4 * i)) 4
  match slotBsm x.slot with
  | 0 => 0x3F800000
  | 1 => get (j * (x.k / 128) + ch)
  | 2 => get (ch * ((x.n + 127) / 128) + j / 128)
  | _ => get 0

/-- One K step of an operation, every element of it. -/
def State.mmaStep (s : State) (c : EngCtx) (pages : List ((Nat × Bool) × TlbEntry)) (x : Mma) (step : Nat) (tiles : Core) : Core :=
  let af := slotA_ x.slot
  let e := elemBytes af
  let k0 := step * kStep af
  let elemB := fun (k j : Nat) => s.engNat c pages (x.b + BitVec.ofNat 64 (if x.bt then j * x.ldb + k * e else k * x.ldb + j * e)) e
  (List.range x.m).foldl (fun y m =>
    let ra := s.rowA c pages x m k0
    (List.range x.n).foldl (fun y j =>
      let acc := if step = 0 && !x.acc then 0 else y.accAt af x.tile x.n m j
      let sum := stepSum af (slotB_ x.slot) c.rcd.nbv k0 (s.scaleA c pages x m (k0 / 128)) (s.scaleB c pages x j (k0 / 128))
        (ra.map (fun p => (p.1, p.2, elemB p.1 j))) acc
      y.accPut af x.tile x.n m j sum) y) tiles

/-- K steps of an operation from `from_`, `n` of them, with operands whose pages are translated. -/
def State.mmaSteps (s : State) (c : EngCtx) (pages : List ((Nat × Bool) × TlbEntry)) (x : Mma) (from_ n : Nat) : State :=
  s.modCore c.core (fun y => (List.range n).foldl (fun y i => s.mmaStep c pages x (from_ + i) y) y)

/-- The end of an operation that has done its work. An update that takes REMAIN below zero is an error like any other (R360). -/
def State.matDone (s : State) (core : Nat) (o : MatOp) (stamp : Dword) : State :=
  let r := s.matEnd core o 0 stamp
  if r.2 then r.1.matSpoil core o o.steps else r.1

/-- Whether a tile that an operation reads holds an uncorrectable error: those of an ACCST, and those that an MMA adds to. -/
def State.tileUe (s : State) (core : Nat) (c : EngCtx) (o : MatOp) : Bool :=
  (match o.kind with | .zero _ => false | .store => true | .mma sp => (mmaOf sp (c.slot o.slot) o.params).acc)
    && (o.tiles c).any (s.core core).badTiles.contains

/-- Tiles written whole hold no uncorrectable error any more. -/
def State.tilesGood (s : State) (core : Nat) (tiles : List Nat) : State :=
  s.modCore core (fun y => { y with badTiles := y.badTiles.filter (fun t => !tiles.contains t) })

/-- Whether an operation must wait for injection to resume on its core's die (R236). -/
def State.matHeld (s : State) (core : Nat) (o : MatOp) : Bool :=
  s.pausedDies.contains (dieOf core) && (s.engCtx core o.block).any (fun c => o.crosses s c)

/-- An operation left waiting for a page. -/
def State.matWait (s : State) (core : Nat) (o : MatOp) (w : Bool × Nat) : State :=
  s.modMat core (fun q => q.map (fun y => if y.op = o.op then { y with waiting := some w } else y))

/-- The pages of a command's pieces translated, or how the command stops: `none` once it is dealt with. -/
def State.matPages (s : State) (core : Nat) (c : EngCtx) (o : MatOp) (rows : Nat) (ps : List (Nat × Bool)) :
    State × Option (List ((Nat × Bool) × TlbEntry)) :=
  match s.engPages core c.xlat ps with
  | (s, .ok pages) => (s, some pages)
  | (s, .error (.err k)) => (s.matFail core o k rows, none)
  | (s, .error (.wait s2 page)) => (s.matWait core o (s2, page), none)
  | (s, .error (.ok _)) => (s, none)

/-- An accumulator converted for ACCST (Table 21.7). -/
def accConv (afmt : Nat) (slot : Nat) (x : Nat) : Nat :=
  let src := if afmt = 0 then b64 else b32
  let out := slotOut slot
  if slotFmt out = some src then x else (toSlot src out (slotEnv (BitVec.ofNat 64 slot)) x).1

/-- One output row of an ACCST written: the state, the greatest stamp, and the lines that the operation has stamped; `none` when a hold
makes it wait. -/
def State.storeRow (s : State) (c : EngCtx) (o : MatOp) (x : AccSt) (pages : List ((Nat × Bool) × TlbEntry)) (row : Nat) :
    Option (State × Dword × List (Nat × Dword)) :=
  let e := elemBytes (slotOut x.slot)
  let af := slotA_ x.slot
  (List.range x.n).foldl (fun (acc : Option (State × Dword × List (Nat × Dword))) j =>
    acc.bind (fun a =>
      let s := a.1
      let v := accConv af x.slot ((s.core c.core).accAt af x.tile x.n row j)
      let data := leBytes v e
      let ea := x.dst + BitVec.ofNat 64 (row * x.ldc + j * e)
      match s.engPlace c e ea with
      | .scr l far => some (l.foldl (fun s q => s.engPut o.op far q.1 q.2 data) s, a.2.1, a.2.2)
      | .glb va =>
        match pageEntry pages va true with
        | none => some a
        | some t => (s.engStore c t va o.floor data a.2.2).map (fun y => (y.1, umax a.2.1 y.2.1, y.2.2)))) (some (s, 0, o.lines))

/-- Output rows of an ACCST from a row on, `n` of them: each row's pages, its elements, and the count of rows done. The operation
ends with the last row, carrying the greatest stamp. -/
def State.storeRows (s : State) (core : Nat) (c : EngCtx) (op : Nat) (x : AccSt) : Nat → State
  | 0 => s
  | n + 1 =>
    match (s.core core).mat.find? (fun o => o.op == op) with
    | none => s
    | some o =>
      let row := o.steps
      let piece := (x.dst + BitVec.ofNat 64 (row * x.ldc), x.n * elemBytes (slotOut x.slot))
      match s.matPages core c o (row + 1) (s.piecePages c true [piece]) with
      | (s, none) => s
      | (s, some pages) =>
        if s.tileUe core c o then
          ((s.countUe c.xlat.part).matFail core o 1 row).poisonLines (if c.shadow then [] else s.pieceLines c pages piece)
        else
        match s.storeRow c o x pages row with
        | none => (s.noteStall c.xlat.part).modMat core (fun q => q.map (fun y => if y.op = op then { y with due := s.cycle + nearDelay } else y))
        | some (s, stamp, lines) =>
          let o' := { o with steps := row + 1, lines := lines, stamp := umax o.stamp stamp }
          let s := s.modMat core (fun q => q.map (fun y => if y.op = op then o' else y))
          if x.m ≤ row + 1 then s.matDone core o' o'.stamp else State.storeRows s core c op x n

/-- An ACCZ done: the tiles of its mask hold +0, unless a write fails SECDED in one of them (R362). -/
def State.matZero (s : State) (core : Nat) (o : MatOp) (mask : BitVec 16) : State :=
  if (maskTiles mask).any (s.core core).stuckTiles.contains then
    (s.countUe (((s.engCtx core o.block).map (fun c => c.xlat.part)).getD 0)).matFail core o 1 0
  else
    ((s.tilesGood core (maskTiles mask)).modCore core (fun y => { y with tiles := y.tiles.filter (fun e => !(maskTiles mask).contains (e.1 / 4096)) })).matDone core o 0

/-- An MMA done with its steps: without ACC it has written its tiles whole. -/
def State.mmaEnd (s : State) (core : Nat) (o : MatOp) (x : Mma) : State :=
  (if x.acc then s else s.tilesGood core ((s.engCtx core o.block).toList.flatMap o.tiles)).matDone core o 0

/-- MATRIX_OP_COMPLETE. -/
def execMatrixOpComplete (core op : Nat) (s : State) : Host.Outcome State Fault Refusal :=
  .next (
    match (s.core core).mat.find? (fun o => o.op == op && o.started && !o.group) with
    | none => s
    | some o =>
      if s.engStill o.block then s
      else
      match s.engCtx core o.block with
      | none => (s.matEnd core o 3 0).1
      | some c =>
        if o.hit then s.matFail core o 3 o.steps
        else if o.waiting.isSome || s.matHeld core o then s
        else
          match o.kind with
          | .zero m => s.matZero core o m
          | .store =>
            let x := accStOf (c.slot o.slot) o.params
            s.storeRows core c op x (x.m - o.steps)
          | .mma sp =>
            let x := mmaOf sp (c.slot o.slot) o.params
            match s.matPages core c o 0 (s.piecePages c false x.pieces) with
            | (s, none) => s
            | (s, some pages) =>
              if s.tileUe core c o then (s.countUe c.xlat.part).matFail core o 1 0
              else if s.piecePoison c pages x.pieces then
                ((s.countUe c.xlat.part).matFail core o 1 0).modCore core (fun y => { y with badTiles := (y.badTiles ++ o.tiles c).eraseDups })
              else if s.badMeta c pages x then s.matFail core o 6 0
              else (s.mmaSteps c pages x o.steps (x.k / kStep (slotA_ x.slot) - o.steps)).mmaEnd core o x)

end Sys2Proof.Machine
end

