-- ==== Sys2Proof/Machine/Rule.lean ====
section
/-! DEFINITION. Rule mode (spec/22 R365 to R372, spec/23): the rule context, generations, the RUL words, and the steps of the
Waffle. -/

namespace Sys2Proof.Machine

/-! ### The descriptor (Table 22.1) -/

/-- A rule descriptor. -/
structure RuleDesc where
  tbase : Nat
  bbase : Nat
  wid : Nat
  ht : Nat
  h : Nat
  c : Nat
  nbr : Nat
  idx : Nat
  mode : Nat
  edge : Nat
  gen : Nat
  target : Nat
  run : Bool
  arrive : Nat
  rsvd : Nat
deriving DecidableEq, Repr

/-- A descriptor read from its 64 bytes. -/
def ruleDesc (l : List Byte) : RuleDesc :=
  let f := fun (o n : Nat) => leNat ((l.drop o).take n)
  { tbase := f 0 4, bbase := f 4 4, wid := f 8 2, ht := f 0xA 2, h := f 0xC 1, c := f 0xD 1, nbr := f 0xE 1, idx := f 0xF 1,
    mode := f 0x10 1, edge := f 0x11 1, gen := f 0x14 4, target := f 0x18 4, run := natBit (f 0x1C 4) 0, arrive := f 0x20 4,
    rsvd := f 0x12 2 + f 0x1C 4 / 2 + f 0x24 28 }

/-- Neighbours of a cell. -/
def RuleDesc.n (d : RuleDesc) : Nat := if d.nbr = 0 then 4 else 8

/-- w of R367: the least width whose values exceed the greatest sum of neighbours. -/
def RuleDesc.sumWidth (d : RuleDesc) : Nat := (d.n * (2 ^ d.c - 1)).log2 + 1

/-- The width of an index (Table 23.1). -/
def RuleDesc.width (d : RuleDesc) : Nat := if d.idx = 1 then d.c + d.sumWidth else d.c * (d.n + 1)

/-- The bytes of a plane. -/
def RuleDesc.planeBytes (d : RuleDesc) : Nat := d.wid * d.ht * d.c / 8

/-- Whether the mode is SYNC. -/
def RuleDesc.sync (d : RuleDesc) : Bool := d.mode == 0

/-- The planes that the mode uses. -/
def RuleDesc.planes (d : RuleDesc) : List Nat := if d.sync then [d.tbase, d.bbase] else [d.tbase]

/-- The live plane's offset (R365). -/
def RuleDesc.live (d : RuleDesc) : Nat := if d.sync && d.gen % 2 == 1 then d.bbase else d.tbase

/-- The offset of the plane that a generation writes (R367). -/
def RuleDesc.next (d : RuleDesc) : Nat := if d.sync && d.gen % 2 == 0 then d.bbase else d.tbase

/-- The checks of R368 in an area of a size. -/
def RuleDesc.ok (d : RuleDesc) (area : Nat) : Bool :=
  d.rsvd = 0 && 1 ≤ d.h && d.h ≤ 64 && (d.c == 1 || d.c == 2 || d.c == 4) && d.nbr ≤ 1 && d.idx ≤ 1 && d.mode ≤ 1 && d.edge < 2 ^ d.c
    && d.planes.all (fun p => p % 4 = 0 && decide (p + d.planeBytes ≤ area)) && d.arrive % 8 = 0 && d.arrive + 8 ≤ area
    && d.wid * d.c % 32 = 0 && 2 * d.h + 1 ≤ d.wid && 2 * d.h + 1 ≤ d.ht && d.width ≤ 12

/-- Whether two byte ranges overlap. -/
def overlap (a n b m : Nat) : Bool := a < b + m && b < a + n

/-- The further checks of R380 for a descriptor at an offset. -/
def RuleDesc.apart (d : RuleDesc) (off : Nat) : Bool :=
  (!d.sync || !overlap d.tbase d.planeBytes d.bbase d.planeBytes)
    && d.planes.all (fun p => !overlap p d.planeBytes off 64 && !overlap p d.planeBytes d.arrive 8)

/-! ### Planes and generations (R365, R367, R375, R376) -/

/-- A cell's code in a plane read as a bit string. -/
def RuleDesc.cell (d : RuleDesc) (plane x y : Nat) : Nat := natBits plane ((y * d.wid + x) * d.c) d.c

/-- A cell's code, or EDGE beyond the tile. -/
def RuleDesc.code (d : RuleDesc) (plane : Nat) (x y : Int) : Nat :=
  if x < 0 || y < 0 || (d.wid : Int) ≤ x || (d.ht : Int) ≤ y then d.edge else d.cell plane x.toNat y.toNat

/-- N, E, S, W, NE, SE, SW, NW, with y growing downward. -/
def ruleDirs : List (Int × Int) := [(0, -1), (1, 0), (0, 1), (-1, 0), (1, -1), (1, 1), (-1, 1), (-1, -1)]

/-- A cell's index into the table. -/
def RuleDesc.index (d : RuleDesc) (plane x y : Nat) : Nat :=
  let own := d.cell plane x y
  let nb := (ruleDirs.take d.n).map (fun v => d.code plane (x + v.1) (y + v.2))
  if d.idx = 1 then own * 2 ^ d.sumWidth + nb.foldl (· + ·) 0 else nb.foldl (fun acc c => acc * 2 ^ d.c + c) own

/-- A cell's new code. -/
def RuleDesc.newCode (d : RuleDesc) (table : Tab (BitVec 4)) (plane x y : Nat) : Nat :=
  ((Tab.find table (d.index plane x y)).getD 0).toNat % 2 ^ d.c

/-- A plane with the cells of a parity (0 or 1), or every cell (2), given their new codes. -/
def RuleDesc.stepPlane (d : RuleDesc) (table : Tab (BitVec 4)) (plane parity : Nat) : Nat :=
  (List.range d.ht).foldl (fun acc y =>
    (List.range d.wid).foldl (fun acc x =>
      let v := if parity = 2 || (x + y) % 2 = parity then d.newCode table plane x y else d.cell plane x y
      acc + v * 2 ^ ((y * d.wid + x) * d.c)) acc) 0

/-! ### The rule context (R374) -/

/-- The Waffle of a core changed. -/
def State.modWaffle (s : State) (core : Nat) (f : Waffle → Waffle) : State := s.modCore core (fun c => { c with waffle := f c.waffle })

/-- A core's Waffle. -/
def State.waffle (s : State) (core : Nat) : Waffle := (s.core core).waffle

/-- The bound descriptor: the area's base and size, the descriptor's offset, and its fields; none when its block has left. -/
def State.boundDesc (s : State) (core : Nat) : Option (Nat × Nat × Nat × RuleDesc) :=
  match (s.waffle core).bound with
  | none => none
  | some (b, off) => (s.ownArea b core).map (fun a => (a.1, a.2, off, ruleDesc (s.scratchGet core (a.1 + off) 64)))

/-- ILLEGAL_OPERAND for a rule word. -/
def ruleFault (code : Nat) : TrapInfo := TrapInfo.of .illegalOperand (0x300 + code)

/-- A RUL word that reads the own scratchpad and waits until no step is queued or running (R368, R369). -/
def State.rulWait (s : State) (h : Hd) (go : State → State) : State :=
  match s.pass with
  | none => s
  | some p =>
    let ex := (p.execs s h).1
    if ex.any (fun c => s.accessDue c.key false) || (!ex.isEmpty && !(s.waffle p.core).queue.isEmpty) then s.holdPass p else go s

/-- RCFG (R368). -/
def execRcfg (t : WA) (s : State) : Host.Outcome State Fault Refusal :=
  .next (s.rulWait t.h (fun s => s.ownPass (ownWord t.h (.sel t.a 1) .none none 4 false) (fun s c a _ =>
    let off := (w0 a).toNat
    match s.ownCheck c.w.block c.p.core off 64 64 with
    | .error e => .error e
    | .ok x =>
      if (ruleDesc (s.scratchGet c.p.core x 64)).ok (((s.ownArea c.w.block c.p.core).map (·.2)).getD 0) then
        .ok (s.modWaffle c.p.core (fun w => { w with bound := some (c.w.block, off) }), [])
      else .error (ruleFault 0xE0))))

/-- Table entries loaded from an image. -/
def loadTable (t : Tab (BitVec 4)) (image : List Byte) : Tab (BitVec 4) :=
  image.zipIdx.foldl (fun (t : Tab (BitVec 4)) (e : Byte × Nat) => Tab.put (Tab.put t (2 * e.2) (e.1.setWidth 4)) (2 * e.2 + 1) ((e.1 >>> 4).setWidth 4)) t

/-- RTLD (R369). -/
def execRtld (t : WAB) (s : State) : Host.Outcome State Fault Refusal :=
  .next (s.rulWait t.h (fun s => s.ownPass (ownWord t.h (.sel t.a 1) (bI32 t.b) none 4 false) (fun s c a b =>
    let n := (w0 b).toNat
    if n % 2 ≠ 0 || n < 2 || 4096 < n then .error (TrapInfo.of .idxRange (idxInfo (w0 b).toInt 0))
    else
      match s.ownCheck c.w.block c.p.core (w0 a).toNat 4 (n / 2) with
      | .error e => .error e
      | .ok x =>
        .ok (s.modWaffle c.p.core (fun w => { w with table := (loadTable w.table (s.scratchGet c.p.core x (n / 2))).filter (fun e => e.2 != 0) }),
          []))))

/-- RSTEP (R370, R380). -/
def execRstep (t : WA) (s : State) : Host.Outcome State Fault Refusal :=
  .next (s.handWord
    { h := t.h, srcs := [.sel t.a 1], counts := true, release := true, early := false
      full := fun s p _ => 8 ≤ (s.waffle p.core).queue.length
      plan := fun s c =>
        match c.read 0 (.sel t.a 1) with
        | .error e => .error e
        | .ok a => if (s.boundDesc c.p.core).isNone then .error (ruleFault 0xE1) else .ok (w0 a)
      act := fun s c word id g =>
        (s.modThread c.key (fun _ => c.handed t.h (.sel t.a 1))).modWaffle c.p.core (fun w =>
          { w with
            due := if w.queue.isEmpty then c.slot + nearDelay else w.due
            queue := w.queue ++ [{ op := id, block := c.w.block, warp := c.key.warp, word := word, g := g, started := false,
                                   kept := w.aborting }] }) })

/-! ### Rectangle words (R372) -/

/-- A rectangle word's fields: x, y, w, h. -/
structure Rect where
  x : Nat
  y : Nat
  w : Nat
  h : Nat
deriving DecidableEq, Repr

/-- A rectangle read from its word. -/
def rectOf (x : Word) : Rect :=
  { x := natBits x.toNat 0 8, y := natBits x.toNat 8 8, w := natBits x.toNat 16 8, h := natBits x.toNat 24 8 }

/-- Whether a rectangle lies in the tile. -/
def Rect.ok (r : Rect) (d : RuleDesc) : Bool := r.w ≠ 0 && r.h ≠ 0 && r.x + r.w ≤ d.wid && r.y + r.h ≤ d.ht

/-- Words of one packed row. -/
def Rect.rowWords (r : Rect) (d : RuleDesc) : Nat := (r.w * d.c + 31) / 32

/-- A rectangle's geometry: the area's base, the descriptor and the live plane's scratchpad address, or the fault. -/
def State.rectPlan (s : State) (core : Nat) (a : Word) : Except TrapInfo (RuleDesc × Nat) :=
  match s.boundDesc core with
  | none => .error (ruleFault 0xE1)
  | some (base, size, _, d) =>
    if !d.ok size then .error (ruleFault 0xE0)
    else if !(rectOf a).ok d then .error (TrapInfo.of .idxRange a.toNat)
    else .ok (d, base + d.live)

/-- The live plane checked against the locks. -/
def State.planeLock (s : State) (core : Nat) (d : RuleDesc) (at_ : Nat) (write : Bool) : Option TrapInfo :=
  if (s.core core).locked .scratch at_ d.planeBytes write then some (TrapInfo.at_ .rangeLock (ownAddr d.live)) else none

/-- The packed rows of a rectangle. -/
def packRect (d : RuleDesc) (r : Rect) (plane : Nat) : List Byte :=
  (List.range r.h).flatMap (fun j =>
    leBytes ((List.range r.w).foldl (fun acc i => acc + d.cell plane (r.x + i) (r.y + j) * 2 ^ (i * d.c)) 0) (4 * r.rowWords d))

/-- RPACK (R372). -/
def execRpack (t : WAB) (s : State) : Host.Outcome State Fault Refusal :=
  .next (s.afterOwn t.h true (fun s => s.ownPass (ownWord t.h (.sel t.a 1) (bI32 t.b) none 4 false) (fun s c a b =>
    match s.rectPlan c.p.core (w0 a) with
    | .error e => .error e
    | .ok (d, at_) =>
      let r := rectOf (w0 a)
      match s.ownCheck c.w.block c.p.core (w0 b).toNat 4 (4 * r.h * r.rowWords d) with
      | .error e => .error e
      | .ok _ =>
        match s.planeLock c.p.core d at_ false with
        | some e => .error e
        | none =>
          match s.ownLocked c.w.block c.p.core (w0 b).toNat 4 (4 * r.h * r.rowWords d) true with
          | .error e => .error e
          | .ok x => .ok (s.scratchPut c.p.core x (packRect d r (leNat (s.scratchGet c.p.core at_ d.planeBytes))), []))))

/-- A plane with a rectangle's cells taken from packed rows. -/
def unpackRect (d : RuleDesc) (r : Rect) (plane : Nat) (buf : List Byte) : Nat :=
  (List.range d.ht).foldl (fun acc y =>
    let row := if r.y ≤ y && y < r.y + r.h then leNat ((buf.drop ((y - r.y) * 4 * r.rowWords d)).take (4 * r.rowWords d)) else 0
    (List.range d.wid).foldl (fun acc x =>
      let v := if r.y ≤ y && y < r.y + r.h && r.x ≤ x && x < r.x + r.w then natBits row ((x - r.x) * d.c) d.c else d.cell plane x y
      acc + v * 2 ^ ((y * d.wid + x) * d.c)) acc) 0

/-- RUNPACK (R372). -/
def execRunpack (t : WAB) (s : State) : Host.Outcome State Fault Refusal :=
  .next (s.afterOwn t.h true (fun s => s.ownPass (ownWord t.h (.sel t.a 1) (bI32 t.b) none 4 false) (fun s c a b =>
    match s.rectPlan c.p.core (w0 a) with
    | .error e => .error e
    | .ok (d, at_) =>
      let r := rectOf (w0 a)
      let n := 4 * r.h * r.rowWords d
      match s.ownCheck c.w.block c.p.core (w0 b).toNat 4 n with
      | .error e => .error e
      | .ok _ =>
        match s.planeLock c.p.core d at_ true with
        | some e => .error e
        | none =>
          match s.ownLocked c.w.block c.p.core (w0 b).toNat 4 n false with
          | .error e => .error e
          | .ok x =>
            let plane := leNat (s.scratchGet c.p.core at_ d.planeBytes)
            .ok (s.scratchPut c.p.core at_ (leBytes (unpackRect d r plane (s.scratchGet c.p.core x n)) d.planeBytes), []))))

/-- The cells of a rectangle that hold a code. -/
def countRect (d : RuleDesc) (r : Rect) (plane code : Nat) : Nat :=
  ((List.range r.h).flatMap (fun j => (List.range r.w).filter (fun i => d.cell plane (r.x + i) (r.y + j) == code))).length

/-- RCOUNT (R372). -/
def execRcount (t : WDAB) (s : State) : Host.Outcome State Fault Refusal :=
  .next (s.afterOwn t.h false (fun s => s.ownPass (ownWord t.h (.sel t.a 1) (bI32 t.b) (some (t.d, 2)) 4 false) (fun s c a b =>
    match s.rectPlan c.p.core (w0 a) with
    | .error e => .error e
    | .ok (d, at_) =>
      if 15 < (w0 b).toNat then .error (TrapInfo.of .idxRange (w0 b).toNat)
      else
        match s.planeLock c.p.core d at_ false with
        | some e => .error e
        | none =>
          let plane := leNat (s.scratchGet c.p.core at_ d.planeBytes)
          let n := fun (i : Nat) => countRect d (rectOf (w0 a)) plane ((w0 b).toNat + i)
          .ok (s, Dword.words (BitVec.ofNat 64 (n 0 + n 1 * 2 ^ 16 + n 2 * 2 ^ 32 + n 3 * 2 ^ 48))))))

/-- RGEN (R384): the descriptor's fields, which a running step keeps up to date. -/
def execRgen (t : WD) (s : State) : Host.Outcome State Fault Refusal :=
  .next (s.ownPass (ownWord t.h .none .none (some (t.d, 2)) 4 false) (fun s c _ _ =>
    match s.boundDesc c.p.core with
    | none => .error (ruleFault 0xE1)
    | some (_, _, _, d) =>
      let w := s.waffle c.p.core
      let bit := fun (b : Bool) (i : Nat) => if b then 2 ^ i else 0
      .ok (s, Dword.words (BitVec.ofNat 64 (d.gen + bit d.run 32 + bit (!w.queue.isEmpty) 33 + bit w.aborting 34)))))

/-! ### The ends of steps (R370, R382, R385) -/

/-- w4 told that a step has started, or has ended before it started. -/
def State.ruleTell (s : State) (o : RuleStep) : State := if o.started then s else s.modWarp o.warp (fun w => w.answer o.word none s.cycle)

/-- A step's final update through an arrival word's offset, its locks freed, and its place in the queue given up. -/
def State.ruleEnd (s : State) (core : Nat) (o : RuleStep) (arrive : Option Nat) (err : Nat) : State :=
  let s := s.ruleTell o
  let s := match arrive with
    | none => s
    | some a => (s.arrive_ core a 3 1 err 0).1
  (s.freeLocks o.op).modWaffle core (fun w =>
    { w with queue := w.queue.filter (fun y => y.op != o.op), hit := false, half := false, due := s.cycle + nearDelay })

/-- The scratchpad address of the bound descriptor's arrival word, when its ARRIVE names one. -/
def State.ruleArrive (s : State) (core : Nat) : Option Nat :=
  match s.boundDesc core with
  | none => none
  | some (base, size, _, d) => if d.arrive % 8 = 0 && d.arrive + 8 ≤ size then some (base + d.arrive) else none

/-- The pending abort taken at a generation boundary: the steps queued before it, then the running one (R385). -/
def State.ruleAbort (s : State) (core : Nat) : State :=
  let w := s.waffle core
  let arrive := s.ruleArrive core
  let s := (w.queue.filter (fun o => !o.started && !o.kept)).foldl (fun s o => s.ruleEnd core o arrive 5) s
  let s := (w.queue.filter RuleStep.started).foldl (fun s o => s.ruleEnd core o arrive 5) s
  s.modWaffle core (fun w => { w with aborting := false, queue := w.queue.map (fun o => { o with kept := false }) })

/-- RABORT (R385): the bundle holds until the abort has taken effect. -/
def execRabort (t : HdW) (s : State) : Host.Outcome State Fault Refusal :=
  .next (
    match s.pass with
    | none => s
    | some p =>
      let e := p.execs s t.h
      let acted := ((Tab.find s.bundles p.port).map Bundle.acted).getD []
      let done := fun (s : State) =>
        e.1.foldl (fun s c => s.modThread c.key (fun y => { y with toff := 0, wait := none })) s |>.endPass p [] e.2
      if e.1.isEmpty then s.endPass p [] e.2
      else if acted.isEmpty then
        -- a thread that was stopped at this word has its abort pending already
        let s := if e.1.all (fun c => c.th.wait == some .abort) then s
          else s.modWaffle p.core (fun w => { w with aborting := true, queue := w.queue.map (fun o => { o with kept := false }) })
        if (s.waffle p.core).aborting && (s.waffle p.core).queue.any RuleStep.started then
          (s.modBundle p.port (fun b => { b with acted := e.1.map TCtx.key })).holdPass p
        else done (if (s.waffle p.core).aborting then s.ruleAbort p.core else s)
      else if (s.waffle p.core).aborting then s.holdPass p
      else done s)

/-! ### RULE_STEP_START (R370, R380, R381) -/

/-- A destination of a step. -/
def stepLock (core : Nat) (o : RuleStep) (a n : Nat) : Nat × Lock :=
  (core, { op := o.op, block := o.block, space := .scratch, lo := a, hi := a + n, dst := true })

/-- The planes of a step, which no other operation's destination may overlap (R381). -/
def planeLocks (core : Nat) (o : RuleStep) (base : Nat) (d : RuleDesc) : List (Nat × Lock) :=
  d.planes.map (fun p => stepLock core o (base + p) d.planeBytes)

/-- The locks of a step: its planes and its descriptor, as destinations. -/
def ruleLocks (core : Nat) (o : RuleStep) (base off : Nat) (d : RuleDesc) : List (Nat × Lock) :=
  planeLocks core o base d ++ [stepLock core o (base + off) 64]

/-- Cells that the Waffle updates in a cycle (R379). -/
def ruleCycles (d : RuleDesc) : Nat :=
  let r := (d.wid * d.ht + (if d.c = 4 then 1023 else 2047)) / (if d.c = 4 then 1024 else 2048) + 24
  if d.sync then r else 2 * r

/-- Cycles that a step takes besides its generations (R379). -/
def stepCycles : Nat := 40

/-- RULE_STEP_START. -/
def execRuleStepStart (core : Nat) (s : State) : Host.Outcome State Fault Refusal :=
  .next (
    match (s.waffle core).queue with
    | [] => s
    | o :: _ =>
      if o.started || s.engStill o.block then s
      else
        match s.boundDesc core with
        | none => s.ruleEnd core o none 6
        | some (base, size, off, d) =>
          if !d.ok size || !d.apart off || (!d.run && (o.g.toNat < 1 || d.h < o.g.toNat)) then s.ruleEnd core o (s.ruleArrive core) 6
          else
            let locks := ruleLocks core o base off d
            if !s.locksFit locks then s.modWaffle core (fun w => { w with due := s.cycle + nearDelay })
            else
              let s := if d.run then s
                else s.scratchPut core (base + off + 0x18) (leBytes ((d.gen + o.g.toNat) % 2 ^ 32) 4 ++ leBytes 1 4)
              if s.locksClash (planeLocks core o base d) then s.ruleEnd core o (s.ruleArrive core) 3
              else
                ((s.ruleTell o).addLocks locks).modWaffle core (fun w =>
                  { w with hit := false, due := s.cycle + stepCycles + ruleCycles d,
                           queue := w.queue.map (fun y => if y.op = o.op then { y with started := true } else y) }))

/-! ### RULE_GENERATION (R367, R370, R376, R385) -/

/-- A half-step of CHEQ, or a generation of SYNC, made in the planes of the bound descriptor. -/
def State.rulePlane (s : State) (core : Nat) (parity : Nat) : State :=
  match s.boundDesc core with
  | none => s
  | some (base, _, _, d) =>
    let plane := leNat (s.scratchGet core (base + d.live) d.planeBytes)
    s.scratchPut core (base + d.next) (leBytes (d.stepPlane (s.waffle core).table plane parity) d.planeBytes)

/-- One whole generation, or the half that a saved half-step leaves, with GEN counted. -/
def State.ruleStep (s : State) (core : Nat) : State :=
  match s.boundDesc core with
  | none => s
  | some (base, _, off, d) =>
    let s := if d.sync then s.rulePlane core 2
      else if (s.waffle core).half then s.rulePlane core 1 else (s.rulePlane core 0).rulePlane core 1
    (s.scratchPut core (base + off + 0x14) (leBytes ((d.gen + 1) % 2 ^ 32) 4)).modWaffle core (fun w =>
      { w with half := false, due := s.cycle + ruleCycles d })

/-- The first half of a CHEQ generation, at which a save may stop a step (R371). -/
def State.ruleHalf (s : State) (core : Nat) : State :=
  match (s.waffle core).queue, s.boundDesc core with
  | o :: _, some (_, _, _, d) =>
    if o.started && !d.sync && !(s.waffle core).half && decide (d.gen < d.target) then
      (s.rulePlane core 0).modWaffle core (fun w => { w with half := true })
    else s
  | _, _ => s

/-- The end of a step whose generations are done: RUN cleared, then the final update. -/
def State.ruleDone (s : State) (core : Nat) (o : RuleStep) : State :=
  match s.boundDesc core with
  | none => s.ruleEnd core o none 0
  | some (base, _, off, _) => (s.scratchPut core (base + off + 0x1C) (leBytes 0 4)).ruleEnd core o (s.ruleArrive core) 0

/-- The plane that an unfinished generation was writing, undefined (R382). -/
def State.ruleSpoil (s : State) (core : Nat) : State :=
  match s.boundDesc core with
  | none => s
  | some (base, _, _, d) =>
    { s.scratchPut core (base + d.next) ((List.range d.planeBytes).map (fun i => Config.freeByte (s.fresh + i))) with
      fresh := s.fresh + d.planeBytes }

/-- A running step ended with an error that cut its generation short, or not; of a CHEQ generation whose first half-step is done the second is
still to come (R382). -/
def State.ruleFail (s : State) (core : Nat) (o : RuleStep) (err : Nat) (cut : Bool) : State :=
  let s := if cut || (s.waffle core).half then s.ruleSpoil core else s
  s.ruleEnd core o (s.ruleArrive core) err

/-- RULE_GENERATION. -/
def execRuleGeneration (core : Nat) (s : State) : Host.Outcome State Fault Refusal :=
  .next (
    match (s.waffle core).queue with
    | [] => s
    | o :: _ =>
      if !o.started || s.engStill o.block then s
      else if (s.waffle core).hit then s.ruleFail core o 3 false
      else
        match s.boundDesc core with
        | none => s.ruleEnd core o none 3
        | some (_, _, _, d) =>
          let s := if d.gen < d.target then s.ruleStep core else s
          match s.boundDesc core with
          | none => s
          | some (_, _, _, e) =>
            if e.target ≤ e.gen then
              let s := s.ruleDone core o
              if (s.waffle core).aborting then s.ruleAbort core else s
            else if (s.waffle core).aborting then s.ruleAbort core
            else s)

end Sys2Proof.Machine
end

