-- ==== Sys2Proof/Machine/Traps.lean ====
section
/-! DEFINITION. Stopped threads: the halt of a block and its handler (spec/18), parked accesses and fetches released or denied
(spec/11, spec/12), walks, page queues, invalidations, and the comparison of redundant windows. -/

namespace Sys2Proof.Machine

/-! ### The header a thread stands at (R17) -/

/-- A translation as a fetch would find it, with no effect on any state. -/
def State.peekCode (s : State) (core : Nat) (x : Xlat) (va : Nat) : Option TlbEntry :=
  match ((s.core core).tlb ++ s.ctlb core).find? (fun e => e.hits x va) with
  | some e => some e
  | none => s.peekXlat x va

/-- The header at a program counter, where it can be read. -/
def State.headerAt (s : State) (core : Nat) (x : Xlat) (pc : Dword) : Option Header :=
  (s.peekCode core x pc.toNat).map (fun e => Header.ofWord (BitVec.ofNat 32 (s.mem.nat (e.phys pc.toNat) 4)))

/-- Whether a thread's WAIT condition is met: inside a clause there is none, and a header that cannot be read names no counter. -/
def State.waitOver (s : State) (t : TKey) : Bool :=
  match s.thread t, Tab.find s.warps t.warp, s.launchOf t.warp with
  | some th, some w, some l =>
    decide (th.pos.word ≠ 0) || ((s.headerAt w.core l.xlat th.pos.pc).map (fun h => w.waitMet h.wait)).getD true
  | _, _, _ => false

/-- Whether a halt that reaches a thread's lane stops it (R310): it is issuing, or ready and not waiting on counters. -/
def State.stoppable (s : State) (t : TKey) : Bool :=
  ((s.thread t).map (fun th => th.st == .issuing || (th.st == .ready && s.waitOver t))).getD false

/-! ### Bundles dissolved at a stop -/

/-- The place after a held bundle's word. -/
def Bundle.after (b : Bundle) : Pos :=
  if b.pos + 1 < b.words.length then ⟨b.pc, b.pos + 1⟩ else ⟨b.pc + BitVec.ofNat 64 (4 * (b.hdr.n + 1)), 0⟩

/-- Whether a bundle is held at an RABORT. -/
def Bundle.atAbort (b : Bundle) : Bool := b.hdr.wordCls b.pos == .rul && (b.words[b.pos]?).any (fun w => wordOp w == 7)

/-- A bundle dissolved at an instruction boundary: a thread that has already handed over the command of a held word stands after
that word, the word's last response is given, and the walks that the bundle waited for are let go. A thread at an RABORT stays there,
its abort still pending (R385). -/
def State.dissolve (s : State) (port : Nat) : State :=
  match Tab.find s.bundles port with
  | none => s
  | some b =>
    let place := fun (w : Nat) => b.acts + b.threads.findIdx (fun k => k.warp == w)
    let s := b.acted.foldl (fun s k => s.modThread k (fun t =>
      if b.atAbort then { t with wait := some .abort } else { t with pos := b.after, issued := t.issued + 1 })) s
    let s := if b.atAbort then s
      else ((b.acted.map TKey.warp).eraseDups).foldl (fun s w => s.modWarp w (fun x => x.answer (place w) none s.cycle)) s
    let s := s.dropWalks b.walked b.id
    { s with bundles := Tab.drop s.bundles port, portFree := Tab.put s.portFree port (max b.next s.cycle) }

/-- The bundles of a lane that hold a thread satisfying a test, dissolved. -/
def State.dissolveIf (s : State) (lane : Nat) (f : TKey → Bool) : State :=
  (s.bundles.filter (fun e => portLane e.1 == lane && e.2.threads.any f)).foldl (fun s e => s.dissolve e.1) s

/-- Whether a block's context has been taken off its cores, to be restored or for good. -/
def State.blockSaved (s : State) (b : Nat) : Bool :=
  s.engStill b

/-! ### The halt (R309 to R311) -/

/-- A block's halt reaches a lane: every thread of the block there that would go on issuing stops with a stop record. -/
def State.haltLane (s : State) (block lane : Nat) : State :=
  let ks := (s.blockKeys block).filter (fun k => ((Tab.find s.warps k.warp).map (fun w => w.core * Config.lanes + w.lane == lane)).getD false)
  let stop := ks.filter s.stoppable
  let s := s.dissolveIf lane stop.contains
  let s := stop.foldl (fun s k => s.modThread k Thread.halt) s
  s.modBlock block (fun b => { b with halt := b.halt.map (fun h => { h with reached := h.reached ++ [lane] }) })

/-- HALT_BROADCAST. -/
def execHaltBroadcast (block core lane : Nat) (s : State) : Host.Outcome State Fault Refusal :=
  .next (
    let n := core * Config.lanes + lane
    match (Tab.find s.blocks block).bind Block.halt with
    | none => s
    | some h => if s.blockSaved block || h.reached.contains n || !(s.blockLanes block).contains n then s else s.haltLane block n)

/-- Whether a halted block's thread may enter the handler: the broadcast has reached every lane, and the thread stands halted. -/
def State.entryDue (s : State) (block : Nat) : Bool :=
  match (Tab.find s.blocks block).bind Block.halt with
  | none => false
  | some h =>
    !s.blockSaved block && (s.blockLanes block).all h.reached.contains && (s.blockKeys block).contains h.thread
      && ((s.thread h.thread).map (fun t => t.st == .halted && !t.handler)).getD false

/-- HANDLER_ENTRY (R311). -/
def execHandlerEntry (block : Nat) (s : State) : Host.Outcome State Fault Refusal :=
  .next (
    match (Tab.find s.blocks block).bind Block.halt with
    | none => s
    | some h => if s.entryDue block then s.enterHandler h.thread else s)

/-! ### Faults and releases of parked threads (R216, R217, R225) -/

/-- The response words of a request: its own word and those of its parts. -/
def Req.wordIds (r : Req) : List Nat := (r.word :: r.parts.map Part.word).eraseDups

/-- One response of each word of a request given. -/
def State.answerReq (s : State) (r : Req) (value : Option Dword) : State :=
  { s with warps := s.warps.map (fun e => (e.1, r.wordIds.foldl (fun w i => w.answer i value s.cycle) e.2)) }

/-- A request gone, with what awaited its value given up. -/
def State.dropReq (s : State) (r : Req) : State :=
  { s with
    reqs := s.reqs.filter (fun y => y.id != r.id)
    warps := s.warps.map (fun e => (e.1,
      { e.2 with
        sasync := e.2.sasync.filter (fun a => a.req != r.id)
        threads := e.2.threads.map (fun t => { t with async := t.async.filter (fun a => a.req != r.id) }) })) }

/-- A parked request's threads take a fault precisely at its word (R217): its response is given, nothing is sent, and each thread
records the fault and raises its block's halt. -/
def State.faultReq (s : State) (r : Req) (i : TrapInfo) : State :=
  let handler := fun (k : TKey) => ((s.thread k).map Thread.handler).getD false
  let hs := r.parts.map (fun q => (q.thread, handler q.thread))
  let s := (s.answerReq r none).dropReq r
  let s := hs.foldl (fun s e => s.modThread e.1 (fun t => t.recordTrap i r.tpc t.skid t.resume)) s
  hs.foldl (fun s e => s.raiseHalt e.1 e.2 s.cycle) s

/-- A parked fetch released: its threads are candidates at the header again (R225). -/
def State.releaseFetch (s : State) (r : Req) : State :=
  (r.parts.foldl (fun s q => s.modThread q.thread (fun t => t.release s.cycle)) (s.dropReq r))

/-- The modifiers that a parked request was issued with. -/
def Req.mods (r : Req) : Mods :=
  { ord := if r.acq then (if r.rel then .acqRel else .acq) else if r.rel then .rel else .plain, space := .glb, cache := r.hint,
    ctr := r.ctr, noagg := false }

/-- Whether a request writes memory. -/
def Req.writes (r : Req) : Bool := match r.kind with | .store _ | .stamped _ | .atomic _ _ _ => true | _ => false

/-- Whether an access sets ACCESSED: a read of parameter space does not (R155). -/
def Req.marks (r : Req) : Bool := match r.place with | .param _ => false | _ => true

/-- A request put in the place of the one with its number. -/
def State.putReq (s : State) (r : Req) : State := { s with reqs := s.reqs.map (fun y => if y.id = r.id then r else y) }

/-- A released access parks again (R217): a new page request, and TMASK with the thread's own bit. -/
def State.parkAgain (s : State) (r : Req) (x : Xlat) (s2 : Bool) (page : Nat) (table : Bool) : State :=
  if s.queueOff x s2 page then s.faultReq r (fatalAt s2 r.va)
  else
    let s := s.putReq { r with stage := .parked s2 page }
    let s := r.parts.foldl (fun s q => s.modThread q.thread (fun t => { t with tmask := BitVec.ofNat 32 (1 <<< q.thread.slot) })) s
    let kind : Nat := if table then 6 else match r.kind with | .store _ | .stamped _ => 1 | .atomic _ _ _ => 2 | .fetch => 3 | _ => 0
    s.pageRequest x r.core kind s2 page

/-- The page after the one in which a parameter read begins, where the read goes on in it (R155). -/
def Req.secondPage (r : Req) : Option Nat :=
  match r.place with
  | .param len => if pageOf (r.va.toNat + (len - 1)) = pageOf r.va.toNat then none else some (pageOf (r.va.toNat + (len - 1)))
  | _ => none

/-- A released access whose translation is known is sent (R217): its K marks are applied, its threads go on, and it is served at
its place. A redundant launch's store goes to the write buffer. -/
def State.sendReleased (s : State) (r : Req) (e : TlbEntry) (pa2 : Nat) : State :=
  let pa := e.phys r.va.toNat
  let r := { r with tlb := some e, pa := pa, pa2 := pa2, attrs := e.attrs, slice := homeSlice pa, stage := .sent, due := s.cycle + farDelay, order := s.uid }
  let s := { s with uid := s.uid + 1 }
  let s := (r.parts.zip r.killA).foldl (fun s q => s.modThread q.1.thread (fun t =>
    q.1.dst.foldl (fun t l => t.revive l) (q.2.foldl (fun t l => t.setVoid l true) t))) s
  let s := r.parts.foldl (fun s q => s.modThread q.thread (fun t => t.release s.cycle)) s
  let copy := (r.parts.head?.map (fun q => q.thread.warp)).bind s.redCopy
  let q := s.redSend copy r
  let r := q.2
  let r := match r.place, r.kind with
    | .global, .load n sg =>
      match q.1.l1Serves r.core r.pa r.attrs r.mods (r.parts.map Part.thread) with
      | some l =>
        { r with parts := r.parts.map (fun y => { y with value := loadWords n sg ((l.data.drop (r.pa % 64)).take n) }),
                 raise := some l.carried, stage := .served, due := q.1.cycle + nearDelay }
      | none => r
    | _, _ => r
  (q.1.putReq r).known r

/-- A released access at the end of its repeated walk (R217): the checks of steps 6 to 8 of Table 10.2, then its sending. -/
def State.resumeReq (s : State) (r : Req) (x : Xlat) (w : WalkEnd) : State :=
  match w with
  | .fatal s2 | .ue s2 => s.faultReq r (fatalAt s2 r.va)
  | .miss s2 page table => s.parkAgain r x s2 page table
  | .ok e =>
    if r.writes && !e.attrs.write then s.faultReq r (TrapInfo.at_ .permission r.va)
    else
      match r.secondPage.map (fun pg => (pg, (s.walkAll x pg).1)) with
      | some (_, .fatal s2) | some (_, .ue s2) => s.faultReq r (fatalAt s2 r.va)
      | some (_, .miss s2 page table) => s.parkAgain r x s2 page table
      | some (pg, .ok e2) => s.sendReleased r e (e2.phys pg)
      | none =>
      match r.kind with
      | .asof _ st =>
        if decide (st.toNat < (s.part x.part).horizon.toNat) || !e.attrs.hist then
          s.faultReq r { cause := .histGone, info := 0, addr := r.va, stamp := st, from_ := none }
        else s.sendReleased r e 0
      | _ =>
        if r.writes then
          match s.setDirty e r.va.toNat with
          | (s, none) => s.sendReleased r e 0
          | (s, some (s2, page)) => s.parkAgain r x s2 page false
        else s.sendReleased r e 0

/-! ### Requests of contexts that have left their cores -/

/-- Whether a launch has been saved to be restored. -/
def State.isAway (s : State) (l : Nat) : Bool := ((Tab.find s.launches l).map Launch.away).getD false

/-- Whether a request belongs to a context as it stands: it is resident, and the request carries its generation (R316). -/
def State.current (s : State) (r : Req) : Bool :=
  ((Tab.find s.launches r.launch).map (fun l => !l.offAt r.core && l.gen == r.gen)).getD false

/-! ### Walks (R215, R220) -/

/-- Every walk that no bundle and no request waits for any more forgotten. -/
def State.tidyWalks (s : State) : State :=
  { s with walks := s.walks.filterMap (fun w =>
      let live := w.waits.filter (fun x =>
        match x with
        | .bundle b => s.bundles.any (fun e => e.2.id == b)
        | .request i => s.reqs.any (fun r => r.id == i))
      if live.isEmpty && w.done.isSome then none else some { w with waits := live }) }

/-- Whether an invalidation is at its end (R229). -/
def State.invalOver (s : State) (i : Inval) : Bool :=
  !(s.walks.any (fun w => w.done.isNone && i.walks.contains w.id)) && !(s.reqs.any (fun r => i.reqs.contains r.id))

/-- Management invalidations at their end acknowledged (R229). -/
def State.ackInvals (s : State) : State :=
  let done := s.invals.filter (fun i => i.by_.isNone && s.invalOver i)
  done.foldl (fun s i => s.emit (.invalAck i.part)) { s with invals := s.invals.filter (fun i => !(done.any (fun d => d.id == i.id))) }

/-- The cores whose passes and released accesses wait for a walk, the one that began it first. -/
def State.walkCores (s : State) (w : Walk) : List Nat :=
  (w.core :: w.waits.filterMap (fun x =>
    match x with
    | .bundle b => (s.bundles.find? (fun e => e.2.id == b)).map (fun e => portCore e.1)
    | .request i => (s.reqs.find? (fun q => q.id == i)).map Req.core)).eraseDups

/-- Whether who waits for a walk can still use its outcome: a saved context's access walks again at its restore (R230). -/
def State.walkFor (s : State) (x : WalkFor) : Bool :=
  match x with
  | .bundle _ => true
  | .request i => s.reqs.any (fun q => q.id == i && s.current q)

/-- The next released access that may go on, with its walk and how it ended: none released by the same response from a lower slot is still
walking (R217). -/
def State.nextReleased (s : State) : Option (Req × Walk × WalkEnd) :=
  s.reqs.findSome? (fun q =>
    match q.stage with
    | .walking g =>
      if !s.current q || s.reqs.any (fun y => y.stage == .walking g && decide (y.order < q.order)) then none
      else (s.walks.find? (fun w => w.done.isSome && w.waits.contains (.request q.id))).bind (fun w => w.done.map (fun e => (q, w, e)))
    | _ => none)

/-- The released accesses that may go on do, in slot order; one whose translation an invalidation has matched meanwhile walks again. `n`
steps suffice. -/
def State.goReleased (s : State) : Nat → State
  | 0 => s
  | n + 1 =>
    match s.nextReleased with
    | none => s
    | some (q, w, e) =>
      let s : State := { s with walks := s.walks.map (fun y =>
        if y.id = w.id then { y with waits := y.waits.filter (fun x => x != .request q.id) } else y) }
      State.goReleased (if w.matched e then (s.askWalk q.core w.xlat q.va.toNat q.marks (.request q.id)).1 else s.resumeReq q w.xlat e) n

/-- WALK_COMPLETE (R215, R220, R223). Its translation goes into the TLBs of every core that shares the walk; that of a walk for parameter
reads alone, which set no ACCESSED (R155), only where ACCESSED stands in every leaf. An invalidation that has matched the walk keeps it out
of the TLBs, and who waits for it walks again (R228). Then the released accesses go on that may. -/
def execWalkComplete (id : Nat) (s : State) : Host.Outcome State Fault Refusal :=
  .next (
    match s.walks.find? (fun w => w.id == id && w.done.isNone) with
    | none => ((s.goReleased s.reqs.length).tidyWalks).ackInvals
    | some w =>
      let r := s.walkAll w.xlat w.va
      let seen := w.marks || s.leavesSeen r.2
      let s := if w.marks then s.setAccessed r.2 else s
      let s : State := match r.1 with
        | .ok e => if w.matched r.1 || !seen then s else (s.walkCores w).foldl (fun s c => s.tlbInstall c e) s
        | .ue _ => s.countUe w.xlat.part
        | _ => s
      let s : State := { s with
        walks := s.walks.map (fun (y : Walk) => if y.id = id then { y with done := some r.1, waits := y.waits.filter s.walkFor } else y) }
      (s.goReleased s.reqs.length).tidyWalks.ackInvals)

/-! ### Page responses (R217, R226, R227, R230) -/

/-- Whether a launch's misses go to a queue. -/
def Launch.uses (l : Launch) (k : QKey) : Bool := l.xlat.part == k.part && l.xlat.vf.toNat == k.vf

/-- The parked requests of a launch that a page request stands for, in slot order: those whose own translation misses to it, whatever
context the launch runs under meanwhile (R225). -/
def State.parkedFor (s : State) (launch : Nat) (k : QKey) (q : PageReq) : List Req :=
  sortBy (fun (r : Req) => (r.parts.head?.map (fun y => y.thread.slot)).getD 0)
    (s.reqs.filter (fun r => r.launch == launch && r.core == q.core && r.stage == .parked k.s2 q.page && r.xlat.part == k.part
      && r.xlat.vf.toNat == k.vf && (k.s2 || r.xlat.asid == q.asid)))

/-- Whether the head chain of a copy engine waits for a page on a launch's behalf. -/
def State.copyWaits (s : State) (e : CopyEng) (launch : Nat) (k : QKey) (q : PageReq) : Bool :=
  e.waiting == some (k.s2, q.page)
    && (e.queue.head?.map (fun c => ((Tab.find s.blocks c.block).map (fun b => b.launch == launch)).getD false)).getD false

/-- The matrix operations that wait for a page on a launch's behalf. -/
def State.matWaits (s : State) (ops : List MatOp) (launch : Nat) (k : QKey) (q : PageReq) : List MatOp :=
  ops.filter (fun o => o.waiting == some (k.s2, q.page)
    && ((Tab.find s.blocks o.block).map (fun b => b.launch == launch)).getD false)

/-- Whether a saved launch has anything that a page request stands for. -/
def State.heldFor (s : State) (launch : Nat) (l : Launch) (k : QKey) (q : PageReq) : Bool :=
  !(s.parkedFor launch k q).isEmpty
    || (l.uses k && s.images.any (fun i => i.core == q.core && i.launches.contains launch
        && (s.copyWaits i.data.copy launch k q || !(s.matWaits i.data.mat launch k q).isEmpty)))

/-- The outcome of a page request applied to one resident launch: its parked accesses are released in slot order or denied, and its
engine commands go on or end with ERR = 2 (R217, R225). -/
def State.pageAct (s : State) (launch : Nat) (k : QKey) (q : PageReq) (deny : Bool) : State :=
  match Tab.find s.launches launch with
  | none => s
  | some l =>
    let group := s.uid
    let s := (s.parkedFor launch k q).foldl (fun s r =>
      if deny then s.faultReq r (fatalAt k.s2 r.va)
      else
        match r.kind with
        | .fetch => s.releaseFetch r
        | _ => ((State.putReq { s with uid := s.uid + 1 } { r with stage := .walking group, order := s.uid }).askWalk r.core r.xlat r.va.toNat r.marks
            (.request r.id)).1) s
    if !l.uses k || !(k.s2 || l.xlat.asid == q.asid) then s
    else
      let s := if s.copyWaits (s.core q.core).copy launch k q then
          (if deny then s.copyFail q.core 2 false else s.modCopy q.core (fun e => { e with waiting := none, due := s.cycle }))
        else s
      (s.matWaits (s.core q.core).mat launch k q).foldl (fun s o =>
        if deny then s.matFail q.core o 2 o.steps
        else s.modMat q.core (fun l => l.map (fun y => if y.op = o.op then { y with waiting := none, due := s.cycle } else y))) s

/-- The saved launches that a page request's response is held for (R230). -/
def State.awayFor (s : State) (k : QKey) (q : PageReq) : List Nat :=
  (s.launches.filter (fun e => e.2.awayAt q.core && s.heldFor e.1 e.2 k q)).map (·.1)

/-- The outcome of a page request for every launch: applied to the resident ones, held for the saved ones. -/
def State.pageOutcome (s : State) (k : QKey) (q : PageReq) (deny : Bool) : State :=
  let away := s.awayFor k q
  let s := away.foldl (fun s l => s.modLaunch l (fun x => { x with heldResp := x.heldResp ++ [{ queue := k, req := q, deny := deny }] })) s
  ((s.launches.filter (fun e => !e.2.offAt q.core)).map (·.1)).foldl (fun s l => s.pageAct l k q deny) s

/-- The response entry that RSP_HEAD names. -/
def State.respEntry (s : State) (q : PageQueue) : Nat :=
  s.mem.nat (q.base.toNat + 32 * q.entries + 8 * (q.rspHead.toNat % q.entries)) 8

/-- PAGE_RESPONSE: one response consumed (R226, R227). A response for a context that already has 256 held waits. -/
def execPageResponse (k : QKey) (s : State) : Host.Outcome State Fault Refusal :=
  .next (
    let q := s.queue k
    if q.disabled || q.rspHead = q.rspTail then s
    else
      let e := s.respEntry q
      let status := natBits e 16 8
      let found := q.reqs.find? (fun r => r.id == some (natBits e 0 16))
      match found with
      | some r =>
        if 1 < status || natBits e 24 40 ≠ 0 then
          s.modQueue k (fun q => { q with rspHead := q.rspHead + 1, errors := satUp q.errors })
        else if (s.awayFor k r).any (fun l => ((Tab.find s.launches l).map (fun x => decide (256 ≤ x.heldResp.length))).getD false) then s
        else
          let s := s.modQueue k (fun q => { q with rspHead := q.rspHead + 1, reqs := q.reqs.filter (fun y => y != r) })
          (s.postHeld k 1).pageOutcome k r (status == 1)
      | none => s.modQueue k (fun q => { q with rspHead := q.rspHead + 1, errors := satUp q.errors }))

/-- A queue reset by a write of QBASE or QCFG (R227). -/
def State.queueReset (s : State) (k : QKey) (f : PageQueue → PageQueue) : State :=
  let gone := (s.queue k).reqs
  let s := s.modQueue k (fun q =>
    { f q with reqHead := 0, reqTail := 0, rspHead := 0, rspTail := 0, nextId := 0, reqs := [] })
  gone.foldl (fun s r => s.pageOutcome k r true) s

/-- A write of QBASE or QCFG, by CSRW or a management message. -/
def State.queueWrite (s : State) (k : QKey) (r : QReg) (v : Dword) : State :=
  match r with
  | .qbase => s.queueReset k (fun q => { q with base := v })
  | .qcfg => s.queueReset k (fun q => { q with cfg := v.setWidth 32 &&& 0x1F })

/-- A write of REQ_HEAD: held requests are posted into the room it makes (R226). -/
def State.reqHeadPut (s : State) (k : QKey) (v : Word) : State :=
  let s := s.modQueue k (fun q => { q with reqHead := v })
  s.postHeld k (s.queue k).reqs.length

/-- A write of RSP_TAIL. -/
def State.rspTailPut (s : State) (k : QKey) (v : Word) : State := s.modQueue k (fun q => { q with rspTail := v })

/-- QUEUE_CONFIG_WRITE. -/
def execQueueConfigWrite (k : QKey) (r : QReg) (v : Dword) (s : State) : Host.Outcome State Fault Refusal :=
  .next (s.whenReady (fun s => s.queueWrite k r v))

/-- REQ_HEAD_WRITE. -/
def execReqHeadWrite (k : QKey) (v : Word) (s : State) : Host.Outcome State Fault Refusal :=
  .next (s.whenReady (fun s => s.reqHeadPut k v))

/-- RSP_TAIL_WRITE. -/
def execRspTailWrite (k : QKey) (v : Word) (s : State) : Host.Outcome State Fault Refusal :=
  .next (s.whenReady (fun s => s.rspTailPut k v))

/-! ### Invalidation (R228, R229) -/

/-- Whether a request has been sent through a translation that an invalidation drops. A parameter read that goes on in a second page is
taken to match wherever its tags do. -/
def InvSpec.touches (i : InvSpec) (r : Req) : Bool := !r.parked && (r.tlb.any i.drops || (r.tlb.isSome && r.secondPage.isSome && i.tags r.xlat))

/-- An invalidation posted: the matches leave every TLB, and the walks and requests it must wait for are noted. A redundant launch's held
stores are among them, and their windows close so that they commit (DEDUCED, log 56). -/
def State.invalidate (s : State) (i : InvSpec) (by_ : Option TKey) : State :=
  let walks := (s.walks.filter (fun w => w.xlat.part == i.part && w.done.isNone)).map Walk.id
  let reqs := (s.reqs.filter i.touches).map Req.id
  let s1 := (s.tlbDrop i.drops).closeHeld i.touches (fun _ => none)
  { s1 with
    uid := s1.uid + 1
    walks := s1.walks.map (fun w => if w.xlat.part == i.part then { w with drops := w.drops ++ [i] } else w)
    invals := s1.invals ++ [{ id := s1.uid, part := i.part, by_ := by_, walks := walks, reqs := reqs }] }

/-- MGMT_INVALIDATE: the hypervisor's invalidation, acknowledged at its end. -/
def execMgmtInvalidate (part : Nat) (kind : InvKind) (vf : BitVec 8) (asid : BitVec 16) (addr : Dword) (s : State) :
    Host.Outcome State Fault Refusal :=
  .next (s.whenReady (fun s =>
    (s.invalidate { part := part, kind := kind, vf := vf, asid := asid, addr := addr.toNat } none).ackInvals))

/-! ### Comparing redundant windows (R321, R322) -/

/-- The first window that a thread has closed and that has not been compared. -/
def State.firstWindow (s : State) (t : TKey) : Option RedWindow := s.redWindows.find? (fun w => w.thread == t)

/-- A list of windows without the first one of a thread. -/
def dropFirst (t : TKey) : List RedWindow → List RedWindow
  | [] => []
  | w :: rest => if w.thread = t then rest else w :: dropFirst t rest

/-- The first windows of threads compared and done with; a thread with no more windows may go on. -/
def State.windowsDone (s : State) (ts : List TKey) : State :=
  ts.foldl (fun s t =>
    let s := { s with redWindows := dropFirst t s.redWindows }
    if (s.firstWindow t).isSome then s
    else s.modThread t (fun th => if th.window then { th with window := false, cleared := true } else th)) s

/-- The held stores of a thread's window sent to commit in program order. -/
def State.commitHeld (s : State) (t : TKey) (before : Nat) : State :=
  let mine := fun (r : Req) => r.stage == .held && r.of t && decide (r.order < before)
  let n := s.uid
  { s with
    uid := n + (s.reqs.filter mine).length
    reqs := (s.reqs.foldl (fun (acc : List Req × Nat) r =>
      if mine r then (acc.1 ++ [{ r with stage := .sent, due := s.cycle + farDelay, order := acc.2 }], acc.2 + 1)
      else (acc.1 ++ [r], acc.2)) ([], n)).1 }

/-- The threads of a pair of blocks, the primary's beside the shadow's. -/
def State.pairs (s : State) (b : Nat) : List (TKey × TKey) :=
  (s.blockKeys b).filterMap (fun t => (s.twin t).map (fun q => (t, q)))

/-- The cluster of a thread. -/
def State.clusterOf (s : State) (t : TKey) : Nat := ((Tab.find s.warps t.warp).map (fun w => w.core / Config.coresPerCluster)).getD 0

/-- A block's halt with `t` to enter the handler: where one stands whose thread has not entered, `t` takes that thread's place. -/
def State.haltFor (s : State) (b : Nat) (t : TKey) : State :=
  s.modBlock b (fun x =>
    match x.halt with
    | none => { x with halt := some { raised := s.cycle, reached := [], thread := t } }
    | some h => if ((s.thread h.thread).map Thread.handler).getD false then x else { x with halt := some { h with thread := t } })

/-- A mismatch (R322): the held stores of the window are discarded, those of each thread of `cut` before a request's number; both copies
of the block halt, and the primary's thread `t` will enter the handler with SDC_MISMATCH. -/
def State.mismatch (s : State) (b tb : Nat) (t q : TKey) (cut : List (TKey × Nat)) (synd : Dword) (records : Nat) (tpc : Dword) : State :=
  let gone := fun (r : Req) => r.stage == .held && cut.any (fun w => r.of w.1 && decide (r.order < w.2))
  let handler := ((s.thread t).map Thread.handler).getD false
  let unit : Word := BitVec.ofNat 32 (s.clusterOf t * 65536 + s.clusterOf q)
  let s := { s with reqs := s.reqs.filter (fun r => !gone r)
                    redWindows := s.redWindows.filter (fun w => w.block != b && w.block != tb)
                    redFaults := s.redFaults.filter (fun f =>
                      !((s.blockKeys b).contains f.thread) && !((s.blockKeys tb).contains f.thread))
                    bundles := s.bundles.map (fun (e : Nat × Bundle) => (e.1, { e.2 with threads := e.2.threads.filter (fun k => k != t) })) }
  let s := s.modThread t (fun th =>
    let u := th.recordTrap (TrapInfo.of .sdcMismatch records) tpc th.skid th.pos
    { u with wait := none, trap := { u.trap with synd := synd, unit := unit } })
  let faults := s.redFaults
  let s := { s.raiseHalt t handler s.cycle with redFaults := faults }
  if handler || ((Tab.find s.blocks b).bind Block.halt).isNone then s else (s.haltFor b t).haltFor tb t

/-- The XOR of the signatures, and the sum of the records, of windows. -/
def windowSum (ws : List RedWindow) : Dword × Nat := ws.foldl (fun a w => (a.1 ^^^ w.sig, a.2 + w.records)) (0, 0)

/-- The next comparison of a pair of blocks by thread windows: the pair whose first windows are both closed. -/
def State.threadWindow (s : State) (b : Nat) : Option (TKey × TKey × RedWindow × RedWindow) :=
  (s.pairs b).findSome? (fun p =>
    match s.firstWindow p.1, s.firstWindow p.2 with
    | some x, some y => if x.barrier.isNone && y.barrier.isNone then some (p.1, p.2, x, y) else none
    | _, _ => none)

/-- The next comparison by a block barrier's windows: its number, with the primary's and the shadow's windows. -/
def State.barrierWindow (s : State) (b tb : Nat) : Option (List RedWindow × List RedWindow) :=
  let nums := (s.redWindows.filterMap (fun w => if w.block = b || w.block = tb then w.barrier else none)).eraseDups
  nums.findSome? (fun n =>
    if (s.bar ⟨1, b, n⟩).last.isNone || (s.bar ⟨1, tb, n⟩).last.isNone then none
    else
      let of_ := fun (blk : Nat) => s.redWindows.filter (fun w => w.block == blk && w.barrier == some n)
      if (of_ b ++ of_ tb).all (fun w => s.firstWindow w.thread == some w) then some (of_ b, of_ tb) else none)

/-- A fault that one copy has taken at a word that the other has passed without it (R322): the pair and the fault, or the pair whose
faults agree. -/
inductive FaultPair where
  | agree (t q : TKey)
  | differ (t q : TKey) (f : RedFault)
deriving DecidableEq, Repr

/-- The first such pair. -/
def State.faultPair (s : State) (b : Nat) : Option FaultPair :=
  let first := fun (k : TKey) => s.redFaults.find? (fun f => f.thread == k)
  let past := fun (k : TKey) (n : Nat) => ((s.thread k).map (fun t => decide (n ≤ t.issued))).getD false
  (s.pairs b).findSome? (fun p =>
    match first p.1, first p.2 with
    | none, none => none
    | some f, some g =>
      if f.issued = g.issued && f.cause == g.cause && f.tpc == g.tpc then some (.agree p.1 p.2)
      else some (.differ p.1 p.2 (if f.issued ≤ g.issued then f else g))
    | some f, none => if past p.2 f.issued then some (.differ p.1 p.2 f) else none
    | none, some g => if past p.1 g.issued then some (.differ p.1 p.2 g) else none)

/-- A list of faults without the first one of a thread. -/
def dropFault (t : TKey) : List RedFault → List RedFault
  | [] => []
  | f :: rest => if f.thread = t then rest else f :: dropFault t rest

/-- Whether a block and its shadow have something to compare. -/
def State.compareDue (s : State) (b : Nat) : Bool :=
  match Tab.find s.blocks b, s.twinBlock b with
  | some x, some tb => !x.shadow && !s.blockSaved b
      && ((s.threadWindow b).isSome || (s.barrierWindow b tb).isSome || (s.faultPair b).isSome)
  | _, _ => false

/-- WINDOW_COMPARE: one comparison of a primary block with its shadow. -/
def execWindowCompare (block : Nat) (s : State) : Host.Outcome State Fault Refusal :=
  .next (
    if !s.compareDue block then s
    else
      match s.twinBlock block with
      | none => s
      | some tb =>
        match s.threadWindow block with
        | some (t, q, x, y) =>
          if x.sig = y.sig then (s.commitHeld t x.order).windowsDone [t, q]
          else s.mismatch block tb t q [(t, x.order)] (x.sig ^^^ y.sig) x.records x.tpc
        | none =>
          match s.barrierWindow block tb with
          | some (xs, ys) =>
            let a := windowSum xs
            let c := windowSum ys
            if a.1 = c.1 then
              (xs.foldl (fun s w => s.commitHeld w.thread w.order) s).windowsDone ((xs ++ ys).map RedWindow.thread)
            else
              match (s.pairs block).find? (fun p => xs.any (fun w => w.thread == p.1)) with
              | none => s
              | some p =>
                s.mismatch block tb p.1 p.2 (xs.map (fun w => (w.thread, w.order))) (a.1 ^^^ c.1) a.2
                  (((xs.find? (fun w => w.thread == p.1)).map RedWindow.tpc).getD 0)
          | none =>
            match s.faultPair block with
            | none => s
            | some (.agree t q) => { s with redFaults := dropFault q (dropFault t s.redFaults) }
            | some (.differ t q f) => s.mismatch block tb t q [(t, s.uid)] 0 (((s.thread t).map Thread.records).getD 0) f.tpc)

end Sys2Proof.Machine
end

