-- ==== Sys2Proof/Machine/Device.lean ====
section
/-! DEFINITION. The device's own events at threads and memory: responses, commits and loads at the slices, as-of walks, scratchpad
arrivals, barriers, pauses, long operations, the tick, settlement, holds and eras (spec/02, spec/08, spec/09, spec/10). -/

namespace Sys2Proof.Machine

/-- Time moved on to a cycle, never back. -/
def State.at_ (s : State) (c : Nat) : State := { s with cycle := max s.cycle c }

/-! ### Order at a slice (R150, R178) -/

/-- Whether a request is served at a home slice in the order in which its lane sent it. -/
def Req.inOrder (r : Req) : Bool :=
  (match r.place with | .global | .param _ => true | _ => false) && (match r.kind with | .asof _ _ | .settle _ | .fetch => false | _ => true)

/-- Whether a request waits at its slice for a hold (R173). -/
def Req.isStalled (r : Req) : Bool := match r.stage with | .stalled _ => true | _ => false

/-- Whether a request is a historied store or atomic, which a hold may stall. -/
def Req.historied (r : Req) : Bool := r.writes && r.attrs.hist

/-- Whether a request on its way comes before a later one at a slice that both meet; one that a hold has stalled lets pass what the hold does
not stop (R173), its own line apart. -/
def Req.before (y r : Req) : Bool := y.stage == .sent || (y.isStalled && (r.historied || lineOf y.pa == lineOf r.pa))

/-- Whether an earlier request of its thread holds up a later one: of two global stores or atomics the earlier commits first, so that their
stamps rise in program order (R164; DEDUCED, log 27), and a store or atomic stays behind a load that has no value yet (R178). -/
def Req.holdsBack (y r : Req) : Bool :=
  r.parts.any (fun q => y.of q.thread) && ((y.globalWrite && r.globalWrite && y.before r) || (r.writes && y.valueDue))

/-- Whether an earlier request of its lane holds up a later one at their slice (R150). Of a context that has left its cores only stores and
atomics on their way are still served (R316). -/
def State.sliceBefore (s : State) (y r : Req) : Bool :=
  y.lane == r.lane && y.slice == r.slice && y.inOrder && y.before r && (s.current y || (y.stage == .sent && y.globalWrite))

/-- Whether a request may be served at its slice: its core's die injects, nothing earlier holds it up, and a stalled one belongs to a
context on its cores (R173). -/
def State.sliceMay (s : State) (r : Req) : Bool :=
  (r.stage == .sent || (r.isStalled && s.current r)) && !s.pausedDies.contains (dieOf r.core)
    && !(s.reqs.any (fun y => y.id != r.id && decide (y.order < r.order) && (y.holdsBack r || s.sliceBefore y r)))

/-- The partition of a request's launch. -/
def State.reqPart (s : State) (r : Req) : Nat := ((Tab.find s.launches r.launch).map (fun l => l.xlat.part)).getD 0

/-- The records that the primary has left for every part of a shadow's request, once all are there. -/
def State.primaryValues (s : State) (r : Req) : Option (List RedVal) :=
  r.parts.foldr (fun q acc =>
    match acc, s.redValue q.thread q.access with
    | some l, some v => some (v :: l)
    | _, _ => none) (some [])

/-- A shadow's request served with what the primary received (R319); an empty value tells of an error. -/
def Req.fromPrimary (r : Req) (vs : List RedVal) : Req :=
  { r with
    parts := (r.parts.zip vs).map (fun e => { e.1 with value := e.2.value })
    raise := some ((vs.map RedVal.stamp).foldl umax 0), stage := .served,
    ue := r.brings && vs.any (fun v => v.value.isEmpty) }

/-! ### SLICE_LOAD (R196, Table 9.6) -/

/-- How many of the `n` bytes of a request lie in its first page. -/
def Req.firstBytes (r : Req) (n : Nat) : Nat := min n (65536 - r.pa % 65536)

/-- The lines that the `n` bytes of a request lie in: a parameter read may go over a line's or a page's end (R155). -/
def Req.linesOf (r : Req) (n : Nat) : List Nat :=
  let k := r.firstBytes n
  (lineOf r.pa :: lineOf (r.pa + (k - 1)) :: (if k < n then [lineOf r.pa2] else [])).eraseDups

/-- The bytes that a load of a global or parameter address returns, with a redundant group's held stores over them. -/
def State.loadBytes (s : State) (r : Req) (n : Nat) : List Byte :=
  match r.place with
  | .param len => cutBytes len (s.mem.bytes r.pa (r.firstBytes n) ++ s.mem.bytes r.pa2 (n - r.firstBytes n))
  | _ => let l := s.mem.bytes r.pa n; if s.reqRed r then s.heldOver r.launch r.core r.pa l else l

/-- How many of the bytes of a load are read from memory. -/
def Req.backed (r : Req) (n : Nat) : Nat := match r.place with | .param len => min n len | _ => n

/-- Whether a request is one that SLICE_LOAD serves. -/
def Req.sliceLoads (r : Req) : Bool :=
  (match r.place with | .global => true | .param _ => true | _ => false) && (match r.kind with | .load _ _ | .lstamp | .pref => true | _ => false)

/-- What a load that has read a line at its slice does to its core's L1 (R160): it fills or refreshes the line, unless a store of its
redundant group to the line has not committed, which the copy could not hold (R319). -/
def State.l1Read (s : State) (r : Req) (line : Nat) : State :=
  if s.reqRed r && (s.groupStores r.launch r.core).any (fun y => lineOf y.pa == line) then
    s.modCore r.core (fun c => c.l1Drop (line * 64))
  else s.l1Fill r.core (line * 64) r.l1Hint (s.readCarries (line * 64))

/-- SLICE_LOAD. -/
def execSliceLoad (id : Nat) (s : State) : Host.Outcome State Fault Refusal :=
  .next (
    match s.reqs.find? (fun r => r.id == id) with
    | none => s
    | some r =>
      if !r.sliceLoads || !s.current r || !s.sliceMay r then s
      else if s.reqShadow r && r.place == .global then
        match s.primaryValues r with
        | none => s
        | some vs => let q := r.fromPrimary vs; (s.putReq q).known q
      else
        let part := s.reqPart r
        let carried := s.readCarries r.pa
        match r.kind with
        | .load n sg =>
          let lines := r.linesOf (r.backed n)
          let bad := lines.any s.poison.contains
          let q := { r with parts := r.parts.map (fun p => { p with value := if bad then [] else loadWords n sg (s.loadBytes r n) }),
                            raise := if r.place == .global then some carried else none, ue := bad, stage := .served }
          let s := if r.acq then s.l1Clear r.core else s
          let s := if bad then s
            else lines.foldl (fun s l => (s.l1Read r l).l2Fill part (l * 64) r.attrs.cache) s
          (s.putReq q).known q
        | .lstamp =>
          let x : Dword := if r.attrs.hist then ((Tab.find s.lineMeta (lineOf r.pa)).map LineMeta.stamp).getD 0 else 0
          let q := { r with parts := r.parts.map (fun p => { p with value := Dword.words x }), raise := some x, stage := .served }
          (s.putReq q).known q
        | _ =>
          let s := { s with reqs := s.reqs.filter (fun y => y.id != id) }
          if s.poison.contains (lineOf r.pa) then s else (s.l1Read r (lineOf r.pa)).l2Fill part r.pa r.attrs.cache)

/-! ### ASOF_WALK (R171) -/

/-- Whether a line's history is being moved (R241). -/
def State.chainMoving (s : State) (pa : Nat) : Bool := s.migrations.any (fun m => (m.old == pageOf pa || m.new == pageOf pa) && m.stage < 2)

/-- Whether an as-of load may be served: SETTLED has reached its stamp, or the tick is held (R165, R166). -/
def State.asofMay (s : State) (r : Req) (st : Dword) : Bool :=
  r.stage == .sent && s.current r && !s.pausedDies.contains (dieOf r.core) && !s.chainMoving r.pa
    && (s.tickHeld || decide (st.toNat ≤ s.settled.toNat))

/-- ASOF_WALK. -/
def execAsofWalk (id : Nat) (s : State) : Host.Outcome State Fault Refusal :=
  .next (
    match s.reqs.find? (fun r => r.id == id) with
    | none => s
    | some r =>
      match r.kind with
      | .asof n st =>
        if !s.asofMay r st then s
        else
          let part := s.reqPart r
          let serve := fun (q : Req) => ((s.putReq { q with stage := .served }).known q).purgePool part
          if s.reqShadow r then
            match s.primaryValues r with
            | none => s
            | some vs => serve (r.fromPrimary vs)
          else
            match s.asofLine part (lineOf r.pa) st with
            | .found line x =>
              let l := (line.drop (r.pa % 64)).take n
              let l := if s.reqRed r then s.heldOver r.launch r.core r.pa l else l
              serve { r with parts := r.parts.map (fun p => { p with value := loadWords n false l }), raise := some x }
            | .gone => serve { r with gone := true }
            | .ue => serve { r with ue := true }
      | _ => s)

/-! ### SLICE_COMMIT (R149, R169, R173, R204, R207) -/

/-- The record that a slice keeps of a commit for a context that is being saved (R316). -/
def State.noteCommit (s : State) (r : Req) : State :=
  if s.current r then s
  else
    { s with completions := s.completions ++
        [{ launch := r.launch, req := r.id, stamp := r.stamp, data := (r.parts.head?.map Part.value).getD [] }] }

/-- The stall of a partition's historied writes ended when none is left (R173). -/
def State.stallCheck (s : State) (part : Nat) : State :=
  if s.reqs.any (fun r => r.isStalled && s.current r && s.reqPart r == part) then s else s.modPart part (fun p => { p with stallSince := none })

/-- The stamp of a request's commit noted in its threads, and as the least that their later stores and atomics carry (R164). -/
def State.noteStamp (s : State) (r : Req) (x : Dword) : State :=
  let mine := fun (y : Req) => r.parts.any (fun q => y.of q.thread)
  { r.parts.foldl (fun s q => s.modThread q.thread (fun t => { t with wrote := umax t.wrote x })) s with
    reqs := s.reqs.map (fun y => if y.globalWrite && y.stage != .served && mine y then { y with floor := umax y.floor x } else y) }

/-- A request committed at its home slice. -/
def State.commitReq (s : State) (r : Req) : State :=
  let part := s.reqPart r
  let h := r.attrs.hist
  let check := fun (s : State) => if h then s.stallCheck part else s
  match r.kind with
  | .store d | .stamped d =>
    let c := s.commitStore part r.pa h r.floor d
    let val : List Word := match r.kind with | .stamped _ => Dword.words c.2 | _ => []
    let q := { r with stage := .served, stamp := c.2, raise := some c.2, parts := r.parts.map (fun p => { p with value := val }) }
    let s := (c.1.l1Store r.core r.pa r.hint r.attrs.cache d).l2Fill part r.pa r.attrs.cache
    check ((((s.putReq q).known q).noteCommit q).noteStamp q c.2)
  | .atomic op w sg =>
    if s.poison.contains (lineOf r.pa) then
      check ((if r.acq then s.l1Clear r.core else s).putReq { r with stage := .served, ue := true })
    else
      let c := s.commitAtomic part r.pa h r.floor (atomBytes w) (groupNew op w sg r.parts)
      let s := if r.acq then c.1.l1Clear r.core else c.1.modCore r.core (fun y => y.l1Drop r.pa)
      let s := s.l2Fill part r.pa r.attrs.cache
      let q := { r with stage := .served, stamp := c.2.2, raise := some c.2.2, parts := groupValues op w sg c.2.1 r.parts }
      check ((((s.putReq q).known q).noteCommit q).noteStamp q c.2.2)
  | _ => s

/-- CKPT set again in the leaves of a write on its way while a checkpoint cleared it, where its stamp lies above that checkpoint's: the
write belongs to the next one (R243). -/
def State.ckptAgain (s : State) (r : Req) (x : Dword) : State :=
  match r.tlb with
  | none => s
  | some e =>
    let leaves := e.leaf1 :: e.leaf2.toList
    let taken := s.ckpts.any (fun c => c.stage == .reading && decide (x.toNat ≤ c.floor.toNat)
      && (match s.peekXlat c.xlat (c.base + c.chunk * 65536) with
          | some y => (y.leaf1 :: y.leaf2.toList).any leaves.contains
          | none => false))
    if taken then s
    else leaves.foldl (fun s a => if s.mem.nat a 8 % 2 = 1 && !natBit (s.mem.nat a 8) 9 then s.orEntry a 0x200 else s) s

/-- Whether a request is one that SLICE_COMMIT commits. -/
def Req.sliceWrites (r : Req) : Bool := r.place == .global && r.writes

/-- SLICE_COMMIT. -/
def execSliceCommit (id : Nat) (s : State) : Host.Outcome State Fault Refusal :=
  .next (
    match s.reqs.find? (fun r => r.id == id) with
    | none => s
    | some r =>
      if !r.sliceWrites || !s.sliceMay r then s
      else if s.reqShadow r then
        match s.primaryValues r with
        | none => s
        | some vs => let q := r.fromPrimary vs; (s.putReq q).known q
      else
        let part := s.reqPart r
        let x := (s.assignStamp r.slice r.floor).2
        if r.attrs.hist && s.wouldStall part x then
          (match r.stage with
            | .stalled _ => s
            | _ => (s.putReq { r with stage := .stalled s.cycle }).noteStall part)
        else (s.ckptAgain r x).commitReq r)

/-! ### Scratchpad arrivals (R182, R186, R301) -/

/-- The window offset that a mirror store's address names. -/
def Req.mirrorOff (r : Req) : Nat := match decodeAddr .glb r.va with | .mir _ o => o | _ => r.va.toNat % 2 ^ 20

/-- Whether a store may be made visible at a scratchpad: it is behind no load of its thread without a value (R178). -/
def State.valued (s : State) (r : Req) : Bool :=
  !(r.writes && s.reqs.any (fun y => y.id != r.id && decide (y.order < r.order) && y.valueDue && r.parts.any (fun q => y.of q.thread)))

/-- Whether a mirror store may arrive at a member: every earlier one from its core has. -/
def State.mirrorMay (s : State) (r : Req) (core : Nat) : Bool :=
  r.stage == .sent && s.current r && r.left.contains core && s.valued r
    && !(s.reqs.any (fun y => y.id != r.id && y.core == r.core && y.stage == .sent && decide (y.order < r.order) && y.left.contains core
          && (match y.place with | .mirror _ _ => true | _ => false)))

/-- MIRROR_STORE_ARRIVAL. -/
def execMirrorStoreArrival (id core : Nat) (s : State) : Host.Outcome State Fault Refusal :=
  .next (
    match s.reqs.find? (fun r => r.id == id) with
    | none => s
    | some r =>
      match r.place, r.kind, Tab.find s.launches r.launch with
      | .mirror m _, .store d, some l =>
        if !s.mirrorMay r core then s
        else
          let off := ((l.rcd.window m).map Mirror.base).getD 0 + r.mirrorOff
          let left := r.left.filter (fun c => c != core)
          let s := match s.mirrorArea r.launch core (s.reqShadow r) with
            | some (base, size) => if off + d.length ≤ size then s.remotePut core (base + off) d else s
            | none => s
          s.putReq { r with left := left, stage := if left.isEmpty then .served else .sent }
      | _, _, _ => s)

/-- Whether a request at a scratchpad may take effect there: earlier ones of its threads to the same core have, and those that it must
follow whatever their threads (R205). -/
def State.windowMay (s : State) (r : Req) : Bool :=
  r.stage == .sent && s.current r && s.valued r
    && !(s.reqs.any (fun y => y.leads r || (y.id != r.id && y.place == r.place && y.stage == .sent && decide (y.order < r.order)
          && r.parts.any (fun q => y.of q.thread))))

/-- CLUSTER_WINDOW_WRITE: an access through the cluster window reaches its target core; so does one at the own scratchpad that had to
wait. -/
def execClusterWindowWrite (id : Nat) (s : State) : Host.Outcome State Fault Refusal :=
  .next (
    match s.reqs.find? (fun r => r.id == id) with
    | none => s
    | some r =>
      match r.place with
      | .cluster q | .scratch q =>
        if !s.windowMay r then s
        else
          let t := s.serveScratch r q r.pa
          (t.1.putReq t.2).known t.2
      | _ => s)

/-! ### MEM_RESPONSE (R163, R193, R194) -/

/-- A response's value written to one thread's destinations: those that no other write has taken over (R55). -/
def Thread.receive (t : Thread) (req : Nat) (dst : List Nat) (ws : List Word) : Thread :=
  if t.st = .exited then t
  else
    (dst.zip ws).foldl (fun t e =>
      if t.async.any (fun a => a.req == req && a.loc == e.1 && !a.lost) then t.store e.1 e.2 else t) t

/-- A response's value written to a warp's scalar register. -/
def Warp.receive (w : Warp) (req reg : Nat) (x : Word) (now : Nat) : Warp :=
  if w.sasync.any (fun a => a.req == req && a.reg == reg && !a.lost) then
    { w with spend := w.spend ++ [{ reg := reg, val := x, bundle := 0, own := now, other := now }] }
  else w

/-- The error that a response leaves with each of its threads, to be delivered later (R171, R194). -/
def State.deferReq (s : State) (r : Req) : State :=
  let stamp : Dword := match r.kind with | .asof _ st => st | _ => 0
  (r.parts.zip r.issued).foldl (fun s e => s.modThread e.1.thread (fun t =>
    if t.st = .exited then t
    else { t with deferred := t.deferred ++ [{ cause := if r.gone then .histGone else .memUe, addr := r.va,
                                               stamp := if r.gone then stamp else 0, tpc := r.tpc, ctr := r.ctr, issued := e.2 }] })) s

/-- What the primary received kept for the shadow (R319). -/
def State.noteRed (s : State) (r : Req) : State :=
  if !(s.reqRed r) || s.reqShadow r || r.place != .global then s
  else
    { s with redVals := s.redVals ++ r.parts.map (fun p =>
        { thread := p.thread, access := p.access, value := if r.ue then [] else p.value, stamp := r.raise.getD 0 }) }

/-- FLOOR raised by a store's response where no counter falls with it: one on no counter (R197), and one of a redundant launch when it
commits, its counter having fallen before (R321). -/
def State.raiseHeld (s : State) (r : Req) : State :=
  match r.raise with
  | some x =>
    if r.globalWrite && (r.ctr == 7 || (s.reqRed r && !r.isAtomic)) then
      r.parts.foldl (fun s q => s.modWarp q.thread.warp (fun w => w.raise x)) s
    else s
  | none => s

/-- MEM_RESPONSE. A response that finds its context gone on under another generation is dropped (R316). -/
def execMemResponse (id : Nat) (s : State) : Host.Outcome State Fault Refusal :=
  .next (
    match s.reqs.find? (fun r => r.id == id && r.stage == .served) with
    | none => s
    | some r =>
      if (Tab.find s.launches r.launch).any (fun l => l.awayAt r.core) then s
      else if !s.current r then { s with reqs := s.reqs.filter (fun y => y.id != id) }
      else
        let bad := r.ue || r.gone
        let s := s.noteRed r
        let s := if bad then (if r.ue then s.countUe (s.reqPart r) else s).deferReq r
          else
            match r.sdst, r.parts.head? with
            | some reg, some q => s.modWarp q.thread.warp (fun w => w.receive id reg (q.value.headD 0) s.cycle)
            | _, _ => r.parts.foldl (fun s q => s.modThread q.thread (fun t => t.receive id q.dst q.value)) s
        let s := s.answerReq r (if bad then none else r.raise)
        let s := s.raiseHeld r
        State.ackInvals { s with reqs := s.reqs.filter (fun y => y.id != id) })

/-! ### Threads (R21, R28, R144) -/

/-- Whether a warp's context is off its core. -/
def State.warpOff (s : State) (w : Nat) : Bool :=
  match Tab.find s.warps w with
  | none => true
  | some y => (Tab.find s.launches y.launch).all (fun l => l.offAt y.core)

/-- PAUSE_EXPIRY. -/
def execPauseExpiry (t : TKey) (s : State) : Host.Outcome State Fault Refusal :=
  .next (
    match s.thread t with
    | none => s
    | some th =>
      if th.st != .paused || s.warpOff t.warp then s
      else (s.at_ th.pause).modThread t (fun y => { y with st := .ready, since := th.pause }))

/-- A long operation's result written, its flags merged, and w5 told (R144). -/
def State.longDone (s : State) (o : LongOp) : State :=
  let s := s.modThread o.thread (fun t =>
    let dst := match o.dst with | none => [] | some d => (List.range o.vals.length).map (fun i => d + i)
    { (t.receive o.id dst o.vals) with flags := t.flags ||| o.flags })
  { s.modWarp o.thread.warp (fun w => w.answer o.word none s.cycle) with longs := s.longs.filter (fun y => y.id != o.id) }

/-- LONG_OP_RESULT. -/
def execLongOpResult (id : Nat) (s : State) : Host.Outcome State Fault Refusal :=
  .next (
    match s.longs.find? (fun o => o.id == id) with
    | none => s
    | some o => (s.at_ o.due).longDone o)

/-- Whether a barrier's members are on their cores. -/
def State.barHere (s : State) (k : BarKey) : Bool := !(s.barMembers k).isEmpty && (s.barMembers k).all (fun t => !s.warpOff t.warp)

/-- BARRIER_PHASE_COMPLETE. -/
def execBarrierPhaseComplete (k : BarKey) (s : State) : Host.Outcome State Fault Refusal :=
  .next (
    match (s.bar k).last with
    | none => s
    | some c =>
      if s.barReady k && s.barHere k then
        let s := s.at_ (c + barLatency k.level)
        s.phaseComplete k s.cycle
      else s)

/-! ### Ticks, settlement, hold (R162, R165, R166, R173) -/

/-- REFERENCE_TICK. -/
def execReferenceTick (s : State) : Host.Outcome State Fault Refusal :=
  .next (
    let s := s.at_ s.tickDue
    { s with refTick := if s.tickHeld then s.refTick else s.refTick + 1, tickDue := s.tickDue + s.tickCycles })

/-- Waiting SETTLE counters that SETTLED has reached, or that a hold frees, ready to fall (R211). -/
def State.freeSettles (s : State) : State :=
  { s with reqs := s.reqs.map (fun r =>
      match r.kind with
      | .settle a => if r.stage == .sent && (s.tickHeld || decide (a.toNat ≤ s.settled.toNat)) then { r with stage := .served, due := s.cycle } else r
      | _ => r) }

/-- SETTLED_UPDATE. While a die's injection is paused its slices report their last ticks, and SETTLED stands. -/
def execSettledUpdate (s : State) : Host.Outcome State Fault Refusal :=
  .next (
    let s := s.at_ s.settleDue
    let s := { s with settleDue := s.settleDue + Config.settleCycles,
                      settled := if s.pausedDies.isEmpty then s.settleValue else s.settled }
    s.freeSettles)

/-- Every slice's logical tick as it stands written down, before the reference tick changes other than by counting. -/
def State.pinSlices (s : State) : State :=
  { s with slices := (List.range Config.slices).map (fun n => (n, { tick := BitVec.ofNat 48 (s.sliceTick n), last := (s.slice n).last })) }

/-- The partitions that are enabled. -/
def State.enabled (s : State) : List Nat := (s.parts.filter (fun p => natBit p.2.entry.toNat 31)).map (·.1)

/-- A write of TICKHOLD (R166, Table 18.7). One with EN = 1 that is ignored for want of a sole partition leaves the register reading
EN = 0 until the next write that is taken, while a hold that stood goes on (DEDUCED, log 58). -/
def State.tickholdPut (s : State) (v : Dword) : State :=
  if natBits v.toNat 48 15 ≠ 0 then s
  else if v.getLsbD 63 then
    if 1 < s.enabled.length then { s with holdIgnored := true }
    else ({ s.pinSlices with refTick := v.setWidth 48, hold := v, holdIgnored := false } : State).freeSettles
  else if s.tickHeld then
    let top := (List.range Config.slices).foldl (fun m n => max m (s.sliceTick n)) 0
    { s with refTick := BitVec.ofNat 48 (top + 1), hold := v, holdIgnored := false }
  else { s with hold := v, holdIgnored := false }

/-- What TICKHOLD reads. -/
def State.tickholdRead (s : State) : Dword := if s.holdIgnored then s.hold &&& 0x7FFFFFFFFFFFFFFF else s.hold

/-- A partition's hold stamp cleared: HOLD reads 0, whatever an HSET had it read later. -/
def State.clearHold (s : State) (part : Nat) : State :=
  let of_ := fun (w : CtlWrite) => w.what == .holdRead && ((Tab.find s.launches w.launch).map (fun l => l.xlat.part == part)).getD false
  ({ s with ctls := s.ctls.filter (fun w => !of_ w) } : State).modPart part (fun p => { p with hold := 0, holdRead := 0, stallSince := none })

/-- TICKHOLD_WRITE. -/
def execTickholdWrite (v : Dword) (s : State) : Host.Outcome State Fault Refusal :=
  .next (s.whenReady (fun s => s.tickholdPut v))

/-- The cycles for which a hold stalls historied writes: 100 µs (R173). -/
def State.stallCycles (s : State) : Nat := 100 * s.micro

/-- HOLD_STALL_TIMEOUT, in the order of R173: the hold is cleared, an entry is reclaimed with what that does to HORIZON, and the hold is said
to be broken; the stalled writes then commit. -/
def execHoldStallTimeout (part : Nat) (s : State) : Host.Outcome State Fault Refusal :=
  .next (
    match (s.part part).stallSince with
    | none => s
    | some c =>
      let s := (s.at_ (c + s.stallCycles)).clearHold part
      let full := decide ((s.part part).cap ≤ (s.part part).live)
      (if full then s.freeOldest part else s).emit (.holdBroken part))

/-- A core's engines with every FLOOR and stamp they hold at 0 (R167). -/
def Core.unstamped (c : Core) : Core :=
  { c with
    copy := { c.copy with queue := c.copy.queue.map (fun q => { q with floor := 0 }) }
    mat := c.mat.map (fun o => { o with floor := 0, stamp := 0 })
    arrived := c.arrived.map (fun e => (e.1, (0, e.2.2))) }

/-- What a saved request does, with the stamp it names at 0 (R167). -/
def ReqKind.unstamped : ReqKind → ReqKind
  | .asof n _ => .asof n 0
  | .settle _ => .settle 0
  | k => k

/-- The package rebased: history, floors, ticks and horizons start anew. -/
def State.rebased (s : State) : State :=
  { s with
    parts := (List.range 64).map (fun n => (n, { s.part n with pool := [], horizon := 0x10000 }))
    warps := s.warps.map (fun w => (w.1,
      { w.2 with floor := 0, fpend := [], out := w.2.out.map (fun o => { o with floor := 0 })
                 threads := w.2.threads.map (fun t => { t with wrote := 0 }) }))
    launches := s.launches.map (fun l => (l.1, { l.2 with floor := 0, exitFloor := 0 }))
    reqs := s.reqs.map (fun r => { r with kind := r.kind.unstamped, floor := 0, stamp := 0, raise := none })
    redVals := s.redVals.map (fun v => { v with stamp := 0 })
    completions := s.completions.map (fun c => { c with stamp := 0 })
    images := s.images.map (fun i => { i with data := i.data.unstamped })
    cores := s.cores.map (fun c => (c.1, c.2.unstamped))
    sends := s.sends.map (fun m => { m with floor := 0 })
    ckpts := s.ckpts.map (fun k => { k with floor := 0 })
    lineMeta := [], refTick := 1, slices := [], settled := 0, era := s.era + 1 }

/-- ERA_REBASE (R167), which firmware does only when every context is saved. -/
def execEraRebase (s : State) : Host.Outcome State Fault Refusal :=
  .next (
    if s.blocks.any (fun b => !s.blockSaved b.1) then s
    else s.enabled.foldl (fun t p => t.emit (.eraEvent p (s.era + 1))) s.rebased)

end Sys2Proof.Machine
end

