-- ==== Sys2Proof/Machine/Save.lean ====
section
/-! DEFINITION. Contexts taken off their cores and put back (spec/18 R312, R314 to R318): pre-emption, the save, the restore with the
replay of requests, and the discard of an ended context. -/

namespace Sys2Proof.Machine

/-! ### Cores and their images -/

/-- The blocks that hold an area on a core. -/
def State.coreBlocks (s : State) (core : Nat) : List (Nat × Block) := s.blocks.filter (fun b => (Tab.find b.2.areas core).isSome)

/-- Whether a core holds a block of a context that is on its cores (R261). -/
def State.resident (s : State) (core : Nat) : Bool :=
  (s.coreBlocks core).any (fun b => !((Tab.find s.launches b.2.launch).any (fun l => l.awayAt core)))

/-- The cores on which a launch's blocks have areas. -/
def State.launchCores (s : State) (l : Nat) : List Nat :=
  ((s.blocks.filter (fun b => b.2.launch == l)).flatMap (fun b => b.2.areas.map (·.1))).eraseDups

/-- A core as a save leaves it: its TLB and L1, and nothing of any context (R260). -/
def Core.cleared (c : Core) : Core := { Core.reset with tlb := c.tlb, l1 := c.l1, resetAt := c.resetAt }

/-- The image of a core that holds a launch's contents. -/
def State.imageOf (s : State) (launch core : Nat) : Option CoreImage :=
  s.images.find? (fun i => i.core == core && i.launches.contains launch)

/-- The contents of a core that holds only saved contexts' blocks moved into the save area, for those contexts whose contents they are. -/
def State.stash (s : State) (core : Nat) : State :=
  let own := (((s.coreBlocks core).map (fun b => b.2.launch)).eraseDups).filter (fun l => (s.imageOf l core).isNone)
  if s.resident core || own.isEmpty then s
  else { s.modCore core Core.cleared with images := s.images ++ [{ core := core, launches := own, data := s.core core }] }

/-- A launch's contents of a core put back. -/
def State.unstash (s : State) (launch core : Nat) : State :=
  match s.imageOf launch core with
  | none => s
  | some i =>
    { s.modCore core (fun c => { i.data with tlb := c.tlb, l1 := c.l1, resetAt := c.resetAt }) with
      images := s.images.filter (fun y => !(y.core == core && y.launches.contains launch)) }

/-! ### When a context may be saved (R314) -/

/-- Whether a thread has issued a word of its handler. -/
def Thread.inHandler (t : Thread) : Bool := t.handler && (t.st == .issuing || decide (0 < t.skid))

/-- The threads of a launch. -/
def State.launchKeys (s : State) (l : Nat) : List TKey :=
  (s.warps.filter (fun w => w.2.launch == l)).flatMap (fun w => w.2.keys w.1)

/-- Whether a halt of a launch's block is still on its way to the handler. -/
def State.halting (s : State) (l : Nat) : Bool :=
  s.blocks.any (fun b => b.2.launch == l && (match b.2.halt with
    | none => false
    | some h => !((s.thread h.thread).map Thread.handler).getD false
        && !((s.blockLanes b.1).all h.reached.contains && !(s.blockKeys b.1).contains h.thread)))

/-- Whether a mirror store of a launch is on its way (R301). -/
def State.mirroring (s : State) (l : Nat) : Bool :=
  s.reqs.any (fun r => r.launch == l && r.stage == .sent && (match r.place with | .mirror _ _ => true | _ => false))

/-- Whether a launch that is to be saved may be saved now. -/
def State.saveDue (s : State) (l : Nat) : Bool :=
  match (Tab.find s.launches l).bind Launch.stopAt with
  | none => false
  | some c =>
    !s.halting l && !s.mirroring l
      && (decide (c ≤ s.cycle) || !((s.launchKeys l).any (fun t => ((s.thread t).map Thread.inHandler).getD false)))

/-! ### The save (R315 to R317) -/

/-- The new steps that a running MMA would take before a save by itself: `k` modulo those left, and none where it waits or cannot go on. -/
def State.stopAlone (s : State) (core k : Nat) (o : MatOp) : Nat :=
  match s.engCtx core o.block, o.kind with
  | some c, .mma sp =>
    if !o.started || o.group || o.waiting.isSome || o.hit || s.matHeld core o || s.tileUe core c o then 0
    else
      let x := mmaOf sp (c.slot o.slot) o.params
      match s.engPages core c.xlat (s.piecePages c false x.pieces) with
      | (t, .ok pages) =>
        if t.piecePoison c pages x.pieces || t.badMeta c pages x then 0 else k % max (x.k / kStep (slotA_ x.slot) - o.steps) 1
      | _ => 0
  | _, _ => 0

/-- The new steps of an MMA before a save, and whether its multicast group waits for itself again: the members stop at the same step, with
the one that can go on least (R361). -/
def State.stopSteps (s : State) (core k : Nat) (o : MatOp) : Nat × Bool :=
  match s.engCtx core o.block, o.kind with
  | some c, .mma sp =>
    let x := mmaOf sp (c.slot o.slot) o.params
    if o.started && !o.group && x.multicast core && s.fellows core x then
      (((List.range Config.coresPerCluster).filter (fun q => natBit x.mask q)).foldl (fun n q =>
        let m := clusterCore (core / Config.coresPerCluster) q
        ((s.core m).mat.filter (fun y => y.started && s.memberOf m x y)).foldl (fun n y => min n (s.stopAlone m k y)) n) (s.stopAlone core k o), true)
    else (s.stopAlone core k o, o.group)
  | _, _ => (0, o.group)

/-- A running matrix engine stopped (R361): MMA at a K step, `plan` giving each operation's new steps and whether it waits for its group
again, and ACCZ at its end. -/
def State.stopMat (s : State) (core : Nat) (plan : List (Nat × Nat × Bool)) : State :=
  (s.core core).mat.foldl (fun s o =>
    match s.engCtx core o.block, o.kind with
    | some _, .zero m => if o.started then s.matZero core o m else s
    | some c, .mma sp =>
      match plan.find? (fun p => p.1 == o.op) with
      | none => s
      | some (_, n, group) =>
        let x := mmaOf sp (c.slot o.slot) o.params
        let r := s.engPages core c.xlat (s.piecePages c false x.pieces)
        let s := if n = 0 then s else match r with | (t, .ok pages) => t.mmaSteps c pages x o.steps n | (t, _) => t
        s.modMat core (fun q => q.map (fun y => if y.op = o.op then { y with steps := o.steps + n, group := group } else y))
    | _, _ => s) s

/-- A thread as a save keeps it: at an instruction boundary, with what remains of its pause. -/
def Thread.saved (t : Thread) (now : Nat) : Thread :=
  { t with st := if t.st = .issuing then .ready else t.st, pause := t.pause - now, since := 0, ready := 0, slotAt := 0, candAt := 0 }

/-- A request as a save keeps it (R316): a load that has been served from global memory is sent again, and the record of a store or
atomic that has committed answers it. A stalled write stays so until the restore (R173). -/
def Req.saved (r : Req) : Req :=
  let again := { r with stage := .sent, raise := none, ue := false, gone := false, parts := r.parts.map (fun q => { q with value := [] }) }
  match r.stage, r.place, r.kind with
  | .served, .global, .load _ _ | .served, .global, .asof _ _ | .served, .global, .lstamp => again
  | .served, .param len, .load _ _ => if 0 < len then again else r
  | _, _, _ => r

/-- The completion record of a request that has committed, kept while its context is away. -/
def Req.completion (r : Req) : Option Completion :=
  if r.stage == .served && r.sliceWrites then
    some { launch := r.launch, req := r.id, stamp := r.stamp, data := (r.parts.head?.map Part.value).getD [] }
  else none

/-- The clusters on which a launch's context runs. -/
def State.onClusters (s : State) (l : Nat) : List Nat :=
  let cs := ((s.launchCores l).map (· / Config.coresPerCluster)).eraseDups
  match Tab.find s.launches l with
  | some x => cs.filter (fun c => !x.offAt (c * Config.coresPerCluster))
  | none => []

/-- A context saved from every cluster on which it runs. -/
def State.saveContext (s : State) (l : Nat) : State :=
  let on := s.onClusters l
  let here := fun (core : Nat) => on.contains (core / Config.coresPerCluster)
  let mine := fun (t : TKey) => (Tab.find s.warps t.warp).any (fun w => w.launch == l && here w.core)
  let cores := (s.launchCores l).filter here
  let s := (s.bundles.filter (fun e => e.2.threads.any mine)).foldl (fun s e => s.dissolve e.1) s
  let s := (s.longs.filter (fun o => mine o.thread)).foldl (fun s o => s.longDone o) s
  let k := Config.freeNat s.fresh
  let half := Config.freeBit s.fresh
  let s : State := { s with fresh := s.fresh + 1 }
  let plan := cores.flatMap (fun c => (s.core c).mat.map (fun o => (o.op, s.stopSteps c k o)))
  let s : State := cores.foldl (fun s c => if s.resident c then (if half then (s.stopMat c plan).ruleHalf c else s.stopMat c plan) else s) s
  let rs := s.reqs.filter (fun r => r.launch == l && here r.core)
  let s : State := { s with
    warps := s.warps.map (fun (e : Nat × Warp) =>
      if e.2.launch = l && here e.2.core then
        let w := e.2.settle
        (e.1, { w with threads := w.threads.map (fun t => t.saved s.cycle) })
      else e)
    reqs := (s.reqs.filter (fun r => !(r.launch == l && here r.core && r.kind == .pref))).map (fun r =>
      if r.launch = l && here r.core then r.saved else r)
    completions := s.completions ++ rs.filterMap Req.completion
    launches := Tab.upd s.launches l (fun x => { x with saved := true, back := [], gen := x.gen + 1, stopAt := none }) }
  ((cores.foldl (fun s c => s.stash c) s).tidyWalks).stallCheck (((Tab.find s.launches l).map (fun x => x.xlat.part)).getD 0)

/-! ### Gang switches (R264, R265) -/

/-- Whether a launch has any block. -/
def State.placed (s : State) (l : Nat) : Bool := s.blocks.any (fun b => b.2.launch == l)

/-- The launches of a partition that must leave for a switch: those of another VF that are on their cores. -/
def State.leaving (s : State) (part : Nat) (vf : BitVec 8) : List Nat :=
  (s.launches.filter (fun e => e.2.xlat.part == part && e.2.xlat.vf != vf && !(s.onClusters e.1).isEmpty && s.placed e.1)).map (·.1)

/-- The configuration of a VF put among those of a partition. -/
def Partition.putCfg (p : Partition) (c : VfCfg) : Partition := { p with cfgs := p.cfgs.filter (fun y => y.vf != c.vf) ++ [c] }

/-- A partition whose saves are complete runs its next VF. -/
def State.switchCheck (s : State) (part : Nat) : State :=
  match (s.part part).nextVf with
  | none => s
  | some c =>
    if (s.leaving part c.vf).isEmpty then s.modPart part (fun p => { p with vf := c.vf, nextVf := none, tardyRun := 0 }) else s

/-- A context saved, and its partition's switch completed if this was the last. -/
def State.saveNow (s : State) (l : Nat) : State :=
  (s.saveContext l).switchCheck (((Tab.find s.launches l).map (fun x => x.xlat.part)).getD 0)

/-- The longest deferral of a pre-emption for a handler (R314). -/
def deferCycles : Nat := 20000

/-- A launch asked to stop. -/
def State.askStop (s : State) (l : Nat) : State :=
  s.modLaunch l (fun x => if x.saved && x.back.isEmpty then x else { x with stopAt := some (x.stopAt.getD (s.cycle + deferCycles)) })

/-- PREEMPT (R314, R315): the request, and the save once nothing defers it. -/
def execPreempt (launch : Nat) (s : State) : Host.Outcome State Fault Refusal :=
  .next (
    let s := s.askStop launch
    if s.saveDue launch then s.saveNow launch else s)

/-- PREEMPT_DEFERRAL_TIMEOUT (R314). -/
def execPreemptDeferralTimeout (launch : Nat) (s : State) : Host.Outcome State Fault Refusal :=
  .next (
    match (Tab.find s.launches launch).bind Launch.stopAt with
    | none => s
    | some c =>
      let s := s.at_ c
      if s.saveDue launch then s.saveNow launch else s)

/-! ### Responses that come while a context is away -/

/-- The status of a SEND written to its thread, its allowance given back, and w4 told (R303). -/
def State.sendDone (s : State) (m : SendMsg) (status : Word) : State :=
  let s := s.modThread m.thread (fun t => t.receive m.id m.dst.toList [status])
  let s := if m.shadow then s else s.modAllow m.launch m.cap (fun n => n + m.len)
  let s := if (s.redCopy m.thread.warp) == some false then
      { s with redVals := s.redVals ++ [{ thread := m.thread, access := m.access, value := [status], stamp := 0 }] }
    else s
  { s.modWarp m.thread.warp (fun w => w.answer m.word none s.cycle) with sends := s.sends.filter (fun y => y.id != m.id) }

/-- The status of a checkpoint stream written to its thread, and w4 told (R242). -/
def State.ckptDone (s : State) (c : Ckpt) (status : Word) : State :=
  let s := s.modThread c.thread (fun t => t.receive c.id c.dst.toList [status])
  let s := if (s.redCopy c.thread.warp) == some false then
      { s with redVals := s.redVals ++ [{ thread := c.thread, access := c.access, value := [status], stamp := 0 }] }
    else s
  { s.modWarp c.thread.warp (fun w => w.answer c.word none s.cycle) with ckpts := s.ckpts.filter (fun y => y.id != c.id) }

/-! ### The restore (R316, R318) -/

/-- The clusters of a saved context on which it may come back: its VF runs, and their cores hold no other context (R265). -/
def State.backTo (s : State) (l : Nat) : List Nat :=
  match Tab.find s.launches l with
  | none => []
  | some x =>
    if x.away && (s.part x.xlat.part).vf == x.xlat.vf && !(s.part x.xlat.part).fenced && (s.part x.xlat.part).nextVf.isNone then
      ((((s.launchCores l).map (· / Config.coresPerCluster)).eraseDups).filter (fun c => x.offAt (c * Config.coresPerCluster))).filter (fun c =>
        ((s.launchCores l).filter (fun q => q / Config.coresPerCluster == c)).all (fun q => (s.imageOf l q).isNone || !s.resident q))
    else []

/-- Whether a saved context may come back on some cluster. -/
def State.restoreMay (s : State) (l : Nat) : Bool := !(s.backTo l).isEmpty

/-- A thread put back: its pause runs on, and its waiting begins anew. -/
def Thread.restored (t : Thread) (now : Nat) : Thread := { t with pause := now + t.pause, since := now, ready := now, slotAt := now, candAt := now }

/-- A request replayed under a new generation (R316): an as-of load whose stamp has fallen below HORIZON meanwhile ends in HIST_GONE. -/
def Req.replayed (r : Req) (gen : BitVec 16) (horizon : Dword) (now : Nat) : Req :=
  let r := { r with gen := gen, due := now + farDelay }
  match r.stage, r.kind with
  | .sent, .asof _ st => if st.toNat < horizon.toNat then { r with stage := .served, gone := true } else r
  | .stalled _, _ => { r with stage := .sent }
  | _, _ => r

/-- CONTEXT_RESTORE, on every cluster that is free. The warps that wait for an extended block there all ask again at the restore's cycle, so
that of several on one lane the one of the lowest warp number is granted first (R42; DESIGN CHOICE, log 38). -/
def execContextRestore (launch : Nat) (s : State) : Host.Outcome State Fault Refusal :=
  .next (
    match Tab.find s.launches launch with
    | none => s
    | some l =>
      if !s.restoreMay launch then s
      else
        let to_ := s.backTo launch
        let here := fun (core : Nat) => to_.contains (core / Config.coresPerCluster)
        let cores := s.launchCores launch
        let all := cores.all (fun c => here c || !l.offAt c)
        let s := (cores.filter here).foldl (fun s c => (s.unstash launch c).modCopy c (fun e =>
          if (e.queue.head?.bind (fun q => Tab.find s.blocks q.block)).any (fun b => b.launch == launch) then { e with req := none } else e)) s
        let horizon := (s.part l.xlat.part).horizon
        let s : State := { s with
          warps := s.warps.map (fun e =>
            if e.2.launch = launch && here e.2.core then
              (e.1, { e.2 with threads := e.2.threads.map (fun t => t.restored s.cycle), acqAt := e.2.acqAt.map (fun _ => s.cycle) })
            else e)
          reqs := s.reqs.map (fun r => if r.launch = launch && here r.core then r.replayed l.gen horizon s.cycle else r)
          completions := s.completions.filter (fun c => !(c.launch == launch && s.reqs.any (fun r => r.id == c.req && here r.core)))
          launches := Tab.upd s.launches launch (fun x =>
            { x with saved := !all, back := if all then [] else x.back ++ to_, heldResp := x.heldResp.filter (fun h => !here h.req.core) }) }
        let s := (s.reqs.filter (fun r => r.launch == launch && here r.core && (match r.stage with | .walking _ => true | _ => false))).foldl
          (fun s r => (s.askWalk r.core r.xlat r.va.toNat r.marks (.request r.id)).1) s
        let lanes := ((s.warps.filter (fun e => e.2.launch == launch && here e.2.core)).map (fun e => (e.2.core, e.2.lane))).eraseDups
        let s := lanes.foldl (fun s x => s.grantLane x.1 x.2 s.cycle Config.laneBlocks) s
        let s := (l.heldResp.filter (fun h => here h.req.core)).foldl (fun s h => s.pageAct launch h.queue h.req h.deny) s
        let s := s.sends.foldl (fun s m =>
          match m.status with | some x => if m.launch = launch && here m.core then s.sendDone m x else s | none => s) s
        (s.ckpts.foldl (fun s c =>
          match c.status with | some x => if c.launch = launch && here c.core then s.ckptDone c x else s | none => s) s).freeSettles)

/-! ### The end of a context -/

/-- A list of busy entries without those that a launch holds. -/
def unbusy (ring : Option Nat) (l : List (Nat × Nat)) : List (Nat × Nat) := l.filter (fun e => ring != some e.2)

/-- The ring entry that a launch holds busy freed, wherever an arm shows it so (R252 to R254). -/
def Partition.freeRing (p : Partition) (ring : Option Nat) : Partition :=
  { p with arms := p.arms.map (fun e => (e.1, { e.2 with busy := unbusy ring e.2.busy, past := unbusy ring e.2.past }))
           soft := p.soft.map (fun y => { y with busy := unbusy ring y.busy }) }

/-- Everything of a launch gone: its ring entry, blocks, warps, requests and messages. Its checkpoint streams belong to the partition and run
on. -/
def State.dropLaunch (s : State) (l : Nat) : State :=
  let s := match Tab.find s.launches l with | some x => s.modPart x.xlat.part (fun p => p.freeRing x.ring) | none => s
  let mine := fun (t : TKey) => (Tab.find s.warps t.warp).any (fun w => w.launch == l)
  let bs := (s.blocks.filter (fun b => b.2.launch == l)).map (·.1)
  { s with
    bundles := s.bundles.filter (fun e => !(e.2.threads.any mine))
    longs := s.longs.filter (fun o => !mine o.thread)
    reqs := s.reqs.filter (fun r => r.launch != l)
    completions := s.completions.filter (fun c => c.launch != l)
    invals := s.invals.filter (fun i => !(i.by_.any mine))
    redVals := s.redVals.filter (fun v => !mine v.thread)
    redWindows := s.redWindows.filter (fun w => !mine w.thread)
    redFaults := s.redFaults.filter (fun f => !mine f.thread)
    sends := s.sends.filter (fun m => m.launch != l)
    images := (s.images.map (fun i => { i with launches := i.launches.filter (fun x => x != l) })).filter (fun i => !i.launches.isEmpty)
    cores := s.cores.map (fun e => (e.1, { e.2 with locks := e.2.locks.filter (fun k => !bs.contains k.block) }))
    warps := s.warps.filter (fun e => e.2.launch != l)
    blocks := s.blocks.filter (fun e => e.2.launch != l)
    groups := s.groups.filter (fun e => e.2.launch != l)
    launches := Tab.drop s.launches l }

/-- The cores that no block holds any more cleared of what a dropped context left. -/
def State.clearCores (s : State) (cores : List Nat) : State :=
  cores.foldl (fun s c => if (s.coreBlocks c).isEmpty then s.modCore c Core.cleared else s) s

/-- CONTEXT_DISCARD (R282, R312): an ended context's record goes, and its clusters are released. -/
def execContextDiscard (launch : Nat) (s : State) : Host.Outcome State Fault Refusal :=
  .next (s.whenReady (fun s =>
    match Tab.find s.launches launch with
    | none => s
    | some l =>
      if l.status == .ended then
        let cores := s.launchCores launch
        ((s.dropLaunch launch).clearCores cores).tidyWalks
      else s))

end Sys2Proof.Machine
end

