-- ==== Sys2Proof/Machine/Sys.lean ====
section
/-! DEFINITION. The SYS class: control registers (spec/18 R323), the return from the handler (R313), the hold (R324), invalidation
(spec/12 R228, R229) and checkpoint streams (spec/13 R242, R243). -/

namespace Sys2Proof.Machine

/-! ### The privilege of a word (R79) -/

/-- The word of the pass as bits. -/
def State.wordBits (s : State) (p : Pass) : Word := ((Tab.find s.bundles p.port).bind (fun b => b.words[p.pos]?)).getD 0

/-- A SYS word: in privileged state it acts, in handler state too if it is ERET or ERETALL, and otherwise every thread of its bundle
takes PRIVILEGED. -/
def State.sysWord (s : State) (handlerOk : Bool) (go : Pass → State) : State :=
  match s.pass with
  | none => s
  | some p =>
    if p.priv || (handlerOk && p.keys.any (fun k => ((s.thread k).map Thread.handler).getD false)) then go p
    else s.decodeFault ⟨.priv, s.wordBits p⟩

/-! ### Control registers (R323) -/

/-- The queue that QSEL names for a launch. -/
def Launch.selected (l : Launch) : QKey := ⟨l.xlat.part, (l.qsel.extractLsb' 0 8).toNat, l.qsel.getLsbD 8⟩

/-- The words of a control register as a thread's slot finds it (Table 18.6). -/
def State.control (s : State) (c : TCtx) (r : CReg) : List Word :=
  match Tab.find s.launches c.p.launch with
  | none => [0, 0]
  | some l =>
    let q := s.queue l.selected
    match r with
    | .mode => natWord ((if l.priv then 1 else 0) + (if c.th.handler then 2 else 0))
    | .ctxid => natWord (l.xlat.part % 64 * 2 ^ 24 + l.xlat.vf.toNat * 2 ^ 16 + l.xlat.asid.toNat)
    | .s1root => Dword.words l.xlat.s1root
    | .s2root => Dword.words l.xlat.s2root
    | .ptvec => Dword.words l.ptvec
    | .qsel => natWord l.qsel.toNat
    | .qbase => Dword.words q.base
    | .qcfg => [q.cfg]
    | .reqHead => [q.reqHead]
    | .reqTail => [q.reqTail]
    | .rspHead => [q.rspHead]
    | .rspTail => [q.rspTail]
    | .nextid => natWord q.nextId.toNat
    | .tickhold => Dword.words s.tickholdRead
    | .hold => Dword.words (s.part l.xlat.part).holdRead
    | .era => natWord s.era.toNat
    | .gen => natWord l.gen.toNat

/-- The words that CSRW reads. -/
def CWReg.words : CWReg → Nat
  | .s1root | .s2root | .ptvec | .qbase | .tickhold => 2
  | _ => 1

/-- The engine commands of a launch that wait for a page ask for it again, as the launch's context now has it. -/
def State.engAgain (s : State) (launch : Nat) : State :=
  let mine := fun (b : Nat) => ((Tab.find s.blocks b).map (fun x => x.launch == launch)).getD false
  { s with cores := s.cores.map (fun e => (e.1,
      { e.2 with
        copy := if e.2.copy.waiting.isSome && e.2.copy.queue.head?.any (fun c => mine c.block)
          then { e.2.copy with waiting := none, due := s.cycle } else e.2.copy
        mat := e.2.mat.map (fun o => if o.waiting.isSome && mine o.block then { o with waiting := none, due := s.cycle } else o) })) }

/-- A control register written on behalf of a launch. -/
def State.controlPut (s : State) (launch : Nat) (r : CWReg) (ws : List Word) : State :=
  let x := dwordOf ws
  let w := w0 ws
  match Tab.find s.launches launch with
  | none => s
  | some l =>
    match r with
    | .ctxid =>
      (s.modLaunch launch (fun l => { l with xlat := { l.xlat with vf := w.extractLsb' 16 8, asid := w.extractLsb' 0 16 } })).engAgain launch
    | .s1root => s.modLaunch launch (fun l => { l with xlat := { l.xlat with s1root := x } })
    | .s2root => s.modLaunch launch (fun l => { l with xlat := { l.xlat with s2root := x } })
    | .ptvec => s.modLaunch launch (fun l => { l with ptvec := x })
    | .qsel => s.modLaunch launch (fun l => { l with qsel := w.extractLsb' 0 9 })
    | .qbase => s.queueWrite l.selected .qbase x
    | .qcfg => s.queueWrite l.selected .qcfg (w.setWidth 64)
    | .reqHead => s.reqHeadPut l.selected w
    | .rspTail => s.rspTailPut l.selected w
    | .tickhold => s.tickholdPut x

/-- A control write taking effect. -/
def State.ctlEffect (s : State) (w : CtlWrite) : State :=
  let part := ((Tab.find s.launches w.launch).map (fun l => l.xlat.part)).getD 64
  match w.what with
  | .reg r => s.controlPut w.launch r w.value
  | .hold => s.modPart part (fun p => { p with hold := dwordOf w.value })
  | .holdRead => s.modPart part (fun p => { p with holdRead := dwordOf w.value })

/-- A control write sent on its way, behind those that take effect no later. -/
def State.ctlSend (s : State) (w : CtlWrite) : State :=
  { s with ctls := s.ctls.filter (fun y => decide (y.due ≤ w.due)) ++ w :: s.ctls.filter (fun y => decide (w.due < y.due)) }

/-- The state with every control write taken that takes effect by a cycle, in order. -/
def State.controlsBy (s : State) (now : Nat) : State :=
  (s.ctls.filter (fun w => decide (w.due ≤ now))).foldl State.ctlEffect { s with ctls := s.ctls.filter (fun w => !decide (w.due ≤ now)) }

/-- The cycles after its thread's slot from which a CSRW is in effect, and HOLD reads what HSET wrote (R323, R324). -/
def controlDelay : Nat := 4

/-- CSRR: each thread reads the register as it stands at its slot. -/
def execCsrr (t : CsrrW) (s : State) : Host.Outcome State Fault Refusal :=
  .next (s.sysWord false (fun _ =>
    s.vector (ownWord t.h .none .none (some (t.d, if CReg.pair t.r then 2 else 1)) 4 false)
      (fun c _ _ _ => ((s.controlsBy c.slot).control c t.r, 0))))

/-- CSRW: within a pass the last write in pass order stands. It takes effect for what issues 4 or more cycles later; a pass takes the
registers as they stand at its start (DEDUCED, log 58). -/
def execCsrw (t : CsrwW) (s : State) : Host.Outcome State Fault Refusal :=
  .next (s.sysWord false (fun p0 =>
    let src := Src.sel t.a (CWReg.words t.r)
    let p := { p0 with dur := p0.slotDur s [src] }
    let rs := (p.ctxs s).map (fun c => (c, c.quick t.h src (fun c _ => .ok c.th)))
    let s1 := s.putDone rs
    let s2 := match (doneOf rs).getLast? with
      | none => s1
      | some (c, ws) => s1.ctlSend { launch := p.launch, due := c.slot + controlDelay, what := .reg t.r, value := ws }
    s2.endPass p [] (faultsOf rs)))

/-! ### ERET and ERETALL (R313) -/

/-- The handler's thread returns, and the halt is over: no thread counts words past it any more (R310). Under `all` the block's
halted threads go on too. After SDC_MISMATCH the block ends instead (Table 18.2). -/
def State.returnFrom (s : State) (c : TCtx) (all : Bool) (now : Nat) : State :=
  let b := c.w.block
  if c.th.trap.cause = .sdcMismatch then s.endBlock b c.slot
  else
    let s := (s.modThread c.key (fun t => t.leaveHandler now)).modBlock b (fun x => { x with halt := none })
    (s.blockKeys b).foldl (fun s k => s.modThread k (fun t =>
      if t.st ≠ .halted then { t with skid := 0 } else if all then t.resumeHalted now else t)) s

/-- A return word: each executing thread in handler state returns; in privileged state outside the handler there is nothing to
return from. -/
def State.eretWord (s : State) (h : Hd) (all : Bool) : State :=
  s.sysWord true (fun p =>
    let e := p.execs s h
    ((e.1.filter (fun c => c.th.handler)).foldl (fun s c => s.returnFrom c all p.stop) s).endPass p [] e.2)

/-- ERET. -/
def execEret (t : HdW) (s : State) : Host.Outcome State Fault Refusal := .next (s.eretWord t.h false)

/-- ERETALL. -/
def execEretall (t : HdW) (s : State) : Host.Outcome State Fault Refusal := .next (s.eretWord t.h true)

/-! ### HSET (R324) -/

/-- HSET: each thread's stamp is the partition's hold from its slot on, and HOLD reads it 4 cycles later. -/
def execHset (t : WA) (s : State) : Host.Outcome State Fault Refusal :=
  .next (s.sysWord false (fun _ =>
    s.serial [.sel t.a 2] (fun s c =>
      match c.quick t.h (.sel t.a 2) (fun c _ => .ok c.th) with
      | .done th ws =>
        ((s.ctlSend { launch := c.p.launch, due := c.slot, what := .hold, value := ws }).ctlSend
          { launch := c.p.launch, due := c.slot + controlDelay, what := .holdRead, value := ws }, .done th ws)
      | r => (s, r))))

/-! ### XINV and XSYNC (R228, R229) -/

/-- Whether an earlier global store or atomic of a thread has no response. -/
def State.globalDue (s : State) (t : TKey) : Bool := s.reqs.any (fun r => r.of t && r.globalWrite && r.stage != .held)

/-- An invalidation word: once the earlier global stores have their responses, each executing thread posts its own. -/
def State.xinvWord (s : State) (h : Hd) (kind : InvKind) (a b : Src) : State :=
  s.sysWord false (fun p =>
    if (p.execs s h).1.any (fun c => s.globalDue c.key) then s.holdPass p
    else
      s.serial [a, b] (fun s c =>
        match c.quick h a (fun c _ => match c.read 1 b with | .error e => .error e | .ok _ => .ok c.th) with
        | .done th ws =>
          let x := match c.read 1 b with | .ok l => w0 l | .error _ => 0
          (s.invalidate { part := c.p.part, kind := kind, vf := x.extractLsb' 16 8, asid := x.extractLsb' 0 16,
                          addr := (dwordOf ws).toNat } (some c.key), .done th ws)
        | r => (s, r)))

/-- XINV.va. -/
def execXinvVa (t : WAB) (s : State) : Host.Outcome State Fault Refusal := .next (s.xinvWord t.h .va (.sel t.a 2) (bI32 t.b))

/-- XINV.asid. -/
def execXinvAsid (t : WB) (s : State) : Host.Outcome State Fault Refusal := .next (s.xinvWord t.h .asid .none (bI32 t.b))

/-- XINV.ipa. -/
def execXinvIpa (t : WAB) (s : State) : Host.Outcome State Fault Refusal := .next (s.xinvWord t.h .ipa (.sel t.a 2) (bI32 t.b))

/-- XINV.vmid. -/
def execXinvVmid (t : WB) (s : State) : Host.Outcome State Fault Refusal := .next (s.xinvWord t.h .vmid .none (bI32 t.b))

/-- XSYNC. -/
def execXsync (t : HdW) (s : State) : Host.Outcome State Fault Refusal :=
  .next (s.sysWord false (fun p =>
    let e := p.execs s t.h
    let mine := s.invals.filter (fun i => e.1.any (fun c => i.by_ == some c.key))
    if mine.any (fun i => !s.invalOver i) then s.holdPass p
    else
      State.endPass { s with invals := s.invals.filter (fun i => !(mine.any (fun m => m.id == i.id))) } p [] e.2))

/-! ### CKPT (R242, R243) -/

/-- The bytes of a chunk. -/
def chunkBytes : Nat := 65536

/-- The leaves of a translation whose CKPT bit is set. -/
def State.ckptLeaves (s : State) (e : TlbEntry) : List Nat :=
  (e.leaf1 :: e.leaf2.toList).filter (fun a => natBit (s.mem.nat a 8) 9)

/-- The CKPT bit of leaves cleared by atomic AND, and the translations through them used no more. -/
def State.clearCkpt (s : State) (leaves : List Nat) : State :=
  (leaves.foldl (fun s a => s.devicePut a (leBytes (s.mem.nat a 8 - 512) 8)) s).forget
    (fun e => leaves.contains e.leaf1 || e.leaf2.any leaves.contains)

/-- The data of a chunk at a physical address: as of a stamp on a historied page, else as it stands; `none` where a line is
poisoned, or has no version to give. -/
def State.chunkData (s : State) (part pa : Nat) (hist : Bool) (st : Dword) : Option (List Byte) :=
  ((List.range (chunkBytes / 64)).foldr (fun i acc =>
    let line := pa / 64 + i
    match acc, (if hist then s.asofLine part line st else if s.poison.contains line then .ue else .found (s.mem.bytes (line * 64) 64) 0) with
    | some l, .found d _ => some (d :: l)
    | _, _ => none) (some [])).map List.flatten

/-- What a stream does at a chunk: there is nothing to send; it waits for a frame being moved; its CKPT bits are cleared; or it ends. -/
inductive CkTake where
  | clean
  | wait
  | taken
  | fail (status : Nat)
deriving DecidableEq, Repr

/-- A stream's translation of an address: its outcome, or a wait for a frame being moved (`none`), or the status it ends with. -/
def State.ckptXlat (s : State) (x : Xlat) (va : Nat) : State × Except Nat (Option TlbEntry) :=
  let r := s.walkAll x va
  let s := s.setAccessed r.2
  match r.1 with
  | .miss s2 page _ => (s, if s.frozen x s2 page then .ok none else .error 2)
  | .fatal _ => (s, .error 2)
  | .ue _ => (s.countUe x.part, .error 1)
  | .ok e => (s, .ok (some e))

/-- The address of the chunk that a stream is at. -/
def Ckpt.va (c : Ckpt) : Nat := c.base + c.chunk * chunkBytes

/-- A chunk taken up: its CKPT bits, where one is set, are cleared before the chunk is read (R242). -/
def State.takeChunk (s : State) (c : Ckpt) : State × CkTake :=
  match s.ckptXlat c.xlat c.va with
  | (s, .error x) => (s, .fail x)
  | (s, .ok none) => (s, .wait)
  | (s, .ok (some e)) =>
    let leaves := s.ckptLeaves e
    if leaves.isEmpty then (s, .clean) else (s.clearCkpt leaves, .taken)

/-- A stream put back. -/
def State.putCkpt (s : State) (c : Ckpt) : State := { s with ckpts := s.ckpts.map (fun y => if y.id = c.id then c else y) }

/-- A stream at its end, its status to be delivered. -/
def State.ckptEnd (s : State) (c : Ckpt) (status : Nat) : State :=
  s.putCkpt { c with stage := .next, data := [], status := some (BitVec.ofNat 32 status), due := s.cycle + nearDelay }

/-- A taken chunk read once SETTLED has reached C, unless held, and its chains stand still (R242), and a query sent for it. -/
def State.ckptRead (s : State) (c : Ckpt) : State :=
  let later := fun (s : State) => s.putCkpt { c with stage := .reading, due := s.cycle + farDelay }
  match s.ckptXlat c.xlat c.va with
  | (s, .error x) => s.ckptEnd c x
  | (s, .ok none) => later s
  | (s, .ok (some e)) =>
    if e.attrs.hist && ((!s.tickHeld && decide (s.settled.toNat < c.floor.toNat)) || s.chainMoving (e.phys c.va)) then later s
    else
      match s.chunkData c.xlat.part (e.phys c.va) e.attrs.hist c.floor with
      | none => (s.countUe c.xlat.part).ckptEnd c 1
      | some l =>
        (s.putCkpt { c with stage := .asked, data := l, due := s.cycle + farDelay }).emit
          (.ckQuery c.endpoint c.ckid (c.chunk * chunkBytes) (sha256 l))

/-- A stream moved on from its chunk to the next whose CKPT bit is set. -/
def State.ckptGo (s : State) (c : Ckpt) : Nat → State
  | 0 => s.ckptEnd c 0
  | n + 1 =>
    match s.takeChunk c with
    | (s, .clean) => State.ckptGo s { c with chunk := c.chunk + 1 } n
    | (s, .wait) => s.putCkpt { c with stage := .next, due := s.cycle + farDelay }
    | (s, .fail x) => s.ckptEnd c x
    | (s, .taken) => s.ckptRead c

/-- A stream moved on while chunks are left. -/
def State.ckptNext (s : State) (c : Ckpt) : State := s.ckptGo c (c.len / chunkBytes - c.chunk)

/-- A chunk that the service does not have sent to it. -/
def State.ckptSend (s : State) (c : Ckpt) : State :=
  (s.putCkpt { c with stage := .sent, due := s.cycle + farDelay }).emit (.ckChunk c.endpoint c.ckid (c.chunk * chunkBytes) c.data)

/-- The status of a descriptor's fields: BAD_REQUEST, or none (Table 13.3). -/
def badDescriptor (l : List Byte) : Bool :=
  let f := fun (o n : Nat) => leNat ((l.drop o).take n)
  f 0 8 % chunkBytes ≠ 0 || f 8 8 % chunkBytes ≠ 0 || f 8 8 = 0 || f 0x20 32 ≠ 0 || f 0x18 8 / 2 ^ 56 ≠ 0 || 64 ≤ f 0x18 8 / 2 ^ 32 % 256

/-- A stream begun: its descriptor read through the issuer's translation, and its first chunk taken up. -/
def State.ckptStart (s : State) (c : Ckpt) : State :=
  match s.ckptXlat c.xlat c.desc with
  | (s, .error x) => s.ckptEnd c x
  | (s, .ok none) => s.putCkpt { c with due := s.cycle + farDelay }
  | (s, .ok (some e)) =>
    let l := s.mem.bytes (e.phys c.desc) 64
    if s.poison.contains (lineOf (e.phys c.desc)) then (s.countUe c.xlat.part).ckptEnd c 1
    else if badDescriptor l then s.ckptEnd c 6
    else
      let f := fun (o n : Nat) => leNat ((l.drop o).take n)
      s.ckptNext { c with base := f 0 8, len := f 8 8, ckid := BitVec.ofNat 64 (f 0x10 8), endpoint := BitVec.ofNat 64 (f 0x18 8) }

/-- Whether a stream goes on by itself: it waits for no answer of its service. -/
def Ckpt.alone (c : Ckpt) : Bool := c.stage != .asked && c.stage != .sent

/-- A stream that goes on by itself does. -/
def State.ckptOn (s : State) (c : Ckpt) : State :=
  match c.stage with
  | .begin => s.ckptStart c
  | .next => s.ckptNext c
  | .reading => s.ckptRead c
  | .sending => s.ckptSend c
  | .asked | .sent => s

/-- A CKPT's plan: its thread and copy, the descriptor's address, and the locations of D. -/
structure CkPlan where
  key : TKey
  shadow : Bool
  va : Nat
  dst : List Nat
deriving DecidableEq, Repr

/-- A CKPT's checks in a thread. -/
def State.ckPlan (s : State) (c : TCtx) (t : WDA) : Except TrapInfo CkPlan :=
  match c.read 0 (.sel t.a 2) with
  | .error e => .error e
  | .ok a =>
    match c.dest (some (t.d, 1)) with
    | .error e => .error e
    | .ok locs =>
      match c.writeCheck locs with
      | some e => .error e
      | none =>
        match decodeAddr .glb (dwordOf a) with
        | .glb va =>
          if va % 64 ≠ 0 then .error (TrapInfo.at_ .misaligned (dwordOf a))
          else .ok { key := c.key, shadow := s.redCopy c.key.warp == some true, va := va, dst := locs }
        | _ => .error (TrapInfo.at_ .addrInvalid (dwordOf a))

/-- CKPT. -/
def execCkpt (t : WDA) (s : State) : Host.Outcome State Fault Refusal :=
  .next (s.sysWord false (fun _ =>
    s.handWord
      { h := t.h, srcs := [.sel t.a 2], counts := true, release := true, early := false
        full := fun s _ x => x.shadow && s.redBehind x.key
        plan := fun s c => s.ckPlan c t
        act := fun s c word id x =>
          let s := s.modThread c.key (fun _ => c.expect word id [] (c.handed t.h (.sel t.a 2)) x.dst)
          let s := s.redOperand c.key (BitVec.ofNat 64 x.va) 64
          match Tab.find s.launches c.p.launch with
          | none => s
          | some l =>
            { s with ckpts := s.ckpts ++ [
              { id := id, launch := c.p.launch, xlat := l.xlat, thread := c.key, core := c.p.core, word := word, dst := x.dst.head?,
                desc := x.va, base := 0, len := 0, ckid := 0, endpoint := 0, floor := c.w.floorFor c.p.bundle c.slot, shadow := x.shadow,
                access := c.th.accesses, chunk := 0, stage := .begin, data := [], status := none, due := c.slot + nearDelay }] } }))

/-- A stream that has ended delivers its status, unless its context is away: then at the restore. -/
def State.ckptDeliver (s : State) (c : Ckpt) (status : Word) : State :=
  if (Tab.find s.launches c.launch).isNone then { s with ckpts := s.ckpts.filter (fun y => y.id != c.id) }
  else if (Tab.find s.launches c.launch).any (fun l => l.awayAt c.core) then s.putCkpt { c with status := some status }
  else s.ckptDone c status

/-- CKPT_SERVICE_REPLY: the service's answer to what the stream has sent; a stream that has ended, or that waits, goes on by
itself. -/
def execCkptServiceReply (id : Nat) (reply : CkptReply) (s : State) : Host.Outcome State Fault Refusal :=
  .next (
    match s.ckpts.find? (fun c => c.id == id) with
    | none => s
    | some c =>
      if c.shadow then
        match s.redValue c.thread c.access with
        | none => s
        | some v => s.ckptDeliver c (v.value.headD 0)
      else
        match c.status, c.stage, reply with
        | some x, _, _ => s.ckptDeliver c x
        | none, .asked, .held | none, .sent, .held | none, .sent, .absent => s.ckptNext { c with chunk := c.chunk + 1 }
        | none, .asked, .absent => if s.pausedDies.contains (dieOf c.core) then s.putCkpt { c with stage := .sending } else s.ckptSend c
        | none, .asked, .linkLost | none, .sent, .linkLost => s.ckptEnd c 4
        | none, .asked, .refuse | none, .sent, .refuse => s.ckptEnd c 7
        | none, _, _ => if s.pausedDies.contains (dieOf c.core) then s else s.ckptOn c)

end Sys2Proof.Machine
end

