-- ==== Sys2Proof/Machine/Front.lean ====
section
/-! DEFINITION. The front end and the dispatcher (spec/15): arms and messages, launch records, placement, the retirement of blocks with
successors (spec/02 R30 to R32), and the messages of SEND (spec/17 R302 to R304). -/

namespace Sys2Proof.Machine

/-! ### The front end's accesses (R257) -/

/-- A configuration of a VF as a translation. -/
def VfCfg.xlat (c : VfCfg) : Xlat := { part := c.part, vf := c.vf, asid := c.asid, s1root := c.s1root, s2root := c.s2root }

/-- The translation of a VF of a partition; a VF without a configuration has a stage-1 root of 0. -/
def State.vfXlat (s : State) (part : Nat) (vf : BitVec 8) : Xlat :=
  match (s.part part).cfgs.find? (fun c => c.vf == vf) with
  | some c => { VfCfg.xlat c with part := part }
  | none => { part := part, vf := vf, asid := 0, s1root := 0, s2root := 0 }

/-- The translation of the VF that a partition runs. -/
def State.runXlat (s : State) (part : Nat) : Xlat := s.vfXlat part (s.part part).vf

/-- How a translation of the front end or of a message from outside ends: found; to a frame being moved; or failed. -/
inductive FeXlat where
  | ok (e : TlbEntry)
  | moving
  | bad
deriving DecidableEq, Repr

/-- A translation by the front end, which posts no page request. -/
def State.feXlat (s : State) (x : Xlat) (va : Nat) : State × FeXlat :=
  let r := s.walkAll x va
  let t := s.setAccessed r.2
  match r.1 with
  | .ok e => (t, .ok e)
  | .miss s2 page _ => (t, if s.frozen x s2 page then .moving else .bad)
  | .fatal _ => (t, .bad)
  | .ue _ => (t.countUe x.part, .bad)

/-- Bytes of one page read; a poisoned line fails the read and is counted. -/
def State.fePage (s : State) (x : Xlat) (va n : Nat) : State × Option (List Byte) :=
  match s.feXlat x va with
  | (s, .ok e) =>
    let pa := e.phys va
    if (List.range (n + 63)).any (fun i => i % 64 == 0 && decide (pa / 64 * 64 + i < pa + n) && s.poison.contains (pa / 64 + i / 64)) then
      (s.countUe x.part, none)
    else (s, some (s.mem.bytes pa n))
  | (s, _) => (s, none)

/-- At most a page of bytes read by the front end. -/
def State.feRead (s : State) (x : Xlat) (va n : Nat) : State × Option (List Byte) :=
  let m := min n (65536 - va % 65536)
  match s.fePage x va m with
  | (s, none) => (s, none)
  | (s, some a) =>
    if n ≤ m then (s, some a)
    else
      match s.fePage x (va + m) (n - m) with
      | (s, none) => (s, none)
      | (s, some b) => (s, some (a ++ b))

/-- Data cut into pieces that each lie in one line; `n` pieces suffice. -/
def linePieces (va : Nat) (data : List Byte) : Nat → List (Nat × List Byte)
  | 0 => []
  | n + 1 =>
    let m := 64 - va % 64
    if data.isEmpty then [] else (va, data.take m) :: linePieces (va + m) (data.drop m) n

/-- How a store from outside ends: with the greatest stamp given; put off by a frame being moved or a hold stamp; or failed. -/
inductive FeStore where
  | done (stamp : Dword)
  | later
  | bad
deriving DecidableEq, Repr

/-- Pieces stored in turn, each stamped at its home slice. -/
def State.fePieces (s : State) (x : Xlat) (floor : Dword) : List (Nat × List Byte) → Dword → State × FeStore
  | [], top => (s, .done top)
  | (va, d) :: rest, top =>
    match s.feXlat x va with
    | (s, .moving) => (s, .later)
    | (s, .bad) => (s, .bad)
    | (s, .ok e) =>
      if !e.attrs.write then (s, .bad)
      else
        match s.setDirty e va with
        | (s, some _) => (s, .bad)
        | (s, none) =>
          let pa := e.phys va
          if e.attrs.hist && s.wouldStall x.part (s.assignStamp (homeSlice pa) floor).2 then (s.noteStall x.part, .later)
          else
            let r := s.commitStore x.part pa e.attrs.hist floor d
            State.fePieces r.1 x floor rest (umax top r.2)

/-- Data stored from outside (R253): every piece or none. -/
def State.feStore (s : State) (x : Xlat) (va : Nat) (floor : Dword) (data : List Byte) : State × FeStore :=
  let t := s.fePieces x floor (linePieces va data (data.length + 1)) 0
  match t.2 with
  | .done _ => t
  | .later => (if (t.1.part x.part).stallSince.isSome then s.noteStall x.part else s, .later)
  | .bad => (s, .bad)

/-! ### Launch records (R24, R255, R256, R300) -/

/-- A field of `n` bytes at an offset. -/
def fieldAt (l : List Byte) (o n : Nat) : Nat := leNat ((l.drop o).take n)

/-- A mirror window descriptor. -/
def mirrorAt (l : List Byte) (m : Nat) : Mirror :=
  let a := fieldAt l (0x90 + 16 * m) 8
  let b := fieldAt l (0x98 + 16 * m) 8
  { base := natBits a 0 20, size := natBits a 20 21, mask := BitVec.ofNat 16 (natBits b 16 16), first := natBits b 0 9 }

/-- A launch record read from its 256 bytes. -/
def recordOf (l : List Byte) : Record :=
  let d := fun (o : Nat) => (BitVec.ofNat 64 (fieldAt l o 8) : Dword)
  { prio := natBits (fieldAt l 4 4) 4 3, red := natBit (fieldAt l 4 4) 1, res := natBit (fieldAt l 4 4) 0, entry := d 8,
    levels := d 0x10, extents := (List.range 6).map (fun i => fieldAt l (0x18 + 4 * i) 4), spad := fieldAt l 0x30 4,
    lanew := if fieldAt l 0x34 1 % 16 = 0 then 8 else fieldAt l 0x34 1 % 16, args := d 0x38, caps := d 0x40, capn := fieldAt l 0x48 2,
    nbv := if fieldAt l 0x4A 2 = 0 then 3 else fieldAt l 0x4A 2, mdef := BitVec.ofNat 32 (fieldAt l 0x4C 4),
    slots := (List.range 8).map (fun i => d (0x50 + 8 * i)), mirrors := (List.range 4).map (mirrorAt l), trap := d 0xD0,
    fxe := BitVec.ofNat 5 (fieldAt l 0xD8 4), chkSb := natBit (fieldAt l 0xDC 4) 1, chkVoid := natBit (fieldAt l 0xDC 4) 0,
    succ := d 0xE0 }

/-- Whether LEVELS and the EXTENTs fail R24. -/
def Record.badLevels (r : Record) : Bool :=
  let w := fun (i : Nat) => levelWidth r.levels i
  r.levels.toNat / 2 ^ 36 != 0 || w 0 != 5 || decide (64 < w 0 + w 1 + w 2 + w 3 + w 4 + w 5)
    || (List.range 6).any (fun i => r.extent i == 0 || decide (2 ^ w i < r.extent i)) || decide (32 < r.extent 0)
    || decide (1024 < r.extent 1 * r.extent 2)

/-- Whether MDEF fails R70. -/
def badMdef (m : Nat) : Bool :=
  let bad := fun (x top : Nat) => x == 0 || decide (top < x)
  m / 4096 != 0 || bad (natBits m 0 3) 4 || bad (natBits m 3 3) 6 || bad (natBits m 6 3) 5 || bad (natBits m 9 3) 4

/-- Whether a mirror descriptor fails R300, given the partition's first and last cluster. -/
def badMirror (l : List Byte) (m base limit : Nat) : Bool :=
  let a := fieldAt l (0x90 + 16 * m) 8
  let b := fieldAt l (0x98 + 16 * m) 8
  let w := mirrorAt l m
  a / 2 ^ 41 != 0 || b / 2 ^ 32 != 0 || natBits b 9 7 != 0
    || (w.size != 0 && (decide (0x100000 < w.size) || w.mask == 0
        || w.members.any (fun c => decide (511 < c) || decide (c / Config.coresPerCluster < base) || decide (limit < c / Config.coresPerCluster))))

/-- Whether a reserved bit of a record is set, or a field fails the check of reason 3. -/
def badFields (l : List Byte) (base limit : Nat) : Bool :=
  let f := fieldAt l 4 4
  f / 128 != 0 || natBits f 2 2 != 0 || fieldAt l 0x34 4 / 16 != 0 || decide (8 < fieldAt l 0x34 1 % 16) || fieldAt l 0xD8 4 / 32 != 0
    || fieldAt l 0xDC 4 / 4 != 0 || fieldAt l 0xE8 24 != 0 || decide (3 < fieldAt l 0x4A 2) || badMdef (fieldAt l 0x4C 4)
    || (List.range 4).any (fun m => badMirror l m base limit)

/-! ### Homes of warps (R247, R261) -/

/-- The core of the cluster, and the lane, of warp `f` of block `i` of a group. -/
def Record.home (r : Record) (i f : Nat) : Nat × Nat :=
  if r.extent 1 ≤ 256 && r.extent 2 ≤ 4 then (i, f % Config.lanes)
  else
    let n := i * r.extent 1 + f
    (n / Config.lanes % Config.coresPerCluster, n % Config.lanes)

/-- The homes of a block's warps. -/
def Record.homes (r : Record) (i : Nat) : List (Nat × Nat) := (List.range (r.extent 1)).map (r.home i)

/-- The cores of the cluster that hold part of a block. -/
def Record.cores (r : Record) (i : Nat) : List Nat := ((r.homes i).map (·.1)).eraseDups

/-- The size of a block's area (R154). -/
def Record.area (r : Record) : Nat := (r.spad + 255) / 256 * 256

/-- Cluster groups of a launch. -/
def Record.groups (r : Record) : Nat := r.extent 3 * r.extent 4 * r.extent 5

/-- Blocks of a launch. -/
def Record.blocks (r : Record) : Nat := r.groups * r.extent 2

/-- The group identifier of the `g`-th group in the order of R26. -/
def Record.groupId (r : Record) (g : Nat) : Nat :=
  g % r.extent 3 + g / r.extent 3 % r.extent 4 * 2 ^ levelWidth r.levels 3
    + g / (r.extent 3 * r.extent 4) * 2 ^ (levelWidth r.levels 3 + levelWidth r.levels 4)

/-- Whether some blocks of a group fit the cores of a cluster, given the warps each lane may still take. -/
def Record.fits (r : Record) (is : List Nat) (lane : Nat → Nat → Nat) : Bool :=
  let hs := is.flatMap r.homes
  hs.eraseDups.all (fun h => decide ((hs.filter (fun x => x == h)).length ≤ min r.lanew (lane h.1 h.2)))
    && ((hs.map (·.1)).eraseDups).all (fun q => decide ((is.filter (fun i => (r.cores i).contains q)).length * r.area ≤ Config.scratchBytes))

/-- The first and the last cluster of a partition (Table 13.1). -/
def Partition.base (p : Partition) : Nat := natBits p.entry.toNat 0 7

/-- The last cluster. -/
def Partition.limit (p : Partition) : Nat := natBits p.entry.toNat 8 7

/-- The clusters of a partition. -/
def Partition.clusters (p : Partition) : List Nat := (List.range (p.limit + 1 - p.base)).map (fun i => p.base + i)

/-- Whether a grid cannot fit an empty partition: each group, or each pair of copies on two dies, takes clusters of its own. -/
def Partition.tooSmall (p : Partition) (r : Record) : Bool :=
  let n := p.clusters.length
  let most := (List.range 4).foldl (fun m d => max m (p.clusters.filter (fun c => c / Config.clustersPerDie == d)).length) 0
  if r.red then decide (min (n / 2) (n - most) < r.groups) else decide (n < r.groups)

/-- The reason for which a record is refused, 0 when it is taken (Table 15.4). -/
def refusal (l : List Byte) (p : Partition) : Nat :=
  let r := recordOf l
  if fieldAt l 0 4 != 0x4B490001 then 1
  else if r.badLevels then 2
  else if badFields l p.base p.limit then 3
  else if r.entry.toNat % 4 != 0 then 4
  else if decide (0x100000 < r.spad) || !r.fits (List.range (r.extent 2)) (fun _ _ => Config.laneBlocks) then 5
  else if r.res && p.tooSmall r then 6
  else if r.red && p.base / Config.clustersPerDie == p.limit / Config.clustersPerDie then 7
  else if decide (256 < r.capn) then 8
  else if r.slots.any (fun x => x.toNat / 2 ^ 20 != 0) then 9
  else 0

/-! ### Firing a launch (R255 to R258) -/

/-- What fires a launch: its translation, record address, payload place and length, tag, FLOOR, arm priority and ring entry. -/
structure Fire where
  xlat : Xlat
  addr : Dword
  payAddr : Dword
  payLen : Nat
  tag : Word
  floor : Dword
  prio : Nat
  ring : Option Nat
  priv : Bool
deriving DecidableEq, Repr

/-- The launch that a record makes. -/
def Fire.launch (f : Fire) (r : Record) (order now : Nat) : Launch :=
  { rcd := r, recAddr := f.addr, payAddr := f.payAddr, payLen := f.payLen, tag := f.tag, floor := f.floor, prio := max f.prio r.prio,
    order := order, ring := f.ring, xlat := f.xlat, gen := 0, priv := f.priv, ptvec := 0, qsel := 0, caps := [], capsRead := false,
    nextBlock := 0, retired := 0, status := .pending, waitSince := now, blocks := false, saved := false, back := [], stopAt := none, exitFloor := 0,
    named := [], barren := false, viaExit := none, exitLaunch := none, bars := [], heldResp := [] }

/-- A launch fired (R255), or refused with an event to the host and the reason (R256); answers the reason, 0 when it fired. The new
launch's number is the one given before. -/
def State.fire (s : State) (f : Fire) : State × Nat :=
  let part := f.xlat.part
  let no := fun (s : State) (n : Nat) => (s.emit (.refused part f.addr n), n)
  if f.addr.toNat % 256 ≠ 0 then no s 10
  else
    match s.feRead f.xlat f.addr.toNat 256 with
    | (s, none) => no s 11
    | (s, some l) =>
      let n := refusal l (s.part part)
      if n ≠ 0 then no s n
      else ({ s with uid := s.uid + 1, launches := Tab.put s.launches s.uid (f.launch (recordOf l) s.uid s.cycle) }, 0)

/-! ### Arms (R252, R254) -/

/-- A descriptor read from 32 bytes. -/
def armOf (l : List Byte) (soft : Option Nat) (now : Nat) : Arm :=
  { tag := BitVec.ofNat 32 (fieldAt l 0 4), armed := natBit (fieldAt l 4 4) 31, prio := natBits (fieldAt l 4 4) 0 3,
    launch := BitVec.ofNat 64 (fieldAt l 8 8), ring := BitVec.ofNat 64 (fieldAt l 0x10 8), count := fieldAt l 0x18 2,
    size := fieldAt l 0x1A 2, fill := 0, busy := [], past := [], soft := soft, since := now }

/-- Whether a descriptor for an arm is refused (R252). -/
def Partition.armBad (p : Partition) (n : Nat) (l : List Byte) : Bool :=
  let a := armOf l none 0
  (a.armed && p.arms.any (fun e => e.1 != n && e.2.armed && e.2.tag == a.tag)) || a.size == 0 || decide (4096 < a.size)
    || a.ring.toNat % 64 != 0 || natBits (fieldAt l 4 4) 3 28 != 0 || fieldAt l 0x1C 4 != 0

/-- A descriptor installed: its fill index starts at 0, and the entries that earlier descriptors of the arm have left busy stay so. -/
def Partition.install (p : Partition) (n : Nat) (a : Arm) : Partition :=
  let old := (Tab.find p.arms n).toList
  { p with arms := Tab.put p.arms n { a with busy := old.flatMap (fun y => y.busy ++ y.past) } }

/-- A hardware arm's mapping ended: its software arm keeps the fill index and the busy entries, and the arm's own earlier entries stay with
it. -/
def Partition.unmap (p : Partition) (n : Nat) : Partition :=
  match Tab.find p.arms n with
  | none => p
  | some a =>
    match a.soft with
    | none => p
    | some i =>
      { p with
        arms := Tab.put p.arms n { a with armed := false, soft := none, fill := 0, busy := a.past, past := [] }
        soft := p.soft.modify i (fun y => { y with mapped := none, fill := a.fill, busy := a.busy }) }

/-- ARM_INSTALL. A descriptor that replaces a software arm's mapping leaves that arm unmapped, with its fill index and busy entries; under the
new descriptor the entries of the old one stay busy too. -/
def execArmInstall (part n : Nat) (desc : BitVec 256) (s : State) : Host.Outcome State Fault Refusal :=
  .next (s.whenReady (fun s =>
    let l := leBytes desc.toNat 32
    if decide (64 ≤ n) || (s.part part).armBad n l then s.emit (.errorReply part)
    else (s.modPart part (fun p => { p.install n (armOf l none s.cycle) with soft := (p.unmap n).soft })).emit (.ack part)))

/-- A software arm mapped onto a free hardware arm, when its descriptor can be read and taken. -/
def State.mapArm (s : State) (part i : Nat) : State :=
  match (s.part part).soft[i]?, (List.range 64).find? (fun n => !((Tab.find (s.part part).arms n).any Arm.armed)) with
  | some y, some n =>
    match s.feRead (s.runXlat part) y.addr 32 with
    | (s, none) => s
    | (s, some l) =>
      let a := armOf l (some i) s.cycle
      if (s.part part).armBad n l || !a.armed || a.tag != y.tag then s
      else s.modPart part (fun p =>
        { p with
          arms := Tab.put p.arms n
            { a with fill := y.fill, busy := y.busy, past := (Tab.find p.arms n).toList.flatMap (fun o => o.busy ++ o.past) }
          soft := p.soft.modify i (fun z => { z with mapped := some n, pending := false })
          softNext := i + 1 })
  | _, _ => s

/-- ARM_QUANTUM (R254). -/
def execArmQuantum (part : Nat) (s : State) : Host.Outcome State Fault Refusal :=
  .next (
    let p := s.part part
    let s := s.at_ p.quantumDue
    let s := s.modPart part (fun p => { p with quantumDue := p.quantumDue + p.quantum * s.micro })
    let order := (List.range p.soft.length).map (fun i => (p.softNext + i) % p.soft.length)
    let pend := order.filter (fun i => ((p.soft[i]?).map (fun y => y.pending && y.mapped.isNone)).getD false)
    let held := p.arms.filter (fun e => (e.2.soft.isSome) && decide (e.2.since + p.quantum * s.micro ≤ s.cycle))
    let waits := fun (e : Nat × Arm) => ((e.2.soft.bind (fun i => p.soft[i]?)).map SoftArm.pending).getD false
    let go := ((held.filter (fun e => !waits e)) ++ held.filter waits).take (min pend.length 64)
    let s := go.foldl (fun s e => s.modPart part (fun p => p.unmap e.1)) s
    pend.foldl (fun s i => s.mapArm part i) s)

/-! ### Messages (R253, Table 15.2) -/

/-- How a message ends: with a status of Table 17.7 for its sender; BUSY; or put off. -/
inductive MsgEnd where
  | status (w : Nat)
  | busy
  | later
deriving DecidableEq, Repr

/-- A message at an armed arm. The entry that its payload fills is busy under a number that its launch carries. -/
def State.atArm (s : State) (part n : Nat) (a : Arm) (payload : List Byte) (stamp : Dword) : State × MsgEnd :=
  let x := s.runXlat part
  let fired := fun (s : State) (addr : Dword) (top : Dword) (ring : Option Nat) =>
    let r := s.fire { xlat := x, addr := a.launch, payAddr := addr, payLen := payload.length, tag := a.tag, floor := umax stamp top,
                      prio := a.prio, ring := ring, priv := false }
    if r.2 = 0 then (r.1, MsgEnd.status 0) else (r.1.modPart part (fun p => p.freeRing ring), MsgEnd.status (6 + 256 * r.2))
  if payload.isEmpty then fired s 0 0 none
  else if a.size < payload.length || a.count = 0 then (s, .status 2)
  else if a.busy.any (fun e => e.1 == a.fill) then (s, .busy)
  else
    let at_ : Dword := a.ring + BitVec.ofNat 64 (a.fill * a.size)
    match s.feStore x at_.toNat stamp payload with
    | (s, .later) => (s, .later)
    | (s, .bad) => (s, .status 7)
    | (s, .done top) =>
      let t := s.uid
      let s := State.modPart { s with uid := t + 1 } part (fun p =>
        { p with arms := Tab.upd p.arms n (fun y => { y with busy := y.busy ++ [(a.fill, t)], fill := (a.fill + 1) % a.count }) })
      fired s at_ top (some t)

/-- A message to a tag of a partition. -/
def State.message (s : State) (part : Nat) (tag : Word) (payload : List Byte) (stamp : Dword) : State × MsgEnd :=
  let p := s.part part
  match p.arms.find? (fun e => e.2.armed && e.2.tag == tag) with
  | some e => s.atArm part e.1 e.2 payload stamp
  | none =>
    if p.soft.any (fun y => y.tag == tag) then
      (s.modPart part (fun p => { p with soft := p.soft.map (fun y => if y.tag = tag then { y with pending := true } else y) }), .busy)
    else (s, .status 1)

/-- The next retry interval of a sender refused with BUSY, in microseconds: 1, doubling up to 64. -/
def nextRetry (n : Nat) : Nat := if n = 0 then 1 else min (2 * n) 64

/-- Whether the front end has put off a message of a partition that came before `order`: messages are served in arrival order (R253). -/
def State.behindLate (s : State) (part order : Nat) : Bool :=
  s.retries.any (fun r => r.part == part && r.late.any (fun n => decide (n < order)))
    || s.sends.any (fun m => m.part == part && m.late.any (fun n => decide (n < order)))

/-- A SEND's record changed. -/
def State.putSend (s : State) (m : SendMsg) : State := { s with sends := s.sends.map (fun y => if y.id = m.id then m else y) }

/-- A status for a SEND's thread, kept while its context is away. -/
def State.sendDeliver (s : State) (m : SendMsg) (status : Word) : State :=
  match Tab.find s.launches m.launch with
  | none => { s with sends := s.sends.filter (fun y => y.id != m.id) }
  | some l => if l.offAt m.core then s.putSend { m with status := some (m.status.getD status) } else s.sendDone m (m.status.getD status)

/-- Whether a partition is being reset, and answers messages with errors (R237). -/
def Partition.closed (p : Partition) : Bool := p.fenced || p.resetting

/-- A SEND's message arrives at this package's front end (R303), or is served there after it was put off. -/
def State.sendArrive (s : State) (m : SendMsg) : State :=
  match m.payload, m.status with
  | some d, none =>
    let order := m.late.getD s.uid
    if m.shadow then s
    else if (s.part m.part).closed then s.sendDeliver m 5
    else if !m.fire then s.sendDeliver m 3
    else if s.behindLate m.part order then State.putSend { s with uid := s.uid + 1 } { m with late := some order, due := s.cycle + farDelay }
    else
      match s.message m.part m.tag d m.floor with
      | (s, .status w) => s.sendDeliver m (BitVec.ofNat 32 w)
      | (s, .busy) => s.putSend { m with retry := nextRetry m.retry, late := none, due := s.cycle + nextRetry m.retry * s.micro }
      | (s, .later) => State.putSend { s with uid := s.uid + 1 } { m with late := some order, due := s.cycle + farDelay }
  | _, _ => s

/-- A message from outside, first sent, retried after an interval, or served after it was put off. -/
def State.extArrive (s : State) (part : Nat) (m : Msg) (interval : Nat) (late : Option Nat) : State :=
  let order := late.getD s.uid
  let wait := fun (s : State) (interval delay : Nat) (late : Option Nat) =>
    { s with uid := s.uid + 1,
             retries := s.retries ++ [{ id := s.uid, part := part, msg := m, interval := interval, late := late, due := s.cycle + delay }] }
  if (s.part part).closed then s.emit (.errorReply part)
  else if s.behindLate part order then wait s interval farDelay (some order)
  else
    match s.message part m.tag m.payload m.stamp with
    | (s, .status w) => s.emit (.msgReply part m.tag (BitVec.ofNat 32 w))
    | (s, .busy) => wait (s.emit (.busy part m.tag)) (nextRetry interval) (nextRetry interval * s.micro) none
    | (s, .later) => wait s interval farDelay (some order)

/-- Whether injection is paused on the die that a SEND's messages come from (R236). -/
def State.sendPaused (s : State) (m : SendMsg) : Bool := s.pausedDies.contains (dieOf m.core)

/-- TAGGED_MESSAGE (R253). -/
def execTaggedMessage (part : Nat) (src : MsgSrc) (s : State) : Host.Outcome State Fault Refusal :=
  .next (
    match src with
    | .ext m => s.whenReady (fun s => s.extArrive part m 0 none)
    | .send id =>
      match s.sends.find? (fun m => m.id == id && m.part == part && m.retry == 0) with
      | none => s
      | some m => if s.sendPaused m then s else s.sendArrive m)

/-- BUSY_RETRY (R253): a message refused with BUSY is sent again when its interval has run out. -/
def execBusyRetry (id : Nat) (s : State) : Host.Outcome State Fault Refusal :=
  .next (
    match s.retries.find? (fun r => r.id == id), s.sends.find? (fun m => m.id == id && m.retry != 0) with
    | some r, _ =>
      let s := s.at_ r.due
      State.extArrive { s with retries := s.retries.filter (fun y => y.id != id) } r.part r.msg r.interval r.late
    | none, some m => if s.sendPaused m then s else (s.at_ m.due).sendArrive m
    | none, none => s)

/-- Whether a SEND's payload cannot be read yet: its context is off the core, or the die does not inject (R236). -/
def State.sendStill (s : State) (m : SendMsg) : Bool := (Tab.find s.launches m.launch).all (fun l => l.offAt m.core) || s.sendPaused m

/-- SEND_PAYLOAD_READ (R303): the payload read, its range free, and the message sent. -/
def execSendPayloadRead (id : Nat) (s : State) : Host.Outcome State Fault Refusal :=
  .next (
    match s.sends.find? (fun m => m.id == id && m.payload.isNone) with
    | none => s
    | some m =>
      if s.sendStill m then s
      else
        let d := s.scratchGet m.core m.off m.len
        ((s.freeLocks m.op).putSend { m with payload := some d, due := s.cycle + farDelay }).emit
          (.sent m.pkg m.part m.tag m.fire m.rwrite m.floor d))

/-- SEND_RESPONSE (R303). The shadow copy of a redundant launch receives what the primary's SEND received (Table 18.4). -/
def execSendResponse (id : Nat) (status : Word) (s : State) : Host.Outcome State Fault Refusal :=
  .next (
    match s.sends.find? (fun m => m.id == id && m.payload.isSome) with
    | none => s
    | some m =>
      if m.shadow then
        match s.redValue m.thread m.access with
        | none => s
        | some v => s.sendDeliver m (v.value.headD 0)
      else s.sendDeliver m status)

/-! ### Placed threads, warps and blocks (R258 to R260) -/

/-- A thread in its initial state. -/
def Thread.start (entry : Dword) (now : Nat) : Thread :=
  { st := .ready, pos := ⟨entry, 0⟩, link := 0, flags := 0, rmode := 0, vix := 0, v := Vector.replicate 64 0, vvoid := 0,
    k := Vector.replicate 4 0, kvoid := 0xF, lat := [], pend := [], async := [], trap := TrapRegs.zero, tmask := 0, handler := false,
    save := none, resume := ⟨entry, 0⟩, pause := 0, since := now, ready := now, slotAt := now, candAt := now, issued := 0, skid := 0, arrival := [],
    wait := none, deferred := [], toff := 0, succ := none, accesses := 0, sig := 0, records := 0, stores := 0, window := false,
    cleared := false, wrote := 0 }

/-- The scalar registers that a launch's warps begin with. -/
def Launch.scalars (l : Launch) : Vector Word 96 :=
  let ws := Dword.words l.rcd.args ++ Dword.words l.payAddr ++ Dword.words l.recAddr ++ [BitVec.ofNat 32 l.payLen, l.tag]
  ws.zipIdx.foldl (fun v e => v.setIfInBounds e.2 e.1) (Vector.replicate 96 0)

/-- A warp in its initial state. -/
def Launch.warp (l : Launch) (launch block num core lane : Nat) (floor : Dword) (now : Nat) : Warp :=
  { launch := launch, block := block, num := num, core := core, lane := lane,
    threads := List.replicate (l.rcd.extent 0) (Thread.start l.rcd.entry now), s := l.scalars, spend := [], sasync := [],
    preds := Vector.replicate 12 0, ppend := [], ctr := Vector.replicate 6 0, fell := Vector.replicate 6 0, out := [],
    ext := false, acqAt := none, floor := floor, fpend := [], bars := [] }

/-- A block placed under a number, its warps on the given cores and lanes. -/
def State.addBlock (s : State) (l : Launch) (launch key id group : Nat) (shadow : Bool) (areas : Tab Nat) (homes : List (Nat × Nat))
    (floor : Dword) : State :=
  let n := s.uid
  let ws := homes.zipIdx.map (fun h => (n + h.2, l.warp launch key h.2 h.1.1 h.1.2 floor s.cycle))
  { s with
    uid := n + homes.length
    warps := ws.foldl (fun t w => Tab.put t w.1 w.2) s.warps
    blocks := Tab.put s.blocks key
      { launch := launch, id := id, group := group, shadow := shadow, warps := ws.map (·.1), areas := areas, size := l.rcd.area,
        halt := none, bars := [], ended := false } }

/-- The number of a launch's group on a copy: one that stands, or a new one. -/
def State.groupFor (s : State) (launch id cluster : Nat) (shadow : Bool) : State × Nat :=
  match s.groups.find? (fun g => g.2.launch == launch && g.2.id == id && g.2.shadow == shadow) with
  | some g => (s, g.1)
  | none =>
    ({ s with uid := s.uid + 1,
              groups := Tab.put s.groups s.uid
                { launch := launch, id := id, cluster := cluster, blocks := [], placed := 0, areas := [], shadow := shadow,
                  partner := none, bars := [] } }, s.uid)

/-- A block put into its group, with its areas. -/
def State.joinGroup (s : State) (g b : Nat) : State :=
  let new := match Tab.find s.blocks b with
    | none => []
    | some y => y.areas.map (fun a => ({ id := y.id, block := b, core := a.1, base := a.2, size := y.size } : GroupArea))
  s.modGroup g (fun x => { x with blocks := x.blocks ++ [b], placed := x.placed + 1, areas := x.areas ++ new })

/-- Two groups made the copies of one. -/
def State.pairGroups (s : State) (g h : Nat) : State :=
  (s.modGroup g (fun x => { x with partner := some h })).modGroup h (fun x => { x with partner := some g })

/-- A block out of its group. A group goes when no block of it is resident and none is to come (R25). -/
def State.quitGroup (s : State) (b : Nat) : State :=
  { s with groups := (s.groups.map (fun (g : Nat × Group) =>
      (g.1, { g.2 with blocks := g.2.blocks.filter (fun y => y != b) }))).filter (fun g => !g.2.blocks.isEmpty || !s.groupWhole g.1) }

/-- Blocks of a group placed on a cluster by the dispatcher (R154, R260): cores as R260 has them, areas side by side. -/
def State.placeGroup (s : State) (launch : Nat) (l : Launch) (cluster g : Nat) (is : List Nat) (shadow : Bool) : State × Nat :=
  let r := l.rcd
  let gid := r.groupId g
  let cores := ((is.flatMap r.cores).eraseDups).map (clusterCore cluster)
  let s := cores.foldl (fun s c => (s.stash c).modCore c (fun y => { Core.cleared y with l1 := [] })) s
  let gr := s.groupFor launch gid cluster shadow
  (is.foldl (fun s i =>
    let areas := (r.cores i).foldl (fun (t : Tab Nat) q =>
      Tab.put t (clusterCore cluster q) ((is.filter (fun j => decide (j < i) && (r.cores j).contains q)).length * r.area)) []
    let key := s.uid
    (State.addBlock { s with uid := key + 1 } l launch key (gid * 2 ^ levelWidth r.levels 2 + i) gr.2 shadow areas
      ((r.homes i).map (fun h => (clusterCore cluster h.1, h.2))) l.floor).joinGroup gr.2 key) gr.1, gr.2)

/-- The capability table read when a launch's first block is placed (R302); entries that cannot be read are invalid. -/
def capOf (l : List Byte) : Cap :=
  let a := fieldAt l 0 8
  let c := fieldAt l 12 4
  { valid := a / 2 ^ 56 == 0 && decide (natBits a 32 8 < 64) && c / 8 == 0, pkg := natBits a 40 16, part := natBits a 32 8,
    tag := BitVec.ofNat 32 a, allow := fieldAt l 8 4, rwrite := natBit c 2, fire := natBit c 1, send := natBit c 0 }

/-- An invalid capability. -/
def Cap.none : Cap := { valid := false, pkg := 0, part := 0, tag := 0, allow := 0, rwrite := false, fire := false, send := false }

/-- What the first placement of a launch's blocks fixes: its translation, as the partition has it (R221), and its capabilities. -/
def State.firstPlace (s : State) (launch : Nat) : State :=
  match Tab.find s.launches launch with
  | none => s
  | some l =>
    if l.capsRead then s
    else
      let cfgs := (s.part l.xlat.part).cfgs
      let x := if cfgs.any (fun c => c.vf == l.xlat.vf) then s.vfXlat l.xlat.part l.xlat.vf else l.xlat
      let r := (List.range l.rcd.capn).foldl (fun (acc : State × List Cap) i =>
        match acc.1.feRead x (l.rcd.caps.toNat + 16 * i) 16 with
        | (s, some b) => (s, acc.2 ++ [capOf b])
        | (s, none) => (s, acc.2 ++ [Cap.none])) (s, [])
      r.1.modLaunch launch (fun y => { y with xlat := x, caps := r.2, capsRead := true })

/-! ### The dispatcher (R261 to R263) -/

/-- The blocks of a launch's next group that are still to be placed. -/
def Launch.nextGroup (l : Launch) : Nat × List Nat :=
  let b := l.rcd.extent 2
  (l.nextBlock / b, (List.range b).filter (fun i => decide (l.nextBlock % b ≤ i)))

/-- Whether a cluster has room for blocks of a group. -/
def State.clusterFits (s : State) (r : Record) (is : List Nat) (cluster : Nat) : Bool :=
  r.fits is (fun q ln => s.laneFree (clusterCore cluster q) ln)
    && ((is.flatMap r.cores).eraseDups).all (fun q =>
        !s.resident (clusterCore cluster q) && (s.core (clusterCore cluster q)).locks.isEmpty)

/-- The cluster that a launch's next group goes to, and its shadow's: the lowest-numbered that fit. Blocks left of a group that has
been begun by a takeover go to that group's cluster, and its shadow's (R25). -/
def State.spot (s : State) (launch : Nat) (l : Launch) : Option (Nat × Option Nat) :=
  let r := l.rcd
  let ng := l.nextGroup
  let begun := fun (shadow : Bool) =>
    (s.groups.find? (fun g => g.2.launch == launch && g.2.id == r.groupId ng.1 && g.2.shadow == shadow)).map (fun g => g.2.cluster)
  let fit := (s.part l.xlat.part).clusters.filter (s.clusterFits r ng.2)
  match begun false, begun true with
  | some c, d => if s.clusterFits r ng.2 c && d.all (s.clusterFits r ng.2) then some (c, d) else none
  | none, _ =>
  if r.red then
    fit.findSome? (fun c => (fit.find? (fun d => d / Config.clustersPerDie != c / Config.clustersPerDie)).map (fun d => (c, some d)))
  else fit.head?.map (fun c => (c, none))

/-- A launch's next group placed, when it fits. -/
def State.placeNext (s : State) (launch : Nat) : Option State :=
  match Tab.find s.launches launch with
  | none => none
  | some l =>
    if l.rcd.blocks ≤ l.nextBlock then none
    else
      (s.spot launch l).map (fun c =>
        let ng := l.nextGroup
        let s := s.firstPlace launch
        let l := (Tab.find s.launches launch).getD l
        let a := s.placeGroup launch l c.1 ng.1 ng.2 false
        let s := match c.2 with
          | none => a.1
          | some d =>
            let b := a.1.placeGroup launch l d ng.1 ng.2 true
            b.1.pairGroups a.2 b.2
        s.modLaunch launch (fun y =>
          { y with nextBlock := y.nextBlock + ng.2.length, waitSince := s.cycle, blocks := false,
                   status := if y.rcd.blocks ≤ y.nextBlock + ng.2.length then .running else y.status }))

/-- Every group of a resident launch placed at once, in order (R263). -/
def State.placeAll (s : State) (launch : Nat) : Nat → Option State
  | 0 => some s
  | n + 1 => (s.placeNext launch).bind (fun s => State.placeAll s launch n)

/-- Whether a partition takes new blocks. -/
def Partition.places (p : Partition) : Bool := natBit p.entry.toNat 31 && !p.closed && p.nextVf.isNone

/-- The launches of a partition with groups to place, in the order of R262. -/
def State.pending (s : State) (part : Nat) : List Nat :=
  let p := s.part part
  if !p.places then []
  else
    let ls := s.launches.filter (fun e => e.2.status == .pending && !e.2.saved && e.2.xlat.part == part && e.2.xlat.vf == p.vf
      && decide (e.2.nextBlock < e.2.rcd.blocks))
    (sortBy (fun (e : Nat × Launch) => (7 - e.2.prio) * 2 ^ 64 + e.2.order) ls).map (·.1)

/-- The first launch, in order, whose next group fits has it placed; a launch that blocks backfill ends the search. -/
def State.placeFirst (s : State) : List Nat → State
  | [] => s
  | l :: rest =>
    match Tab.find s.launches l with
    | none => State.placeFirst s rest
    | some x =>
      if x.rcd.res then (s.placeAll l x.rcd.groups).getD s
      else
        match s.placeNext l with
        | some s' => s'
        | none => if x.blocks then s else State.placeFirst s rest

/-- DISPATCH_PLACE. -/
def execDispatchPlace (part : Nat) (s : State) : Host.Outcome State Fault Refusal := .next (s.placeFirst (s.pending part))

/-- The cycles that a group waits before its launch blocks backfill: 10 ms. -/
def State.backfillCycles (s : State) : Nat := 10000 * s.micro

/-- The launch of a partition that blocks backfill next, with the cycle. -/
def State.backfillDue (s : State) (part : Nat) : Option (Nat × Nat) :=
  (s.pending part).foldl (fun (best : Option (Nat × Nat)) l =>
    match Tab.find s.launches l with
    | none => best
    | some x =>
      if x.blocks then best
      else
        match best with
        | none => some (l, x.waitSince + s.backfillCycles)
        | some b => if x.waitSince + s.backfillCycles < b.2 then some (l, x.waitSince + s.backfillCycles) else best) none

/-- BACKFILL_BLOCK_TIMEOUT (R262). -/
def execBackfillBlockTimeout (part : Nat) (s : State) : Host.Outcome State Fault Refusal :=
  .next (
    match s.backfillDue part with
    | none => s
    | some (l, c) => (s.at_ c).modLaunch l (fun x => { x with blocks := true }))

/-! ### Retirement (R30 to R32, R258, R259) -/

/-- Whether every thread of a block has exited. -/
def State.allExited (s : State) (b : Nat) : Bool := (s.blockKeys b).all (fun k => ((s.thread k).map (fun t => t.st == .exited)).getD true)

/-- Whether no unit works for a block any more: engines, payload reads, and requests on their way. -/
def State.unitsDone (s : State) (b : Nat) : Bool :=
  match Tab.find s.blocks b with
  | none => true
  | some x =>
    let ks := s.blockKeys b
    x.areas.all (fun a =>
      let c := s.core a.1
      !(c.copy.queue.any (fun q => q.block == b)) && !(c.mat.any (fun o => o.block == b)) && !(c.waffle.queue.any (fun o => o.block == b)))
    && !(s.sends.any (fun m => m.payload.isNone && ks.contains m.thread))
    && !(s.reqs.any (fun r => r.stage != .held && r.parts.any (fun q => ks.contains q.thread)))

/-- The operations of other blocks that hold an entry over a block's area (R185). -/
def State.foreignOps (s : State) (b : Nat) : List Nat :=
  match Tab.find s.blocks b with
  | none => []
  | some x => x.areas.flatMap (fun a =>
      ((s.core a.1).locks.filter (fun k => k.block != b && k.covers .scratch a.2 x.size)).map Lock.op)

/-- Whether a block may begin to retire. -/
def State.retireMay (s : State) (b : Nat) : Bool :=
  match Tab.find s.blocks b with
  | none => false
  | some x => !x.shadow && !s.blockSaved b && s.allExited b

/-- The shadow copy of a block that has ended ends with it (R322): what it waited to receive is given up. -/
def State.endTwin (s : State) (b : Nat) : State :=
  let ks := s.blockKeys b
  let s := { s with reqs := s.reqs.filter (fun r => !(r.parts.any (fun q => ks.contains q.thread)))
                    sends := s.sends.filter (fun m => !(ks.contains m.thread))
                    ckpts := s.ckpts.filter (fun c => !(ks.contains c.thread))
                    bundles := s.bundles.filter (fun e => !(e.2.threads.any ks.contains)) }
  s.endBlock b s.cycle

/-- The greatest FLOOR of a block's warps. -/
def State.blockFloor (s : State) (b : Nat) : Dword :=
  (((Tab.find s.blocks b).map Block.warps).getD []).foldl (fun f w => umax f (((Tab.find s.warps w).map Warp.floorAll).getD 0)) 0

/-- The successor record that every thread of a block named at its exit. -/
def State.blockSucc (s : State) (b : Nat) : Option Dword :=
  let ns := ((s.blockKeys b).filterMap s.thread).map Thread.succ
  match ns with
  | some a :: rest => if rest.all (fun x => x == some a) then some a else none
  | _ => none

/-- A block and its warps gone, with its place in its group, its requests, and what redundancy held for it. -/
def State.forgetBlock (s : State) (b : Nat) : State :=
  let ks := s.blockKeys b
  { s.quitGroup b with
    reqs := s.reqs.filter (fun r => !(r.parts.any (fun q => ks.contains q.thread)))
    longs := s.longs.filter (fun o => !ks.contains o.thread)
    redVals := s.redVals.filter (fun v => !ks.contains v.thread)
    redWindows := s.redWindows.filter (fun w => !ks.contains w.thread)
    redFaults := s.redFaults.filter (fun f => !ks.contains f.thread)
    invals := s.invals.filter (fun i => !(i.by_.any ks.contains))
    warps := s.warps.filter (fun w => w.2.block != b)
    blocks := Tab.drop s.blocks b }

/-- A block gone from its cores. Cores left with saved contexts alone are put away; the next placement clears the others (R260). -/
def State.releaseBlock (s : State) (b : Nat) : State :=
  match Tab.find s.blocks b with
  | none => s
  | some x =>
    (x.areas.map (·.1)).foldl (fun s c => s.stash c) (s.forgetBlock b)

/-- The launch that a block's exit to a record goes to, fired when this is the first such block of its launch (R31, R257). -/
def State.fireExit (s : State) (pred : Nat) (l : Launch) (a : Dword) (floor : Dword) : State × Option Nat :=
  if l.barren then (s, none)
  else if l.named.contains a then
    match s.launches.find? (fun e => e.2.exitLaunch == some pred && e.2.viaExit == some a) with
    | none => (s, none)
    | some e => (s.modLaunch e.1 (fun y => { y with floor := umax y.floor floor }), some e.1)
  else
    let r := s.fire { xlat := l.xlat, addr := a, payAddr := 0, payLen := 0, tag := 0, floor := floor, prio := 0, ring := none, priv := false }
    if r.2 = 0 then
      ((r.1.modLaunch (r.1.uid - 1) (fun y => { y with viaExit := some a, exitLaunch := some pred })).modLaunch pred
        (fun y => { y with named := y.named ++ [a] }), some (r.1.uid - 1))
    else (r.1.modLaunch pred (fun y => { y with barren := true }), none)

/-- Whether a block of a launch may take over a retiring block's cores in place (R31). A redundant launch's block needs two dies (R263),
so it takes over from a redundant block alone, copy by copy (DEDUCED, log 39). -/
def Launch.takesOver (l : Launch) (from_ : Launch) : Bool :=
  l.xlat.part == from_.xlat.part && !l.rcd.res && decide (l.rcd.extent 1 ≤ from_.rcd.extent 1) && decide (l.rcd.spad ≤ from_.rcd.spad)
    && (!l.rcd.red || from_.rcd.red) && decide (l.nextBlock < l.rcd.blocks)

/-- The core and lane of each warp of a block that takes over a retiring block: those of the retiring warp of its number. -/
def State.takeHomes (s : State) (x : Block) (l : Launch) : List (Nat × Nat) :=
  (List.range (l.rcd.extent 1)).filterMap (fun f =>
    x.warps.findSome? (fun w => (Tab.find s.warps w).bind (fun y => if y.num = f then some (y.core, y.lane) else none)))

/-- Whether each incoming warp would find a base block free on its lane (R5): the words of the retiring block's warps may have been
given out as extended blocks (R39). -/
def State.takeRoom (s : State) (b : Nat) (l : Launch) : Bool :=
  match Tab.find s.blocks b with
  | none => false
  | some x =>
    let hs := s.takeHomes x l
    hs.all (fun h => decide ((hs.filter (fun y => y == h)).length ≤ s.laneFree h.1 h.2))

/-- Block `n` of a launch in a retiring block's place (R31, R258, R260): areas, scratchpad, tiles, tag table and rule context as they stand,
each warp on the lane of the retiring warp of its number, and a fresh L1 (R259). Its group may stand on another cluster
(DESIGN CHOICE, log 39). -/
def State.takeBlock (s : State) (b succ : Nat) (l : Launch) (n : Nat) (floor : Dword) (shadow : Bool) : State × Nat :=
  match Tab.find s.blocks b with
  | none => (s, 0)
  | some x =>
    let cluster := ((Tab.find s.groups x.group).map Group.cluster).getD 0
    let homes := s.takeHomes x l
    let gid := l.rcd.groupId (n / l.rcd.extent 2)
    let gr := (s.forgetBlock b).groupFor succ gid cluster shadow
    let s := (gr.1.addBlock l succ b (gid * 2 ^ levelWidth l.rcd.levels 2 + n % l.rcd.extent 2) gr.2 shadow x.areas homes floor).joinGroup gr.2 b
    (x.areas.foldl (fun s a => s.l1Clear a.1) s, gr.2)

/-- The lowest unplaced block of a launch takes over a retiring block's cores (R31), under redundancy both copies' cores.
R31 goes before R25, which wants a group on one cluster (DESIGN CHOICE, log 39). -/
def State.takeOver (s : State) (b : Nat) (twin : Option Nat) (succ : Nat) (floor : Dword) : State :=
  let s := s.firstPlace succ
  match Tab.find s.launches succ with
  | none => s
  | some l =>
    let n := l.nextBlock
    let a := s.takeBlock b succ l n floor false
    let s := match twin with
      | none => a.1
      | some t =>
        if l.rcd.red then
          let c := a.1.takeBlock t succ l n floor true
          c.1.pairGroups a.2 c.2
        else a.1.releaseBlock t
    let s := s.modLaunch succ (fun y =>
      { y with nextBlock := n + 1, waitSince := s.cycle, blocks := false, status := if y.rcd.blocks ≤ n + 1 then .running else y.status })
    if (s.part l.xlat.part).nextVf.isSome then s.askStop succ else s

/-- A launch whose every block has retired completes (R258): its ring entry is freed, and then its SUCC fires. -/
def State.completeCheck (s : State) (launch : Nat) : State :=
  match Tab.find s.launches launch with
  | none => s
  | some l =>
    if l.nextBlock < l.rcd.blocks || l.retired < l.rcd.blocks then s
    else
      let s := s.dropLaunch launch
      if l.rcd.succ = 0 || l.barren then s
      else
        (s.fire { xlat := l.xlat, addr := l.rcd.succ, payAddr := 0, payLen := 0, tag := 0, floor := l.exitFloor, prio := 0, ring := none,
                  priv := false }).1

/-- A block retired, with its shadow. -/
def State.retire (s : State) (b : Nat) (twin : Option Nat) : State :=
  match (Tab.find s.blocks b).map Block.launch with
  | none => s
  | some n =>
    match Tab.find s.launches n with
    | none => s
    | some l =>
      let floor := s.blockFloor b
      let r := match s.blockSucc b with
        | some a => s.fireExit n l a floor
        | none => (s, none)
      let s := r.1.modLaunch n (fun y => { y with retired := y.retired + 1, exitFloor := umax y.exitFloor floor })
      let takes := fun (y : Launch) =>
        y.takesOver l && s.takeRoom b y && (!y.rcd.red || twin.any (fun t => s.takeRoom t y))
      let s := match r.2.filter (fun k => (Tab.find s.launches k).any takes) with
        | some k => s.takeOver b twin k floor
        | none => (b :: twin.toList).reverse.foldl (fun s x => s.releaseBlock x) s
      s.completeCheck n

/-- BLOCK_RETIRE. -/
def execBlockRetire (block : Nat) (s : State) : Host.Outcome State Fault Refusal :=
  .next (
    if !s.retireMay block then s
    else
      let twin := s.twinBlock block
      let all := block :: twin.toList
      match twin.filter (fun t => !s.allExited t) with
      | some t => s.endTwin t
      | none =>
        if !(all.all s.unitsDone) then s
        else
          match all.flatMap s.foreignOps with
          | [] => s.retire block twin
          | ops => s.hitOps (ops.filter (fun o => !s.delivered o)))

end Sys2Proof.Machine
end

