-- ==== Sys2Proof/Machine/Platform.lean ====
section
/-! DEFINITION. Partitions and the package (spec/13): entries, the reset of a partition, gang switches (spec/15 R264, R265), links,
writes and atomics from outside, frames being moved, error counters, bring-up, attestation and power. -/

namespace Sys2Proof.Machine

/-! ### The reset of a partition (R237) -/

/-- The cycles in which a partition's reset completes: 2 ms. -/
def State.resetCycles (s : State) : Nat := 2000 * s.micro

/-- A partition fenced and reset: what its contexts had on the way is answered with errors and writes nothing, its contexts, page queues
and streams are gone, its clusters are as after reset, its history pool is empty and its HORIZON at the reference tick. -/
def State.resetPart (s : State) (part : Nat) : State :=
  let cs := if natBit (s.part part).entry.toNat 31 then (s.part part).clusters else []
  let mine := fun (core : Nat) => cs.contains (core / Config.coresPerCluster)
  let ls := (s.launches.filter (fun e => e.2.xlat.part == part)).map (·.1)
  let lost := s.retries.filter (fun r => r.part == part)
  let asked := s.invals.filter (fun i => i.part == part && i.by_.isNone)
  let s := ls.foldl (fun s l => s.dropLaunch l) s
  let s := lost.foldl (fun s r => s.emit (.errorReply r.part)) s
  let s := asked.foldl (fun s i => s.emit (.errorReply i.part)) s
  let s : State := { s with
    retries := s.retries.filter (fun r => r.part != part)
    ckpts := s.ckpts.filter (fun c => c.xlat.part != part)
    walks := s.walks.filter (fun w => w.xlat.part != part)
    invals := s.invals.filter (fun i => i.part != part)
    queues := s.queues.filter (fun q => q.1.part != part)
    clusterTlb := s.clusterTlb.filter (fun c => !cs.contains c.1)
    cores := s.cores.map (fun c => if mine c.1 then (c.1, { Core.reset with resetAt := s.cycle }) else c) }
  let s := cs.foldl (fun s c => (List.range Config.coresPerCluster).foldl (fun s q =>
    s.modCore (clusterCore c q) (fun _ => { Core.reset with resetAt := s.cycle })) s) s
  s.modPart part (fun p =>
    { p with fenced := true, resetting := true, resetDue := s.cycle + s.resetCycles, pool := [], stallSince := none, tardyRun := 0,
             nextVf := none, horizon := BitVec.ofNat 64 (s.refTick.toNat * 65536) })

/-- PARTITION_RESET_COMPLETE. -/
def execPartitionResetComplete (part : Nat) (s : State) : Host.Outcome State Fault Refusal :=
  .next (if (s.part part).resetting then s.modPart part (fun p => { p with fenced := false, resetting := false }) else s)

/-! ### Partition entries (R232) -/

/-- Whether a partition entry is refused. -/
def State.entryBad (s : State) (n : Nat) (v : Word) : Bool :=
  let base := natBits v.toNat 0 7
  let limit := natBits v.toNat 8 7
  decide (64 ≤ n) || decide (limit < base) || natBits v.toNat 16 8 == 0 || natBit v.toNat 7 || natBit v.toNat 15 || natBits v.toNat 27 4 != 0
    || s.parts.any (fun p => p.1 != n && natBit p.2.entry.toNat 31 && decide (p.2.base ≤ limit) && decide (base ≤ p.2.limit))

/-- PARTITION_ENTRY_WRITE: a write of an enabled entry first resets the partition that it held. -/
def execPartitionEntryWrite (n : Nat) (v : Word) (s : State) : Host.Outcome State Fault Refusal :=
  .next (s.whenReady (fun s =>
    if s.entryBad n v then s.emit (.errorReply n)
    else
      let s := if natBit (s.part n).entry.toNat 31 then s.resetPart n else s
      (s.modPart n (fun p => { p with entry := v })).emit (.ack n)))

/-! ### Gang switches (R264, R265) -/

/-- A partition's next virtual function: its configuration is kept, and when it differs from the one that runs, the contexts that must
leave are asked to stop. -/
def State.switchTo (s : State) (c : VfCfg) : State :=
  let s := s.modPart c.part (fun p => p.putCfg c)
  if (s.part c.part).vf = c.vf then s.modPart c.part (fun p => { p with nextVf := none })
  else
    let s := s.modPart c.part (fun p => { p with nextVf := some c })
    ((s.leaving c.part c.vf).foldl (fun s l => s.askStop l) s).switchCheck c.part

/-- A software arm added to those that firmware knows of, at most 4,096 (R254). -/
def Partition.addSoft (p : Partition) (c : SoftCfg) : Partition :=
  if 4096 ≤ p.soft.length then p
  else { p with soft := p.soft ++ [{ tag := c.tag, addr := c.addr, mapped := none, pending := false, fill := 0, busy := [] }] }

/-- Whether any partition is still switching. -/
def State.switching (s : State) : Bool := s.parts.any (fun p => p.2.nextVf.isSome)

/-- GANG_SWITCH_TICK. -/
def execGangSwitchTick (sched : List VfCfg) (s : State) : Host.Outcome State Fault Refusal :=
  .next (
    let s := sched.foldl (fun s c => s.switchTo c) s
    { s with switchAt := if s.switching then some s.cycle else none })

/-- The cycles that a die has for its saves: 100 µs (R265). -/
def State.tardyCycles (s : State) : Nat := 100 * s.micro

/-- Whether a partition's switch waits for a save on a die. -/
def State.lateOn (s : State) (part die : Nat) : Bool :=
  match (s.part part).nextVf with
  | none => false
  | some c => (s.leaving part c.vf).any (fun l => (s.launchCores l).any (fun q => dieOf q == die))

/-- A partition whose saves are late runs its next VF all the same; at the fourth late switch in a row it is reset. -/
def State.tardySwitch (s : State) (part : Nat) : State :=
  match (s.part part).nextVf with
  | none => s
  | some c =>
    let s := s.modPart part (fun p =>
      { p with vf := c.vf, nextVf := none, tardy := satUp p.tardy, tardyRun := p.tardyRun + 1 })
    if 4 ≤ (s.part part).tardyRun then s.resetPart part else s

/-- TARDY_DEADLINE. -/
def execTardyDeadline (die : Nat) (s : State) : Host.Outcome State Fault Refusal :=
  .next (
    match s.switchAt with
    | none => s
    | some c =>
      let s := s.at_ (c + s.tardyCycles)
      let late := (s.parts.map (·.1)).filter (fun p => s.lateOn p die)
      let s := late.foldl (fun s p => s.tardySwitch p) s
      { s with switchAt := if s.switching then s.switchAt else none })

/-! ### Links and errors found (R236, R238, R239) -/

/-- A counter of a table raised by one. -/
def raiseCtr (t : Tab Word) (n : Nat) : Tab Word := Tab.put t n (satUp ((Tab.find t n).getD 0))

/-- The number under which a die's link is counted. -/
def linkNum (die link : Nat) : Nat := die * Config.dieLinks + link

/-- Lost packets counted against their sources (R236). -/
def State.countLost (s : State) (sources : List Nat) : State := { s with linkLost := sources.foldl raiseCtr s.linkLost }

/-- An engine whose transfer was lost on a link: its command ends with LINK_LOST. -/
def State.engineLost (s : State) (core : Nat) (e : Engine) : State :=
  match e with
  | .copy => if (s.core core).copy.running then s.copyFail core 4 false else s
  | .matrix =>
    match (s.core core).mat.find? (fun o => o.started && (s.engCtx core o.block).any (fun c => o.crosses s c)) with
    | some o => s.matFail core o 4 o.steps
    | none => s
  | .rule => s

/-- An engine whose running command reads an uncorrectable error in its scratchpad, its tiles or the rule table: it ends with UE (Tables
17.4, 21.6 and 23.3). -/
def State.engineUe (s : State) (core : Nat) (e : Engine) : State :=
  let count := fun (block : Nat) => match s.engCtx core block with
    | some c => s.countUe c.xlat.part
    | none => s
  match e with
  | .copy =>
    match (s.core core).copy.queue with
    | q :: _ => if (s.core core).copy.running then (count q.block).copyFail core 1 false else s
    | [] => s
  | .matrix =>
    match (s.core core).mat.find? MatOp.started with
    | some o => (count o.block).matFail core o 1 o.steps
    | none => s
  | .rule =>
    match (s.waffle core).queue.find? RuleStep.started with
    | some o => (count o.block).ruleFail core o 1 true
    | none => s

/-- LINK_DEAD: injection pauses on the die; lost requests of threads are replayed, and lost transfers of engines are not. -/
def execLinkDead (die link : Nat) (lostReqs : List Nat) (lostEngines : List (Nat × Engine)) (s : State) :
    Host.Outcome State Fault Refusal :=
  .next (
    if !Config.linkOk die link then s
    else
      let s := { s with pausedDies := if s.pausedDies.contains die then s.pausedDies else s.pausedDies ++ [die],
                        deadLinks := if s.deadLinks.contains (die, link) then s.deadLinks else s.deadLinks ++ [(die, link)] }
      let lost := (s.reqs.filter (fun r => lostReqs.contains r.id)).map Req.core
      let s := lostEngines.foldl (fun s e => s.engineLost e.1 e.2) s
      s.countLost (lost ++ lostEngines.map (·.1)))

/-- REROUTE_RESUME. -/
def execRerouteResume (die : Nat) (s : State) : Host.Outcome State Fault Refusal :=
  .next { s with pausedDies := s.pausedDies.filter (fun d => d != die) }

/-- LINK_RETRAIN of a link by its number in the package. -/
def execLinkRetrain (link : Nat) (s : State) : Host.Outcome State Fault Refusal :=
  .next (if link < Config.links then { s with linkRetrains := raiseCtr s.linkRetrains link } else s)

/-- The partition that a cluster is assigned to. -/
def State.partOf (s : State) (cluster : Nat) : Option Nat :=
  (s.parts.find? (fun e => natBit e.2.entry.toNat 31 && e.2.clusters.contains cluster)).map (·.1)

/-- What comes from outside without a row of the table. A SECDED correction is counted in the partition that the cluster is assigned to; a
line or a tile found uncorrectable is poisoned. -/
def State.takeOutside (s : State) (o : Outside) : State :=
  match o with
  | .sramCorrected c =>
    match s.partOf c with
    | some p => s.modPart p (fun x => { x with corrected := raiseCtr x.corrected c })
    | none => s
  | .sliceCorrected n => if n < Config.slices then { s with sliceCorrected := raiseCtr s.sliceCorrected n } else s
  | .stackCorrected n => if n < Config.dies * Config.dieStacks then { s with stackCorrected := raiseCtr s.stackCorrected n } else s
  | .linkFec die link => if Config.linkOk die link then { s with linkFec := raiseCtr s.linkFec (linkNum die link) } else s
  | .badLine l => { s with poison := if s.poison.contains l then s.poison else l :: s.poison }
  | .badTile core t => s.modCore core (fun c => { c with badTiles := if c.badTiles.contains t then c.badTiles else t :: c.badTiles })
  | .stuckTile core t => s.modCore core (fun c => { c with stuckTiles := if c.stuckTiles.contains t then c.stuckTiles else t :: c.stuckTiles })
  | .engineUe core e => s.engineUe core e
  | .quantum p n => s.whenReady (fun s => s.modPart p (fun x => { x with quantum := max 50 (min n 10000) }))
  | .softArm c => s.modPart c.part (fun p => p.addSoft c)

/-! ### Writes and atomics from outside (R184, R241) -/

/-- REMOTE_WRITE: a write to a frame being moved, or that a hold stamp puts off, draws RETRY. -/
def execRemoteWrite (part : Nat) (addr : Dword) (data : List Byte) (s : State) : Host.Outcome State Fault Refusal :=
  .next (s.whenReady (fun s =>
    if (s.part part).closed then s.emit (.errorReply part)
    else
      match s.feStore (s.runXlat part) addr.toNat 0 data with
      | (s, .done _) => s.emit (.ack part)
      | (s, .later) => s.emit (.retry part)
      | (s, .bad) => s.emit (.errorReply part)))

/-- HOST_ATOMIC: only on pages with effective SA, and WRITE. -/
def execHostAtomic (part : Nat) (addr : Dword) (op : AtomOp) (w64 signed : Bool) (x cmp : Dword) (s : State) :
    Host.Outcome State Fault Refusal :=
  .next (s.whenReady (fun s =>
    if (s.part part).closed || addr.toNat % atomBytes w64 ≠ 0 then s.emit (.errorReply part)
    else
      match s.feXlat (s.runXlat part) addr.toNat with
      | (s, .moving) => s.emit (.retry part)
      | (s, .bad) => s.emit (.errorReply part)
      | (s, .ok e) =>
        let pa := e.phys addr.toNat
        if !e.attrs.sa || !e.attrs.write then s.emit (.errorReply part)
        else if s.poison.contains (lineOf pa) then (s.countUe part).emit (.errorReply part)
        else
          match s.setDirty e addr.toNat with
          | (s, some _) => s.emit (.errorReply part)
          | (s, none) =>
            if e.attrs.hist && s.wouldStall part (s.assignStamp (homeSlice pa) 0).2 then (s.noteStall part).emit (.retry part)
            else
              let r := s.commitAtomic part pa e.attrs.hist 0 (atomBytes w64) (fun m => atomNew op w64 signed m x cmp)
              r.1.emit (.atomicReply part r.2.1)))

/-! ### Frames being moved (R231, R241) -/

/-- A line or byte of one frame, at the same place of another; `unit` is how many of them a frame holds. -/
def reframe (unit old new a : Nat) : Nat := if a / unit = old then new * unit + a % unit else a

/-- The entries of a table that are not all zero. -/
def tableSlots (m : Memory) (table : Nat) : List Nat :=
  ((m.filter (fun c => decide (table ≤ c.1) && decide (c.1 < table + 65536))).map (fun c => c.1 / 8 * 8)).eraseDups

/-- The leaves of 64 KiB under a table, with a number of levels left, that name a frame. -/
def frameLeaves (m : Memory) (frame : Nat) : Nat → Nat → List Nat
  | 0, _ => []
  | n + 1, table => (tableSlots m table).flatMap (fun a =>
      let e := m.nat a 8
      if e % 2 = 0 then []
      else if natBit e 1 then (if n = 0 && entryOA e == frame then [a] else [])
      else frameLeaves m frame n (entryOA e))

/-- The stage-2 roots of a partition. -/
def State.roots2 (s : State) (part : Nat) : List Nat :=
  (((s.part part).cfgs.map (fun c => c.s2root.toNat))
    ++ ((s.launches.filter (fun l => l.2.xlat.part == part)).map (fun l => l.2.xlat.s2root.toNat))).eraseDups.filter (fun r => r != 0)

/-- Whether a request's bytes lie in a frame. -/
def Req.inFrame (r : Req) (frame : Nat) : Bool :=
  (r.place == .global || r.tlb.isSome) && (pageOf r.pa == frame || (r.secondPage.isSome && pageOf r.pa2 == frame))

/-- A frame marked: translations to it are used no more, accesses to it miss from now on, and a redundant launch's windows with stores held
for it close (DEDUCED, log 56). -/
def State.markFrame (s : State) (m : Migration) : State :=
  State.closeHeld { s.forget (fun e => decide (e.pa ≤ m.old) && decide (m.old < e.pa + 2 ^ e.log)) with
                    migrations := s.migrations ++ [{ m with stage := 1 }] } (fun r => r.inFrame m.old) (fun _ => none)

/-- Whether a request is still on its way to a frame. An as-of load waits for the frame's chains to have moved (R241). -/
def State.onWay (s : State) (frame : Nat) : Bool :=
  s.reqs.any (fun r => r.inFrame frame && (r.stage == .sent || r.stage == .held || r.isStalled)
    && (match r.kind with | .asof _ _ => false | _ => true))

/-- The history chains of a frame's lines moved, and with them the as-of loads on their way. -/
def State.moveChains (s : State) (m : Migration) : State :=
  let f := reframe 1024 (m.old / 65536) (m.new / 65536)
  { s with
    reqs := s.reqs.map (fun r =>
      match r.kind, r.stage with
      | .asof _ _, .sent => if r.inFrame m.old then let a := reframe 65536 (m.old / 65536) (m.new / 65536) r.pa; { r with pa := a, slice := homeSlice a } else r
      | _, _ => r)
    parts := s.parts.map (fun p => (p.1, { p.2 with pool := p.2.pool.map (fun e => { e with line := f e.line }) }))
    lineMeta := (s.lineMeta.filter (fun e => e.1 / 1024 == m.old / 65536)).foldl (fun t e => Tab.put t (f e.1) e.2)
      (s.lineMeta.filter (fun e => e.1 / 1024 != m.old / 65536 && e.1 / 1024 != m.new / 65536)) }

/-- The bytes of a frame copied, with their poison; no L1 holds a line of the new frame. -/
def State.copyFrame (s : State) (m : Migration) : State :=
  let o := m.old / 65536
  let n := m.new / 65536
  { s with
    mem := (s.mem.filter (fun c => c.1 / 65536 == o)).foldl (fun t c => t.put (reframe 65536 o n c.1) c.2)
      (s.mem.filter (fun c => c.1 / 65536 != n))
    poison := s.poison.filter (fun l => l / 1024 != n) ++ (s.poison.filter (fun l => l / 1024 == o)).map (reframe 1024 o n)
    cores := s.cores.map (fun c => (c.1, { c.2 with l1 := c.2.l1.filter (fun l => l.line / 1024 != n) })) }

/-- The stage-2 leaves that name the old frame rewritten to name the new one. -/
def State.moveLeaves (s : State) (m : Migration) : State :=
  let ls := ((s.roots2 m.part).flatMap (frameLeaves s.mem m.old walkLevels.length)).eraseDups
  ls.foldl (fun s a => s.devicePut a (leBytes (s.mem.nat a 8 - m.old + m.new) 8)) s

/-- What waits for a frame being moved: for each page, the queue and the request that stand for it. -/
def State.frozenWaits (s : State) : List (QKey × PageReq) :=
  let held := fun (x : Option Xlat) (core : Nat) (w : Option (Bool × Nat)) =>
    match x, w with
    | some x, some (true, page) =>
      if s.frozen x true page then
        [((⟨x.part, x.vf.toNat, true⟩ : QKey), ({ id := none, kind := 0, page := page, core := core, asid := 0 } : PageReq))]
      else []
    | _, _ => []
  let of_ := fun (block : Nat) => ((Tab.find s.blocks block).bind (fun b => Tab.find s.launches b.launch)).map Launch.xlat
  let ofCore := fun (e : Nat × Core) =>
    held (e.2.copy.queue.head?.bind (fun q => of_ q.block)) e.1 e.2.copy.waiting
      ++ e.2.mat.flatMap (fun o => held (of_ o.block) e.1 o.waiting)
  ((s.reqs.flatMap (fun r =>
    match r.stage with
    | .parked s2 page => held (some r.xlat) r.core (some (s2, page))
    | _ => [])) ++ s.cores.flatMap ofCore ++ s.images.flatMap (fun i => ofCore (i.core, i.data))).eraseDups

/-- The mark of a frame cleared: what waited for it goes on. -/
def State.clearMark (s : State) (m : Migration) : State :=
  let ws := (m.waits ++ s.frozenWaits).eraseDups
  let s : State := { s with migrations := s.migrations.filter (fun y => y.old != m.old) }
  let free := ws.filter (fun w => !(s.frozenWaits.contains w))
  free.foldl (fun s w => s.pageOutcome w.1 w.2 false) s

/-- FRAME_MIGRATION: one step of the move, in the order of R241. -/
def execFrameMigration (part old new : Nat) (stage : Fin 5) (s : State) : Host.Outcome State Fault Refusal :=
  .next (
    match s.migrations.find? (fun m => m.part == part && m.old == old && m.new == new) with
    | none =>
      if stage.val = 0 && pageOf old == old && pageOf new == new && old != new && !s.migrating old && !s.migrating new then
        s.markFrame { part := part, old := old, new := new, stage := 0, waits := [] }
      else s
    | some m =>
      if m.stage ≠ stage.val then s
      else
        let next := fun (s : State) =>
          { s with migrations := s.migrations.map (fun y => if y.old = old then { y with stage := m.stage + 1 } else y) }
        match stage.val with
        | 1 =>
          if s.onWay old then s
          else next (s.moveChains m)
        | 2 => next (s.copyFrame m)
        | 3 =>
          let ws := s.frozenWaits
          let t := next (s.moveLeaves m)
          { t with migrations := t.migrations.map (fun y => if y.old = old then { y with waits := ws } else y) }
        | _ => s.clearMark m)

/-! ### Error counters (R238, Table 13.2) -/

/-- Whether a reader reads, and so may clear, a counter. -/
def CtrReader.reads (r : CtrReader) (c : ErrCtr) : Bool :=
  match c, r with
  | .correctedSram p _, .vf q | .uncorrected p, .vf q => p == q
  | .pageQueue k, .vf q => k.part == q
  | .tardy _, .hypervisor => true
  | .tardy _, _ => false
  | _, .host => true
  | _, _ => false

/-- ERROR_COUNTER_CLEAR, by a message like every write from outside (R240). -/
def execErrorCounterClear (reader : CtrReader) (c : ErrCtr) (s : State) : Host.Outcome State Fault Refusal :=
  .next (s.whenReady (fun s =>
    if !(CtrReader.reads reader c) then s
    else
      match c with
      | .correctedSram p k => s.modPart p (fun x => { x with corrected := Tab.drop x.corrected k })
      | .uncorrected p => s.modPart p (fun x => { x with uncorrected := 0 })
      | .pageQueue k => { s with queues := s.queues.map (fun q => if q.1 = k then (q.1, { q.2 with errors := 0 }) else q) }
      | .sliceCorrected n => { s with sliceCorrected := Tab.drop s.sliceCorrected n }
      | .stackCorrected n => { s with stackCorrected := Tab.drop s.stackCorrected n }
      | .linkFec d l => { s with linkFec := Tab.drop s.linkFec (linkNum d l) }
      | .linkRetrains d l => { s with linkRetrains := Tab.drop s.linkRetrains (linkNum d l) }
      | .linkLost n => { s with linkLost := Tab.drop s.linkLost n }
      | .tardy p => s.modPart p (fun x => { x with tardy := 0 })))

/-! ### Bring-up, attestation and power (R244 to R246) -/

/-- What firmware sets up once it has started (R244): the configuration of the image, the ticks (R162), the CXL tier (R239), and the
privileged contexts. A spill area lies in the CXL tier, and holds what fits there (R170). -/
def State.configure (s : State) (cfg : BootCfg) : State :=
  let s : State := { s with refTick := 1, tickDue := s.cycle + s.tickCycles, settleDue := s.cycle + Config.settleCycles, slices := [],
                            settled := 0, cxl := (cfg.cxl.take Config.dies).map (fun n => min n Config.cxlBytes) }
  let room := s.cxl.foldl (· + ·) 0 / Config.entryBytes
  let s := cfg.vfs.foldl (fun s c => s.modPart c.part (fun p => { p.putCfg c with vf := if p.cfgs.isEmpty then c.vf else p.vf })) s
  let s := cfg.pools.foldl (fun s c => s.modPart c.part (fun p => { p with poolSize := c.size, spillSize := min c.spill room })) s
  let s := cfg.soft.foldl (fun s c => s.modPart c.part (fun p => p.addSoft c)) s
  let s := cfg.quanta.foldl (fun s q => s.modPart q.1 (fun p =>
    let n := max 50 (min q.2 10000)
    { p with quantum := n, quantumDue := s.cycle + n * s.micro })) s
  cfg.contexts.foldl (fun s c => (s.fire { xlat := s.runXlat c.1, addr := c.2, payAddr := 0, payLen := 0, tag := 0, floor := 0, prio := 0,
                                           ring := none, priv := true }).1) s

/-- The state that remains when nothing is kept; the agenda, and what the model counts or notes for itself, are no part of the module. -/
def State.blank (s : State) (supply : Bool) : State :=
  { State.reset with agenda := s.agenda, fresh := s.fresh, uid := s.uid, out := s.out, supply := supply }

/-- POWER_ON: the boot ROM checks the image's signature; firmware starts; and then it is ready. A failed check leaves the device in
bring-up. -/
def execPowerOn (cfg : BootCfg) (s : State) : Host.Outcome State Fault Refusal :=
  .next (
    let s := if s.supply then s else s.blank true
    match s.boot with
    | .bringUp =>
      if !s.imageOk then s
      else if cfg.sigOk then { s with boot := .starting, digest := cfg.digest, version := cfg.version }
      else { s with imageOk := false, failCode := cfg.failCode }
    | .starting => { s.configure cfg with boot := .ready }
    | .ready => s)

/-- The attestation report: the nonce, the image's digest and version, and the partition table. -/
def State.report (s : State) (nonce : List Byte) : List Byte :=
  nonce ++ s.digest ++ leBytes s.version.toNat 8 ++ (List.range 64).flatMap (fun n => leBytes (s.part n).entry.toNat 4)

/-- ATTESTATION_REQUEST. -/
def execAttestationRequest (nonce : List Byte) (s : State) : Host.Outcome State Fault Refusal :=
  .next (s.whenReady (fun s =>
    s.emit (.attest (s.report nonce) (Config.slhDsaSign Config.identityKey (s.report nonce)))))

/-- A cycle that is due moved, so that it stands as far off in time under the slower clock as it did before. -/
def State.slower (s : State) (due : Nat) : Nat := s.cycle + (due - s.cycle) * s.tickCycles / Config.cyclesPerTick

/-- POWER_CAP (R245): the core clock steps down. No count of cycles changes; the tick, and every bound in microseconds, take fewer cycles. -/
def execPowerCap (s : State) : Host.Outcome State Fault Refusal :=
  .next (
    if s.powerCap then s
    else
      let s := { s with powerCap := true }
      { s with
        tickDue := s.slower s.tickDue
        parts := s.parts.map (fun p => (p.1, { p.2 with quantumDue := s.slower p.2.quantumDue, resetDue := s.slower p.2.resetDue }))
        retries := s.retries.map (fun r => if r.late.isNone then { r with due := s.slower r.due } else r)
        sends := s.sends.map (fun m => if m.retry ≠ 0 && m.late.isNone then { m with due := s.slower m.due } else m) })

/-- SUPPLY_REMOVED (R246). -/
def execSupplyRemoved (s : State) : Host.Outcome State Fault Refusal := .next (s.blank false)

end Sys2Proof.Machine
end

