-- ==== Sys2Proof/Machine/Issue.lean ====
section
/-! DEFINITION. Issue: candidates and the picker (spec/02 R17, R18), the fetch of a clause and the checks at its start (spec/04 R58,
R60; spec/12 R225), and a bundle's next word decoded (R67, R68, R80). -/

namespace Sys2Proof.Machine

/-! ### Candidates (R17) -/

/-- A thread that a picker may choose: its identity for the order of R18, its position, the cycle its slot may begin, the cycle it
became a candidate, and the cycle its waiting time counts from; `stop` marks one that its block's halt stops instead (R310). -/
structure Cand where
  key : TKey
  block : Nat
  id : Nat
  num : Nat
  pos : Pos
  handler : Bool
  paused : Bool
  ready : Nat
  from_ : Nat
  since : Nat
  stop : Bool
deriving DecidableEq, Repr

/-- The cycle in which a warp's named counters were last all zero. -/
def Warp.metAt (w : Warp) (wait : BitVec 6) : Nat :=
  (List.range 6).foldl (fun m j => if wait.getLsbD j then max m (w.fell.toList.getD j 0) else m) 0

/-- Whether a thread of a block stands under a halt that has reached its lane, and is not the one that handles it. -/
def State.underHalt (s : State) (w : Warp) (t : Thread) : Bool :=
  !t.handler && ((Tab.find s.blocks w.block).bind Block.halt).any (fun h => h.reached.contains (w.core * Config.lanes + w.lane))

/-- The port a thread's clause goes to. A clause whose header cannot be read yet is fetched on the arithmetic port. -/
def portOf (h : Option Header) : Port := (h.map (fun h => h.cls.port)).getD .arith

/-- A thread as a candidate of a port, if it is one (R17). -/
def State.candOf (s : State) (l : Launch) (k : TKey) (w : Warp) (id : Nat) (port : Port) (t : Thread) : Option Cand :=
  if !(t.st == .ready || t.st == .paused) then none
  else
    let h := s.headerAt w.core l.xlat t.pos.pc
    let wait : BitVec 6 := if t.pos.word = 0 then (h.map Header.wait).getD 0 else 0
    if portOf h != port || !w.waitMet wait then none
    else
      let met := w.metAt wait
      let paused := t.st == .paused
      some { key := k, block := w.block, id := id, num := w.num, pos := t.pos, handler := t.handler, paused := paused,
             ready := t.ready, from_ := max t.candAt met, since := max t.since met, stop := !paused && s.underHalt w t }

/-- The candidates of a port, present and to come. -/
def State.cands (s : State) (core lane : Nat) (port : Port) : List Cand :=
  s.warps.flatMap (fun (e : Nat × Warp) =>
    if e.2.core = core && e.2.lane = lane then
      match Tab.find s.launches e.2.launch, Tab.find s.blocks e.2.block with
      | some l, some b =>
        if l.offAt core then []
        else (e.2.threads.zipIdx).filterMap (fun t => s.candOf l ⟨e.1, t.2⟩ e.2 b.id port t.1)
      | _, _ => []
    else [])

/-! ### The picker (R18) -/

/-- The first cycle at which an idle port may take a candidate. -/
def Cand.bound (c : Cand) : Nat := max c.ready (c.from_ + 1)

/-- The cycle of the first pass of the bundle that a port forms next, the port being free from `free`: in the cycle after the last
bundle's last slot when a candidate stands then, else in the cycle after a thread becomes one. -/
def startOf (free now : Nat) (cs : List Cand) : Option Nat :=
  match cs with
  | [] => none
  | c :: rest =>
    if cs.any (fun x => x.ready ≤ free && x.from_ ≤ free) then some (max free now)
    else some (max (rest.foldl (fun m x => min m x.bound) c.bound) (max free now))

/-- The candidates as they stand when a bundle begins at a cycle. -/
def standing (free start : Nat) (cs : List Cand) : List Cand :=
  cs.filter (fun x => x.ready ≤ start && (x.from_ < start || (x.from_ ≤ start && start = free)))

/-- The order of R18 among candidates; blocks of different launches with one identifier keep the order of their placing. -/
def Cand.rank (c : Cand) : List Nat := [c.id, c.num, c.key.slot, c.key.warp]

/-- Whether a list of numbers comes before another of its length. -/
def ranksBefore : List Nat → List Nat → Bool
  | x :: xs, y :: ys => decide (x < y) || (x == y && ranksBefore xs ys)
  | _, _ => false

/-- The candidate that comes first under a test of precedence. -/
def firstCand (before : Cand → Cand → Bool) : List Cand → Option Cand
  | [] => none
  | c :: rest => some (rest.foldl (fun m x => if before x m then x else m) c)

/-- Whether two candidates are of one group: a block and a program counter, in one clause place (R18, R267); a handler thread has a
bundle of its own (R311). -/
def Cand.mate (a b : Cand) : Bool := a.block == b.block && a.pos == b.pos && a.handler == b.handler

/-- How long an unpaused candidate has waited at a cycle. -/
def Cand.waited (c : Cand) (now : Nat) : Nat := if c.paused then 0 else now - c.since

/-- The group that a picker chooses at a cycle (R18 steps 2 and 3). -/
def choose (now : Nat) (cs : List Cand) : List Cand :=
  let cs := if cs.any (fun c => !c.paused) then cs.filter (fun c => !c.paused) else cs
  let aged := cs.filter (fun c => 1024 < c.waited now)
  let size := fun (c : Cand) => (cs.filter c.mate).length
  let pick := if aged.isEmpty then
      firstCand (fun x m => decide (size m < size x) || (size x == size m && ranksBefore x.rank m.rank)) cs
    else
      firstCand (fun x m => decide (m.waited now < x.waited now) || (x.waited now == m.waited now && ranksBefore x.rank m.rank)) aged
  match pick with
  | none => []
  | some c => cs.filter c.mate

/-- The threads of a bundle from the group chosen: the first 32 by warp number, then slot (R18 step 4). -/
def bundleOf (g : List Cand) : List TKey := ((sortBy (fun c => c.num * 32 + c.key.slot) g).take Config.warpThreads).map Cand.key

/-- A thread taken into a bundle: at a clause's start it has no latches (R35), and no pause of the clause before is left (R21). -/
def Thread.taken (t : Thread) : Thread :=
  { t with st := .issuing, pause := if t.pos.word = 0 then 0 else t.pause, lat := if t.pos.word = 0 then [] else t.lat }

/-- A bundle formed at a port from a chosen group, its clause still to be fetched. -/
def State.formBundle (s : State) (port start : Nat) (g : List Cand) : State :=
  match g with
  | [] => s
  | c :: _ =>
    let ks := bundleOf g
    let s := ks.foldl (fun s k => s.modThread k Thread.taken) s
    { s with
      uid := s.uid + 1
      bundles := Tab.put s.bundles port
        { id := s.uid, threads := ks, pc := c.pos.pc, hdr := Header.ofWord 0, words := [], pos := c.pos.word, next := s.nextFor start ks,
          fetched := false, walked := [], acted := [], acts := 0, failed := [] } }

/-! ### Fetch (R58, R60, R225) -/

/-- A pass over a bundle as the unit that fetches its clause sees it. -/
def State.fetchPass (s : State) (port : Nat) (b : Bundle) : Option Pass :=
  ({ s with cur := some { port := port, start := max b.next s.cycle, first := b.pos } } : State).pass

/-- Threads of a bundle that take a fault before any word issues, TPC naming the header; they leave the bundle. -/
def State.startFaults (s : State) (p : Pass) (fs : List (TKey × TrapInfo)) : State :=
  let hs := fs.map (fun e => (e.1, ((s.thread e.1).map Thread.handler).getD false))
  let s := fs.foldl (fun s e => s.modThread e.1 (fun t => t.recordTrap e.2 p.pc t.skid t.pos)) s
  let s := (s.modBundle p.port (fun b => { b with next := p.start })).keepIn p.port (fun k => !(fs.any (fun e => e.1 == k)))
  let s := hs.foldl (fun s e => s.raiseHalt e.1 e.2 p.start) s
  if ((Tab.find s.bundles p.port).map (fun b => b.threads.isEmpty)).getD false then s.endBundle p.port else s

/-- Every thread of a bundle with one fault at its clause's start. -/
def State.startFault (s : State) (p : Pass) (i : TrapInfo) : State := s.startFaults p (p.keys.map (fun k => (k, i)))

/-- A fetch that misses (R225): every thread of the bundle parks at the header, one entry of the fault buffer each, and a page
request of type fetch, or of a table read, goes out. -/
def State.parkFetch (s : State) (p : Pass) (l : Launch) (va : Dword) (s2 : Bool) (page : Nat) (table : Bool) : State :=
  let base := s.uid
  let mask := fun (w : Nat) => p.keys.foldl (fun (m : Word) k => if k.warp = w then m ||| BitVec.ofNat 32 (1 <<< k.slot) else m) 0
  let reqs := p.keys.zipIdx.map (fun e =>
    ({ id := base + e.2, launch := p.launch, gen := l.gen, core := p.core, lane := p.lane, word := base + e.2, tpc := p.pc, kind := .fetch,
       place := .global, va := va, xlat := l.xlat, tlb := none, pa := 0, pa2 := 0, attrs := Attrs.none, hint := .keep,
       acq := false, rel := false, ctr := 7, floor := 0,
       parts := [{ thread := e.1, dst := [], x := 0, cmp := 0, pre := none, access := 0, word := base + e.2, value := [] }], sdst := none,
       order := base + e.2, slice := 0, stage := .parked s2 page, due := s.cycle, stamp := 0, raise := none, ue := false, gone := false,
       issued := [((s.thread e.1).map Thread.issued).getD 0], killA := [[]], left := [] } : Req))
  let s : State := { s with uid := base + p.keys.length, reqs := s.reqs ++ reqs }
  let s := p.keys.foldl (fun s k => s.modThread k (fun t =>
    { t.settle with st := .parked, resume := t.pos, tmask := mask k.warp, trap := { t.trap with addr := va } })) s
  (s.modBundle p.port (fun b => { b with next := p.start })).endBundle p.port |>.pageRequest l.xlat p.core (if table then 6 else 3) s2 page

/-- What a fetch knows of one of its pages: it waits for a walk, it faults, it misses, or it has the page. -/
inductive PageFate where
  | wait
  | fault (i : TrapInfo)
  | miss (s2 : Bool) (page : Nat) (table : Bool)
  | ok (e : TlbEntry)
deriving DecidableEq, Repr

/-- The fate of a fetch at an address, from what its walk or the TLBs say. -/
def State.codeFate (s : State) (x : Xlat) (va : Dword) (w : Option WalkEnd) : PageFate :=
  match w with
  | none => .wait
  | some (.fatal s2) | some (.ue s2) => .fault (fatalAt s2 va)
  | some (.miss s2 page table) => if s.queueOff x s2 page then .fault (fatalAt s2 va) else .miss s2 page table
  | some (.ok e) => if e.attrs.exec then .ok e else .fault (TrapInfo.at_ .permission va)

/-- The code words read at an address through a translation. -/
def State.codeWords (s : State) (e : TlbEntry) (va n : Nat) : List Word :=
  (List.range n).map (fun i => BitVec.ofNat 32 (s.mem.nat (e.phys (va + 4 * i)) 4))

/-- The first poisoned line among code words read through a translation: every thread of the bundle takes MEM_UE at its clause's start
(DESIGN CHOICE, log 13: R194 does not name an instruction fetch). -/
def State.badCode (s : State) (e : TlbEntry) (va n : Nat) : Option Dword :=
  ((List.range n).find? (fun i => s.poison.contains (lineOf (e.phys (va + 4 * i))))).map (fun i => BitVec.ofNat 64 (va + 4 * i))

/-- A deferred error delivered at the start of a clause whose WAIT names its counter (R194). -/
def Thread.dueError (t : Thread) (wait : BitVec 6) : Option TrapInfo :=
  if t.pos.word ≠ 0 then none
  else (t.deferred.find? (fun d => decide (d.ctr < 6) && wait.getLsbD d.ctr)).map (fun d => d.fault t.issued)

/-- Threads of a bundle given back to the pickers as they came, with the bundle itself when none is left. -/
def State.giveBack (s : State) (p : Pass) (ks : List TKey) : State :=
  let s := ks.foldl (fun s k => s.modThread k (fun t => { t with st := .ready })) s
  if p.keys.all ks.contains then { s with bundles := Tab.drop s.bundles p.port, portFree := Tab.put s.portFree p.port p.start }
  else s.keepIn p.port (fun k => !ks.contains k)

/-- The threads of a bundle whose clause may not start yet: a counter that its WAIT names stands above zero (R17). -/
def State.unmet (s : State) (p : Pass) (h : Header) : List TKey :=
  if p.pos ≠ 0 then []
  else p.keys.filter (fun k => ((Tab.find s.warps k.warp).map (fun w => !w.waitMet h.wait)).getD false)

/-- A bundle with its clause in hand: the checks of the clause's structure, the errors due at its start, and the first word next. -/
def State.startClause (s : State) (p : Pass) (h : Header) (ws : List Word) : State :=
  let go := (p.keys.filter (fun k => !(s.unmet p h).contains k))
  if portKey (p.port / 3 / Config.lanes) (p.port / 3 % Config.lanes) h.cls.port ≠ p.port then s.giveBack p p.keys
  else if go.isEmpty then s.giveBack p p.keys
  else
    let s := (s.modBundle p.port (fun b => { b with next := p.start })).giveBack p (s.unmet p h)
    let p := { p with keys := go }
    match clauseReason h ws with
    | some r => s.startFault p (TrapInfo.of .illegalClause r)
    | none =>
      if h.n ≤ p.pos then
        let s := p.keys.foldl (fun s k => s.modThread k (fun t => { t with pos := ⟨p.pc + BitVec.ofNat 64 (4 * (h.n + 1)), 0⟩ })) s
        (s.modBundle p.port (fun b => { b with next := p.start })).endBundle p.port
      else
        let s := s.modBundle p.port (fun b => { b with fetched := true, hdr := h, words := ws, next := s.nextFor p.start b.threads, walked := [] })
        s.startFaults p (p.keys.filterMap (fun k => (((s.thread k).bind (fun t => t.dueError h.wait))).map (fun i => (k, i))))

/-- The fetch of a bundle's clause (R58): the header's page, then the page of its last word. What it does not know yet it waits for,
and those cycles are not slots. TADDR of a fault or miss on the page of the last word is that page's base, of MEM_UE the word's address
(DESIGN CHOICE, log 13: the spec names no address there). -/
def State.fetch (s : State) (p : Pass) (l : Launch) (b : Bundle) : State :=
  let pc := p.pc.toNat
  let look := s.lookPages p l.xlat [pc] true
  let held := fun (s : State) (k : List (Nat × Option WalkEnd)) => (s.keepPages p l.xlat k).holdPass p
  let free := fun (s : State) => s.dropWalks (((Tab.find s.bundles p.port).map Bundle.walked).getD b.walked) p.bundle
  let stop := fun (s : State) (k : List (Nat × Option WalkEnd)) (va : Dword) (f : PageFate) =>
    match f with
    | .miss s2 page tb =>
      if 256 < s.parkedOn p.core + p.keys.length then held s k else (free s).parkFetch p l va s2 page tb
    | .fault i => (free s).startFault p i
    | _ => held s k
  match s.codeFate l.xlat p.pc ((look.2.head?).bind (·.2)) with
  | .ok e =>
    match look.1.badCode e pc 1 with
    | some a => ((free look.1).countUe p.part).startFault p (TrapInfo.at_ .memUe a)
    | none =>
      let h := Header.ofWord ((look.1.codeWords e pc 1).headD 0)
      let last := pc + 4 * h.n
      let here := min h.n ((pageOf pc + 65536 - (pc + 4)) / 4)
      let ws := look.1.codeWords e (pc + 4) here
      let both := fun (s : State) (ws : List Word) (bad : Option Dword) =>
        match bad with
        | some a => ((free s).countUe p.part).startFault p (TrapInfo.at_ .memUe a)
        | none => (free s).startClause p h ws
      if pageOf last = pageOf pc then both look.1 ws (look.1.badCode e (pc + 4) here)
      else
        let look2 := look.1.lookPages p l.xlat [last] true
        let va := BitVec.ofNat 64 (pageOf last)
        match look2.1.codeFate l.xlat va ((look2.2.head?).bind (·.2)) with
        | .ok e2 =>
          let n2 := h.n - here
          both look2.1 (ws ++ look2.1.codeWords e2 (pageOf last) n2)
            ((look2.1.badCode e (pc + 4) here).orElse (fun _ => look2.1.badCode e2 (pageOf last) n2))
        | f => stop look2.1 (look.2 ++ look2.2) va f
  | f => stop look.1 look.2 p.pc f

/-- The fetch of the bundle that a port holds. -/
def State.fetchAt (s : State) (port : Nat) : State :=
  match Tab.find s.bundles port with
  | none => s
  | some b =>
    if b.fetched then s
    else
      let s := s.at_ b.next
      match s.fetchPass port b with
      | none => s
      | some p =>
        match Tab.find s.launches p.launch with
        | none => s
        | some l => s.fetch p l b

/-- PICKER_FORM_BUNDLE (R18): an idle port takes a group of its candidates and fetches their clause; a port whose bundle still waits
for its clause tries the fetch again. Candidates under a halt stop instead (R310). -/
def execPickerFormBundle (core lane : Nat) (port : Port) (s : State) : Host.Outcome State Fault Refusal :=
  .next (
    let k := portKey core lane port
    if (Tab.find s.bundles k).isSome then s.fetchAt k
    else
      let free := (Tab.find s.portFree k).getD 0
      let cs := s.cands core lane port
      match startOf free s.cycle cs with
      | none => s
      | some start =>
        let s := s.at_ start
        let now := standing free start cs
        let s := (now.filter Cand.stop).foldl (fun s c => s.modThread c.key Thread.halt) s
        (s.formBundle k start (choose start (now.filter (fun c => !c.stop)))).fetchAt k)

/-! ### A bundle's next word (R19, R67, R68, R80) -/

/-- The literal words that stand at a bundle's place. -/
def Bundle.lits (b : Bundle) : Nat := ((b.words.drop b.pos).takeWhile isLiteral).length

/-- The cycle in which a bundle's next word, or its fetch, begins: each literal of its run takes a pass of its own (R67). -/
def Bundle.due (b : Bundle) : Nat := b.next + b.lits * max b.threads.length 4

/-- What decode knows at a word of a bundle. -/
def State.decCtx (s : State) (b : Bundle) (l : Launch) (place : Nat) : DecCtx :=
  { cls := b.hdr.wordCls place, nsh := shiftsBefore b.hdr b.words place, priv := l.priv,
    handler := (b.threads.head?.bind s.thread).any Thread.handler, fmts := l.rcd.slots.map slotA }

/-- What a port does with its next word. -/
inductive Issue where
  | none
  | fetch (core lane : Nat) (port : Port)
  | word (s : State) (i : Instr)
  | reserved (s : State) (w : Word)
  | bad (s : State) (f : DecFault)
deriving DecidableEq, Repr

/-- The kind of a port from its number. -/
def portKind (k : Nat) : Port := match k % 3 with | 0 => .arith | 1 => .mem | _ => .ctl

/-- The next word of a port's bundle, with the state whose pass is the word's. A reserved word raises its fault through RESERVED_OPCODE. -/
def State.issue (s : State) (port : Nat) : Issue :=
  match Tab.find s.bundles port with
  | none => .none
  | some b =>
    if !b.fetched then .fetch (portCore port) (portLane port % Config.lanes) (portKind port)
    else
      match (b.threads.head?.bind (fun t => s.launchOf t.warp)), b.words[b.pos + b.lits]? with
      | some l, some w =>
        let place := b.pos + b.lits
        let run := runBefore b.words place
        let start := max b.due s.cycle
        let s : State := { s.modBundle port (fun x => { x with pos := place, next := start }) with
          cycle := start, cur := some { port := port, start := start, first := place - run.length } }
        match decodeWord (s.decCtx b l place) run w with
        | .ok i => .word s i
        | .error f => if f.cause = .reserved then .reserved s w else .bad s f
      | _, _ => .none

/-- RESERVED_OPCODE (R72, R80): every thread of the bundle faults at the word. -/
def execReservedOpcode (w : Word) (s : State) : Host.Outcome State Fault Refusal :=
  .next (s.decodeFault { cause := .reserved, info := w })

end Sys2Proof.Machine
end

