-- ==== Sys2Proof/Machine/Wide.lean ====
section
/-! DEFINITION. The WIDE class (spec/20 R333 to R342): binary64 arithmetic, 64-bit integers and addresses, single-operand
functions and conversions, FLAGS and RMODE. -/

namespace Sys2Proof.Machine

/-! ### Shapes of WIDE words -/

/-- A TRI word with 64-bit A and D. -/
def Tri.wide (t : Tri) (b : Src) (lat : Nat) (c : Src) (cfld : Nat) : VWord :=
  { h := t.h, am := t.am, a := .sel t.a 2, b := b, c := c, cfld := cfld, d := some (t.d, 2), pred := none, lat := lat,
    shifts := true }

/-- A binary64 operation on three operands. -/
def f64Op (m : Option Arith) (f : FEnv → Nat → Nat → Nat → Nat × FlagSet) : VOp := fun c a b x =>
  let r := f (c.env m) (dwordOf a).toNat (dwordOf b).toNat (dwordOf x).toNat
  (Dword.words (BitVec.ofNat 64 r.1), r.2)

/-- A 64-bit integer operation. -/
def longOp (f : Dword → Dword → Dword) : VOp := fun _ a b _ => (Dword.words (f (dwordOf a) (dwordOf b)), 0)

/-- A 64-bit integer operation that SAT clamps (R339). -/
def satOp64 (m : Option Arith) (f : Int → Int → Int) : VOp := fun _ a b _ =>
  let x := f (dwordOf a).toInt (dwordOf b).toInt
  (Dword.words (if (m.map Arith.sat).getD false then clampI64 x else BitVec.ofInt 64 x), 0)

/-- A function from a float of `n` words to an integer or float of one word. -/
def oneWord (m : Option Arith) (f : FEnv → Nat → Nat × FlagSet) : VOp := fun c a _ _ =>
  let r := f (c.env m) (wordsNat a)
  ([BitVec.ofNat 32 r.1], r.2)

/-- A function to two words. -/
def twoWords (m : Option Arith) (f : FEnv → Nat → Nat × FlagSet) : VOp := fun c a _ _ =>
  let r := f (c.env m) (wordsNat a)
  (Dword.words (BitVec.ofNat 64 r.1), r.2)

/-- a × 2^b (R336); beyond ±5,000 every result overflows or is below every subnormal. -/
def fpScale (v : FEnv) (a : Nat) (b : Int) : Nat × FlagSet :=
  match b64.read a with
  | .nan _ => (b64.pickNan [a], b64.snanFlag [a])
  | .inf _ => (a, 0)
  | .num s m e => if m = 0 then (a, 0) else b64.round v s m (e + (if b < -5000 then -5000 else if 5000 < b then 5000 else b)) false

/-- The exponent of a binary64 value as binary64 (R340). -/
def fpGetExp (a : Nat) : Nat × FlagSet :=
  match b64.read a with
  | .nan _ => (b64.pickNan [a], b64.snanFlag [a])
  | .inf _ => (b64.inf false, 0)
  | .num _ m e => if m = 0 then (b64.inf true, fDZ) else ((intToFp b64 .ne (e + (bitLen m : Int) - 1)).1, 0)

/-- The significand of a binary64 value in [1, 2) (R340). -/
def fpGetMant (a : Nat) : Nat × FlagSet :=
  match b64.read a with
  | .nan _ => (b64.pickNan [a], b64.snanFlag [a])
  | .inf _ => (b64.nan, fIV)
  | .num s m _ => if m = 0 then (a, 0) else b64.round FEnv.ne s m (1 - (bitLen m : Int)) false

/-! ### Binary64 arithmetic (R336 to R338) -/

/-- DADD (R336). -/
def execDadd (t : Tri) (s : State) : Host.Outcome State Fault Refusal :=
  .next (s.vector (Tri.wide t (bF64 t.b) 8 .none 2) (f64Op t.am (fun v a b _ => b64.add v a b)))

/-- DSUB. -/
def execDsub (t : Tri) (s : State) : Host.Outcome State Fault Refusal :=
  .next (s.vector (Tri.wide t (bF64 t.b) 8 .none 2) (f64Op t.am (fun v a b _ => b64.sub v a b)))

/-- DMUL. -/
def execDmul (t : Tri) (s : State) : Host.Outcome State Fault Refusal :=
  .next (s.vector (Tri.wide t (bF64 t.b) 8 .none 2) (f64Op t.am (fun v a b _ => b64.mul v a b)))

/-- DFMA: D is the addend. -/
def execDfma (t : Tri) (s : State) : Host.Outcome State Fault Refusal :=
  .next (s.vector (Tri.wide t (bF64 t.b) 8 (.sel t.d 2) 2) (f64Op t.am (fun v a b c => b64.fma v a b c)))

/-- DFMAL: l0 is the addend. -/
def execDfmal (t : Tri) (s : State) : Host.Outcome State Fault Refusal :=
  .next (s.vector (Tri.wide t (bF64 t.b) 8 (.sel (.l 0) 2) 3) (f64Op t.am (fun v a b c => b64.fma v a b c)))

/-- DDIV (R338). -/
def execDdiv (t : Tri) (s : State) : Host.Outcome State Fault Refusal :=
  .next (s.long (Tri.wide t (bF64 t.b) 44 .none 2) (f64Op t.am (fun v a b _ => b64.div v a b)))

/-- DMIN (R117). -/
def execDmin (t : Tri) (s : State) : Host.Outcome State Fault Refusal :=
  .next (s.vector (Tri.wide t (bF64 t.b) 8 .none 2) (f64Op t.am (fun _ a b _ => b64.minmax false false a b)))

/-- DMAX. -/
def execDmax (t : Tri) (s : State) : Host.Outcome State Fault Refusal :=
  .next (s.vector (Tri.wide t (bF64 t.b) 8 .none 2) (f64Op t.am (fun _ a b _ => b64.minmax false true a b)))

/-- DSETP (R337). -/
def execDsetp (t : Cmp) (s : State) : Host.Outcome State Fault Refusal :=
  .next (s.vector (Cmp.word t (bF64 t.b) 2) (fun _ a b _ =>
    let r := b64.cmp false t.cond (dwordOf a).toNat (dwordOf b).toNat
    ([bit32 r.1], r.2)))

/-- DSCALE: B is an i32. -/
def execDscale (t : Tri) (s : State) : Host.Outcome State Fault Refusal :=
  .next (s.vector (Tri.wide t (bI32 t.b) 8 .none 2) (fun c a b _ =>
    let r := fpScale (c.env t.am) (dwordOf a).toNat (w0 b).toInt
    (Dword.words (BitVec.ofNat 64 r.1), r.2)))

/-! ### 64-bit integers and addresses (R339) -/

/-- LADD. -/
def execLadd (t : Tri) (s : State) : Host.Outcome State Fault Refusal :=
  .next (s.vector (Tri.wide t (bI64 t.b) 4 .none 2) (satOp64 t.am (fun a b => a + b)))

/-- LSUB. -/
def execLsub (t : Tri) (s : State) : Host.Outcome State Fault Refusal :=
  .next (s.vector (Tri.wide t (bI64 t.b) 4 .none 2) (satOp64 t.am (fun a b => a - b)))

/-- LMUL. -/
def execLmul (t : Tri) (s : State) : Host.Outcome State Fault Refusal :=
  .next (s.vector (Tri.wide t (bI64 t.b) 8 .none 2) (satOp64 t.am (fun a b => a * b)))

/-- LMULH. -/
def execLmulh (t : Tri) (s : State) : Host.Outcome State Fault Refusal :=
  .next (s.vector (Tri.wide t (bI64 t.b) 8 .none 2) (longOp (fun a b => BitVec.ofInt 64 (a.toInt * b.toInt / 18446744073709551616))))

/-- LMULHN. -/
def execLmulhn (t : Tri) (s : State) : Host.Outcome State Fault Refusal :=
  .next (s.vector (Tri.wide t (bI64 t.b) 8 .none 2) (longOp (fun a b => BitVec.ofNat 64 (a.toNat * b.toNat / 18446744073709551616))))

/-- LAND. -/
def execLand (t : Tri) (s : State) : Host.Outcome State Fault Refusal :=
  .next (s.vector (Tri.wide t (bI64 t.b) 4 .none 2) (longOp (fun a b => a &&& b)))

/-- LOR. -/
def execLor (t : Tri) (s : State) : Host.Outcome State Fault Refusal :=
  .next (s.vector (Tri.wide t (bI64 t.b) 4 .none 2) (longOp (fun a b => a ||| b)))

/-- LXOR. -/
def execLxor (t : Tri) (s : State) : Host.Outcome State Fault Refusal :=
  .next (s.vector (Tri.wide t (bI64 t.b) 4 .none 2) (longOp (fun a b => a ^^^ b)))

/-- LSHL: the count is B mod 128. -/
def execLshl (t : Tri) (s : State) : Host.Outcome State Fault Refusal :=
  .next (s.vector (Tri.wide t (bI32 t.b) 4 .none 2) (longOp (fun a b => a <<< (b.toNat % 128))))

/-- LSHR: the count is B mod 128. -/
def execLshr (t : Tri) (s : State) : Host.Outcome State Fault Refusal :=
  .next (s.vector (Tri.wide t (bI32 t.b) 4 .none 2) (longOp (fun a b => a >>> (b.toNat % 128))))

/-- LSAR: the count is B mod 128. -/
def execLsar (t : Tri) (s : State) : Host.Outcome State Fault Refusal :=
  .next (s.vector (Tri.wide t (bI32 t.b) 4 .none 2) (longOp (fun a b => a.sshiftRight (b.toNat % 128))))

/-- LSETP. -/
def execLsetp (t : Cmp) (s : State) : Host.Outcome State Fault Refusal :=
  .next (s.vector (Cmp.word t (bI64 t.b) 2) (fun _ a b _ => ([bit32 (intCmp t.cond (dwordOf a) (dwordOf b))], 0)))

/-- LMIN. -/
def execLmin (t : Tri) (s : State) : Host.Outcome State Fault Refusal :=
  .next (s.vector (Tri.wide t (bI64 t.b) 4 .none 2) (longOp (fun a b => if a.slt b then a else b)))

/-- LMAX. -/
def execLmax (t : Tri) (s : State) : Host.Outcome State Fault Refusal :=
  .next (s.vector (Tri.wide t (bI64 t.b) 4 .none 2) (longOp (fun a b => if a.slt b then b else a)))

/-- LEA. -/
def execLea (t : Tri) (s : State) : Host.Outcome State Fault Refusal :=
  .next (s.vector (Tri.wide t (bOff t.b) 8 .none 2) (fun _ a b _ => (Dword.words (dwordOf a + offsetOf b), 0)))

/-- LEA4. -/
def execLea4 (t : Tri) (s : State) : Host.Outcome State Fault Refusal :=
  .next (s.vector (Tri.wide t (bOff t.b) 8 .none 2) (fun _ a b _ => (Dword.words (dwordOf a + offsetOf b <<< 2), 0)))

/-- LEA8. -/
def execLea8 (t : Tri) (s : State) : Host.Outcome State Fault Refusal :=
  .next (s.vector (Tri.wide t (bOff t.b) 8 .none 2) (fun _ a b _ => (Dword.words (dwordOf a + offsetOf b <<< 3), 0)))

/-- LMOV. -/
def execLmov (t : Duo) (s : State) : Host.Outcome State Fault Refusal :=
  .next (s.vector (Duo.word t 2 2 4) (longOp (fun a _ => a)))

/-! ### Single-operand functions and conversions (R340, R341) -/

/-- DNEG (R118). -/
def execDneg (t : Duo) (s : State) : Host.Outcome State Fault Refusal :=
  .next (s.vector (Duo.word t 2 2 4) (longOp (fun a _ => a ^^^ 0x8000000000000000)))

/-- DABS. -/
def execDabs (t : Duo) (s : State) : Host.Outcome State Fault Refusal :=
  .next (s.vector (Duo.word t 2 2 4) (longOp (fun a _ => a &&& 0x7FFFFFFFFFFFFFFF)))

/-- DSQRT (R338). -/
def execDsqrt (t : Duo) (s : State) : Host.Outcome State Fault Refusal :=
  .next (s.long (Duo.word t 2 2 40) (twoWords t.am (fun v a => b64.sqrt v a)))

/-- DCLASS. -/
def execDclass (t : Duo) (s : State) : Host.Outcome State Fault Refusal :=
  .next (s.vector (Duo.word t 2 1 4) (oneWord t.am (fun _ a => (b64.classify false a, 0))))

/-- DRINT. -/
def execDrint (t : Duo) (s : State) : Host.Outcome State Fault Refusal :=
  .next (s.vector (Duo.word t 2 2 8) (twoWords t.am (fun v a => b64.rint v a)))

/-- DGETEXP. -/
def execDgetexp (t : Duo) (s : State) : Host.Outcome State Fault Refusal :=
  .next (s.vector (Duo.word t 2 2 8) (twoWords t.am (fun _ a => fpGetExp a)))

/-- DGETMANT. -/
def execDgetmant (t : Duo) (s : State) : Host.Outcome State Fault Refusal :=
  .next (s.vector (Duo.word t 2 2 8) (twoWords t.am (fun _ a => fpGetMant a)))

/-- LNEG. -/
def execLneg (t : Duo) (s : State) : Host.Outcome State Fault Refusal :=
  .next (s.vector (Duo.word t 2 2 4) (satOp64 t.am (fun a _ => -a)))

/-- LPOPC. -/
def execLpopc (t : Duo) (s : State) : Host.Outcome State Fault Refusal :=
  .next (s.vector (Duo.word t 2 1 4) (oneWord t.am (fun _ a => (popCount a 64, 0))))

/-- LCLZ. -/
def execLclz (t : Duo) (s : State) : Host.Outcome State Fault Refusal :=
  .next (s.vector (Duo.word t 2 1 4) (oneWord t.am (fun _ a => (64 - bitLen a, 0))))

/-- CVT.F64.F32. -/
def execCvtF64F32 (t : Duo) (s : State) : Host.Outcome State Fault Refusal :=
  .next (s.vector (Duo.word t 1 2 8) (twoWords t.am (fun v a => fpConv b32 b64 v a)))

/-- CVT.F32.F64. -/
def execCvtF32F64 (t : Duo) (s : State) : Host.Outcome State Fault Refusal :=
  .next (s.vector (Duo.word t 2 1 8) (oneWord t.am (fun v a => fpConv b64 b32 v a)))

/-- CVT.F64.I32. -/
def execCvtF64I32 (t : Duo) (s : State) : Host.Outcome State Fault Refusal :=
  .next (s.vector (Duo.word t 1 2 8) (twoWords t.am (fun v a => intToFp b64 v.rm (BitVec.ofNat 32 a).toInt)))

/-- CVT.F64.N32. -/
def execCvtF64N32 (t : Duo) (s : State) : Host.Outcome State Fault Refusal :=
  .next (s.vector (Duo.word t 1 2 8) (twoWords t.am (fun v a => intToFp b64 v.rm a)))

/-- CVT.F64.I64. -/
def execCvtF64I64 (t : Duo) (s : State) : Host.Outcome State Fault Refusal :=
  .next (s.vector (Duo.word t 2 2 8) (twoWords t.am (fun v a => intToFp b64 v.rm (BitVec.ofNat 64 a).toInt)))

/-- CVT.F64.N64. -/
def execCvtF64N64 (t : Duo) (s : State) : Host.Outcome State Fault Refusal :=
  .next (s.vector (Duo.word t 2 2 8) (twoWords t.am (fun v a => intToFp b64 v.rm a)))

/-- CVT.I32.F64. -/
def execCvtI32F64 (t : Duo) (s : State) : Host.Outcome State Fault Refusal :=
  .next (s.vector (Duo.word t 2 1 8) (oneWord t.am (fun v a => fpToInt b64 v true 32 a)))

/-- CVT.N32.F64. -/
def execCvtN32F64 (t : Duo) (s : State) : Host.Outcome State Fault Refusal :=
  .next (s.vector (Duo.word t 2 1 8) (oneWord t.am (fun v a => fpToInt b64 v false 32 a)))

/-- CVT.I64.F64. -/
def execCvtI64F64 (t : Duo) (s : State) : Host.Outcome State Fault Refusal :=
  .next (s.vector (Duo.word t 2 2 8) (twoWords t.am (fun v a => fpToInt b64 v true 64 a)))

/-- CVT.N64.F64. -/
def execCvtN64F64 (t : Duo) (s : State) : Host.Outcome State Fault Refusal :=
  .next (s.vector (Duo.word t 2 2 8) (twoWords t.am (fun v a => fpToInt b64 v false 64 a)))

/-- CVT.I64.I32. -/
def execCvtI64I32 (t : Duo) (s : State) : Host.Outcome State Fault Refusal :=
  .next (s.vector (Duo.word t 1 2 8) (twoWords t.am (fun _ a => (((BitVec.ofNat 32 a).signExtend 64).toNat, 0))))

/-- CVT.N64.N32. -/
def execCvtN64N32 (t : Duo) (s : State) : Host.Outcome State Fault Refusal :=
  .next (s.vector (Duo.word t 1 2 8) (twoWords t.am (fun _ a => (a, 0))))

/-! ### FLAGS and RMODE (R342) -/

/-- An FXOP function, which sees the flags of every long result due by the thread's slot: guard and destination, `f` giving the
thread after the function's effect, and the value delivered. -/
def State.fxop (s : State) (h : Hd) (am : Option Arith) (d : Sel) (f : Thread → Thread × Word) : State :=
  let v : VWord := { h := h, am := am, a := .none, b := .none, c := .none, cfld := 2, d := some (d, 1), pred := none, lat := 4,
                     shifts := true }
  (s.mergeFlags []).lockstep [] none (fun cs => cs.map (fun c => (c,
    match c.guard h.guard with
    | .error e => .fault e
    | .ok false => .skip (c.skipped v)
    | .ok true =>
      let r := f c.th
      TCtx.commit { c with th := r.1 } v [r.2] 0 (c.slot + 4))))

/-- RDFX. -/
def execRdfx (t : FxD) (s : State) : Host.Outcome State Fault Refusal :=
  .next (s.fxop t.h t.am t.d (fun u => (u, u.flags.setWidth 32)))

/-- CLRFX. -/
def execClrfx (t : FxM) (s : State) : Host.Outcome State Fault Refusal :=
  .next (s.fxop t.h t.am t.d (fun u =>
    ({ u with flags := u.flags &&& ~~~ t.mask }, (u.flags &&& ~~~ t.mask).setWidth 32)))

/-- SETFX. -/
def execSetfx (t : FxM) (s : State) : Host.Outcome State Fault Refusal :=
  .next (s.fxop t.h t.am t.d (fun u => ({ u with flags := u.flags ||| t.mask }, (u.flags ||| t.mask).setWidth 32)))

/-- RDRM. -/
def execRdrm (t : FxD) (s : State) : Host.Outcome State Fault Refusal :=
  .next (s.fxop t.h t.am t.d (fun u => (u, u.rmode.setWidth 32)))

/-- SETRM. -/
def execSetrm (t : FxR) (s : State) : Host.Outcome State Fault Refusal :=
  .next (s.fxop t.h t.am t.d (fun u => ({ u with rmode := t.rm.bits }, t.rm.bits.setWidth 32)))

end Sys2Proof.Machine
end

