-- ==== Sys2Proof/Machine/Pkd.lean ====
section
/-! DEFINITION. The PKD class (spec/20 R343 to R346): packed floating-point and integer arithmetic, dot products and the packed
conversions. -/

namespace Sys2Proof.Machine

/-! ### Elements (R343) -/

/-- The elements of a packed operand: words of an F2 pair, or halves of a word. -/
def halves16 (x : Word) : List Nat := [natBits x.toNat 0 16, natBits x.toNat 16 16]

/-- Two 16-bit elements as a word. -/
def pack16 (l : List Nat) : Word := BitVec.ofNat 32 (l.headD 0 % 65536 + 65536 * (l.tail.headD 0 % 65536))

/-- The four bytes of a word. -/
def bytesOf (x : Word) : List Nat := (List.range 4).map (fun i => natBits x.toNat (8 * i) 8)

/-- Four 8-bit elements as a word. -/
def pack8 (l : List Nat) : Word := BitVec.ofNat 32 (l.foldr (fun x acc => x % 256 + 256 * acc) 0)

/-- The OR of the flags of a word's elements (R107). -/
def orFlags (l : List (Nat × FlagSet)) : FlagSet := l.foldl (fun f r => f ||| r.2) 0

/-- Three lists walked together. -/
def zip3With (f : Nat → Nat → Nat → α) : List Nat → List Nat → List Nat → List α
  | a :: as, b :: bs, c :: cs => f a b c :: zip3With f as bs cs
  | _, _, _ => []

/-- A packed word on operands of `n` words, the addend in D when `readsD`. -/
def PTri.word (t : PTri) (n : Nat) (readsD : Bool) (m lat : Nat) : VWord :=
  { h := t.h, am := t.am, a := .sel t.a n, b := .sel t.b n, c := if readsD then .sel t.d m else .none, cfld := 2,
    d := some (t.d, m), pred := none, lat := lat, shifts := true }

/-- An F2 operation, element by element. -/
def pairOp (m : Option Arith) (f : FEnv → Nat → Nat → Nat → Nat × FlagSet) : VOp := fun c a b x =>
  let els := fun (l : List Word) => [(w0 l).toNat, (w0 l.tail).toNat]
  let rs := zip3With (f (c.env m)) (els a) (els b) (els x)
  (rs.map (fun r => BitVec.ofNat 32 r.1), orFlags rs)

/-- An H2 or B2 operation, element by element. -/
def halfOp (m : Option Arith) (f : FEnv → Nat → Nat → Nat → Nat × FlagSet) : VOp := fun c a b x =>
  let rs := zip3With (f (c.env m)) (halves16 (w0 a)) (halves16 (w0 b)) (halves16 (w0 x))
  ([pack16 (rs.map (·.1))], orFlags rs)

/-! ### Dot products (R345) -/

/-- A value's sign, significand and exponent; only numbers are asked. -/
def Fp.parts : Fp → Bool × Nat × Int
  | .num s m e => (s, m, e)
  | _ => (false, 0, 0)

/-- Whether a product is 0 × ∞. -/
def badProduct (a b : Fp) : Bool :=
  match a, b with
  | .inf _, .num _ m _ | .num _ m _, .inf _ => m == 0
  | _, _ => false

/-- The infinity of a product, if it is one. -/
def infProduct (a b : Fp) (sa sb : Bool) : Option Bool :=
  match a, b with
  | .inf _, _ | _, .inf _ => some (sa != sb)
  | _, _ => none

/-- a0 × b0 + a1 × b1 + d, the products exact and one rounding to binary32 (R345). -/
def fpDot2 (f : FFmt) (v : FEnv) (a b : List Nat) (d0 : Nat) : Nat × FlagSet :=
  let a := a.map (f.flushIn v.ftz)
  let b := b.map (f.flushIn v.ftz)
  let d := b32.flushIn v.ftz d0
  let ra := a.map f.read
  let rb := b.map f.read
  let rd := b32.read d
  let snan := ra.any Fp.isSnan || rb.any Fp.isSnan || rd.isSnan
  let bad := ((ra.zip rb).any (fun x => badProduct x.1 x.2))
  let wide := ((a ++ b).filter (fun x => (f.read x).isNan)).map (fun x => convNan f b32 x)
  let nans := wide ++ (if rd.isNan then [b32.quiet d] else [])
  match nans with
  | x :: _ => (x, if snan || bad then fIV else 0)
  | [] =>
    if bad then (b32.nan, fIV)
    else
      let infs := ((ra.zip rb).zip (a.zip b)).filterMap (fun x => infProduct x.1.1 x.1.2 (f.sign x.2.1) (f.sign x.2.2))
        ++ (match rd with | .inf s => [s] | _ => [])
      match infs with
      | s :: rest => if rest.all (· == s) then (b32.inf s, 0) else (b32.nan, fIV)
      | [] =>
        let terms := ((ra.zip rb).map (fun x =>
          let p := x.1.parts
          let q := x.2.parts
          (p.1 != q.1, p.2.1 * q.2.1, p.2.2 + q.2.2))) ++ [rd.parts]
        let sum := terms.foldl (fun (acc : Bool × Nat × Int) x => addExact acc.1 acc.2.1 acc.2.2 x.1 x.2.1 x.2.2) (false, 0, 0)
        if sum.2.1 = 0 then
          (b32.zero (if terms.all (fun x => x.2.1 == 0) && terms.all (fun x => x.1 == (terms.headD (false, 0, 0)).1)
            then (terms.headD (false, 0, 0)).1 else v.rm == .dn), 0)
        else b32.round v sum.1 sum.2.1 sum.2.2 false

/-- A float dot product of binary16 or BF16 halves. -/
def dot2Op (m : Option Arith) (f : FFmt) : VOp := fun c a b x =>
  let r := fpDot2 f (c.env m) (halves16 (w0 a)) (halves16 (w0 b)) (w0 x).toNat
  ([BitVec.ofNat 32 r.1], r.2)

/-- A sum of four byte products and d. -/
def dot4 (ext : Nat → Int) (d : Int) (a b : Word) : Int :=
  (((bytesOf a).zip (bytesOf b)).map (fun x => ext x.1 * ext x.2)).foldl (· + ·) d

/-- A byte as a signed number. -/
def sext8 (x : Nat) : Int := if 128 ≤ x then (x : Int) - 256 else x

/-- A half as a signed number. -/
def sext16 (x : Nat) : Int := if 32768 ≤ x then (x : Int) - 65536 else x

/-- A 16-bit element operation that SAT clamps. -/
def i16Op (m : Option Arith) (f : Int → Int → Int) : VOp := fun _ a b _ =>
  let el := fun (x y : Nat) =>
    let r := f (sext16 x) (sext16 y)
    let r := if (m.map Arith.sat).getD false then (if r < -32768 then -32768 else if 32767 < r then 32767 else r) else r
    (r % 65536).toNat
  ([pack16 (((halves16 (w0 a)).zip (halves16 (w0 b))).map (fun x => el x.1 x.2))], 0)

/-! ### The words -/
/-- PADD.F2 (R344). -/
def execPaddF2 (t : PTri) (s : State) : Host.Outcome State Fault Refusal :=
  .next (s.vector (PTri.word t 2 false 2 6) (pairOp t.am (fun v a b _ => b32.add v a b)))

/-- PADD.H2 (R344). -/
def execPaddH2 (t : PTri) (s : State) : Host.Outcome State Fault Refusal :=
  .next (s.vector (PTri.word t 1 false 1 6) (halfOp t.am (fun v a b _ => b16.add v a b)))

/-- PADD.B2 (R344). -/
def execPaddB2 (t : PTri) (s : State) : Host.Outcome State Fault Refusal :=
  .next (s.vector (PTri.word t 1 false 1 6) (halfOp t.am (fun v a b _ => bf16.add v a b)))

/-- PMUL.F2 (R344). -/
def execPmulF2 (t : PTri) (s : State) : Host.Outcome State Fault Refusal :=
  .next (s.vector (PTri.word t 2 false 2 6) (pairOp t.am (fun v a b _ => b32.mul v a b)))

/-- PMUL.H2 (R344). -/
def execPmulH2 (t : PTri) (s : State) : Host.Outcome State Fault Refusal :=
  .next (s.vector (PTri.word t 1 false 1 6) (halfOp t.am (fun v a b _ => b16.mul v a b)))

/-- PMUL.B2 (R344). -/
def execPmulB2 (t : PTri) (s : State) : Host.Outcome State Fault Refusal :=
  .next (s.vector (PTri.word t 1 false 1 6) (halfOp t.am (fun v a b _ => bf16.mul v a b)))

/-- PFMA.F2 (R344). -/
def execPfmaF2 (t : PTri) (s : State) : Host.Outcome State Fault Refusal :=
  .next (s.vector (PTri.word t 2 true 2 6) (pairOp t.am (fun v a b c => b32.fma v a b c)))

/-- PFMA.H2 (R344). -/
def execPfmaH2 (t : PTri) (s : State) : Host.Outcome State Fault Refusal :=
  .next (s.vector (PTri.word t 1 true 1 6) (halfOp t.am (fun v a b c => b16.fma v a b c)))

/-- PFMA.B2 (R344). -/
def execPfmaB2 (t : PTri) (s : State) : Host.Outcome State Fault Refusal :=
  .next (s.vector (PTri.word t 1 true 1 6) (halfOp t.am (fun v a b c => bf16.fma v a b c)))

/-- PMIN.H2. -/
def execPminH2 (t : PTri) (s : State) : Host.Outcome State Fault Refusal :=
  .next (s.vector (PTri.word t 1 false 1 6) (halfOp t.am (fun v a b _ => b16.minmax v.ftz false a b)))

/-- PMIN.B2. -/
def execPminB2 (t : PTri) (s : State) : Host.Outcome State Fault Refusal :=
  .next (s.vector (PTri.word t 1 false 1 6) (halfOp t.am (fun _ a b _ => bf16.minmax false false a b)))

/-- PMAX.H2. -/
def execPmaxH2 (t : PTri) (s : State) : Host.Outcome State Fault Refusal :=
  .next (s.vector (PTri.word t 1 false 1 6) (halfOp t.am (fun v a b _ => b16.minmax v.ftz true a b)))

/-- PMAX.B2. -/
def execPmaxB2 (t : PTri) (s : State) : Host.Outcome State Fault Refusal :=
  .next (s.vector (PTri.word t 1 false 1 6) (halfOp t.am (fun _ a b _ => bf16.minmax false true a b)))

/-- PDOT2.H (R345). -/
def execPdot2H (t : PTri) (s : State) : Host.Outcome State Fault Refusal :=
  .next (s.vector (PTri.word t 1 true 1 8) (dot2Op t.am b16))

/-- PDOT2.B. -/
def execPdot2B (t : PTri) (s : State) : Host.Outcome State Fault Refusal :=
  .next (s.vector (PTri.word t 1 true 1 8) (dot2Op t.am bf16))

/-- PDOT4.I8. -/
def execPdot4I8 (t : PTri) (s : State) : Host.Outcome State Fault Refusal :=
  .next (s.vector (PTri.word t 1 true 1 8) (fun _ a b c =>
    let x := dot4 sext8 (w0 c).toInt (w0 a) (w0 b)
    ([if (t.am.map Arith.sat).getD false then clampI32 x else BitVec.ofInt 32 x], 0)))

/-- PDOT4.N8: under SAT the sum is clamped to 2^32 - 1. -/
def execPdot4N8 (t : PTri) (s : State) : Host.Outcome State Fault Refusal :=
  .next (s.vector (PTri.word t 1 true 1 8) (fun _ a b c =>
    let x := dot4 (fun y => (y : Int)) (w0 c).toNat (w0 a) (w0 b)
    ([if (t.am.map Arith.sat).getD false && decide (4294967295 < x) then 0xFFFFFFFF else BitVec.ofInt 32 x], 0)))

/-- PADD.I16. -/
def execPaddI16 (t : PTri) (s : State) : Host.Outcome State Fault Refusal :=
  .next (s.vector (PTri.word t 1 false 1 6) (i16Op t.am (fun a b => a + b)))

/-- PSUB.I16. -/
def execPsubI16 (t : PTri) (s : State) : Host.Outcome State Fault Refusal :=
  .next (s.vector (PTri.word t 1 false 1 6) (i16Op t.am (fun a b => a - b)))

/-! ### Packed conversions (R346) -/

/-- An F2 pair narrowed to halves. -/
def narrowOp (m : Option Arith) (f : FFmt) : VOp := fun c a _ _ =>
  let rs := [w0 a, w0 a.tail].map (fun x => fpConvF b32 f (c.env m) x.toNat)
  ([pack16 (rs.map (·.1))], orFlags rs)

/-- Halves widened to an F2 pair. -/
def widenOp (m : Option Arith) (f : FFmt) : VOp := fun c a _ _ =>
  let rs := (halves16 (w0 a)).map (fun x => fpConvF f b32 (c.env m) x)
  (rs.map (fun r => BitVec.ofNat 32 r.1), orFlags rs)

/-- F2TOH2. -/
def execF2toh2 (t : Duo) (s : State) : Host.Outcome State Fault Refusal :=
  .next (s.vector (Duo.word t 2 1 6) (narrowOp t.am b16))

/-- F2TOB2. -/
def execF2tob2 (t : Duo) (s : State) : Host.Outcome State Fault Refusal :=
  .next (s.vector (Duo.word t 2 1 6) (narrowOp t.am bf16))

/-- H2TOF2. -/
def execH2tof2 (t : Duo) (s : State) : Host.Outcome State Fault Refusal :=
  .next (s.vector (Duo.word t 1 2 6) (widenOp t.am b16))

/-- B2TOF2. -/
def execB2tof2 (t : Duo) (s : State) : Host.Outcome State Fault Refusal :=
  .next (s.vector (Duo.word t 1 2 6) (widenOp t.am bf16))

/-- QUANT4: element i of the quad goes to byte i. -/
def execQuant4 (t : SlotW) (s : State) : Host.Outcome State Fault Refusal :=
  .next (s.vector (SlotW.word t 4 1 8) (fun c a _ _ =>
    let x := c.fslot t.s
    let rs := a.map (fun y => toSlot b32 (slotA x) (slotEnv x) y.toNat)
    ([pack8 (rs.map (·.1))], orFlags rs)))

/-- DEQ4: byte i goes to element i; l0 takes elements 0 and 1 (R346). -/
def execDeq4 (t : SlotW) (s : State) : Host.Outcome State Fault Refusal :=
  .next (s.vector (SlotW.word t 1 4 8) (fun c a _ _ =>
    let rs := (bytesOf (w0 a)).map (fun y => fromSlot b32 (slotA (c.fslot t.s)) y)
    (rs.map (fun r => BitVec.ofNat 32 r.1), orFlags rs)))

end Sys2Proof.Machine
end

