-- ==== Sys2Proof/Machine/Dispatch.lean ====
section
/-! DEFINITION. The dispatch: one arm for each constructor of Instr, each a direct call of its meaning. -/

namespace Sys2Proof.Machine

/-- The meaning of an instruction word or of an event of the device. -/
def exec (i : Instr) (s : State) : Host.Outcome State Fault Refusal :=
  match i with
  | .iadd t => Sys2Proof.Machine.execIadd t s
  | .isub t => Sys2Proof.Machine.execIsub t s
  | .imul t => Sys2Proof.Machine.execImul t s
  | .imad t => Sys2Proof.Machine.execImad t s
  | .imulh t => Sys2Proof.Machine.execImulh t s
  | .imulhn t => Sys2Proof.Machine.execImulhn t s
  | .and t => Sys2Proof.Machine.execAnd t s
  | .or t => Sys2Proof.Machine.execOr t s
  | .xor t => Sys2Proof.Machine.execXor t s
  | .andn t => Sys2Proof.Machine.execAndn t s
  | .shl t => Sys2Proof.Machine.execShl t s
  | .shr t => Sys2Proof.Machine.execShr t s
  | .sar t => Sys2Proof.Machine.execSar t s
  | .fdiv t => Sys2Proof.Machine.execFdiv t s
  | .imin t => Sys2Proof.Machine.execImin t s
  | .imax t => Sys2Proof.Machine.execImax t s
  | .nmin t => Sys2Proof.Machine.execNmin t s
  | .nmax t => Sys2Proof.Machine.execNmax t s
  | .isetp t => Sys2Proof.Machine.execIsetp t s
  | .sel t => Sys2Proof.Machine.execSel t s
  | .mov t => Sys2Proof.Machine.execMov t s
  | .movi t => Sys2Proof.Machine.execMovi t s
  | .shfl t => Sys2Proof.Machine.execShfl t s
  | .voteAny t => Sys2Proof.Machine.execVoteAny t s
  | .voteAll t => Sys2Proof.Machine.execVoteAll t s
  | .voteBallot t => Sys2Proof.Machine.execVoteBallot t s
  | .fadd t => Sys2Proof.Machine.execFadd t s
  | .fmul t => Sys2Proof.Machine.execFmul t s
  | .ffma t => Sys2Proof.Machine.execFfma t s
  | .ffmal t => Sys2Proof.Machine.execFfmal t s
  | .fmin t => Sys2Proof.Machine.execFmin t s
  | .fmax t => Sys2Proof.Machine.execFmax t s
  | .fsetp t => Sys2Proof.Machine.execFsetp t s
  | .ineg t => Sys2Proof.Machine.execIneg t s
  | .iabs t => Sys2Proof.Machine.execIabs t s
  | .not t => Sys2Proof.Machine.execNot t s
  | .popc t => Sys2Proof.Machine.execPopc t s
  | .clz t => Sys2Proof.Machine.execClz t s
  | .brev t => Sys2Proof.Machine.execBrev t s
  | .bswap t => Sys2Proof.Machine.execBswap t s
  | .fneg t => Sys2Proof.Machine.execFneg t s
  | .fabs t => Sys2Proof.Machine.execFabs t s
  | .frcp t => Sys2Proof.Machine.execFrcp t s
  | .fsqrt t => Sys2Proof.Machine.execFsqrt t s
  | .frsq t => Sys2Proof.Machine.execFrsq t s
  | .fex2 t => Sys2Proof.Machine.execFex2 t s
  | .flg2 t => Sys2Proof.Machine.execFlg2 t s
  | .fsin t => Sys2Proof.Machine.execFsin t s
  | .fcos t => Sys2Proof.Machine.execFcos t s
  | .fclass t => Sys2Proof.Machine.execFclass t s
  | .frint t => Sys2Proof.Machine.execFrint t s
  | .cvtF32I32 t => Sys2Proof.Machine.execCvtF32I32 t s
  | .cvtF32N32 t => Sys2Proof.Machine.execCvtF32N32 t s
  | .cvtI32F32 t => Sys2Proof.Machine.execCvtI32F32 t s
  | .cvtN32F32 t => Sys2Proof.Machine.execCvtN32F32 t s
  | .cvtF16F32 t => Sys2Proof.Machine.execCvtF16F32 t s
  | .cvtF32F16 t => Sys2Proof.Machine.execCvtF32F16 t s
  | .cvtBf16F32 t => Sys2Proof.Machine.execCvtBf16F32 t s
  | .cvtF32Bf16 t => Sys2Proof.Machine.execCvtF32Bf16 t s
  | .cvtI32I8 t => Sys2Proof.Machine.execCvtI32I8 t s
  | .cvtI32I16 t => Sys2Proof.Machine.execCvtI32I16 t s
  | .quant t => Sys2Proof.Machine.execQuant t s
  | .deq t => Sys2Proof.Machine.execDeq t s
  | .dadd t => Sys2Proof.Machine.execDadd t s
  | .dsub t => Sys2Proof.Machine.execDsub t s
  | .dmul t => Sys2Proof.Machine.execDmul t s
  | .dfma t => Sys2Proof.Machine.execDfma t s
  | .dfmal t => Sys2Proof.Machine.execDfmal t s
  | .ddiv t => Sys2Proof.Machine.execDdiv t s
  | .dmin t => Sys2Proof.Machine.execDmin t s
  | .dmax t => Sys2Proof.Machine.execDmax t s
  | .dsetp t => Sys2Proof.Machine.execDsetp t s
  | .dscale t => Sys2Proof.Machine.execDscale t s
  | .ladd t => Sys2Proof.Machine.execLadd t s
  | .lsub t => Sys2Proof.Machine.execLsub t s
  | .lmul t => Sys2Proof.Machine.execLmul t s
  | .lmulh t => Sys2Proof.Machine.execLmulh t s
  | .lmulhn t => Sys2Proof.Machine.execLmulhn t s
  | .land t => Sys2Proof.Machine.execLand t s
  | .lor t => Sys2Proof.Machine.execLor t s
  | .lxor t => Sys2Proof.Machine.execLxor t s
  | .lshl t => Sys2Proof.Machine.execLshl t s
  | .lshr t => Sys2Proof.Machine.execLshr t s
  | .lsar t => Sys2Proof.Machine.execLsar t s
  | .lsetp t => Sys2Proof.Machine.execLsetp t s
  | .lmin t => Sys2Proof.Machine.execLmin t s
  | .lmax t => Sys2Proof.Machine.execLmax t s
  | .lea t => Sys2Proof.Machine.execLea t s
  | .lea4 t => Sys2Proof.Machine.execLea4 t s
  | .lea8 t => Sys2Proof.Machine.execLea8 t s
  | .lmov t => Sys2Proof.Machine.execLmov t s
  | .dneg t => Sys2Proof.Machine.execDneg t s
  | .dabs t => Sys2Proof.Machine.execDabs t s
  | .dsqrt t => Sys2Proof.Machine.execDsqrt t s
  | .dclass t => Sys2Proof.Machine.execDclass t s
  | .drint t => Sys2Proof.Machine.execDrint t s
  | .dgetexp t => Sys2Proof.Machine.execDgetexp t s
  | .dgetmant t => Sys2Proof.Machine.execDgetmant t s
  | .lneg t => Sys2Proof.Machine.execLneg t s
  | .lpopc t => Sys2Proof.Machine.execLpopc t s
  | .lclz t => Sys2Proof.Machine.execLclz t s
  | .cvtF64F32 t => Sys2Proof.Machine.execCvtF64F32 t s
  | .cvtF32F64 t => Sys2Proof.Machine.execCvtF32F64 t s
  | .cvtF64I32 t => Sys2Proof.Machine.execCvtF64I32 t s
  | .cvtF64N32 t => Sys2Proof.Machine.execCvtF64N32 t s
  | .cvtF64I64 t => Sys2Proof.Machine.execCvtF64I64 t s
  | .cvtF64N64 t => Sys2Proof.Machine.execCvtF64N64 t s
  | .cvtI32F64 t => Sys2Proof.Machine.execCvtI32F64 t s
  | .cvtN32F64 t => Sys2Proof.Machine.execCvtN32F64 t s
  | .cvtI64F64 t => Sys2Proof.Machine.execCvtI64F64 t s
  | .cvtN64F64 t => Sys2Proof.Machine.execCvtN64F64 t s
  | .cvtI64I32 t => Sys2Proof.Machine.execCvtI64I32 t s
  | .cvtN64N32 t => Sys2Proof.Machine.execCvtN64N32 t s
  | .rdfx t => Sys2Proof.Machine.execRdfx t s
  | .clrfx t => Sys2Proof.Machine.execClrfx t s
  | .setfx t => Sys2Proof.Machine.execSetfx t s
  | .rdrm t => Sys2Proof.Machine.execRdrm t s
  | .setrm t => Sys2Proof.Machine.execSetrm t s
  | .paddF2 t => Sys2Proof.Machine.execPaddF2 t s
  | .pmulF2 t => Sys2Proof.Machine.execPmulF2 t s
  | .pfmaF2 t => Sys2Proof.Machine.execPfmaF2 t s
  | .paddH2 t => Sys2Proof.Machine.execPaddH2 t s
  | .pmulH2 t => Sys2Proof.Machine.execPmulH2 t s
  | .pfmaH2 t => Sys2Proof.Machine.execPfmaH2 t s
  | .paddB2 t => Sys2Proof.Machine.execPaddB2 t s
  | .pmulB2 t => Sys2Proof.Machine.execPmulB2 t s
  | .pfmaB2 t => Sys2Proof.Machine.execPfmaB2 t s
  | .pminH2 t => Sys2Proof.Machine.execPminH2 t s
  | .pmaxH2 t => Sys2Proof.Machine.execPmaxH2 t s
  | .pminB2 t => Sys2Proof.Machine.execPminB2 t s
  | .pmaxB2 t => Sys2Proof.Machine.execPmaxB2 t s
  | .pdot2H t => Sys2Proof.Machine.execPdot2H t s
  | .pdot2B t => Sys2Proof.Machine.execPdot2B t s
  | .pdot4I8 t => Sys2Proof.Machine.execPdot4I8 t s
  | .pdot4N8 t => Sys2Proof.Machine.execPdot4N8 t s
  | .paddI16 t => Sys2Proof.Machine.execPaddI16 t s
  | .psubI16 t => Sys2Proof.Machine.execPsubI16 t s
  | .f2toh2 t => Sys2Proof.Machine.execF2toh2 t s
  | .f2tob2 t => Sys2Proof.Machine.execF2tob2 t s
  | .h2tof2 t => Sys2Proof.Machine.execH2tof2 t s
  | .b2tof2 t => Sys2Proof.Machine.execB2tof2 t s
  | .quant4 t => Sys2Proof.Machine.execQuant4 t s
  | .deq4 t => Sys2Proof.Machine.execDeq4 t s
  | .ldb t => Sys2Proof.Machine.execLdb t s
  | .ldbs t => Sys2Proof.Machine.execLdbs t s
  | .ldh t => Sys2Proof.Machine.execLdh t s
  | .ldhs t => Sys2Proof.Machine.execLdhs t s
  | .ldw t => Sys2Proof.Machine.execLdw t s
  | .ldd t => Sys2Proof.Machine.execLdd t s
  | .ldq t => Sys2Proof.Machine.execLdq t s
  | .stb t => Sys2Proof.Machine.execStb t s
  | .sth t => Sys2Proof.Machine.execSth t s
  | .stw t => Sys2Proof.Machine.execStw t s
  | .std t => Sys2Proof.Machine.execStd t s
  | .stq t => Sys2Proof.Machine.execStq t s
  | .stws t => Sys2Proof.Machine.execStws t s
  | .stds t => Sys2Proof.Machine.execStds t s
  | .asw t => Sys2Proof.Machine.execAsw t s
  | .asd t => Sys2Proof.Machine.execAsd t s
  | .asq t => Sys2Proof.Machine.execAsq t s
  | .aadd t => Sys2Proof.Machine.execAadd t s
  | .amin t => Sys2Proof.Machine.execAmin t s
  | .amax t => Sys2Proof.Machine.execAmax t s
  | .aand t => Sys2Proof.Machine.execAand t s
  | .aor t => Sys2Proof.Machine.execAor t s
  | .axor t => Sys2Proof.Machine.execAxor t s
  | .axch t => Sys2Proof.Machine.execAxch t s
  | .acas t => Sys2Proof.Machine.execAcas t s
  | .afadd t => Sys2Proof.Machine.execAfadd t s
  | .adadd t => Sys2Proof.Machine.execAdadd t s
  | .fenceFull t => Sys2Proof.Machine.execFenceFull t s
  | .fenceAcq t => Sys2Proof.Machine.execFenceAcq t s
  | .fenceRel t => Sys2Proof.Machine.execFenceRel t s
  | .lstamp t => Sys2Proof.Machine.execLstamp t s
  | .floorup t => Sys2Proof.Machine.execFloorup t s
  | .settle t => Sys2Proof.Machine.execSettle t s
  | .tagl t => Sys2Proof.Machine.execTagl t s
  | .tags t => Sys2Proof.Machine.execTags t s
  | .tagi t => Sys2Proof.Machine.execTagi t s
  | .tagc t => Sys2Proof.Machine.execTagc t s
  | .pref t => Sys2Proof.Machine.execPref t s
  | .bra t => Sys2Proof.Machine.execBra t s
  | .brx t => Sys2Proof.Machine.execBrx t s
  | .call t => Sys2Proof.Machine.execCall t s
  | .callx t => Sys2Proof.Machine.execCallx t s
  | .ret t => Sys2Proof.Machine.execRet t s
  | .exit t => Sys2Proof.Machine.execExit t s
  | .bar t => Sys2Proof.Machine.execBar t s
  | .bara t => Sys2Proof.Machine.execBara t s
  | .barw t => Sys2Proof.Machine.execBarw t s
  | .pause t => Sys2Proof.Machine.execPause t s
  | .regacq t => Sys2Proof.Machine.execRegacq t s
  | .regtry t => Sys2Proof.Machine.execRegtry t s
  | .regrel t => Sys2Proof.Machine.execRegrel t s
  | .kill t => Sys2Proof.Machine.execKill t s
  | .setx t => Sys2Proof.Machine.execSetx t s
  | .sread t => Sys2Proof.Machine.execSread t s
  | .swrite t => Sys2Proof.Machine.execSwrite t s
  | .elect t => Sys2Proof.Machine.execElect t s
  | .assert t => Sys2Proof.Machine.execAssert t s
  | .trap t => Sys2Proof.Machine.execTrap t s
  | .bkpt t => Sys2Proof.Machine.execBkpt t s
  | .nop t => Sys2Proof.Machine.execNop t s
  | .sadd t => Sys2Proof.Machine.execSadd t s
  | .ssub t => Sys2Proof.Machine.execSsub t s
  | .smul t => Sys2Proof.Machine.execSmul t s
  | .smov t => Sys2Proof.Machine.execSmov t s
  | .smovi t => Sys2Proof.Machine.execSmovi t s
  | .ssetp t => Sys2Proof.Machine.execSsetp t s
  | .sld t => Sys2Proof.Machine.execSld t s
  | .slea t => Sys2Proof.Machine.execSlea t s
  | .sand t => Sys2Proof.Machine.execSand t s
  | .vtos t => Sys2Proof.Machine.execVtos t s
  | .mma t => Sys2Proof.Machine.execMma t s
  | .mmasp t => Sys2Proof.Machine.execMmasp t s
  | .accz t => Sys2Proof.Machine.execAccz t s
  | .accld t => Sys2Proof.Machine.execAccld t s
  | .accst t => Sys2Proof.Machine.execAccst t s
  | .kick t => Sys2Proof.Machine.execKick t s
  | .arvi t => Sys2Proof.Machine.execArvi t s
  | .send t => Sys2Proof.Machine.execSend t s
  | .slotrd t => Sys2Proof.Machine.execSlotrd t s
  | .rlqRd t => Sys2Proof.Machine.execRlqRd t s
  | .rlqWr t => Sys2Proof.Machine.execRlqWr t s
  | .rcfg t => Sys2Proof.Machine.execRcfg t s
  | .rtld t => Sys2Proof.Machine.execRtld t s
  | .rstep t => Sys2Proof.Machine.execRstep t s
  | .rpack t => Sys2Proof.Machine.execRpack t s
  | .runpack t => Sys2Proof.Machine.execRunpack t s
  | .rcount t => Sys2Proof.Machine.execRcount t s
  | .rgen t => Sys2Proof.Machine.execRgen t s
  | .rabort t => Sys2Proof.Machine.execRabort t s
  | .csrr t => Sys2Proof.Machine.execCsrr t s
  | .csrw t => Sys2Proof.Machine.execCsrw t s
  | .eret t => Sys2Proof.Machine.execEret t s
  | .eretall t => Sys2Proof.Machine.execEretall t s
  | .xinvVa t => Sys2Proof.Machine.execXinvVa t s
  | .xinvAsid t => Sys2Proof.Machine.execXinvAsid t s
  | .xinvIpa t => Sys2Proof.Machine.execXinvIpa t s
  | .xinvVmid t => Sys2Proof.Machine.execXinvVmid t s
  | .xsync t => Sys2Proof.Machine.execXsync t s
  | .hset t => Sys2Proof.Machine.execHset t s
  | .ckpt t => Sys2Proof.Machine.execCkpt t s
  | .pickerFormBundle core lane port => Sys2Proof.Machine.execPickerFormBundle core lane port s
  | .pauseExpiry t => Sys2Proof.Machine.execPauseExpiry t s
  | .longOpResult id => Sys2Proof.Machine.execLongOpResult id s
  | .memResponse id => Sys2Proof.Machine.execMemResponse id s
  | .sliceCommit id => Sys2Proof.Machine.execSliceCommit id s
  | .sliceLoad id => Sys2Proof.Machine.execSliceLoad id s
  | .asofWalk id => Sys2Proof.Machine.execAsofWalk id s
  | .referenceTick => Sys2Proof.Machine.execReferenceTick s
  | .settledUpdate => Sys2Proof.Machine.execSettledUpdate s
  | .holdStallTimeout part => Sys2Proof.Machine.execHoldStallTimeout part s
  | .eraRebase => Sys2Proof.Machine.execEraRebase s
  | .tickholdWrite v => Sys2Proof.Machine.execTickholdWrite v s
  | .barrierPhaseComplete b => Sys2Proof.Machine.execBarrierPhaseComplete b s
  | .walkComplete id => Sys2Proof.Machine.execWalkComplete id s
  | .pageResponse q => Sys2Proof.Machine.execPageResponse q s
  | .queueConfigWrite q r v => Sys2Proof.Machine.execQueueConfigWrite q r v s
  | .reqHeadWrite q v => Sys2Proof.Machine.execReqHeadWrite q v s
  | .rspTailWrite q v => Sys2Proof.Machine.execRspTailWrite q v s
  | .mgmtInvalidate part kind vf asid addr => Sys2Proof.Machine.execMgmtInvalidate part kind vf asid addr s
  | .haltBroadcast block core lane => Sys2Proof.Machine.execHaltBroadcast block core lane s
  | .handlerEntry block => Sys2Proof.Machine.execHandlerEntry block s
  | .preempt launch => Sys2Proof.Machine.execPreempt launch s
  | .preemptDeferralTimeout launch => Sys2Proof.Machine.execPreemptDeferralTimeout launch s
  | .contextRestore launch => Sys2Proof.Machine.execContextRestore launch s
  | .contextDiscard launch => Sys2Proof.Machine.execContextDiscard launch s
  | .gangSwitchTick sched => Sys2Proof.Machine.execGangSwitchTick sched s
  | .tardyDeadline die => Sys2Proof.Machine.execTardyDeadline die s
  | .windowCompare block => Sys2Proof.Machine.execWindowCompare block s
  | .taggedMessage part src => Sys2Proof.Machine.execTaggedMessage part src s
  | .armInstall part n desc => Sys2Proof.Machine.execArmInstall part n desc s
  | .armQuantum part => Sys2Proof.Machine.execArmQuantum part s
  | .dispatchPlace part => Sys2Proof.Machine.execDispatchPlace part s
  | .backfillBlockTimeout part => Sys2Proof.Machine.execBackfillBlockTimeout part s
  | .blockRetire block => Sys2Proof.Machine.execBlockRetire block s
  | .copyRequestStart core => Sys2Proof.Machine.execCopyRequestStart core s
  | .copyGranule core => Sys2Proof.Machine.execCopyGranule core s
  | .sendResponse id status => Sys2Proof.Machine.execSendResponse id status s
  | .mirrorStoreArrival id core => Sys2Proof.Machine.execMirrorStoreArrival id core s
  | .clusterWindowWrite id => Sys2Proof.Machine.execClusterWindowWrite id s
  | .matrixOpStart core => Sys2Proof.Machine.execMatrixOpStart core s
  | .multicastGroupReady core => Sys2Proof.Machine.execMulticastGroupReady core s
  | .matrixOpComplete core op => Sys2Proof.Machine.execMatrixOpComplete core op s
  | .ruleStepStart core => Sys2Proof.Machine.execRuleStepStart core s
  | .ruleGeneration core => Sys2Proof.Machine.execRuleGeneration core s
  | .ckptServiceReply id reply => Sys2Proof.Machine.execCkptServiceReply id reply s
  | .partitionEntryWrite n v => Sys2Proof.Machine.execPartitionEntryWrite n v s
  | .linkDead die link lostReqs lostEngines => Sys2Proof.Machine.execLinkDead die link lostReqs lostEngines s
  | .rerouteResume die => Sys2Proof.Machine.execRerouteResume die s
  | .remoteWrite part addr data => Sys2Proof.Machine.execRemoteWrite part addr data s
  | .hostAtomic part addr op w64 signed x cmp => Sys2Proof.Machine.execHostAtomic part addr op w64 signed x cmp s
  | .frameMigration part old new stage => Sys2Proof.Machine.execFrameMigration part old new stage s
  | .errorCounterClear reader c => Sys2Proof.Machine.execErrorCounterClear reader c s
  | .powerOn cfg => Sys2Proof.Machine.execPowerOn cfg s
  | .attestationRequest nonce => Sys2Proof.Machine.execAttestationRequest nonce s
  | .powerCap => Sys2Proof.Machine.execPowerCap s
  | .reservedOpcode w => Sys2Proof.Machine.execReservedOpcode w s
  | .sendPayloadRead id => Sys2Proof.Machine.execSendPayloadRead id s
  | .busyRetry id => Sys2Proof.Machine.execBusyRetry id s
  | .supplyRemoved => Sys2Proof.Machine.execSupplyRemoved s
  | .linkRetrain link => Sys2Proof.Machine.execLinkRetrain link s
  | .partitionResetComplete part => Sys2Proof.Machine.execPartitionResetComplete part s

end Sys2Proof.Machine
end

