-- ==== Sys2Proof/Machine/Schedule.lean ====
section
/-! DEFINITION. The order in which the device's own events come about when the agenda says nothing (log 1): each event that may
happen with the cycle in which it is due, and the earliest of them. What only the outside can do never comes about by itself. -/

namespace Sys2Proof.Machine

/-- An event that comes about by itself: the rows of the opcode table that the device raises, the end of a SHFL's pass, and control writes
that take effect. -/
inductive Auto where
  | picker (core lane : Nat) (port : Port)
  | pass (port : Nat)
  | pause (t : TKey)
  | longOp (id : Nat)
  | shflEnd
  | controls
  | response (id : Nat)
  | commit (id : Nat)
  | load (id : Nat)
  | asof (id : Nat)
  | tick
  | settled
  | holdStall (part : Nat)
  | barrier (b : BarKey)
  | walk (id : Nat)
  | page (q : QKey)
  | halt (block core lane : Nat)
  | handler (block : Nat)
  | preempt (launch : Nat)
  | deferral (launch : Nat)
  | restore (launch : Nat)
  | tardy (die : Nat)
  | compare (block : Nat)
  | message (part id : Nat)
  | quantum (part : Nat)
  | place (part : Nat)
  | backfill (part : Nat)
  | retire (block : Nat)
  | copyStart (core : Nat)
  | copyGranule (core : Nat)
  | answer (id : Nat)
  | mirror (id core : Nat)
  | window (id : Nat)
  | matStart (core : Nat)
  | multicast (core : Nat)
  | matDone (core op : Nat)
  | ruleStart (core : Nat)
  | ruleGen (core : Nat)
  | ckpt (id : Nat)
  | payload (id : Nat)
  | retry (id : Nat)
  | partReset (part : Nat)
deriving DecidableEq, Repr

/-- An event and the cycle in which it is due. -/
abbrev Due := Nat × Auto

/-! ### Time -/

/-- The clocked events: the reference tick, settlement, holds, gang deadlines, software arms, backfill and partition resets. -/
def State.clockDues (s : State) : List Due :=
  (s.ctls.head?.map (fun w => (w.due, Auto.controls))).toList ++ [(s.tickDue, .tick), (s.settleDue, .settled)]
    ++ s.parts.flatMap (fun (e : Nat × Partition) =>
        (e.2.stallSince.toList.map (fun c => (c + s.stallCycles, Auto.holdStall e.1)))
          ++ (if e.2.soft.isEmpty then [] else [(e.2.quantumDue, .quantum e.1)])
          ++ ((s.backfillDue e.1).toList.map (fun b => (b.2, Auto.backfill e.1)))
          ++ (if e.2.resetting then [(e.2.resetDue, .partReset e.1)] else []))
    ++ (match s.switchAt with
        | none => []
        | some c => ((List.range 4).filter (fun d => s.parts.any (fun e => s.lateOn e.1 d))).map (fun d => (c + s.tardyCycles, .tardy d)))

/-! ### Threads, blocks and launches -/

/-- The pauses of resident threads, long operations, and the SHFL whose pass ends. -/
def State.threadDues (s : State) : List Due :=
  s.warps.flatMap (fun (e : Nat × Warp) =>
    if s.warpOff e.1 then []
    else (e.2.threads.zipIdx).filterMap (fun t => if t.1.st = .paused then some (t.1.pause, Auto.pause ⟨e.1, t.2⟩) else none))
    ++ s.longs.map (fun o => (o.due, .longOp o.id)) ++ (s.shfls.head?.map (fun r => (r.stop, Auto.shflEnd))).toList

/-- The barriers of a unit whose phase may complete. -/
def State.barDues (s : State) (level unit : Nat) (bars : Tab Barrier) : List Due :=
  bars.filterMap (fun (e : Nat × Barrier) =>
    let k : BarKey := ⟨level, unit, e.1⟩
    match e.2.last with
    | none => none
    | some c => if s.barReady k && s.barHere k then some (c + barLatency level, Auto.barrier k) else none)

/-- Every barrier phase that is due. -/
def State.phaseDues (s : State) : List Due :=
  s.warps.flatMap (fun (e : Nat × Warp) => s.barDues 0 e.1 e.2.bars) ++ s.blocks.flatMap (fun (e : Nat × Block) => s.barDues 1 e.1 e.2.bars)
    ++ s.groups.flatMap (fun (e : Nat × Group) => s.barDues 2 e.1 e.2.bars)
    ++ s.launches.flatMap (fun (e : Nat × Launch) => s.barDues 3 e.1 e.2.bars)

/-- The longest time a halt broadcast takes to a lane (R310). -/
def haltCycles : Nat := 64

/-- Whether an operation is marked to end for a write, or a retirement, that reached a range it holds. -/
def State.opHit (s : State) (op : Nat) : Bool :=
  s.cores.any (fun (e : Nat × Core) =>
    (e.2.copy.hit && (e.2.copy.queue.head?.map (fun q => q.op == op)).getD false) || e.2.mat.any (fun m => m.hit && m.op == op)
      || (e.2.waffle.hit && (e.2.waffle.queue.head?.map (fun q => q.op == op)).getD false))

/-- Whether BLOCK_RETIRE would take a block on: its shadow to be ended, the operations of others over its area to be told (R185),
or nothing more to wait for. -/
def State.retireDue (s : State) (b : Nat) : Bool :=
  let all := b :: (s.twinBlock b).toList
  s.retireMay b && (((s.twinBlock b).any (fun t => !s.allExited t))
    || (all.all s.unitsDone && ((all.flatMap s.foreignOps).isEmpty || (all.flatMap s.foreignOps).any (fun o => !s.opHit o && !s.delivered o))))

/-- Halts on their way, handlers to be entered, windows to be compared, and blocks to be retired. -/
def State.blockDues (s : State) : List Due :=
  s.blocks.flatMap (fun (e : Nat × Block) =>
    (match e.2.halt with
      | none => []
      | some h =>
        if s.blockSaved e.1 then []
        else ((s.blockLanes e.1).filter (fun n => !h.reached.contains n)).map
          (fun n => (h.raised + haltCycles, Auto.halt e.1 (n / Config.lanes) (n % Config.lanes))))
      ++ (if s.entryDue e.1 then [(s.cycle, .handler e.1)] else [])
      ++ (if s.compareDue e.1 then [(s.cycle, .compare e.1)] else [])
      ++ (if s.retireDue e.1 then [(s.cycle, .retire e.1)] else []))

/-- Whether DISPATCH_PLACE would place something of the launches in a list. -/
def State.placeMay (s : State) : List Nat → Bool
  | [] => false
  | l :: rest =>
    match Tab.find s.launches l with
    | none => State.placeMay s rest
    | some x =>
      if x.rcd.res then (s.placeAll l x.rcd.groups).isSome
      else if (s.spot l x).isSome then true
      else !x.blocks && State.placeMay s rest

/-- Saves, restores and placements. -/
def State.launchDues (s : State) : List Due :=
  s.launches.flatMap (fun (e : Nat × Launch) =>
    (match e.2.stopAt with
      | none => []
      | some c =>
        if s.saveDue e.1 then [(s.cycle, Auto.preempt e.1)]
        else if s.halting e.1 || s.mirroring e.1 then []
        else [(c, .deferral e.1)])
      ++ (if s.restoreMay e.1 then [(s.cycle, .restore e.1)] else []))
    ++ s.parts.filterMap (fun (e : Nat × Partition) => if s.placeMay (s.pending e.1) then some (s.cycle, .place e.1) else none)

/-! ### Requests -/

/-- Whether the shadow's request still waits for what the primary receives. -/
def State.shadowWaits (s : State) (r : Req) : Bool := s.reqShadow r && r.place == .global && (s.primaryValues r).isNone

/-- Whether a commit would be put off by a hold once more. -/
def State.stillStalled (s : State) (r : Req) : Bool :=
  match r.stage with
  | .stalled _ => r.attrs.hist && s.wouldStall (s.reqPart r) (s.assignStamp r.slice r.floor).2
  | _ => false

/-- What a request does next, when it may. -/
def State.reqDues (s : State) (r : Req) : List Due :=
  if r.stage = .served then (if (Tab.find s.launches r.launch).any (fun l => l.awayAt r.core) then [] else [(r.due, .response r.id)])
  else
    match r.kind, r.place with
    | .asof _ st, _ => if s.asofMay r st && !s.shadowWaits r then [(r.due, .asof r.id)] else []
    | _, .mirror _ _ => (r.left.filter (s.mirrorMay r)).map (fun c => (r.due, .mirror r.id c))
    | _, .scratch _ | _, .cluster _ => if s.windowMay r then [(r.due, .window r.id)] else []
    | _, _ =>
      if r.sliceLoads && s.current r && s.sliceMay r && !s.shadowWaits r then [(r.due, .load r.id)]
      else if r.sliceWrites && s.sliceMay r && !s.shadowWaits r && !s.stillStalled r then [(r.due, .commit r.id)]
      else []

/-- Whether a queue's next response can be taken now. -/
def State.pageDue (s : State) (k : QKey) (q : PageQueue) : Bool :=
  !q.disabled && q.rspHead != q.rspTail
    && !(match q.reqs.find? (fun r => r.id == some (natBits (s.respEntry q) 0 16)) with
        | some r => decide (natBits (s.respEntry q) 16 8 ≤ 1) && natBits (s.respEntry q) 24 40 == 0
            && (s.awayFor k r).any (fun l => ((Tab.find s.launches l).map (fun x => decide (256 ≤ x.heldResp.length))).getD false)
        | none => false)

/-- Requests, walks and page responses. -/
def State.memDues (s : State) : List Due :=
  s.reqs.flatMap s.reqDues
    ++ s.walks.filterMap (fun (w : Walk) => if w.done.isNone then some (w.due, .walk w.id) else none)
    ++ (s.nextReleased.map (fun x => (s.cycle, Auto.walk x.2.1.id))).toList
    ++ s.queues.filterMap (fun (e : QKey × PageQueue) => if s.pageDue e.1 e.2 then some (s.cycle, .page e.1) else none)

/-! ### Engines and messages -/

/-- What a core's engines do next. -/
def State.coreDues (s : State) (n : Nat) (c : Core) : List Due :=
  (match c.copy.queue with
    | [] => []
    | q :: _ =>
      if (c.copy.waiting.isSome && !c.copy.hit) || s.engStill q.block || s.copyHeld n then []
      else [(c.copy.due, if c.copy.running then Auto.copyGranule n else .copyStart n)])
    ++ (match c.mat.find? (fun o => !o.started) with
        | none => []
        | some o => if s.engStill o.block then [] else [(o.due, .matStart n)])
    ++ (if (s.groupReady n).isSome then [(s.cycle, .multicast n)] else [])
    ++ c.mat.filterMap (fun (o : MatOp) =>
        if o.started && !o.group && (o.hit || (o.waiting.isNone && !s.matHeld n o)) && !s.engStill o.block then some (o.due, .matDone n o.op) else none)
    ++ (match c.waffle.queue with
        | [] => []
        | o :: _ => if s.engStill o.block then [] else [(c.waffle.due, if o.started then .ruleGen n else .ruleStart n)])

/-- What a SEND's message does next: its payload is read; it arrives at this package's front end (log 1), once or again; or its status
is the one that the primary's had. -/
def State.sendDues (s : State) (m : SendMsg) : List Due :=
  if m.payload.isNone then
    (if s.sendStill m then [] else [(m.due, .payload m.id)])
  else if m.status.isSome then []
  else if m.shadow then (if (s.redValue m.thread m.access).isSome then [(m.due, .answer m.id)] else [])
  else if m.pkg ≠ 0 then []
  else if s.sendPaused m || m.late.any (s.behindLate m.part) then []
  else if m.retry ≠ 0 then [(m.due, .retry m.id)]
  else [(m.due, .message m.part m.id)]

/-- A checkpoint stream that goes on without its service. -/
def State.ckptDues (s : State) (c : Ckpt) : List Due :=
  let go := [(c.due, Auto.ckpt c.id)]
  let away := (Tab.find s.launches c.launch).any (fun l => l.awayAt c.core)
  if c.shadow then (if c.status.isNone && (s.redValue c.thread c.access).isSome then go else if c.status.isSome && !away then go else [])
  else if c.status.isSome then (if away then [] else go)
  else if c.alone && !s.pausedDies.contains (dieOf c.core) then go
  else []

/-- Engines, messages and streams. -/
def State.unitDues (s : State) : List Due :=
  s.cores.flatMap (fun (e : Nat × Core) => s.coreDues e.1 e.2) ++ s.sends.flatMap s.sendDues
    ++ s.retries.filterMap (fun (r : Retry) => if r.late.any (s.behindLate r.part) then none else some (r.due, .retry r.id)) ++ s.ckpts.flatMap s.ckptDues

/-! ### Ports -/

/-- The bundles that pickers may form. -/
def State.pickDues (s : State) : List Due :=
  ((s.warps.map (fun (e : Nat × Warp) => (e.2.core, e.2.lane))).eraseDups).flatMap (fun x =>
    [Port.arith, Port.mem, Port.ctl].filterMap (fun p =>
      let k := portKey x.1 x.2 p
      if (Tab.find s.bundles k).isSome then none
      else (startOf ((Tab.find s.portFree k).getD 0) s.cycle (s.cands x.1 x.2 p)).map (fun c => (c, Auto.picker x.1 x.2 p))))

/-- The cycle of a bundle's next pass: while a walk it waits for is under way it is held (R224), and its pass is tried again when
the first of them ends. -/
def State.passDue (s : State) (b : Bundle) : Nat :=
  match (s.walks.filter (fun w => w.done.isNone && w.waits.contains (.bundle b.id))).map Walk.due with
  | [] => b.due
  | d :: ds => max b.due (ds.foldl min d)

/-- The next passes of the bundles. -/
def State.passDues (s : State) : List Due := s.bundles.map (fun (e : Nat × Bundle) => (s.passDue e.2, .pass e.1))

/-! ### The earliest -/

/-- Everything that may come about by itself. Where two are due in one cycle the earlier in the list goes first. -/
def State.dues (s : State) : List Due :=
  s.clockDues ++ s.blockDues ++ s.launchDues ++ s.phaseDues ++ s.threadDues ++ s.memDues ++ s.unitDues ++ s.pickDues ++ s.passDues

/-- The earliest of a list; what is overdue counts as due now. -/
def earliest (now : Nat) : List Due → Option Due
  | [] => none
  | d :: rest => some (rest.foldl (fun m x => if max x.1 now < max m.1 now then x else m) d)

/-- The cycle of an event, and the event itself as its row of the table means it. A pass is the dispatcher's. -/
def Auto.run (a : Auto) (s : State) : Host.Outcome State Fault Refusal :=
  match a with
  | .picker c l p => execPickerFormBundle c l p s
  | .pass _ => .next s
  | .pause t => execPauseExpiry t s
  | .longOp i => execLongOpResult i s
  | .shflEnd => .next s.shflEnd
  | .controls => .next (s.controlsBy s.cycle)
  | .response i => execMemResponse i s
  | .commit i => execSliceCommit i s
  | .load i => execSliceLoad i s
  | .asof i => execAsofWalk i s
  | .tick => execReferenceTick s
  | .settled => execSettledUpdate s
  | .holdStall p => execHoldStallTimeout p s
  | .barrier k => execBarrierPhaseComplete k s
  | .walk i => execWalkComplete i s
  | .page k => execPageResponse k s
  | .halt b c l => execHaltBroadcast b c l s
  | .handler b => execHandlerEntry b s
  | .preempt l => execPreempt l s
  | .deferral l => execPreemptDeferralTimeout l s
  | .restore l => execContextRestore l s
  | .tardy d => execTardyDeadline d s
  | .compare b => execWindowCompare b s
  | .message p i => execTaggedMessage p (.send i) s
  | .quantum p => execArmQuantum p s
  | .place p => execDispatchPlace p s
  | .backfill p => execBackfillBlockTimeout p s
  | .retire b => execBlockRetire b s
  | .copyStart c => execCopyRequestStart c s
  | .copyGranule c => execCopyGranule c s
  | .answer i => execSendResponse i 0 s
  | .mirror i c => execMirrorStoreArrival i c s
  | .window i => execClusterWindowWrite i s
  | .matStart c => execMatrixOpStart c s
  | .multicast c => execMulticastGroupReady c s
  | .matDone c o => execMatrixOpComplete c o s
  | .ruleStart c => execRuleStepStart c s
  | .ruleGen c => execRuleGeneration c s
  | .ckpt i => execCkptServiceReply i .held s
  | .payload i => execSendPayloadRead i s
  | .retry i => execBusyRetry i s
  | .partReset p => execPartitionResetComplete p s

/-- Whether an event is one that comes about without supply: its return. -/
def powersUp (i : Instr) : Bool := match i with | .powerOn _ => true | _ => false

/-! ### A word placed where the next step takes it (log 10) -/

/-- A word of a class that shifts the latches and does nothing else, where the class has one (Table 4.9 ff.). -/
def shifter (c : Cls) : Option Word :=
  let h : Hd := ⟨.always, false⟩
  let i : Option Instr := match c with
    | .gen => some (.iadd ⟨h, none, .z, .z, .sel .z⟩)
    | .wide => some (.dadd ⟨h, none, .z, .z, .sel .z⟩)
    | .pkd => some (.paddF2 ⟨h, none, .z, .z, .z⟩)
    | .ctl => some (.sread ⟨h, .z, .lane⟩)
    | .eng => some (.accld ⟨h, .z, .z, .sel .z⟩)
    | .mem | .rul | .sys => none
  i.bind (fun i => (encode i).getLast?)

/-- The words of a clause that ends with a table word: two that shift the latches before it, where its class has such words. -/
def tableClause (c : Cls) (w : Word) : List Word :=
  match shifter c with
  | some x => [x, x, w]
  | none => [w]

/-- The header of that clause. -/
def tableHeader (c : Cls) (w : Word) : Header :=
  { drain := 0, tc := c == .ctl && isTransfer w, step := 0, wait := 0, cls := c, n := (tableClause c w).length }

/-- A launch record of one block of one warp of one thread, INT8 in every format slot. -/
def tableRecord (pc : Dword) : Record :=
  { prio := 0, red := false, res := true, entry := pc, levels := 5, extents := [1, 1, 1, 1, 1, 1], spad := Config.scratchBytes, lanew := 1,
    args := 0, caps := 0, capn := 0, nbv := 3, mdef := 0, slots := List.replicate 8 6, mirrors := List.replicate 4 ⟨0, 0, 0, 0⟩, trap := 0,
    fxe := 0, chkSb := false, chkVoid := false, succ := 0 }

/-- A translation that maps every address below 2 ^ 42 to itself, with every permission. -/
def tableXlat (x : Xlat) : TlbEntry :=
  { xlat := x, va := 0, pa := 0, log := 42, ipa := 0,
    attrs := { cache := 0, sa := true, sc := false, hist := true, write := true, exec := true }, leaf1 := 0, leaf2 := none, log2 := 0,
    dirty := true }

/-- The state with a bundle of one thread, in privileged state, that stands at a table word of a class, its clause fetched from `pc`. -/
def State.placeWord (s : State) (c : Cls) (w : Word) (pc : Nat) : State :=
  let n := s.uid
  let at_ : Dword := BitVec.ofNat 64 pc
  let x : Xlat := { part := 0, vf := 0, asid := 0, s1root := 0x20000, s2root := 0 }
  let h := tableHeader c w
  let ws := tableClause c w
  let f : Fire := { xlat := x, addr := 0, payAddr := 0, payLen := 0, tag := 0, floor := 0, prio := 0, ring := none, priv := true }
  let l : Launch := { f.launch (tableRecord at_) n s.cycle with nextBlock := 1, status := .running, capsRead := true }
  let pos := ws.length - 1
  let z : Lat := { val := 0, land := 0 }
  let t : Thread := { Thread.start at_ s.cycle with st := .issuing, pos := ⟨at_, pos⟩, lat := [z, z].take pos }
  let wp : Warp := { l.warp n (n + 1) 0 0 0 0 s.cycle with threads := [t] }
  let k := portKey 0 0 c.port
  { s with
    uid := n + 5
    agenda := .port k :: s.agenda
    supply := true, boot := .ready
    mem := s.mem.puts pc ((h.word :: ws).flatMap (fun y => leBytes y.toNat 4))
    cores := Tab.put s.cores 0 { s.core 0 with tlb := tlbPut 256 (tableXlat x) (s.core 0).tlb }
    launches := Tab.put s.launches n l
    blocks := Tab.put s.blocks (n + 1)
      { launch := n, id := 0, group := n + 3, shadow := false, warps := [n + 2], areas := [(0, 0)], size := Config.scratchBytes, halt := none,
        bars := [], ended := false }
    warps := Tab.put s.warps (n + 2) wp
    groups := Tab.put s.groups (n + 3)
      { launch := n, id := 0, cluster := 0, blocks := [n + 1], placed := 1,
        areas := [{ id := 0, block := n + 1, core := 0, base := 0, size := Config.scratchBytes }], shadow := false, partner := none, bars := [] }
    bundles := Tab.put s.bundles k
      { id := n + 4, threads := [⟨n + 2, 0⟩], pc := at_, hdr := h, words := ws, pos := pos, next := s.cycle, fetched := true, walked := [],
        acted := [], acts := 0, failed := [] } }

end Sys2Proof.Machine
end

