-- ==== Sys2Proof/Machine/Step.lean ====
section
/-! DEFINITION. One step of the device: the next turn of its agenda, or the earliest of what comes about by itself. -/

namespace Sys2Proof.Machine

/-- A port's turn: its bundle's next word issues, or its clause is fetched. -/
def portTurn (port : Nat) (s : State) : Host.Outcome State Fault Refusal :=
  match s.issue port with
  | .none => .next s
  | .fetch c l p => execPickerFormBundle c l p s
  | .word s i => exec i s
  | .reserved s w => execReservedOpcode w s
  | .bad s f => .next (s.decodeFault f)

/-- The earliest of what comes about by itself, at its cycle. -/
def autoTurn (s : State) : Host.Outcome State Fault Refusal :=
  match earliest s.cycle s.dues with
  | none => .next s
  | some (_, .pass port) => portTurn port s
  | some (c, a) => a.run (s.at_ c)

/-- One step. Without supply the device does nothing until power comes on again (R246). -/
def step (s : State) : Host.Outcome State Fault Refusal :=
  match s.agenda with
  | .event i :: rest => if s.supply || powersUp i then exec i { s with agenda := rest } else .fault .noSupply
  | .outside o :: rest => if s.supply then .next (State.takeOutside { s with agenda := rest } o) else .fault .noSupply
  | .port k :: rest => if s.supply then portTurn k { s with agenda := rest } else .fault .noSupply
  | .any :: rest => if s.supply then autoTurn { s with agenda := rest } else .fault .noSupply
  | [] => if s.supply then autoTurn s else .fault .noSupply

/-- A state whose very next step runs a table word. -/
def State.withFetchWord (s : State) (nbits w : Nat) : State :=
  if nbits ≤ 32 then
    match tableClass (BitVec.ofNat 32 w) with
    | some (c, _, _) => s.placeWord c (BitVec.ofNat 32 w) 0x10000
    | none => s
  else s

end Sys2Proof.Machine
end

