-- ==== Sys2Proof/Machine/AsmText.lean ====
section
/-! DEFINITION. The Stoluf assembler, first part (spec/05 R85, R92, R95, R101): source text, its tokens, the lines that stand
after inclusion and the expansion of templates (the definitions between `.macro` and `.endm`), and diagnostics. The assembler
is a function on text; it touches no state of the device. -/

namespace Sys2Proof.Asm

/-- Source text. -/
abbrev Text := List Char

/-! ### Diagnostics (R101) -/

/-- A source line after inclusion and expansion: its file, its line, the line of the template's body that it comes from when a
line invoked one, its place in the order of all lines, the column of its statement, and its text. -/
structure Src where
  file : Text
  line : Nat
  body : Option Nat
  ix : Nat
  col : Nat
  text : Text
deriving DecidableEq, Repr

/-- A diagnostic: an error or a warning, its number, where it stands, and its words. -/
structure Diag where
  file : Text
  line : Nat
  body : Option Nat
  col : Nat
  err : Bool
  num : Nat
  text : Text
deriving DecidableEq, Repr

/-- A diagnostic at a column of a line. -/
def Src.diag (s : Src) (err : Bool) (num col : Nat) (t : Text) : Diag :=
  { file := s.file, line := s.line, body := s.body, col := col, err := err, num := num, text := t }

/-- The decimal digits of a number. -/
def decDigits (n : Nat) : Text := Nat.toDigits 10 n

/-- Digits made up to a width with zeros in front. -/
def padZeros (w : Nat) (t : Text) : Text := List.replicate (w - t.length) '0' ++ t

/-- A diagnostic as it is written (R101). One in an expansion names the invoking line, and the body line at its end (R95). -/
def Diag.render (d : Diag) : Text :=
  d.file ++ [':'] ++ decDigits d.line ++ [':'] ++ decDigits d.col ++ [':', ' ', if d.err then 'E' else 'W'] ++ padZeros 3 (decDigits d.num)
    ++ [' '] ++ d.text ++ (match d.body with | some b => " (body line ".toList ++ decDigits b ++ [')'] | none => [])

/-! ### Characters and tokens (R85) -/

/-- A letter, `_` or `$`: how a name begins. -/
def nameStart (c : Char) : Bool := c.isAlpha || c == '_' || c == '$'

/-- How a name goes on. The mark `@` stands in no source line (`hasMark`): expansion puts it into the names it makes unique (R95). -/
def nameChar (c : Char) : Bool := nameStart c || c.isDigit || c == '.' || c == '@'

/-- White space within a line. -/
def isBlank (c : Char) : Bool := c == ' ' || c == '\t' || c == '\r'

/-- Text without the white space before it. -/
def skipBlank (t : Text) : Text := t.dropWhile isBlank

/-- Text without the white space around it. -/
def trim (t : Text) : Text := ((skipBlank t).reverse.dropWhile isBlank).reverse

/-- What a token is: a name, a name after a dot, an integer, a decimal number `m × 10^e` with the letter that ends it, a quoted
name, or a sign. -/
inductive TokKind where
  | name (s : Text)
  | dot (s : Text)
  | num (n : Nat)
  | flt (m : Nat) (e : Int) (suffix : Option Bool)
  | str (s : Text)
  | sym (s : Text)
deriving DecidableEq, Repr

/-- A token and the column it begins at. -/
structure Tok where
  col : Nat
  kind : TokKind
deriving DecidableEq, Repr

/-- The value of a digit in a base. -/
def digitVal (c : Char) : Nat :=
  if c.isDigit then c.toNat - 48 else if c.isLower then c.toNat - 87 else if c.isUpper then c.toNat - 55 else 99

/-- The number that digits of a base give; an underscore between digits is passed over. -/
def digitsVal (base : Nat) (t : Text) : Nat := (t.filter (fun c => c != '_')).foldl (fun n c => n * base + digitVal c) 0

/-- Whether a character goes on a run of digits of a base. -/
def isDigitOf (base : Nat) (c : Char) : Bool := c == '_' || decide (digitVal c < base)

/-- The exponent part of a decimal number: its value and the rest. -/
def lexExp (t : Text) : Int × Text :=
  match t with
  | c :: r =>
    if c == 'e' || c == 'E' then
      let sg := match r with | '-' :: _ => true | _ => false
      let r1 := match r with | '-' :: q => q | '+' :: q => q | q => q
      let ds := r1.takeWhile (fun x => x.isDigit)
      if ds.isEmpty then (0, t)
      else ((if sg then -(digitsVal 10 ds : Int) else (digitsVal 10 ds : Int)), r1.drop ds.length)
    else (0, t)
  | [] => (0, t)

/-- A number at the head of text, and the rest: `0x` and `0b` forms, a decimal integer, or a decimal number with a fraction, an
exponent or a last letter `f` or `d` (R89). -/
def lexNum (t : Text) : TokKind × Text :=
  let hex := fun (base : Nat) (r : Text) => (TokKind.num (digitsVal base (r.takeWhile (isDigitOf base))), r.dropWhile (isDigitOf base))
  let dec :=
    let whole := t.takeWhile (isDigitOf 10)
    let r1 := t.drop whole.length
    let frac := match r1 with | '.' :: q => some (q.takeWhile (isDigitOf 10)) | _ => none
    let r2 := match frac with | some f => r1.drop (f.length + 1) | none => r1
    let (e, r3) := lexExp r2
    let fr := (frac.getD []).filter (fun c => c != '_')
    let m := digitsVal 10 (whole ++ fr)
    let ex := e - (fr.length : Int)
    match r3 with
    | 'f' :: q => (TokKind.flt m ex (some false), q)
    | 'd' :: q => (TokKind.flt m ex (some true), q)
    | _ => if frac.isSome || r3.length != r2.length then (TokKind.flt m ex none, r3) else (TokKind.num m, r3)
  match t with
  | '0' :: 'x' :: r => hex 16 r
  | '0' :: 'X' :: r => hex 16 r
  | '0' :: 'b' :: r => if (r.headD ' ').isDigit then hex 2 r else dec
  | '0' :: 'B' :: r => if (r.headD ' ').isDigit then hex 2 r else dec
  | _ => dec

/-- The signs of the language. -/
def signChars : Text := "()#~!,:=+-*/%<>&^|.".toList

/-- The next token of text that begins with no blank; `none` for a character that begins none. -/
def lexTok (t : Text) : Option (TokKind × Text) :=
  match t with
  | [] => none
  | c :: r =>
    if nameStart c then some (.name (t.takeWhile nameChar), t.dropWhile nameChar)
    else if c.isDigit then some (lexNum t)
    else if c == '"' then some (.str (r.takeWhile (fun x => x != '"')), (r.dropWhile (fun x => x != '"')).drop 1)
    else if c == '.' && nameStart (r.headD ' ') then some (.dot (r.takeWhile nameChar), r.dropWhile nameChar)
    else if c == '<' && r.headD ' ' == '<' then some (.sym ['<', '<'], r.drop 1)
    else if c == '>' && r.headD ' ' == '>' then some (.sym ['>', '>'], r.drop 1)
    else if signChars.contains c then some (.sym [c], r)
    else none

/-- The tokens of a line up to its comment, and the column of a character that begins no token. The fuel is the line's length. -/
def lexLine : Nat → Nat → Text → List Tok × Option Nat
  | 0, _, _ => ([], none)
  | fuel + 1, col, t =>
    let b := (t.takeWhile isBlank).length
    let r := t.drop b
    match r with
    | [] => ([], none)
    | '/' :: '/' :: _ => ([], none)
    | _ =>
      match lexTok r with
      | none => ([], some (col + b))
      | some (k, rest) =>
        let (ts, bad) := lexLine fuel (col + b + (r.length - rest.length)) rest
        ({ col := col + b, kind := k } :: ts, bad)

/-- The tokens of a line. -/
def lex (t : Text) : List Tok × Option Nat := lexLine (t.length + 1) 1 t

/-- Text up to its comment (R85). -/
def stripComment : Text → Text
  | [] => []
  | '/' :: '/' :: _ => []
  | c :: r => c :: stripComment r

/-- Text cut at every occurrence of a character. -/
def splitText (sep : Char) : Text → List Text
  | [] => [[]]
  | c :: r =>
    match splitText sep r with
    | x :: xs => if c == sep then [] :: x :: xs else (c :: x) :: xs
    | [] => [[c]]

/-- The lines of a file. -/
def textLines (t : Text) : List Text :=
  let l := splitText '\n' t
  if l.getLast? == some [] then l.dropLast else l

/-- Tokens cut at the commas outside parentheses. -/
def splitComma : Nat → List Tok → List (List Tok)
  | _, [] => [[]]
  | d, x :: r =>
    let d' := if x.kind = .sym ['('] then d + 1 else if x.kind = .sym [')'] then d - 1 else d
    if d = 0 && x.kind = .sym [','] then [] :: splitComma d' r
    else match splitComma d' r with
      | y :: ys => (x :: y) :: ys
      | [] => [[x]]

/-- The parts between commas; no tokens have no parts. -/
def parts (l : List Tok) : List (List Tok) := if l.isEmpty then [] else splitComma 0 l

/-- Tokens cut at a one-character sign. -/
def splitSym (c : Char) : List Tok → List (List Tok)
  | [] => [[]]
  | x :: r =>
    match splitSym c r with
    | y :: ys => if x.kind = .sym [c] then [] :: y :: ys else (x :: y) :: ys
    | [] => [[x]]

/-! ### Inclusion and templates (R92, R95) -/

/-- A template: its parameters and the lines of its body with their numbers. -/
structure Template where
  params : List Text
  body : List (Nat × Text)
deriving DecidableEq, Repr

/-- What expansion has gathered: the templates by name, the one being defined, the lines made, the diagnostics, the number of
expansions so far, and whether a file could not be found. -/
structure Expansion where
  table : List (Text × Template)
  opened : Option (Text × Template)
  out : List Src
  diags : List Diag
  count : Nat
  lost : Bool
deriving DecidableEq, Repr

/-- The name at the head of text. -/
def headName (t : Text) : Text :=
  match t with
  | c :: _ => if nameStart c then t.takeWhile nameChar else []
  | [] => []

/-- The name at the head of a statement, with its dot where it is a directive's. -/
def headWord (t : Text) : Text :=
  match t with
  | '.' :: r => '.' :: headName r
  | r => headName r

/-- Whether text holds the mark `@` outside quotes: no source line may, expansion alone puts it into names (R85, R95). -/
def hasMark (t : Text) : Bool := (((splitText '"' t).zipIdx).any (fun p => p.2 % 2 == 0 && p.1.contains '@'))

/-- The label at the head of a line, and the text after its colon. -/
def headLabel (t : Text) : Option (Text × Text) :=
  let r := skipBlank t
  let n := headName r
  match skipBlank (r.drop n.length) with
  | ':' :: q => if n.isEmpty then none else some (n, q)
  | _ => none

/-- The labels beginning with `$` that a body defines (R95). -/
def dollarLabels (body : List (Nat × Text)) : List Text :=
  body.filterMap (fun l => (headLabel l.2).bind (fun p => if p.1.head? == some '$' then some p.1 else none))

/-- A text with every name of `own` marked with the number of the expansion. The fuel is the text's length; `inName` says
whether the character before belongs to a name. -/
def markNames (own : List Text) (mark : Text) : Nat → Bool → Text → Text
  | 0, _, t => t
  | _, _, [] => []
  | fuel + 1, inName, c :: r =>
    if !inName && nameStart c then
      let n := (c :: r).takeWhile nameChar
      (if own.contains n then n ++ mark else n) ++ markNames own mark fuel true ((c :: r).drop n.length)
    else c :: markNames own mark fuel (nameChar c) r

/-- The longest beginning of a name that is a parameter, with its argument. -/
def paramOf (args : List (Text × Text)) : Nat → Text → Option (Nat × Text)
  | 0, _ => none
  | n + 1, name =>
    match args.find? (fun a => a.1 == name.take (n + 1)) with
    | some a => some (n + 1, a.2)
    | none => paramOf args n name

/-- A text with the argument put for each `\` and parameter. -/
def putArgs (args : List (Text × Text)) : Nat → Text → Text
  | 0, t => t
  | _, [] => []
  | fuel + 1, c :: r =>
    if c == '\\' then
      let n := headName r
      match paramOf args n.length n with
      | some (k, a) => a ++ putArgs args fuel (r.drop k)
      | none => c :: putArgs args fuel r
    else c :: putArgs args fuel r

/-- The list of texts between commas. -/
def commaTexts (t : Text) : List Text := if (trim t).isEmpty then [] else (splitText ',' t).map trim

/-- The line of a body in an expansion: its own labels made unique, then the arguments put in. -/
def bodyLine (own : List Text) (mark : Text) (args : List (Text × Text)) (t : Text) : Text :=
  let t1 := markNames own mark t.length false t
  putArgs args t1.length t1

/-- A file by name: the name itself, then in each directory of the search path. -/
def findFile (files : List (Text × Text)) (dirs : List Text) (name : Text) : Option Text :=
  ((name :: dirs.map (fun d => d ++ ['/'] ++ name)).findSome? (fun n => (files.find? (fun f => f.1 == n)).map (·.2)))

/-- The deepest expansion (R95). -/
def templateDepth : Nat := 16

/-- The deepest inclusion that the model follows (assumption log 53). -/
def includeDepth : Nat := 64

/-- A diagnostic added. -/
def Expansion.say (x : Expansion) (s : Src) (num : Nat) (t : String) : Expansion :=
  { x with diags := x.diags ++ [s.diag true num s.col t.toList] }

/-- A line made. -/
def Expansion.push (x : Expansion) (s : Src) : Expansion := { x with out := { s with ix := x.out.length } :: x.out }

/-- A definition begins (R95). -/
def Expansion.openTemplate (x : Expansion) (s : Src) (rest : Text) : Expansion :=
  let r := skipBlank rest
  let n := headName r
  if n.isEmpty then x.say s 1 "a template needs a name"
  else { x with opened := some (n, { params := commaTexts (r.drop n.length), body := [] }) }

/-- The text of a line with its label taken off, and the label. -/
def cutLabel (t : Text) : Option Text × Text := match headLabel t with | some (n, q) => (some n, q) | none => (none, t)

/-- A line while a definition is open: the end of the body, or a line of it. A label before the end belongs to the body. -/
def Expansion.bodyOf (x : Expansion) (s : Src) (name : Text) (d : Template) : Expansion :=
  let (lab, t) := cutLabel (stripComment s.text)
  let w := headWord (skipBlank t)
  if w = ".endm".toList then
    { x with opened := none, table := (name, { d with body := d.body ++ (lab.toList.map (fun l => (s.line, l ++ [':']))) }) :: x.table }
  else if w = ".macro".toList then x.say s 81 "a definition may not nest"
  else { x with opened := some (name, { d with body := d.body ++ [(s.line, stripComment s.text)] }) }

/-- The lines that an invocation makes, and the state after it; nothing where the arguments do not fit. -/
def Expansion.invoke (x : Expansion) (s : Src) (d : Template) (argText : Text) : Expansion × List Src :=
  let args := commaTexts argText
  if args.length ≠ d.params.length then (x.say s 80 "wrong number of arguments", [])
  else
    let mark := '@' :: decDigits x.count
    let own := dollarLabels d.body
    let bind := d.params.zip args
    ({ x with count := x.count + 1 },
      d.body.map (fun l => { s with body := some l.1, text := bodyLine own mark bind l.2 }))

/-- Lines expanded. The fuel bounds the nesting of inclusions and expansions together; `depth` counts the expansions. -/
def expandAt (files : List (Text × Text)) (dirs : List Text) : Nat → Nat → Expansion → List Src → Expansion
  | 0, _, x, _ => { x with lost := true }
  | fuel + 1, depth, x, ls =>
    ls.foldl (fun x s =>
      if s.body.isNone && hasMark (stripComment s.text) then x.say s 1 "unexpected character" else
      match x.opened with
      | some (n, d) => x.bodyOf s n d
      | none =>
        let (lab, t) := cutLabel (stripComment s.text)
        let w := headWord (skipBlank t)
        let rest := skipBlank ((skipBlank t).drop w.length)
        let labelled := match lab with | some l => x.push { s with text := l ++ [':'] } | none => x
        if w = ".macro".toList then labelled.openTemplate s rest
        else if w = ".endm".toList then x.say s 81 "no definition is open"
        else if w = ".include".toList then
          if rest.head? ≠ some '"' then x.say s 1 "a quoted name follows"
          else
            let name := (rest.drop 1).takeWhile (fun c => c != '"')
            match findFile files dirs name with
            | none => { x with lost := true }
            | some f =>
              expandAt files dirs fuel depth (x.push s)
                ((textLines f).zipIdx.map (fun l => { file := name, line := l.2 + 1, body := none, ix := 0, col := 1, text := l.1 }))
        else
          let n := headName (skipBlank t)
          match x.table.find? (fun e => e.1 == n) with
          | none => x.push s
          | some e =>
            if depth ≥ templateDepth then x.say s 82 "expansion is nested too deep"
            else
              let (x2, body) := labelled.invoke s e.2 ((skipBlank t).drop n.length)
              expandAt files dirs fuel (depth + 1) x2 body) x

/-- The lines of a source file after inclusion and expansion, in order. -/
def expandFile (files : List (Text × Text)) (dirs : List Text) (name text : Text) : Expansion :=
  let x := expandAt files dirs (templateDepth + includeDepth) 0 { table := [], opened := none, out := [], diags := [], count := 0, lost := false }
    ((textLines text).zipIdx.map (fun l => { file := name, line := l.2 + 1, body := none, ix := 0, col := 1, text := l.1 }))
  let x1 := { x with out := x.out.reverse }
  match x1.opened with
  | some _ => x1.say { file := name, line := (textLines text).length, body := none, ix := 0, col := 1, text := [] } 81 "a definition does not end"
  | none => x1

/-- A statement: its line, its label with the column, and the tokens after the label. -/
structure Stmt where
  at_ : Src
  label : Option Text
  toks : List Tok
  bad : Option Nat
deriving DecidableEq, Repr

/-- A line read as a statement (R85). -/
def stmtOf (s : Src) : Stmt :=
  let (ts, bad) := lex s.text
  match ts with
  | ⟨_, .name n⟩ :: ⟨_, .sym [':']⟩ :: r =>
    { at_ := { s with col := (r.head?.map Tok.col).getD 1 }, label := some n, toks := r, bad := bad }
  | _ => { at_ := { s with col := (ts.head?.map Tok.col).getD 1 }, label := none, toks := ts, bad := bad }

end Sys2Proof.Asm
end

