-- ==== Sys2Proof/Machine/AsmExpr.lean ====
section
/-! DEFINITION. The Stoluf assembler, second part (spec/05 R89 to R91): sections, symbol values, expressions, decimal numbers,
and the immediate forms. -/

namespace Sys2Proof.Asm

/-! ### Sections and values (R90, R91) -/

/-- The sections of Table 5.2. -/
inductive Sect where
  | text | data | spad | launch | param
deriving DecidableEq, Repr

/-- What a relocatable value is measured from: the start of a section, or a symbol of another object. -/
inductive Base where
  | sect (s : Sect)
  | other (name : Text)
deriving DecidableEq, Repr

/-- The value of an expression: a constant, and how often each base is added. -/
structure Val where
  c : Dword
  rel : List (Base × Int)
deriving DecidableEq, Repr

/-- A constant. -/
def Val.const (c : Dword) : Val := { c := c, rel := [] }

/-- A place in a section. A scratchpad symbol is its offset (R91). -/
def Val.place (s : Sect) (off : Nat) : Val :=
  { c := BitVec.ofNat 64 off, rel := if s = .spad then [] else [(.sect s, 1)] }

/-- One base added to a list of bases. -/
def addBase (l : List (Base × Int)) (b : Base) (n : Int) : List (Base × Int) :=
  if l.any (fun e => e.1 == b) then (l.map (fun e => if e.1 = b then (b, e.2 + n) else e)).filter (fun e => e.2 != 0)
  else if n = 0 then l else l ++ [(b, n)]

/-- The sum of two values; the difference of two places of one section is a constant (R90). -/
def Val.add (x y : Val) : Val := { c := x.c + y.c, rel := y.rel.foldl (fun l e => addBase l e.1 e.2) x.rel }

/-- A value negated. -/
def Val.neg (x : Val) : Val := { c := -x.c, rel := x.rel.map (fun e => (e.1, -e.2)) }

/-- The single base of a relocatable value that a relocation can express, S + A; `none` for any other. -/
def Val.base (x : Val) : Option Base :=
  match x.rel with
  | [(b, 1)] => some b
  | _ => none

/-- Why an expression has no value: an error by its number, or a symbol that nothing defines yet. -/
inductive ExprErr where
  | code (n : Nat)
  | undefined (name : Text)
deriving DecidableEq, Repr

/-- What an expression is read in: the symbols of this pass and of the one before, the symbols declared `.extern`, and the
current address. -/
structure Scope_ where
  cur : List (Text × Val)
  prev : List (Text × Val)
  others : List Text
  here : Val
deriving DecidableEq, Repr

/-- The value of a symbol. -/
def Scope_.find (v : Scope_) (n : Text) : Except ExprErr Val :=
  match v.cur.find? (fun e => e.1 == n) with
  | some e => .ok e.2
  | none =>
    match v.prev.find? (fun e => e.1 == n) with
    | some e => .ok e.2
    | none => if v.others.contains n then .ok { c := 0, rel := [(.other n, 1)] } else .error (.undefined n)

/-! ### Expressions (R90) -/

/-- An operator that waits for its right side: unary `-` or `~`, a binary one, or an open parenthesis. -/
inductive Pend where
  | neg | inv
  | bin (s : Text)
  | paren
deriving DecidableEq, Repr

/-- How tightly a binary operator binds; `none` for a sign that is none. -/
def binLevel (s : Text) : Option Nat :=
  if s = ['*'] || s = ['/'] || s = ['%'] then some 6
  else if s = ['+'] || s = ['-'] then some 5
  else if s = ['<', '<'] || s = ['>', '>'] then some 4
  else if s = ['&'] then some 3
  else if s = ['^'] then some 2
  else if s = ['|'] then some 1
  else none

/-- How tightly a waiting operator binds. -/
def Pend.level : Pend → Nat
  | .neg | .inv => 7
  | .bin s => (binLevel s).getD 0
  | .paren => 0

/-- A binary operator on two 64-bit constants (R90). A shift count is read unsigned (assumption log 53). -/
def constOp (s : Text) (a b : Dword) : Except ExprErr Dword :=
  if s = ['*'] then .ok (a * b)
  else if s = ['/'] then (if b = 0 then .error (.code 5) else .ok (a.sdiv b))
  else if s = ['%'] then (if b = 0 then .error (.code 5) else .ok (a.srem b))
  else if s = ['<', '<'] then .ok (a <<< b.toNat)
  else if s = ['>', '>'] then .ok (a.sshiftRight b.toNat)
  else if s = ['&'] then .ok (a &&& b)
  else if s = ['^'] then .ok (a ^^^ b)
  else .ok (a ||| b)

/-- A binary operator on two values. -/
def valOp (s : Text) (x y : Val) : Except ExprErr Val :=
  if s = ['+'] then .ok (x.add y)
  else if s = ['-'] then .ok (x.add y.neg)
  else if x.rel.isEmpty && y.rel.isEmpty then (constOp s x.c y.c).map Val.const
  else .error (.code 62)

/-- An expression while it is read: the values, the waiting operators, and whether an operand comes next. -/
structure Reading where
  vals : List Val
  ops : List Pend
  want : Bool
deriving DecidableEq, Repr

/-- A waiting operator applied to the latest values. -/
def applyPend (p : Pend) (vals : List Val) : Except ExprErr (List Val) :=
  match p, vals with
  | .neg, x :: r => .ok (x.neg :: r)
  | .inv, x :: r => if x.rel.isEmpty then .ok (Val.const (~~~x.c) :: r) else .error (.code 62)
  | .bin s, y :: x :: r => (valOp s x y).map (fun v => v :: r)
  | _, _ => .error (.code 1)

/-- The waiting operators that bind at least as tightly as a level, applied; an open parenthesis stops them. -/
def reduceTo (lvl : Nat) : List Pend → List Val → Except ExprErr (List Pend × List Val)
  | [], vals => .ok ([], vals)
  | p :: r, vals =>
    if p = .paren || p.level < lvl then .ok (p :: r, vals)
    else match applyPend p vals with
      | .ok v => reduceTo lvl r v
      | .error e => .error e

/-- One token of an expression. -/
def readTok (sc : Scope_) (x : Reading) (t : Tok) : Except ExprErr Reading :=
  let operand := fun (v : Val) => (.ok { x with vals := v :: x.vals, want := false } : Except ExprErr Reading)
  if x.want then
    match t.kind with
    | .num n => operand (Val.const (BitVec.ofNat 64 n))
    | .name n => match sc.find n with | .ok v => operand v | .error e => .error e
    | .sym s =>
      if s = ['.'] then operand sc.here
      else if s = ['-'] then .ok { x with ops := .neg :: x.ops }
      else if s = ['~'] then .ok { x with ops := .inv :: x.ops }
      else if s = ['('] then .ok { x with ops := .paren :: x.ops }
      else .error (.code 1)
    | _ => .error (.code 1)
  else
    match t.kind with
    | .sym s =>
      if s = [')'] then
        match reduceTo 1 x.ops x.vals with
        | .ok (.paren :: r, v) => .ok { x with ops := r, vals := v }
        | .ok _ => .error (.code 1)
        | .error e => .error e
      else
        match binLevel s with
        | none => .error (.code 1)
        | some l =>
          match reduceTo l x.ops x.vals with
          | .ok (r, v) => .ok { vals := v, ops := .bin s :: r, want := true }
          | .error e => .error e
    | _ => .error (.code 1)

/-- Tokens of an expression, one after the other. -/
def readToks (sc : Scope_) : Reading → List Tok → Except ExprErr Reading
  | x, [] => .ok x
  | x, t :: r => match readTok sc x t with | .ok y => readToks sc y r | .error e => .error e

/-- The value of an expression. -/
def evalToks (sc : Scope_) (ts : List Tok) : Except ExprErr Val :=
  match readToks sc { vals := [], ops := [], want := true } ts with
  | .error e => .error e
  | .ok x =>
    if x.want then .error (.code 1)
    else match reduceTo 1 x.ops x.vals with
      | .ok ([], [v]) => .ok v
      | .ok _ => .error (.code 1)
      | .error e => .error e

/-- The value of an expression that must be a constant. -/
def evalConst (sc : Scope_) (ts : List Tok) : Except ExprErr Dword :=
  match evalToks sc ts with
  | .ok v => if v.rel.isEmpty then .ok v.c else .error (.code 62)
  | .error e => .error e

/-- A constant read as a natural number, refused under a number where it lies outside `lo` to `hi`. -/
def evalRange (sc : Scope_) (ts : List Tok) (lo hi : Int) (code : Nat) : Except ExprErr Nat :=
  match evalConst sc ts with
  | .ok c => if lo ≤ c.toInt && c.toInt ≤ hi then .ok (c.toInt.toNat) else .error (.code code)
  | .error e => .error e

/-! ### Decimal numbers (R89) -/

/-- The bits of a decimal number `(-1)^s × m × 10^e` rounded once to nearest even in a format. -/
def decimalBits (f : Machine.FFmt) (s : Bool) (m : Nat) (e : Int) : Nat :=
  let env : Machine.FEnv := Machine.FEnv.ne
  if 0 ≤ e then (f.round env s (m * 10 ^ e.toNat) 0 false).1
  else
    let q := 10 ^ (-e).toNat
    let sh := Machine.bitLen q + f.fw + 8
    let n := m * 2 ^ sh
    (f.round env s (n / q) (-(sh : Int)) (n % q != 0)).1

/-- A decimal number with an optional sign before it. -/
def decimalOf (ts : List Tok) : Option (Bool × Nat × Int × Option Bool) :=
  match ts with
  | [⟨_, .flt m e k⟩] => some (false, m, e, k)
  | [⟨_, .sym ['-']⟩, ⟨_, .flt m e k⟩] => some (true, m, e, k)
  | [⟨_, .sym ['+']⟩, ⟨_, .flt m e k⟩] => some (false, m, e, k)
  | _ => none

/-- A decimal number or an integer read as a value of `.f32` and `.f64` (Table 5.3). -/
def floatOf (ts : List Tok) : Option (Bool × Nat × Int) :=
  match decimalOf ts with
  | some (s, m, e, _) => some (s, m, e)
  | none =>
    match ts with
    | [⟨_, .num n⟩] => some (false, n, 0)
    | [⟨_, .sym ['-']⟩, ⟨_, .num n⟩] => some (true, n, 0)
    | _ => none

/-! ### Immediate forms (R89, Table 4.7) -/

/-- The relocation types of Table 5.4. -/
inductive RelType where
  | abs64 | abs32 | br21 | lit24 | lit48 | movi32
deriving DecidableEq, Repr

/-- The number of a relocation type. -/
def RelType.num : RelType → Nat
  | .abs64 => 1
  | .abs32 => 2
  | .br21 => 3
  | .lit24 => 4
  | .lit48 => 5
  | .movi32 => 6

/-- The encoded form of an immediate: the two literals, the field imm14 of an IMM-format word, and the relocation its literals
need. -/
structure ImmForm where
  hi : Option (BitVec 24)
  im : Option (BitVec 24)
  imm14 : BitVec 14
  rel : Option (RelType × Base × Dword)
deriving DecidableEq, Repr

/-- How many literal words a form takes. -/
def ImmForm.size (f : ImmForm) : Nat := (if f.hi.isSome then 1 else 0) + (if f.im.isSome then 1 else 0)

/-- Whether a signed value fits a number of bits. -/
def fitsSigned (x : Int) (n : Nat) : Bool := decide (-(2 ^ (n - 1) : Int) ≤ x) && decide (x < (2 ^ (n - 1) : Int))

/-- Whether a 64-bit value stands for a 32-bit pattern, signed or unsigned. -/
def fits32 (c : Dword) : Bool := decide (-(2 ^ 31 : Int) ≤ c.toInt) && decide (c.toInt < (2 ^ 32 : Int))

/-- One IMM literal. -/
def formIm (p : BitVec 24) : ImmForm := { hi := none, im := some p, imm14 := 0, rel := none }

/-- A HIGH and an IMM literal that hold 48 bits. -/
def formPair (x : BitVec 48) : ImmForm := { hi := some (x.extractLsb' 24 24), im := some (x.extractLsb' 0 24), imm14 := 0, rel := none }

/-- MOVI and SMOVI: imm14 alone, or one literal with its low 8 bits in imm14 (Table 4.7). -/
def formMovi (w : Word) (least : Nat) : ImmForm :=
  if least = 0 && (w.extractLsb' 0 14).signExtend 32 == w then { hi := none, im := none, imm14 := w.extractLsb' 0 14, rel := none }
  else { hi := none, im := some (w.extractLsb' 8 24), imm14 := (w.extractLsb' 0 8).setWidth 14, rel := none }

/-- The shortest form of a constant that takes at least `least` literals (R89); `none` is E003. -/
def constForm (k : ImmK) (c : Dword) (least : Nat) : Option ImmForm :=
  let w : Word := c.setWidth 32
  match k with
  | .no => none
  | .movi => if fits32 c then some (formMovi w least) else none
  | .i32 => if fits32 c && fitsSigned w.toInt 24 then some (formIm (w.extractLsb' 0 24)) else none
  | .f32 => if fits32 c && w.extractLsb' 0 8 == 0 then some (formIm (w.extractLsb' 8 24)) else none
  | .i64 | .off =>
    if least ≤ 1 && fitsSigned c.toInt 24 then some (formIm (c.extractLsb' 0 24))
    else if fitsSigned c.toInt 48 then some (formPair (c.extractLsb' 0 48))
    else none
  | .f64 =>
    if least ≤ 1 && c.extractLsb' 0 40 == 0 then some (formIm (c.extractLsb' 40 24))
    else if c.extractLsb' 0 16 == 0 then some (formPair (c.extractLsb' 16 48))
    else none

/-- The form of a relocatable value (Table 5.4). -/
def relForm (k : ImmK) (b : Base) (a : Dword) : Option ImmForm :=
  match k with
  | .movi => some { hi := none, im := some 0, imm14 := 0, rel := some (.movi32, b, a) }
  | .i32 => some { hi := none, im := some 0, imm14 := 0, rel := some (.lit24, b, a) }
  | .i64 | .off => some { hi := some 0, im := some 0, imm14 := 0, rel := some (.lit48, b, a) }
  | _ => none

/-- The bits a decimal immediate stands for on a word (R89): the format of a binary32 or binary64 B, else the one its letter names. -/
def decimalImm (k : ImmK) (s : Bool) (m : Nat) (e : Int) (dbl : Bool) : Dword :=
  let wide := match k with | .f32 => false | .f64 => true | _ => dbl
  BitVec.ofNat 64 (decimalBits (if wide then Machine.b64 else Machine.b32) s m e)

/-- The form of an immediate; an undefined symbol counts as 0 until it is known. -/
def immForm (sc : Scope_) (k : ImmK) (ts : List Tok) (least : Nat) : Except ExprErr ImmForm :=
  let of := fun (f : Option ImmForm) => match f with | some x => Except.ok x | none => Except.error (ExprErr.code 3)
  if k = .no then .error (.code 3)
  else
    match decimalOf ts with
    | some (s, m, e, some dbl) => of (constForm k (decimalImm k s m e dbl) least)
    | some _ => .error (.code 1)
    | none =>
      match evalToks sc ts with
      | .error e => .error e
      | .ok v =>
        if v.rel.isEmpty then of (constForm k v.c least)
        else match v.base with
          | some b => of (relForm k b v.c)
          | none => .error (.code 62)

end Sys2Proof.Asm
end

