-- ==== Sys2Proof/Machine/AsmWord.lean ====
section
/-! DEFINITION. The Stoluf assembler, third part (spec/05 R86, R89, R100): mnemonics, suffixes, operands, and one word of source
encoded with its literal run. -/

namespace Sys2Proof.Asm

/-! ### Mnemonics (Tables 4.11 to 4.18) -/

/-- A mnemonic: its class, opcode, and function code where it has one. -/
structure Row where
  name : String
  cls : Cls
  op : Nat
  fn : Option Nat
deriving DecidableEq, Repr

/-- The mnemonics of the GEN map. -/
def rowsGen : List Row := [
  ⟨"iadd", .gen, 0, none⟩, ⟨"isub", .gen, 1, none⟩, ⟨"imul", .gen, 2, none⟩, ⟨"imad", .gen, 3, none⟩, ⟨"imulh", .gen, 4, none⟩,
  ⟨"imulhn", .gen, 5, none⟩, ⟨"and", .gen, 6, none⟩, ⟨"or", .gen, 7, none⟩, ⟨"xor", .gen, 8, none⟩, ⟨"andn", .gen, 9, none⟩,
  ⟨"shl", .gen, 10, none⟩, ⟨"shr", .gen, 11, none⟩, ⟨"sar", .gen, 12, none⟩, ⟨"fdiv", .gen, 13, none⟩,
  ⟨"imin", .gen, 14, none⟩, ⟨"imax", .gen, 15, none⟩, ⟨"nmin", .gen, 16, none⟩, ⟨"nmax", .gen, 17, none⟩,
  ⟨"isetp", .gen, 18, none⟩, ⟨"sel", .gen, 19, none⟩, ⟨"mov", .gen, 20, none⟩, ⟨"movi", .gen, 21, none⟩,
  ⟨"shfl", .gen, 22, none⟩, ⟨"fadd", .gen, 24, none⟩, ⟨"fmul", .gen, 25, none⟩, ⟨"ffma", .gen, 26, none⟩,
  ⟨"ffmal", .gen, 27, none⟩, ⟨"fmin", .gen, 28, none⟩, ⟨"fmax", .gen, 29, none⟩, ⟨"fsetp", .gen, 30, none⟩,
  ⟨"vote.any", .gen, 23, some 0⟩, ⟨"vote.all", .gen, 23, some 1⟩, ⟨"vote.ballot", .gen, 23, some 2⟩,
  ⟨"ineg", .gen, 31, some 0⟩, ⟨"iabs", .gen, 31, some 1⟩, ⟨"not", .gen, 31, some 2⟩, ⟨"popc", .gen, 31, some 3⟩,
  ⟨"clz", .gen, 31, some 4⟩, ⟨"brev", .gen, 31, some 5⟩, ⟨"bswap", .gen, 31, some 6⟩, ⟨"fneg", .gen, 31, some 16⟩,
  ⟨"fabs", .gen, 31, some 17⟩, ⟨"frcp", .gen, 31, some 18⟩, ⟨"fsqrt", .gen, 31, some 19⟩, ⟨"frsq", .gen, 31, some 20⟩,
  ⟨"fex2", .gen, 31, some 21⟩, ⟨"flg2", .gen, 31, some 22⟩, ⟨"fsin", .gen, 31, some 23⟩, ⟨"fcos", .gen, 31, some 24⟩,
  ⟨"fclass", .gen, 31, some 25⟩, ⟨"frint", .gen, 31, some 26⟩, ⟨"cvt.f32.i32", .gen, 31, some 32⟩,
  ⟨"cvt.f32.n32", .gen, 31, some 33⟩, ⟨"cvt.i32.f32", .gen, 31, some 34⟩, ⟨"cvt.n32.f32", .gen, 31, some 35⟩,
  ⟨"cvt.f16.f32", .gen, 31, some 36⟩, ⟨"cvt.f32.f16", .gen, 31, some 37⟩, ⟨"cvt.bf16.f32", .gen, 31, some 38⟩,
  ⟨"cvt.f32.bf16", .gen, 31, some 39⟩, ⟨"cvt.i32.i8", .gen, 31, some 40⟩, ⟨"cvt.i32.i16", .gen, 31, some 41⟩,
  ⟨"quant", .gen, 31, some 64⟩, ⟨"deq", .gen, 31, some 72⟩]

/-- The mnemonics of the WIDE map. -/
def rowsWide : List Row := [
  ⟨"dadd", .wide, 0, none⟩, ⟨"dsub", .wide, 1, none⟩, ⟨"dmul", .wide, 2, none⟩, ⟨"dfma", .wide, 3, none⟩,
  ⟨"dfmal", .wide, 4, none⟩, ⟨"ddiv", .wide, 5, none⟩, ⟨"dmin", .wide, 6, none⟩, ⟨"dmax", .wide, 7, none⟩,
  ⟨"dsetp", .wide, 8, none⟩, ⟨"dscale", .wide, 9, none⟩, ⟨"ladd", .wide, 10, none⟩, ⟨"lsub", .wide, 11, none⟩,
  ⟨"lmul", .wide, 12, none⟩, ⟨"lmulh", .wide, 13, none⟩, ⟨"lmulhn", .wide, 14, none⟩, ⟨"land", .wide, 15, none⟩,
  ⟨"lor", .wide, 16, none⟩, ⟨"lxor", .wide, 17, none⟩, ⟨"lshl", .wide, 18, none⟩, ⟨"lshr", .wide, 19, none⟩,
  ⟨"lsar", .wide, 20, none⟩, ⟨"lsetp", .wide, 21, none⟩, ⟨"lmin", .wide, 22, none⟩, ⟨"lmax", .wide, 23, none⟩,
  ⟨"lea", .wide, 24, none⟩, ⟨"lea4", .wide, 25, none⟩, ⟨"lea8", .wide, 26, none⟩, ⟨"lmov", .wide, 27, none⟩,
  ⟨"dneg", .wide, 28, some 0⟩, ⟨"dabs", .wide, 28, some 1⟩, ⟨"dsqrt", .wide, 28, some 2⟩, ⟨"dclass", .wide, 28, some 3⟩,
  ⟨"drint", .wide, 28, some 4⟩, ⟨"dgetexp", .wide, 28, some 5⟩, ⟨"dgetmant", .wide, 28, some 6⟩, ⟨"lneg", .wide, 28, some 8⟩,
  ⟨"lpopc", .wide, 28, some 9⟩, ⟨"lclz", .wide, 28, some 10⟩, ⟨"cvt.f64.f32", .wide, 28, some 32⟩,
  ⟨"cvt.f32.f64", .wide, 28, some 33⟩, ⟨"cvt.f64.i32", .wide, 28, some 34⟩, ⟨"cvt.f64.n32", .wide, 28, some 35⟩,
  ⟨"cvt.f64.i64", .wide, 28, some 36⟩, ⟨"cvt.f64.n64", .wide, 28, some 37⟩, ⟨"cvt.i32.f64", .wide, 28, some 38⟩,
  ⟨"cvt.n32.f64", .wide, 28, some 39⟩, ⟨"cvt.i64.f64", .wide, 28, some 40⟩, ⟨"cvt.n64.f64", .wide, 28, some 41⟩,
  ⟨"cvt.i64.i32", .wide, 28, some 42⟩, ⟨"cvt.n64.n32", .wide, 28, some 43⟩, ⟨"rdfx", .wide, 29, some 0⟩,
  ⟨"clrfx", .wide, 29, some 1⟩, ⟨"setfx", .wide, 29, some 2⟩, ⟨"rdrm", .wide, 29, some 3⟩, ⟨"setrm", .wide, 29, some 4⟩]

/-- The mnemonics of the MEM map. -/
def rowsMem : List Row := [
  ⟨"ldb", .mem, 0, none⟩, ⟨"ldbs", .mem, 1, none⟩, ⟨"ldh", .mem, 2, none⟩, ⟨"ldhs", .mem, 3, none⟩, ⟨"ldw", .mem, 4, none⟩,
  ⟨"ldd", .mem, 5, none⟩, ⟨"ldq", .mem, 6, none⟩, ⟨"stb", .mem, 7, none⟩, ⟨"sth", .mem, 8, none⟩, ⟨"stw", .mem, 9, none⟩,
  ⟨"std", .mem, 10, none⟩, ⟨"stq", .mem, 11, none⟩, ⟨"stws", .mem, 12, none⟩, ⟨"stds", .mem, 13, none⟩,
  ⟨"asw", .mem, 14, none⟩, ⟨"asd", .mem, 15, none⟩, ⟨"asq", .mem, 16, none⟩, ⟨"aadd", .mem, 17, none⟩,
  ⟨"amin", .mem, 18, none⟩, ⟨"amax", .mem, 19, none⟩, ⟨"aand", .mem, 20, none⟩, ⟨"aor", .mem, 21, none⟩,
  ⟨"axor", .mem, 22, none⟩, ⟨"axch", .mem, 23, none⟩, ⟨"acas", .mem, 24, none⟩, ⟨"afadd", .mem, 25, none⟩,
  ⟨"adadd", .mem, 26, none⟩, ⟨"fence", .mem, 27, none⟩, ⟨"pref", .mem, 30, none⟩, ⟨"lstamp", .mem, 28, some 0⟩,
  ⟨"floorup", .mem, 28, some 1⟩, ⟨"settle", .mem, 28, some 2⟩, ⟨"tagl", .mem, 29, some 0⟩, ⟨"tags", .mem, 29, some 1⟩,
  ⟨"tagi", .mem, 29, some 2⟩, ⟨"tagc", .mem, 29, some 3⟩]

/-- The mnemonics of the CTL map. -/
def rowsCtl : List Row := [
  ⟨"bra", .ctl, 0, none⟩, ⟨"brx", .ctl, 1, none⟩, ⟨"call", .ctl, 2, none⟩, ⟨"callx", .ctl, 3, none⟩, ⟨"ret", .ctl, 4, none⟩,
  ⟨"exit", .ctl, 5, none⟩, ⟨"bar", .ctl, 6, none⟩, ⟨"bara", .ctl, 7, none⟩, ⟨"barw", .ctl, 8, none⟩, ⟨"pause", .ctl, 9, none⟩,
  ⟨"regacq", .ctl, 10, none⟩, ⟨"regtry", .ctl, 11, none⟩, ⟨"regrel", .ctl, 12, none⟩, ⟨"kill", .ctl, 13, none⟩,
  ⟨"setx", .ctl, 14, none⟩, ⟨"sread", .ctl, 15, none⟩, ⟨"swrite", .ctl, 16, none⟩, ⟨"elect", .ctl, 17, none⟩,
  ⟨"assert", .ctl, 18, none⟩, ⟨"trap", .ctl, 19, none⟩, ⟨"bkpt", .ctl, 20, none⟩, ⟨"nop", .ctl, 21, none⟩,
  ⟨"sadd", .ctl, 22, none⟩, ⟨"ssub", .ctl, 23, none⟩, ⟨"smul", .ctl, 24, none⟩, ⟨"smov", .ctl, 25, none⟩,
  ⟨"smovi", .ctl, 26, none⟩, ⟨"ssetp", .ctl, 27, none⟩, ⟨"sld", .ctl, 28, none⟩, ⟨"slea", .ctl, 29, none⟩,
  ⟨"sand", .ctl, 30, none⟩, ⟨"vtos", .ctl, 31, none⟩]

/-- The mnemonics of the ENG map. -/
def rowsEng : List Row := [
  ⟨"mma", .eng, 0, none⟩, ⟨"mmasp", .eng, 1, none⟩, ⟨"accz", .eng, 2, none⟩, ⟨"accld", .eng, 3, none⟩,
  ⟨"accst", .eng, 4, none⟩, ⟨"kick", .eng, 5, none⟩, ⟨"arvi", .eng, 6, none⟩, ⟨"send", .eng, 7, none⟩,
  ⟨"slotrd", .eng, 8, none⟩, ⟨"rlq", .eng, 9, none⟩]

/-- The mnemonics of the RUL map. -/
def rowsRul : List Row := [
  ⟨"rcfg", .rul, 0, none⟩, ⟨"rtld", .rul, 1, none⟩, ⟨"rstep", .rul, 2, none⟩, ⟨"rpack", .rul, 3, none⟩,
  ⟨"runpack", .rul, 4, none⟩, ⟨"rcount", .rul, 5, none⟩, ⟨"rgen", .rul, 6, none⟩, ⟨"rabort", .rul, 7, none⟩]

/-- The mnemonics of the PKD map. -/
def rowsPkd : List Row := [
  ⟨"padd.f2", .pkd, 0, none⟩, ⟨"pmul.f2", .pkd, 1, none⟩, ⟨"pfma.f2", .pkd, 2, none⟩, ⟨"padd.h2", .pkd, 3, none⟩,
  ⟨"pmul.h2", .pkd, 4, none⟩, ⟨"pfma.h2", .pkd, 5, none⟩, ⟨"padd.b2", .pkd, 6, none⟩, ⟨"pmul.b2", .pkd, 7, none⟩,
  ⟨"pfma.b2", .pkd, 8, none⟩, ⟨"pmin.h2", .pkd, 9, none⟩, ⟨"pmax.h2", .pkd, 10, none⟩, ⟨"pmin.b2", .pkd, 11, none⟩,
  ⟨"pmax.b2", .pkd, 12, none⟩, ⟨"pdot2.h", .pkd, 13, none⟩, ⟨"pdot2.b", .pkd, 14, none⟩, ⟨"pdot4.i8", .pkd, 15, none⟩,
  ⟨"pdot4.n8", .pkd, 16, none⟩, ⟨"padd.i16", .pkd, 17, none⟩, ⟨"psub.i16", .pkd, 18, none⟩, ⟨"f2toh2", .pkd, 19, some 0⟩,
  ⟨"f2tob2", .pkd, 19, some 1⟩, ⟨"h2tof2", .pkd, 19, some 2⟩, ⟨"b2tof2", .pkd, 19, some 3⟩, ⟨"quant4", .pkd, 19, some 64⟩,
  ⟨"deq4", .pkd, 19, some 72⟩]

/-- The mnemonics of the SYS map. -/
def rowsSys : List Row := [
  ⟨"csrr", .sys, 0, none⟩, ⟨"csrw", .sys, 1, none⟩, ⟨"eret", .sys, 2, none⟩, ⟨"eretall", .sys, 3, none⟩,
  ⟨"xinv", .sys, 4, none⟩, ⟨"xsync", .sys, 5, none⟩, ⟨"hset", .sys, 6, none⟩, ⟨"ckpt", .sys, 7, none⟩]

/-- Every mnemonic. -/
def allRows : List Row := rowsGen ++ rowsWide ++ rowsMem ++ rowsCtl ++ rowsEng ++ rowsRul ++ rowsPkd ++ rowsSys

/-- The fields of a word before its operands are read: unguarded, z in every selector field, a function code in B. -/
def blankRaw (d : Nat) (fn : Option Nat) : Raw :=
  { g := 15, n := false, k := false, d := BitVec.ofNat 7 d, a := 70, b := BitVec.ofNat 7 (fn.getD 70), am := none, mm := none, hi := none,
    im := none }

/-- The signature of a row, given what its suffixes put into D. -/
def Row.sig (r : Row) (d : Nat) : Option Sig := (build r.cls r.op (blankRaw d r.fn)).bind Instr.sig

/-- The row that the longest beginning of dotted parts names, and the parts after it, which are suffixes (R86). -/
def findRow (parts : List Text) : Nat → Option (Row × List Text)
  | 0 => none
  | n + 1 =>
    let name := (parts.take (n + 1)).intersperse ['.'] |>.flatten
    match allRows.find? (fun r => r.name.toList == name) with
    | some r => some (r, parts.drop (n + 1))
    | none => findRow parts n

/-! ### Suffixes (R86, Tables 4.8, 4.9) -/

/-- What suffixes have set: the two modifiers, the bits they put into D, which modifier was named, and the fields set. -/
structure Suffixed where
  mm : MemMod
  am : Arith
  draw : Nat
  hasMm : Bool
  hasAm : Bool
  seen : List Nat
deriving DecidableEq, Repr

/-- No suffix: the class default counter, and every other field from MDEF (R70). -/
def Suffixed.start : Suffixed :=
  { mm := { signed := false, w64 := false, noagg := false, ctr := 6, cache := none, space := none, scope := none, ord := none },
    am := { toff := 0, sat := false, ftz := false, rm := none }, draw := 0, hasMm := false, hasAm := false, seen := [] }

/-- A modifier of Table 4.8: the number of its field, and the payload with it. -/
def memSuffix (m : MemMod) (s : Text) : Option (Nat × MemMod) :=
  let is := fun (n : String) => s == n.toList
  if is "pln" then some (0, { m with ord := some .plain })
  else if is "acq" then some (0, { m with ord := some .acq })
  else if is "rel" then some (0, { m with ord := some .rel })
  else if is "ar" then some (0, { m with ord := some .acqRel })
  else if is "thr" then some (1, { m with scope := some .thr })
  else if is "wrp" then some (1, { m with scope := some .wrp })
  else if is "blk" then some (1, { m with scope := some .blk })
  else if is "clu" then some (1, { m with scope := some .clu })
  else if is "dev" then some (1, { m with scope := some .dev })
  else if is "sys" then some (1, { m with scope := some .sys })
  else if is "glb" then some (2, { m with space := some .glb })
  else if is "own" then some (2, { m with space := some .own })
  else if is "clw" then some (2, { m with space := some .clw })
  else if is "mir" then some (2, { m with space := some .mir })
  else if is "par" then some (2, { m with space := some .par })
  else if is "keep" then some (3, { m with cache := some .keep })
  else if is "strm" then some (3, { m with cache := some .strm })
  else if is "l2" then some (3, { m with cache := some .l2 })
  else if is "wt" then some (3, { m with cache := some .wt })
  else if is "w0" then some (4, { m with ctr := 0 })
  else if is "w1" then some (4, { m with ctr := 1 })
  else if is "w2" then some (4, { m with ctr := 2 })
  else if is "w3" then some (4, { m with ctr := 3 })
  else if is "w4" then some (4, { m with ctr := 4 })
  else if is "w5" then some (4, { m with ctr := 5 })
  else if is "nc" then some (4, { m with ctr := 7 })
  else if is "noagg" then some (5, { m with noagg := true })
  else if is "w64" then some (6, { m with w64 := true })
  else if is "sgn" then some (7, { m with signed := true })
  else none

/-- A modifier of Table 4.9. -/
def arithSuffix (m : Arith) (s : Text) : Option (Nat × Arith) :=
  let is := fun (n : String) => s == n.toList
  if is "rn" then some (8, { m with rm := some .ne })
  else if is "rz" then some (8, { m with rm := some .tz })
  else if is "ru" then some (8, { m with rm := some .up })
  else if is "rd" then some (8, { m with rm := some .dn })
  else if is "ftz" then some (9, { m with ftz := true })
  else if is "sat" then some (10, { m with sat := true })
  else none

/-- The FLAGS bit of a flag name (Table 6.3). -/
def flagBit (s : Text) : Option Nat :=
  let is := fun (n : String) => s == n.toList
  if is "iv" then some 4 else if is "dz" then some 3 else if is "of" then some 2 else if is "uf" then some 1
  else if is "ix" then some 0 else none

/-- The code of a scope suffix (Table 4.8). -/
def scopeCode (s : Text) : Option Nat :=
  (memSuffix Suffixed.start.mm s).bind (fun p => if p.1 = 1 then p.2.scope.map (fun x => (Scope.code (some x)).toNat) else none)

/-- A suffix that fills a raw D field, by mnemonic: its place in the list of fields, and the bits (R76, R228, R273, R305). -/
def rawSuffix (name : String) (s : Text) : Option (Nat × Nat) :=
  let is := fun (n : String) => s == n.toList
  if name = "fence" then
    if is "full" then some (20, 0) else if is "acq" then some (20, 16) else if is "rel" then some (20, 32)
    else (scopeCode s).map (fun c => (21, c))
  else if name = "rlq" then
    if is "rd" then some (20, 0) else if is "wr" then some (20, 16) else none
  else if name = "xinv" then
    if is "va" then some (20, 0) else if is "asid" then some (20, 1) else if is "ipa" then some (20, 2)
    else if is "vmid" then some (20, 3) else none
  else if name = "bar" || name = "bara" || name = "barw" then
    if is "wrp" then some (20, 0) else if is "blk" then some (20, 32) else if is "clu" then some (20, 64)
    else if is "grd" then some (20, 96) else none
  else none

/-- The fields that a mnemonic's suffixes must fill. -/
def needed (name : String) : List Nat :=
  if name = "fence" then [20, 21]
  else if name = "rlq" || name = "xinv" || name = "bar" || name = "bara" || name = "barw" then [20]
  else []

/-- A field marked as set; E004 where it was set before. -/
def Suffixed.mark (x : Suffixed) (n : Nat) : Except ExprErr Suffixed :=
  if x.seen.contains n then .error (.code 4) else .ok { x with seen := n :: x.seen }

/-- One suffix (R86). -/
def Suffixed.put (name : String) (x : Suffixed) (s : Text) : Except ExprErr Suffixed :=
  match rawSuffix name s with
  | some (f, v) => ({ x with draw := x.draw + v }).mark f
  | none =>
    match memSuffix x.mm s with
    | some (f, m) => ({ x with mm := m, hasMm := true }).mark f
    | none =>
      match arithSuffix x.am s with
      | some (f, m) => ({ x with am := m, hasAm := true }).mark f
      | none => .error (.code 1)

/-- Suffixes one after the other. -/
def Suffixed.puts (name : String) : Suffixed → List Text → Except ExprErr Suffixed
  | x, [] => .ok x
  | x, s :: r => match x.put name s with | .ok y => y.puts name r | .error e => .error e

/-- The `.toff(…)` suffix. -/
def Suffixed.toff (x : Suffixed) (flags : List (List Tok)) : Except ExprErr Suffixed :=
  let bits := flags.map (fun f => match f with | [⟨_, .name n⟩] => flagBit n | _ => none)
  if bits.isEmpty || bits.any Option.isNone then .error (.code 1)
  else
    let v := bits.foldl (fun v b => v ||| (1 <<< b.getD 0)) 0
    ({ x with am := { x.am with toff := BitVec.ofNat 5 v }, hasAm := true }).mark 11

/-! ### Operands (R64 to R66, R86) -/

/-- A register name: its letter and number. -/
def regOf (n : Text) : Option (Char × Nat) :=
  match n with
  | c :: r => if r.isEmpty || r.any (fun x => !x.isDigit) then none else some (c, digitsVal 10 r)
  | [] => none

/-- A vector-space selector by name; E002 where its number is out of range. -/
def vecSel (n : Text) : Except ExprErr (BitVec 7) :=
  if n = ['z'] then .ok 70
  else if n = ['v', 'x'] then .ok 71
  else
    match regOf n with
    | some ('v', i) => if i < 64 then .ok (BitVec.ofNat 7 i) else .error (.code 2)
    | some ('k', i) => if i < 4 then .ok (BitVec.ofNat 7 (64 + i)) else .error (.code 2)
    | some ('l', i) => if i < 2 then .ok (BitVec.ofNat 7 (68 + i)) else .error (.code 2)
    | some ('s', i) => if i < 56 then .ok (BitVec.ofNat 7 (72 + i)) else .error (.code 2)
    | _ => .error (.code 1)

/-- A scalar-space selector by name. -/
def scaSel (n : Text) : Except ExprErr (BitVec 7) :=
  if n = ['z'] then .ok 96
  else
    match regOf n with
    | some ('s', i) => if i < 96 then .ok (BitVec.ofNat 7 i) else .error (.code 2)
    | _ => .error (.code 1)

/-- A predicate by name. -/
def predSel (n : Text) : Except ExprErr Nat :=
  match regOf n with
  | some ('p', i) => if i < 12 then .ok i else .error (.code 2)
  | _ => .error (.code 1)

/-- The special register of a name (Table 4.20). -/
def specialOf (n : Text) : Option Nat :=
  ([("WORKID", 0), ("LEVELS", 2), ("SLOT", 4), ("WARP", 5), ("LANE", 6), ("CORE", 7), ("CLUSTER", 8), ("PART", 9), ("CLOCK", 10),
    ("FLAGS", 12), ("RMODE", 13), ("VIX", 14), ("EXTHELD", 15), ("LINK", 16), ("FLOOR", 18), ("SETTLED", 20), ("HORIZON", 22),
    ("TCAUSE", 24), ("TINFO", 25), ("TPC", 26), ("TADDR", 28), ("TSKID", 30), ("TMASK", 31), ("SYND", 32), ("TUNIT", 34),
    ("TSTAMP", 36), ("NBV", 38)].find? (fun e => e.1.toList == n)).map (·.2)

/-- The control register of a name (Table 18.6). -/
def controlOf (n : Text) : Option Nat :=
  ([("MODE", 0x00), ("CTXID", 0x02), ("S1ROOT", 0x04), ("S2ROOT", 0x06), ("PTVEC", 0x08), ("QSEL", 0x10), ("QBASE", 0x12), ("QCFG", 0x14),
    ("REQ_HEAD", 0x15), ("REQ_TAIL", 0x16), ("RSP_HEAD", 0x17), ("RSP_TAIL", 0x18), ("NEXTID", 0x19), ("TICKHOLD", 0x20), ("HOLD", 0x22),
    ("ERA", 0x24), ("GEN", 0x26)].find? (fun e => e.1.toList == n)).map (·.2)

/-- The code of a compare condition (Table 7.3); the float compares have names of their own for the last two. -/
def condOf (float : Bool) (n : Text) : Option Nat :=
  let is := fun (x : String) => n == x.toList
  if is "eq" then some 0 else if is "ne" then some 1 else if is "lt" then some 2 else if is "le" then some 3
  else if is "gt" then some 4 else if is "ge" then some 5
  else if is (if float then "num" else "ltn") then some 6
  else if is (if float then "nan" else "gen") then some 7
  else none

/-- Whether a field names a destination in the vector space. -/
def isDestField : FK → Bool
  | .d32 | .d64 | .dQuad | .dW64 | .d64B | .dSp | .dCr | .kill => true
  | _ => false

/-- The error of a selector that breaks its field's rule (Table 5.5); 0 where the table numbers none. -/
def selFault (k : FK) (x : BitVec 7) : Nat :=
  if isDestField k && (x == 68 || x == 69) then 11
  else if isDestField k && 72 ≤ x.toNat then 13
  else if x == 71 then 0
  else 12

/-- Whether a token is the dead mark. -/
def Tok.isTilde (t : Tok) : Bool := t.kind == .sym ['~']

/-- A place in a word's source that takes an operand. -/
inductive Slot_ where
  | d | a | b
  | fmt            -- the format slot of D
  | fnSlot         -- the slot added to the function code
  | cond
  | value          -- the immediate of MOVI and SMOVI
  | target         -- the target of BRA and CALL
deriving DecidableEq, Repr

/-- Whether a field is written as an operand. -/
def isWritten : FK → Bool
  | .z | .zS | .free | .fx0 | .fence | .xinv | .fslot => false
  | _ => true

/-- The operands of a word in the order in which they are written. -/
def operandsOf (s : Sig) : List Slot_ :=
  if s.imm = .movi then [.d, .value]
  else if s.d = .free then [.target]
  else
    (if isWritten s.d then [.d] else []) ++ (if isWritten s.a then [.a] else [])
      ++ (if s.fn.isNone && isWritten s.b then [.b] else []) ++ (if s.d = .fslot then [.fmt] else [])
      ++ (if s.d = .pred then [.cond] else []) ++ (if s.fn = some 0x40 || s.fn = some 0x48 then [.fnSlot] else [])

/-- A number written with or without `#`. -/
def numberOf (sc : Scope_) (ts : List Tok) (hi : Int) (code : Nat) : Except ExprErr Nat :=
  match ts with
  | ⟨_, .sym ['#']⟩ :: r => evalRange sc r 0 hi code
  | _ => evalRange sc ts 0 hi code

/-- The value of a field read from an operand that is no immediate. -/
def fieldOf (sc : Scope_) (k : FK) (draw : Nat) (w64 : Bool) (spec : Nat) (ts : List Tok) : Except ExprErr (BitVec 7) :=
  let ofNat := fun (r : Except ExprErr Nat) => r.map (fun n => BitVec.ofNat 7 n)
  let name := match ts with | [⟨_, .name n⟩] => some n | _ => none
  let named := fun (f : Text → Option Nat) (ok : Nat → Bool) =>
    let v := match name.bind f with | some n => Except.ok n | none => numberOf sc ts 127 2
    ofNat (match v with | .ok n => if ok n then .ok n else .error (.code 2) | .error e => .error e)
  match k with
  | .c32 | .c64 | .e32 | .e64 =>
    match name with
    | none => .error (.code 1)
    | some n =>
      match scaSel n with
      | .ok x => if k.ok 2 w64 spec x then .ok x else .error (.code 12)
      | .error e => .error e
  | .pred | .pred0 | .vote => match name with | some n => ofNat (predSel n) | none => .error (.code 1)
  | .rlq => match name with | some n => ofNat ((predSel n).map (fun p => draw + p)) | none => .error (.code 1)
  | .bar =>
    match numberOf sc ts 31 50 with
    | .ok n => if k.ok 2 w64 spec (BitVec.ofNat 7 (draw + n)) then .ok (BitVec.ofNat 7 (draw + n)) else .error (.code 50)
    | .error e => .error e
  | .raw => ofNat (numberOf sc ts 127 2)
  | .fxMask => ofNat (numberOf sc ts 31 2)
  | .fxRm => ofNat (numberOf sc ts 3 2)
  | .slotB => ofNat (numberOf sc ts 7 2)
  | .spr => named specialOf (fun n => (SReg.ofNum n).isSome)
  | .spw => named specialOf (fun n => (WReg.ofNum n).isSome)
  | .csr => named controlOf (fun n => (CReg.ofNum n).isSome)
  | .csw => named controlOf (fun n => (CWReg.ofNum n).isSome)
  | _ =>
    match name with
    | none => .error (.code 1)
    | some n =>
      match vecSel n with
      | .ok x => if k.ok 2 w64 spec x then .ok x else .error (.code (selFault k x))
      | .error e => .error (if isDestField k && (scaSel n).isOk && n != ['z'] then .code 13 else e)

/-- A word of source with its encoding: the line, the row's signature, the fields, the words with their literal run, the
relocations by place in the run, the drain mark, the address that a direct transfer goes to, and the names that give it. -/
structure Coded where
  at_ : Src
  sig : Sig
  raw : Raw
  words : List Word
  rels : List (Nat × RelType × Base × Dword)
  drain : Bool
  target : Option Val
  labels : List Text
deriving DecidableEq, Repr

/-- The literal words of a coded word. -/
def Coded.lits (c : Coded) : Nat := c.words.length - 1

/-- Whether a coded word is a BRA, BRX, CALL, CALLX, RET or EXIT. -/
def Coded.isTransfer (c : Coded) : Bool := c.sig.cls == .ctl && decide (c.sig.op.toNat ≤ 5)

/-- What operands have filled in: the fields, the immediate form, the target, and the names that the target's expression holds. -/
structure Filled where
  raw : Raw
  form : Option ImmForm
  target : Option Val
  labels : List Text
deriving DecidableEq, Repr

/-- A field put into a word. -/
def Filled.put (x : Filled) (s : Slot_) (v : BitVec 7) : Filled :=
  match s with
  | .d | .fmt => { x with raw := { x.raw with d := v } }
  | .a => { x with raw := { x.raw with a := v } }
  | _ => { x with raw := { x.raw with b := v } }

/-- An immediate put into a word: z of the field's space in B, and the literals (R68, R89). -/
def Filled.imm (x : Filled) (sg : Sig) (f : ImmForm) : Filled :=
  let b := match sg.b.immHole with | some z => z | none => x.raw.b
  { x with raw := { x.raw with b := b, hi := f.hi, im := f.im }, form := some f }

/-- One operand read. `spec` is the special or control number that decides the width of SREAD's and CSRR's operand. -/
def Filled.operand (sc : Scope_) (sg : Sig) (draw : Nat) (w64 : Bool) (spec least : Nat) (x : Filled) (s : Slot_) (ts : List Tok) :
    Except ExprErr Filled :=
  let reg := fun (k : FK) (ts : List Tok) => (fieldOf sc k draw w64 spec ts).map (fun v => x.put s v)
  if (ts.drop 1).any Tok.isTilde || (s != .a && (ts.take 1).any Tok.isTilde) then .error (.code 12) else
  match s, ts with
  | _, [] => .error (.code 1)
  | .value, ⟨_, .sym ['#']⟩ :: r =>
    (immForm sc .movi r least).map (fun f =>
      { x with raw := { x.raw with a := f.imm14.extractLsb' 7 7, b := f.imm14.extractLsb' 0 7, im := f.im }, form := some f })
  | .value, _ => .error (.code 1)
  | .target, ⟨_, .sym ['#']⟩ :: _ | .cond, ⟨_, .sym ['#']⟩ :: _ => .error (.code 3)
  | .target, _ =>
    (evalToks sc ts).map (fun v =>
      { x with target := some v, labels := ts.filterMap (fun t => match t.kind with | .name n => some n | _ => none) })
  | .fmt, _ => (numberOf sc ts 7 2).map (fun n => x.put .fmt (BitVec.ofNat 7 n))
  | .fnSlot, _ => (numberOf sc ts 7 2).map (fun n => x.put .b (BitVec.ofNat 7 (x.raw.b.toNat + n)))
  | .cond, _ =>
    let float := (sg.cls == .gen && sg.op == 30) || (sg.cls == .wide && sg.op == 8)
    match ts with
    | [⟨_, .name n⟩] =>
      match condOf float n with
      | some c => .ok (x.put .d (BitVec.ofNat 7 (16 * c + x.raw.d.toNat)))
      | none => .error (.code 1)
    | _ => .error (.code 1)
  | .a, ⟨_, .sym ['~']⟩ :: r =>
    match sg.a with
    | .vote | .fxMask | .fxRm => .error (.code 12)
    | _ => (fieldOf sc sg.a draw w64 spec r).map (fun v => { x.put .a v with raw := { (x.put .a v).raw with k := true } })
  | .b, ⟨_, .sym ['#']⟩ :: r =>
    match sg.b with
    | .raw | .slotB => reg sg.b ts
    | _ => (immForm sc sg.imm r least).map (fun f => x.imm sg f)
  | .a, ⟨_, .sym ['#']⟩ :: _ => match sg.a with | .fxMask | .fxRm => reg sg.a ts | _ => .error (.code 3)
  | .d, ⟨_, .sym ['#']⟩ :: _ => if sg.d = .bar then reg sg.d ts else .error (.code 3)
  | .a, _ => reg sg.a ts
  | .b, _ => reg sg.b ts
  | .d, _ => reg sg.d ts

/-- Operands read in order. -/
def Filled.operands (sc : Scope_) (sg : Sig) (draw : Nat) (w64 : Bool) (spec least : Nat) :
    Filled → List (Slot_ × List Tok) → Except ExprErr Filled
  | x, [] => .ok x
  | x, (s, ts) :: r =>
    match x.operand sc sg draw w64 spec least s ts with
    | .ok y => y.operands sc sg draw w64 spec least r
    | .error e => .error e

/-- The guard at the head of a word (R86). -/
def guardOf (ts : List Tok) : Except ExprErr (Guard × List Tok) :=
  let pr := fun (n : Text) (neg : Bool) (r : List Tok) =>
    match predSel n with
    | .ok i => Except.ok (Guard.pred (Fin.ofNat 12 i) neg, r)
    | .error e => Except.error e
  match ts with
  | ⟨_, .sym ['(']⟩ :: ⟨_, .name n⟩ :: ⟨_, .sym [')']⟩ :: r => pr n false r
  | ⟨_, .sym ['(']⟩ :: ⟨_, .sym ['!']⟩ :: ⟨_, .name n⟩ :: ⟨_, .sym [')']⟩ :: r => pr n true r
  | ⟨_, .sym ['(']⟩ :: r => .error (.code (if (r.takeWhile (fun t => t.kind != .sym [')'])).any Tok.isTilde then 12 else 1))
  | _ => .ok (.always, ts)

/-- A word's name with its suffixes, the flags of each `.toff(…)`, and the tokens after them, from the parts of the name so far. -/
def headParts : Nat → List Text → List (List (List Tok)) → List Tok → Option (List Text × List (List (List Tok)) × List Tok)
  | 0, _, _, _ => none
  | fuel + 1, ps, toffs, r =>
    if ps.getLast? = some "toff".toList then
      match r with
      | ⟨_, .sym ['(']⟩ :: q =>
        let inside := q.takeWhile (fun t => t.kind != .sym [')'])
        let got := toffs ++ [parts inside]
        match q.drop (inside.length + 1) with
        | ⟨_, .dot m⟩ :: z => headParts fuel (ps.dropLast ++ splitText '.' m) got z
        | after => some (ps.dropLast, got, after)
      | _ => none
    else some (ps, toffs, r)

/-- A word's name with its suffixes, the flags of each `.toff(…)`, and the tokens after them. -/
def headOfWord (ts : List Tok) : Option (List Text × List (List (List Tok)) × List Tok) :=
  match ts with
  | ⟨_, .name n⟩ :: r => headParts (ts.length + 1) (splitText '.' n) [] r
  | _ => none

/-- The `.toff(…)` suffixes one after the other; a second one sets its field twice. -/
def Suffixed.toffs : Suffixed → List (List (List Tok)) → Except ExprErr Suffixed
  | x, [] => .ok x
  | x, f :: r => match x.toff f with | .ok y => y.toffs r | .error e => .error e

/-- The special or control number that a word's last operand names, which decides a width. -/
def specOf (sc : Scope_) (sg : Sig) (ops : List (List Tok)) : Nat :=
  match sg.b with
  | .spr | .spw | .csr | .csw =>
    match fieldOf sc sg.b 0 false 0 (ops.getLast?.getD []) with
    | .ok v => v.toNat
    | .error _ => 0
  | _ => 0

/-- The run of a coded word as relocations by place. -/
def relsOf (r : Raw) (f : Option ImmForm) : List (Nat × RelType × Base × Dword) :=
  match f.bind ImmForm.rel with
  | none => []
  | some (t, b, a) => [((if r.mm.isSome then 1 else 0) + (if r.am.isSome then 1 else 0), t, b, a)]

/-- The offset field of a direct transfer (R63, R96): known where the target lies in the same section, a relocation where
another object defines it. -/
def branchOf (here : Val) (v : Val) : Except ExprErr (BitVec 21 × List (Nat × RelType × Base × Dword)) :=
  let d := v.add here.neg
  if d.rel.isEmpty then
    if d.c.toInt % 4 = 0 && fitsSigned (d.c.toInt / 4) 21 then .ok (BitVec.ofInt 21 (d.c.toInt / 4), []) else .error (.code 62)
  else
    match v.base with
    | some (.other n) => .ok (0, [(0, .br21, .other n, v.c)])
    | _ => .error (.code 62)

/-- The operands paired with their places; EXIT may be written without its operand (R271). -/
def pairOps (name : String) (places : List Slot_) (ops : List (List Tok)) : Option (List (Slot_ × List Tok)) :=
  if ops.isEmpty && name = "exit" then some []
  else if places.length = ops.length then some (places.zip ops)
  else none

/-- One word of source encoded. `least` is how many immediate literals it takes at least; the errors are those of Table 5.5. -/
def codeWord (sc : Scope_) (at_ : Src) (toks : List Tok) (least : Nat) : Except ExprErr Coded := do
  let (g, t1) ← guardOf toks
  if (t1.take 1).any Tok.isTilde then .error (.code 12)
  let drain := match t1.getLast? with | some ⟨_, .sym ['!']⟩ => true | _ => false
  let t2 := if drain then t1.dropLast else t1
  let (names, toff, t3) ← (headOfWord t2).elim (.error (.code 1)) .ok
  let (row, sfx) ← (findRow names names.length).elim (.error (.code 1)) .ok
  let x0 ← Suffixed.start.puts row.name sfx
  let x ← x0.toffs toff
  if (needed row.name).any (fun n => !x.seen.contains n) then .error (.code 1)
  let sg ← (row.sig x.draw).elim (.error (.code 1)) .ok
  let base ← (row.sig 0).elim (.error (.code 1)) .ok
  -- the modifiers (R70, R71)
  if x.hasMm && !memModOk sg.mm x.mm then .error (.code 23)
  if x.hasAm && !arithOk sg.ar x.am.payload then .error (.code 23)
  let w64 := x.hasMm && x.mm.w64
  let z := fun (k : FK) => if k = .zS || k = .c32 || k = .c64 then (96 : BitVec 7) else 70
  let raw0 : Raw :=
    { g := g.g, n := g.n, k := false, d := if isWritten sg.d then 70 else if sg.d = .zS then 96 else if sg.d = .z then 70 else BitVec.ofNat 7 x.draw,
      a := if sg.a = .fx0 then 0 else z sg.a, b := match row.fn with | some f => BitVec.ofNat 7 f | none => z sg.b,
      am := if x.hasAm then some x.am.payload else none, mm := if x.hasMm then some x.mm.payload else none, hi := none, im := none }
  let ops := parts t3
  let pairs ← (pairOps row.name (operandsOf (if row.name = "xinv" then base else sg)) ops).elim (.error (.code 1)) .ok
  let f ← ({ raw := raw0, form := none, target := none, labels := [] } : Filled).operands sc sg x.draw w64 (specOf sc sg ops) least pairs
  match f.target with
  | none =>
    .ok { at_ := at_, sig := sg, raw := f.raw, words := f.raw.runWords ++ [f.raw.word sg.op], rels := relsOf f.raw f.form, drain := drain,
          target := none, labels := [] }
  | some v =>
    let (off, rels) ← branchOf sc.here v
    let r := { f.raw with d := off.extractLsb' 14 7, a := off.extractLsb' 7 7, b := off.extractLsb' 0 7 }
    .ok { at_ := at_, sig := sg, raw := r, words := [r.word sg.op], rels := rels, drain := drain, target := some v, labels := f.labels }

end Sys2Proof.Asm
end

