-- ==== Sys2Proof/Machine/AsmRecord.lean ====
section
/-! DEFINITION. The Stoluf assembler, fourth part (spec/05 R92 to R94): launch records, format slots, mirror windows and arm
descriptors from the keys of their directives. -/

namespace Sys2Proof.Asm

/-! ### Bytes and keys -/

/-- Bytes with a field of `n` bytes put at an offset. -/
def putField (l : List Byte) (off n : Nat) (v : Nat) : List Byte :=
  l.take off ++ Machine.leBytes v n ++ l.drop (off + n)

/-- A relocation of a section: where, of which type, and what it adds. -/
structure Reloc where
  off : Nat
  typ : RelType
  base : Base
  addend : Dword
deriving DecidableEq, Repr

/-- A key of a directive with its value's tokens; a key alone has none. -/
abbrev Keys := List (Text × Option (List Tok))

/-- Parts read as keys; `none` where a part does not begin with a name. -/
def keysOf : List (List Tok) → Option Keys
  | [] => some []
  | (⟨_, .name n⟩ :: ⟨_, .sym ['=']⟩ :: v) :: r => (keysOf r).map (fun k => (n, some v) :: k)
  | [⟨_, .name n⟩] :: r => (keysOf r).map (fun k => (n, none) :: k)
  | _ => none

/-- The value of a key. -/
def Keys.get (k : Keys) (n : String) : Option (List Tok) := (k.find? (fun e => e.1 == n.toList)).bind (·.2)

/-- Whether a key stands, with or without a value. -/
def Keys.has (k : Keys) (n : String) : Bool := k.any (fun e => e.1 == n.toList)

/-- Whether every key is one of a list. -/
def Keys.among (k : Keys) (l : List String) : Bool := k.all (fun e => l.any (fun n => n.toList == e.1))

/-- The name that a key's value is, by a list of names in the order of their codes. -/
def codeOf (l : List String) (ts : List Tok) : Except ExprErr Nat :=
  match ts with
  | [⟨_, .name n⟩] =>
    let i := l.findIdx (fun x => x.toList == n)
    if i < l.length then .ok i else .error (.code 1)
  | _ => .error (.code 1)

/-- A constant key with a default, in a range. -/
def Keys.num (k : Keys) (sc : Scope_) (n : String) (dflt hi code : Nat) : Except ExprErr Nat :=
  match k.get n with
  | none => .ok dflt
  | some ts => evalRange sc ts 0 hi code

/-- A 64-bit key that may be relocatable: its value. -/
def Keys.addr (k : Keys) (sc : Scope_) (n : String) : Except ExprErr Val :=
  match k.get n with
  | none => .ok (Val.const 0)
  | some ts => evalToks sc ts

/-- A list of constants between colons. -/
def colonNums (sc : Scope_) (hi : Int) : List (List Tok) → Except ExprErr (List Nat)
  | [] => .ok []
  | ts :: r =>
    match evalRange sc ts 0 hi 2 with
    | .error e => .error e
    | .ok n => (colonNums sc hi r).map (fun l => n :: l)

/-- A 64-bit value put into bytes: its constant, or zero and a relocation. -/
def putAddr (b : List Byte × List Reloc) (at_ off : Nat) (v : Val) : Except ExprErr (List Byte × List Reloc) :=
  if v.rel.isEmpty then .ok (putField b.1 off 8 v.c.toNat, b.2)
  else match v.base with
    | some x => .ok (b.1, b.2 ++ [{ off := at_ + off, typ := .abs64, base := x, addend := v.c }])
    | none => .error (.code 62)

/-! ### Launch records (R93, Table 15.3) -/

/-- The keys of `.launch`. -/
def launchKeys : List String :=
  ["entry", "trap", "args", "extent", "levels", "res", "red", "prio", "spad", "regs", "caps", "capn", "nbv", "mdef", "fxe", "chk", "succ"]

/-- The least width `w` with `2^w ≥ n`. -/
def leastWidth (n : Nat) : Nat := if n ≤ 1 then 0 else (n - 1).log2 + 1

/-- The FXE field: the flags named between colons. -/
def fxeOf (ts : List Tok) : Except ExprErr Nat :=
  let bits := (splitSym ':' ts).map (fun x => match x with | [⟨_, .name n⟩] => flagBit n | _ => none)
  if bits.any Option.isNone then .error (.code 1) else .ok (bits.foldl (fun v b => v ||| (1 <<< b.getD 0)) 0)

/-- The bytes of a launch record at an offset of `.launch`, with its relocations. `spad` and `nbv` are the file's defaults. -/
def launchRecord (sc : Scope_) (k : Keys) (at_ spad nbv : Nat) : Except ExprErr (List Byte × List Reloc) := do
  if !k.among launchKeys then .error (.code 1)
  if (k.get "entry").isNone then .error (.code 90)
  let ext ← match k.get "extent" with | some ts => colonNums sc 0xFFFFFFFF (splitSym ':' ts) | none => .ok []
  let lev ← match k.get "levels" with | some ts => colonNums sc 63 (splitSym ':' ts) | none => .ok []
  if 6 < ext.length || 5 < lev.length then .error (.code 90)
  let extents := (List.range 6).map (fun i => ext.getD i 1)
  let levels := (List.range 6).foldl (fun n i =>
    let w := if i = 0 then 5 else lev.getD (i - 1) (leastWidth (extents.getD i 1))
    n + (w % 64) * 2 ^ (6 * i)) 0
  let prio ← k.num sc "prio" 0 7 2
  let sp ← k.num sc "spad" spad 0xFFFFFFFF 2
  let regs ← k.num sc "regs" 0 0xFFFFFFFF 2
  let capn ← k.num sc "capn" 0 0xFFFF 2
  let nb ← k.num sc "nbv" nbv 0xFFFF 2
  let mdef ← k.num sc "mdef" 0x269 0xFFFFFFFF 2
  let fxe ← match k.get "fxe" with | some ts => fxeOf ts | none => .ok 0
  let chk ← match k.get "chk" with | some ts => codeOf ["none", "void", "sb", "all"] ts | none => .ok 0
  let flags := 16 * prio + (if k.has "red" then 2 else 0) + (if k.has "res" then 1 else 0)
  let b0 := List.replicate 256 (0 : Byte)
  let fields : List (Nat × Nat × Nat) :=
    [(0x00, 4, 0x4B490001), (0x04, 4, flags), (0x10, 8, levels), (0x30, 4, sp), (0x34, 4, regs), (0x48, 2, capn), (0x4A, 2, nb),
     (0x4C, 4, mdef), (0xD8, 4, fxe), (0xDC, 4, chk)] ++ extents.zipIdx.map (fun e => (0x18 + 4 * e.2, 4, e.1))
  let b1 := fields.foldl (fun b f => putField b f.1 f.2.1 f.2.2) b0
  let entry ← k.addr sc "entry"
  let b2 ← putAddr (b1, []) at_ 0x08 entry
  let args ← k.addr sc "args"
  let b3 ← putAddr b2 at_ 0x38 args
  let caps ← k.addr sc "caps"
  let b4 ← putAddr b3 at_ 0x40 caps
  let trap ← k.addr sc "trap"
  let b5 ← putAddr b4 at_ 0xD0 trap
  let succ ← k.addr sc "succ"
  putAddr b5 at_ 0xE0 succ

/-- Whether the front end would refuse a record under R24 or R70 (R93, E090). -/
def recordRefused (b : List Byte) : Bool := (Machine.recordOf b).badLevels || Machine.badMdef (Machine.fieldAt b 0x4C 4)

/-! ### Format slots (R94, Table 21.2) -/

/-- The names of the element formats, in the order of their codes. -/
def formatNames : List String := ["f64", "f32", "bf16", "f16", "e4m3", "e5m2", "i8", "n8"]

/-- The names of the scale modes. -/
def scaleNames : List String := ["none", "row", "tile", "tensor"]

/-- The names of the rounding modes. -/
def roundNames : List String := ["rn", "rz", "ru", "rd"]

/-- A key whose value is one of a list of names, with default code 0. -/
def Keys.code (k : Keys) (n : String) (l : List String) : Except ExprErr Nat :=
  match k.get n with
  | none => .ok 0
  | some ts => codeOf l ts

/-- The value of a format slot. -/
def slotValue (k : Keys) : Except ExprErr Nat := do
  if !k.among ["a", "b", "out", "ascale", "bscale", "sat", "rnd", "sparse"] then .error (.code 1)
  let a ← k.code "a" formatNames
  let b ← k.code "b" formatNames
  let out ← k.code "out" formatNames
  let asc ← k.code "ascale" scaleNames
  let bsc ← k.code "bscale" scaleNames
  let rnd ← k.code "rnd" roundNames
  .ok (a + 0x10 * b + 0x100 * out + 0x1000 * asc + 0x4000 * bsc + (if k.has "sat" then 0x10000 else 0) + 0x20000 * rnd
    + (if k.has "sparse" then 0x80000 else 0))

/-! ### Mirror windows (R92, R300, Table 17.5) -/

/-- The cores of a `.mirror`: the values between colons of `cores=`, and those of the parts after it that are no keys. -/
def mirrorParts (ps : List (List Tok)) : List (List Tok) × List (List Tok) :=
  let isKey := fun (p : List Tok) => match p with | ⟨_, .name _⟩ :: ⟨_, .sym ['=']⟩ :: _ => true | _ => false
  (ps.filter isKey, ps.filter (fun p => !isKey p))

/-- The two doublewords of a mirror window descriptor. -/
def mirrorValue (sc : Scope_) (ps : List (List Tok)) : Except ExprErr (Nat × Nat) := do
  let (named, more) := mirrorParts ps
  let k ← (keysOf named).elim (.error (.code 1)) .ok
  if !k.among ["base", "size", "cores"] then .error (.code 1)
  let base ← k.num sc "base" 0 0xFFFFF 2
  let size ← k.num sc "size" 0 0x100000 2
  let cores ← colonNums sc 0x7FFFFFFFFFFFFFFF (((k.get "cores").elim [] (splitSym ':')) ++ more)
  match cores with
  | [] => .error (.code 1)
  | c :: r =>
    let lo := r.foldl min c
    if cores.any (fun x => decide (lo + 15 < x) || decide (511 < x)) then .error (.code 96)
    else
      let mask := cores.foldl (fun m x => m ||| (1 <<< (x - lo))) 0
      .ok (size * 2 ^ 20 + base, mask * 2 ^ 16 + lo)

/-! ### Arm descriptors (R92, R252, Table 15.1) -/

/-- The bytes of an arm descriptor, armed (the worked arm of spec/15 holds 0x8000_0000 in word 0x04), at an offset of `.launch`, with its relocations. -/
def armRecord (sc : Scope_) (k : Keys) (at_ : Nat) : Except ExprErr (List Byte × List Reloc) := do
  if !k.among ["tag", "launch", "ring", "count", "size", "prio"] then .error (.code 1)
  let tag ← k.num sc "tag" 0 0xFFFFFFFF 2
  let count ← k.num sc "count" 0 0xFFFF 2
  let size ← k.num sc "size" 0 4096 95
  let prio ← k.num sc "prio" 0 7 95
  let fields : List (Nat × Nat × Nat) := [(0, 4, tag), (4, 4, 0x80000000 + prio), (0x18, 2, count), (0x1A, 2, size)]
  let b1 := fields.foldl (fun b f => putField b f.1 f.2.1 f.2.2) (List.replicate 32 (0 : Byte))
  let l ← k.addr sc "launch"
  let b2 ← putAddr (b1, []) at_ 8 l
  let r ← k.addr sc "ring"
  putAddr b2 at_ 0x10 r

end Sys2Proof.Asm
end

