-- ==== Sys2Proof/Machine/AsmPass.lean ====
section
/-! DEFINITION. The Stoluf assembler, fifth part (spec/05 R84, R87, R88, R91 to R94): one pass over the statements of a file.
It places words into clauses, explicit or formed, data into sections, and launch records and arm descriptors into `.launch`,
and it gathers symbols and diagnostics. -/

namespace Sys2Proof.Asm

/-! ### What a pass gathers -/

/-- The options of Table 5.1 that bear on the object. -/
structure Options where
  dirs : List Text
  defs : List (Text × Text)
  nbv : Nat
  auto : Bool
  early : Bool
  bank : Bool
  silent : List Nat
  werror : Bool
  most : Nat
deriving DecidableEq, Repr

/-- The options of a run that gives none. -/
def Options.start : Options :=
  { dirs := [], defs := [], nbv := 3, auto := false, early := false, bank := false, silent := [], werror := false, most := 50 }

/-- A clause: where its header lies in `.text`, its fields, whether the assembler formed it, whether a word of it was in error,
and its words. -/
structure Clause where
  at_ : Src
  off : Nat
  cls : Cls
  wait : BitVec 6
  step : Nat
  tc : Bool
  auto : Bool
  broken : Bool
  words : List Coded
deriving DecidableEq, Repr

/-- The number of words of a clause, its literal words counted (R87). -/
def Clause.n (c : Clause) : Nat := (c.words.map (fun w => w.words.length)).sum

/-- The offset that follows a clause (R57). -/
def Clause.stop (c : Clause) : Nat := c.off + 4 * (c.n + 1)

/-- A part of `.text`: a clause, or bytes between clauses. -/
inductive Piece where
  | clause (c : Clause)
  | bytes (at_ : Src) (off : Nat) (b : List Byte)
deriving DecidableEq, Repr

/-- What a symbol is in the object (R96). -/
inductive SymKind where
  | label | entry | object | const
deriving DecidableEq, Repr

/-- Data of a section other than `.text`: the line, the offset and the bytes. -/
structure Chunk where
  at_ : Src
  off : Nat
  b : List Byte
deriving DecidableEq, Repr

/-- A launch record of the file: its bytes and whether some format slot of it is declared. -/
structure RecordOf where
  at_ : Src
  b : List Byte
  rels : List Reloc
deriving DecidableEq, Repr

/-- The state of a pass. Lists grow at their heads. `forms` are the literal counts of the words in the pass before, taken one
by one, and `formsOut` those of this pass. -/
structure Work where
  opts : Options
  cur : List (Text × Val)
  prev : List (Text × Val)
  others : List Text
  othersPrev : List Text
  kinds : List (Text × SymKind)
  globals : List Text
  entries : List (Text × Src)
  sect : Sect
  textAt : Nat
  dataAt : Nat
  spadAt : Nat
  paramAt : Nat
  cl : Option Clause
  auto : Bool
  pieces : List Piece
  data : List Chunk
  param : List Chunk
  rels : List (Sect × Reloc)
  recs : List RecordOf
  arms : List RecordOf
  recsPrev : Nat
  spadPrev : Nat
  slots : List Nat
  named : List (Src × Nat)
  target : Bool
  noTarget : Bool
  nbv : Option Nat
  nbvPrev : Option Nat
  forms : List Nat
  formsOut : List Nat
  diags : List Diag
deriving DecidableEq, Repr

/-- What one pass leaves for the next. -/
structure Carry where
  syms : List (Text × Val)
  others : List Text
  recs : Nat
  spad : Nat
  forms : List Nat
  nbv : Option Nat
deriving DecidableEq, Repr

/-- Nothing known. -/
def Carry.start : Carry := { syms := [], others := [], recs := 0, spad := 0, forms := [], nbv := none }

/-- The start of a pass. A file begins in `.text` (assumption log 53). -/
def Work.start (o : Options) (c : Carry) : Work :=
  { opts := o, cur := [], prev := c.syms, others := [], othersPrev := c.others, kinds := [], globals := [], entries := [], sect := .text,
    textAt := 0, dataAt := 0, spadAt := 0, paramAt := 0, cl := none, auto := o.auto, pieces := [], data := [], param := [], rels := [],
    recs := [], arms := [], recsPrev := c.recs, spadPrev := c.spad, slots := [], named := [], target := false, noTarget := false, nbv := none, nbvPrev := c.nbv,
    forms := c.forms, formsOut := [], diags := [] }

/-- The current offset in a section; `.launch` has no data of its own. -/
def Work.at_ (w : Work) (s : Sect) : Nat :=
  match s with
  | .text => w.textAt
  | .data => w.dataAt
  | .spad => w.spadAt
  | .param => w.paramAt
  | .launch => 256 * w.recs.length

/-- What expressions are read in. -/
def Work.scope (w : Work) : Scope_ :=
  { cur := w.cur, prev := w.prev, others := w.others ++ w.othersPrev, here := Val.place w.sect (w.at_ w.sect) }

/-- An error at a column. -/
def Work.err (w : Work) (s : Src) (num col : Nat) (t : String) : Work := { w with diags := s.diag true num col t.toList :: w.diags }

/-- A warning at a column. -/
def Work.warn (w : Work) (s : Src) (num col : Nat) (t : String) : Work := { w with diags := s.diag false num col t.toList :: w.diags }

/-- The words of an error (Table 5.5, R89 to R96). -/
def errorText (n : Nat) : String :=
  match n with
  | 1 => "unknown mnemonic, suffix or form"
  | 2 => "value out of range"
  | 3 => "the immediate has no encoding"
  | 4 => "a field is set twice"
  | 5 => "division by zero"
  | 11 => "latch as destination"
  | 12 => "odd register for a pair, or ~ outside A"
  | 13 => "scalar destination outside the S space"
  | 23 => "modifier not accepted by the word"
  | 50 => "barrier number out of range"
  | 62 => "the value does not fit"
  | 90 => "the front end would refuse the record"
  | 95 => "arm size or priority out of range"
  | 96 => "mirror cores too far apart"
  | _ => "operand not accepted by the word"

/-- The error of an expression, with its number (R90). -/
def Work.exprErr (w : Work) (s : Src) (col : Nat) (e : ExprErr) : Work :=
  match e with
  | .code n => { w with diags := s.diag true n col (errorText n).toList :: w.diags }
  | .undefined n => { w with diags := s.diag true 60 col ("undefined symbol ".toList ++ n) :: w.diags }

/-- A result, or its error noted and a value in its place. -/
def Work.take (w : Work) (s : Src) (col : Nat) (r : Except ExprErr α) (d : α) : Work × α :=
  match r with
  | .ok x => (w, x)
  | .error e => (w.exprErr s col e, d)

/-- A symbol defined; a second definition is E094 (Table 5.3, assumption log 53). -/
def Work.define (w : Work) (s : Src) (n : Text) (v : Val) (k : SymKind) : Work :=
  if w.cur.any (fun e => e.1 == n) then w.err s 94 s.col "the symbol is defined twice"
  else { w with cur := (n, v) :: w.cur, kinds := (n, k) :: w.kinds }

/-! ### Clauses (R87, R88) -/

/-- How many earlier words of a clause shift the latches, before each word. -/
def shiftCounts : Nat → List Coded → List (Coded × Nat)
  | _, [] => []
  | n, c :: r => (c, n) :: shiftCounts (if c.sig.shifts then n + 1 else n) r

/-- Whether a field reads a latch that is not valid (R35). -/
def latchInvalid (k : FK) (x : BitVec 7) (nsh : Nat) : Bool :=
  match k with
  | .s32 | .s64 | .shflA | .sW64 | .sSp | .sCr => (x == 68 && nsh == 0) || (x == 69 && decide (nsh < 2))
  | _ => false

/-- Whether a word reads an invalid latch (E010): by name, or as the addend of FFMAL and DFMAL. -/
def Coded.badLatch (c : Coded) (nsh : Nat) : Bool :=
  latchInvalid c.sig.a c.raw.a nsh || latchInvalid c.sig.b c.raw.b nsh || (c.sig.l0 && nsh == 0)

/-- The checks of a clause when it ends (R87): only the last word of a `tc` clause may be of another class. -/
def Work.checkClause (w : Work) (c : Clause) : Work :=
  let w1 := if (c.n = 0 && !c.broken) || 15 < c.n then w.err c.at_ 20 c.at_.col "a clause holds 1 to 15 words" else w
  let last := c.words.length - 1
  let w2 := (c.words.zipIdx).foldl (fun w e =>
    if c.tc && e.2 == last then (if e.1.isTransfer then w else w.err e.1.at_ 22 e.1.at_.col "a tc clause ends in a control transfer")
    else
      let w := if e.1.isTransfer then w.err e.1.at_ 22 e.1.at_.col "a control transfer ends a tc clause" else w
      if e.1.sig.cls != c.cls then w.err e.1.at_ 21 e.1.at_.col "the word is of another class" else w) w1
  (shiftCounts 0 c.words).foldl (fun w e => if e.1.badLatch e.2 then w.err e.1.at_ 10 e.1.at_.col "the latch is not valid" else w) w2

/-- The open clause ended. A clause that the assembler formed has TC set when its last word is a control transfer (R88). -/
def Work.close (w : Work) : Work :=
  match w.cl with
  | none => w
  | some c =>
    let tc := if c.auto then (c.words.getLast?.map Coded.isTransfer).getD false else c.tc
    let c1 := { c with tc := tc }
    let w1 := { w with cl := none, pieces := .clause c1 :: w.pieces }
    w1.checkClause c1

/-- A clause opened at the current offset. -/
def Work.open_ (w : Work) (s : Src) (cls : Cls) (wait : BitVec 6) (step : Nat) (tc auto : Bool) : Work :=
  { w with cl := some { at_ := s, off := w.textAt, cls := cls, wait := wait, step := step, tc := tc, auto := auto, broken := false, words := [] },
           textAt := w.textAt + 4 }

/-- A word put into the open clause, with its relocations. -/
def Work.push (w : Work) (c : Coded) : Work :=
  match w.cl with
  | none => w
  | some cl =>
    let rels := c.rels.map (fun r => (Sect.text, ({ off := w.textAt + 4 * r.1, typ := r.2.1, base := r.2.2.1, addend := r.2.2.2 } : Reloc)))
    { w with cl := some { cl with words := cl.words ++ [c] }, textAt := w.textAt + 4 * c.words.length, rels := rels.reverse ++ w.rels }

/-- Whether a word of automatic mode needs a new clause (R88): none is open, the port or the class changes, or the word does
not fit. -/
def Work.needsClause (w : Work) (c : Coded) : Bool :=
  match w.cl with
  | none => true
  | some cl => cl.cls != c.sig.cls || decide (15 < cl.n + c.words.length)

/-- Whether a new clause is a split for a change of class on the same port (W072). -/
def Work.classSplit (w : Work) (c : Coded) : Bool :=
  match w.cl with
  | none => false
  | some cl => cl.cls != c.sig.cls && cl.cls.port == c.sig.cls.port

/-- A word of automatic mode placed. -/
def Work.placeAuto (w : Work) (s : Src) (c : Coded) : Work :=
  let w1 := if w.classSplit c then w.warn s 72 s.col "clause split for a change of class" else w
  let w2 := if w.needsClause c then (w1.close).open_ s c.sig.cls 0 0 false true else w1
  let w3 := w2.push c
  if c.isTransfer then w3.close else w3

/-- The format slot that a word names, when it names one (W051). -/
def Coded.slot (c : Coded) : Option Nat :=
  if c.sig.d = .fslot then some c.raw.d.toNat
  else if c.sig.b = .slotB then some c.raw.b.toNat
  else if c.sig.fn = some 0x40 || c.sig.fn = some 0x48 then some (c.raw.b.toNat % 8)
  else none

/-- A word coded, each symbol that nothing defines taken as 0 and noted. -/
def Work.code (w : Work) (sc : Scope_) (s : Src) (toks : List Tok) : Nat → Work × Option Coded
  | 0 => (w, none)
  | fuel + 1 =>
    let col := (toks.head?.map Tok.col).getD 1
    match codeWord sc s toks (w.forms.headD 0) with
    | .ok c => (w, some c)
    | .error (.undefined n) => (w.exprErr s col (.undefined n)).code { sc with cur := (n, Val.const 0) :: sc.cur } s toks fuel
    | .error e => (w.exprErr s col e, none)

/-- A word coded at an offset of `.text`. -/
def Work.codeAt (w : Work) (off : Nat) (s : Src) (toks : List Tok) : Work × Option Coded :=
  w.code { w.scope with here := Val.place .text off } s toks 8

/-- The literal words that a coded word's immediate takes. -/
def Coded.form (c : Coded) : Nat := (if c.raw.hi.isSome then 1 else 0) + (if c.raw.im.isSome then 1 else 0)

/-- A statement that is a word (R86 to R88). In automatic mode a word before which a clause opens lies 4 bytes further on. -/
def Work.word (w : Work) (s : Src) (toks : List Tok) : Work :=
  let col := (toks.head?.map Tok.col).getD 1
  let w0 := if w.target || w.noTarget then w else { w.err s 92 col ".target isaeg comes before any word" with noTarget := true }
  let first := w0.codeAt w0.textAt s toks
  let (w1, c) := match first.2 with
    | some c => if w0.auto && w0.needsClause c then w0.codeAt (w0.textAt + 4) s toks else first
    | none => first
  let least := w0.forms.headD 0
  let w2 := { w1 with forms := w1.forms.drop 1, formsOut := ((c.map Coded.form).getD least) :: w1.formsOut }
  match c with
  | none => { w2 with cl := w2.cl.map (fun x => { x with broken := true }) }
  | some c =>
    let w3 := match c.slot with | some n => { w2 with named := (s, n) :: w2.named } | none => w2
    if w3.auto then w3.placeAuto s c
    else match w3.cl with
      | some _ => w3.push c
      | none => w3.err s 20 col "the word stands in no clause"

/-! ### Directives (R87, R88, R92 to R94) -/

/-- The counters of a `wait(…)`. -/
def waitMask (l : List (List Tok)) : Option (BitVec 6) :=
  let js := l.map (fun p => match p with | [⟨_, .name n⟩] => (regOf n).bind (fun r => if r.1 = 'w' && r.2 < 6 then some r.2 else none) | _ => none)
  if js.isEmpty || js.any Option.isNone then none else some (js.foldl (fun m j => m ||| (1 <<< j.getD 0)) 0)

/-- What stands after the class of a `.clause`. -/
structure ClauseArgs where
  wait : BitVec 6
  step : Nat
  tc : Bool
deriving DecidableEq, Repr

/-- The parts after the class of a `.clause`, in any order. -/
def clauseArgs (sc : Scope_) : Nat → ClauseArgs → List Tok → Except ExprErr ClauseArgs
  | _, a, [] => .ok a
  | 0, _, _ => .error (.code 1)
  | fuel + 1, a, ⟨_, .name n⟩ :: r =>
    if n = "tc".toList then clauseArgs sc fuel { a with tc := true } r
    else
      match r with
      | ⟨_, .sym ['(']⟩ :: q =>
        let inside := q.takeWhile (fun t => t.kind != .sym [')'])
        let after := q.drop (inside.length + 1)
        if n = "wait".toList then
          match waitMask (parts inside) with
          | some m => clauseArgs sc fuel { a with wait := a.wait ||| m } after
          | none => .error (.code 1)
        else if n = "step".toList then
          match evalRange sc inside 0 7 2 with
          | .ok v => clauseArgs sc fuel { a with step := v } after
          | .error e => .error e
        else .error (.code 1)
      | _ => .error (.code 1)
  | _, _, _ => .error (.code 1)

/-- The class of a name. -/
def clsOf (n : Text) : Option Cls :=
  (["gen", "wide", "mem", "ctl", "eng", "rul", "pkd", "sys"].zip [Cls.gen, .wide, .mem, .ctl, .eng, .rul, .pkd, .sys]).find? (fun e => e.1.toList == n)
    |>.map (·.2)

/-- `.clause` (R87). -/
def Work.clauseDir (w : Work) (s : Src) (toks : List Tok) : Work :=
  let w1 := { w.close with auto := false }
  match toks with
  | ⟨c, .name n⟩ :: r =>
    match clsOf n with
    | none => w1.err s 1 c "unknown class"
    | some cls =>
      let (w2, a) := w1.take s c (clauseArgs w1.scope r.length { wait := 0, step := 0, tc := false } r) { wait := 0, step := 0, tc := false }
      if w2.sect ≠ .text then w2.err s 1 c "a clause outside .text" else w2.open_ s cls a.wait a.step a.tc false
  | _ => w1.err s 1 s.col "a clause needs a class"

/-- A section directive ends the open clause and automatic mode (R87, R88). -/
def Work.section_ (w : Work) (x : Sect) : Work := { w.close with sect := x, auto := false }

/-- Bytes placed in the current section, with their relocations by place. -/
def Work.emit (w : Work) (s : Src) (b : List Byte) (rels : List (Nat × RelType × Base × Dword)) : Work :=
  let off := w.at_ w.sect
  let rs := rels.map (fun r => (w.sect, ({ off := off + r.1, typ := r.2.1, base := r.2.2.1, addend := r.2.2.2 } : Reloc)))
  let w1 := { w with rels := rs.reverse ++ w.rels }
  match w.sect with
  | .text => if w.cl.isSome then w.err s 93 s.col "only between clauses" else { w1 with textAt := off + b.length, pieces := .bytes s off b :: w.pieces }
  | .data => { w1 with dataAt := off + b.length, data := { at_ := s, off := off, b := b } :: w.data }
  | .param => { w1 with paramAt := off + b.length, param := { at_ := s, off := off, b := b } :: w.param }
  | .spad => { w with spadAt := off + b.length }
  | .launch => w.err s 1 s.col ".launch holds records and arm descriptors only"

/-- `.align` (Table 5.3). -/
def Work.align (w : Work) (s : Src) (toks : List Tok) : Work :=
  let (w1, n) := w.take s s.col (evalRange w.scope toks 1 0x7FFFFFFF 2) 1
  if n = 0 || n &&& (n - 1) ≠ 0 then w1.err s 2 s.col "the alignment is no power of two"
  else w1.emit s (List.replicate ((n - w1.at_ w1.sect % n) % n) 0) []

/-- One value of `.word` or `.dword`: its bytes and relocations. -/
def Work.intValue (w : Work) (s : Src) (size : Nat) (toks : List Tok) : Work × List Byte × List (RelType × Base × Dword) :=
  let (w1, v) := w.take s ((toks.head?.map Tok.col).getD 1) (evalToks w.scope toks) (Val.const 0)
  if v.rel.isEmpty then
    if size = 4 && !fits32 v.c then (w1.err s 62 s.col "the value does not fit 32 bits", Machine.leBytes 0 size, [])
    else (w1, Machine.leBytes v.c.toNat size, [])
  else match v.base with
    | some b => (w1, Machine.leBytes 0 size, [(if size = 4 then .abs32 else .abs64, b, v.c)])
    | none => (w1.exprErr s s.col (.code 62), Machine.leBytes 0 size, [])

/-- The values of `.word` and `.dword`. -/
def Work.ints (w : Work) (s : Src) (size : Nat) (l : List (List Tok)) : Work :=
  let r := l.foldl (fun (a : Work × List Byte × List (Nat × RelType × Base × Dword)) ts =>
    let (w1, b, rel) := a.1.intValue s size ts
    (w1, a.2.1 ++ b, a.2.2 ++ rel.map (fun x => (a.2.1.length, x)))) (w, [], [])
  r.1.emit s r.2.1 r.2.2

/-- The values of `.f32` and `.f64`. -/
def Work.floats (w : Work) (s : Src) (f : Machine.FFmt) (size : Nat) (l : List (List Tok)) : Work :=
  let r := l.foldl (fun (a : Work × List Byte) ts =>
    match floatOf ts with
    | some (sg, m, e) => (a.1, a.2 ++ Machine.leBytes (decimalBits f sg m e) size)
    | none => (a.1.err s 1 s.col "not a decimal number", a.2 ++ Machine.leBytes 0 size)) (w, [])
  r.1.emit s r.2 []

/-- The values of `.bytes`. -/
def Work.byteVals (w : Work) (s : Src) (l : List (List Tok)) : Work :=
  let r := l.foldl (fun (a : Work × List Byte) ts =>
    let (w1, c) := a.1.take s s.col (evalConst a.1.scope ts) 0
    let w2 := if -128 ≤ c.toInt && c.toInt ≤ 255 then w1 else w1.err s 2 s.col "a byte lies from -128 to 255"
    (w2, a.2 ++ [c.setWidth 8])) (w, [])
  r.1.emit s r.2 []

/-- `.equ` (Table 5.3): a constant symbol. -/
def Work.equ (w : Work) (s : Src) (toks : List Tok) : Work :=
  match toks with
  | ⟨_, .name n⟩ :: ⟨_, .sym [',']⟩ :: r =>
    match evalConst w.scope r with
    | .ok c => w.define s n (Val.const c) .const
    | .error e => w.exprErr s s.col e
  | _ => w.err s 1 s.col ".equ takes a name and an expression"

/-- The names of a list. -/
def namesOf (toks : List Tok) : List Text := (parts toks).filterMap (fun p => match p with | [⟨_, .name n⟩] => some n | _ => none)

/-- `.launch name, key=value,…` (R93). -/
def Work.launchDir (w : Work) (s : Src) (toks : List Tok) : Work :=
  match parts toks with
  | [⟨_, .name n⟩] :: ks =>
    let at_ := 256 * w.recs.length
    let w1 := w.define s n (Val.place .launch at_) .object
    match keysOf ks with
    | none => w1.err s 1 s.col "a key is missing"
    | some k =>
      let (w2, r) := w1.take s s.col (launchRecord w1.scope k at_ w1.spadPrev ((w1.nbv.or w1.nbvPrev).getD w1.opts.nbv)) (List.replicate 256 0, [])
      let w3 := if recordRefused r.1 && r.1.any (fun b => b != 0) then w2.err s 90 s.col "the front end would refuse the record" else w2
      { w3 with recs := { at_ := s, b := r.1, rels := r.2 } :: w3.recs }
  | _ => w.err s 1 s.col ".launch takes a name"

/-- A field of the latest launch record set. -/
def Work.inRecord (w : Work) (s : Src) (f : List Byte → List Byte) : Work :=
  match w.recs with
  | r :: rest => { w with recs := { r with b := f r.b } :: rest }
  | [] => w.err s 1 s.col "no .launch stands before"

/-- `.slot s, key=value,…` (R94). -/
def Work.slotDir (w : Work) (s : Src) (toks : List Tok) : Work :=
  match parts toks with
  | n :: ks =>
    let (w1, i) := w.take s s.col (evalRange w.scope n 0 7 2) 0
    match keysOf ks with
    | none => w1.err s 1 s.col "a key is missing"
    | some k =>
      let (w2, v) := w1.take s s.col (slotValue k) 0
      { w2.inRecord s (fun b => putField b (0x50 + 8 * i) 8 v) with slots := i :: w2.slots }
  | [] => w.err s 1 s.col ".slot takes a number"

/-- `.mirror m, base=e, size=e, cores=c,…` (Table 5.3). -/
def Work.mirrorDir (w : Work) (s : Src) (toks : List Tok) : Work :=
  match parts toks with
  | n :: ks =>
    let (w1, m) := w.take s s.col (evalRange w.scope n 0 3 2) 0
    let (w2, v) := w1.take s s.col (mirrorValue w1.scope ks) (0, 0)
    w2.inRecord s (fun b => putField (putField b (0x90 + 16 * m) 8 v.1) (0x98 + 16 * m) 8 v.2)
  | [] => w.err s 1 s.col ".mirror takes a number"

/-- `.arm name, key=value,…` (Table 5.3): the descriptors follow the records (Table 5.2). -/
def Work.armDir (w : Work) (s : Src) (toks : List Tok) : Work :=
  match parts toks with
  | [⟨_, .name n⟩] :: ks =>
    let at_ := 256 * w.recsPrev + 32 * w.arms.length
    let w1 := w.define s n (Val.place .launch at_) .object
    match keysOf ks with
    | none => w1.err s 1 s.col "a key is missing"
    | some k =>
      let (w2, r) := w1.take s s.col (armRecord w1.scope k at_) (List.replicate 32 0, [])
      { w2 with arms := { at_ := s, b := r.1, rels := r.2 } :: w2.arms }
  | _ => w.err s 1 s.col ".arm takes a name"

/-- `.target isaeg`, once and before any word (Table 5.3). -/
def Work.targetDir (w : Work) (s : Src) (toks : List Tok) : Work :=
  if w.target || (toks.map Tok.kind) != [.name "isaeg".toList] then w.err s 92 s.col ".target isaeg stands once" else { w with target := true }

/-- `.nbv n`, at most once (Table 5.3). -/
def Work.nbvDir (w : Work) (s : Src) (toks : List Tok) : Work :=
  let (w1, n) := w.take s s.col (evalRange w.scope toks 1 3 2) 3
  if w1.nbv.isSome then w1.err s 2 s.col ".nbv stands at most once" else { w1 with nbv := some n }

/-- A directive by its name (Table 5.3). -/
def Work.directive (w : Work) (s : Src) (name : Text) (toks : List Tok) : Work :=
  let is := fun (n : String) => name == n.toList
  if is "clause" then w.clauseDir s toks
  else if is "auto" then { w.close with auto := true }
  else if is "text" then w.section_ .text
  else if is "data" then w.section_ .data
  else if is "spad" then w.section_ .spad
  else if is "param" then w.section_ .param
  else if is "launch" then (if toks.isEmpty then w.section_ .launch else w.launchDir s toks)
  else if is "slot" then w.slotDir s toks
  else if is "mirror" then w.mirrorDir s toks
  else if is "arm" then w.armDir s toks
  else if is "target" then w.targetDir s toks
  else if is "nbv" then w.nbvDir s toks
  else if is "align" then w.align s toks
  else if is "word" then w.ints s 4 (parts toks)
  else if is "dword" then w.ints s 8 (parts toks)
  else if is "f32" then w.floats s Machine.b32 4 (parts toks)
  else if is "f64" then w.floats s Machine.b64 8 (parts toks)
  else if is "bytes" then w.byteVals s (parts toks)
  else if is "equ" then w.equ s toks
  else if is "global" then { w with globals := namesOf toks ++ w.globals }
  else if name == "ext".toList ++ "ern".toList then { w with others := namesOf toks ++ w.others }
  else if is "entry" then { w with entries := (namesOf toks).map (fun n => (n, s)) ++ w.entries, globals := namesOf toks ++ w.globals }
  else if is "include" then w -- its lines stand after it (`expandAt`)
  else w.err s 1 s.col "unknown directive"

/-- One statement. A label in automatic mode ends the open clause, and so names the next one's header (R88). -/
def Work.stmt (w : Work) (x : Stmt) : Work :=
  let s := x.at_
  let w0 := match x.bad with | some c => w.err s 1 c "unexpected character" | none => w
  let w1 := match x.label with
    | none => w0
    | some n =>
      let wl := if w0.auto && w0.sect = .text then w0.close else w0
      wl.define s n (Val.place wl.sect (wl.at_ wl.sect)) .label
  match x.toks with
  | [] => w1
  | ⟨_, .dot d⟩ :: r => w1.directive s d r
  | toks => if w1.sect = .text then w1.word s toks else w1.err s 1 s.col "a word outside .text"

/-- The symbols that `-D` defines, before the first line (Table 5.1). -/
def Work.defs (w : Work) : Work :=
  w.opts.defs.foldl (fun w d =>
    let s : Src := { file := [], line := 0, body := none, ix := 0, col := 1, text := d.2 }
    match evalConst w.scope (lex d.2).1 with
    | .ok c => w.define s d.1 (Val.const c) .const
    | .error e => w.exprErr s s.col e) w

/-- The offsets of the clause headers of a pass. -/
def Work.starts (w : Work) : List Nat := w.pieces.filterMap (fun p => match p with | .clause c => some c.off | .bytes _ _ _ => none)

/-- Whether a symbol names a place of `.text` at which no clause starts (E061). -/
def Work.offClause (w : Work) (n : Text) : Bool :=
  match w.cur.find? (fun e => e.1 == n) with
  | some e => e.2.rel == [(.sect .text, 1)] && !w.starts.contains e.2.c.toNat
  | none => false

/-- Whether a symbol names a clause start. -/
def Work.onClause (w : Work) (n : Text) : Bool :=
  match w.cur.find? (fun e => e.1 == n) with
  | some e => e.2.rel == [(.sect .text, 1)] && w.starts.contains e.2.c.toNat
  | none => false

/-- The checks at the end of a file (R87, R91, R92, Table 5.5). -/
def Work.finish (w0 : Work) (last : Src) : Work :=
  let w := w0.close
  let w1 := if w.target || w.noTarget then w else w.err last 92 last.col ".target isaeg is required"
  let w2 := if 0x100000 < w.spadAt then w1.err last 91 last.col ".spad is larger than 1 MiB" else w1
  let w3 := w.entries.foldl (fun x e => if w.onClause e.1 then x else x.err e.2 61 e.2.col ".entry names no clause start") w2
  let w4 := (w.pieces.flatMap (fun p => match p with | .clause c => c.words | .bytes _ _ _ => [])).foldl (fun x c =>
    if c.labels.any w.offClause then x.err c.at_ 61 c.at_.col "the target is no clause start" else x) w3
  w.named.foldl (fun x e => if w.slots.contains e.2 then x else x.warn e.1 51 e.1.col "no .slot declares the slot") w4

/-- One pass over the statements. -/
def runPass (o : Options) (c : Carry) (l : List Stmt) : Work :=
  let w := l.foldl Work.stmt (Work.start o c).defs
  w.finish ((l.getLast?.map Stmt.at_).getD { file := [], line := 0, body := none, ix := 0, col := 1, text := [] })

/-- What a pass leaves for the next. Where `keep` is set words keep at least the literals they had. -/
def Work.carry (keep : Bool) (w : Work) : Carry :=
  { syms := w.cur, others := w.others, recs := w.recs.length, spad := w.spadAt, forms := if keep then w.formsOut.reverse else [], nbv := w.nbv }

/-- Passes until symbols and sizes settle; `none` when the fuel does not suffice. -/
def settleBy (keep : Bool) (o : Options) (l : List Stmt) : Nat → Carry → Option Work
  | 0, _ => none
  | fuel + 1, c =>
    let w := runPass o c l
    if w.carry keep = c then some w else settleBy keep o l fuel (w.carry keep)

/-- Passes until symbols and sizes settle. Each word takes the shortest form of its value (R89); where sizes that may also shrink never
settle, words keep the literals they have come to (log 53). -/
def settle (o : Options) (l : List Stmt) (fuel : Nat) : Option Work :=
  match settleBy false o l fuel Carry.start with
  | some w => some w
  | none => settleBy true o l fuel Carry.start

end Sys2Proof.Asm
end

