-- ==== Sys2Proof/Machine/AsmFlow.lean ====
section
/-! DEFINITION. The Stoluf assembler, sixth part (spec/05 R88, R97, R99, R100): the flow graph of `.text`, what each word reads
and writes, the checks of fixed-latency and asynchronous results, of the extended block and of void storage, the WAIT, DRAIN and
STEP of automatic mode, and bank timing. -/

namespace Sys2Proof.Asm

/-! ### Storage as the checks see it

Places are numbered: 0 to 63 the file, 64 to 67 the operand cache, 68 and 69 the latches, 70 the register that vx names,
80 to 175 the scalars, 176 to 187 the predicates. A vx operand is a place of its own (assumption log 54). -/

/-- What paths may have left in a place: the least and the most cycles until a fixed-latency result is readable; for each path the set of
counters on which asynchronous results are outstanding (bit `n` of `pend` is set where `n` is that set for some path); and whether it may
be live (bit 0), voided at a voiding point (bit 1) or by a K mark or KILL (bit 2). -/
structure Place_ where
  lo : Nat
  hi : Nat
  pend : Nat
  void : Nat
deriving DecidableEq, Repr

/-- A place with nothing outstanding. -/
def Place_.clear : Place_ := { lo := 0, hi := 0, pend := 1, void := 1 }

/-- The counters on which an asynchronous result is outstanding on some path. -/
def Place_.counters (p : Place_) : Nat :=
  if p.pend = 1 then 0 else (List.range 64).foldl (fun m n => if p.pend.testBit n then m ||| n else m) 0

/-- The sets of counters changed, path by path. -/
def Place_.mapPend (f : Nat → Nat) (p : Place_) : Place_ :=
  if p.pend = 1 then { p with pend := 1 <<< f 0 }
  else { p with pend := (List.range 64).foldl (fun m n => if p.pend.testBit n then m ||| (1 <<< f n) else m) 0 }

/-- What either of two paths leaves. -/
def Place_.join (x y : Place_) : Place_ :=
  { lo := min x.lo y.lo, hi := max x.hi y.hi, pend := x.pend ||| y.pend, void := x.void ||| y.void }

/-- How many places there are. -/
def placeCount : Nat := 188

/-- What holds before a word on the paths that reach it: every place, and whether the extended block may be absent (bit 0) or
held (bit 1). -/
structure Flow where
  places : List Place_
  ext : Nat
deriving DecidableEq, Repr

/-- What either of two paths leaves. -/
def Flow.join (x y : Flow) : Flow := { places := List.zipWith Place_.join x.places y.places, ext := x.ext ||| y.ext }

/-- The assumption at a `.entry` symbol and after a call (R99). -/
def Flow.entry : Flow := { places := List.replicate placeCount Place_.clear, ext := 1 }

/-- The assumption at a label named by `entry=` (R99): every k slot is void. -/
def Flow.start : Flow :=
  { places := (List.range placeCount).map (fun i => if 64 ≤ i && i < 68 then { Place_.clear with void := 2 } else Place_.clear), ext := 1 }

/-- The assumption at a label named by `trap=` (R99): the extended block may be held, and an asynchronous result may be outstanding on
each counter. -/
def Flow.trap : Flow := { places := List.replicate placeCount { Place_.clear with pend := 2 ^ 64 - 1 }, ext := 3 }

/-- A place. -/
def Flow.get (f : Flow) (i : Nat) : Place_ := f.places.getD i Place_.clear

/-- A place changed. -/
def Flow.set (f : Flow) (i : Nat) (p : Place_) : Flow := { f with places := f.places.set i p }

/-- Cycles gone by. -/
def Flow.pass (f : Flow) (n : Nat) : Flow := { f with places := f.places.map (fun p => { p with lo := p.lo - n, hi := p.hi - n }) }

/-- A clause that starts: its latches are new, and the counters that WAIT names are zero. -/
def Flow.begin_ (f : Flow) (wait : Nat) : Flow :=
  { f with places := f.places.zipIdx.map (fun e =>
      if e.2 = 68 || e.2 = 69 then Place_.clear
      else e.1.mapPend (fun n => n &&& (63 ^^^ wait))) }

/-! ### What a word reads and writes -/

/-- The places of a vector selector over `n` registers. -/
def selPlaces (x : BitVec 7) (n : Nat) : List Nat :=
  let i := x.toNat
  if i < 68 then (List.range n).map (fun j => i + j)
  else if i < 70 then [i]
  else if i = 70 then []
  else if i = 71 then [70]
  else (List.range n).map (fun j => 80 + (i - 72) + j)

/-- The places of a scalar-space selector. -/
def scaPlaces (x : BitVec 7) (n : Nat) : List Nat := if x.toNat < 96 then (List.range n).map (fun j => 80 + x.toNat + j) else []

/-- Whether a word's W64 modifier is set. -/
def Coded.w64 (c : Coded) : Bool := rawW64 c.raw

/-- How many registers a field names in a word. -/
def Coded.width (c : Coded) (k : FK) : Nat :=
  let pair := fun (b : Bool) => if b then 2 else 1
  match k with
  | .s64 | .d64 | .d64B | .c64 | .e64 => 2
  | .sQuad | .dQuad => 4
  | .sW64 | .dW64 => pair c.w64
  | .dSp => pair (((SReg.ofNum c.raw.b.toNat).map SReg.pair).getD false)
  | .sSp => pair (((WReg.ofNum c.raw.b.toNat).map WReg.pair).getD false)
  | .dCr => pair (((CReg.ofNum c.raw.b.toNat).map CReg.pair).getD false)
  | .sCr => pair (((CWReg.ofNum c.raw.b.toNat).map CWReg.pair).getD false)
  | _ => 1

/-- The places that a field names. -/
def Coded.fieldPlaces (c : Coded) (k : FK) (x : BitVec 7) : List Nat :=
  match k with
  | .s32 | .s64 | .sQuad | .shflA | .sW64 | .sSp | .sCr | .d32 | .d64 | .dQuad | .dW64 | .d64B | .dSp | .dCr => selPlaces x (c.width k)
  | .c32 | .c64 | .e32 | .e64 => scaPlaces x (c.width k)
  | .pred | .pred0 | .vote | .rlq => [176 + x.toNat % 16]
  | .kill => selPlaces x 1
  | _ => []

/-- Whether a field is read. -/
def isRead : FK → Bool
  | .s32 | .s64 | .sQuad | .shflA | .sW64 | .sSp | .sCr | .c32 | .c64 | .vote => true
  | _ => false

/-- Whether a word's D is data that it only reads: stores, and TAGS. -/
def Coded.storesD (c : Coded) : Bool :=
  c.sig.mm == .st || c.sig.mm == .sts || (c.sig.cls == .mem && c.sig.op == 29 && c.sig.fn == some 1)

/-- The places that a word reads as operands, its guard apart. -/
def Coded.reads (c : Coded) : List Nat :=
  (if isRead c.sig.a then c.fieldPlaces c.sig.a c.raw.a else [])
    ++ (if isRead c.sig.b && c.raw.im.isNone then c.fieldPlaces c.sig.b c.raw.b else [])
    ++ (if c.sig.readsD || c.storesD then c.fieldPlaces c.sig.d c.raw.d else []) ++ (if c.sig.l0 then [68] else [])

/-- The places that a word writes. -/
def Coded.writes (c : Coded) : List Nat :=
  match c.sig.d with
  | .d32 | .d64 | .dQuad | .dW64 | .dSp | .dCr | .e32 | .e64 | .pred | .pred0 | .rlq => if c.storesD then [] else c.fieldPlaces c.sig.d c.raw.d
  | _ => []

/-- The predicate of a word's guard. -/
def Coded.guardPlaces (c : Coded) : List Nat := if c.raw.g.toNat < 12 then [176 + c.raw.g.toNat] else []

/-- Whether a word may leave a thread out: a guarded word other than SEL, which runs in every thread (R62). -/
def Coded.partial_ (c : Coded) : Bool := decide (c.raw.g.toNat < 12) && !(c.sig.cls == .gen && c.sig.op == 19)

/-- The class default counter of a word (Table 10.1); SLD counts as a load does. -/
def defaultCounter : MmK → Nat
  | .st | .sts => 1
  | .at | .atS | .af => 2
  | .as | .se => 3
  | _ => 0

/-- The counter on which a word's asynchronous results count; `none` for a word of fixed latency. -/
def Coded.counter (c : Coded) : Option Nat :=
  if c.sig.long then some 5
  else if c.sig.mm != .no then
    if c.sig.lat = 0 then
      match (mmOf c.raw).map (fun m => m.ctr.toNat) with
      | some n => if n < 6 then some n else some (defaultCounter c.sig.mm)
      | none => some (defaultCounter c.sig.mm)
    else none
  else if c.sig.lat = 0 && ((c.sig.cls == .eng && c.sig.op == 7) || (c.sig.cls == .sys && c.sig.op == 7)) then some 4
  else none

/-- The places that an asynchronous result of a word reaches: D, or the pair that receives the stamp of STWS and STDS. -/
def Coded.asyncWrites (c : Coded) : List Nat :=
  if c.counter.isNone then [] else if c.sig.mm == .sts then c.fieldPlaces c.sig.b c.raw.b else c.writes

/-- The places that a K mark or KILL voids. -/
def Coded.kills (c : Coded) : List Nat :=
  let file := fun (l : List Nat) => l.filter (fun i => decide (i < 68))
  if c.sig.d = .kill then file (c.fieldPlaces .kill c.raw.d ++ c.fieldPlaces .kill c.raw.a ++ c.fieldPlaces .kill c.raw.b)
  else if c.raw.k && isRead c.sig.a then file (c.fieldPlaces c.sig.a c.raw.a)
  else []

/-- Whether a word is of CTL and has an opcode. -/
def Coded.isCtl (c : Coded) (op : Nat) : Bool := c.sig.cls == .ctl && c.sig.op.toNat == op

/-- Whether a word is a voiding point (R37): BAR, BARW, PAUSE, REGACQ, REGREL. -/
def Coded.voids (c : Coded) : Bool := c.isCtl 6 || c.isCtl 8 || c.isCtl 9 || c.isCtl 10 || c.isCtl 12

/-! ### One word -/

/-- A fixed-latency result put into a place. A guarded word is no fork in the flow graph (R99): what it leaves outstanding stands on every
path through it, beside what stood there before, which it may have left. -/
def Place_.fixed (guarded : Bool) (lat : Nat) (p : Place_) : Place_ :=
  if guarded then { p with lo := max p.lo lat, hi := max p.hi lat, void := 1 } else { lo := lat, hi := lat, pend := 1, void := 1 }

/-- An asynchronous result on a counter put into a place. -/
def Place_.async (guarded : Bool) (ctr : Nat) (p : Place_) : Place_ :=
  if guarded then { p.mapPend (fun n => n ||| (1 <<< ctr)) with void := 1 } else { lo := 0, hi := 0, pend := 1 <<< (1 <<< ctr), void := 1 }

/-- The flow after a word's effects, before the time that follows it. -/
def Flow.effect (f : Flow) (c : Coded) : Flow :=
  let put := fun (g : Place_ → Place_) (f : Flow) (i : Nat) => f.set i (g (f.get i))
  let f1 := c.kills.foldl (put (fun p => { p with void := 4 })) f
  let f2 := (if c.counter.isNone then c.writes else []).foldl (put (Place_.fixed c.partial_ c.sig.lat)) f1
  let f3 := c.asyncWrites.foldl (put (Place_.async c.partial_ (c.counter.getD 0))) f2
  let f4 := if c.voids then [64, 65, 66, 67].foldl (put (fun p => { p with void := 2 })) f3 else f3
  let f5 := if c.isCtl 10 then { f4 with ext := 2 } else if c.isCtl 11 then { f4 with ext := if f4.ext = 2 then 2 else 3 }
    else if c.isCtl 12 then { f4 with ext := 1 } else f4
  if c.sig.shifts then
    (f5.set 69 (f5.get 68)).set 68 { lo := c.sig.lat, hi := c.sig.lat, pend := 1, void := 1 }
  else f5

/-- Cycles from a word's slot to the next word's, at least (R52, R53). -/
def Coded.after (c : Coded) (step : Nat) : Nat := 4 + (if c.drain then step else 0)

/-- The flow at a word's own slot: the literal words before it have passed. -/
def Flow.atWord (f : Flow) (c : Coded) : Flow := f.pass (4 * c.lits)

/-- The flow after a word and the time that follows it. -/
def Flow.word (f : Flow) (c : Coded) (step : Nat) : Flow := ((f.atWord c).effect c).pass (c.after step)

/-- The flow at the end of a clause's words. -/
def Flow.words (f : Flow) (l : List Coded) (step : Nat) : Flow := l.foldl (fun f c => f.word c step) f

/-! ### Clauses and the flow graph (R99) -/

/-- The counters whose asynchronous results the words of a clause read, when they may be outstanding at its start (R88). -/
def waitsOf (f : Flow) (l : List Coded) : Nat :=
  (l.foldl (fun (a : Flow × Nat) c =>
    let m := (c.reads ++ c.guardPlaces).foldl (fun m i => m ||| (a.1.get i).counters) a.2
    let put := fun (g : Flow) (i : Nat) => if c.partial_ then g else g.set i Place_.clear
    ((c.writes ++ c.asyncWrites).foldl put a.1, m)) (f, 0)).2

/-- The WAIT mask of a clause for the flow at its start. -/
def Clause.waitFor (c : Clause) (f : Flow) : Nat := if c.auto then waitsOf f c.words else c.wait.toNat

/-- The flow at the end of a clause for the flow at its start. -/
def Clause.flow (c : Clause) (f : Flow) : Flow := (f.begin_ (c.waitFor f)).words c.words c.step

/-- Whether a clause's last word never goes on to the next clause in any thread. -/
def Clause.leaves (c : Clause) : Bool :=
  match c.words.getLast? with
  | none => false
  | some w => !w.partial_ && ((w.isTransfer && !(w.isCtl 2 || w.isCtl 3)) || (w.sig.cls == .sys && (w.sig.op == 2 || w.sig.op == 3)))

/-- Whether a clause's last word is a call. -/
def Clause.calls (c : Clause) : Bool := (c.words.getLast?.map (fun w => w.isCtl 2 || w.isCtl 3)).getD false

/-- The offset that a BRA at the end of a clause goes to. -/
def Clause.branch (c : Clause) : Option Nat :=
  match c.words.getLast? with
  | some w => if w.isCtl 0 then w.target.bind (fun v => if v.rel = [(.sect .text, 1)] then some v.c.toNat else none) else none
  | none => none

/-- The places in the list of clauses to which a clause leads, with the flow that it brings. After a call the assumption of
R99 stands. -/
def successors (cs : List Clause) (c : Clause) (out : Flow) : List (Nat × Flow) :=
  let at_ := fun (off : Nat) => let i := cs.findIdx (fun x => x.off == off); if i < cs.length then [i] else []
  let fall := if c.leaves then []
    else
      let f := if c.calls then (if (c.words.getLast?.map Coded.partial_).getD false then out.join Flow.entry else Flow.entry) else out
      (at_ c.stop).map (fun i => (i, f))
  fall ++ ((c.branch.elim [] at_).map (fun i => (i, out)))

/-- A flow brought to a clause. -/
def bring (l : List (Option Flow)) (e : Nat × Flow) : List (Option Flow) :=
  l.set e.1 (some (match (l.getD e.1 none) with | some f => f.join e.2 | none => e.2))

/-- One round over the clauses. -/
def flowRound (cs : List Clause) (ins : List (Option Flow)) : List (Option Flow) :=
  (cs.zipIdx).foldl (fun ins e =>
    match ins.getD e.2 none with
    | none => ins
    | some f => (successors cs e.1 (e.1.flow f)).foldl bring ins) ins

/-- Rounds until nothing changes. -/
def flowFix (cs : List Clause) : Nat → List (Option Flow) → List (Option Flow)
  | 0, ins => ins
  | fuel + 1, ins => let n := flowRound cs ins; if n = ins then ins else flowFix cs fuel n

/-- Code that no root reaches, taken one clause at a time as though a `.entry` symbol stood there (R99). -/
def flowRest (cs : List Clause) : Nat → List (Option Flow) → List (Option Flow)
  | 0, ins => ins
  | fuel + 1, ins =>
    let i := ins.findIdx Option.isNone
    if i < cs.length then flowRest cs fuel (flowFix cs (64 * (cs.length + 1)) (ins.set i (some Flow.entry))) else ins

/-- The flow at the start of every clause, given the roots. -/
def flowOf (cs : List Clause) (roots : List (Nat × Flow)) : List Flow :=
  let none_ : List (Option Flow) := cs.map (fun _ => none)
  let at_ := roots.filterMap (fun r => let i := cs.findIdx (fun x => x.off == r.1); if i < cs.length then some (i, r.2) else none)
  let ins := flowFix cs (64 * (cs.length + 1)) (at_.foldl bring none_)
  (flowRest cs cs.length ins).map (fun x => x.getD Flow.entry)

/-! ### The DRAIN and STEP of automatic mode (R88) -/

/-- The words of a clause with the flow at each one's slot. -/
def flowWords (step : Nat) : Flow → List Coded → List (Coded × Flow)
  | _, [] => []
  | f, c :: r => (c, f.atWord c) :: flowWords step (f.word c step) r

/-- Whether a word reads a fixed-latency result before it is readable on some path. -/
def Coded.short (c : Coded) (f : Flow) : Bool := (c.reads ++ c.guardPlaces).any (fun i => decide (0 < (f.get i).hi))

/-- A clause's words paired with the flow at each slot, for the flow at the clause's start. -/
def Clause.trace (c : Clause) (f : Flow) : List (Coded × Flow) := flowWords c.step (f.begin_ (c.waitFor f)) c.words

/-- The words directly before the words that read too early, as a clause's place and a word's place: in the same clause, or the
last word of a clause that leads there with a result still outstanding. Only formed clauses are changed. -/
def shortBefore (cs : List Clause) (fs : List Flow) : List (Nat × Nat) :=
  (cs.zip fs).zipIdx.flatMap (fun e =>
    let c := e.1.1
    ((c.trace e.1.2).zipIdx).flatMap (fun x =>
      if !(c.auto && x.1.1.short x.1.2) then []
      else if 0 < x.2 then [(e.2, x.2 - 1)]
      else
        ((cs.zip fs).zipIdx).flatMap (fun p =>
          if p.1.1.auto && ((successors cs p.1.1 (p.1.1.flow p.1.2)).any (fun s => s.1 == e.2 && x.1.1.short (s.2.atWord x.1.1)))
            && 0 < p.1.1.words.length
          then [(p.2, p.1.1.words.length - 1)] else [])))

/-- A word's drain mark set. -/
def drainAt (cs : List Clause) (p : Nat × Nat) : List Clause :=
  cs.modify p.1 (fun c => { c with words := c.words.modify p.2 (fun w => { w with drain := true }) })

/-- STEP raised, the first clause first, until no word of a formed clause reads too early. -/
def raiseSteps (roots : List (Nat × Flow)) : Nat → List Clause → List Clause
  | 0, cs => cs
  | fuel + 1, cs =>
    let need := (shortBefore cs (flowOf cs roots)).map (·.1)
    match (List.range cs.length).find? (fun i => need.contains i && decide (((cs[i]?).map Clause.step).getD 7 < 7)) with
    | none => cs
    | some i => raiseSteps roots fuel (cs.modify i (fun c => { c with step := c.step + 1 }))

/-- The formed clauses with their drains, STEP and WAIT. -/
def autoClauses (cs : List Clause) (roots : List (Nat × Flow)) : List Clause :=
  if !cs.any Clause.auto then cs
  else
    let drained := (shortBefore cs (flowOf cs roots)).foldl drainAt cs
    let stepped := raiseSteps roots (8 * cs.length + 8) drained
    (stepped.zip (flowOf stepped roots)).map (fun e => if e.1.auto then { e.1 with wait := BitVec.ofNat 6 (e.1.waitFor e.2) } else e.1)

/-! ### The checks (Table 5.5) -/

/-- A condition on the paths that reach a word: an error when it holds on every path, a warning when on some. -/
def pathDiag (s : Src) (num : Nat) (every some_ : Bool) (t : String) : List Diag :=
  if every then [s.diag true num s.col t.toList] else if some_ then [s.diag false num s.col t.toList] else []

/-- The diagnostics of one word for the flow at its slot. -/
def Coded.diags (c : Coded) (f : Flow) : List Diag :=
  let ps := (c.reads ++ c.guardPlaces).map f.get
  let rs := c.reads.map (fun i => (i, f.get i))
  let early := pathDiag c.at_ 30 (ps.any (fun p => decide (0 < p.lo))) (ps.any (fun p => decide (0 < p.hi))) "reads a result before it is readable"
  let async := pathDiag c.at_ 31 (ps.any (fun p => !p.pend.testBit 0)) (ps.any (fun p => p.pend != 1)) "reads an asynchronous result with no WAIT"
  let leave := if c.isCtl 1 || c.isCtl 2 || c.isCtl 3 || c.isCtl 4 then
      pathDiag c.at_ 32 (f.places.any (fun p => decide (0 < p.lo))) (f.places.any (fun p => decide (0 < p.hi))) "a result is outstanding at a transfer"
    else []
  let ext := (c.reads ++ c.writes ++ c.asyncWrites ++ c.kills).any (fun i => decide (32 ≤ i) && decide (i < 64))
  let block := if ext then pathDiag c.at_ 40 (f.ext == 1) (f.ext &&& 1 != 0) "the extended block is not held" else []
  let ks := rs.filter (fun e => decide (64 ≤ e.1) && decide (e.1 < 68))
  let voided := pathDiag c.at_ 41 (ks.any (fun e => e.2.void == 2)) (ks.any (fun e => e.2.void &&& 2 != 0)) "reads a k slot after a voiding point"
  let dead := pathDiag c.at_ 42 (rs.any (fun e => e.2.void == 4)) (rs.any (fun e => e.2.void &&& 4 != 0)) "reads a dead value"
  early ++ async ++ leave ++ block ++ voided ++ dead

/-- The diagnostics of the flow checks. -/
def flowDiags (cs : List Clause) (roots : List (Nat × Flow)) : List Diag :=
  (cs.zip (flowOf cs roots)).flatMap (fun e => (e.1.trace e.2).flatMap (fun x => x.1.diags x.2))

/-! ### Bank timing (R49, R50, R97) -/

/-- The slot cycles of a word on its own operands; `none` where a vx read may share a bank with another read. -/
def Coded.slotCycles (c : Coded) : Option Nat :=
  let file := (c.reads.filter (fun i => decide (i < 64))).eraseDups
  if c.reads.contains 70 then (if file.isEmpty then some 1 else none)
  else some (max 1 ((List.range 4).foldl (fun m b => max m (file.filter (fun r => r % 4 == b)).length) 0))

/-- The warnings of `--warn-bank` (W070). -/
def bankDiags (cs : List Clause) : List Diag :=
  cs.flatMap (fun c => c.words.filterMap (fun w =>
    match w.slotCycles with
    | some n => if 1 < n then some (w.at_.diag false 70 w.at_.col "the slot is stretched".toList) else none
    | none => none))

end Sys2Proof.Asm
end

