-- ==== Sys2Proof/Machine/Stolf.lean ====
section
/-! DEFINITION. The Stoluf assembler, last part (spec/05 R84, R96, R97, R100, R101): objects, relocation at link, listings, the
command line, and the whole of `stolf`. -/

namespace Sys2Proof.Asm

/-! ### Objects (R91, R96, Table 5.2) -/

/-- A section of an object: whether it has contents (PROGBITS or NOBITS), its flags, its alignment, its size and its bytes. -/
structure ObjSect where
  sect : Sect
  nobits : Bool
  alloc : Bool
  write : Bool
  exec : Bool
  align : Nat
  size : Nat
  bytes : List Byte
deriving DecidableEq, Repr

/-- The type of a symbol. -/
inductive ObjType where
  | noType | func | object
deriving DecidableEq, Repr

/-- A symbol of an object: one that it defines at a place, or, with no section, one of another object. -/
structure ObjSym where
  name : Text
  sect : Option Sect
  value : Nat
  type : ObjType
  global : Bool
deriving DecidableEq, Repr

/-- The class of an ELF file. -/
inductive ElfClass where
  | elf32 | elf64
deriving DecidableEq, Repr

/-- The byte order of an ELF file. -/
inductive ElfOrder where
  | little | big
deriving DecidableEq, Repr

/-- The type of an ELF file. -/
inductive ElfType where
  | rel | exec | dyn
deriving DecidableEq, Repr

/-- An object: its ELF class, byte order and type, e_machine, e_flags, sections, symbols and relocations. -/
structure Obj where
  cls : ElfClass
  order : ElfOrder
  type : ElfType
  machine : Nat
  flags : Nat
  sects : List ObjSect
  syms : List ObjSym
  rels : List (Sect × Reloc)
deriving DecidableEq, Repr

/-- The bytes of a clause. -/
def Clause.bytes (c : Clause) : List Byte :=
  let drain := ((shiftPlaces 0 c.words).filter (fun e => e.1.drain)).foldl (fun m e => m ||| (1 <<< e.2)) 0
  let h : Header := { drain := BitVec.ofNat 15 drain, tc := c.tc, step := c.step, wait := c.wait, cls := c.cls, n := c.n }
  (h.word :: c.words.flatMap Coded.words).flatMap (fun w => Machine.leBytes w.toNat 4)
where
  /-- Each word with its place among the words of the clause, its own literals before it. -/
  shiftPlaces : Nat → List Coded → List (Coded × Nat)
    | _, [] => []
    | n, c :: r => (c, n + c.lits) :: shiftPlaces (n + c.words.length) r

/-- The bytes of a piece of `.text`. -/
def Piece.content : Piece → List Byte
  | .clause c => c.bytes
  | .bytes _ _ b => b

/-- A pass with the clauses that automatic mode forms completed. -/
def Work.clauses (w : Work) : List Clause :=
  w.pieces.reverse.filterMap (fun p => match p with | .clause c => some c | .bytes _ _ _ => none)

/-- The places in `.text` that a field of the launch records names, by the field's offset. -/
def Work.named_ (w : Work) (field : Nat) : List Nat :=
  w.recs.flatMap (fun r => r.rels.filterMap (fun x =>
    if x.off % 256 = field && x.base = .sect .text then some x.addend.toNat else none))

/-- The roots of the flow graph (R99). -/
def Work.roots (w : Work) : List (Nat × Flow) :=
  (w.entries.filterMap (fun e => (w.cur.find? (fun x => x.1 == e.1)).map (fun x => (x.2.c.toNat, Flow.entry))))
    ++ (w.named_ 0x08).map (fun o => (o, Flow.start)) ++ (w.named_ 0xD0).map (fun o => (o, Flow.trap))

/-- The pieces with the completed clauses in place of their like. -/
def replaceClauses : List Piece → List Clause → List Piece
  | [], _ => []
  | .clause _ :: r, c :: cs => .clause c :: replaceClauses r cs
  | p :: r, cs => p :: replaceClauses r cs

/-- The NBV of the object (Table 5.3, `--nbv`). -/
def Work.nbvOf (w : Work) : Nat := w.nbv.getD w.opts.nbv

/-- The bytes of `.launch`: the records, then the arm descriptors. -/
def Work.launchBytes (w : Work) : List Byte := (w.recs.reverse.flatMap (fun r => r.b)) ++ (w.arms.reverse.flatMap (fun r => r.b))

/-- The type of a symbol: a function where `.entry` names it, an object for records and arms. -/
def Work.typeOf (w : Work) (n : Text) (k : SymKind) : ObjType :=
  if w.entries.any (fun e => e.1 == n) then .func else if k = .object then .object else .noType

/-- The section of a value: the one it is measured from; a scratchpad symbol is its offset in `.spad`. -/
def Val.sect (v : Val) : Option Sect :=
  match v.rel with
  | [(.sect s, 1)] => some s
  | _ => none

/-- The symbols of the object: labels, records and arms, and those declared `.extern`. -/
def Work.objSyms (w : Work) : List ObjSym :=
  ((w.cur.zip w.kinds).reverse.filterMap (fun e =>
    if e.2.2 = .const then none
    else some { name := e.1.1, sect := some ((e.1.2.sect).getD .spad), value := e.1.2.c.toNat, type := w.typeOf e.1.1 e.2.2,
                global := w.globals.contains e.1.1 }))
    ++ ((w.others.filter (fun n => !w.cur.any (fun x => x.1 == n))).map (fun n =>
      { name := n, sect := none, value := 0, type := .noType, global := true }))

/-- The object of a pass whose pieces are complete. -/
def Work.obj (w : Work) (pieces : List Piece) : Obj :=
  let text := pieces.flatMap Piece.content
  let data := w.data.reverse.flatMap Chunk.b
  let param := w.param.reverse.flatMap Chunk.b
  { cls := .elf64, order := .little, type := .rel, machine := 0x4B48, flags := w.nbvOf,
    sects := [
      { sect := .text, nobits := false, alloc := true, write := false, exec := true, align := 4, size := text.length, bytes := text },
      { sect := .data, nobits := false, alloc := true, write := true, exec := false, align := 8, size := data.length, bytes := data },
      { sect := .spad, nobits := true, alloc := false, write := false, exec := false, align := 16, size := w.spadAt, bytes := [] },
      { sect := .launch, nobits := false, alloc := true, write := false, exec := false, align := 256, size := w.launchBytes.length, bytes := w.launchBytes },
      { sect := .param, nobits := false, alloc := true, write := false, exec := false, align := 8, size := param.length, bytes := param }],
    syms := w.objSyms,
    rels := w.rels.reverse ++ (w.recs.reverse.flatMap (fun r => r.rels)).map (fun r => (Sect.launch, r))
      ++ (w.arms.reverse.flatMap (fun r => r.rels)).map (fun r => (Sect.launch, r)) }

/-! ### Relocation (Table 5.4) -/

/-- A 32-bit word at an offset of bytes. -/
def wordAt (b : List Byte) (off : Nat) : Nat := Machine.leNat ((b.drop off).take 4)

/-- One relocation applied to the bytes of its section: `v` is S + A and `p` the address of the place; `none` where the value
does not fit (E062). -/
def applyReloc (b : List Byte) (off : Nat) (t : RelType) (v p : Dword) : Option (List Byte) :=
  let pay := fun (b : List Byte) (o x : Nat) => putField b o 4 (wordAt b o / 2 ^ 24 * 2 ^ 24 + x)
  match t with
  | .abs64 => some (putField b off 8 v.toNat)
  | .abs32 => if fits32 v then some (putField b off 4 (v.toNat % 2 ^ 32)) else none
  | .br21 =>
    let d := (v - p).toInt
    if d % 4 = 0 && fitsSigned (d / 4) 21 then
      some (putField b off 4 (wordAt b off / 2 ^ 21 * 2 ^ 21 + (BitVec.ofInt 21 (d / 4)).toNat))
    else none
  | .lit24 => if fitsSigned v.toInt 24 then some (pay b off (v.toNat % 2 ^ 24)) else none
  | .lit48 => if fitsSigned v.toInt 48 then some (pay (pay b off (natBits v.toNat 24 24)) (off + 4) (v.toNat % 2 ^ 24)) else none
  | .movi32 =>
    if fits32 v then
      some (putField (pay b off (natBits v.toNat 8 24)) (off + 4) 4
        (wordAt b (off + 4) / 2 ^ 8 * 2 ^ 8 + v.toNat % 2 ^ 8))
    else none

/-- The contents of a section with its relocations applied, given where the sections and the symbols of other objects stand;
`none` where a symbol is missing or a value does not fit. -/
def Obj.place (o : Obj) (base : Sect → Nat) (others : List (Text × Nat)) (s : Sect) : Option (List Byte) :=
  match o.sects.find? (fun x => x.sect == s) with
  | none => none
  | some x =>
    (o.rels.filter (fun r => r.1 == s)).foldl (fun b r =>
      let sym := match r.2.base with
        | .sect q => some (base q)
        | .other n => (others.find? (fun e => e.1 == n)).map (·.2)
      match b, sym with
      | some b, some v => applyReloc b r.2.off r.2.typ (BitVec.ofNat 64 v + r.2.addend) (BitVec.ofNat 64 (base s + r.2.off))
      | _, _ => none) (some x.bytes)

/-! ### Listings (R97) -/

/-- Eight hexadecimal digits in two groups. -/
def hex8 (n : Nat) : Text :=
  let d := (padZeros 8 (Nat.toDigits 16 (n % 2 ^ 32))).map Char.toUpper
  d.take 4 ++ ['_'] ++ d.drop 4

/-- A row of a listing: the line it belongs to, the offset, the word, and the slot cycles of an instruction; `own` says whether
the source line stands beside it. -/
structure ListRow where
  ix : Nat
  off : Nat
  word : Nat
  cycles : Option Text
  own : Bool
deriving DecidableEq, Repr

/-- The rows of a clause: its header, beside its own line when it is explicit, and its words. -/
def Clause.rows (c : Clause) : List ListRow :=
  let b := c.bytes
  let first : ListRow :=
    { ix := if c.auto then ((c.words.head?).map (fun w => w.at_.ix)).getD c.at_.ix else c.at_.ix, off := c.off, word := wordAt b 0, cycles := none, own := !c.auto }
  let cyc := fun (w : Coded) => match w.slotCycles with | some n => decDigits n | none => ['?']
  let go := c.words.foldl (fun (a : List ListRow × Nat) w =>
    let lits := (List.range w.lits).map (fun i =>
      { ix := w.at_.ix, off := c.off + 4 * (a.2 + i), word := wordAt b (4 * (a.2 + i)), cycles := none, own := false : ListRow })
    let k := a.2 + w.lits
    (a.1 ++ lits ++ [{ ix := w.at_.ix, off := c.off + 4 * k, word := wordAt b (4 * k), cycles := some (cyc w), own := true }], k + 1)) ([], 1)
  first :: go.1

/-- The rows of bytes, a word to a row. -/
def byteRows (ix off : Nat) (b : List Byte) : List ListRow :=
  (List.range ((b.length + 3) / 4)).map (fun i => { ix := ix, off := off + 4 * i, word := wordAt b (4 * i), cycles := none, own := i == 0 })

/-- The rows of a pass. -/
def Work.rows (w : Work) (pieces : List Piece) : List ListRow :=
  pieces.flatMap (fun p => match p with | .clause c => c.rows | .bytes s off b => byteRows s.ix off b)
    ++ w.data.reverse.flatMap (fun c => byteRows c.at_.ix c.off c.b) ++ w.param.reverse.flatMap (fun c => byteRows c.at_.ix c.off c.b)
    ++ w.recs.reverse.zipIdx.flatMap (fun r => byteRows r.1.at_.ix (256 * r.2) r.1.b)
    ++ w.arms.reverse.zipIdx.flatMap (fun r => byteRows r.1.at_.ix (256 * w.recs.length + 32 * r.2) r.1.b)

/-- A row as text. -/
def ListRow.render (r : ListRow) (text : Text) : Text :=
  hex8 r.off ++ "  ".toList ++ hex8 r.word ++ (match r.cycles with | some c => "  ".toList ++ c ++ "  ".toList | none => "     ".toList)
    ++ (if r.own then text else [])

/-- The listing: each source line with its rows. -/
def listing (srcs : List Src) (rows : List ListRow) : List Text :=
  srcs.flatMap (fun s =>
    match rows.filter (fun r => r.ix == s.ix) with
    | [] => [List.replicate 23 ' ' ++ s.text]
    | rs => rs.map (fun r => r.render (skipBlank s.text)))

/-! ### Warnings, errors and the exit status (R84, R100, R101) -/

/-- A diagnostic under the options: `--allow-early` makes E030 and E032 warnings, `-Wno` drops a warning, and `--werror` makes
every warning count as an error. -/
def Options.filter (o : Options) (d : Diag) : Option Diag :=
  let d1 := if o.early && d.err && (d.num == 30 || d.num == 32) then { d with err := false } else d
  if d1.err then some d1
  else if o.silent.contains d1.num then none
  else some d1

/-- Whether a diagnostic counts as an error. -/
def Options.counts (o : Options) (d : Diag) : Bool := d.err || o.werror

/-- Diagnostics up to the one at which the assembler stops (`--max-errors`). -/
def Options.cut (o : Options) : Nat → List Diag → List Diag
  | _, [] => []
  | n, d :: r =>
    if o.counts d then (if n + 1 ≥ o.most then [d] else d :: o.cut (n + 1) r) else d :: o.cut n r

/-- What a run of the assembler leaves: its exit status, the object and the listing it writes by name, and its diagnostics. -/
structure Run where
  status : Nat
  obj : Option (Text × Obj)
  lst : Option (Text × List Text)
  diags : List Diag
deriving DecidableEq, Repr

/-- The diagnostics in the order of the lines. -/
def sortDiags (l : List Diag) : List Diag := (Machine.sortBy (fun d => d.line) l)

/-- A source text assembled under options: the pass that settles, the complete pieces, and every diagnostic. -/
def assemble (o : Options) (files : List (Text × Text)) (name text : Text) : Option (Expansion × Work × List Piece × List Diag) :=
  let x := expandFile files o.dirs name text
  if x.lost then none
  else
    let l := x.out.map stmtOf
    match settle o l (2 * l.length + 16) with
    | none =>
      let w := runPass o Carry.start l
      some (x, w, w.pieces.reverse,
        [{ file := name, line := 0, body := none, ix := 0, col := 1, text := [] : Src }.diag true 62 1 "sizes do not settle".toList])
    | some w =>
      let cs := autoClauses w.clauses w.roots
      let ds := x.diags ++ w.diags.reverse ++ flowDiags cs w.roots ++ (if o.bank then bankDiags cs else [])
      some (x, w, replaceClauses w.pieces.reverse cs, ds)

/-! ### The command line (R84, Table 5.1) -/

/-- A command line read: the options, the file, and the names of the object and the listing. -/
structure Command where
  o : Options
  file : Option Text
  out : Option Text
  lst : Option Text
deriving DecidableEq, Repr

/-- A decimal number. -/
def textNum (t : Text) : Option Nat := if t.isEmpty || t.any (fun c => !c.isDigit) then none else some (digitsVal 10 t)

/-- One more option that takes no value; `none` for a name that is none of them. -/
def Command.flag (c : Command) (a : Text) : Option Command :=
  if a = "--auto".toList then some { c with o := { c.o with auto := true } }
  else if a = "--allow-early".toList then some { c with o := { c.o with early := true } }
  else if a = "--warn-bank".toList then some { c with o := { c.o with bank := true } }
  else if a = "--werror".toList then some { c with o := { c.o with werror := true } }
  else if a.take 5 = "-Wno-".toList then (textNum (a.drop 5)).map (fun n => { c with o := { c.o with silent := n :: c.o.silent } })
  else if a.head? = some '-' then none
  else if c.file.isSome then none
  else some { c with file := some a }

/-- One more option with its value; `none` for a name that takes none, or a value that is wrong. -/
def Command.valued (c : Command) (a v : Text) : Option (Option Command) :=
  if a = "-o".toList then some (some { c with out := some v })
  else if a = "-l".toList then some (some { c with lst := some v })
  else if a = "-I".toList then some (some { c with o := { c.o with dirs := c.o.dirs ++ [v] } })
  else if a = "-D".toList then
    let n := v.takeWhile (fun x => x != '=')
    some (if n.length < v.length && !n.isEmpty then some { c with o := { c.o with defs := c.o.defs ++ [(n, v.drop (n.length + 1))] } } else none)
  else if a = "--nbv".toList then
    some ((textNum v).bind (fun n => if 1 ≤ n && n ≤ 3 then some { c with o := { c.o with nbv := n } } else none))
  else if a = "--max-errors".toList then some ((textNum v).map (fun n => { c with o := { c.o with most := n } }))
  else none

/-- The arguments of a command line; `none` is a usage error. -/
def Command.args : Nat → Command → List Text → Option Command
  | 0, c, _ => some c
  | _, c, [] => some c
  | fuel + 1, c, a :: r =>
    match c.valued a (r.headD []) with
    | some (some c1) => if r.isEmpty then none else c1.args fuel (r.drop 1)
    | some none => none
    | none => (c.flag a).bind (fun c1 => c1.args fuel r)

/-- The name of the object when none is given: `.o` in place of the source's extension. -/
def defaultOut (f : Text) : Text :=
  let after := (f.reverse.takeWhile (fun c => c != '.' && c != '/')).reverse
  let stem := f.take (f.length - after.length)
  if stem.getLast? = some '.' then stem ++ ['o'] else f ++ ['.', 'o']

/-- The assembler: a command line and the files there are, to what it writes and reports (R84). A run with errors writes neither object
nor listing (of the listing DESIGN CHOICE, log 53: the spec speaks of the object alone). -/
def stolf (args : List Text) (files : List (Text × Text)) : Run :=
  let bad : Run := { status := 2, obj := none, lst := none, diags := [] }
  match Command.args (args.length + 1) { o := Options.start, file := none, out := none, lst := none } args with
  | none => bad
  | some c =>
    match c.file with
    | none => bad
    | some f =>
      match (files.find? (fun e => e.1 == f)).bind (fun e => assemble c.o files f e.2) with
      | none => bad
      | some (x, w, pieces, ds) =>
        let ds1 := c.o.cut 0 ((sortDiags ds).filterMap c.o.filter)
        let fails := ds1.any c.o.counts
        { status := if fails then 1 else 0,
          obj := if fails then none else some (c.out.getD (defaultOut f), w.obj pieces),
          lst := if fails then none else c.lst.map (fun n => (n, listing x.out (w.rows pieces))),
          diags := ds1 }

end Sys2Proof.Asm
end

