-- ==== Sys2Proof/WellFormed.lean ====
section
/-! DEFINITION. Which terms of `Instr` stand for an instruction or an event of this device: for a word, the literals that its row
accepts and the operands that its row allows, in a context that refuses nothing else; for an event, units that exist. -/

namespace Sys2Proof

/-- The literals of a word's run are ones that its row accepts (R67 to R69, R81). -/
def Instr.literalsOk (i : Instr) : Bool :=
  match i.sig, i.raw with
  | some sg, some r => litOk sg r
  | _, _ => true

/-- The operands of a word are ones that its row allows (R64 to R66, R81). -/
def Instr.operandsOk (i : Instr) : Bool :=
  match i.sig, i.raw with
  | some sg, some r => (operandFault (DecCtx.open sg.cls) sg r).isNone
  | _, _ => true

/-- A core that exists (R1). -/
def coreOk (c : Nat) : Bool := decide (c < Config.cores)

/-- A partition that may exist (Table 13.1). -/
def partOk (p : Nat) : Bool := decide (p < 64)

/-- The units that an event names exist. -/
def Instr.unitsOk : Instr → Bool
  | .pickerFormBundle c l _ | .haltBroadcast _ c l => coreOk c && decide (l < Config.lanes)
  | .copyRequestStart c | .copyGranule c | .mirrorStoreArrival _ c | .matrixOpStart c | .multicastGroupReady c | .matrixOpComplete c _
  | .ruleStepStart c | .ruleGeneration c => coreOk c
  | .tardyDeadline d | .rerouteResume d => decide (d < Config.dies)
  | .linkDead d l _ _ => Config.linkOk d l
  | .linkRetrain n => decide (n < Config.links)
  | .armInstall p n _ => partOk p && decide (n < 64)
  | .taggedMessage p (.ext m) => partOk p && decide (m.payload.length ≤ 4096)
  | .taggedMessage p (.send _) | .armQuantum p | .dispatchPlace p | .backfillBlockTimeout p | .partitionResetComplete p
  | .holdStallTimeout p | .mgmtInvalidate p _ _ _ _ | .remoteWrite p _ _ | .hostAtomic p _ _ _ _ _ _ | .frameMigration p _ _ _ => partOk p
  | .partitionEntryWrite n _ => partOk n
  | .gangSwitchTick l => l.all (fun c => partOk c.part)
  | _ => true

/-- A well-formed instruction. -/
def Instr.wf (i : Instr) : Bool := i.literalsOk && i.operandsOk && i.unitsOk

end Sys2Proof
end

