-- ==== Sys2Proof/Safety.lean ====
section
/-! DEFINITION. What claims about runs are stated in: steps from a state, the states they reach, and what it is for a run to go on. -/

namespace Sys2Proof

open Machine

/-- `t` comes after `n` steps from `s`, none of them a fault or a refusal. -/
inductive Steps : Nat → State → State → Prop where
  | refl (s : State) : Steps 0 s s
  | next {n : Nat} {s t u : State} (h : step s = .next t) (r : Steps n t u) : Steps (n + 1) s u

/-- A state that some number of steps from reset, under some agenda, comes to. -/
def Reachable (t : State) : Prop := ∃ (l : List Turn) (n : Nat), Steps n { State.reset with agenda := l } t

/-- A run of `n` steps from a state goes on: the machine neither stops nor refuses. -/
def GoesOn (n : Nat) (s : State) : Prop := ∃ t, Steps n s t

/-- No context of a state has been ended by a fault. -/
def NoneEnded (s : State) : Prop := ∀ l ∈ s.launches, l.2.status ≠ LStatus.ended

/-- A safe run: it goes on, and no context is ended by a fault on the way. -/
def SafeRun (n : Nat) (s : State) : Prop := ∀ k, k ≤ n → ∃ t, Steps k s t ∧ NoneEnded t


namespace Machine

/-! ### What a word leaves -/

/-- A thread's values that no end of a pass changes: all but its run state, position, times, counts and suppressed flags. -/
def Thread.timeless (t : Thread) : Thread :=
  { t with st := .ready, pos := ⟨0, 0⟩, ready := 0, slotAt := 0, issued := 0, skid := 0, candAt := 0, since := 0, toff := 0 }

/-- What a response leaves of a warp: all but its threads, counters, outstanding words, scalar registers awaited and FLOOR. -/
def Warp.unanswered (w : Warp) : Warp :=
  { w with threads := [], ctr := Vector.replicate 6 0, fell := Vector.replicate 6 0, out := [], sasync := [], floor := 0 }

/-- What a word that writes registers leaves of a thread: all but registers, latches, flags and the writes on their way. -/
def Thread.apart (t : Thread) : Thread :=
  { t.timeless with v := Vector.replicate 64 0, vvoid := 0, k := Vector.replicate 4 0, kvoid := 0, lat := [], pend := [],
                    async := [], flags := 0 }

/-- A warp without its threads. -/
def Warp.shell (w : Warp) : Warp := { w with threads := [] }

/-- What a compare leaves of a warp: all but its threads and predicates. -/
def Warp.husk (w : Warp) : Warp := { w with threads := [], preds := Vector.replicate 12 0, ppend := [] }

/-- All of the device but its warps, bundles and ports, and what a SHFL is still to read: memory, cores, requests, launches, partitions
and the rest. -/
def State.outside (s : State) : State := { s with cur := none, fresh := 0, bundles := [], portFree := [], warps := [], shfls := [] }

/-- A thread that went past a word: one more word issued, and at its next position, where no flag is suppressed any more (R114); its other
values as the word left them. -/
def WentOn (q : Pos) (t u : Thread) : Prop :=
  u.timeless = t.timeless ∧ u.issued = t.issued + 1 ∧ (u.pos = if t.st = .issuing then q else t.pos) ∧
    u.toff = if t.st = .issuing then 0 else t.toff

/-- `t` differs from `s` only in the threads of a pass, their warps, and the bundles and ports. -/
def Undisturbed (p : Pass) (s t : State) : Prop := t.outside = s.outside ∧ ∀ k, k ∉ p.keys → t.thread k = s.thread k

/-- The threads of a pass have gone past its word, with nothing else of theirs changed. -/
def AllWent (s u : State) (p : Pass) : Prop :=
  ∀ k ∈ p.keys, ∀ y, s.thread k = some y → ∃ z, u.thread k = some z ∧ WentOn p.after y z

/-- Every warp keeps all but its threads: scalar registers, predicates, counters, FLOOR, barriers. -/
def WarpsKept (s t : State) : Prop := ∀ w, (Tab.find t.warps w).map Warp.shell = (Tab.find s.warps w).map Warp.shell

/-- Every warp keeps all but its threads and predicates. -/
def HusksKept (s t : State) : Prop := ∀ w, (Tab.find t.warps w).map Warp.husk = (Tab.find s.warps w).map Warp.husk

/-- `p` is the pass that is due in `s` for a word that reads `srcs` from registers (R18, R19, R50). -/
def State.Due (s : State) (srcs : List Src) (p : Pass) : Prop :=
  ∃ p0, s.pass = some p0 ∧ p = { p0 with dur := p0.slotDur s srcs } ∧ p.keys.Nodup

/-! ### Registers in time -/

/-- Nothing is on its way to a location. -/
def Thread.Idle (t : Thread) (loc : Nat) : Prop := (∀ p ∈ t.pend, p.loc ≠ loc) ∧ ∀ a ∈ t.async, a.loc ≠ loc

/-- A location reads as a value from a cycle on, and is not void. -/
def Thread.Gets (u : Thread) (loc : Nat) (x : Word) (n : Nat) : Prop := (u.land n).raw loc = x ∧ (u.land n).isVoid loc = false

/-- A location reads at every cycle as it would have. -/
def Thread.Keeps (t u : Thread) (loc : Nat) : Prop := ∀ n, (u.land n).raw loc = (t.land n).raw loc

/-! ### Vector words -/

/-- A thread completes a vector word that computes `op`: its guard fails; or it executes, its operands can be read, no flag that it
raises traps, and its destination can be written. -/
def TCtx.Completes (c : TCtx) (v : VWord) (op : VOp) : Prop :=
  c.guard v.h.guard = .ok false ∨
  (c.guard v.h.guard = .ok true ∧ ∃ a b x locs, c.operands v = .ok (a, b, x) ∧ c.trapping v.am (op c a b x).2 = 0 ∧
    c.dest v.d = .ok locs ∧ c.writeCheck locs = none)

/-- What a word that writes a result leaves in a thread that executes it: its result at the destination's locations from cycle `land`
on, its flags merged, its result at the head of the latches if it shifts them, no flag suppressed any more, and everything else as it
was. -/
def TCtx.Wrote (c : TCtx) (v : VWord) (locs : List Nat) (r : List Word × FlagSet) (land : Nat) (u : Thread) : Prop :=
  u.issued = c.th.issued + 1 ∧ (u.pos = if c.th.st = .issuing then c.p.after else c.th.pos) ∧
  u.apart = c.th.apart ∧ u.toff = 0 ∧ u.flags = c.th.flags ||| r.2 ∧
  (u.lat = if v.shifts then ({ val := dwordOf r.1, land := land } :: c.th.lat).take 3 else c.th.lat) ∧
  (∀ e ∈ locs.zip r.1, e.1 < 68 → c.th.Idle e.1 → u.Gets e.1 e.2 land) ∧
  (∀ l, l ∉ locs → c.th.Keeps u l)

/-- A predicate of a thread reads as a truth value from a cycle on in the bundle of a pass (R133). -/
def PredGets (t : State) (p : Pass) (k : TKey) (n : Nat) (b : Bool) (from_ : Nat) : Prop :=
  k.slot < 32 → ∀ w, Tab.find t.warps k.warp = some w → ∀ cyc, from_ ≤ cyc → (w.pget n p.bundle cyc).getLsbD k.slot = b

/-- `i` is the vector word whose operands, destination and latency are `v`'s and whose result is `op`'s: where every thread of the pass
completes it, it answers a next state in which each thread that executed it wrote its result, each other thread went past it, and
nothing else changed. -/
def VectorWord (i : Instr) (v : VWord) (op : VOp) : Prop :=
  ∀ s p, s.Due [v.a, v.b, v.c] p → (∀ c ∈ p.ctxs s, c.Completes v op) →
    ∃ t, exec i s = .next t ∧ Undisturbed p s t ∧ (if v.pred = none then WarpsKept s t else HusksKept s t) ∧
      ∀ c ∈ p.ctxs s,
        (c.guard v.h.guard = .ok false → ∃ u, t.thread c.key = some u ∧ WentOn p.after (c.skipped v) u) ∧
        ∀ a b x locs, c.guard v.h.guard = .ok true → c.operands v = .ok (a, b, x) → c.dest v.d = .ok locs →
          (∃ u, t.thread c.key = some u ∧ c.Wrote v locs (op c a b x) (c.slot + v.lat) u) ∧
          ∀ n, v.pred = some n → PredGets t p c.key n (decide (w0 (op c a b x).1 ≠ 0)) (c.slot + 4)

/-! ### Long operations due in the middle of a pass (R144, R342) -/

/-- The flags of a thread's long operations that are due by its slot. -/
def State.dueFlags (s : State) (c : TCtx) : FlagSet :=
  (s.longs.filter (fun o => o.thread == c.key && decide (o.due ≤ c.slot))).foldl (fun f o => f ||| o.flags) 0

/-- A thread of a pass with those flags in FLAGS, as a word that reads or writes FLAGS finds it. -/
def State.merged (s : State) (c : TCtx) : TCtx := { c with th := { c.th with flags := c.th.flags ||| s.dueFlags c } }

/-- The long operations once those flags have been merged in a pass: they have none left to merge. -/
def State.mergedLongs (s : State) (p : Pass) : List LongOp :=
  s.longs.map (fun o => if (p.ctxs s).any (fun c => o.thread == c.key && decide (o.due ≤ c.slot)) then { o with flags := 0 } else o)

/-! ### Words that change their thread at once -/

/-- A thread as a word finds it, with no flag suppressed any more (R114). -/
def TCtx.unsuppressed (c : TCtx) : TCtx := { c with th := { c.th with toff := 0 } }

/-- `i` reads `a` and `b` in each thread that executes it, changes that thread as `f` says, and then applies its K mark on `a`, which comes
after every read (R44, R45); the thread goes on at the next word. `ok` is what its operands must meet. Where the word reads or writes FLAGS,
it finds the flags of long operations due by the thread's slot merged. -/
def ThreadWord (i : Instr) (h : Hd) (a b : Src) (ok : TCtx → List Word → List Word → Prop)
    (f : TCtx → List Word → List Word → Thread) (flags : Bool) : Prop :=
  ∀ s p, s.Due [a, b] p →
    (∀ c ∈ p.ctxs s, c.guard h.guard = .ok false ∨
      (c.guard h.guard = .ok true ∧ ∃ x y, c.read 0 a = .ok x ∧ c.read 1 b = .ok y ∧ ok c x y)) →
    ∃ t, exec i s = .next t ∧ t.outside = { s.outside with longs := if flags then s.mergedLongs p else s.longs } ∧
      (∀ k, k ∉ p.keys → t.thread k = s.thread k) ∧ WarpsKept s t ∧
      ∀ c ∈ p.ctxs s, ∀ d, d = (if flags then s.merged c else c) →
        (c.guard h.guard = .ok false → ∃ u, t.thread c.key = some u ∧ WentOn p.after d.th u) ∧
        ∀ x y, c.guard h.guard = .ok true → c.read 0 a = .ok x → c.read 1 b = .ok y →
          ∃ u, t.thread c.key = some u ∧ WentOn p.after (c.mark h a (f d.unsuppressed x y)) u

/-- `i` transfers each thread that executes it to `target`, a multiple of 4 below 2^55, setting LINK when it calls; the other threads
go on at the next word. -/
def TransferWord (i : Instr) (h : Hd) (a : Src) (call : Bool) (target : TCtx → List Word → Dword) : Prop :=
  ∀ s p, s.Due [a] p →
    (∀ c ∈ p.ctxs s, c.guard h.guard = .ok false ∨
      (c.guard h.guard = .ok true ∧ ∃ x, c.read 0 a = .ok x ∧ (target c x).toNat % 4 = 0 ∧ (target c x).toNat < 2 ^ 55)) →
    ∃ t, exec i s = .next t ∧ Undisturbed p s t ∧ WarpsKept s t ∧
      ∀ c ∈ p.ctxs s,
        (c.guard h.guard = .ok false → ∃ u, t.thread c.key = some u ∧ WentOn p.after c.th u) ∧
        ∀ x, c.guard h.guard = .ok true → c.read 0 a = .ok x →
          ∃ u, t.thread c.key = some u ∧
            WentOn ⟨target c x, 0⟩
              (c.mark h a (if call then { c.unsuppressed.th with link := p.pc + BitVec.ofNat 64 (4 * (p.hdr.n + 1)) }
                else c.unsuppressed.th)) u

/-! ### Scalar words -/

/-- `p` is the pass that is due in `s`. -/
def State.Now (s : State) (p : Pass) : Prop := s.pass = some p ∧ p.keys.Nodup

/-- The threads of a pass that execute under a guard. -/
def Pass.executing (p : Pass) (s : State) (h : Hd) : List TCtx :=
  (p.ctxs s).filter (fun c => match c.guard h.guard with | .ok b => b | .error _ => false)

/-- A thread is the first of its warp among some threads. -/
def FirstOfWarp (cs : List TCtx) (c : TCtx) : Prop := cs.find? (fun d => d.key.warp == c.key.warp) = some c

/-- What a scalar word leaves of a warp: all but its threads and scalar registers. -/
def Warp.unscaled (w : Warp) : Warp := { w with threads := [], s := Vector.replicate 96 0, spend := [], sasync := [] }

/-- A scalar word: `i` computes in the first executing thread of each warp the words of D, which read so from the latency on in its own
bundle and from 4 cycles on in others, and leaves every other register, every thread but its position and count, and everything else. -/
def ScalarWord (i : Instr) (h : Hd) (d : SSel) (n lat : Nat) (f : TCtx → Except TrapInfo (List Word)) : Prop :=
  ∀ s p, s.Now p → (∀ c ∈ p.ctxs s, ∃ b, c.guard h.guard = .ok b) →
    (∀ c ∈ p.executing s h, ∃ ws, f c = .ok ws ∧ ws.length = n ∧ c.sWriteCheck d n = none) →
    ∃ t, exec i s = .next t ∧ Undisturbed p s t ∧
      (∀ w, (Tab.find t.warps w).map Warp.unscaled = (Tab.find s.warps w).map Warp.unscaled) ∧
      (∀ k ∈ p.keys, ∀ y, s.thread k = some y → ∃ u, t.thread k = some u ∧ WentOn p.after y u) ∧
      ∀ c ∈ p.executing s h, FirstOfWarp (p.executing s h) c → ∀ ws, f c = .ok ws →
        ∀ w w', Tab.find s.warps c.key.warp = some w → Tab.find t.warps c.key.warp = some w' →
          (∀ r, d = .s r → ∀ j (hj : j < ws.length), ∀ b cyc, (if b = p.bundle then c.wslot + lat else c.wslot + 4) ≤ cyc →
            w'.sget (r.val + j) b cyc = ws[j]) ∧
          ∀ m b cyc, (∀ r, d = .s r → m < r.val ∨ r.val + ws.length ≤ m) → w'.sget m b cyc = w.sget m b cyc

/-! ### FLOOR -/

/-- The 64-bit value of a source in a thread that can read it. -/
def TCtx.value64 (c : TCtx) (x : Src) : Dword := match c.read 0 x with | .ok ws => dwordOf ws | .error _ => 0

/-- What a raise of FLOOR leaves of a warp: all but its threads and the raises on their way. -/
def Warp.unraised (w : Warp) : Warp := { w with threads := [], fpend := [] }

/-- Every warp keeps all but its threads and FLOOR, which its own bundle sees, once the pass is over, raised to the greatest of the values
that `src` has in its executing threads (R163, R210). -/
def FloorsRaised (s t : State) (p : Pass) (h : Hd) (src : Src) : Prop :=
  (∀ n, (Tab.find t.warps n).map Warp.unraised = (Tab.find s.warps n).map Warp.unraised) ∧
  ∀ n w w', Tab.find s.warps n = some w → Tab.find t.warps n = some w' → ∀ cyc, p.stop ≤ cyc →
    w'.floorFor p.bundle cyc =
      ((p.executing s h).filter (fun c => c.key.warp == n)).foldl (fun f c => umax f (c.value64 src)) (w.floorFor p.bundle cyc)

/-! ### Barriers -/

/-- A warp without its threads and barriers. -/
def Warp.unbarred (w : Warp) : Warp := { w with threads := [], bars := [] }

/-- All of the device but its warps, bundles, ports and barriers. -/
def State.unbarred (s : State) : State :=
  { s.outside with
    blocks := s.blocks.map (fun e => (e.1, { e.2 with bars := [] }))
    groups := s.groups.map (fun e => (e.1, { e.2 with bars := [] }))
    launches := s.launches.map (fun e => (e.1, { e.2 with bars := [] })) }

end Machine

end Sys2Proof
end

