-- ==== Sys2Proof/Certificates/Slice0/Obligations.lean ====
section
/-! DEFINITION. The statements about this model: its decoder, its step, what every instruction does where it runs, and what the
device keeps throughout. -/

namespace Sys2Proof

open Machine

/-! ### Results of vector words, as the tables of the spec give them -/

/-- An exact result brought into the 32-bit signed range (R129). -/
def clamped32 (x : Int) : Word := BitVec.ofInt 32 (max (-2147483648) (min 2147483647 x))

/-- An exact result brought into the 64-bit signed range (R339). -/
def clamped64 (x : Int) : Dword := BitVec.ofInt 64 (max (-9223372036854775808) (min 9223372036854775807 x))

/-- Whether an ARITHMOD literal sets SAT. -/
def saturates (m : Option Arith) : Bool := (m.map Arith.sat).getD false

/-- A result of 32-bit integers, without flags. -/
def gives32 (f : Word → Word → Word → Word) : VOp := fun _ a b c => ([f (w0 a) (w0 b) (w0 c)], 0)

/-- A result of 32-bit integers that SAT clamps. -/
def givesSat32 (m : Option Arith) (exact : Int → Int → Int → Int) (f : Word → Word → Word → Word) : VOp := fun _ a b c =>
  ([if saturates m then clamped32 (exact (w0 a).toInt (w0 b).toInt (w0 c).toInt) else f (w0 a) (w0 b) (w0 c)], 0)

/-- A result of 64-bit integers, without flags. -/
def gives64 (f : Dword → Dword → Dword) : VOp := fun _ a b _ => (Dword.words (f (dwordOf a) (dwordOf b)), 0)

/-- A result of 64-bit integers that SAT clamps. -/
def givesSat64 (m : Option Arith) (exact : Int → Int → Int) (f : Dword → Dword → Dword) : VOp := fun _ a b _ =>
  (Dword.words (if saturates m then clamped64 (exact (dwordOf a).toInt (dwordOf b).toInt) else f (dwordOf a) (dwordOf b)), 0)

/-- The conditions of Table 7.3 on integers. -/
def holds (cond : BitVec 3) (a b : BitVec n) : Prop :=
  match cond.toNat with
  | 0 => a = b
  | 1 => a ≠ b
  | 2 => a.toInt < b.toInt
  | 3 => a.toInt ≤ b.toInt
  | 4 => b.toInt < a.toInt
  | 5 => b.toInt ≤ a.toInt
  | 6 => a.toNat < b.toNat
  | _ => b.toNat ≤ a.toNat

/-- An integer compare of `n`-word operands: the word `i` sets a predicate to what `holds` says. -/
def ComparesInts (i : Instr) (v : VWord) (cond : BitVec 3) (wide : Bool) : Prop :=
  ∃ op : VOp, VectorWord i v op ∧ ∀ c a b x, (op c a b x).2 = 0 ∧
    (w0 (op c a b x).1 ≠ 0 ↔ if wide then holds cond (dwordOf a) (dwordOf b) else holds cond (w0 a) (w0 b))

/-! ### Integer words of GEN -/

/-- R128, R129, Table 7.2: IADD, ISUB, IMUL and IMAD write the low 32 bits of their exact result, or under SAT that result clamped;
IMULH and IMULHN the high half of the signed and the unsigned product; INEG and IABS as R145 gives them. -/
def IntegerArithmeticRule : Prop :=
  (∀ t : Tri,
    VectorWord (.iadd t) (Tri.int t 4 false) (givesSat32 t.am (fun a b _ => a + b) (fun a b _ => a + b)) ∧
    VectorWord (.isub t) (Tri.int t 4 false) (givesSat32 t.am (fun a b _ => a - b) (fun a b _ => a - b)) ∧
    VectorWord (.imul t) (Tri.int t 6 false) (givesSat32 t.am (fun a b _ => a * b) (fun a b _ => a * b)) ∧
    VectorWord (.imad t) (Tri.int t 6 true) (givesSat32 t.am (fun a b c => a * b + c) (fun a b c => a * b + c)) ∧
    VectorWord (.imulh t) (Tri.int t 6 false)
      (gives32 (fun a b _ => ((a.signExtend 64 * b.signExtend 64) >>> 32).setWidth 32)) ∧
    VectorWord (.imulhn t) (Tri.int t 6 false)
      (gives32 (fun a b _ => ((a.setWidth 64 * b.setWidth 64) >>> 32).setWidth 32))) ∧
  ∀ t : Duo,
    VectorWord (.ineg t) (Duo.word t 1 1 4) (givesSat32 t.am (fun a _ _ => -a) (fun a _ _ => -a)) ∧
    VectorWord (.iabs t) (Duo.word t 1 1 4)
      (givesSat32 t.am (fun a _ _ => max a (-a)) (fun a _ _ => if a.msb then -a else a))

/-- R130: the logic words bit by bit, and the shifts by B mod 64, where a count of 32 or more gives 0, or copies of the sign. -/
def LogicAndShiftsRule : Prop :=
  ∀ t : Tri,
    VectorWord (.and t) (Tri.int t 4 false) (gives32 (fun a b _ => a &&& b)) ∧
    VectorWord (.or t) (Tri.int t 4 false) (gives32 (fun a b _ => a ||| b)) ∧
    VectorWord (.xor t) (Tri.int t 4 false) (gives32 (fun a b _ => a ^^^ b)) ∧
    VectorWord (.andn t) (Tri.int t 4 false) (gives32 (fun a b _ => a &&& ~~~ b)) ∧
    VectorWord (.shl t) (Tri.int t 4 false)
      (gives32 (fun a b _ => if b.toNat % 64 < 32 then a <<< (b.toNat % 64) else 0)) ∧
    VectorWord (.shr t) (Tri.int t 4 false)
      (gives32 (fun a b _ => if b.toNat % 64 < 32 then a >>> (b.toNat % 64) else 0)) ∧
    VectorWord (.sar t) (Tri.int t 4 false)
      (gives32 (fun a b _ => if b.toNat % 64 < 32 then a.sshiftRight (b.toNat % 64) else if a.msb then 0xFFFFFFFF else 0))

/-- Table 7.2 and R145: the least and the greatest of signed and of unsigned words; and of one word its complement, the number of its
ones and of its leading zeros, its bits and its bytes in reverse order, and the sign extension of its low byte and half (R147). -/
def MinMaxAndBitsRule : Prop :=
  (∀ t : Tri,
    VectorWord (.imin t) (Tri.int t 4 false) (gives32 (fun a b _ => BitVec.ofInt 32 (min a.toInt b.toInt))) ∧
    VectorWord (.imax t) (Tri.int t 4 false) (gives32 (fun a b _ => BitVec.ofInt 32 (max a.toInt b.toInt))) ∧
    VectorWord (.nmin t) (Tri.int t 4 false) (gives32 (fun a b _ => BitVec.ofNat 32 (min a.toNat b.toNat))) ∧
    VectorWord (.nmax t) (Tri.int t 4 false) (gives32 (fun a b _ => BitVec.ofNat 32 (max a.toNat b.toNat)))) ∧
  ∀ t : Duo,
    VectorWord (.not t) (Duo.word t 1 1 4) (gives32 (fun a _ _ => a ^^^ 0xFFFFFFFF)) ∧
    VectorWord (.popc t) (Duo.word t 1 1 4)
      (gives32 (fun a _ _ => BitVec.ofNat 32 ((List.range 32).filter (fun i => a.getLsbD i)).length)) ∧
    VectorWord (.clz t) (Duo.word t 1 1 4)
      (gives32 (fun a _ _ => BitVec.ofNat 32 ((List.range 32).takeWhile (fun i => !a.getMsbD i)).length)) ∧
    VectorWord (.brev t) (Duo.word t 1 1 4) (gives32 (fun a _ _ => a.reverse)) ∧
    VectorWord (.bswap t) (Duo.word t 1 1 4)
      (gives32 (fun a _ _ => (a <<< 24) ||| ((a &&& 0xFF00) <<< 8) ||| ((a >>> 8) &&& 0xFF00) ||| (a >>> 24))) ∧
    VectorWord (.cvtI32I8 t) (Duo.word t 1 1 4) (gives32 (fun a _ _ => (a <<< 24).sshiftRight 24)) ∧
    VectorWord (.cvtI32I16 t) (Duo.word t 1 1 4) (gives32 (fun a _ _ => (a <<< 16).sshiftRight 16))

/-- R131, R339: ISETP and LSETP set the thread's bit of predicate N to the condition of Table 7.3 on their operands, write no register
and shift no latch. -/
def IntegerComparesRule : Prop :=
  ∀ t : Cmp,
    ComparesInts (.isetp t) (Cmp.word t (bI32 t.b) 1) t.cond false ∧
    ComparesInts (.lsetp t) (Cmp.word t (bI64 t.b) 2) t.cond true

/-- A word of Table 4.3: guard, K, OP and three fields of seven bits. -/
def laidOut (h : Hd) (op : BitVec 5) (d a b : BitVec 7) : Word := h.guard.g ++ BitVec.ofBool h.guard.n ++ BitVec.ofBool h.k ++ op ++ d ++ a ++ b

/-! ### Floating-point words -/

/-- R141, R142, R118, R146: the binary32 words of GEN, each with its addend, latency and function of Table 6.7 and the rules of rounding,
under the rounding mode, SAT and FTZ of R105. -/
def Binary32WordsRule : Prop :=
  (∀ t : Tri,
    VectorWord (.fadd t) (Tri.f32 t 6 .none 2) (f32Op t.am (fun v a b _ => b32.add v a b)) ∧
    VectorWord (.fmul t) (Tri.f32 t 6 .none 2) (f32Op t.am (fun v a b _ => b32.mul v a b)) ∧
    VectorWord (.ffma t) (Tri.f32 t 6 (.sel t.d 1) 2) (f32Op t.am (fun v a b c => b32.fma v a b c)) ∧
    VectorWord (.ffmal t) (Tri.f32 t 6 (.sel (.l 0) 1) 3) (f32Op t.am (fun v a b c => b32.fma v a b c)) ∧
    VectorWord (.fmin t) (Tri.f32 t 6 .none 2) (f32Op t.am (fun v a b _ => b32.minmax v.ftz false a b)) ∧
    VectorWord (.fmax t) (Tri.f32 t 6 .none 2) (f32Op t.am (fun v a b _ => b32.minmax v.ftz true a b))) ∧
  (∀ t : Cmp, VectorWord (.fsetp t) (Cmp.word t (bF32 t.b) 1) (fun c a b _ =>
    (([if (b32.cmp (c.env t.am).ftz t.cond (w0 a).toNat (w0 b).toNat).1 then 1 else 0] : List Word),
      (b32.cmp (c.env t.am).ftz t.cond (w0 a).toNat (w0 b).toNat).2))) ∧
  ∀ t : Duo,
    VectorWord (.fneg t) (Duo.word t 1 1 4) (gives32 (fun a _ _ => a ^^^ 0x80000000)) ∧
    VectorWord (.fabs t) (Duo.word t 1 1 4) (gives32 (fun a _ _ => a &&& 0x7FFFFFFF)) ∧
    VectorWord (.fclass t) (Duo.word t 1 1 4) (f32Op t.am (fun v a _ _ => (b32.classify v.ftz a, 0))) ∧
    VectorWord (.frint t) (Duo.word t 1 1 4) (f32Op t.am (fun v a _ _ => b32.rint v a))

/-- R147, R148: the conversions of GEN between binary32, integers, binary16 and BF16, and QUANT and DEQ through the A format of a slot
of the launch, with the slot's rounding and SAT. -/
def Conversions32Rule : Prop :=
  (∀ t : Duo,
    VectorWord (.cvtF32I32 t) (Duo.word t 1 1 4) (f32Op t.am (fun v a _ _ => intToFp b32 v.rm (BitVec.ofNat 32 a).toInt)) ∧
    VectorWord (.cvtF32N32 t) (Duo.word t 1 1 4) (f32Op t.am (fun v a _ _ => intToFp b32 v.rm a)) ∧
    VectorWord (.cvtI32F32 t) (Duo.word t 1 1 4) (f32Op t.am (fun v a _ _ => fpToInt b32 v true 32 a)) ∧
    VectorWord (.cvtN32F32 t) (Duo.word t 1 1 4) (f32Op t.am (fun v a _ _ => fpToInt b32 v false 32 a)) ∧
    VectorWord (.cvtF16F32 t) (Duo.word t 1 1 4) (f32Op t.am (fun v a _ _ => fpConvF b32 b16 v a)) ∧
    VectorWord (.cvtF32F16 t) (Duo.word t 1 1 4) (f32Op t.am (fun v a _ _ => fpConvF b16 b32 v (a % 65536))) ∧
    VectorWord (.cvtBf16F32 t) (Duo.word t 1 1 4) (f32Op t.am (fun v a _ _ => fpConv b32 bf16 v a)) ∧
    VectorWord (.cvtF32Bf16 t) (Duo.word t 1 1 4) (f32Op t.am (fun v a _ _ => fpConv bf16 b32 v (a % 65536)))) ∧
  ∀ t : SlotW,
    VectorWord (.quant t) (SlotW.word t 1 1 4) (fun c a _ _ =>
      let x := c.p.rcd.slots.getD t.s 0
      let r := toSlot b32 (slotA x) ⟨RMode.ofBits (x.extractLsb' 17 2), x.getLsbD 16, false⟩ (w0 a).toNat
      ([BitVec.ofNat 32 r.1], r.2)) ∧
    VectorWord (.deq t) (SlotW.word t 1 1 4) (fun c a _ _ =>
      let r := fromSlot b32 (slotA (c.p.rcd.slots.getD t.s 0)) (w0 a).toNat
      ([BitVec.ofNat 32 r.1], r.2))

/-- R336, R337, R340: the binary64 words, each with its addend, latency and function. -/
def Binary64WordsRule : Prop :=
  (∀ t : Tri,
    VectorWord (.dadd t) (Tri.wide t (bF64 t.b) 8 .none 2) (f64Op t.am (fun v a b _ => b64.add v a b)) ∧
    VectorWord (.dsub t) (Tri.wide t (bF64 t.b) 8 .none 2) (f64Op t.am (fun v a b _ => b64.sub v a b)) ∧
    VectorWord (.dmul t) (Tri.wide t (bF64 t.b) 8 .none 2) (f64Op t.am (fun v a b _ => b64.mul v a b)) ∧
    VectorWord (.dfma t) (Tri.wide t (bF64 t.b) 8 (.sel t.d 2) 2) (f64Op t.am (fun v a b c => b64.fma v a b c)) ∧
    VectorWord (.dfmal t) (Tri.wide t (bF64 t.b) 8 (.sel (.l 0) 2) 3) (f64Op t.am (fun v a b c => b64.fma v a b c)) ∧
    VectorWord (.dmin t) (Tri.wide t (bF64 t.b) 8 .none 2) (f64Op t.am (fun _ a b _ => b64.minmax false false a b)) ∧
    VectorWord (.dmax t) (Tri.wide t (bF64 t.b) 8 .none 2) (f64Op t.am (fun _ a b _ => b64.minmax false true a b)) ∧
    VectorWord (.dscale t) (Tri.wide t (bI32 t.b) 8 .none 2) (fun c a b _ =>
      let r := fpScale (c.env t.am) (dwordOf a).toNat (w0 b).toInt
      (Dword.words (BitVec.ofNat 64 r.1), r.2))) ∧
  (∀ t : Cmp, VectorWord (.dsetp t) (Cmp.word t (bF64 t.b) 2) (fun _ a b _ =>
    (([if (b64.cmp false t.cond (dwordOf a).toNat (dwordOf b).toNat).1 then 1 else 0] : List Word),
      (b64.cmp false t.cond (dwordOf a).toNat (dwordOf b).toNat).2))) ∧
  ∀ t : Duo,
    VectorWord (.dneg t) (Duo.word t 2 2 4) (gives64 (fun a _ => a ^^^ 0x8000000000000000)) ∧
    VectorWord (.dabs t) (Duo.word t 2 2 4) (gives64 (fun a _ => a &&& 0x7FFFFFFFFFFFFFFF)) ∧
    VectorWord (.dclass t) (Duo.word t 2 1 4) (oneWord t.am (fun _ a => (b64.classify false a, 0))) ∧
    VectorWord (.drint t) (Duo.word t 2 2 8) (twoWords t.am (fun v a => b64.rint v a)) ∧
    VectorWord (.dgetexp t) (Duo.word t 2 2 8) (twoWords t.am (fun _ a => fpGetExp a)) ∧
    VectorWord (.dgetmant t) (Duo.word t 2 2 8) (twoWords t.am (fun _ a => fpGetMant a))

/-- R341: the conversions of WIDE between binary64, binary32 and integers of 32 and 64 bits, and the extensions of a word to 64 bits. -/
def WideConversionsRule : Prop :=
  ∀ t : Duo,
    VectorWord (.cvtF64F32 t) (Duo.word t 1 2 8) (twoWords t.am (fun v a => fpConv b32 b64 v a)) ∧
    VectorWord (.cvtF32F64 t) (Duo.word t 2 1 8) (oneWord t.am (fun v a => fpConv b64 b32 v a)) ∧
    VectorWord (.cvtF64I32 t) (Duo.word t 1 2 8) (twoWords t.am (fun v a => intToFp b64 v.rm (BitVec.ofNat 32 a).toInt)) ∧
    VectorWord (.cvtF64N32 t) (Duo.word t 1 2 8) (twoWords t.am (fun v a => intToFp b64 v.rm a)) ∧
    VectorWord (.cvtF64I64 t) (Duo.word t 2 2 8) (twoWords t.am (fun v a => intToFp b64 v.rm (BitVec.ofNat 64 a).toInt)) ∧
    VectorWord (.cvtF64N64 t) (Duo.word t 2 2 8) (twoWords t.am (fun v a => intToFp b64 v.rm a)) ∧
    VectorWord (.cvtI32F64 t) (Duo.word t 2 1 8) (oneWord t.am (fun v a => fpToInt b64 v true 32 a)) ∧
    VectorWord (.cvtN32F64 t) (Duo.word t 2 1 8) (oneWord t.am (fun v a => fpToInt b64 v false 32 a)) ∧
    VectorWord (.cvtI64F64 t) (Duo.word t 2 2 8) (twoWords t.am (fun v a => fpToInt b64 v true 64 a)) ∧
    VectorWord (.cvtN64F64 t) (Duo.word t 2 2 8) (twoWords t.am (fun v a => fpToInt b64 v false 64 a)) ∧
    VectorWord (.cvtI64I32 t) (Duo.word t 1 2 8) (fun _ a _ _ => (Dword.words ((w0 a).signExtend 64), 0)) ∧
    VectorWord (.cvtN64N32 t) (Duo.word t 1 2 8) (fun _ a _ _ => (Dword.words ((w0 a).setWidth 64), 0))

/-- A packed result of two halves, each half by itself; the flags of both. -/
def halves (m : Option Arith) (f : FEnv → Nat → Nat → Nat → Nat × FlagSet) : VOp := fun c a b x =>
  let h := fun (i : Nat) => f (c.env m) ((w0 a).extractLsb' i 16).toNat ((w0 b).extractLsb' i 16).toNat ((w0 x).extractLsb' i 16).toNat
  ([BitVec.ofNat 16 (h 16).1 ++ BitVec.ofNat 16 (h 0).1], (h 0).2 ||| (h 16).2)

/-- A packed result of two words, each word by itself; the flags of both. -/
def pairs (m : Option Arith) (f : FEnv → Nat → Nat → Nat → Nat × FlagSet) : VOp := fun c a b x =>
  let h := fun (i : Nat) => f (c.env m) (a.getD i 0).toNat (b.getD i 0).toNat (x.getD i 0).toNat
  ([BitVec.ofNat 32 (h 0).1, BitVec.ofNat 32 (h 1).1], (h 0).2 ||| (h 1).2)

/-- The exact sum of four byte products and an addend. -/
def dotExact (ext : BitVec 8 → Int) (d : Int) (a b : Word) : Int :=
  d + ext (a.extractLsb' 0 8) * ext (b.extractLsb' 0 8) + ext (a.extractLsb' 8 8) * ext (b.extractLsb' 8 8)
    + ext (a.extractLsb' 16 8) * ext (b.extractLsb' 16 8) + ext (a.extractLsb' 24 8) * ext (b.extractLsb' 24 8)

/-- R343, R344: the packed words act on each element by itself, raise the flags of all, and pack the results in place: PADD, PMUL and PFMA
on pairs of binary32 and on binary16 and BF16 halves, PMIN and PMAX on halves. -/
def PackedFloatsRule : Prop :=
  ∀ t : PTri,
    (VectorWord (.paddF2 t) (PTri.word t 2 false 2 6) (pairs t.am (fun v a b _ => b32.add v a b)) ∧
     VectorWord (.pmulF2 t) (PTri.word t 2 false 2 6) (pairs t.am (fun v a b _ => b32.mul v a b)) ∧
     VectorWord (.pfmaF2 t) (PTri.word t 2 true 2 6) (pairs t.am (fun v a b c => b32.fma v a b c))) ∧
    (VectorWord (.paddH2 t) (PTri.word t 1 false 1 6) (halves t.am (fun v a b _ => b16.add v a b)) ∧
     VectorWord (.pmulH2 t) (PTri.word t 1 false 1 6) (halves t.am (fun v a b _ => b16.mul v a b)) ∧
     VectorWord (.pfmaH2 t) (PTri.word t 1 true 1 6) (halves t.am (fun v a b c => b16.fma v a b c)) ∧
     VectorWord (.pminH2 t) (PTri.word t 1 false 1 6) (halves t.am (fun v a b _ => b16.minmax v.ftz false a b)) ∧
     VectorWord (.pmaxH2 t) (PTri.word t 1 false 1 6) (halves t.am (fun v a b _ => b16.minmax v.ftz true a b))) ∧
    VectorWord (.paddB2 t) (PTri.word t 1 false 1 6) (halves t.am (fun v a b _ => bf16.add v a b)) ∧
    VectorWord (.pmulB2 t) (PTri.word t 1 false 1 6) (halves t.am (fun v a b _ => bf16.mul v a b)) ∧
    VectorWord (.pfmaB2 t) (PTri.word t 1 true 1 6) (halves t.am (fun v a b c => bf16.fma v a b c)) ∧
    VectorWord (.pminB2 t) (PTri.word t 1 false 1 6) (halves t.am (fun _ a b _ => bf16.minmax false false a b)) ∧
    VectorWord (.pmaxB2 t) (PTri.word t 1 false 1 6) (halves t.am (fun _ a b _ => bf16.minmax false true a b))

/-- R344, R345, R346: the packed integer sums, which SAT clamps element by element; the dot products of bytes, exact and then narrowed or
clamped, and of halves; and the packed conversions between pairs, halves and the bytes of a slot's format. -/
def PackedIntegersAndConversionsRule : Prop :=
  (∀ t : PTri,
    let el := fun (f : Int → Int → Int) (x y : BitVec 16) =>
      BitVec.ofInt 16 (if saturates t.am then max (-32768) (min 32767 (f x.toInt y.toInt)) else f x.toInt y.toInt)
    let i16 := fun (f : Int → Int → Int) => gives32 (fun a b _ =>
      el f (a.extractLsb' 16 16) (b.extractLsb' 16 16) ++ el f (a.extractLsb' 0 16) (b.extractLsb' 0 16))
    VectorWord (.paddI16 t) (PTri.word t 1 false 1 6) (i16 (fun x y => x + y)) ∧
    VectorWord (.psubI16 t) (PTri.word t 1 false 1 6) (i16 (fun x y => x - y)) ∧
    VectorWord (.pdot4I8 t) (PTri.word t 1 true 1 8) (gives32 (fun a b d =>
      let x := dotExact (fun y => y.toInt) d.toInt a b
      if saturates t.am then clamped32 x else BitVec.ofInt 32 x)) ∧
    VectorWord (.pdot4N8 t) (PTri.word t 1 true 1 8) (gives32 (fun a b d =>
      let x := dotExact (fun y => (y.toNat : Int)) d.toNat a b
      BitVec.ofInt 32 (if saturates t.am then min 4294967295 x else x))) ∧
    VectorWord (.pdot2H t) (PTri.word t 1 true 1 8) (dot2Op t.am b16) ∧
    VectorWord (.pdot2B t) (PTri.word t 1 true 1 8) (dot2Op t.am bf16)) ∧
  (∀ t : Duo,
    VectorWord (.f2toh2 t) (Duo.word t 2 1 6) (narrowOp t.am b16) ∧
    VectorWord (.f2tob2 t) (Duo.word t 2 1 6) (narrowOp t.am bf16) ∧
    VectorWord (.h2tof2 t) (Duo.word t 1 2 6) (widenOp t.am b16) ∧
    VectorWord (.b2tof2 t) (Duo.word t 1 2 6) (widenOp t.am bf16)) ∧
  ∀ t : SlotW,
    VectorWord (.quant4 t) (SlotW.word t 4 1 8) (fun c a _ _ =>
      let x := c.p.rcd.slots.getD t.s 0
      let rs := a.map (fun y => toSlot b32 (slotA x) (slotEnv x) y.toNat)
      ([pack8 (rs.map (·.1))], orFlags rs)) ∧
    VectorWord (.deq4 t) (SlotW.word t 1 4 8) (fun c a _ _ =>
      let rs := (bytesOf (w0 a)).map (fun y => fromSlot b32 (slotA (c.p.rcd.slots.getD t.s 0)) y)
      (rs.map (fun r => BitVec.ofNat 32 r.1), orFlags rs))

/-! ### Flags, selection and reaching across the warp -/

/-- What a FLAGS or RMODE word does in each executing thread whose destination can be written: the flags of long operations due by then merged
first, the thread then changed as `f` says, and its value written to D. Nothing else changes, but that those long operations have no flags
left to merge. -/
def FlagWord (i : Instr) (h : Hd) (d : Sel) (f : Thread → Thread × Word) : Prop :=
  let v : VWord := { h := h, am := none, a := .none, b := .none, c := .none, cfld := 2, d := some (d, 1), pred := none, lat := 4, shifts := true }
  ∀ s p, s.Due [] p →
    (∀ c ∈ p.ctxs s, c.guard h.guard = .ok false ∨
      (c.guard h.guard = .ok true ∧ ∃ locs, c.dest v.d = .ok locs ∧ c.writeCheck locs = none)) →
    ∃ t, exec i s = .next t ∧
      t.outside = { s.outside with longs := s.mergedLongs p } ∧
      (∀ k, k ∉ p.keys → t.thread k = s.thread k) ∧ WarpsKept s t ∧
      ∀ c ∈ p.ctxs s,
        (c.guard h.guard = .ok false → ∃ u, t.thread c.key = some u ∧ WentOn p.after ((s.merged c).skipped v) u) ∧
        ∀ locs, c.guard h.guard = .ok true → c.dest v.d = .ok locs →
          ∃ u, t.thread c.key = some u ∧
            TCtx.Wrote { c with th := (f (s.merged c).th).1 } v locs ([(f (s.merged c).th).2], 0) (c.slot + 4) u

/-- R134: SEL executes in every thread of the pass: its guard chooses A or B, only the chosen one is read, and D takes it. -/
def SelWordRule : Prop :=
  ∀ (t : Tri) (s : State) (p : Pass), s.Due [.sel t.a 1, bI32 t.b] p →
    (∀ c ∈ p.ctxs s, ∃ take ws locs, c.guard t.h.guard = .ok take ∧
      (if take then c.read 0 (.sel t.a 1) else c.read 1 (bI32 t.b)) = .ok ws ∧ c.dest (some (t.d, 1)) = .ok locs ∧
      c.writeCheck locs = none) →
    ∃ u, exec (.sel t) s = .next u ∧ Undisturbed p s u ∧ WarpsKept s u ∧
      ∀ c ∈ p.ctxs s, ∀ take ws locs, c.guard t.h.guard = .ok take →
        (if take then c.read 0 (.sel t.a 1) else c.read 1 (bI32 t.b)) = .ok ws → c.dest (some (t.d, 1)) = .ok locs →
        ∃ y, u.thread c.key = some y ∧ c.Wrote (Tri.int t 4 false) locs (ws, 0) (c.slot + 4) y

/-- What a thread of a pass gives to SHFL: A as it reads it when it executes, else A as it stands (R137 step 1). -/
def Gives (t : Tri) (c : TCtx) (x : Word) : Prop :=
  (c.guard t.h.guard = .ok false ∧ x = c.peek t.a) ∨ (c.guard t.h.guard = .ok true ∧ ∃ ws, c.read 0 (.sel t.a 1) = .ok ws ∧ x = w0 ws)

/-- R137: SHFL writes to D of each executing thread what the thread of its warp at slot B mod 32 gives, when that thread is in the pass, and
0 when the warp has no such slot; of a thread outside the pass it takes its storage as it stands at the pass's last slot (R139); the result is
there when the pass is over. -/
def ShflWordRule : Prop :=
  ∀ (t : Tri) (s : State) (p : Pass), s.Due [.sel t.a 1, bI32 t.b] p →
    (∀ c ∈ p.ctxs s, (∃ x, Gives t c x) ∧ (c.guard t.h.guard = .ok true →
      ∃ b locs, c.read 1 (bI32 t.b) = .ok b ∧ c.dest (some (t.d, 1)) = .ok locs ∧ c.writeCheck locs = none)) →
    ∃ u, exec (.shfl t) s = .next u ∧ Undisturbed p s u ∧ WarpsKept s u ∧
      ∀ c ∈ p.ctxs s, ∀ b locs, c.guard t.h.guard = .ok true → c.read 1 (bI32 t.b) = .ok b → c.dest (some (t.d, 1)) = .ok locs →
        ∃ y r, u.thread c.key = some y ∧
          c.Wrote { Tri.int t 6 false with c := .none } locs ([r], 0) (max (c.slot + 6) p.stop) y ∧
          (∀ d ∈ p.ctxs s, d.key = ⟨c.key.warp, (w0 b).toNat % 32⟩ → ∀ x, Gives t d x → r = x) ∧
          (c.w.threads.length ≤ (w0 b).toNat % 32 → r = 0) ∧
          ∀ loc, shflLoc t.a = some loc → (w0 b).toNat % 32 < c.w.threads.length →
            (∀ d ∈ p.ctxs s, d.key ≠ ⟨c.key.warp, (w0 b).toNat % 32⟩) →
            (⟨c.key, locs.head?, max (c.slot + 6) p.stop, ⟨c.key.warp, (w0 b).toNat % 32⟩, loc, p.stop⟩ : ShflRead) ∈ u.shfls

/-- The threads that take part in a VOTE with a thread: those of its warp that execute it (R140). -/
def Participants (p : Pass) (s : State) (t : VoteW) (c : TCtx) : List TCtx :=
  (p.executing s t.h).filter (fun d => d.key.warp == c.key.warp)

/-- Whether a thread's predicate bit of VOTE is set, as it reads it. -/
def bitSet (t : VoteW) (d : TCtx) : Bool := match d.guard (.pred t.p false) with | .ok b => b | .error _ => false

/-- A vote word writes to D of each executing thread the value `f` of its warp's participants, once the pass is over. -/
def VoteWord (i : Instr) (t : VoteW) (f : List TCtx → Word) : Prop :=
  ∀ s p, s.Due [] p →
    (∀ c ∈ p.ctxs s, c.guard t.h.guard = .ok false ∨
      (c.guard t.h.guard = .ok true ∧ (∃ b, c.guard (.pred t.p false) = .ok b) ∧
        ∃ locs, c.dest (some (t.d, 1)) = .ok locs ∧ c.writeCheck locs = none)) →
    ∃ u, exec i s = .next u ∧ Undisturbed p s u ∧ WarpsKept s u ∧
      ∀ c ∈ p.ctxs s, ∀ locs, c.guard t.h.guard = .ok true → c.dest (some (t.d, 1)) = .ok locs →
        ∃ y, u.thread c.key = some y ∧
          c.Wrote { h := t.h, am := t.am, a := .none, b := .none, c := .none, cfld := 2, d := some (t.d, 1), pred := none, lat := 8,
                    shifts := true } locs ([f (Participants p s t c)], 0) (max (c.slot + 8) p.stop) y

/-! ### Long operations -/

/-- What a long word leaves of a warp: all but its threads, counters and outstanding words. -/
def Warp.uncounted (w : Warp) : Warp := { w with threads := [], ctr := Vector.replicate 6 0, out := [] }

/-- A long word: `i` sends its result on the way in each executing thread, due after the latency, with its flags; the thread goes on with its
latches, flags and registers as they were and its destination awaiting; w5 of each warp with an executing thread rises by one; and nothing
else changes. -/
def LongWord (i : Instr) (v : VWord) (op : VOp) : Prop :=
  ∀ s p, s.Due [v.a, v.b, v.c] p → p.full s 5 = false → (∀ c ∈ p.ctxs s, c.Completes v op) →
    ∃ t, exec i s = .next t ∧ t.outside = { s.outside with longs := t.longs, uid := t.uid } ∧
      (∃ new, t.longs = s.longs ++ new ∧ new.map LongOp.thread = (p.executing s v.h).map TCtx.key) ∧
      (∀ k, k ∉ p.keys → t.thread k = s.thread k) ∧
      (∀ n, (Tab.find t.warps n).map Warp.uncounted = (Tab.find s.warps n).map Warp.uncounted) ∧
      (∀ n, (∀ c ∈ p.executing s v.h, c.key.warp ≠ n) →
        (Tab.find t.warps n).map Warp.shell = (Tab.find s.warps n).map Warp.shell) ∧
      (∀ n, (∃ c ∈ p.executing s v.h, c.key.warp = n) → ∀ w w', Tab.find s.warps n = some w → Tab.find t.warps n = some w' →
        w'.ctr = w.ctr.setIfInBounds 5 (w.ctr[5] + 1)) ∧
      (∀ c ∈ p.ctxs s, c.guard v.h.guard = .ok false → ∃ u, t.thread c.key = some u ∧ WentOn p.after c.th u) ∧
      ∀ c ∈ p.ctxs s, ∀ a b x locs, c.guard v.h.guard = .ok true → c.operands v = .ok (a, b, x) → c.dest v.d = .ok locs →
        (∃ o ∈ t.longs, o.thread = c.key ∧ o.vals = (op c a b x).1 ∧ o.flags = (op c a b x).2 ∧ o.due = c.slot + v.lat ∧
          o.dst = locs.head?) ∧
        ∃ u, t.thread c.key = some u ∧ u.issued = c.th.issued + 1 ∧ (u.pos = if c.th.st = .issuing then p.after else c.th.pos) ∧
          u.apart = c.th.apart ∧ u.toff = 0 ∧ u.lat = c.th.lat ∧ u.flags = c.th.flags ∧
          (∀ l ∈ locs, ∃ e ∈ u.async, e.loc = l) ∧ ∀ l, l ∉ locs → c.th.Keeps u l

/-- R143, R144, R338: the long words of binary32 and binary64, each with its latency and correctly rounded function. -/
def LongOperationsRule : Prop :=
  (∀ t : Tri,
    LongWord (.fdiv t) (Tri.f32 t 30 .none 2) (f32Op t.am (fun v a b _ => b32.div v a b)) ∧
    LongWord (.ddiv t) (Tri.wide t (bF64 t.b) 44 .none 2) (f64Op t.am (fun v a b _ => b64.div v a b))) ∧
  ∀ t : Duo,
    LongWord (.frcp t) (Duo.word t 1 1 18) (f32Op t.am (fun v a _ _ => b32.rcp v a)) ∧
    LongWord (.fsqrt t) (Duo.word t 1 1 22) (f32Op t.am (fun v a _ _ => b32.sqrt v a)) ∧
    LongWord (.frsq t) (Duo.word t 1 1 24) (f32Op t.am (fun v a _ _ => b32.rsqrt v a)) ∧
    LongWord (.fex2 t) (Duo.word t 1 1 34) (f32Op t.am (fun v a _ _ => fpEx2 v a)) ∧
    LongWord (.flg2 t) (Duo.word t 1 1 34) (f32Op t.am (fun v a _ _ => fpLg2 v a)) ∧
    LongWord (.fsin t) (Duo.word t 1 1 40) (f32Op t.am (fun v a _ _ => fpTrig false v a)) ∧
    LongWord (.fcos t) (Duo.word t 1 1 40) (f32Op t.am (fun v a _ _ => fpTrig true v a)) ∧
    LongWord (.dsqrt t) (Duo.word t 2 2 40) (twoWords t.am (fun v a => b64.sqrt v a))

/-- R144, R112: LONG_OP_RESULT, at the cycle at which a result is due, writes its words to the destinations of its thread that still await
them, and merges its flags. With the last result of its word, and not before, the word's counter falls by one and no register awaits the
word any more. Every other register, thread and warp, and everything else, stays. -/
def LongOpResultRule : Prop :=
  ∀ (s : State) (id : Nat) (o : LongOp) (y : Thread) (w : Warp) (e : OutWord),
    s.longs.find? (fun q => q.id == id) = some o → s.thread o.thread = some y →
    Tab.find s.warps o.thread.warp = some w → w.out.find? (fun q => q.word == o.word) = some e →
    ∃ t u w', exec (.longOpResult id) s = .next t ∧ t.thread o.thread = some u ∧ Tab.find t.warps o.thread.warp = some w' ∧
      t = { s with cycle := max s.cycle o.due, longs := s.longs.filter (fun q => q.id != o.id), warps := t.warps } ∧
      (∀ n, n ≠ o.thread.warp → Tab.find t.warps n = Tab.find s.warps n) ∧
      w'.unanswered = w.unanswered ∧
      (e.left ≤ 1 → w'.ctr = w.ctr.setIfInBounds e.ctr (w.ctr.toList.getD e.ctr 0 - 1) ∧ w'.out = w.out.filter (fun q => q.word != o.word) ∧
        ∀ k x, k.warp = o.thread.warp → t.thread k = some x → ∀ a ∈ x.async, a.word ≠ o.word) ∧
      (1 < e.left → w'.ctr = w.ctr ∧ w'.sasync = w.sasync ∧ w'.floor = w.floor ∧
        w'.out = w.out.map (fun q => if q.word = o.word then { q with left := q.left - 1, floor := e.floor } else q)) ∧
      u = { y with v := u.v, vvoid := u.vvoid, k := u.k, kvoid := u.kvoid, async := u.async, flags := y.flags ||| o.flags } ∧
      (y.st = .exited → u.v = y.v ∧ u.vvoid = y.vvoid ∧ u.k = y.k ∧ u.kvoid = y.kvoid) ∧
      (∀ d, o.dst = some d → ∀ j (hj : j < o.vals.length), d + j < 68 → y.st ≠ .exited →
        (∃ a ∈ y.async, a.req = o.id ∧ a.loc = d + j ∧ a.lost = false) → u.raw (d + j) = o.vals[j] ∧ u.isVoid (d + j) = false) ∧
      (∀ l, (∀ d, o.dst = some d → l < d ∨ d + o.vals.length ≤ l) → u.raw l = y.raw l ∧ u.isVoid l = y.isVoid l) ∧
      ∀ k x, k ≠ o.thread → s.thread k = some x → ∃ x', t.thread k = some x' ∧ x' = { x with async := x'.async }

/-! ### Transfers and words of one thread -/

/-- R269, R270: BRA and CALL go to their word's address plus the offset, BRX and CALLX to A, RET to LINK; a call sets LINK to the clause after
its own. -/
def TransfersRule : Prop :=
  (∀ t : BrW,
    TransferWord (.bra t) t.h .none false (fun c _ => wordAddr c.p.pc c.p.pos + (t.off.signExtend 64 <<< 2)) ∧
    TransferWord (.call t) t.h .none true (fun c _ => wordAddr c.p.pc c.p.pos + (t.off.signExtend 64 <<< 2))) ∧
  (∀ t : WA,
    TransferWord (.brx t) t.h (.sel t.a 2) false (fun _ x => dwordOf x) ∧
    TransferWord (.callx t) t.h (.sel t.a 2) true (fun _ x => dwordOf x)) ∧
  ∀ t : HdW, TransferWord (.ret t) t.h .none false (fun c _ => c.th.link)

/-- R270: an indirect transfer whose target is no multiple of 4 takes MISALIGNED, and one whose target has a bit of [63:55] set takes
ADDR_INVALID, with the target in TADDR and the word's address in TPC; the thread stops before the word. -/
def TransferFaultsRule : Prop :=
  ∀ (t : WA) (s : State) (p : Pass), s.Due [.sel t.a 2] p →
    (∀ c ∈ p.ctxs s, ∃ b, c.guard t.h.guard = .ok b) →
    ∀ i, (i = .brx t ∨ i = .callx t) →
      ∃ u, exec i s = .next u ∧ u.mem = s.mem ∧ ∀ c ∈ p.ctxs s, ∀ x, c.guard t.h.guard = .ok true → c.read 0 (.sel t.a 2) = .ok x →
        ((dwordOf x).toNat % 4 ≠ 0 ∨ 2 ^ 55 ≤ (dwordOf x).toNat) →
        ∃ y, u.thread c.key = some y ∧ y.st = .halted ∧ y.pos = ⟨p.pc, p.first⟩ ∧ y.link = c.th.link ∧ y.trap.addr = dwordOf x ∧
          y.trap.tpc = p.tpc ∧ y.trap.cause = (if (dwordOf x).toNat % 4 ≠ 0 then .misaligned else .addrInvalid)

/-- R72, R80: a reserved opcode stops every thread of the bundle at the word, whatever its guard, with TCAUSE = RESERVED_OPCODE, the word in
TINFO and its address in TPC, and changes no register of theirs. -/
def ReservedOpcodesRule : Prop :=
  ∀ (s : State) (p : Pass) (w : Word), s.Now p → p.keys ≠ [] →
    ∃ u, exec (.reservedOpcode w) s = .next u ∧ u.mem = s.mem ∧
      ∀ k ∈ p.keys, ∀ x, s.thread k = some x → x.pend = [] →
        ∃ y, u.thread k = some y ∧ y.st = .halted ∧ y.trap.cause = .reservedOpcode ∧ y.trap.info = w ∧ y.trap.tpc = p.tpc ∧
          y.v = x.v ∧ y.vvoid = x.vvoid ∧ y.k = x.k ∧ y.flags = x.flags

/-! ### Scalar words -/

/-- R285, R286, R288: the scalar words compute from scalar registers and immediates: sum, difference, product, conjunction, copy, immediate,
and the address A + B into a pair. -/
def ScalarWordsRule : Prop :=
  (∀ t : STri,
    ScalarWord (.sadd t) t.h t.d 1 4 (fun c => c.stri t (fun a b => a + b)) ∧
    ScalarWord (.ssub t) t.h t.d 1 4 (fun c => c.stri t (fun a b => a - b)) ∧
    ScalarWord (.smul t) t.h t.d 1 6 (fun c => c.stri t (fun a b => a * b)) ∧
    ScalarWord (.sand t) t.h t.d 1 4 (fun c => c.stri t (fun a b => a &&& b)) ∧
    ScalarWord (.slea t) t.h t.d 2 4 (fun c =>
      match c.sread 0 t.a 2, c.soff t.b with
      | .ok a, .ok b => .ok (Dword.words (dwordOf a + offsetOf b))
      | .error e, _ => .error e
      | _, .error e => .error e)) ∧
  (∀ t : SDA, ScalarWord (.smov t) t.h t.d 1 4 (fun c => c.sread 0 t.a 1)) ∧
  ∀ t : SMovI, ScalarWord (.smovi t) t.h t.d 1 4 (fun _ => .ok [moviValue t.imm14 t.lit])

/-- R287: SSETP compares scalar operands once for each warp with an executing thread, and sets predicate N of every thread of that warp to the
outcome; R290: VTOS copies A of the first executing thread of each warp, read in that thread's slot, to a scalar register 4 cycles on. -/
def ScalarCompareAndVtosRule : Prop :=
  (∀ (t : SCmp) (s : State) (p : Pass), s.Now p → (∀ c ∈ p.ctxs s, ∃ b, c.guard t.h.guard = .ok b) →
    (∀ c ∈ p.executing s t.h, ∃ a b, c.sread 0 t.a 1 = .ok a ∧ c.sopnd t.b = .ok b) →
    ∃ u, exec (.ssetp t) s = .next u ∧ Undisturbed p s u ∧ HusksKept s u ∧
      (∀ k ∈ p.keys, ∀ y, s.thread k = some y → ∃ z, u.thread k = some z ∧ WentOn p.after y z) ∧
      ∀ c ∈ p.executing s t.h, FirstOfWarp (p.executing s t.h) c → ∀ a b, c.sread 0 t.a 1 = .ok a → c.sopnd t.b = .ok b →
        ∀ slot, (holds t.cond (w0 a) (w0 b) → PredGets u p ⟨c.key.warp, slot⟩ t.p true (c.wslot + 4)) ∧
          (¬ holds t.cond (w0 a) (w0 b) → PredGets u p ⟨c.key.warp, slot⟩ t.p false (c.wslot + 4))) ∧
  ∀ (t : VtosW) (s : State) (p : Pass), s.Due [.sel t.a 1] p → (∀ c ∈ p.ctxs s, ∃ b, c.guard t.h.guard = .ok b) →
    (∀ c ∈ p.executing s t.h, FirstOfWarp (p.executing s t.h) c →
      (∃ x, c.read 0 (.sel t.a 1) = .ok x) ∧ TCtx.sWriteCheck { c with wslot := c.slot } t.d 1 = none) →
    ∃ u, exec (.vtos t) s = .next u ∧ Undisturbed p s u ∧
      (∀ w, (Tab.find u.warps w).map Warp.unscaled = (Tab.find s.warps w).map Warp.unscaled) ∧
      (∀ c ∈ p.executing s t.h, FirstOfWarp (p.executing s t.h) c →
        ∃ y, u.thread c.key = some y ∧ WentOn p.after (c.mark t.h (.sel t.a 1) c.unsuppressed.th) y) ∧
      (∀ k ∈ p.keys, (∀ c ∈ p.executing s t.h, FirstOfWarp (p.executing s t.h) c → c.key ≠ k) → ∀ y, s.thread k = some y →
        ∃ z, u.thread k = some z ∧ WentOn p.after y z) ∧
      ∀ c ∈ p.executing s t.h, FirstOfWarp (p.executing s t.h) c → ∀ x, c.read 0 (.sel t.a 1) = .ok x →
        ∀ w w', Tab.find s.warps c.key.warp = some w → Tab.find u.warps c.key.warp = some w' →
          (∀ r, t.d = .s r → ∀ b cyc, c.slot + 4 ≤ cyc → w'.sget r b cyc = w0 x) ∧
          ∀ m b cyc, (∀ r : Fin 96, t.d = .s r → m ≠ r.val) → w'.sget m b cyc = w.sget m b cyc

/-! ### Barriers, exits, the extended block -/

/-- What a barrier word needs of the pass: no thread of a redundant launch, and of each executing thread that it is in no handler, has no
deferred error, has RES at a grid barrier, and, where it arrives, has no write outstanding and no load without its value. -/
def BarrierMay (s : State) (p : Pass) (t : BarW) (arrive : Bool) : Prop :=
  s.Now p ∧ (∀ c ∈ p.ctxs s, ∃ b, c.guard t.h.guard = .ok b) ∧ (∀ k ∈ p.keys, s.redCopy k.warp = none) ∧
  ∀ c ∈ p.executing s t.h, c.th.handler = false ∧ c.th.deferred = [] ∧ (t.level.toNat = 3 → p.rcd.res = true) ∧
    (arrive = true → s.writesDue c.key = false ∧ s.valuesDue c.key = false)

/-- The threads of a pass that do not execute its word go past it, and so does nothing else that is not of the pass; barriers may change. -/
def BarrierFrame (s u : State) (p : Pass) (h : Hd) : Prop :=
  u.unbarred = s.unbarred ∧ (∀ k, k ∉ p.keys → u.thread k = s.thread k) ∧
  (∀ n, (Tab.find u.warps n).map Warp.unbarred = (Tab.find s.warps n).map Warp.unbarred) ∧
  ∀ c ∈ p.ctxs s, c.guard h.guard = .ok false → ∀ x, s.thread c.key = some x → ∃ y, u.thread c.key = some y ∧ WentOn p.after x y

/-- R273: BARA makes each executing thread arrive in its barrier's phase, and the thread goes on. -/
def BarrierArrivalRule : Prop :=
  ∀ (t : BarW) (s : State) (p : Pass), BarrierMay s p t true →
    (∀ c ∈ p.executing s t.h, ∃ k, s.barKey c.key t.level.toNat t.num.toNat = some k ∧ c.th.arrivedAt k ≠ some (s.bar k).phase) →
    ∃ u, exec (.bara t) s = .next u ∧ BarrierFrame s u p t.h ∧
      ∀ c ∈ p.executing s t.h, ∀ k x, s.barKey c.key t.level.toNat t.num.toNat = some k → s.thread c.key = some x →
        (u.bar k).phase = (s.bar k).phase ∧
        ∃ y, u.thread c.key = some y ∧ y.arrivedAt k = some (s.bar k).phase ∧ WentOn p.after (x.arrive k (s.bar k).phase) y

/-- R267, R273: BARW makes a thread whose phase has not completed wait for it, out of its bundle, at the next word; a thread whose phase has
completed goes on with its k slots void and its arrival spent. BAR arrives and waits: each executing thread then waits for the phase, or
the phase has completed, and the thread goes on with its k slots void; it waits while some member of its barrier has yet to arrive. -/
def BarrierWaitRule : Prop :=
  (∀ (t : BarW) (s : State) (p : Pass), BarrierMay s p t false →
    (∀ c ∈ p.executing s t.h, ∃ k, s.barKey c.key t.level.toNat t.num.toNat = some k ∧ (∃ n, c.th.arrivedAt k = some n) ∧
      (s.bar k).last = none) →
    ∃ u, exec (.barw t) s = .next u ∧ u.mem = s.mem ∧ (∀ k, k ∉ p.keys → u.thread k = s.thread k) ∧
      (∀ c ∈ p.ctxs s, c.guard t.h.guard = .ok false → ∀ x, s.thread c.key = some x →
        ∃ y, u.thread c.key = some y ∧ WentOn p.after x y) ∧
      ∀ c ∈ p.executing s t.h, ∀ k n, s.barKey c.key t.level.toNat t.num.toNat = some k → c.th.arrivedAt k = some n →
        ∃ y, u.thread c.key = some y ∧ y.issued = c.th.issued + 1 ∧
          (n < (s.bar k).phase → WentOn p.after (c.th.voidK.unarrive k) y ∧ y.arrivedAt k = none) ∧
          (¬ n < (s.bar k).phase → y.st = .waiting ∧ y.wait = some (.barrier t.level.toNat t.num.toNat n) ∧ y.pos = p.after)) ∧
  ∀ (t : BarW) (s : State) (p : Pass), BarrierMay s p t true →
    (∀ c ∈ p.executing s t.h, ∃ k, s.barKey c.key t.level.toNat t.num.toNat = some k ∧ c.th.arrivedAt k ≠ some (s.bar k).phase) →
    ∃ u, exec (.bar t) s = .next u ∧ u.mem = s.mem ∧ u.reqs = s.reqs ∧
      (∀ c ∈ p.executing s t.h, ∀ k, s.barKey c.key t.level.toNat t.num.toNat = some k →
        ∃ y, u.thread c.key = some y ∧ y.issued = c.th.issued + 1 ∧
          ((y.st = .waiting ∧ y.arrivedAt k = some (s.bar k).phase ∧
              y.wait = some (.barrier t.level.toNat t.num.toNat (s.bar k).phase) ∧ y.pos = p.after) ∨
            ((u.bar k).phase = (s.bar k).phase + 1 ∧ y.kvoid = 0xF ∧ y.arrivedAt k = none))) ∧
      ((∀ c ∈ p.executing s t.h, ∀ k, s.barKey c.key t.level.toNat t.num.toNat = some k → (s.bar k).last = none ∧
          ∃ m ∈ s.barMembers k, (∀ d ∈ p.executing s t.h, d.key ≠ m) ∧ ∃ z, s.thread m = some z ∧ z.counts k (s.bar k).phase = false) →
        BarrierFrame s u p t.h ∧ ∀ c ∈ p.executing s t.h, ∃ y, u.thread c.key = some y ∧ y.st = .waiting)

/-- What a pass of one warp that holds all its live threads is (R276). -/
def WholeWarp (s : State) (p : Pass) (h : Hd) (n : Nat) (w : Warp) : Prop :=
  s.Now p ∧ (∀ k ∈ p.keys, k.warp = n) ∧ Tab.find s.warps n = some w ∧ p.whole w n = true ∧ p.executing s h ≠ [] ∧
  ∀ c ∈ p.ctxs s, ∃ b, c.guard h.guard = .ok b

/-- R271, R272: EXIT, once nothing that the executing threads have sent is unanswered, ends each of them, with the record in A as its
successor, if A names one; their registers' pending results are given up, the other threads of the pass go on, and no thread outside it loses
a register. In handler state it ends the thread's whole block, with no successor, and the block's halt. -/
def ExitWordRule : Prop :=
  (∀ (t : SAW) (s : State) (p : Pass), s.Now p → (∀ c ∈ p.ctxs s, ∃ b, c.guard t.h.guard = .ok b) → (∀ k ∈ p.keys, s.redCopy k.warp = none) →
    (∀ c ∈ p.executing s t.h, s.exitDue c.key = false ∧ c.th.handler = false ∧ c.th.deferred = [] ∧ ∃ x, c.sread 0 t.a 2 = .ok x) →
    ∃ u, exec (.exit t) s = .next u ∧ u.mem = s.mem ∧ u.reqs = s.reqs ∧ u.cores = s.cores ∧ u.parts = s.parts ∧
      (∀ c ∈ p.executing s t.h, ∀ x, c.sread 0 t.a 2 = .ok x →
        (∃ y, u.thread c.key = some y ∧ y.st = .exited ∧ y.async = [] ∧ y.succ = (if t.a = .z then none else some (dwordOf x))) ∧
        ∀ o ∈ u.longs, o.thread = c.key → o.dst = none) ∧
      (∀ c ∈ p.ctxs s, c.guard t.h.guard = .ok false → ∃ y, u.thread c.key = some y ∧ y.issued = c.th.issued + 1) ∧
      ∀ k x, k ∉ p.keys → s.thread k = some x → ∃ y, u.thread k = some y ∧ y.v = x.v ∧ y.k = x.k ∧ y.kvoid = x.kvoid ∧ y.flags = x.flags) ∧
  ∀ (t : SAW) (s : State) (p : Pass) (c : TCtx), s.Now p → (∀ d ∈ p.ctxs s, ∃ b, d.guard t.h.guard = .ok b) →
    (∀ k ∈ p.keys, s.redCopy k.warp = none) → p.executing s t.h = [c] → c.th.handler = true → s.exitDue c.key = false →
    c.th.deferred = [] → (∃ x, c.sread 0 t.a 2 = .ok x) →
    ∃ u, exec (.exit t) s = .next u ∧ u.mem = s.mem ∧
      (∀ k ∈ s.blockKeys c.w.block, ∀ x, s.thread k = some x → ∃ y, u.thread k = some y ∧ y.st = .exited ∧ y.succ = none) ∧
      ∀ b, Tab.find u.blocks c.w.block = some b → b.halt = none

/-- R282: ASSERT, once nothing that the firing threads have sent is unanswered, stops the whole context for good, with TCAUSE = ASSERT in each
of them, and sends one debug event with the first one's WORKID, their number, TPC and the message pointer. -/
def AssertWordRule : Prop :=
  ∀ (t : SAW) (s : State) (p : Pass) (c0 : TCtx) (l : Launch), s.Now p → (∀ c ∈ p.ctxs s, ∃ b, c.guard t.h.guard = .ok b) →
    (∀ k ∈ p.keys, s.redCopy k.warp = none) → (p.executing s t.h).head? = some c0 → Tab.find s.launches p.launch = some l →
    (∀ c ∈ p.executing s t.h, s.exitDue c.key = false ∧ ∃ x, c.sread 0 t.a 2 = .ok x) →
    ∃ u l', exec (.assert t) s = .next u ∧ u.mem = s.mem ∧ Tab.find u.launches p.launch = some l' ∧ l'.status = .ended ∧ l'.saved = true ∧
      (∀ c ∈ p.executing s t.h, ∃ y, u.thread c.key = some y ∧ y.st = .halted ∧ y.trap.cause = .assertion ∧ y.trap.tpc = p.tpc) ∧
      ∀ x, c0.sread 0 t.a 2 = .ok x →
        u.out = s.out ++ [.debugEvent p.part (s.workIdOf c0.key) (p.executing s t.h).length p.tpc (dwordOf x)]

/-! ### Memory words -/

/-- The accesses that the executing threads of a pass make, in pass order. -/
def plansOf (s : State) (p : Pass) (mw : MWord) (mods : Mods) : List MPlan :=
  (p.executing s mw.h).filterMap (fun c => match s.memPlan c mw mods with | .ok m => some m | .error _ => none)

/-- What a translation must allow an access: for a write its permission, and leaves that are still valid where DIRTY is to be set; for an
as-of load a historied page and a stamp at or above HORIZON (Table 10.2, R200, R223). -/
def Admits (s : State) (x : Xlat) (k : MKind) (m : MPlan) (e : TlbEntry) : Prop :=
  (k.writes = true → e.attrs.write = true ∧ s.dirtyMiss e = false) ∧
  ∀ n, k = .asof n → (s.part x.part).horizon.toNat ≤ m.x.toNat ∧ e.attrs.hist = true

/-- The translations that the pages of a pass have (R215). -/
def Looks (s : State) (p : Pass) (l : Launch) (mw : MWord) (mods : Mods) (pg : Nat) (e : TlbEntry) : Prop :=
  (pg, some (WalkEnd.ok e)) ∈ (s.lookPages p l.xlat ((plansOf s p mw mods).flatMap MPlan.pages) (mods.space != .par)).2

/-- A memory word goes through in a pass: the launch is not redundant, the word's counter has room, no earlier access of an executing thread
makes it wait, each executing thread's access passes the checks of Table 10.2, and each page it needs has a translation that admits it. -/
def MemoryMay (s : State) (p : Pass) (l : Launch) (mw : MWord) (mods : Mods) : Prop :=
  Tab.find s.launches p.launch = some l ∧ l.rcd.red = false ∧ (∀ k ∈ p.keys, s.redCopy k.warp = none) ∧ p.full s mods.ctr = false ∧
  s.parkedOn p.core ≤ 256 ∧ (∀ c ∈ p.ctxs s, ∃ b, c.guard mw.h.guard = .ok b) ∧
  ∀ c ∈ p.executing s mw.h,
    c.th.st ≠ .parked ∧ s.blocked c.key = false ∧ s.mirrorDue c.key = false ∧ ((mods.ord = .rel ∨ mods.ord = .acqRel) → s.writesDue c.key = false) ∧
    (mods.ord ≠ .plain → c.th.deferred = []) ∧
    ∃ m, s.memPlan c mw mods = .ok m ∧ ∀ pg ∈ m.pages, ∃ e, Looks s p l mw mods pg e ∧ Admits s l.xlat mw.kind m e

/-- `i` is the memory word `mw`: where it goes through, it answers a next state in which the threads that execute it have gone on, each with a
request on its way that has its address A + offset, its data or operands, and its destination, which awaits the response; the word's counter
has risen by one in each warp that executes it; and every other counter, register and thread, the partitions and the launches are as they
were, as is every byte of physical memory outside the leaves in which a write sets DIRTY and CKPT, and every byte of the core's scratchpad
outside those that a write stores to (R188, R191 to R193, R223). -/
def MemoryWord (i : Instr) (mw : MWord) : Prop :=
  ∀ s p l, s.Due [mw.a, mw.off, mw.data, mw.extra] p → MemoryMay s p l mw (modsOf mw.mm p.rcd.mdef mw.row mw.dflt) →
    s.mem.wf = true → (s.core p.core).scratch.wf = true →
    ∃ t, exec i s = .next t ∧ t.parts = s.parts ∧ t.launches = s.launches ∧
      ((mw.kind.writes = false ∨ ∀ pg e, Looks s p l mw (modsOf mw.mm p.rcd.mdef mw.row mw.dflt) pg e → e.dirty = true) →
        t.mem = s.mem ∧ t.slices = s.slices) ∧
      (∀ x, (∀ pg e, Looks s p l mw (modsOf mw.mm p.rcd.mdef mw.row mw.dflt) pg e → e.dirty = false →
        ∀ a ∈ e.leaf1 :: e.leaf2.toList, x < a ∨ a + 8 ≤ x) → t.mem.byte x = s.mem.byte x) ∧
      (∀ q, q ≠ p.core → (t.core q).scratch = (s.core q).scratch) ∧
      (∀ x, (mw.kind.writes = true → ∀ m ∈ plansOf s p mw (modsOf mw.mm p.rcd.mdef mw.row mw.dflt), ∀ q a b, m.spot = some (q, a, b) →
        x < a ∨ a + mw.kind.bytes ≤ x) → (t.core p.core).scratch.byte x = (s.core p.core).scratch.byte x) ∧
      (∀ k, k ∉ p.keys → t.thread k = s.thread k) ∧
      (∀ n w w', Tab.find s.warps n = some w → Tab.find t.warps n = some w' →
        w'.s = w.s ∧ w'.preds = w.preds ∧ w'.floor = w.floor ∧
        ((modsOf mw.mm p.rcd.mdef mw.row mw.dflt).ctr < 6 → (∃ c ∈ p.executing s mw.h, c.key.warp = n) →
          w'.ctr = (w.ctrUp (modsOf mw.mm p.rcd.mdef mw.row mw.dflt).ctr).ctr) ∧
        (¬ ((modsOf mw.mm p.rcd.mdef mw.row mw.dflt).ctr < 6 ∧ ∃ c ∈ p.executing s mw.h, c.key.warp = n) → w'.ctr = w.ctr)) ∧
      (∀ c ∈ p.ctxs s, c.guard mw.h.guard = .ok false → ∀ y, s.thread c.key = some y →
        ∃ u, t.thread c.key = some u ∧ WentOn p.after y u) ∧
      ∀ c ∈ p.ctxs s, ∀ m a off d, c.guard mw.h.guard = .ok true →
        s.memPlan c mw (modsOf mw.mm p.rcd.mdef mw.row mw.dflt) = .ok m → c.read 0 mw.a = .ok a → c.read 1 mw.off = .ok off →
        c.read 2 mw.data = .ok d →
        m.ea = dwordOf a + offsetOf off ∧ (∀ n, (mw.kind = .store n ∨ mw.kind = .stamped n) → m.data = leBytes (wordsNat d) n) ∧
        ∃ u r q, t.thread c.key = some u ∧ r ∈ t.reqs ∧ q ∈ r.parts ∧
          r.kind = mw.kind.req m ∧ r.va = m.taddr ∧ r.launch = p.launch ∧ r.tpc = p.tpc ∧ (r.stage = .sent ∨ r.stage = .served) ∧
          r.ctr = (modsOf mw.mm p.rcd.mdef mw.row mw.dflt).ctr ∧ q.thread = c.key ∧ q.dst = m.dst ∧ q.x = m.x ∧ q.cmp = m.cmp ∧
          u.issued = c.th.issued + 1 ∧ (u.pos = if c.th.st = .issuing then p.after else c.th.pos) ∧
          u.apart = c.th.apart ∧ u.flags = c.th.flags ∧ u.lat = c.th.lat ∧
          (∀ loc ∈ m.dst, ∃ e ∈ u.async, e.loc = loc ∧ e.req = r.id) ∧ ∀ loc, loc ∉ m.dst → c.th.Keeps u loc

/-! ### Ordering, scalar loads, tags, prefetch -/

/-- What a fence needs of the pass: every guard can be read, and no thread of it is of a redundant launch or has a deferred error. -/
def FenceMay (s : State) (p : Pass) (t : FenceW) : Prop :=
  s.Now p ∧ (∀ c ∈ p.ctxs s, ∃ b, c.guard t.h.guard = .ok b) ∧ (∀ k ∈ p.keys, s.redCopy k.warp = none) ∧
  ∀ c ∈ p.executing s t.h, c.th.deferred = []

/-- R180, R208: a full or release fence goes through once no executing thread has an access in flight, an acquire fence once none has one that
brings a value; full and acquire fences invalidate the core's L1. Until then the bundle holds at the fence, and no thread goes on. -/
def FencesRule : Prop :=
  ∀ (t : FenceW) (i : Instr) (acq rel : Bool),
    ((i = .fenceFull t ∧ acq = true ∧ rel = true) ∨ (i = .fenceAcq t ∧ acq = true ∧ rel = false) ∨
      (i = .fenceRel t ∧ acq = false ∧ rel = true)) →
    ∀ (s : State) (p : Pass), FenceMay s p t →
      ((∀ c ∈ p.executing s t.h, ∀ r ∈ s.reqs, r.of c.key = true → r.access_ = true → rel = false ∧ r.brings = false) →
        ∃ u, exec i s = .next u ∧ u.outside = { s.outside with cores := u.cores } ∧ AllWent s u p ∧ WarpsKept s u ∧
          (∀ k, k ∉ p.keys → u.thread k = s.thread k) ∧ (∀ q, q ≠ p.core → u.core q = s.core q) ∧
          (if acq = true ∧ p.executing s t.h ≠ [] then u.core p.core = { s.core p.core with l1 := [] } else u.cores = s.cores)) ∧
      ((∃ c ∈ p.executing s t.h, ∃ r ∈ s.reqs, r.of c.key = true ∧ r.access_ = true ∧ (rel = true ∨ r.brings = true)) →
        ∃ u, exec i s = .next u ∧ u.warps = s.warps ∧ u.outside = s.outside)

/-- R289: SLD goes through as a load of four bytes for each warp with an executing thread, at the address that the warp's scalar operands
give; the warp's counter rises by one and its scalar register awaits the response. R211: SETTLE raises its counter in each warp with an
executing thread, on a request for the greatest A among them. R214: PREF sends a request where its address translates without a walk
that would change anything, and in every case its threads go on. -/
def ScalarLoadsAndSettleRule : Prop :=
  (∀ (t : SLdW) (s : State) (p : Pass) (l : Launch) (mods : Mods), mods = modsOf t.mm p.rcd.mdef .ld 0 → s.Now p →
    Tab.find s.launches p.launch = some l → (∀ k ∈ p.keys, s.redCopy k.warp = none) → p.full s mods.ctr = false → s.parkedOn p.core ≤ 256 →
    (∀ c ∈ p.ctxs s, ∃ b, c.guard t.h.guard = .ok b) →
    (∀ c ∈ p.executing s t.h, s.blocked c.key = false ∧ s.mirrorDue c.key = false ∧ (mods.ord = .acq → c.th.deferred = []) ∧
      c.th.st ≠ .parked ∧
      (FirstOfWarp (p.executing s t.h) c → ∃ m, s.sldPlan c t mods = .ok m ∧ ∀ pg ∈ m.pages,
        ∃ e, (pg, some (WalkEnd.ok e)) ∈ (s.lookPages p l.xlat ((byWarp (p.executing s t.h)).flatMap (fun g =>
          match g.2.head?.map (fun d => s.sldPlan d t mods) with | some (.ok m) => m.pages | _ => [])) (mods.space != .par)).2)) →
    ∃ u, exec (.sld t) s = .next u ∧ u.mem = s.mem ∧ u.slices = s.slices ∧ u.parts = s.parts ∧ u.launches = s.launches ∧
      (∀ q, (u.core q).scratch = (s.core q).scratch) ∧ (∀ k, k ∉ p.keys → u.thread k = s.thread k) ∧ (∀ r ∈ s.reqs, r ∈ u.reqs) ∧
      (∀ n w w', (∀ c ∈ p.executing s t.h, c.key.warp ≠ n) → Tab.find s.warps n = some w → Tab.find u.warps n = some w' →
        w'.ctr = w.ctr ∧ w'.s = w.s ∧ w'.preds = w.preds ∧ w'.floor = w.floor) ∧
      (∀ k ∈ p.keys, ∀ y, s.thread k = some y → ∃ z, u.thread k = some z ∧ z.issued = y.issued + 1 ∧
        (z.pos = if y.st = .issuing then p.after else y.pos) ∧ z.apart = y.apart ∧ z.v = y.v ∧ z.pend = y.pend ∧ z.flags = y.flags) ∧
      ∀ c ∈ p.executing s t.h, FirstOfWarp (p.executing s t.h) c → ∀ m a off w w', s.sldPlan c t mods = .ok m →
        c.sread 0 t.a 2 = .ok a → c.soff t.b = .ok off → Tab.find s.warps c.key.warp = some w → Tab.find u.warps c.key.warp = some w' →
        m.ea = dwordOf a + offsetOf off ∧ (w'.ctr = if mods.ctr < 6 then (w.ctrUp mods.ctr).ctr else w.ctr) ∧ w'.s = w.s ∧
        w'.preds = w.preds ∧ w'.floor = w.floor ∧
        ∃ r ∈ u.reqs, r.kind = .load 4 false ∧ r.va = m.taddr ∧ r.ctr = mods.ctr ∧
          ∀ n, t.d = .s n → r.sdst = some n.val ∧ ∃ e ∈ w'.sasync, e.reg = n ∧ e.req = r.id) ∧
  (∀ (t : MemA) (s : State) (p : Pass) (mods : Mods), mods = modsOf t.mm p.rcd.mdef .se 3 → s.Due [.sel t.a 2] p →
    p.full s mods.ctr = false →
    (∀ c ∈ p.ctxs s, c.guard t.h.guard = .ok false ∨ (c.guard t.h.guard = .ok true ∧ ∃ x, c.read 0 (.sel t.a 2) = .ok x)) →
    ∃ u, exec (.settle t) s = .next u ∧ u.mem = s.mem ∧ u.cores = s.cores ∧ u.slices = s.slices ∧ u.parts = s.parts ∧
      u.launches = s.launches ∧ (∀ k, k ∉ p.keys → u.thread k = s.thread k) ∧
      (∀ c ∈ p.ctxs s, c.guard t.h.guard = .ok true →
        ∃ y, u.thread c.key = some y ∧ WentOn p.after (c.mark t.h (.sel t.a 2) c.unsuppressed.th) y) ∧
      (∀ c ∈ p.ctxs s, c.guard t.h.guard = .ok false → ∃ y, u.thread c.key = some y ∧ WentOn p.after c.th y) ∧
      (∀ r ∈ s.reqs, r ∈ u.reqs) ∧
      (∀ n w w', Tab.find s.warps n = some w → Tab.find u.warps n = some w' → w'.s = w.s ∧ w'.preds = w.preds ∧ w'.floor = w.floor ∧
        (6 ≤ mods.ctr ∨ (∀ c ∈ p.executing s t.h, c.key.warp ≠ n) → w'.ctr = w.ctr)) ∧
      (mods.ctr < 6 → ∀ n, (∃ c ∈ p.executing s t.h, c.key.warp = n) →
        (∀ w w', Tab.find s.warps n = some w → Tab.find u.warps n = some w' → w'.ctr = (w.ctrUp mods.ctr).ctr) ∧
        ∃ r ∈ u.reqs, ∃ a, r.kind = .settle a ∧ r.ctr = mods.ctr ∧
          r.stage = (if s.tickHeld = true ∨ a.toNat ≤ s.settled.toNat then .served else .sent) ∧
          (∀ c ∈ p.executing s t.h, c.key.warp = n → ∀ x, c.read 0 (.sel t.a 2) = .ok x → (dwordOf x).toNat ≤ a.toNat) ∧
          ∃ c ∈ p.executing s t.h, c.key.warp = n ∧ ∃ x, c.read 0 (.sel t.a 2) = .ok x ∧ dwordOf x = a)) ∧
  ∀ (t : MemAB) (s : State) (p : Pass), s.Due [.sel t.a 2, bOff t.b] p →
    ∃ u, exec (.pref t) s = .next u ∧ u.mem = s.mem ∧ u.cores = s.cores ∧ u.walks = s.walks ∧ u.parts = s.parts ∧ AllWent s u p ∧
      (∀ k, k ∉ p.keys → u.thread k = s.thread k) ∧ (∀ r ∈ s.reqs, r ∈ u.reqs) ∧
      (∀ r ∈ u.reqs, r ∈ s.reqs ∨ (r.kind = .pref ∧ r.ctr = 7 ∧ r.parts = [])) ∧
      ∀ l c e va, Tab.find s.launches p.launch = some l → c ∈ p.executing s t.h →
        s.prefOf c (modsOf t.mm p.rcd.mdef .pf 7).space (.sel t.a 2) (bOff t.b) l.xlat = (some e, va) →
        ∃ r ∈ u.reqs, r.kind = .pref ∧ r.va = BitVec.ofNat 64 va ∧ r.pa = e.phys va

/-- A tag word in a pass of one thread: it changes the core's tag table as `f` says, from the 64-bit A and the 32-bit D, writes what `f`
answers, and changes nothing else. -/
def TagWord (i : Instr) (v : VWord) (srcs : List Src) (f : TCtx → State → TagTable → Dword → Word → TagTable → List Word → Prop) : Prop :=
  ∀ s p k c a x locs tt ws, s.Due srcs p → p.keys = [k] → p.ctxs s = [c] → c.guard v.h.guard = .ok true →
    c.read 0 v.a = .ok a → c.read 2 v.c = .ok x → c.dest v.d = .ok locs → c.writeCheck locs = none →
    f c s (s.core p.core).tags (dwordOf a) (w0 x) tt ws →
    ∃ u y, exec i s = .next u ∧ u.thread k = some y ∧ c.Wrote v locs (ws, 0) (c.slot + 4) y ∧
      (u.core p.core).tags.ways = tt.ways ∧ u.core p.core = { s.core p.core with tags := (u.core p.core).tags } ∧
      (u.core p.core).tags = { tt with clock := (u.core p.core).tags.clock } ∧ (∀ q, q ≠ p.core → u.core q = s.core q) ∧
      u.mem = s.mem ∧ u.reqs = s.reqs ∧ (∀ j, j ≠ k → u.thread j = s.thread j)

/-! ### Memory at its place -/

/-- What work at a slice or a scratchpad leaves: launches, blocks, scalar registers, predicates, counters and FLOOR; every thread but the
stamp that its writes have had, which becomes `wrote` of it, and what is known of values on their way; and all of memory outside `n` bytes
from `a`. -/
def OnlyMemory (s t : State) (a n : Nat) (wrote : TKey → Dword → Dword) : Prop :=
  t.launches = s.launches ∧ t.blocks = s.blocks ∧ (∀ x, x < a ∨ a + n ≤ x → t.mem.byte x = s.mem.byte x) ∧
  (∀ m w, Tab.find s.warps m = some w → ∃ w', Tab.find t.warps m = some w' ∧
    w'.s = w.s ∧ w'.preds = w.preds ∧ w'.ctr = w.ctr ∧ w'.floor = w.floor) ∧
  ∀ k y, s.thread k = some y → ∃ z, t.thread k = some z ∧ z = { y with async := z.async, wrote := wrote k y.wrote }

/-- What is left where nothing is written. -/
def OnlyReads (s t : State) : Prop := t.mem = s.mem ∧ t.slices = s.slices ∧ OnlyMemory s t 0 0 (fun _ x => x)

/-- The request of a number once served, with the others as they were. -/
def Served (s t : State) (id : Nat) (f : Req → Prop) : Prop :=
  (∃ y ∈ t.reqs, y.id = id ∧ y.stage = .served ∧ f y) ∧
  ∀ y ∈ s.reqs, y.id ≠ id → ∃ z ∈ t.reqs, z = { y with floor := z.floor }

/-- A stamp that a slice may give (R149): above its last and above the FLOOR carried, at or after the tick, and with the slice's number. -/
def FreshStamp (s : State) (n : Nat) (floor x : Dword) : Prop :=
  (s.slice n).last.toNat < x.toNat ∧ floor.toNat < x.toNat ∧ s.refTick.toNat ≤ x.toNat / 65536 ∧ x.toNat % 65536 / 256 = n

/-- A write of `n` bytes that a slice commits: its stamp is fresh, and becomes the slice's last and the least that its threads' later writes
carry (R164); no other memory, slice, partition or scratchpad changes; on a historied page it leaves an entry with the line's old bytes. -/
def CommitsAt (s t : State) (r : Req) (n : Nat) (x : Dword) : Prop :=
  OnlyMemory s t r.pa n (fun k y => if r.parts.any (fun q => q.thread == k) then umax y x else y) ∧
  FreshStamp s (homeSlice r.pa) r.floor x ∧ (t.slice (homeSlice r.pa)).last = x ∧
  (∀ m, m ≠ homeSlice r.pa → t.slice m = s.slice m) ∧ (∀ m, m ≠ s.reqPart r → t.part m = s.part m) ∧
  (∀ q, q ≠ r.core → t.core q = s.core q) ∧ (t.core r.core).scratch = (s.core r.core).scratch ∧
  (r.attrs.hist = true → ∃ e ∈ (t.part (s.reqPart r)).pool, e.line = lineOf r.pa ∧ e.later = x ∧ e.freed = false ∧
    e.data = s.mem.bytes (lineOf r.pa * 64) 64)

/-- R149, R161, R162, R164, R169, R173, R204: SLICE_COMMIT of a store writes its bytes and no other, of an atomic the outcome of its operation
on what memory held, which its threads get; each takes a stamp of its home slice, which becomes the slice's last; a write on a historied page
leaves an entry with the line's old bytes while the pool has room, and where a hold stops it stays unchanged at the slice, stalled. -/
def SliceCommitRule : Prop :=
  ∀ (s : State) (id : Nat) (r : Req), s.reqs.find? (fun y => y.id == id) = some r → r.place = .global → s.sliceMay r = true →
    s.mem.wf = true → s.reqShadow r = false → r.slice = homeSlice r.pa →
    (∀ e, r.tlb = some e → ∀ a ∈ e.leaf1 :: e.leaf2.toList, natBit (s.mem.nat a 8) 9 = true) →
    (s.slice (homeSlice r.pa)).last.toNat < 2 ^ 63 → (s.slice (homeSlice r.pa)).tick.toNat < 2 ^ 47 → s.refTick.toNat < 2 ^ 47 →
    r.floor.toNat < 2 ^ 63 →
    (r.attrs.hist = true ∧ (s.part (s.reqPart r)).live < (s.part (s.reqPart r)).cap ∨ r.attrs.hist = false →
      (∀ d, (r.kind = .store d ∨ r.kind = .stamped d) →
        ∃ t x, exec (.sliceCommit id) s = .next t ∧ CommitsAt s t r d.length x ∧ t.mem.bytes r.pa d.length = d ∧
          Served s t id (fun y => y.stamp = x ∧ y.raise = some x ∧ (r.kind = .stamped d → ∀ z ∈ y.parts, z.value = Dword.words x))) ∧
      ∀ op w sg, r.kind = .atomic op w sg → lineOf r.pa ∉ s.poison →
        ∃ t x old, exec (.sliceCommit id) s = .next t ∧ CommitsAt s t r (atomBytes w) x ∧
          old = BitVec.ofNat 64 (s.mem.nat r.pa (atomBytes w)) ∧
          t.mem.nat r.pa (atomBytes w) = (groupNew op w sg r.parts old).toNat ∧
          (∀ q, r.parts = [q] → t.mem.nat r.pa (atomBytes w) = (atomNew op w sg old q.x q.cmp).toNat) ∧
          Served s t id (fun y => y.stamp = x ∧ y.raise = some x ∧ y.parts = groupValues op w sg old r.parts)) ∧
    (r.writes = true → r.attrs.hist = true → s.wouldStall (s.reqPart r) (s.assignStamp (homeSlice r.pa) r.floor).2 = true → r.stage = .sent →
      ∃ t, exec (.sliceCommit id) s = .next t ∧ t.mem = s.mem ∧ t.warps = s.warps ∧ t.slices = s.slices ∧
        t.reqs = s.reqs.map (fun y => if y.id = id then { r with stage := .stalled s.cycle } else y))

/-- R155, R171, R195, R196, R200, R209: SLICE_LOAD reads the bytes at its address, extended as the word says, a read of parameter space those
past its page's end in the next page and zeros past what backs it; LSTAMP reads the line's stamp on a historied page, else 0; ASOF_WALK
reads, once SETTLED has reached S, the version of the line with the greatest stamp at or below S: the line itself where its stamp is no
greater. None of them changes memory. -/
def SliceReadsRule : Prop :=
  (∀ (s : State) (id : Nat) (r : Req), s.reqs.find? (fun y => y.id == id) = some r → s.current r = true →
    s.sliceMay r = true → s.reqRed r = false →
    (∀ n sg, r.kind = .load n sg → r.place = .global → (∀ l ∈ r.linesOf n, l ∉ s.poison) →
      ∃ t, exec (.sliceLoad id) s = .next t ∧ OnlyReads s t ∧ (∀ q, (t.core q).scratch = (s.core q).scratch) ∧
        Served s t id (fun y => y.raise = some (s.readCarries r.pa) ∧ y.parts.length = r.parts.length ∧
          ∀ z ∈ y.parts, z.value = loadWords n sg (s.mem.bytes r.pa n))) ∧
    (∀ n sg len, r.kind = .load n sg → r.place = .param len → (∀ l ∈ r.linesOf (min n len), l ∉ s.poison) →
      ∃ t, exec (.sliceLoad id) s = .next t ∧ OnlyReads s t ∧ (∀ q, (t.core q).scratch = (s.core q).scratch) ∧
        Served s t id (fun y => ∃ d : List Byte, d.length = n ∧ (∀ z ∈ y.parts, z.value = loadWords n sg d) ∧
          ∀ i (h : i < d.length), d[i] = if len ≤ i then 0 else if r.pa % 65536 + i < 65536 then s.mem.byte (r.pa + i)
            else s.mem.byte (r.pa2 + (i - (65536 - r.pa % 65536))))) ∧
    (r.kind = .lstamp → r.place = .global → ∃ t x, exec (.sliceLoad id) s = .next t ∧ OnlyReads s t ∧ t.cores = s.cores ∧
      x = (match Tab.find s.lineMeta (lineOf r.pa) with | some m => if r.attrs.hist then m.stamp else 0 | none => 0) ∧
      Served s t id (fun y => ∀ z ∈ y.parts, z.value = Dword.words x))) ∧
  ∀ (s : State) (id n : Nat) (r : Req) (st : Dword) (line : List Byte) (x : Dword), s.reqs.find? (fun y => y.id == id) = some r →
    r.kind = .asof n st → s.asofMay r st = true → s.reqRed r = false → s.asofLine (s.reqPart r) (lineOf r.pa) st = .found line x →
    ∃ t, exec (.asofWalk id) s = .next t ∧ OnlyReads s t ∧ t.cores = s.cores ∧ x.toNat ≤ st.toNat ∧
      (∀ m, Tab.find s.lineMeta (lineOf r.pa) = some m → m.stamp.toNat ≤ st.toNat → s.dataLine (lineOf r.pa) = lineOf r.pa →
        line = s.mem.bytes (lineOf r.pa * 64) 64 ∧ x = m.stamp) ∧
      Served s t id (fun y => y.raise = some x ∧ ∀ z ∈ y.parts, z.value = loadWords n false ((line.drop (r.pa % 64)).take n))

/-- R163, R192, R193, R194, R197: MEM_RESPONSE writes what a request brought into the destinations that still await it, ends the request,
and with the last response of a word lowers the word's counter and raises the warp's FLOOR to the value carried, as the response of a global
write on no counter does too; an error brings no value, and waits in each thread to be delivered. No other register of any thread changes. -/
def MemResponseRule : Prop :=
  ∀ (s : State) (id : Nat) (r : Req), s.reqs.find? (fun z => z.id == id && z.stage == .served) = some r →
    s.current r = true → s.reqRed r = false →
    ∃ t, exec (.memResponse id) s = .next t ∧ t.mem = s.mem ∧ t.cores = s.cores ∧ t.launches = s.launches ∧ t.slices = s.slices ∧
      t.blocks = s.blocks ∧ (∀ z ∈ t.reqs, z.id ≠ id) ∧ (∀ z ∈ s.reqs, z.id ≠ id → z ∈ t.reqs) ∧
      (∀ k, (∀ q ∈ r.parts, q.thread ≠ k) → ∀ x, s.thread k = some x → ∃ x', t.thread k = some x' ∧ x' = { x with async := x'.async }) ∧
      (r.ue = false → r.gone = false →
        (∀ q ∈ r.parts, (∀ q' ∈ r.parts, q'.thread = q.thread → q' = q) → q.dst.Nodup → r.sdst = none → ∀ y, s.thread q.thread = some y →
          y.st ≠ .exited → ∃ u, t.thread q.thread = some u ∧ u.apart = y.apart ∧
            (∀ j (hj : j < q.dst.length) (hv : j < q.value.length), q.dst[j] < 68 →
              (∃ a ∈ y.async, a.req = id ∧ a.loc = q.dst[j] ∧ a.lost = false) → u.raw q.dst[j] = q.value[j] ∧ u.isVoid q.dst[j] = false) ∧
            (∀ l, l ∉ q.dst → u.raw l = y.raw l)) ∧
        (∀ g q w w', r.sdst = some g → r.parts = [q] → Tab.find s.warps q.thread.warp = some w → Tab.find t.warps q.thread.warp = some w' →
          (∃ a ∈ w.sasync, a.req = id ∧ a.reg = g ∧ a.lost = false) → ∀ b cyc, s.cycle ≤ cyc →
            w'.sget g b cyc = q.value.headD 0 ∧ ∀ g', g' ≠ g → w'.sget g' b cyc = w.sget g' b cyc)) ∧
      (∀ n w, Tab.find s.warps n = some w → ∃ w', Tab.find t.warps n = some w' ∧ w'.preds = w.preds ∧ w'.s = w.s ∧
        ((∀ o ∈ w.out, o.word ∉ r.wordIds) → w'.ctr = w.ctr ∧ (r.ctr ≠ 7 → w'.floor = w.floor)) ∧
        ∀ e ∈ w.out, e.word ∈ r.wordIds → (∀ o ∈ w.out, o.word ∈ r.wordIds → o = e) → r.ctr ≠ 7 →
          (1 < e.left → w'.ctr = w.ctr ∧ w'.floor = w.floor) ∧
          (e.left = 1 → w'.ctr = (w.ctrDown e.ctr s.cycle).ctr ∧ (∀ a ∈ w'.sasync, a.word ≠ e.word) ∧
            (∀ th ∈ w'.threads, ∀ a ∈ th.async, a.word ≠ e.word) ∧
            w'.floor = umax w.floor (match r.raise with
              | some x => if r.ue || r.gone then e.floor else umax e.floor x
              | none => e.floor))) ∧
      (r.ctr = 7 → r.globalWrite = true → ∀ x, r.raise = some x → ∀ q ∈ r.parts, ∀ w w', Tab.find s.warps q.thread.warp = some w →
        (∀ o ∈ w.out, o.word ∉ r.wordIds) → Tab.find t.warps q.thread.warp = some w' → w'.floor = umax w.floor x) ∧
      (r.ue = true ∨ r.gone = true → ∀ e ∈ r.parts.zip r.issued, (∀ e' ∈ r.parts.zip r.issued, e'.1.thread = e.1.thread → e' = e) →
        (r.parts.zip r.issued).Nodup → ∀ y, s.thread e.1.thread = some y → y.st ≠ .exited → ∃ u, t.thread e.1.thread = some u ∧
          (∀ l, u.raw l = y.raw l) ∧ ∃ d, u.deferred = y.deferred ++ [d] ∧ d.addr = r.va ∧ d.tpc = r.tpc ∧
            d.cause = if r.gone = true then .histGone else .memUe)

/-- R182, R183, R186, R205, R301: CLUSTER_WINDOW_WRITE lets an access through the cluster window take effect at the target core, and so one at
the own scratchpad that had to wait: a store writes its bytes, a load reads there, an atomic does both; what reaches a range lock of another
core is discarded. MIRROR_STORE_ARRIVAL writes a mirror store's bytes into one member's area, or discards them where they go past it, and
leaves the other members to come. -/
def ScratchArrivalsRule : Prop :=
  (∀ (s : State) (id core : Nat) (r : Req), s.reqs.find? (fun y => y.id == id) = some r → r.place = .cluster core ∨ r.place = .scratch core →
    s.windowMay r = true → (s.core core).scratch.wf = true →
    (∀ d, r.kind = .store d →
      ∃ t, exec (.clusterWindowWrite id) s = .next t ∧ OnlyReads s t ∧ Served s t id (fun _ => True) ∧
        (core = r.core ∨ (∀ l ∈ (s.core core).locks, l.covers .scratch r.pa d.length = false) →
          (t.core core).scratch.bytes r.pa d.length = d ∧
          (∀ a, a < r.pa ∨ r.pa + d.length ≤ a → (t.core core).scratch.byte a = (s.core core).scratch.byte a) ∧
          (∀ q, q ≠ core → t.core q = s.core q)) ∧
        (core ≠ r.core → (∃ l ∈ (s.core core).locks, l.covers .scratch r.pa d.length = true) →
          ∀ q, (t.core q).scratch = (s.core q).scratch)) ∧
    (∀ n sg, r.kind = .load n sg →
      ∃ t, exec (.clusterWindowWrite id) s = .next t ∧ OnlyReads s t ∧
        (∀ q, t.core q = if r.acq = true ∧ q = r.core then { s.core q with l1 := [] } else s.core q) ∧
        Served s t id (fun y => ∀ z ∈ y.parts, z.value = loadWords n sg ((s.core core).scratch.bytes r.pa n))) ∧
    ∀ op w sg, r.kind = .atomic op w sg → core = r.core ∨ (∀ l ∈ (s.core core).locks, l.covers .scratch r.pa (atomBytes w) = false) →
      ∃ t old, exec (.clusterWindowWrite id) s = .next t ∧ OnlyReads s t ∧
        old = BitVec.ofNat 64 (leNat ((s.core core).scratch.bytes r.pa (atomBytes w))) ∧
        leNat ((t.core core).scratch.bytes r.pa (atomBytes w)) = (groupNew op w sg r.parts old).toNat ∧
        (∀ a, a < r.pa ∨ r.pa + atomBytes w ≤ a → (t.core core).scratch.byte a = (s.core core).scratch.byte a) ∧
        (∀ q, q ≠ core → (t.core q).scratch = (s.core q).scratch) ∧
        Served s t id (fun y => y.parts = groupValues op w sg old r.parts)) ∧
  ∀ (s : State) (id core m : Nat) (l : List Nat) (r : Req) (d : List Byte) (n : Launch) (w : Mirror) (base size : Nat),
    s.reqs.find? (fun y => y.id == id) = some r → r.place = .mirror m l → r.kind = .store d → Tab.find s.launches r.launch = some n →
    s.mirrorMay r core = true → n.rcd.window m = some w → s.mirrorArea r.launch core (s.reqShadow r) = some (base, size) →
    (s.core core).scratch.wf = true → (∀ k ∈ (s.core core).locks, k.covers .scratch (base + (w.base + r.mirrorOff)) d.length = false) →
    ∃ t, exec (.mirrorStoreArrival id core) s = .next t ∧ OnlyReads s t ∧ t.warps = s.warps ∧
      (w.base + r.mirrorOff + d.length ≤ size → (t.core core).scratch.bytes (base + (w.base + r.mirrorOff)) d.length = d) ∧
      (∀ a, a < base + (w.base + r.mirrorOff) ∨ base + (w.base + r.mirrorOff) + d.length ≤ a ∨ size < w.base + r.mirrorOff + d.length →
        (t.core core).scratch.byte a = (s.core core).scratch.byte a) ∧
      (∀ q, q ≠ core → t.core q = s.core q) ∧ (∀ y ∈ s.reqs, y.id ≠ id → y ∈ t.reqs) ∧
      ∃ y ∈ t.reqs, y.id = id ∧ core ∉ y.left ∧ (∀ q, q ∈ r.left → q ≠ core → q ∈ y.left) ∧
        (y.stage = if y.left = [] then .served else .sent)

/-! ### Words that hand a command over -/

/-- A pass of one thread that may hand a command over: it executes, has handed nothing over yet, is of no redundant launch, may issue an
access, has at a release no write outstanding and, where the release orders `loads` too, no load without its value, and its warp's w4 has
room for a counted word, whose number is new. -/
def HandMay (s : State) (p : Pass) (k : TKey) (c : TCtx) (h : Hd) (srcs : List Src) (release loads counts : Bool) : Prop :=
  s.Due srcs p ∧ p.keys = [k] ∧ p.ctxs s = [c] ∧ c.guard h.guard = .ok true ∧
  (∃ b, Tab.find s.bundles p.port = some b ∧ b.acted = [] ∧ b.failed = []) ∧ s.redCopy k.warp = none ∧ s.blocked k = false ∧
  (release = true → s.writesDue k = false ∧ (loads = true → s.valuesDue k = false)) ∧
  (counts = true → p.full s 4 = false ∧ ∀ o ∈ c.w.out, o.word < s.uid)

/-- What handing a command over leaves of all but its thread and unit: w4 of the thread's warp raised by one where the word counts, and memory,
requests, slices, partitions, blocks, every other thread and every other core as they were. -/
def HandFrame (s u : State) (p : Pass) (c : TCtx) (counts : Bool) : Prop :=
  u.mem = s.mem ∧ u.reqs = s.reqs ∧ u.slices = s.slices ∧ u.parts = s.parts ∧ u.blocks = s.blocks ∧
  (∀ j, j ≠ c.key → u.thread j = s.thread j) ∧ (∀ q, q ≠ p.core → u.core q = s.core q) ∧
  (∀ n, n ≠ c.key.warp → (Tab.find u.warps n).map Warp.shell = (Tab.find s.warps n).map Warp.shell) ∧
  ∀ w', Tab.find u.warps c.key.warp = some w' → w'.s = c.w.s ∧ w'.preds = c.w.preds ∧ w'.floor = c.w.floor ∧
    w'.ctr = if counts then (c.w.ctrUp 4).ctr else c.w.ctr

/-- What handing a command over leaves: the thread as `t` gone on, and the frame. -/
def HandedOver (s u : State) (p : Pass) (c : TCtx) (t : Thread) (counts : Bool) : Prop :=
  (∃ y, u.thread c.key = some y ∧ WentOn p.after t y) ∧ u.launches = s.launches ∧ HandFrame s u p c counts

/-- R325, R331, R356, R358, R362: MMA, MMASP and ACCST queue at the matrix engine of the core the block at A, read then, with its slot and its
arrival word; ACCZ queues the clearing of the tiles of its mask. -/
def MatrixWordsRule : Prop :=
  (∀ (t : FsA) (i : Instr) (kind : MatKind) (n arr : Nat) (counts : Bool),
    ((i = .mma t ∧ kind = .mma false ∧ n = 128 ∧ arr = 0x34 ∧ counts = true) ∨
      (i = .mmasp t ∧ kind = .mma true ∧ n = 128 ∧ arr = 0x34 ∧ counts = true) ∨
      (i = .accst t ∧ kind = .store ∧ n = 64 ∧ arr = 0x14 ∧ counts = false)) →
    ∀ (s : State) (p : Pass) (k : TKey) (c : TCtx) (a : List Word) (x z : Nat), HandMay s p k c t.h [.sel t.a 1] true true counts →
      c.read 0 (.sel t.a 1) = .ok a → (w0 a).toNat % n = 0 → s.ownBytes c.w.block p.core (w0 a).toNat n = some x →
      field (s.scratchGet p.core x n) arr 4 % 8 = 0 → s.ownBytes c.w.block p.core (field (s.scratchGet p.core x n) arr 4) 8 = some z →
      (kind = .store → ∀ l ∈ (s.core p.core).locks, l.space ≠ .tile) → ((s.core p.core).mat.filter (fun o => !o.started)).length < 8 →
      ∃ u o, exec i s = .next u ∧ HandedOver s u p c (c.handed t.h (.sel t.a 1)) counts ∧
        u.core p.core = { s.core p.core with mat := (s.core p.core).mat ++ [o] } ∧ o.kind = kind ∧ o.slot = t.s.val ∧ o.block = c.w.block ∧
        o.warp = k.warp ∧ o.params = s.scratchGet p.core x n ∧ o.arrive = some (field (s.scratchGet p.core x n) arr 4) ∧
        o.started = false ∧ o.steps = 0) ∧
  ∀ (t : WAB) (s : State) (p : Pass) (k : TKey) (c : TCtx) (a b : List Word), HandMay s p k c t.h [.sel t.a 1, bI32 t.b] false false false →
    c.read 0 (.sel t.a 1) = .ok a → c.read 1 (bI32 t.b) = .ok b → (w0 a).toNat < 65536 →
    (t.b ≠ .sel .z → (w0 b).toNat % 8 = 0 ∧ (s.ownBytes c.w.block p.core (w0 b).toNat 8).isSome = true) →
    (∀ l ∈ (s.core p.core).locks, l.space ≠ .tile) → ((s.core p.core).mat.filter (fun o => !o.started)).length < 8 →
    ∃ u o, exec (.accz t) s = .next u ∧ HandedOver s u p c (c.handed t.h (.sel t.a 1)) false ∧
      u.core p.core = { s.core p.core with mat := (s.core p.core).mat ++ [o] } ∧ o.kind = .zero ((w0 a).setWidth 16) ∧
      o.block = c.w.block ∧ o.arrive = (if t.b = .sel .z then none else some (w0 b).toNat) ∧ o.started = false

/-- R249, R295: KICK queues at the copy engine the chain at A, a multiple of 64, with the warp's FLOOR; R370, R380: RSTEP queues at the Waffle A
generations of the bound descriptor; each counts in w4. -/
def ChainsAndStepsRule : Prop :=
  (∀ (t : WA) (s : State) (p : Pass) (k : TKey) (c : TCtx) (a : List Word), HandMay s p k c t.h [.sel t.a 1] true true true →
    c.read 0 (.sel t.a 1) = .ok a → (w0 a).toNat % 64 = 0 → ((s.core p.core).copy.queue.filter (fun q => q.count == 0)).length < 16 →
    ∃ u q, exec (.kick t) s = .next u ∧ HandedOver s u p c (c.handed t.h (.sel t.a 1)) true ∧
      (u.core p.core).copy = { (s.core p.core).copy with queue := (s.core p.core).copy.queue ++ [q], due := (u.core p.core).copy.due } ∧
      u.core p.core = { s.core p.core with copy := (u.core p.core).copy } ∧
      q.at_ = (w0 a).toNat ∧ q.count = 0 ∧ q.block = c.w.block ∧ q.warp = k.warp ∧ q.told = false ∧ q.floor = c.w.floorFor p.bundle c.slot) ∧
  ∀ (t : WA) (s : State) (p : Pass) (k : TKey) (c : TCtx) (a : List Word), HandMay s p k c t.h [.sel t.a 1] true true true →
    c.read 0 (.sel t.a 1) = .ok a → (s.boundDesc p.core).isSome = true → (s.waffle p.core).queue.length < 8 →
    ∃ u q, exec (.rstep t) s = .next u ∧ HandedOver s u p c (c.handed t.h (.sel t.a 1)) true ∧
      (u.waffle p.core) = { s.waffle p.core with queue := (s.waffle p.core).queue ++ [q], due := (u.waffle p.core).due } ∧
      u.core p.core = { s.core p.core with waffle := u.waffle p.core } ∧
      q.g = w0 a ∧ q.started = false ∧ q.block = c.w.block ∧ q.warp = k.warp

/-- R302, R303: SEND through a valid capability with SEND set, of a payload of at most 4,096 bytes in the block's area and within its
allowance, puts the message on its way, takes its length from the allowance, and locks the payload as a source; D awaits the status. -/
def SendWordRule : Prop :=
  ∀ (t : WDAB) (s : State) (p : Pass) (k : TKey) (c : TCtx) (a b : List Word) (locs : List Nat) (l : Launch) (cap : Cap) (x : Nat),
    HandMay s p k c t.h [.sel t.a 2, bI32 t.b] true false true → c.read 0 (.sel t.a 2) = .ok a → c.read 1 (bI32 t.b) = .ok b →
    c.dest (some (t.d, 1)) = .ok locs → c.writeCheck locs = none → Tab.find s.launches p.launch = some l → (w0 a).toNat < l.rcd.capn →
    l.caps[(w0 a).toNat]? = some cap → cap.valid = true → cap.send = true → (w0 b).toNat ≤ 4096 → (w0 b).toNat ≤ cap.allow →
    s.ownBytes c.w.block p.core (dwordOf a).hi.toNat (w0 b).toNat = some x → (s.core p.core).locks.length < 32 →
    ∃ u y m l', exec (.send t) s = .next u ∧ u.sends = s.sends ++ [m] ∧ m.thread = k ∧ m.launch = p.launch ∧ m.cap = (w0 a).toNat ∧
      m.pkg = cap.pkg ∧ m.part = cap.part ∧ m.tag = cap.tag ∧ m.fire = cap.fire ∧ m.rwrite = cap.rwrite ∧ m.off = x ∧ m.len = (w0 b).toNat ∧
      m.floor = c.w.floorFor p.bundle c.slot ∧ m.payload = none ∧ m.status = none ∧
      Tab.find u.launches p.launch = some l' ∧ l'.caps[(w0 a).toNat]? = some { cap with allow := cap.allow - (w0 b).toNat } ∧
      (∀ j, j ≠ (w0 a).toNat → l'.caps[j]? = l.caps[j]?) ∧
      (∃ r, (u.core p.core).locks = (s.core p.core).locks ++ [r] ∧ r.space = .scratch ∧ r.lo = x ∧ r.hi = x + (w0 b).toNat ∧ r.dst = false) ∧
      u.core p.core = { s.core p.core with locks := (u.core p.core).locks } ∧ l' = { l with caps := l'.caps } ∧
      (∀ n, n ≠ p.launch → Tab.find u.launches n = Tab.find s.launches n) ∧
      u.thread k = some y ∧ y.issued = c.th.issued + 1 ∧ y.apart = c.th.apart ∧ (∀ loc ∈ locs, ∃ e ∈ y.async, e.loc = loc ∧ e.req = m.id) ∧
      (∀ loc, loc ∉ locs → c.th.Keeps y loc) ∧ HandFrame s u p c true

/-- R242, Table 13.3: CKPT in privileged state begins a stream for the descriptor at A, a multiple of 64, counted in w4 with D awaiting its
status; the stream's first step reads the descriptor through the issuer's translation: its base, length, identifier and endpoint, or it ends
with status 6 where the fields break Table 13.3, 1 where they are poisoned, and 2 where the descriptor has no translation. -/
def CkptWordRule : Prop :=
  (∀ (t : WDA) (s : State) (p : Pass) (k : TKey) (c : TCtx) (a : List Word) (locs : List Nat) (l : Launch) (va : Nat),
    HandMay s p k c t.h [.sel t.a 2] true true true → p.priv = true → c.read 0 (.sel t.a 2) = .ok a → c.dest (some (t.d, 1)) = .ok locs →
    c.writeCheck locs = none → decodeAddr .glb (dwordOf a) = .glb va → va % 64 = 0 → Tab.find s.launches p.launch = some l →
    ∃ u y q, exec (.ckpt t) s = .next u ∧ u.ckpts = s.ckpts ++ [q] ∧ q.thread = k ∧ q.launch = p.launch ∧ q.xlat = l.xlat ∧
      q.desc = va ∧ q.core = p.core ∧ q.chunk = 0 ∧ q.stage = .begin ∧ q.status = none ∧ q.floor = c.w.floorFor p.bundle c.slot ∧
      u.thread k = some y ∧ y.issued = c.th.issued + 1 ∧ y.apart = c.th.apart ∧ (∀ loc ∈ locs, ∃ w ∈ y.async, w.loc = loc ∧ w.req = q.id) ∧
      (∀ loc, loc ∉ locs → c.th.Keeps y loc) ∧ u.launches = s.launches ∧ u.cores = s.cores ∧ HandFrame s u p c true) ∧
  ∀ (s : State) (q : Ckpt) (s' : State) (r : Except Nat (Option TlbEntry)), s.ckpts.find? (fun y => y.id == q.id) = some q →
    q.shadow = false → q.status = none → q.stage = .begin → s.pausedDies.contains (dieOf q.core) = false →
    s.ckptXlat q.xlat q.desc = (s', r) →
    ∃ u y, exec (.ckptServiceReply q.id .held) s = .next u ∧ u.warps = s.warps ∧ u.blocks = s.blocks ∧ u.launches = s.launches ∧
      y ∈ u.ckpts ∧ y = { q with
        base := y.base, len := y.len, ckid := y.ckid, endpoint := y.endpoint, chunk := y.chunk, stage := y.stage,
        data := y.data, status := y.status, due := y.due } ∧ (∀ z ∈ s.ckpts, z.id ≠ q.id → z ∈ u.ckpts) ∧
      (∀ n, r = .error n → y.status = some (BitVec.ofNat 32 n)) ∧ (r = .ok none → y.stage = .begin ∧ y.status = none) ∧
      ∀ e, r = .ok (some e) →
        (lineOf (e.phys q.desc) ∈ s.poison → y.status = some 1) ∧
        (lineOf (e.phys q.desc) ∉ s.poison → badDescriptor (s'.mem.bytes (e.phys q.desc) 64) = true → y.status = some 6) ∧
        (lineOf (e.phys q.desc) ∉ s.poison → badDescriptor (s'.mem.bytes (e.phys q.desc) 64) = false →
          y.base = s'.mem.nat (e.phys q.desc) 8 ∧ y.len = s'.mem.nat (e.phys q.desc + 8) 8 ∧
          y.ckid = BitVec.ofNat 64 (s'.mem.nat (e.phys q.desc + 16) 8) ∧ y.endpoint = BitVec.ofNat 64 (s'.mem.nat (e.phys q.desc + 24) 8))

/-! ### Words on a core's own memory -/

/-- A word of one thread on its core: under `pre` it computes what `post` says of the core afterwards and of D, and changes nothing else. -/
def CoreWord (i : Instr) (v : VWord) (pre : TCtx → State → Word → Word → Prop)
    (post : TCtx → State → Word → Word → Core → List Word → Prop) : Prop :=
  ∀ s p k c a b locs, s.Due [v.a, v.b] p → p.keys = [k] → p.ctxs s = [c] → c.guard v.h.guard = .ok true → c.read 0 v.a = .ok a →
    c.read 1 v.b = .ok b → c.dest v.d = .ok locs → c.writeCheck locs = none → pre c s (w0 a) (w0 b) →
    ∃ u y ws, exec i s = .next u ∧ u.thread k = some y ∧ c.Wrote v locs (ws, 0) (c.slot + v.lat) y ∧
      post c s (w0 a) (w0 b) (u.core p.core) ws ∧ (∀ q, q ≠ p.core → u.core q = s.core q) ∧ u.mem = s.mem ∧ u.reqs = s.reqs ∧
      ∀ j, j ≠ k → u.thread j = s.thread j

/-- `n` bytes of a scratchpad written at an address, and nothing else of the core, arrival marks apart. -/
def PutAt (x y : Core) (at_ : Nat) (data : List Byte) : Prop :=
  y = { x with scratch := y.scratch, arrived := y.arrived } ∧ y.scratch.bytes at_ data.length = data ∧
  ∀ a, a < at_ ∨ at_ + data.length ≤ a → y.scratch.byte a = x.scratch.byte a

/-- What a rectangle word needs: its thread may access its core's scratchpad, a bound descriptor that passes R368, a rectangle in its tile, and
no range lock on the core. -/
def RectMay (c : TCtx) (s : State) (a : Word) (base : Nat) (d : RuleDesc) (writes : Bool) : Prop :=
  s.accessDue c.key writes = false ∧ ∃ size off, s.boundDesc c.p.core = some (base, size, off, d) ∧ d.ok size = true ∧ (rectOf a).ok d = true ∧
    (s.core c.p.core).locks = [] ∧ (s.core c.p.core).scratch.wf = true

/-- R368, R369, R372, R374, R384: RCFG binds the descriptor at A; RTLD loads B entries of the table; RPACK writes a rectangle's cells row by row
from bit 0 up and RUNPACK takes them from such rows; RCOUNT counts the cells of codes B to B + 3; RGEN answers GEN, RUN, and whether steps
are queued or an abort is pending. -/
def RuleWordsRule : Prop :=
  (∀ t : WA, CoreWord (.rcfg t) (ownWord t.h (.sel t.a 1) .none none 4 false)
    (fun c s a _ => s.accessDue c.key false = false ∧ (s.waffle c.p.core).queue = [] ∧ a.toNat % 64 = 0 ∧ ∃ ar x, s.ownArea c.w.block c.p.core = some ar ∧
      s.ownBytes c.w.block c.p.core a.toNat 64 = some x ∧ (ruleDesc (s.scratchGet c.p.core x 64)).ok ar.2 = true)
    (fun c s a _ core ws => ws = [] ∧
      core = { s.core c.p.core with waffle := { (s.core c.p.core).waffle with bound := some (c.w.block, a.toNat) } })) ∧
  (∀ t : WAB, CoreWord (.rtld t) (ownWord t.h (.sel t.a 1) (bI32 t.b) none 4 false)
    (fun c s a b => s.accessDue c.key false = false ∧ (s.waffle c.p.core).queue = [] ∧ b.toNat % 2 = 0 ∧ 2 ≤ b.toNat ∧ b.toNat ≤ 4096 ∧ a.toNat % 4 = 0 ∧
      (s.ownBytes c.w.block c.p.core a.toNat (b.toNat / 2)).isSome = true ∧
      (s.waffle c.p.core).table.Pairwise (fun x y => x.1 < y.1))
    (fun c s a b core ws => ws = [] ∧ core = { s.core c.p.core with waffle := { (s.core c.p.core).waffle with table := core.waffle.table } } ∧
      ∃ x, s.ownBytes c.w.block c.p.core a.toNat (b.toNat / 2) = some x ∧
        (∀ i, i < b.toNat → (Tab.find core.waffle.table i).getD 0 =
          (if i % 2 = 0 then ((s.core c.p.core).scratch.byte (x + i / 2)).setWidth 4
            else ((s.core c.p.core).scratch.byte (x + i / 2) >>> 4).setWidth 4)) ∧
        ∀ i, b.toNat ≤ i → (Tab.find core.waffle.table i).getD 0 = (Tab.find (s.waffle c.p.core).table i).getD 0)) ∧
  (∀ t : WAB, CoreWord (.rpack t) (ownWord t.h (.sel t.a 1) (bI32 t.b) none 4 false)
    (fun c s a b => ∃ base d, RectMay c s a base d true ∧ b.toNat % 4 = 0 ∧
      (s.ownBytes c.w.block c.p.core b.toNat (4 * (rectOf a).h * (rectOf a).rowWords d)).isSome = true)
    (fun c s a b core ws => ws = [] ∧ ∃ base size off d x data, s.boundDesc c.p.core = some (base, size, off, d) ∧
      s.ownBytes c.w.block c.p.core b.toNat (4 * (rectOf a).h * (rectOf a).rowWords d) = some x ∧
      data.length = 4 * (rectOf a).h * (rectOf a).rowWords d ∧ PutAt (s.core c.p.core) core x data ∧
      ∀ i j, i < (rectOf a).w → j < (rectOf a).h →
        natBits (leNat ((data.drop (j * (4 * (rectOf a).rowWords d))).take (4 * (rectOf a).rowWords d))) (i * d.c) d.c =
          d.cell (leNat (s.scratchGet c.p.core (base + d.live) d.planeBytes)) ((rectOf a).x + i) ((rectOf a).y + j))) ∧
  (∀ t : WAB, CoreWord (.runpack t) (ownWord t.h (.sel t.a 1) (bI32 t.b) none 4 false)
    (fun c s a b => ∃ base d, RectMay c s a base d true ∧ b.toNat % 4 = 0 ∧
      (s.ownBytes c.w.block c.p.core b.toNat (4 * (rectOf a).h * (rectOf a).rowWords d)).isSome = true)
    (fun c s a b core ws => ws = [] ∧ ∃ base size off d x data, s.boundDesc c.p.core = some (base, size, off, d) ∧
      s.ownBytes c.w.block c.p.core b.toNat (4 * (rectOf a).h * (rectOf a).rowWords d) = some x ∧
      data.length = d.planeBytes ∧ PutAt (s.core c.p.core) core (base + d.live) data ∧
      ∀ i j, i < d.wid → j < d.ht → d.cell (leNat data) i j =
        if (rectOf a).x ≤ i ∧ i < (rectOf a).x + (rectOf a).w ∧ (rectOf a).y ≤ j ∧ j < (rectOf a).y + (rectOf a).h then
          natBits (leNat (s.scratchGet c.p.core (x + (j - (rectOf a).y) * (4 * (rectOf a).rowWords d)) (4 * (rectOf a).rowWords d)))
            ((i - (rectOf a).x) * d.c) d.c
        else d.cell (leNat (s.scratchGet c.p.core (base + d.live) d.planeBytes)) i j)) ∧
  (∀ t : WDAB, CoreWord (.rcount t) (ownWord t.h (.sel t.a 1) (bI32 t.b) (some (t.d, 2)) 4 false)
    (fun c s a b => b.toNat ≤ 15 ∧ ∃ base d, RectMay c s a base d false)
    (fun c s a b core ws => core = s.core c.p.core ∧ ∃ base size off d, s.boundDesc c.p.core = some (base, size, off, d) ∧
      ∀ i, i < 4 → natBits (wordsNat ws) (16 * i) 16 =
        ((List.range (rectOf a).h).flatMap (fun j => (List.range (rectOf a).w).filter (fun x =>
          d.cell (leNat (s.scratchGet c.p.core (base + d.live) d.planeBytes)) ((rectOf a).x + x) ((rectOf a).y + j) == b.toNat + i))).length)) ∧
  ∀ t : WD, CoreWord (.rgen t) (ownWord t.h .none .none (some (t.d, 2)) 4 false)
    (fun c s _ _ => (s.boundDesc c.p.core).isSome = true)
    (fun c s _ _ core ws => core = s.core c.p.core ∧ ∃ base size off d, s.boundDesc c.p.core = some (base, size, off, d) ∧
      wordsNat ws = d.gen + (if d.run then 2 ^ 32 else 0) + (if (s.waffle c.p.core).queue = [] then 0 else 2 ^ 33) +
        if (s.waffle c.p.core).aborting then 2 ^ 34 else 0)

/-- R385: RABORT with no step running takes effect at once: each step queued ends with ERR = 5, and the thread goes on; while a step runs, its
bundle waits with the abort pending. -/
def AbortWordRule : Prop :=
  ∀ (t : HdW) (s : State) (p : Pass) (k : TKey) (c : TCtx) (b : Bundle), s.Now p → p.keys = [k] → p.ctxs s = [c] →
    c.guard t.h.guard = .ok true → c.th.wait = none → Tab.find s.bundles p.port = some b → b.acted = [] →
    ((∀ o ∈ (s.waffle p.core).queue, o.started = false) →
      ∃ u y, exec (.rabort t) s = .next u ∧ u.thread k = some y ∧ y.issued = c.th.issued + 1 ∧ y.v = ((s.thread k).map Thread.v).getD y.v ∧
        (u.waffle p.core).queue = [] ∧ (u.waffle p.core).aborting = false ∧ (u.waffle p.core).table = (s.waffle p.core).table ∧
        (u.waffle p.core).bound = (s.waffle p.core).bound ∧ u.mem = s.mem) ∧
    ((∃ o ∈ (s.waffle p.core).queue, o.started = true) →
      ∃ u, exec (.rabort t) s = .next u ∧ (u.waffle p.core).aborting = true ∧ u.warps = s.warps ∧ u.mem = s.mem ∧
        (u.waffle p.core).queue.map RuleStep.op = (s.waffle p.core).queue.map RuleStep.op)

/-! ### The SYS words -/

/-- R79, R82: a SYS word outside privileged state, and outside the handler for ERET and ERETALL, stops every thread of its bundle at the word
with TCAUSE = PRIVILEGED, and does nothing else to their registers, the launches, the TLBs, memory or the partitions. -/
def PrivilegeRule : Prop :=
  ∀ (s : State) (p : Pass) (i : Instr), s.Now p → p.priv = false →
    ((∃ t, i = .csrr t) ∨ (∃ t, i = .csrw t) ∨ (∃ t, i = .hset t) ∨ (∃ t, i = .xinvVa t) ∨ (∃ t, i = .xinvAsid t) ∨ (∃ t, i = .xinvIpa t) ∨
      (∃ t, i = .xinvVmid t) ∨ (∃ t, i = .xsync t) ∨ (∃ t, i = .ckpt t) ∨
      (((∃ t, i = .eret t) ∨ (∃ t, i = .eretall t)) ∧ ∀ k ∈ p.keys, ∀ x, s.thread k = some x → x.handler = false)) →
    ∃ u, exec i s = .next u ∧ u.mem = s.mem ∧ u.parts = s.parts ∧ u.cores = s.cores ∧ u.queues = s.queues ∧ u.reqs = s.reqs ∧
      u.invals = s.invals ∧ u.ctls = s.ctls ∧ u.ckpts = s.ckpts ∧ u.slices = s.slices ∧
      ∀ k ∈ p.keys, ∀ x, s.thread k = some x → x.pend = [] →
        ∃ y, u.thread k = some y ∧ y.st = .halted ∧ y.trap.cause = .privileged ∧ y.trap.tpc = p.tpc ∧ y.v = x.v ∧ y.link = x.link

/-- What a CSRW leaves in its register once it is in effect: the register of the launch, of the queue that QSEL selects, or of the device
(Table 18.6). -/
def ControlSet (s u : State) (n : Nat) (l : Launch) (r : CWReg) (x : Dword) : Prop :=
  let lower : Word := Dword.lo x
  match r with
  | .ctxid => (Tab.find u.launches n).map Launch.xlat = some { l.xlat with vf := lower.extractLsb' 16 8, asid := lower.extractLsb' 0 16 }
  | .s1root => (Tab.find u.launches n).map Launch.xlat = some { l.xlat with s1root := x }
  | .s2root => (Tab.find u.launches n).map Launch.xlat = some { l.xlat with s2root := x }
  | .ptvec => (Tab.find u.launches n).map Launch.ptvec = some x
  | .qsel => (Tab.find u.launches n).map Launch.qsel = some (lower.extractLsb' 0 9)
  | .qbase => (s.queue l.selected).reqs = [] → u.queue l.selected = { s.queue l.selected with
      base := x, reqHead := 0, reqTail := 0, rspHead := 0, rspTail := 0, nextId := 0 }
  | .qcfg => (s.queue l.selected).reqs = [] → u.queue l.selected = { s.queue l.selected with
      cfg := lower &&& 0x1F, reqHead := 0, reqTail := 0, rspHead := 0, rspTail := 0, nextId := 0 }
  | .reqHead => (s.queue l.selected).reqs = [] → u.queue l.selected = { s.queue l.selected with reqHead := lower }
  | .rspTail => u.queue l.selected = { s.queue l.selected with rspTail := lower }
  | .tickhold => natBits x.toNat 48 15 = 0 → (x.getLsbD 63 = false → u.hold = x ∧ u.tickholdRead = x) ∧
      (x.getLsbD 63 = true → s.enabled.length ≤ 1 → u.hold = x ∧ u.refTick = x.setWidth 48) ∧
      (x.getLsbD 63 = true → 1 < s.enabled.length → u.hold = s.hold ∧ u.tickholdRead.getLsbD 63 = false)

/-- Every translation that an invalidation matches leaves every TLB, and no other does; a walk of its partition will not serve where what it
finds matches. -/
def Dropped (s u : State) (i : InvSpec) : Prop :=
  (∀ n, (u.core n).tlb = (s.core n).tlb.filter (fun e => !i.drops e)) ∧ (∀ n, u.ctlb n = (s.ctlb n).filter (fun e => !i.drops e)) ∧
  (∀ n, u.core n = { s.core n with tlb := (u.core n).tlb }) ∧
  u.walks = s.walks.map (fun w => if w.xlat.part = i.part then { w with drops := w.drops ++ [i] } else w)

/-- An invalidation posted: it waits for the walks that run in its partition, and the requests sent through what it drops. -/
def Posted (s : State) (i : InvSpec) (by_ : Option TKey) : Inval :=
  { id := s.uid, part := i.part, by_ := by_, walks := (s.walks.filter (fun w => w.xlat.part == i.part && w.done.isNone)).map Walk.id,
    reqs := (s.reqs.filter i.touches).map Req.id }

/-! ### Halts and handlers -/

/-- R309 to R311: HALT_BROADCAST, on a lane that a block's halt has not reached, stops there every thread of the block that would go on
issuing, with TCAUSE = HALTED; HANDLER_ENTRY, once every lane is reached, saves the latches and k slots of the chosen thread and starts it
in the handler, at TRAP, or in privileged state at PTVEC. -/
def HandlerEntryRule : Prop :=
  (∀ (s : State) (block core lane : Nat) (b : Block) (h : Halt), Tab.find s.blocks block = some b → b.halt = some h → lane < Config.lanes →
    s.blockSaved block = false → core * Config.lanes + lane ∉ h.reached → core * Config.lanes + lane ∈ s.blockLanes block →
    ∃ u, exec (.haltBroadcast block core lane) s = .next u ∧ u.mem = s.mem ∧ u.reqs = s.reqs ∧
      (∃ b', Tab.find u.blocks block = some b' ∧ b'.halt = some { h with reached := h.reached ++ [core * Config.lanes + lane] }) ∧
      (∀ k ∈ s.blockKeys block, ∀ x w, s.thread k = some x → Tab.find s.warps k.warp = some w → w.core = core → w.lane = lane →
        s.stoppable k = true → ∃ y, u.thread k = some y ∧ y.st = .halted ∧ y.trap.cause = .halted ∧ y.link = x.link ∧ y.k = x.settle.k) ∧
      u.cores = s.cores ∧ u.launches = s.launches ∧ u.parts = s.parts ∧
      ∀ k x, ¬ (k ∈ s.blockKeys block ∧ s.stoppable k = true ∧ ∃ w, Tab.find s.warps k.warp = some w ∧ w.core * Config.lanes + w.lane =
          core * Config.lanes + lane) →
        s.thread k = some x → ∃ y, u.thread k = some y ∧ y.v = x.v ∧ y.trap = x.trap ∧ y.st = x.st) ∧
  ∀ (s : State) (block : Nat) (b : Block) (h : Halt) (x : Thread) (l : Launch), Tab.find s.blocks block = some b → b.halt = some h →
    s.entryDue block = true → s.thread h.thread = some x → s.launchOf h.thread.warp = some l →
    ∃ u y, exec (.handlerEntry block) s = .next u ∧ u.mem = s.mem ∧ u.thread h.thread = some y ∧ y.handler = true ∧ y.st = .ready ∧
      y.pos = ⟨if l.priv then l.ptvec else l.rcd.trap, 0⟩ ∧
      y.save = some { lat := x.lat, k := x.k, kvoid := x.kvoid, wait := none,
                      resume := if x.trap.cause = .userTrap ∨ x.trap.cause = .breakpoint then x.pos else x.resume } ∧
      y = { x with save := y.save, handler := true, st := .ready, pos := y.pos, since := s.cycle, ready := s.cycle, slotAt := s.cycle,
                   candAt := s.cycle } ∧ u = { s with warps := u.warps } ∧ WarpsKept s u ∧ ∀ k, k ≠ h.thread → u.thread k = s.thread k

/-- R313, R114: ERET in the handler gives the thread back its latches and k slots and resumes it at its recorded place, out of the handler,
with the flags of TINFO suppressed once after FP_EXC, and ends the block's halt; ERETALL resumes the block's other halted threads too. -/
def HandlerReturnRule : Prop :=
  ∀ (t : HdW) (i : Instr) (all : Bool), ((i = .eret t ∧ all = false) ∨ (i = .eretall t ∧ all = true)) →
    ∀ (s : State) (p : Pass) (k : TKey) (c : TCtx) (x : Thread) (a : SaveArea) (b : Block), s.Now p → p.keys = [k] → p.ctxs s = [c] →
      c.guard t.h.guard = .ok true → s.thread k = some x → x.handler = true → x.save = some a → x.wait = none → x.trap.cause ≠ .sdcMismatch →
      Tab.find s.blocks c.w.block = some b → k ∈ s.blockKeys c.w.block →
      ∃ u y b', exec i s = .next u ∧ u.mem = s.mem ∧ u.reqs = s.reqs ∧ u.cores = s.cores ∧ u.launches = s.launches ∧ u.parts = s.parts ∧ u.thread k = some y ∧ y.handler = false ∧ y.save = none ∧ y.lat = a.lat ∧
        y.k = a.k ∧ y.kvoid = a.kvoid ∧ y.pos = a.resume ∧ y.st = .ready ∧ y.v = x.settle.v ∧
        y.toff = (if x.trap.cause = .fpExc then x.trap.info.setWidth 5 else 0) ∧
        Tab.find u.blocks c.w.block = some b' ∧ b'.halt = none ∧
        ∀ j ∈ s.blockKeys c.w.block, j ≠ k → ∀ z, s.thread j = some z → z.st = .halted → ∃ z', u.thread j = some z' ∧
          if all = true then (z.wait = none → z'.st = .ready ∧ z'.pos = z.resume ∧ z'.v = z.v ∧ z'.k = z.k) else z' = z

/-! ### Clocks, holds and eras -/

/-- R162, R165: a REFERENCE_TICK counts the tick up unless it is held, and is due again a tick on, 60 cycles but under a power cap; a
SETTLED_UPDATE, 256 cycles apart, sets
SETTLED to the last stamp below the least logical tick (while no die is paused) and lets the SETTLE requests go that it has reached. R21:
PAUSE_EXPIRY makes a paused thread ready. -/
def ClocksRule : Prop :=
  (∀ s : State, ∃ u, exec .referenceTick s = .next u ∧ u.refTick = (if s.tickHeld = true then s.refTick else s.refTick + 1) ∧
    u.tickDue = s.tickDue + s.tickCycles ∧ (s.powerCap = false → s.tickCycles = 60) ∧ s.tickDue ≤ u.cycle ∧ u = { s with refTick := u.refTick, tickDue := u.tickDue, cycle := u.cycle }) ∧
  (∀ s : State, 1 ≤ s.refTick.toNat → ∃ u, exec .settledUpdate s = .next u ∧ s.settleDue ≤ u.cycle ∧ u.settleDue = s.settleDue + 256 ∧
    u = { s with settled := u.settled, settleDue := u.settleDue, reqs := u.reqs, cycle := u.cycle } ∧
    (s.pausedDies = [] → (∀ n, n < 192 → u.settled.toNat < s.sliceTick n * 65536) ∧
      ∃ n, n < 192 ∧ u.settled.toNat + 1 = s.sliceTick n * 65536) ∧
    (s.pausedDies ≠ [] → u.settled = s.settled) ∧
    (∀ r ∈ s.reqs, (∀ a, r.kind ≠ .settle a) → r ∈ u.reqs) ∧
    ∀ r ∈ s.reqs, ∀ a, r.kind = .settle a → r.stage = .sent →
      ∃ q ∈ u.reqs, q.id = r.id ∧ q.kind = r.kind ∧ q.stage = if s.tickHeld = true ∨ a.toNat ≤ u.settled.toNat then .served else .sent) ∧
  ∀ (s : State) (k : TKey) (x : Thread), s.thread k = some x → x.st = .paused → s.warpOff k.warp = false →
    ∃ u, exec (.pauseExpiry k) s = .next u ∧ x.pause ≤ u.cycle ∧ u.thread k = some { x with st := .ready, since := x.pause } ∧
      u = { s with cycle := u.cycle, warps := u.warps } ∧ WarpsKept s u ∧ ∀ j, j ≠ k → u.thread j = s.thread j

/-- R166, Table 18.7: TICKHOLD with bit 63 set freezes the tick at its lower bits while at most one partition is enabled, and is not taken while
more are; without bit 63 it ends a hold with the tick above every slice's. R173: a hold that stalls writes for 100 µs is cleared, the oldest live
entry of a full pool is reclaimed, with HORIZON raised to what superseded it, and the hold is said to be broken. R167: ERA_REBASE, when every
context is saved, starts ticks, stamps, floors and history anew and leaves memory. -/
def HoldsRule : Prop :=
  (∀ (s : State) (v : Dword), s.boot = .ready → natBits v.toNat 48 15 = 0 →
    ∃ u, exec (.tickholdWrite v) s = .next u ∧ u.mem = s.mem ∧ u.warps = s.warps ∧ u.parts = s.parts ∧
      (v.getLsbD 63 = true → s.enabled.length ≤ 1 → u.hold = v ∧ u.refTick = v.setWidth 48 ∧
        ∀ n, n < 192 → u.sliceTick n = max (s.sliceTick n) (v.toNat % 2 ^ 48) ∧ (u.slice n).last = (s.slice n).last) ∧
      (v.getLsbD 63 = true → 1 < s.enabled.length → u = { s with holdIgnored := true } ∧ u.tickholdRead.getLsbD 63 = false) ∧
      (v.getLsbD 63 = false → u.hold = v ∧ u.slices = s.slices ∧ (s.tickHeld = false → u.refTick = s.refTick) ∧
        (s.tickHeld = true → (∀ n, n < 192 → s.sliceTick n + 1 < 2 ^ 48) →
          (∀ n, n < 192 → s.sliceTick n < u.refTick.toNat) ∧ ∃ n, n < 192 ∧ u.refTick.toNat = s.sliceTick n + 1))) ∧
  (∀ (s : State) (part c : Nat), (s.part part).stallSince = some c →
    ∃ u, exec (.holdStallTimeout part) s = .next u ∧ c + s.stallCycles ≤ u.cycle ∧ u.out = s.out ++ [.holdBroken part] ∧
      u.part part = { s.part part with hold := 0, holdRead := 0, stallSince := none, horizon := (u.part part).horizon,
                                       pool := (u.part part).pool } ∧
      ((s.part part).live < (s.part part).cap → (u.part part).horizon = (s.part part).horizon ∧ (u.part part).pool = (s.part part).pool) ∧
      (∀ e, (s.part part).cap ≤ (s.part part).live → (s.part part).pool.find? (fun y => !y.freed) = some e →
        (u.part part).horizon = umax (s.part part).horizon e.later ∧ (∀ y ∈ (u.part part).pool, y.num = e.num → y.freed = true) ∧
        ∀ y ∈ (s.part part).pool, y.num ≠ e.num → y ∈ (u.part part).pool) ∧
      (∀ q, q ≠ part → u.part q = s.part q) ∧ u.mem = s.mem ∧ u.reqs = s.reqs ∧ u.warps = s.warps ∧ u.lineMeta = s.lineMeta) ∧
  ∀ s : State, (∀ b ∈ s.blocks, s.blockSaved b.1 = true) →
    ∃ u, exec .eraRebase s = .next u ∧ u.era = s.era + 1 ∧ u.refTick = 1 ∧ u.settled = 0 ∧ u.slices = [] ∧ u.lineMeta = [] ∧
      (∀ p ∈ u.parts, p.2.pool = [] ∧ p.2.horizon = 0x10000) ∧ (∀ w ∈ u.warps, w.2.floor = 0 ∧ w.2.fpend = []) ∧
      (∀ l ∈ u.launches, l.2.floor = 0) ∧ (∀ r ∈ u.reqs, r.floor = 0 ∧ r.raise = none ∧ r.kind = r.kind.unstamped) ∧
      (∀ m ∈ u.sends, m.floor = 0) ∧ (∀ v ∈ u.redVals, v.stamp = 0) ∧ u.mem = s.mem ∧ u.poison = s.poison ∧
      (∀ k, u.thread k = (s.thread k).map (fun x => { x with wrote := 0 })) ∧ u.out = s.out ++ s.enabled.map (fun p => Out.eraEvent p (s.era + 1))

/-! ### Walks and page queues -/

/-- R155, R215, R220, R223: a WALK_COMPLETE that bundles wait for ends as the tables have it: each leaf met has ACCESSED set unless the walk is
for parameter reads alone, nothing else of memory changes, and a translation found goes to the head of the TLBs of every core that waits, where
no invalidation has matched it meanwhile. R217: a released access that waits for it is sent, or its threads stop with the fatal cause of its
stage. -/
def WalkCompleteRule : Prop :=
  (∀ (s : State) (id : Nat) (w : Walk) (e : WalkEnd) (met : List Nat), s.walks.find? (fun y => y.id == id && y.done.isNone) = some w →
    w.waits ≠ [] → (∀ x ∈ w.waits, ∃ b, x = .bundle b ∧ ∃ y ∈ s.bundles, y.2.id = b) → s.mem.wf = true →
    (∀ r ∈ s.reqs, ∀ g, r.stage ≠ .walking g) → s.walkAll w.xlat w.va = (e, met) →
    ∃ u, exec (.walkComplete id) s = .next u ∧ (w.marks = true → ∀ m ∈ met, natBit (u.mem.nat m 8) 4 = true) ∧
      (w.marks = false → u.mem = s.mem ∧ u.slices = s.slices) ∧
      (∀ a, (∀ m ∈ met, a < m ∨ m + 8 ≤ a) → u.mem.byte a = s.mem.byte a) ∧
      (∃ y ∈ u.walks, y.id = id ∧ y.done = some e ∧ y.waits = w.waits) ∧
      (∀ x, e = .ok x → w.matched e = false → (w.marks = true ∨ s.leavesSeen met = true) →
        ∀ c ∈ s.walkCores w, (u.core c).tlb.head? = some x ∧ (u.ctlb c).head? = some x) ∧
      (((∀ x, e ≠ .ok x) ∨ w.matched e = true ∨ (w.marks = false ∧ s.leavesSeen met = false)) →
        u.cores = s.cores ∧ u.clusterTlb = s.clusterTlb) ∧
      (∀ q, (u.core q).scratch = (s.core q).scratch) ∧
      u.reqs = s.reqs ∧ u.warps = s.warps ∧ u.bundles = s.bundles ∧ u.queues = s.queues ∧ u.launches = s.launches) ∧
  ∀ (s : State) (id g : Nat) (w : Walk) (e : WalkEnd) (met : List Nat) (r : Req),
    s.walks.find? (fun y => y.id == id && y.done.isNone) = some w → (∀ y ∈ s.walks, y.id = id → y = w) → w.waits = [.request r.id] → w.drops = [] →
    r ∈ s.reqs → r.stage = .walking g → s.current r = true → (s.reqs.map Req.id).Nodup → (∀ y ∈ s.reqs, ∀ h, y.stage = .walking h → y = r) →
    (∀ y ∈ s.walks, y ≠ w → .request r.id ∉ y.waits) → s.reqRed r = false → r.secondPage = none → s.walkAll w.xlat w.va = (e, met) →
    ∃ u, exec (.walkComplete id) s = .next u ∧ (∀ y ∈ s.reqs, y.id ≠ r.id → y ∈ u.reqs) ∧
      (∀ k, (∀ p ∈ r.parts, p.thread ≠ k) → ∀ t, s.thread k = some t → ∃ z, u.thread k = some z ∧ z.v = t.v ∧ z.k = t.k ∧ z.trap = t.trap) ∧
      (∀ x, e = .ok x → (r.writes = false ∧ (∀ n st, r.kind ≠ .asof n st) ∨ r.writes = true ∧ x.attrs.write = true ∧ x.dirty = true) →
        (∃ q ∈ u.reqs, q.id = r.id ∧ q.tlb = some x ∧ q.pa = x.phys r.va.toNat ∧ q.kind = r.kind ∧ (q.stage = .sent ∨ q.stage = .served)) ∧
        ∀ p ∈ r.parts, ∀ t, s.thread p.thread = some t → ∃ z, u.thread p.thread = some z ∧ z.st ≠ .parked ∧ z.pos = t.pos ∧ z.wait = none) ∧
      ∀ s2, e = .fatal s2 → (∀ q ∈ u.reqs, q.id ≠ r.id) ∧ ∀ p ∈ r.parts, ∀ t, s.thread p.thread = some t → ∃ z, u.thread p.thread = some z ∧
        z.st = .halted ∧ z.trap.cause = (if s2 = true then .xlatS2Fatal else .xlatFatal) ∧ z.trap.addr = r.va ∧ z.trap.tpc = r.tpc

/-- R226, R227: a write of QBASE or QCFG of a queue with nothing outstanding restarts it; a write of REQ_HEAD posts a held request into the
room it makes, as the 32 bytes of Table 12.4 at the ring's tail under an ID that none outstanding has; a write of RSP_TAIL sets it. -/
def QueueWritesRule : Prop :=
  (∀ (s : State) (k : QKey) (r : QReg) (v : Dword), s.boot = .ready → (s.queue k).reqs = [] →
    ∃ u, exec (.queueConfigWrite k r v) s = .next u ∧ u.queue k = { s.queue k with
        base := (if r = .qbase then v else (s.queue k).base), cfg := (if r = .qcfg then v.setWidth 32 &&& 0x1F else (s.queue k).cfg),
        reqHead := 0, reqTail := 0, rspHead := 0, rspTail := 0, nextId := 0 } ∧
      (∀ j, j ≠ k → u.queue j = s.queue j) ∧ u.mem = s.mem ∧ u.warps = s.warps ∧ u.reqs = s.reqs) ∧
  (∀ (s : State) (k : QKey) (v : Word), s.boot = .ready →
    ∃ u, exec (.rspTailWrite k v) s = .next u ∧ u.queue k = { s.queue k with rspTail := v } ∧
      (∀ j, j ≠ k → u.queue j = s.queue j) ∧ u.mem = s.mem ∧ u.warps = s.warps ∧ u.reqs = s.reqs) ∧
  (∀ (s : State) (k : QKey) (v : Word), s.boot = .ready → (∀ y ∈ (s.queue k).reqs, y.id ≠ none) →
    ∃ u, exec (.reqHeadWrite k v) s = .next u ∧ u.queue k = { s.queue k with reqHead := v } ∧
      (∀ j, j ≠ k → u.queue j = s.queue j) ∧ u.mem = s.mem ∧ u.warps = s.warps ∧ u.reqs = s.reqs) ∧
  ∀ (s : State) (k : QKey) (v : Word) (q : PageQueue) (l : List PageReq) (r : PageReq), s.boot = .ready → q = s.queue k → q.reqs = l ++ [r] →
    (∀ y ∈ l, y.id ≠ none) → r.id = none → l.length < 65536 → q.disabled = false → (q.reqTail - v).toNat < q.entries → s.mem.wf = true →
    ∃ u id, exec (.reqHeadWrite k v) s = .next u ∧ (∀ y ∈ l, y.id ≠ some (BitVec.toNat id)) ∧
      u.mem.bytes (q.base.toNat + 32 * (q.reqTail.toNat % q.entries)) 32 = reqEntry k id r ∧
      (∀ a, a < q.base.toNat + 32 * (q.reqTail.toNat % q.entries) ∨ q.base.toNat + 32 * (q.reqTail.toNat % q.entries) + 32 ≤ a →
        u.mem.byte a = s.mem.byte a) ∧
      u.queue k = { q with reqHead := v, reqTail := q.reqTail + 1, nextId := (u.queue k).nextId,
                           reqs := l ++ [{ r with id := some (BitVec.toNat id) }] } ∧
      (l.length < 65535 → (u.queue k).nextId ≠ id ∧ ∀ y ∈ l, y.id ≠ some (BitVec.toNat (u.queue k).nextId)) ∧
      (∀ j, j ≠ k → u.queue j = s.queue j) ∧
      u.out = s.out ++ [.pageNotify k] ∧ u.warps = s.warps ∧ u.reqs = s.reqs

/-! ### Contexts -/

/-- What a save leaves of a context: it is off its lanes under the next generation, its threads stand at instruction boundaries with every
write in flight landed, its requests are kept, and the contents of its cores lie in the save area. -/
def SavedAs (s u : State) (n : Nat) (l : Launch) : Prop :=
  (Tab.find u.launches n = some { l with saved := true, back := [], gen := l.gen + 1, stopAt := none }) ∧
  (∀ c ∈ s.launchCores n, l.status ≠ .ended → (∀ e ∈ s.coreBlocks c, e.2.launch = n) → s.imageOf n c = none → (s.core c).mat = [] →
    (s.core c).waffle.queue = [] → ∃ i, u.imageOf n c = some i ∧ i.data.scratch = (s.core c).scratch ∧ i.data.tiles = (s.core c).tiles ∧
      i.data.tags = (s.core c).tags ∧ i.data.copy = (s.core c).copy) ∧
  (∀ e ∈ u.bundles, ∀ k ∈ e.2.threads, (Tab.find s.warps k.warp).map Warp.launch ≠ some n) ∧
  (∀ k w x, Tab.find s.warps k.warp = some w → w.launch = n → s.thread k = some x → ∃ y, u.thread k = some y ∧
    y.v = x.settle.v ∧ y.k = x.settle.k ∧ y.trap = x.trap ∧ y.link = x.link ∧ y.st ≠ .issuing ∧ y.pend = []) ∧
  (∀ r ∈ s.reqs, r.launch = n → r.kind ≠ .pref → r.stage = .sent → r ∈ u.reqs) ∧
  ((∀ e ∈ s.cores, e.2.mat = []) → u.mem = s.mem) ∧ ∀ m, m ≠ n → Tab.find u.launches m = Tab.find s.launches m

/-- R314 to R316: PREEMPT saves a resident context at once, unless a halt or a mirror store is on its way, or a thread of it is in handler
state: then it is deferred, for at most 20,000 cycles, when PREEMPT_DEFERRAL_TIMEOUT saves it with the handler under way. -/
def PreemptionRule : Prop :=
  ∀ (s : State) (n : Nat) (l : Launch), Tab.find s.launches n = some l → l.saved = false →
    (∀ w ∈ s.warps, w.2.launch = n → w.2.core / Config.coresPerCluster ∈ s.onClusters n) →
    ((s.halting n = true ∨ s.mirroring n = true ∨ (s.cycle < l.stopAt.getD (s.cycle + 20000) ∧
        ∃ k ∈ s.launchKeys n, ∃ x, s.thread k = some x ∧ x.inHandler = true)) →
      ∃ u, exec (.preempt n) s = .next u ∧ u.warps = s.warps ∧ u.bundles = s.bundles ∧ u.cores = s.cores ∧ u.mem = s.mem ∧ u.reqs = s.reqs ∧
        Tab.find u.launches n = some { l with stopAt := some (l.stopAt.getD (s.cycle + 20000)) }) ∧
    (s.halting n = false → s.mirroring n = false → s.longs = [] → s.bundles.Pairwise (fun a b => a.1 < b.1) →
      ((∀ k ∈ s.launchKeys n, ∀ x, s.thread k = some x → x.inHandler = false) → ∃ u, exec (.preempt n) s = .next u ∧ SavedAs s u n l) ∧
      ∀ c, l.stopAt = some c → ∃ u, exec (.preemptDeferralTimeout n) s = .next u ∧ c ≤ u.cycle ∧ SavedAs s u n l)

/-- R316, R318: CONTEXT_RESTORE puts a saved context back on those of its clusters that are free, under its generation: registers, scalar registers,
predicates, counters and FLOOR as they were saved, scratchpad, tiles, tag table and queues from its cores' images, and its requests replayed. R282,
R312: CONTEXT_DISCARD takes an ended context's launch, blocks, warps and requests away, and of any other context does nothing. -/
def RestoreAndDiscardRule : Prop :=
  (∀ (s : State) (n : Nat) (l : Launch), Tab.find s.launches n = some l → s.restoreMay n = true → l.heldResp = [] →
    (∀ m ∈ s.sends, m.launch = n → m.status = none) → (∀ c ∈ s.ckpts, c.launch = n → c.status = none) →
    ∃ u, exec (.contextRestore n) s = .next u ∧ u.mem = s.mem ∧ u.slices = s.slices ∧ u.parts = s.parts ∧ u.blocks = s.blocks ∧
      ((∀ c ∈ s.launchCores n, c / Config.coresPerCluster ∈ s.backTo n ∨ l.offAt c = false) →
        Tab.find u.launches n = some { l with saved := false, back := [] }) ∧
      ((∃ c ∈ s.launchCores n, c / Config.coresPerCluster ∉ s.backTo n ∧ l.offAt c = true) →
        Tab.find u.launches n = some { l with saved := true, back := l.back ++ s.backTo n }) ∧
      (∀ m, m ≠ n → Tab.find u.launches m = Tab.find s.launches m) ∧
      (∀ k w x, Tab.find s.warps k.warp = some w → w.launch = n → s.thread k = some x → ∃ w' y, Tab.find u.warps k.warp = some w' ∧
        w'.s = w.s ∧ w'.preds = w.preds ∧ w'.ctr = w.ctr ∧ w'.floor = w.floor ∧ w'.core = w.core ∧ w'.lane = w.lane ∧
        u.thread k = some y ∧ y.v = x.v ∧ y.k = x.k ∧ y.kvoid = x.kvoid ∧ y.lat = x.lat ∧ y.trap = x.trap ∧ y.link = x.link ∧ y.pos = x.pos ∧
        y.flags = x.flags) ∧
      (∀ c ∈ s.launchCores n, c / Config.coresPerCluster ∈ s.backTo n → ∀ i, s.imageOf n c = some i → (u.core c).scratch = i.data.scratch ∧
        (u.core c).tiles = i.data.tiles ∧ (u.core c).tags = i.data.tags ∧ (u.core c).copy.queue = i.data.copy.queue ∧
        (u.core c).mat = i.data.mat ∧ (u.core c).waffle = i.data.waffle ∧ (u.core c).locks = i.data.locks) ∧
      (∀ c, c ∉ s.launchCores n → u.core c = s.core c) ∧
      (∀ r ∈ s.reqs, r.launch = n → r.core / Config.coresPerCluster ∈ s.backTo n →
        ∃ q ∈ u.reqs, q.id = r.id ∧ q.gen = l.gen ∧ (∀ a, r.kind ≠ .settle a → q.kind = r.kind) ∧ q.va = r.va ∧ q.parts = r.parts) ∧
      ∀ r ∈ s.reqs, r.launch ≠ n → (∀ a, r.kind ≠ .settle a) → r ∈ u.reqs) ∧
  ∀ (s : State) (n : Nat) (l : Launch), s.boot = .ready → Tab.find s.launches n = some l →
    (l.status ≠ .ended → exec (.contextDiscard n) s = .next s) ∧
    (l.status = .ended → ∃ u, exec (.contextDiscard n) s = .next u ∧ Tab.find u.launches n = none ∧ u.mem = s.mem ∧
      (∀ w, w ∈ u.warps ↔ w ∈ s.warps ∧ w.2.launch ≠ n) ∧ (∀ b, b ∈ u.blocks ↔ b ∈ s.blocks ∧ b.2.launch ≠ n) ∧
      (∀ g, g ∈ u.groups ↔ g ∈ s.groups ∧ g.2.launch ≠ n) ∧ ∀ r, r ∈ u.reqs ↔ r ∈ s.reqs ∧ r.launch ≠ n)

/-! ### Messages and arms -/

/-- A launch stands under number `n`, fired by an arm from the 256 bytes of its record (R255), with the token of the ring entry that it holds. -/
def FiredAs (u : State) (n : Nat) (l : List Byte) (a : Arm) (x : Xlat) (pay : Dword) (len : Nat) (ring : Option Nat) (floor : Dword) : Prop :=
  ∃ y, Tab.find u.launches n = some y ∧ y.rcd = recordOf l ∧ y.recAddr = a.launch ∧ y.payAddr = pay ∧ y.payLen = len ∧ y.tag = a.tag ∧
    y.floor = floor ∧ y.prio = max a.prio y.rcd.prio ∧ y.status = .pending ∧ y.saved = false ∧ y.nextBlock = 0 ∧ y.retired = 0 ∧
    y.xlat = x ∧ y.ring = ring ∧ y.priv = false

/-- No arm, in hardware or software, of a partition takes a tag. -/
def Unarmed (p : Partition) (tag : Word) : Prop :=
  p.arms.find? (fun e => e.2.armed && e.2.tag == tag) = none ∧ ∀ y ∈ p.soft, y.tag ≠ tag

/-- A message put off at the front end: it comes again, with its place in the arrival order. -/
def PutOff (u : State) (part : Nat) (m : Msg) (interval delay : Nat) (late : Option Nat) : State :=
  { u with uid := u.uid + 1, retries := u.retries ++
      [{ id := u.uid, part := part, msg := m, interval := interval, late := late, due := u.cycle + delay }] }

/-! ### The engines at work -/

/-- Byte ranges of one scratchpad that do not meet. -/
def Disjoint4 (a n b m c p d q : Nat) : Prop :=
  overlap a n b m = false ∧ overlap a n c p = false ∧ overlap a n d q = false ∧ overlap b m c p = false ∧ overlap b m d q = false ∧
    overlap c p d q = false

/-! ### Partitions, the platform, and the outside -/

/-- The count that a counter of a table reads. -/
def countIn (t : Tab Word) (n : Nat) : Nat := ((Tab.find t n).getD 0).toNat

/-! ### The machine as a whole -/

/-- Memory is in canonical form: addresses rising, and no byte listed that an unlisted address reads as. -/
def MemoryCanonical (s : State) : Prop := s.mem.wf = true

/-- Whether a form of an immediate supplies the constant: what the machine reads of its literals, and for MOVI of imm14, in the reading of the
word's B, is the constant's bits. -/
def Supplies (k : ImmK) (f : Asm.ImmForm) (c : Dword) : Prop :=
  match k, f.hi, f.im with
  | .i32, none, some p => bI32 (.imm p) = .imm [c.setWidth 32]
  | .f32, none, some p => bF32 (.imm p) = .imm [c.setWidth 32]
  | .i64, none, some p => bI64 (.imm p) = .imm (Dword.words c)
  | .i64, some h, some p => bI64 (.imm2 h p) = .imm (Dword.words c)
  | .off, none, some p => bOff (.imm p) = .imm (Dword.words c)
  | .off, some h, some p => bOff (.imm2 h p) = .imm (Dword.words c)
  | .f64, none, some p => bF64 (.imm p) = .imm (Dword.words c)
  | .f64, some h, some p => bF64 (.imm2 h p) = .imm (Dword.words c)
  | .movi, none, p => moviValue f.imm14 p = c.setWidth 32
  | _, _, _ => False

/-- Whether a constant is one of the patterns of a word's B: any where B is 64 bits wide, else one of 32 bits, signed or unsigned. -/
def Patterned (k : ImmK) (c : Dword) : Prop :=
  match k with
  | .i32 | .f32 | .movi => Asm.fits32 c = true
  | _ => True

end Sys2Proof

/-! ### The statements -/

section Statements

open Sys2Proof Sys2Proof.Machine

/-- LogicAndShiftsRule (R130) and MinMaxAndBitsRule (Table 7.2, R145, R147). -/
def Obligations.LogicShiftsAndBits : Prop := LogicAndShiftsRule ∧ MinMaxAndBitsRule

/-- IntegerArithmeticRule (R128, R129, Table 7.2, R145) and IntegerComparesRule (R131, R339, Table 7.3). -/
def Obligations.IntegerWords : Prop := IntegerArithmeticRule ∧ IntegerComparesRule

/-- R135: MOV is GEN OP 20, of a destination D, a source A and z, any other B raising ILLEGAL_OPERAND, and delivers A. R136: MOVI is GEN OP 21 of D
and imm14; it delivers sext32(imm14), or with one IMM literal before it the payload above imm14[7:0], the rest of imm14 being zero; K has
no effect on it. -/
def Obligations.Moves : Prop :=
  (∀ (h : Hd) (d a : Sel), dstOk d.bits = true →
    decodeWord (DecCtx.open .gen) [] (laidOut h 20 d.bits a.bits 70) = .ok (.mov { h := h, am := none, d := d, a := a })) ∧
  (∀ (h : Hd) (d a : Sel) (b : BitVec 7), b ≠ 70 →
    ∃ f, decodeWord (DecCtx.open .gen) [] (laidOut h 20 d.bits a.bits b) = .error f ∧ f.cause = .operand) ∧
  (∀ t : Duo, VectorWord (.mov t) (Duo.word t 1 1 4) (gives32 (fun a _ _ => a))) ∧
  (∀ (h : Hd) (d : Sel) (x y : BitVec 7), dstOk d.bits = true →
    decodeWord (DecCtx.open .gen) [] (laidOut h 21 d.bits x y) = .ok (.movi { h := h, am := none, d := d, imm14 := x ++ y, lit := none }) ∧
    ∀ p : BitVec 24,
      ((x ++ y : BitVec 14).extractLsb' 8 6 = 0 → decodeWord (DecCtx.open .gen) [0x1F#5 ++ 0#3 ++ p] (laidOut h 21 d.bits x y) =
        .ok (.movi { h := h, am := none, d := d, imm14 := x ++ y, lit := some p })) ∧
      ((x ++ y : BitVec 14).extractLsb' 8 6 ≠ 0 →
        ∃ f, decodeWord (DecCtx.open .gen) [0x1F#5 ++ 0#3 ++ p] (laidOut h 21 d.bits x y) = .error f ∧ f.cause = .literal)) ∧
  ∀ t : MovI,
    VectorWord (.movi t)
      { h := t.h, am := t.am, a := .none,
        b := .imm [match t.lit with
          | none => t.imm14.signExtend 32
          | some p => (p.setWidth 32 <<< 8) ||| (t.imm14 &&& 0xFF).setWidth 32],
        c := .none, cfld := 2, d := some (t.d, 1), pred := none, lat := 4, shifts := true }
      (gives32 (fun _ b _ => b))

/-- Binary32WordsRule (R141, R142, R118, R146, Table 6.7, R105) and Conversions32Rule (R147, R148). -/
def Obligations.Binary32AndConversions : Prop := Binary32WordsRule ∧ Conversions32Rule

/-- R339: the 64-bit integer and address words: LMOV; LADD, LSUB, LMUL and LNEG, which SAT clamps; the high halves of products; logic; shifts
by B mod 128, where a count of 64 or more gives 0, or copies of the sign; the least and the greatest; and the addresses A + B, A + 4B
and A + 8B. -/
def Obligations.LongIntegers : Prop :=
  (∀ t : Tri,
    VectorWord (.ladd t) (Tri.wide t (bI64 t.b) 4 .none 2) (givesSat64 t.am (fun a b => a + b) (fun a b => a + b)) ∧
    VectorWord (.lsub t) (Tri.wide t (bI64 t.b) 4 .none 2) (givesSat64 t.am (fun a b => a - b) (fun a b => a - b)) ∧
    VectorWord (.lmul t) (Tri.wide t (bI64 t.b) 8 .none 2) (givesSat64 t.am (fun a b => a * b) (fun a b => a * b)) ∧
    VectorWord (.lmulh t) (Tri.wide t (bI64 t.b) 8 .none 2)
      (gives64 (fun a b => ((a.signExtend 128 * b.signExtend 128) >>> 64).setWidth 64)) ∧
    VectorWord (.lmulhn t) (Tri.wide t (bI64 t.b) 8 .none 2)
      (gives64 (fun a b => ((a.setWidth 128 * b.setWidth 128) >>> 64).setWidth 64)) ∧
    VectorWord (.land t) (Tri.wide t (bI64 t.b) 4 .none 2) (gives64 (fun a b => a &&& b)) ∧
    VectorWord (.lor t) (Tri.wide t (bI64 t.b) 4 .none 2) (gives64 (fun a b => a ||| b)) ∧
    VectorWord (.lxor t) (Tri.wide t (bI64 t.b) 4 .none 2) (gives64 (fun a b => a ^^^ b)) ∧
    VectorWord (.lshl t) (Tri.wide t (bI32 t.b) 4 .none 2)
      (gives64 (fun a b => if b.toNat % 128 < 64 then a <<< (b.toNat % 128) else 0)) ∧
    VectorWord (.lshr t) (Tri.wide t (bI32 t.b) 4 .none 2)
      (gives64 (fun a b => if b.toNat % 128 < 64 then a >>> (b.toNat % 128) else 0)) ∧
    VectorWord (.lsar t) (Tri.wide t (bI32 t.b) 4 .none 2)
      (gives64 (fun a b => if b.toNat % 128 < 64 then a.sshiftRight (b.toNat % 128) else if a.msb then 0xFFFFFFFFFFFFFFFF else 0))) ∧
  (∀ t : Tri,
    VectorWord (.lmin t) (Tri.wide t (bI64 t.b) 4 .none 2) (gives64 (fun a b => BitVec.ofInt 64 (min a.toInt b.toInt))) ∧
    VectorWord (.lmax t) (Tri.wide t (bI64 t.b) 4 .none 2) (gives64 (fun a b => BitVec.ofInt 64 (max a.toInt b.toInt))) ∧
    VectorWord (.lea t) (Tri.wide t (bOff t.b) 8 .none 2) (fun _ a b _ => (Dword.words (dwordOf a + offsetOf b), 0)) ∧
    VectorWord (.lea4 t) (Tri.wide t (bOff t.b) 8 .none 2) (fun _ a b _ => (Dword.words (dwordOf a + 4 * offsetOf b), 0)) ∧
    VectorWord (.lea8 t) (Tri.wide t (bOff t.b) 8 .none 2) (fun _ a b _ => (Dword.words (dwordOf a + 8 * offsetOf b), 0))) ∧
  ∀ t : Duo,
    VectorWord (.lmov t) (Duo.word t 2 2 4) (gives64 (fun a _ => a)) ∧
    VectorWord (.lneg t) (Duo.word t 2 2 4) (givesSat64 t.am (fun a _ => -a) (fun a _ => -a)) ∧
    VectorWord (.lpopc t) (Duo.word t 2 1 4) (fun _ a _ _ =>
      ([BitVec.ofNat 32 ((List.range 64).filter (fun i => (dwordOf a).getLsbD i)).length], 0)) ∧
    VectorWord (.lclz t) (Duo.word t 2 1 4) (fun _ a _ _ =>
      ([BitVec.ofNat 32 ((List.range 64).takeWhile (fun i => !(dwordOf a).getMsbD i)).length], 0))

/-- Binary64WordsRule (R336, R337, R340) and WideConversionsRule (R341). -/
def Obligations.Binary64AndConversions : Prop := Binary64WordsRule ∧ WideConversionsRule

/-- PackedFloatsRule (R343, R344) and PackedIntegersAndConversionsRule (R344, R345, R346). -/
def Obligations.PackedWords : Prop := PackedFloatsRule ∧ PackedIntegersAndConversionsRule

/-- R342: RDFX and RDRM write FLAGS, with the flags of long operations due by the thread's slot, and RMODE to D; CLRFX clears and SETFX sets the
flags of its mask, and SETRM the mode of its code, and D takes the value that results. -/
def Obligations.FlagsAndRounding : Prop :=
  (∀ t : FxD, FlagWord (.rdfx t) t.h t.d (fun u => (u, u.flags.setWidth 32))) ∧
  (∀ t : FxM, FlagWord (.clrfx t) t.h t.d (fun u =>
    ({ u with flags := u.flags &&& ~~~ t.mask }, (u.flags &&& ~~~ t.mask).setWidth 32))) ∧
  (∀ t : FxM, FlagWord (.setfx t) t.h t.d (fun u => ({ u with flags := u.flags ||| t.mask }, (u.flags ||| t.mask).setWidth 32))) ∧
  (∀ t : FxD, FlagWord (.rdrm t) t.h t.d (fun u => (u, u.rmode.setWidth 32))) ∧
  ∀ t : FxR, FlagWord (.setrm t) t.h t.d (fun u => ({ u with rmode := t.rm.bits }, t.rm.bits.setWidth 32))

/-- SelWordRule (R134) and ShflWordRule (R137, R139). -/
def Obligations.SelectAndShuffle : Prop := SelWordRule ∧ ShflWordRule

/-- R140: VOTE.ANY gives 1 when some participant's bit is set, VOTE.ALL when every one's is, and VOTE.BALLOT the slots whose bits are
set, as bits. -/
def Obligations.Votes : Prop :=
  ∀ t : VoteW,
    VoteWord (.voteAny t) t (fun l => if ∃ d ∈ l, bitSet t d = true then 1 else 0) ∧
    VoteWord (.voteAll t) t (fun l => if ∀ d ∈ l, bitSet t d = true then 1 else 0) ∧
    VoteWord (.voteBallot t) t (fun l =>
      ((l.filter (fun d => bitSet t d)).map (fun d => BitVec.ofNat 32 (1 <<< d.key.slot))).foldl (· ||| ·) 0)

/-- R281: ELECT is CTL OP 17 with condition 0, N in D[3:0] and A and B z. In each executing thread it sets bit N true when the thread is the
lowest-numbered executing slot of its warp in the pass, and false otherwise; a thread whose guard fails keeps its bit. -/
def Obligations.Elect : Prop :=
  (∀ (h : Hd) (n : Fin 12), decodeWord (DecCtx.open .ctl) [] (laidOut h 17 (0#3 ++ BitVec.ofNat 4 n) 70 70) = .ok (.elect { h := h, p := n })) ∧
  (∀ (h : Hd) (n : Fin 12) (cond : BitVec 3) (a b : BitVec 7), ¬ (cond = 0 ∧ a = 70 ∧ b = 70) →
    ∃ f, decodeWord (DecCtx.open .ctl) [] (laidOut h 17 (cond ++ BitVec.ofNat 4 n) a b) = .error f ∧ f.cause = .operand) ∧
  ∀ (t : PW) (s : State) (p : Pass), s.Due [] p → (∀ c ∈ p.ctxs s, ∃ b, c.guard t.h.guard = .ok b) →
    p.keys.Pairwise (fun a b => a.warp = b.warp → a.slot < b.slot) →
    ∃ u, exec (.elect t) s = .next u ∧ Undisturbed p s u ∧ HusksKept s u ∧
      (∀ c ∈ p.ctxs s, ∃ y, u.thread c.key = some y ∧ (WentOn p.after c.th y ∨ WentOn p.after { c.th with toff := 0 } y)) ∧
      (∀ c ∈ p.executing s t.h,
        ((∀ d ∈ p.executing s t.h, d.key.warp = c.key.warp → c.key.slot ≤ d.key.slot) → PredGets u p c.key t.p true (c.slot + 4)) ∧
        ((∃ d ∈ p.executing s t.h, d.key.warp = c.key.warp ∧ d.key.slot < c.key.slot) → PredGets u p c.key t.p false (c.slot + 4))) ∧
      ∀ c ∈ p.ctxs s, c.guard t.h.guard = .ok false → ∀ w w', Tab.find s.warps c.key.warp = some w → Tab.find u.warps c.key.warp = some w' →
        ∀ n bundle cyc, (w'.pget n bundle cyc).getLsbD c.key.slot = (w.pget n bundle cyc).getLsbD c.key.slot

/-- LongOperationsRule (R143, R144, R338) and LongOpResultRule (R144, R112). Where it rests on log entry 8 it is the model's choice, and no rule of
the spec. -/
def Obligations.LongOperationsAndResults : Prop := LongOperationsRule ∧ LongOpResultRule

/-- TransfersRule (R269, R270) and TransferFaultsRule (R270). -/
def Obligations.TransfersAndTheirFaults : Prop := TransfersRule ∧ TransferFaultsRule

/-- R284: NOP is CTL OP 21 with D, A and B z; it occupies one pass and changes nothing: its threads go on at the next word, and the bundle's next
word, or its port, is due when the pass is over. -/
def Obligations.NopWord : Prop :=
  (∀ h : Hd, decodeWord (DecCtx.open .ctl) [] (laidOut h 21 70 70 70) = .ok (.nop { h := h })) ∧
  (∀ (h : Hd) (d a b : BitVec 7), ¬ (d = 70 ∧ a = 70 ∧ b = 70) →
    ∃ f, decodeWord (DecCtx.open .ctl) [] (laidOut h 21 d a b) = .error f ∧ f.cause = .operand) ∧
  (∀ t : HdW, ThreadWord (.nop t) t.h .none .none (fun _ _ _ => True) (fun c _ _ => c.th) false) ∧
  ∀ (t : HdW) (s : State) (p : Pass), s.Due [] p → (∀ c ∈ p.ctxs s, ∃ b, c.guard t.h.guard = .ok b) → (∃ b, Tab.find s.bundles p.port = some b) →
    (∀ k ∈ p.keys, ∃ y, s.thread k = some y ∧ y.st = .issuing) →
    ∃ u, exec (.nop t) s = .next u ∧ ((Tab.find u.bundles p.port).map Bundle.next = some (p.stop + p.stepAfter) ∨
      (Tab.find u.bundles p.port = none ∧ Tab.find u.portFree p.port = some (p.stop + p.stepAfter)))

/-- R44, R275, R277, R278, R280: PAUSE voids the k slots and sets the cycle before which the thread does not go on,
at most 65,535 on; KILL makes the registers it names void; SETX sets VIX to A + B; SWRITE of FLAGS, RMODE, VIX and LINK writes the low
bits of A there. Each applies its K mark after its reads. -/
def Obligations.ThreadWords : Prop :=
  (∀ t : WB, ThreadWord (.pause t) t.h .none (bI32 t.b) (fun _ _ _ => True) (fun c _ y =>
    { c.th with kvoid := 0xF, pause := if (w0 y).toNat = 0 then c.th.pause else c.slot + min (w0 y).toNat 65535 }) false) ∧
  (∀ t : KillW, ThreadWord (.kill t) { t.h with k := false } .none .none
    (fun c _ _ => ∀ l ∈ killLoc t.d ++ killLoc t.a ++ killLoc t.b, ¬ (32 ≤ l ∧ l < 64 ∧ c.w.ext = false))
    (fun c _ _ => (killLoc t.d ++ killLoc t.a ++ killLoc t.b).foldl (fun y l => y.setVoid l true) c.th) false) ∧
  (∀ t : WAB, ThreadWord (.setx t) t.h (.sel t.a 1) (bI32 t.b) (fun _ _ _ => True) (fun c x y => { c.th with vix := w0 x + w0 y }) false) ∧
  ∀ t : SWriteW, t.r ≠ .floor →
    ThreadWord (.swrite t) t.h (.sel t.a (WReg.words t.r)) .none (fun _ _ _ => True) (fun c x _ =>
      match t.r with
      | .flags => { c.th with flags := (w0 x).setWidth 5 }
      | .rmode => { c.th with rmode := (w0 x).setWidth 2 }
      | .vix => { c.th with vix := w0 x }
      | .link => { c.th with link := dwordOf x }
      | .floor => c.th) (t.r == .flags)

/-- R279, R306: SREAD writes to D the special register as it stands at the thread's slot, FLAGS with the flags of long operations due by then, and
SLOTRD the format slot of the launch. -/
def Obligations.RegisterReads : Prop :=
  (∀ t : SReadW, t.r = .flags → FlagWord (.sread t) t.h t.d (fun u => (u, u.flags.setWidth 32))) ∧
  (∀ (t : SReadW) (s : State) (p : Pass), t.r ≠ .flags → s.Due [] p →
    let v : VWord := { h := t.h, am := none, a := .none, b := .none, c := .none, cfld := 2,
                       d := some (t.d, if SReg.pair t.r then 2 else 1), pred := none, lat := 4, shifts := true }
    (∀ c ∈ p.ctxs s, c.Completes v (fun c _ _ _ => (s.special c t.r, 0))) →
    ∃ u, exec (.sread t) s = .next u ∧ Undisturbed p s u ∧ WarpsKept s u ∧
      ∀ c ∈ p.ctxs s,
        (c.guard t.h.guard = .ok false → ∃ y, u.thread c.key = some y ∧ WentOn p.after (c.skipped v) y) ∧
        ∀ locs, c.guard t.h.guard = .ok true → c.dest v.d = .ok locs →
          ∃ y, u.thread c.key = some y ∧ c.Wrote v locs (s.special c t.r, 0) (c.slot + 4) y) ∧
  (∀ t : FsD, VectorWord (.slotrd t) (ownWord t.h .none .none (some (t.d, 2)) 4 false)
    (fun c _ _ _ => (Dword.words (c.p.rcd.slots.getD t.s.val 0), 0)))

/-- R283: TRAP and BKPT stop each thread that executes them, with TCAUSE, TINFO and TPC written; the first of them raises its block's halt, in
the cycle of its slot, when the launch has a handler; the other threads of the pass stop after the word with TCAUSE = HALTED. -/
def Obligations.SoftwareTraps : Prop :=
  let taken := fun (i : Instr) (h : Hd) (cause : Cause) (info : Word) =>
    ∀ (s : State) (p : Pass), s.Due [] p → (∀ c ∈ p.ctxs s, ∃ b, c.guard h.guard = .ok b) →
      ∀ c0 l b, (p.executing s h).head? = some c0 → s.launchOf c0.key.warp = some l → Tab.find s.blocks c0.w.block = some b →
        (if l.priv then l.ptvec else l.rcd.trap) ≠ 0 → (∀ c ∈ p.executing s h, c.th.handler = false ∧ c.w.launch = c0.w.launch) → b.halt = none →
        ∃ u, exec i s = .next u ∧
          (∀ c ∈ p.executing s h, ∃ y, u.thread c.key = some y ∧ y.st = .halted ∧ y.trap.cause = cause ∧ y.trap.info = info ∧
            y.trap.tpc = p.tpc ∧ y.issued = c.th.issued + 1) ∧
          (∀ c ∈ p.ctxs s, c.guard h.guard = .ok false → c.th.st = .issuing →
            ∃ y, u.thread c.key = some y ∧ y.st = .halted ∧ y.trap.cause = .halted ∧ y.pos = p.after) ∧
          (∃ b', Tab.find u.blocks c0.w.block = some b' ∧ b'.halt = some { raised := c0.slot, reached := [], thread := c0.key }) ∧
          u.mem = s.mem
  (∀ t : TrapW, taken (.trap t) t.h .userTrap (BitVec.ofNat 32 t.code.toNat)) ∧ ∀ t : HdW, taken (.bkpt t) t.h .breakpoint 0

/-- ScalarWordsRule (R285, R286, R288) and ScalarCompareAndVtosRule (R287, R290). Where it rests on log entry 18 it is the model's choice, and no
rule of the spec. -/
def Obligations.ScalarUnit : Prop := ScalarWordsRule ∧ ScalarCompareAndVtosRule

/-- R210, R280: a write of FLOOR by SWRITE raises each warp's FLOOR to the greatest A of its executing threads when that is the greater, for
the writing bundle at once; FLOORUP raises it in pass order, and writes to D of each thread the FLOOR that results there. -/
def Obligations.FloorWords : Prop :=
  (∀ (t : SWriteW) (s : State) (p : Pass), t.r = .floor → s.Due [.sel t.a 2] p →
    (∀ c ∈ p.ctxs s, c.guard t.h.guard = .ok false ∨ (c.guard t.h.guard = .ok true ∧ ∃ x, c.read 0 (.sel t.a 2) = .ok x)) →
      ∃ u, exec (.swrite t) s = .next u ∧ Undisturbed p s u ∧ FloorsRaised s u p t.h (.sel t.a 2) ∧
        ∀ c ∈ p.ctxs s,
          (c.guard t.h.guard = .ok false → ∃ y, u.thread c.key = some y ∧ WentOn p.after c.th y) ∧
          (c.guard t.h.guard = .ok true →
            ∃ y, u.thread c.key = some y ∧ WentOn p.after (c.mark t.h (.sel t.a 2) c.unsuppressed.th) y)) ∧
  ∀ (t : WDA) (s : State) (p : Pass), s.Due [.sel t.a 2] p →
    (∀ c ∈ p.ctxs s, c.guard t.h.guard = .ok false ∨ (c.guard t.h.guard = .ok true ∧ (∃ x, c.read 0 (.sel t.a 2) = .ok x) ∧
      ∃ locs, c.dest (some (t.d, 2)) = .ok locs ∧ c.writeCheck locs = none)) →
      ∃ u, exec (.floorup t) s = .next u ∧ Undisturbed p s u ∧ FloorsRaised s u p t.h (.sel t.a 2) ∧
        ∀ c ∈ p.ctxs s,
          (c.guard t.h.guard = .ok false → ∃ y, u.thread c.key = some y ∧ WentOn p.after c.th y) ∧
          ∀ locs, c.guard t.h.guard = .ok true → c.dest (some (t.d, 2)) = .ok locs →
            ∃ y, u.thread c.key = some y ∧
              c.Wrote (quietWord t.h (.sel t.a 2) .none (some (t.d, 2))) locs
                (Dword.words (((p.executing s t.h).filter (fun d => d.key.warp == c.key.warp && decide (d.j ≤ c.j))).foldl
                  (fun f d => umax f (d.value64 (.sel t.a 2))) (c.w.floorFor p.bundle c.slot)), 0) (c.slot + 4) y

/-- BarrierArrivalRule (R273) and BarrierWaitRule (R267, R273). Where it rests on log entry 27 it is the model's choice, and no rule of the spec. -/
def Obligations.BarrierWords : Prop := BarrierArrivalRule ∧ BarrierWaitRule

/-- R28, R29, R274: BARRIER_PHASE_COMPLETE, once every member of a barrier has arrived and its latency has passed, starts the next phase, raises
FLOOR of every warp that arrived to the greatest of theirs, and frees the members that wait, their k slots void and their arrivals
spent; a thread that waits on nothing keeps its registers. -/
def Obligations.BarrierPhase : Prop :=
  ∀ (s : State) (k : BarKey) (last : Nat), (s.bar k).last = some last → s.barReady k = true → s.barHere k = true →
    ∃ u, exec (.barrierPhaseComplete k) s = .next u ∧ u.cycle = max s.cycle (last + barLatency k.level) ∧ u.mem = s.mem ∧
      u.reqs = s.reqs ∧ u.parts = s.parts ∧ u.bar k = { phase := (s.bar k).phase + 1, last := none } ∧
      (∀ m ∈ s.barMembers k, ∀ x, s.thread m = some x → x.wait = some (.barrier k.level (barNum k) (s.bar k).phase) →
        ∃ y, u.thread m = some y ∧ y.wait = none ∧ y.kvoid = 0xF ∧ y.arrivedAt k = none ∧ y.pos = x.pos ∧
          y.st = (if x.pos.word = 0 && decide (u.cycle ≤ x.pause) then .paused else .ready)) ∧
      (∀ m x, s.thread m = some x → x.wait = none → u.thread m = some x) ∧
      ∀ m ∈ s.barMembers k, ∀ n ∈ s.barMembers k, ∀ x z, s.thread m = some x → x.counts k (s.bar k).phase = true →
        s.thread n = some z → z.counts k (s.bar k).phase = true →
        ∀ w w', Tab.find s.warps m.warp = some w → Tab.find u.warps n.warp = some w' → w.floorAll.toNat ≤ w'.floorAll.toNat

/-- R40, R276, Table 3.2: REGACQ by a warp without the extended block gives it one when the lane has one free and none is queued, voiding its k
slots and v32 to v63, and else queues the warp, its executing threads waiting; REGTRY says in predicate N whether the warp has, or has
just been given, a block; REGREL gives the block up. -/
def Obligations.ExtendedBlock : Prop :=
  (∀ (t : HdW) (s : State) (p : Pass) (n : Nat) (w : Warp), WholeWarp s p t.h n w → (∀ c ∈ p.executing s t.h, c.th.handler = false) →
    w.ext = false →
    ∃ u w', exec (.regacq t) s = .next u ∧ u.outside = s.outside ∧ (∀ m, m ≠ n → Tab.find u.warps m = Tab.find s.warps m) ∧ Tab.find u.warps n = some w' ∧
      (s.extFree w = true → w'.ext = true ∧ w'.acqAt = none ∧ ∀ c ∈ p.executing s t.h, ∃ y, u.thread c.key = some y ∧ y.kvoid = 0xF ∧
        ∀ l, 32 ≤ l → l < 64 → y.isVoid l = true) ∧
      (s.extFree w = false → w'.ext = false ∧ w'.acqAt.isSome = true ∧
        ∀ c ∈ p.executing s t.h, ∃ y, u.thread c.key = some y ∧ y.st = .waiting ∧ y.wait = some .regacq ∧ y.kvoid = 0xF ∧ y.pos = p.after)) ∧
  (∀ (t : PW) (s : State) (p : Pass) (n : Nat) (w : Warp), WholeWarp s p t.h n w →
    ∃ u w', exec (.regtry t) s = .next u ∧ u.outside = s.outside ∧ (∀ m, m ≠ n → Tab.find u.warps m = Tab.find s.warps m) ∧
      Tab.find u.warps n = some w' ∧ w'.ext = (w.ext || s.extFree w) ∧ (w.ext = true → AllWent s u p) ∧
      ∀ c ∈ p.executing s t.h, PredGets u p c.key t.p (w.ext || s.extFree w) (c.slot + 4)) ∧
  ∀ (t : HdW) (s : State) (p : Pass) (n : Nat) (w : Warp), WholeWarp s p t.h n w → w.ext = true → w.acqAt = none →
    ∃ u w', exec (.regrel t) s = .next u ∧ u.outside = s.outside ∧ Tab.find u.warps n = some w' ∧ w'.ext = false ∧
      ∀ c ∈ p.executing s t.h, ∃ y, u.thread c.key = some y ∧ y.kvoid = 0xF ∧ (∀ e ∈ y.pend, e.loc < 32 ∨ 64 ≤ e.loc) ∧
        ∀ e ∈ y.async, e.loc < 32 ∨ 64 ≤ e.loc

/-- ExitWordRule (R271, R272) and AssertWordRule (R282). Where it rests on log entry 19 it is the model's choice, and no rule of the spec. -/
def Obligations.ExitAndAssert : Prop := ExitWordRule ∧ AssertWordRule

/-- R195, R197, R199, R200, R202, R203, R205, R209: the loads, stores, stamped stores, as-of loads and atomics, and LSTAMP, each with the width,
extension, operands and class of Tables 10.1, 10.3 and 10.4. Where it rests on log entry 8 it is the model's choice, and no rule of the spec. -/
def Obligations.MemoryWords : Prop :=
  (∀ t : MemW,
    MemoryWord (.ldb t) (MemW.load t 1 false 1) ∧ MemoryWord (.ldbs t) (MemW.load t 1 true 1) ∧
    MemoryWord (.ldh t) (MemW.load t 2 false 1) ∧ MemoryWord (.ldhs t) (MemW.load t 2 true 1) ∧
    MemoryWord (.ldw t) (MemW.load t 4 false 1) ∧ MemoryWord (.ldd t) (MemW.load t 8 false 2) ∧
    MemoryWord (.ldq t) (MemW.load t 16 false 4) ∧
    MemoryWord (.stb t) (MemW.store t 1 1) ∧ MemoryWord (.sth t) (MemW.store t 2 1) ∧ MemoryWord (.stw t) (MemW.store t 4 1) ∧
    MemoryWord (.std t) (MemW.store t 8 2) ∧ MemoryWord (.stq t) (MemW.store t 16 4)) ∧
  (∀ t : MemS,
    MemoryWord (.stws t) (MemS.stamped t 4 1) ∧ MemoryWord (.stds t) (MemS.stamped t 8 2) ∧
    MemoryWord (.asw t) (MemS.asof t 4 1) ∧ MemoryWord (.asd t) (MemS.asof t 8 2) ∧ MemoryWord (.asq t) (MemS.asof t 16 4) ∧
    MemoryWord (.acas t) (MemS.cas t)) ∧
  (∀ t : MemW,
    MemoryWord (.aadd t) (MemW.atomic t .at .add) ∧ MemoryWord (.amin t) (MemW.atomic t .atS .min) ∧
    MemoryWord (.amax t) (MemW.atomic t .atS .max) ∧ MemoryWord (.aand t) (MemW.atomic t .at .and) ∧
    MemoryWord (.aor t) (MemW.atomic t .at .or) ∧ MemoryWord (.axor t) (MemW.atomic t .at .xor) ∧
    MemoryWord (.axch t) (MemW.atomic t .at .xchg) ∧ MemoryWord (.afadd t) (MemW.fatomic t .fadd false) ∧
    MemoryWord (.adadd t) (MemW.fatomic t .dadd true)) ∧
  ∀ t : MemDA, MemoryWord (.lstamp t)
    { h := t.h, mm := t.mm, row := .ls, dflt := 0, a := .sel t.a 2, off := .none, data := .none, extra := .none, dst := some (t.d, 2),
      kind := .lstamp }

/-- FencesRule (R180, R208) and ScalarLoadsAndSettleRule (R289, R211, R214). Where it rests on log entries 18, 21 and 22 it is the model's choice,
and no rule of the spec. -/
def Obligations.FencesAndScalarLoads : Prop := FencesRule ∧ ScalarLoadsAndSettleRule

/-- Table 10.6, Table 10.7, R187, R213: TAGL finds the way that holds a key in the set of the key and answers its slot, or bit 31 with the victim's
slot, the lowest way of the set that holds nothing, else its least recently used; TAGS installs a key at a slot below S × W, in place of what the
way held and of any other way of that set with the key; TAGI invalidates a key's way; TAGC sets LS, LW, LZ and BASE and voids every entry. Where it
rests on log entry 20 it is the model's choice, and no rule of the spec. -/
def Obligations.TagWords : Prop :=
  (∀ t : WDA, TagWord (.tagl t) (quietWord t.h (.sel t.a 2) .none (some (t.d, 1))) [.sel t.a 2] (fun _ _ tab key _ tt ws =>
    (∃ w ∈ tab.ways, w.set = key.toNat % 2 ^ tab.ls ∧ w.key = key ∧ (∀ y ∈ tab.ways, y.set = w.set → y.key = key → y = w) ∧
      ws = [BitVec.ofNat 32 (w.set * 2 ^ tab.lw + w.way)] ∧ tt.ls = tab.ls ∧ tt.lw = tab.lw ∧ tt.lz = tab.lz ∧ tt.base = tab.base ∧
      tt.ways = tab.ways.map (fun y => if y.set = w.set ∧ y.way = w.way then { y with used := tab.clock + 1 } else y)) ∨
    ((∀ y ∈ tab.ways, y.set = key.toNat % 2 ^ tab.ls → y.key ≠ key) ∧ tt = tab ∧
      ∃ n, n < 2 ^ tab.lw ∧ (∀ y ∈ tab.ways, y.set = key.toNat % 2 ^ tab.ls → y.way ≠ n) ∧
        (∀ j, j < n → ∃ y ∈ tab.ways, y.set = key.toNat % 2 ^ tab.ls ∧ y.way = j) ∧
        ws = [0x80000000 ||| BitVec.ofNat 32 (key.toNat % 2 ^ tab.ls * 2 ^ tab.lw + n)]) ∨
    ((∀ y ∈ tab.ways, y.set = key.toNat % 2 ^ tab.ls → y.key ≠ key) ∧ tt = tab ∧
      (∀ j, j < 2 ^ tab.lw → ∃ y ∈ tab.ways, y.set = key.toNat % 2 ^ tab.ls ∧ y.way = j) ∧
      ∃ y ∈ tab.ways, y.set = key.toNat % 2 ^ tab.ls ∧
        (∀ z ∈ tab.ways, z.set = key.toNat % 2 ^ tab.ls → z ≠ y → y.used < z.used) ∧
        ws = [0x80000000 ||| BitVec.ofNat 32 (key.toNat % 2 ^ tab.ls * 2 ^ tab.lw + y.way)]))) ∧
  (∀ t : WDA, TagWord (.tags t) (quietWord t.h (.sel t.a 2) (.sel t.d 1) none) [.sel t.a 2, .sel t.d 1] (fun _ _ tab key x tt ws =>
    x.toNat < 2 ^ tab.ls * 2 ^ tab.lw ∧ ws = [] ∧ tt.ls = tab.ls ∧ tt.lw = tab.lw ∧ tt.lz = tab.lz ∧ tt.base = tab.base ∧
    tt.ways = tab.ways.filter (fun y => !(y.set == x.toNat / 2 ^ tab.lw && (y.way == x.toNat % 2 ^ tab.lw || y.key == key)))
      ++ [{ set := x.toNat / 2 ^ tab.lw, way := x.toNat % 2 ^ tab.lw, key := key, used := tab.clock + 1 }])) ∧
  (∀ t : WA, TagWord (.tagi t) (quietWord t.h (.sel t.a 2) .none none) [.sel t.a 2] (fun _ _ tab key _ tt ws =>
    ws = [] ∧ tt = { tab with ways := tab.ways.filter (fun y => !(y.set == key.toNat % 2 ^ tab.ls && y.key == key)) })) ∧
  ∀ t : WA, TagWord (.tagc t) (quietWord t.h (.sel t.a 2) .none none) [.sel t.a 2] (fun c s _ key _ tt ws =>
    let n := key.toNat
    n / 2 ^ 52 = 0 ∧ n / 2 ^ 13 % 2 ^ 19 = 0 ∧ n / 2 ^ 32 % 2 ^ 20 % 2 ^ (n / 2 ^ 8 % 32) = 0 ∧ 4 ≤ n / 2 ^ 8 % 32 ∧ n / 2 ^ 8 % 32 ≤ 16 ∧
    n % 16 + n / 16 % 16 ≤ 12 ∧
    (∃ b, Tab.find s.blocks c.w.block = some b ∧ n / 2 ^ 32 % 2 ^ 20 + 2 ^ (n % 16 + n / 16 % 16 + n / 2 ^ 8 % 32) ≤ b.size) ∧ ws = [] ∧
    tt = { ls := n % 16, lw := n / 16 % 16, lz := n / 2 ^ 8 % 32, base := n / 2 ^ 32 % 2 ^ 20, ways := [], clock := 0 })

/-- SliceCommitRule (R149, R161, R162, R164, R169, R173, R204) and SliceReadsRule (R155, R171, R195, R196, R200, R209). Where it rests on log entry
27 it is the model's choice, and no rule of the spec. -/
def Obligations.SliceAccesses : Prop := SliceCommitRule ∧ SliceReadsRule

/-- MemResponseRule (R163, R192, R193, R194, R197) and ScratchArrivalsRule (R182, R183, R186, R205, R301). -/
def Obligations.ResponsesAndArrivals : Prop := MemResponseRule ∧ ScratchArrivalsRule

/-- MatrixWordsRule (R325, R331, R356, R358, R362) and ChainsAndStepsRule (R249, R295, R370, R380). Where it rests on log entries 27 and 31 it is
the model's choice, and no rule of the spec. -/
def Obligations.EngineCommands : Prop := MatrixWordsRule ∧ ChainsAndStepsRule

/-- SendWordRule (R302, R303) and CkptWordRule (R242, Table 13.3). Where it rests on log entries 29 and 51 it is the model's choice, and no rule of
the spec. -/
def Obligations.SendAndCheckpoint : Prop := SendWordRule ∧ CkptWordRule

/-- R248, R305, R363: ARVI writes B to the arrival word at A, with ERR 0; ACCLD reads an element of a tile; and RLQ says in a predicate whether
an access of B bytes at A would meet a range lock of the core. Where it rests on log entry 34 it is the model's choice, and no rule of the spec. -/
def Obligations.EngineReads : Prop :=
  (∀ t : WAB, CoreWord (.arvi t) (ownWord t.h (.sel t.a 1) (bI32 t.b) none 4 false)
    (fun c s a _ => s.accessDue c.key true = false ∧ (s.core c.p.core).scratch.wf = true ∧ a.toNat % 8 = 0 ∧
      (s.ownBytes c.w.block c.p.core a.toNat 8).isSome = true ∧ (s.core c.p.core).locks = [])
    (fun c s a b core ws => ws = [] ∧ ∃ x, s.ownBytes c.w.block c.p.core a.toNat 8 = some x ∧
      PutAt (s.core c.p.core) core x (leBytes b.toNat 8))) ∧
  (∀ t : WDAB, CoreWord (.accld t) (ownWord t.h (.sel t.a 1) (bI32 t.b) (some (t.d, 1)) 8 true)
    (fun c s a b => a.toNat < 1024 ∧ b.toNat < 64 ∧ (s.core c.p.core).tileLocked (a.toNat / 64) false = false)
    (fun c s a b core ws => core = s.core c.p.core ∧ ws = [core.tileAt (a.toNat / 64) (a.toNat % 64) b.toNat])) ∧
  ∀ (t : RlqW) (i : Instr) (write : Bool), ((i = .rlqRd t ∧ write = false) ∨ (i = .rlqWr t ∧ write = true)) →
    ∀ (s : State) (p : Pass), s.Due [.sel t.a 2, bI32 t.b, .none] p →
      (∀ c ∈ p.ctxs s, c.guard t.h.guard = .ok false ∨
        (c.guard t.h.guard = .ok true ∧ ∃ a b, c.read 0 (.sel t.a 2) = .ok a ∧ c.read 1 (bI32 t.b) = .ok b)) →
      ∃ u, exec i s = .next u ∧ Undisturbed p s u ∧ HusksKept s u ∧
        ∀ c ∈ p.ctxs s, ∀ a b sp x, c.guard t.h.guard = .ok true → c.read 0 (.sel t.a 2) = .ok a → c.read 1 (bI32 t.b) = .ok b →
          s.lockPlace c (dwordOf a) = some (sp, x) →
          ((0 < (w0 b).toNat ∧ ∃ l ∈ (s.core p.core).locks, l.space = sp ∧ l.lo < x + (w0 b).toNat ∧ x < l.hi ∧
              (write = true ∨ l.dst = true)) → PredGets u p c.key t.p true (c.slot + 4)) ∧
          (¬ (0 < (w0 b).toNat ∧ ∃ l ∈ (s.core p.core).locks, l.space = sp ∧ l.lo < x + (w0 b).toNat ∧ x < l.hi ∧
              (write = true ∨ l.dst = true)) → PredGets u p c.key t.p false (c.slot + 4))

/-- RuleWordsRule (R368, R369, R372, R374, R384) and AbortWordRule (R385). Where it rests on log entry 33 it is the model's choice, and no rule of
the spec. -/
def Obligations.RuleUnitWords : Prop := RuleWordsRule ∧ AbortWordRule

/-- ReservedOpcodesRule (R72, R80) and PrivilegeRule (R79, R82). -/
def Obligations.ReservedAndPrivileged : Prop := ReservedOpcodesRule ∧ PrivilegeRule

/-- R323, R324: in privileged state CSRR writes to D the control register as it stands at its thread's slot. CSRW sends its register A, of the
last thread in pass order, in effect 4 cycles after that thread's slot. HSET's A is the partition's hold from its slot on, which HOLD reads 4
cycles later. Where it rests on log entry 58 it is the model's choice, and no rule of the spec. -/
def Obligations.ControlRegisters : Prop :=
  (∀ (t : CsrrW) (s : State) (p : Pass), p.priv = true → s.Due [.none, .none, .none] p →
    let v := ownWord t.h .none .none (some (t.d, if CReg.pair t.r then 2 else 1)) 4 false
    (∀ c ∈ p.ctxs s, c.Completes v (fun c _ _ _ => ((s.controlsBy c.slot).control c t.r, 0))) →
    ∃ u, exec (.csrr t) s = .next u ∧ Undisturbed p s u ∧ WarpsKept s u ∧
      ∀ c ∈ p.ctxs s, ∀ locs, c.guard t.h.guard = .ok true → c.dest v.d = .ok locs →
        ∃ y, u.thread c.key = some y ∧ c.Wrote v locs ((s.controlsBy c.slot).control c t.r, 0) (c.slot + 4) y) ∧
  (∀ (t : CsrwW) (s : State) (p : Pass) (a : Src), p.priv = true → a = .sel t.a (CWReg.words t.r) → s.Due [a] p →
    (∀ c ∈ p.ctxs s, c.guard t.h.guard = .ok false ∨ (c.guard t.h.guard = .ok true ∧ ∃ x, c.read 0 a = .ok x)) →
    ∃ u, exec (.csrw t) s = .next u ∧ u.outside = { s.outside with ctls := u.ctls } ∧ WarpsKept s u ∧
      (∀ k, k ∉ p.keys → u.thread k = s.thread k) ∧
      (∀ c ∈ p.ctxs s, c.guard t.h.guard = .ok false → ∃ y, u.thread c.key = some y ∧ WentOn p.after c.th y) ∧
      (∀ c ∈ p.executing s t.h, ∃ y, u.thread c.key = some y ∧ WentOn p.after (c.mark t.h a c.unsuppressed.th) y) ∧
      (p.executing s t.h = [] → u.ctls = s.ctls) ∧
      ∀ c x, (p.executing s t.h).getLast? = some c → c.read 0 a = .ok x →
        (∃ y ∈ u.ctls, y = { launch := p.launch, due := c.slot + 4, what := .reg t.r, value := x }) ∧ (∀ y ∈ s.ctls, y ∈ u.ctls) ∧
        ∀ l, s.ctls = [] → Tab.find s.launches p.launch = some l →
          (∀ n, n < c.slot + 4 → u.controlsBy n = u) ∧
          ControlSet s (u.controlsBy (c.slot + 4)) p.launch l t.r (if CWReg.words t.r = 2 then dwordOf x else (w0 x).setWidth 64)) ∧
  ∀ (t : WA) (s : State) (p : Pass) (k : TKey) (c : TCtx) (x : List Word) (l : Launch), p.priv = true → s.Due [.sel t.a 2] p →
    p.keys = [k] → p.ctxs s = [c] → c.guard t.h.guard = .ok true → c.read 0 (.sel t.a 2) = .ok x → Tab.find s.launches p.launch = some l →
    ∃ u y, exec (.hset t) s = .next u ∧ u.thread k = some y ∧ WentOn p.after (c.mark t.h (.sel t.a 2) c.unsuppressed.th) y ∧
      u.outside = { s.outside with ctls := u.ctls } ∧ WarpsKept s u ∧ (∀ j, j ≠ k → u.thread j = s.thread j) ∧
      (s.ctls = [] → (∀ n, n < c.slot → (u.controlsBy n).part l.xlat.part = s.part l.xlat.part) ∧
        (∀ n, c.slot ≤ n → n < c.slot + 4 → (u.controlsBy n).part l.xlat.part = { s.part l.xlat.part with hold := dwordOf x }) ∧
        (∀ n, c.slot + 4 ≤ n →
          (u.controlsBy n).part l.xlat.part = { s.part l.xlat.part with hold := dwordOf x, holdRead := dwordOf x }) ∧
        ∀ n q, q ≠ l.xlat.part → (u.controlsBy n).part q = s.part q)

/-- R228, R229: in privileged state, once its thread's earlier global writes have their responses, XINV drops from every TLB the translations that
its kind and operands name, by address, ASID, intermediate address or virtual function; XSYNC goes through once the thread's invalidations are at
their end, and until then its bundle holds; MGMT_INVALIDATE does the same for the hypervisor, and is acknowledged at its end. (Where a redundant
launch has a store held that goes through a match, its window closes besides.) Where it rests on log entries 24, 25 and 56 it is the model's choice,
and no rule of the spec. -/
def Obligations.Invalidations : Prop :=
  (∀ (h : Hd) (i : Instr) (kind : InvKind) (sa sb : Src),
    ((∃ t : WAB, i = .xinvVa t ∧ h = t.h ∧ kind = .va ∧ sa = .sel t.a 2 ∧ sb = bI32 t.b) ∨
      (∃ t : WB, i = .xinvAsid t ∧ h = t.h ∧ kind = .asid ∧ sa = .none ∧ sb = bI32 t.b) ∨
      (∃ t : WAB, i = .xinvIpa t ∧ h = t.h ∧ kind = .ipa ∧ sa = .sel t.a 2 ∧ sb = bI32 t.b) ∨
      (∃ t : WB, i = .xinvVmid t ∧ h = t.h ∧ kind = .vmid ∧ sa = .none ∧ sb = bI32 t.b)) →
    ∀ (s : State) (p : Pass) (k : TKey) (c : TCtx) (a b : List Word) (n : InvSpec), p.priv = true → s.Due [sa, sb] p → p.keys = [k] →
      p.ctxs s = [c] → c.guard h.guard = .ok true → c.read 0 sa = .ok a → c.read 1 sb = .ok b → s.globalDue k = false →
      n = ⟨p.part, kind, (w0 b).extractLsb' 16 8, (w0 b).extractLsb' 0 16, (dwordOf a).toNat⟩ →
      (∀ r ∈ s.reqs, n.touches r = true → r.stage ≠ .held) →
      ∃ u y, exec i s = .next u ∧ u.thread k = some y ∧ WentOn p.after (c.mark h sa c.unsuppressed.th) y ∧ Dropped s u n ∧
        u.outside = { s.outside with
          cores := u.cores, clusterTlb := u.clusterTlb, walks := u.walks, uid := u.uid,
          invals := s.invals ++ [Posted s n (some k)] } ∧
        WarpsKept s u ∧ ∀ j, j ≠ k → u.thread j = s.thread j) ∧
  (∀ (t : HdW) (s : State) (p : Pass), p.priv = true → s.Now p → (∀ c ∈ p.ctxs s, ∃ b, c.guard t.h.guard = .ok b) →
    ((∀ n ∈ s.invals, (∃ c ∈ p.executing s t.h, n.by_ = some c.key) → s.invalOver n = true) →
      ∃ u, exec (.xsync t) s = .next u ∧ u.outside = { s.outside with invals := u.invals } ∧ WarpsKept s u ∧ AllWent s u p ∧
        (∀ k, k ∉ p.keys → u.thread k = s.thread k) ∧
        (∀ n ∈ u.invals, n ∈ s.invals ∧ ∀ c ∈ p.executing s t.h, n.by_ ≠ some c.key) ∧
        ∀ n ∈ s.invals, (∀ m ∈ s.invals, m.id = n.id → m = n) → (∀ c ∈ p.executing s t.h, n.by_ ≠ some c.key) → n ∈ u.invals) ∧
    ((∃ n ∈ s.invals, (∃ c ∈ p.executing s t.h, n.by_ = some c.key) ∧ s.invalOver n = false) →
      ∃ u, exec (.xsync t) s = .next u ∧ u.warps = s.warps ∧ u.outside = s.outside)) ∧
  ∀ (part : Nat) (kind : InvKind) (vf : BitVec 8) (asid : BitVec 16) (addr : Dword) (s : State) (n : InvSpec), s.boot = .ready →
    n = ⟨part, kind, vf, asid, addr.toNat⟩ → (∀ r ∈ s.reqs, n.touches r = true → r.stage ≠ .held) → (∀ m ∈ s.invals, m.id < s.uid) →
    ∃ u, exec (.mgmtInvalidate part kind vf asid addr) s = .next u ∧ u.mem = s.mem ∧ u.warps = s.warps ∧ u.reqs = s.reqs ∧
      u.blocks = s.blocks ∧ u.launches = s.launches ∧ u.parts = s.parts ∧ Dropped s u n ∧
      ((∃ w ∈ s.walks, w.xlat.part = part ∧ w.done = none) ∨ (∃ r ∈ s.reqs, n.touches r = true) → Posted s n none ∈ u.invals) ∧
      ((∀ w ∈ s.walks, w.xlat.part = part → w.done ≠ none) → (∀ r ∈ s.reqs, n.touches r = false) →
        Out.invalAck part ∈ u.out ∧ Posted s n none ∉ u.invals)

/-- HandlerEntryRule (R309 to R311) and HandlerReturnRule (R313, R114). Where it rests on log entries 14 and 17 it is the model's choice, and no
rule of the spec. -/
def Obligations.ExceptionEntryAndReturn : Prop := HandlerEntryRule ∧ HandlerReturnRule

/-- ClocksRule (R162, R165, R21) and HoldsRule (R166, Table 18.7, R173, R167). Where it rests on log entries 9, 35, 36 and 58 it is the model's
choice, and no rule of the spec. -/
def Obligations.ClocksAndHolds : Prop := ClocksRule ∧ HoldsRule

/-- R217, R226, R227: PAGE_RESPONSE takes one response. STATUS 0 releases the parked accesses that the request stands for, which walk again, and
the parked fetches, whose threads are ready; STATUS 1 stops their threads with the fatal cause of the queue's stage; any other response is
counted as an error and leaves its request outstanding. Where it rests on log entry 37 it is the model's choice, and no rule of the spec. -/
def Obligations.PageResponse : Prop :=
  ∀ (s : State) (k : QKey) (q : PageQueue) (e : Nat), q = s.queue k → q.disabled = false → q.rspHead ≠ q.rspTail → e = s.respEntry q →
    ((q.reqs.find? (fun r => r.id == some (natBits e 0 16)) = none ∨ 1 < natBits e 16 8 ∨ natBits e 24 40 ≠ 0) →
      ∃ u, exec (.pageResponse k) s = .next u ∧ u.queue k = { q with rspHead := q.rspHead + 1, errors := satUp q.errors } ∧
        u.reqs = s.reqs ∧ u.warps = s.warps ∧ u.mem = s.mem ∧ ∀ j, j ≠ k → u.queue j = s.queue j) ∧
    ∀ r, q.reqs.find? (fun r => r.id == some (natBits e 0 16)) = some r → natBits e 16 8 ≤ 1 → natBits e 24 40 = 0 →
      (∀ y ∈ q.reqs, y.id ≠ none) → s.awayFor k r = [] → (s.reqs.map Req.id).Nodup →
      ∃ u, exec (.pageResponse k) s = .next u ∧
        (natBits e 16 8 = 0 → u.queue k = { q with rspHead := q.rspHead + 1, reqs := q.reqs.filter (fun y => y != r) }) ∧
        (∀ x ∈ s.reqs, (x.core ≠ r.core ∨ x.stage ≠ .parked k.s2 r.page) → x ∈ u.reqs) ∧
        ∀ n l, Tab.find s.launches n = some l → l.offAt r.core = false →
          ∀ x ∈ s.reqs, x.launch = n → x.core = r.core → x.stage = .parked k.s2 r.page → x.xlat.part = k.part → x.xlat.vf.toNat = k.vf →
            (k.s2 = true ∨ x.xlat.asid = r.asid) →
            (natBits e 16 8 = 0 → x.kind ≠ .fetch → (∃ g, ∃ y ∈ u.reqs, y = { x with stage := .walking g, order := y.order }) ∧
              ∃ w ∈ u.walks, .request x.id ∈ w.waits ∧ w.xlat = x.xlat ∧ pageOf w.va = pageOf x.va.toNat ∧ w.done = none) ∧
            (natBits e 16 8 = 0 → x.kind = .fetch → (∀ y ∈ u.reqs, y.id ≠ x.id) ∧
              ∀ p ∈ x.parts, ∀ t, s.thread p.thread = some t → ∃ z, u.thread p.thread = some z ∧ z.st ≠ .parked ∧ z.pos = t.pos ∧ z.v = t.v) ∧
            (natBits e 16 8 = 1 → (∀ y ∈ u.reqs, y.id ≠ x.id) ∧
              ∀ p ∈ x.parts, ∀ t, s.thread p.thread = some t → ∃ z, u.thread p.thread = some z ∧ z.st = .halted ∧
                z.trap.cause = (if k.s2 = true then .xlatS2Fatal else .xlatFatal) ∧
                ((∀ y ∈ s.reqs, ∀ o ∈ y.parts, o.thread = p.thread → y = x) → z.trap.addr = x.va ∧ z.trap.tpc = x.tpc))

/-- WalkCompleteRule (R155, R215, R220, R223, R217) and QueueWritesRule (R226, R227, Table 12.4). Where it rests on log entry 24 it is the model's
choice, and no rule of the spec. -/
def Obligations.WalksAndQueueRegisters : Prop := WalkCompleteRule ∧ QueueWritesRule

/-- PreemptionRule (R314 to R316) and RestoreAndDiscardRule (R316, R318, R282, R312). Where it rests on log entries 1, 32 and 38 it is the model's
choice, and no rule of the spec. -/
def Obligations.SaveRestoreDiscard : Prop := PreemptionRule ∧ RestoreAndDiscardRule

/-- R264, R265: at a GANG_SWITCH_TICK a partition whose next VF differs runs it at once when no context of another VF is on its cores, and
otherwise asks each of them to stop; TARDY_DEADLINE, 100 µs on, makes a partition that still waits on the die run its next VF all the same,
counts it, and resets it at the fourth time in a row. Where it rests on log entry 1 it is the model's choice, and no rule of the spec. -/
def Obligations.GangSwitch : Prop :=
  (∀ (s : State) (c : VfCfg), (s.part c.part).vf ≠ c.vf →
    ∃ u, exec (.gangSwitchTick [c]) s = .next u ∧ u.mem = s.mem ∧ u.warps = s.warps ∧ c ∈ (u.part c.part).cfgs ∧
      (∀ q, q ≠ c.part → u.part q = s.part q) ∧ u.cores = s.cores ∧ u.reqs = s.reqs ∧ u.blocks = s.blocks ∧
      (∀ n, n ∉ s.leaving c.part c.vf → Tab.find u.launches n = Tab.find s.launches n) ∧
      (s.leaving c.part c.vf = [] → (u.part c.part).vf = c.vf ∧ (u.part c.part).nextVf = none ∧ u.launches = s.launches) ∧
      (s.leaving c.part c.vf ≠ [] → (u.part c.part).vf = (s.part c.part).vf ∧ (u.part c.part).nextVf = some c ∧ u.switchAt = some s.cycle ∧
        ∀ n ∈ s.leaving c.part c.vf, ∀ l, Tab.find s.launches n = some l →
          (Tab.find u.launches n).bind Launch.stopAt = some (l.stopAt.getD (s.cycle + 20000)))) ∧
  ∀ (s : State) (die t p : Nat) (x : Partition) (c : VfCfg), s.switchAt = some t → s.parts.Pairwise (fun a b => a.1 < b.1) →
    s.launches.Pairwise (fun a b => a.1 < b.1) →
    Tab.find s.parts p = some x → x.nextVf = some c → s.lateOn p die = true →
    ∃ u, exec (.tardyDeadline die) s = .next u ∧ t + s.tardyCycles ≤ u.cycle ∧ u.mem = s.mem ∧
      (x.tardyRun < 3 → u.part p = { x with vf := c.vf, nextVf := none, tardy := satUp x.tardy, tardyRun := x.tardyRun + 1 }) ∧
      (3 ≤ x.tardyRun → (u.part p).resetting = true ∧ (u.part p).fenced = true ∧ (u.part p).vf = c.vf ∧ (u.part p).tardy = satUp x.tardy ∧
        ∀ l ∈ u.launches, l.2.xlat.part ≠ p) ∧
      ∀ q, s.lateOn q die = false → u.part q = s.part q

/-- R321, R322: WINDOW_COMPARE of two threads' windows, or of all of a block barrier's: equal signatures let the primary's held stores of the
windows commit; unequal ones, and a fault that one copy takes where the other does not, discard them and stop the primary's thread with
SDC_MISMATCH, SYND the difference and TINFO the records; then both copies halt, or the context ends where its thread was in the handler or has
none. Where it rests on log entry 29 it is the model's choice, and no rule of the spec. -/
def Obligations.WindowCompare : Prop :=
  (∀ (s : State) (b tb : Nat) (t q : TKey) (x y : RedWindow), s.compareDue b = true → s.twinBlock b = some tb →
    s.threadWindow b = some (t, q, x, y) →
    (x.sig = y.sig → ∃ u, exec (.windowCompare b) s = .next u ∧ u.mem = s.mem ∧ u.cores = s.cores ∧ u.launches = s.launches ∧
      u.blocks = s.blocks ∧ u.redWindows = dropFirst q (dropFirst t s.redWindows) ∧
      (∀ r ∈ s.reqs, r.stage = .held → r.of t = true → r.order < x.order → ∃ z ∈ u.reqs, z.id = r.id ∧ z.stage = .sent ∧ z.kind = r.kind ∧
        z.pa = r.pa) ∧
      (∀ r ∈ s.reqs, ¬ (r.stage = .held ∧ r.of t = true ∧ r.order < x.order) → r ∈ u.reqs) ∧
      WarpsKept s u ∧ ∀ k, k ≠ t → k ≠ q → u.thread k = s.thread k) ∧
    (x.sig ≠ y.sig → ∀ th w l, s.thread t = some th → Tab.find s.warps t.warp = some w → w.block = b → s.launchOf t.warp = some l →
      (∃ z, Tab.find s.blocks tb = some z) →
      ∃ u z, exec (.windowCompare b) s = .next u ∧ u.mem = s.mem ∧ u.cores = s.cores ∧ u.thread t = some z ∧ z.st = .halted ∧
        z.trap.cause = .sdcMismatch ∧ z.trap.synd = x.sig ^^^ y.sig ∧ z.trap.info = BitVec.ofNat 32 x.records ∧ z.trap.tpc = x.tpc ∧
        (th.handler = false → (if l.priv then l.ptvec else l.rcd.trap) ≠ 0 →
          (∃ z, Tab.find u.blocks b = some z ∧ z.halt ≠ none) ∧ (∃ z, Tab.find u.blocks tb = some z ∧ z.halt ≠ none)) ∧
        (th.handler = true ∨ (if l.priv then l.ptvec else l.rcd.trap) = 0 → (Tab.find u.launches w.launch).map Launch.status = some .ended) ∧
        ∀ r, r ∈ u.reqs ↔ r ∈ s.reqs ∧ ¬ (r.stage = .held ∧ r.of t = true ∧ r.order < x.order))) ∧
  (∀ (s : State) (b tb : Nat) (xs ys : List RedWindow), s.compareDue b = true → s.twinBlock b = some tb → s.threadWindow b = none →
    s.barrierWindow b tb = some (xs, ys) → (windowSum xs).1 = (windowSum ys).1 →
    ∃ u, exec (.windowCompare b) s = .next u ∧ u.mem = s.mem ∧ u.cores = s.cores ∧ u.blocks = s.blocks ∧ WarpsKept s u ∧
      (∀ w ∈ xs, ∀ r ∈ s.reqs, r.stage = .held → r.of w.thread = true → r.order < w.order →
        ∃ z ∈ u.reqs, z.id = r.id ∧ z.stage = .sent ∧ z.kind = r.kind ∧ z.pa = r.pa) ∧
      ∀ r ∈ s.reqs, (r.stage ≠ .held ∨ ∀ w ∈ xs, r.of w.thread = false) → r ∈ u.reqs) ∧
  ∀ (s : State) (b tb : Nat) (t q : TKey) (f : RedFault) (th : Thread), s.compareDue b = true → s.twinBlock b = some tb →
    s.threadWindow b = none → s.barrierWindow b tb = none → s.faultPair b = some (.differ t q f) → s.thread t = some th →
    (∀ r ∈ s.reqs, r.order < s.uid) →
    ∃ u z, exec (.windowCompare b) s = .next u ∧ u.mem = s.mem ∧ u.cores = s.cores ∧ u.thread t = some z ∧ z.st = .halted ∧
      z.trap.cause = .sdcMismatch ∧ z.trap.synd = 0 ∧ z.trap.info = BitVec.ofNat 32 th.records ∧ z.trap.tpc = f.tpc ∧
      ∀ r, r ∈ u.reqs ↔ r ∈ s.reqs ∧ ¬ (r.stage = .held ∧ r.of t = true)

/-- R253, Table 15.2: a TAGGED_MESSAGE to a partition that is closed draws an error; to a tag that no arm takes, status 1; one that only a software
arm takes is refused with BUSY, and the arm notes that it is wanted; with a payload that does not fit, status 2; to an armed arm without payload it
fires the arm's record, or is refused with status 6 and the record's reason; a payload is stored at the arm's next ring entry, which becomes busy,
before the record fires, and the sender gets status 7 where it cannot be; while that entry is busy, the sender retries after 1 µs; and a message is
put off while its store is, or an earlier one of the partition (in arrival order). A SEND's message has the same fate, at a die that injects;
without FIRE it ends with status 3, at a closed partition with 5. Where it rests on log entries 41 and 42 it is the model's choice, and no rule of
the spec. -/
def Obligations.TaggedMessage : Prop :=
  (∀ (s : State) (part : Nat) (m : Msg), s.boot = .ready →
    ((s.part part).closed = true → ∃ u, exec (.taggedMessage part (.ext m)) s = .next u ∧ u = { s with out := s.out ++ [.errorReply part] }) ∧
    ((s.part part).closed = false → s.behindLate part s.uid = true →
      ∃ u, exec (.taggedMessage part (.ext m)) s = .next u ∧ u = PutOff s part m 0 farDelay (some s.uid)) ∧
    ((s.part part).closed = false → s.behindLate part s.uid = false →
      (Unarmed (s.part part) m.tag →
        ∃ u, exec (.taggedMessage part (.ext m)) s = .next u ∧ u = { s with out := s.out ++ [.msgReply part m.tag 1] }) ∧
      ((s.part part).arms.find? (fun e => e.2.armed && e.2.tag == m.tag) = none → (∃ y ∈ (s.part part).soft, y.tag = m.tag) →
        ∃ u, exec (.taggedMessage part (.ext m)) s = .next u ∧ u.mem = s.mem ∧ u.launches = s.launches ∧ u.warps = s.warps ∧
          (∀ q, q ≠ part → u.part q = s.part q) ∧ u.out = s.out ++ [.busy part m.tag] ∧
          u.retries = s.retries ++ [{ id := s.uid, part := part, msg := m, interval := 1, late := none, due := s.cycle + s.micro }] ∧
          u.part part = { s.part part with
            soft := (s.part part).soft.map (fun y => if y.tag = m.tag then { y with pending := true } else y) }) ∧
      ∀ n a, (s.part part).arms.find? (fun e => e.2.armed && e.2.tag == m.tag) = some (n, a) → Tab.find (s.part part).arms n = some a →
        (m.payload = [] → a.launch.toNat % 256 = 0 → ∀ s1 l, s.feRead (s.runXlat part) a.launch.toNat 256 = (s1, some l) →
          (refusal l (s1.part part) = 0 → ∃ u, exec (.taggedMessage part (.ext m)) s = .next u ∧
            FiredAs u s1.uid l a (s.runXlat part) 0 0 none m.stamp ∧ (∀ k, k ≠ s1.uid → Tab.find u.launches k = Tab.find s.launches k) ∧
            u.out = s.out ++ [.msgReply part m.tag 0] ∧ u.mem = s1.mem ∧ u.warps = s.warps ∧ u.parts = s1.parts) ∧
          (refusal l (s1.part part) ≠ 0 → ∃ u, exec (.taggedMessage part (.ext m)) s = .next u ∧ u.launches = s.launches ∧
            u.mem = s1.mem ∧ u.warps = s.warps ∧
            u.out = s.out ++ [.refused part a.launch (refusal l (s1.part part)),
              .msgReply part m.tag (BitVec.ofNat 32 (6 + 256 * refusal l (s1.part part)))])) ∧
        (m.payload ≠ [] → a.size < m.payload.length ∨ a.count = 0 →
          ∃ u, exec (.taggedMessage part (.ext m)) s = .next u ∧ u = { s with out := s.out ++ [.msgReply part m.tag 2] }) ∧
        (m.payload ≠ [] → m.payload.length ≤ a.size → a.count ≠ 0 → (∃ t, (a.fill, t) ∈ a.busy) →
          ∃ u, exec (.taggedMessage part (.ext m)) s = .next u ∧
            u = PutOff { s with out := s.out ++ [.busy part m.tag] } part m 1 s.micro none) ∧
        (m.payload ≠ [] → m.payload.length ≤ a.size → a.count ≠ 0 → (∀ e ∈ a.busy, e.1 ≠ a.fill) → a.launch.toNat % 256 = 0 →
          ∀ s1 top s2 s3 l,
            s.feStore (s.runXlat part) (a.ring + BitVec.ofNat 64 (a.fill * a.size)).toNat m.stamp m.payload = (s1, .done top) →
            s2 = State.modPart { s1 with uid := s1.uid + 1 } part (fun p => { p with arms := Tab.upd p.arms n (fun y =>
              { y with busy := y.busy ++ [(a.fill, s1.uid)], fill := (a.fill + 1) % a.count }) }) →
            s2.feRead (s.runXlat part) a.launch.toNat 256 = (s3, some l) → refusal l (s3.part part) = 0 →
            ∃ u, exec (.taggedMessage part (.ext m)) s = .next u ∧
              FiredAs u s3.uid l a (s.runXlat part) (a.ring + BitVec.ofNat 64 (a.fill * a.size)) m.payload.length (some s1.uid) (umax m.stamp top) ∧
              Tab.find (u.part part).arms n = some { a with busy := a.busy ++ [(a.fill, s1.uid)], fill := (a.fill + 1) % a.count } ∧
              u.mem = s3.mem ∧ u.warps = s.warps ∧ u.out = s.out ++ [.msgReply part m.tag 0]) ∧
        (m.payload ≠ [] → m.payload.length ≤ a.size → a.count ≠ 0 → (∀ e ∈ a.busy, e.1 ≠ a.fill) → ∀ s1,
          (s.feStore (s.runXlat part) (a.ring + BitVec.ofNat 64 (a.fill * a.size)).toNat m.stamp m.payload = (s1, .bad) →
            ∃ u, exec (.taggedMessage part (.ext m)) s = .next u ∧ u = { s with out := s.out ++ [.msgReply part m.tag 7] }) ∧
          (s.feStore (s.runXlat part) (a.ring + BitVec.ofNat 64 (a.fill * a.size)).toNat m.stamp m.payload = (s1, .later) →
            ∃ u, exec (.taggedMessage part (.ext m)) s = .next u ∧ u = PutOff s1 part m 0 farDelay (some s.uid))))) ∧
  ∀ (s : State) (part id : Nat) (m : SendMsg) (d : List Byte),
    s.sends.find? (fun y => y.id == id && y.part == part && y.retry == 0) = some m →
    s.sends.find? (fun y => y.id == id && y.payload.isSome) = some m → m.payload = some d → m.shadow = false → m.status = none →
    (s.sendPaused m = true → ∃ u, exec (.taggedMessage part (.send id)) s = .next u ∧ u = s) ∧
    (s.sendPaused m = false →
      ((s.part part).closed = true → exec (.taggedMessage part (.send id)) s = exec (.sendResponse id 5) s) ∧
      ((s.part part).closed = false → m.fire = false → exec (.taggedMessage part (.send id)) s = exec (.sendResponse id 3) s) ∧
      ((s.part part).closed = false → m.fire = true → s.behindLate part (m.late.getD s.uid) = false → ∀ t,
        (∀ w, s.message part m.tag d m.floor = (t, .status w) →
          exec (.taggedMessage part (.send id)) s = exec (.sendResponse id (BitVec.ofNat 32 w)) t) ∧
        (s.message part m.tag d m.floor = (t, .busy) → ∃ u, exec (.taggedMessage part (.send id)) s = .next u ∧
          u = t.putSend { m with retry := 1, late := none, due := t.cycle + t.micro })))

/-- R252: ARM_INSTALL puts a sound descriptor into a hardware arm, its fill index 0 and every busy entry kept, and refuses an unsound one; a
software arm mapped there keeps its own. R253: BUSY_RETRY sends a message again, and waits twice as long, up to 64 µs, where the entry is still
busy. R254: ARM_QUANTUM, once in a quantum, maps a software arm that a message waits for onto a free hardware arm. Where it rests on log entry 42 it
is the model's choice, and no rule of the spec. -/
def Obligations.Arms : Prop :=
  (∀ (s : State) (part n : Nat) (desc : BitVec 256), s.boot = .ready →
    ∃ u, exec (.armInstall part n desc) s = .next u ∧ u.mem = s.mem ∧ u.launches = s.launches ∧ u.warps = s.warps ∧
      (∀ q, q ≠ part → u.part q = s.part q) ∧
      ((64 ≤ n ∨ (s.part part).armBad n (leBytes desc.toNat 32) = true) → u.parts = s.parts ∧ u.out = s.out ++ [.errorReply part]) ∧
      (n < 64 → (s.part part).armBad n (leBytes desc.toNat 32) = false → u.out = s.out ++ [.ack part] ∧
        (∃ a, Tab.find (u.part part).arms n = some a ∧ a.tag.toNat = natBits desc.toNat 0 32 ∧ a.armed = natBit desc.toNat 63 ∧
          a.prio = natBits desc.toNat 32 3 ∧ a.launch.toNat = natBits desc.toNat 64 64 ∧ a.ring.toNat = natBits desc.toNat 128 64 ∧
          a.count = natBits desc.toNat 192 16 ∧ a.size = natBits desc.toNat 208 16 ∧ a.fill = 0 ∧ a.soft = none ∧
          (Tab.find (s.part part).arms n = none → a.busy = []) ∧
          ∀ o, Tab.find (s.part part).arms n = some o → a.busy = o.busy ++ o.past) ∧
        (∀ j, j ≠ n → Tab.find (u.part part).arms j = Tab.find (s.part part).arms j) ∧
        ∀ j y, (s.part part).soft[j]? = some y → ∃ z, (u.part part).soft[j]? = some z ∧
          (∀ o, Tab.find (s.part part).arms n = some o → o.soft = some j → z = { y with mapped := none, fill := o.fill, busy := o.busy }) ∧
          ((∀ o, Tab.find (s.part part).arms n = some o → o.soft ≠ some j) → z = y))) ∧
  (∀ (s : State) (id : Nat) (r : Retry) (t : State), s.retries.find? (fun y => y.id == id) = some r →
    t = { s with cycle := max s.cycle r.due, retries := s.retries.filter (fun y => y.id != id) } → (s.part r.part).closed = false →
    t.behindLate r.part (r.late.getD s.uid) = false →
    (Unarmed (s.part r.part) r.msg.tag → ∃ u, exec (.busyRetry id) s = .next u ∧
      u = { t with out := s.out ++ [.msgReply r.part r.msg.tag 1] }) ∧
    (∀ n a, (s.part r.part).arms.find? (fun e => e.2.armed && e.2.tag == r.msg.tag) = some (n, a) → r.msg.payload ≠ [] →
      r.msg.payload.length ≤ a.size → a.count ≠ 0 → (∃ k, (a.fill, k) ∈ a.busy) → r.interval ≠ 0 →
      ∃ u, exec (.busyRetry id) s = .next u ∧ u = PutOff { t with out := s.out ++ [.busy r.part r.msg.tag] } r.part r.msg
        (min (2 * r.interval) 64) (min (2 * r.interval) 64 * s.micro) none)) ∧
  (∀ (s : State) (part : Nat), (∀ y ∈ (s.part part).soft, y.pending = false) →
    ∃ u, exec (.armQuantum part) s = .next u ∧ (s.part part).quantumDue ≤ u.cycle ∧ u.mem = s.mem ∧ (∀ q, q ≠ part → u.part q = s.part q) ∧
      u.part part = { s.part part with quantumDue := (s.part part).quantumDue + (s.part part).quantum * s.micro }) ∧
  ∀ (s : State) (part : Nat) (y : SoftArm) (t t' : State) (l : List Byte), (s.part part).soft = [y] → y.pending = true → y.mapped = none →
    (s.part part).arms = [] →
    t = (s.at_ (s.part part).quantumDue).modPart part (fun p => { p with quantumDue := p.quantumDue + p.quantum * s.micro }) →
    t.feRead (t.runXlat part) y.addr 32 = (t', some l) → (t'.part part).armBad 0 l = false → natBit (leNat l) 63 = true →
    natBits (leNat l) 0 32 = y.tag.toNat →
    ∃ u a, exec (.armQuantum part) s = .next u ∧ Tab.find (u.part part).arms 0 = some a ∧ a.tag = y.tag ∧ a.armed = true ∧ a.fill = y.fill ∧
      a.busy = y.busy ∧ a.past = [] ∧ a.soft = some 0 ∧ (u.part part).soft = [{ y with mapped := some 0, pending := false }] ∧
      u.mem = t'.mem ∧ u.warps = s.warps

/-- R303: SEND_PAYLOAD_READ takes the payload from the scratchpad, frees its range and sends the message, at a die that injects; SEND_RESPONSE writes
the status to D, gives the allowance back and lowers w4, the shadow copy's D taking what the primary received; a context that is away gets it later.
R242, R243: CKPT_SERVICE_REPLY to a chunk's query or to the chunk moves the stream on: a chunk that the service lacks is sent, the last one ends the
stream with status 0, a lost link with 4, a refusal with 7; a chunk of a historied page is read as of C, once SETTLED has reached C, and its digest
asked; a status that stands is delivered to D. Where it rests on log entries 41 and 51 it is the model's choice, and no rule of the spec. -/
def Obligations.SendsAndStreams : Prop :=
  (∀ (s : State) (id : Nat) (m : SendMsg), s.sends.find? (fun y => y.id == id && y.payload.isNone) = some m → s.sendStill m = false →
    ∃ u, exec (.sendPayloadRead id) s = .next u ∧ u.mem = s.mem ∧ u.warps = s.warps ∧ u.launches = s.launches ∧ u.reqs = s.reqs ∧
      u.sends = s.sends.map (fun y => if y.id = m.id then
        { m with payload := some (s.scratchGet m.core m.off m.len), due := s.cycle + farDelay } else y) ∧
      (∀ c k, k ∈ (u.core c).locks ↔ k ∈ (s.core c).locks ∧ k.op ≠ m.op) ∧
      (∀ c, (u.core c).scratch = (s.core c).scratch ∧ (u.core c).tiles = (s.core c).tiles) ∧
      u.out = s.out ++ [.sent m.pkg m.part m.tag m.fire m.rwrite m.floor (s.scratchGet m.core m.off m.len)]) ∧
  (∀ (s : State) (id : Nat) (status v : Word) (m : SendMsg) (l : Launch),
    s.sends.find? (fun y => y.id == id && y.payload.isSome) = some m → Tab.find s.launches m.launch = some l →
    (m.shadow = false ∧ v = m.status.getD status ∨
      m.shadow = true ∧ ∃ r, s.redValue m.thread m.access = some r ∧ v = m.status.getD (r.value.headD 0)) →
    (l.offAt m.core = true → ∃ u, exec (.sendResponse id status) s = .next u ∧
      u = { s with sends := s.sends.map (fun y => if y.id = m.id then { m with status := some v } else y) }) ∧
    ∀ (x : Thread) (w : Warp), l.offAt m.core = false → Tab.find s.warps m.thread.warp = some w → s.thread m.thread = some x → x.st ≠ .exited →
      ∃ u y w' l', exec (.sendResponse id status) s = .next u ∧ u.mem = s.mem ∧ u.cores = s.cores ∧ u.reqs = s.reqs ∧
        u.sends = s.sends.filter (fun z => z.id != m.id) ∧ (∀ k, k.warp ≠ m.thread.warp → u.thread k = s.thread k) ∧
        (∀ k t, k ≠ m.thread → s.thread k = some t → ∃ z, u.thread k = some z ∧ z.pos = t.pos ∧ z.st = t.st ∧ ∀ j, z.raw j = t.raw j ∧
          z.isVoid j = t.isVoid j) ∧ u.thread m.thread = some y ∧
        (∀ d, m.dst = some d → d < 68 → (∃ a ∈ x.async, a.req = m.id ∧ a.loc = d ∧ a.lost = false) → y.raw d = v ∧ y.isVoid d = false) ∧
        (∀ j, some j ≠ m.dst → y.raw j = x.raw j) ∧ y.pos = x.pos ∧ y.st = x.st ∧ y.flags = x.flags ∧
        Tab.find u.launches m.launch = some l' ∧
        (∀ k, m.shadow = false → l.caps[m.cap]? = some k → l'.caps[m.cap]? = some { k with allow := k.allow + m.len }) ∧
        (∀ i, i ≠ m.cap → l'.caps[i]? = l.caps[i]?) ∧ (m.shadow = true → l' = l) ∧
        Tab.find u.warps m.thread.warp = some w' ∧ w'.s = w.s ∧ w'.preds = w.preds ∧
        ∀ o, w.out.find? (fun o => o.word == m.word) = some o → o.left ≤ 1 → w'.ctr = (w.ctrDown o.ctr s.cycle).ctr) ∧
  ∀ (s : State) (id : Nat) (c : Ckpt) (reply : CkptReply), s.ckpts.find? (fun y => y.id == id) = some c → c.shadow = false →
    (∀ v l, c.status = some v → Tab.find s.launches c.launch = some l →
      (l.awayAt c.core = true → ∃ u, exec (.ckptServiceReply id reply) s = .next u ∧ u = s.putCkpt { c with status := some v }) ∧
      ∀ x, l.awayAt c.core = false → s.thread c.thread = some x → x.st ≠ .exited →
        ∃ u y, exec (.ckptServiceReply id reply) s = .next u ∧ u.mem = s.mem ∧ u.ckpts = s.ckpts.filter (fun z => z.id != c.id) ∧
          (∀ k, k.warp ≠ c.thread.warp → u.thread k = s.thread k) ∧ u.thread c.thread = some y ∧
          (∀ j, some j ≠ c.dst → y.raw j = x.raw j) ∧ y.pos = x.pos ∧ y.st = x.st ∧
          ∀ d, c.dst = some d → d < 68 → (∃ a ∈ x.async, a.req = c.id ∧ a.loc = d ∧ a.lost = false) → y.raw d = v ∧ y.isVoid d = false) ∧
    (c.status = none →
      (reply = .absent → c.stage = .asked → dieOf c.core ∉ s.pausedDies →
        ∃ u, exec (.ckptServiceReply id reply) s = .next u ∧
          u = { s.putCkpt { c with stage := .sent, due := s.cycle + farDelay } with out := s.out ++ [.ckChunk c.endpoint c.ckid (c.chunk * 65536) c.data] }) ∧
      (reply = .absent → c.stage = .asked → dieOf c.core ∈ s.pausedDies →
        ∃ u, exec (.ckptServiceReply id reply) s = .next u ∧ u = s.putCkpt { c with stage := .sending }) ∧
      (c.stage = .sending → dieOf c.core ∉ s.pausedDies →
        ∃ u, exec (.ckptServiceReply id reply) s = .next u ∧
          u = { s.putCkpt { c with stage := .sent, due := s.cycle + farDelay } with out := s.out ++ [.ckChunk c.endpoint c.ckid (c.chunk * 65536) c.data] }) ∧
      (∀ code, (c.stage = .asked ∨ c.stage = .sent) →
          (reply = .linkLost ∧ code = 4) ∨ (reply = .refuse ∧ code = 7) ∨
            ((reply = .held ∨ (reply = .absent ∧ c.stage = .sent)) ∧ code = 0 ∧ c.len / 65536 ≤ c.chunk + 1) →
        ∃ u, exec (.ckptServiceReply id reply) s = .next u ∧ u = { s with ckpts := u.ckpts } ∧ u.ckpts.length = s.ckpts.length ∧
          (∀ z ∈ s.ckpts, z.id ≠ c.id → z ∈ u.ckpts) ∧ ∃ z ∈ u.ckpts, z.id = c.id ∧ z.thread = c.thread ∧ z.dst = c.dst ∧ z.status = some code) ∧
      ∀ t e, c.stage = .reading → dieOf c.core ∉ s.pausedDies → s.ckptXlat c.xlat c.va = (t, .ok (some e)) → e.attrs.hist = true →
        (t.tickHeld = false → t.settled.toNat < c.floor.toNat →
          ∃ u, exec (.ckptServiceReply id reply) s = .next u ∧ u = t.putCkpt { c with due := t.cycle + farDelay }) ∧
        ∀ data, (t.tickHeld = true ∨ c.floor.toNat ≤ t.settled.toNat) → t.chainMoving (e.phys c.va) = false → data.length = 65536 →
          (∀ i, i < 1024 → ∃ x, t.asofLine c.xlat.part (e.phys c.va / 64 + i) c.floor = .found ((data.drop (64 * i)).take 64) x) →
          ∃ u, exec (.ckptServiceReply id reply) s = .next u ∧ u.mem = t.mem ∧ u.warps = t.warps ∧
            u.out = t.out ++ [.ckQuery c.endpoint c.ckid (c.chunk * 65536) (sha256 data)] ∧
            ∃ z ∈ u.ckpts, z = { c with stage := .asked, data := data, due := t.cycle + farDelay })

/-- R258 to R263: DISPATCH_PLACE puts the next group of the first launch in order that fits onto a cluster: each block with its identifier and area,
its warps at their homes with every thread at ENTRY, v registers 0, k slots void, and the launch's values in s0 to s7, on cores that R260 clears;
BACKFILL_BLOCK_TIMEOUT makes the launch that has waited 10 ms hold back those after it; BLOCK_RETIRE releases a block and ends its launch with the
last one, and its ring entry is free again. Where it rests on log entries 1 and 39 it is the model's choice, and no rule of the spec. -/
def Obligations.Dispatcher : Prop :=
  (∀ (s : State) (part n : Nat) (rest : List Nat) (l : Launch) (cl : Nat), s.pending part = n :: rest → Tab.find s.launches n = some l →
    l.rcd.res = false → l.rcd.red = false → l.capsRead = true → l.nextBlock < l.rcd.blocks → s.spot n l = some (cl, none) →
    ∃ u, exec (.dispatchPlace part) s = .next u ∧ u.mem = s.mem ∧ u.reqs = s.reqs ∧ u.parts = s.parts ∧
      (Tab.find u.launches n).map Launch.nextBlock = some (l.nextBlock + l.nextGroup.2.length) ∧
      (∀ k, k ≠ n → Tab.find u.launches k = Tab.find s.launches k) ∧
      (∀ k : TKey, k.warp < s.uid → u.thread k = s.thread k) ∧ (∀ k, k < s.uid → Tab.find u.blocks k = Tab.find s.blocks k) ∧
      (∀ i ∈ l.nextGroup.2, ∀ q ∈ l.rcd.cores i, (u.core (clusterCore cl q)).scratch = [] ∧ (u.core (clusterCore cl q)).tiles = [] ∧
        (u.core (clusterCore cl q)).l1 = []) ∧
      ∀ i ∈ l.nextGroup.2, ∃ key b, Tab.find u.blocks key = some b ∧ b.launch = n ∧ b.shadow = false ∧ b.size = l.rcd.area ∧ b.halt = none ∧
        b.id = l.rcd.groupId l.nextGroup.1 * 2 ^ levelWidth l.rcd.levels 2 + i ∧ b.warps.length = l.rcd.extent 1 ∧
        (∀ q ∈ l.rcd.cores i, Tab.find b.areas (clusterCore cl q) =
          some ((l.nextGroup.2.filter (fun j => decide (j < i) && (l.rcd.cores j).contains q)).length * l.rcd.area)) ∧
        ∀ f, f < l.rcd.extent 1 → ∃ w x, b.warps[f]? = some w ∧ Tab.find u.warps w = some x ∧ x.launch = n ∧ x.block = key ∧ x.num = f ∧
          x.core = clusterCore cl (l.rcd.home i f).1 ∧ x.lane = (l.rcd.home i f).2 ∧ x.floor = l.floor ∧ x.ext = false ∧
          x.ctr = Vector.replicate 6 0 ∧ x.preds = Vector.replicate 12 0 ∧
          x.s.toList.take 8 = Dword.words l.rcd.args ++ Dword.words l.payAddr ++ Dword.words l.recAddr ++
            [BitVec.ofNat 32 l.payLen, l.tag] ∧
          x.threads.length = l.rcd.extent 0 ∧ ∀ t ∈ x.threads, t.st = .ready ∧ t.pos = ⟨l.rcd.entry, 0⟩ ∧ t.v = Vector.replicate 64 0 ∧
            t.vvoid = 0 ∧ t.kvoid = 0xF ∧ t.flags = 0 ∧ t.rmode = 0 ∧ t.trap.cause = .none ∧ t.async = [] ∧ t.deferred = []) ∧
  (∀ (s : State) (part n c : Nat), s.backfillDue part = some (n, c) →
    ∃ u, exec (.backfillBlockTimeout part) s = .next u ∧ c ≤ u.cycle ∧
      (∃ l, Tab.find s.launches n = some l ∧ Tab.find u.launches n = some { l with blocks := true } ∧ c = l.waitSince + 10000 * s.micro) ∧
      (∀ m, m ≠ n → Tab.find u.launches m = Tab.find s.launches m) ∧ u.mem = s.mem ∧ u.warps = s.warps ∧ u.blocks = s.blocks) ∧
  ∀ (s : State) (b n : Nat) (x : Block) (l : Launch), Tab.find s.blocks b = some x → x.launch = n → Tab.find s.launches n = some l →
    s.retireMay b = true → s.twinBlock b = none → s.unitsDone b = true → s.foreignOps b = [] → s.blockSucc b = none →
    ∃ u, exec (.blockRetire b) s = .next u ∧ u.mem = s.mem ∧ Tab.find u.blocks b = none ∧ (∀ w ∈ u.warps, w.2.block ≠ b) ∧
      ((l.nextBlock < l.rcd.blocks ∨ l.retired + 1 < l.rcd.blocks) →
        Tab.find u.launches n = some { l with retired := l.retired + 1, exitFloor := umax l.exitFloor (s.blockFloor b) } ∧
        (∀ k, k ≠ n → Tab.find u.launches k = Tab.find s.launches k) ∧ (∀ k, k ≠ b → Tab.find u.blocks k = Tab.find s.blocks k) ∧
        (∀ w y, Tab.find s.warps w = some y → y.block ≠ b → Tab.find u.warps w = some y) ∧ u.parts = s.parts) ∧
      (l.rcd.blocks ≤ l.nextBlock → l.rcd.blocks ≤ l.retired + 1 → l.rcd.succ = 0 →
        Tab.find u.launches n = none ∧ (∀ y ∈ u.blocks, y.2.launch ≠ n) ∧ (∀ k, k ≠ n → Tab.find u.launches k = Tab.find s.launches k) ∧
        ∀ h t a, l.ring = some t → Tab.find (s.part l.xlat.part).arms h = some a →
          Tab.find (u.part l.xlat.part).arms h =
            some { a with busy := a.busy.filter (fun y => y.2 != t), past := a.past.filter (fun y => y.2 != t) })

/-- R292, R293, R295: COPY_REQUEST_START of a sound request takes its locks and starts it, and the request goes on as it was read then (R291). R249,
R294, R297: COPY_GRANULE moves the next 256 bytes of a linear copy within the scratchpad, or what is left, records them in RESUME and takes them
from the arrival word's REMAIN. Where it rests on log entries 30 and 57 it is the model's choice, and no rule of the spec. -/
def Obligations.CopyEngine : Prop :=
  (∀ (s : State) (core : Nat) (q : Chain) (rest : List Chain) (x : EngCtx) (a : Nat) (r : CopyReq), (s.core core).copy.queue = q :: rest →
    (s.core core).copy.running = false → (s.core core).copy.waiting = none → (s.core core).copy.read = false → s.engStill q.block = false →
    s.engCtx core q.block = some x → s.ownBytes q.block core q.at_ 64 = some a → r = copyReq (s.scratchGet core a 64) →
    (s.copyArrive x r).isSome = true → s.copyOk x r = true → (q.count + 1 = 64 → r.last = true) →
    s.locksFit (s.copyLocks x q.op a r) = true → s.locksClash (s.copyLocks x q.op a r) = false →
    ∃ u, exec (.copyRequestStart core) s = .next u ∧ u.mem = s.mem ∧ u.reqs = s.reqs ∧ (u.core core).copy.running = true ∧
      (u.core core).copy.req = some r ∧ (r.last = false → u.warps = s.warps) ∧
      (∃ q', (u.core core).copy.queue = q' :: rest ∧ q' = { q with count := q.count + 1, told := q'.told } ∧ (r.last = true → q'.told = true)) ∧
      (∀ e ∈ s.copyLocks x q.op a r, e.2 ∈ (u.core e.1).locks) ∧ (∀ c, ∀ k ∈ (s.core c).locks, k ∈ (u.core c).locks) ∧
      ∀ c, (u.core c).scratch = (s.core c).scratch) ∧
  ∀ (s : State) (core : Nat) (q : Chain) (rest : List Chain) (x : EngCtx) (a w src dst n : Nat) (r : CopyReq),
    (s.core core).copy.queue = q :: rest → (s.core core).copy.running = true → (s.core core).copy.hit = false →
    (s.core core).copy.waiting = none → s.engStill q.block = false → s.engCtx core q.block = some x →
    s.ownBytes q.block core q.at_ 64 = some a → (s.core core).copy.req = some r → s.copyArrive x r = some w → r.op = 0 → r.esz ≤ 4 →
    r.len0 < 2 ^ 32 → r.len0 % 2 ^ r.esz = 0 → r.resume % 256 = 0 → r.resume < r.len0 →
    (∀ i, i < r.len0 → i % 2 ^ r.esz = 0 → s.engPlace x (2 ^ r.esz) (r.src + BitVec.ofInt 64 i) = .scr [(core, src + i)] false) →
    (∀ i, i < r.len0 → i % 2 ^ r.esz = 0 → s.engPlace x (2 ^ r.esz) (r.dst + BitVec.ofInt 64 i) = .scr [(core, dst + i)] false) →
    Disjoint4 src r.len0 dst r.len0 a 64 w 8 → (s.core core).scratch.wf = true → n = min 256 (r.len0 - r.resume) →
    n ≤ (s.core core).scratch.nat w 4 →
    ∃ u, exec (.copyGranule core) s = .next u ∧ u.mem = s.mem ∧ u.reqs = s.reqs ∧
      (∀ i, i < n → (u.core core).scratch.byte (dst + r.resume + i) = (s.core core).scratch.byte (src + r.resume + i)) ∧
      (u.core core).scratch.nat (a + 0x38) 8 = r.resume + n ∧ (u.core core).scratch.nat w 4 + n = (s.core core).scratch.nat w 4 ∧
      (u.core core).scratch.nat (w + 5) 1 = 1 ∧
      (r.resume + n < r.len0 → n < (s.core core).scratch.nat w 4 → (u.core core).copy.req = some { r with resume := r.resume + n } ∧
        (u.core core).copy.running = true ∧ (∀ c k, k ∈ (u.core c).locks ↔ k ∈ (s.core c).locks) ∧ u.warps = s.warps) ∧
      ((r.len0 ≤ r.resume + n ∨ n = (s.core core).scratch.nat w 4) → (u.core core).copy.running = false ∧
        ∀ c k, k ∈ (u.core c).locks ↔ k ∈ (s.core c).locks ∧ k.op ≠ q.op) ∧
      (∀ b, overlap b 1 (dst + r.resume) n = false → overlap b 1 (a + 0x38) 8 = false → overlap b 1 w 8 = false →
        (u.core core).scratch.byte b = (s.core core).scratch.byte b) ∧
      ∀ c, c ≠ core → (u.core c).scratch = (s.core c).scratch

/-- R327, R358: MATRIX_OP_START of a sound operation that nothing stands before takes its locks and starts it; R330: MULTICAST_GROUP_READY lets the
members of a multicast go on together where they agree. R362: MATRIX_OP_COMPLETE of an ACCZ leaves zeros in the tiles of its mask and no other; R351
to R357: of an MMA of one K step, each element's sum of its row's and its column's products, under ACC with the accumulator. Where it rests on log
entries 31 and 57 it is the model's choice, and no rule of the spec. -/
def Obligations.MatrixEngine : Prop :=
  (∀ (s : State) (core : Nat) (o : MatOp) (c : EngCtx), (s.core core).mat.find? (fun o => !o.started) = some o → s.engStill o.block = false →
    s.engCtx core o.block = some c → o.behind c (s.core core).mat (s.engCtx core) = false → s.matOk c o = true →
    s.locksFit (s.matLocks c o) = true → s.matClash (s.matLocks c o) = false →
    ∃ u, exec (.matrixOpStart core) s = .next u ∧ u.mem = s.mem ∧ u.reqs = s.reqs ∧
      (∃ y ∈ (u.core core).mat, y.op = o.op ∧ y.started = true ∧ y.kind = o.kind ∧ y.params = o.params ∧ y.steps = o.steps) ∧
      (∀ e ∈ s.matLocks c o, e.2 ∈ (u.core e.1).locks) ∧ ∀ q, (u.core q).scratch = (s.core q).scratch ∧ (u.core q).tiles = (s.core q).tiles) ∧
  (∀ (s : State) (core : Nat) (ms : List (Nat × MatOp × Mma)) (o : MatOp) (x : Mma), s.groupReady core = some ms →
    s.groupOp core = some (o, x) → (∀ r ∈ ms, x.agree r.2.2 = true) →
    ∃ u, exec (.multicastGroupReady core) s = .next u ∧ u.mem = s.mem ∧ u.warps = s.warps ∧
      (∀ q, (u.core q).scratch = (s.core q).scratch ∧ (u.core q).tiles = (s.core q).tiles ∧ (u.core q).locks = (s.core q).locks) ∧
      ∀ r ∈ ms, ∃ y ∈ (u.core r.1).mat, y.op = r.2.1.op ∧ y.started = true ∧ y.group = false) ∧
  (∀ (s : State) (core op : Nat) (o : MatOp) (c : EngCtx) (m : BitVec 16),
    (s.core core).mat.find? (fun o => o.op == op && o.started && !o.group) = some o → o.kind = .zero m → o.hit = false → o.waiting = none →
    o.arrive = none → s.engStill o.block = false → s.engCtx core o.block = some c → (∀ t ∈ maskTiles m, t ∉ (s.core core).stuckTiles) →
    (s.core core).tiles.Pairwise (fun a b => a.1 < b.1) →
    ∃ u, exec (.matrixOpComplete core op) s = .next u ∧ u.mem = s.mem ∧ u.warps = s.warps ∧ (∀ y ∈ (u.core core).mat, y.op ≠ op) ∧
      (∀ t ∈ maskTiles m, t ∉ (u.core core).badTiles) ∧ (u.core core).scratch = (s.core core).scratch ∧
      ∀ t i j, t < 16 → i < 64 → j < 64 →
        (u.core core).tileAt t i j = if m.getLsbD t = true then 0 else (s.core core).tileAt t i j) ∧
  ∀ (s : State) (core op : Nat) (o : MatOp) (c : EngCtx) (sp : Bool) (x : Mma) (af : Nat) (s1 : State)
      (pages : List ((Nat × Bool) × TlbEntry)),
    (s.core core).mat.find? (fun o => o.op == op && o.started && !o.group) = some o → o.kind = .mma sp → o.hit = false → o.waiting = none →
    s.engStill o.block = false → s.engCtx core o.block = some c → s.matHeld core o = false →
    x = mmaOf sp (c.slot o.slot) o.params → af = slotA_ x.slot → o.steps = 0 →
    x.k = kStep af → dimOk x.m = true → dimOk x.n = true → tilesOk af x.tile x.m x.n = true →
    (s.core core).tiles.Pairwise (fun a b => a.1 < b.1) → s.matPages core c o 0 (s.piecePages c false x.pieces) = (s1, some pages) →
    s1.tileUe core c o = false → s1.piecePoison c pages x.pieces = false → s1.badMeta c pages x = false →
    (∀ a w, o.arrive = some a → s.ownBytes o.block core a 8 = some w → 1 ≤ (s.core core).scratch.nat w 4) →
    ∃ u, exec (.matrixOpComplete core op) s = .next u ∧ u.mem = s1.mem ∧ (∀ y ∈ (u.core core).mat, y.op ≠ op) ∧
      (∀ k i j, k < 16 → i < 64 → j < 64 → (k < x.tile ∨ x.tile + tileCount af x.m x.n ≤ k) →
        (u.core core).tileAt k i j = (s.core core).tileAt k i j) ∧
      ∀ m j, m < x.m → j < x.n →
        (u.core core).accAt af x.tile x.n m j =
          stepSum af (slotB_ x.slot) c.rcd.nbv 0 (s1.scaleA c pages x m 0) (s1.scaleB c pages x j 0)
            ((s1.rowA c pages x m 0).map (fun p => (p.1, p.2, s1.engNat c pages
              (x.b + BitVec.ofNat 64 (if x.bt then j * x.ldb + p.1 * elemBytes af else p.1 * x.ldb + j * elemBytes af)) (elemBytes af))))
            (if x.acc = true then (s.core core).accAt af x.tile x.n m j else 0) % (if af = 0 then 2 ^ 64 else 2 ^ 32)

/-- R370, R380, R381: RULE_STEP_START of a step whose descriptor passes sets TARGET to GEN + G and RUN, and locks the planes and the descriptor.
R365, R367, R376: RULE_GENERATION gives every cell of a SYNC tile its new code in the other plane, and in CHEQ first the cells whose coordinates'
sum is even and then the others, in the one plane; and counts GEN. Where it rests on log entry 33 it is the model's choice, and no rule of the spec.
-/
def Obligations.Waffle : Prop :=
  (∀ (s : State) (core base size off : Nat) (o : RuleStep) (rest : List RuleStep) (d : RuleDesc), (s.waffle core).queue = o :: rest →
    o.started = false → s.engStill o.block = false → s.boundDesc core = some (base, size, off, d) → d.ok size = true → d.apart off = true →
    d.run = false → 1 ≤ o.g.toNat → o.g.toNat ≤ d.h → s.locksFit (ruleLocks core o base off d) = true →
    s.locksClash (ruleLocks core o base off d) = false → (s.core core).scratch.wf = true →
    ∃ u, exec (.ruleStepStart core) s = .next u ∧ u.mem = s.mem ∧ (u.waffle core).queue.head? = some { o with started := true } ∧
      (u.core core).scratch.nat (base + off + 0x18) 4 = (d.gen + o.g.toNat) % 2 ^ 32 ∧ (u.core core).scratch.nat (base + off + 0x1C) 4 = 1 ∧
      (∀ b, b < base + off + 0x18 ∨ base + off + 0x20 ≤ b → (u.core core).scratch.byte b = (s.core core).scratch.byte b) ∧
      ∀ e ∈ ruleLocks core o base off d, e.2 ∈ (u.core core).locks) ∧
  ∀ (s : State) (core base size off : Nat) (o : RuleStep) (rest : List RuleStep) (d : RuleDesc) (t : Tab (BitVec 4)) (p : Nat),
    (s.waffle core).queue = o :: rest → o.started = true → s.engStill o.block = false → (s.waffle core).hit = false →
    (s.waffle core).half = false → s.boundDesc core = some (base, size, off, d) → d.ok size = true → d.apart off = true →
    overlap d.arrive 8 off 64 = false → d.gen < d.target → (s.core core).scratch.wf = true → t = (s.waffle core).table →
    p = leNat (s.scratchGet core (base + d.live) d.planeBytes) →
    ∃ u, exec (.ruleGeneration core) s = .next u ∧ u.mem = s.mem ∧ (u.core core).scratch.nat (base + off + 0x14) 4 = (d.gen + 1) % 2 ^ 32 ∧
      (d.mode = 0 → leNat (u.scratchGet core (base + d.live) d.planeBytes) = p ∧ ∀ i j, i < d.wid → j < d.ht →
        d.cell (leNat (u.scratchGet core (base + if d.gen % 2 = 0 then d.bbase else d.tbase) d.planeBytes)) i j = d.newCode t p i j) ∧
      (d.mode = 1 → ∃ p1, ∀ i j, i < d.wid → j < d.ht →
        d.cell p1 i j = (if (i + j) % 2 = 0 then d.newCode t p i j else d.cell p i j) ∧
        d.cell (leNat (u.scratchGet core (base + d.tbase) d.planeBytes)) i j = (if (i + j) % 2 = 1 then d.newCode t p1 i j else d.cell p1 i j))

/-- R232, R237: PARTITION_ENTRY_WRITE puts a sound entry and resets the partition that an enabled entry held: its contexts, queues and streams are
gone, what asked it anything draws an error, its clusters are as after reset, and HORIZON is the reference tick's; an unsound one is refused;
PARTITION_RESET_COMPLETE ends the reset. R236, R238: a dead link pauses its die and counts what was lost against its sources, until REROUTE_RESUME;
LINK_RETRAIN counts one for its link; the counters saturate, and ERROR_COUNTER_CLEAR clears the one that its reader reads, once firmware is ready.
Where it rests on log entries 26, 37 and 45 it is the model's choice, and no rule of the spec. -/
def Obligations.Partitions : Prop :=
  (∀ (s : State) (n : Nat) (v : Word), s.boot = .ready →
    (s.entryBad n v = true → ∃ u, exec (.partitionEntryWrite n v) s = .next u ∧ u = { s with out := s.out ++ [.errorReply n] }) ∧
    (s.entryBad n v = false → ∃ u, exec (.partitionEntryWrite n v) s = .next u ∧ u.mem = s.mem ∧ (u.part n).entry = v ∧ .ack n ∈ u.out ∧
      (∀ q, q ≠ n → (u.part q).entry = (s.part q).entry) ∧
      (natBit (s.part n).entry.toNat 31 = false → u.part n = { s.part n with entry := v } ∧ u.launches = s.launches ∧ u.warps = s.warps) ∧
      (natBit (s.part n).entry.toNat 31 = true → (u.part n).fenced = true ∧ (u.part n).resetting = true ∧ (u.part n).pool = [] ∧
        (u.part n).horizon = BitVec.ofNat 64 (s.refTick.toNat * 65536) ∧
        (∀ l ∈ u.launches, l.2.xlat.part ≠ n) ∧ (∀ q ∈ u.queues, q.1.part ≠ n) ∧ (∀ c ∈ u.ckpts, c.xlat.part ≠ n) ∧
        (∀ i ∈ u.invals, i.part ≠ n) ∧ (∀ r ∈ u.retries, r.part ≠ n) ∧
        ((∃ i ∈ s.invals, i.part = n ∧ i.by_ = none) ∨ (∃ r ∈ s.retries, r.part = n) → .errorReply n ∈ u.out) ∧
        ∀ c ∈ (s.part n).clusters, ∀ q, q < Config.coresPerCluster →
          u.core (clusterCore c q) = { Core.reset with resetAt := s.cycle }))) ∧
  (∀ (s : State) (p : Nat), (s.part p).resetting = true →
    ∃ u, exec (.partitionResetComplete p) s = .next u ∧ u.part p = { s.part p with fenced := false, resetting := false } ∧
      (∀ q, q ≠ p → u.part q = s.part q) ∧ u.mem = s.mem ∧ u.launches = s.launches ∧ u.warps = s.warps) ∧
  (∀ (s : State) (die link : Nat) (lost : List Nat),
    (Config.linkOk die link = false → ∃ u, exec (.linkDead die link lost []) s = .next u ∧ u = s) ∧
    (Config.linkOk die link = true → ∃ u, exec (.linkDead die link lost []) s = .next u ∧
      u = { s with pausedDies := u.pausedDies, deadLinks := u.deadLinks, linkLost := u.linkLost } ∧
      (∀ d, d ∈ u.pausedDies ↔ d ∈ s.pausedDies ∨ d = die) ∧ (∀ e, e ∈ u.deadLinks ↔ e ∈ s.deadLinks ∨ e = (die, link)) ∧
      ∀ c, countIn u.linkLost c = min (countIn s.linkLost c + (s.reqs.filter (fun r => lost.contains r.id && r.core == c)).length) (2 ^ 32 - 1))) ∧
  (∀ (s : State) (die : Nat), ∃ u, exec (.rerouteResume die) s = .next u ∧ u = { s with pausedDies := u.pausedDies } ∧
    ∀ d, d ∈ u.pausedDies ↔ d ∈ s.pausedDies ∧ d ≠ die) ∧
  (∀ (s : State) (link : Nat),
    (Config.links ≤ link → ∃ u, exec (.linkRetrain link) s = .next u ∧ u = s) ∧
    (link < Config.links → ∃ u, exec (.linkRetrain link) s = .next u ∧ u = { s with linkRetrains := u.linkRetrains } ∧
      ∀ k, countIn u.linkRetrains k =
        if k = link then min (countIn s.linkRetrains k + 1) (2 ^ 32 - 1) else countIn s.linkRetrains k)) ∧
  ∀ (s : State) (r : CtrReader) (c : ErrCtr), s.boot = .ready → ∃ u, exec (.errorCounterClear r c) s = .next u ∧
    match c, r with
    | .uncorrected p, .vf q => if p = q then (∀ k, k ≠ p → u.part k = s.part k) ∧ u.part p = { s.part p with uncorrected := 0 } else u = s
    | .correctedSram p k, .vf q => if p = q then (∀ j, j ≠ p → u.part j = s.part j) ∧ countIn (u.part p).corrected k = 0 ∧
        (∀ j, j ≠ k → countIn (u.part p).corrected j = countIn (s.part p).corrected j) else u = s
    | .pageQueue k, .vf q => if k.part = q then (∀ j, j ≠ k → u.queue j = s.queue j) ∧
        (k ∈ s.queues.map (·.1) → u.queue k = { s.queue k with errors := 0 }) else u = s
    | .tardy p, .hypervisor => (∀ k, k ≠ p → u.part k = s.part k) ∧ u.part p = { s.part p with tardy := 0 }
    | .sliceCorrected n, .host => u = { s with sliceCorrected := u.sliceCorrected } ∧ countIn u.sliceCorrected n = 0 ∧
        ∀ k, k ≠ n → countIn u.sliceCorrected k = countIn s.sliceCorrected k
    | .stackCorrected n, .host => u = { s with stackCorrected := u.stackCorrected } ∧ countIn u.stackCorrected n = 0 ∧
        ∀ k, k ≠ n → countIn u.stackCorrected k = countIn s.stackCorrected k
    | .linkFec d l, .host => u = { s with linkFec := u.linkFec } ∧ countIn u.linkFec (linkNum d l) = 0 ∧
        ∀ k, k ≠ linkNum d l → countIn u.linkFec k = countIn s.linkFec k
    | .linkRetrains d l, .host => u = { s with linkRetrains := u.linkRetrains } ∧ countIn u.linkRetrains (linkNum d l) = 0 ∧
        ∀ k, k ≠ linkNum d l → countIn u.linkRetrains k = countIn s.linkRetrains k
    | .linkLost n, .host => u = { s with linkLost := u.linkLost } ∧ countIn u.linkLost n = 0 ∧
        ∀ k, k ≠ n → countIn u.linkLost k = countIn s.linkLost k
    | .uncorrected _, _ | .correctedSram _ _, _ | .pageQueue _, _ | .tardy _, _ | .sliceCorrected _, _ | .stackCorrected _, _ | .linkFec _ _, _
    | .linkRetrains _ _, _ | .linkLost _, _ => u = s

/-- R184: a HOST_ATOMIC on a page with SA and WRITE answers the old value and leaves the new one, and draws an error where the page lacks either.
R232, R241: a REMOTE_WRITE stores its bytes and is acknowledged, and draws RETRY where its frame is being moved. R241: FRAME_MIGRATION's first step
marks the frame and drops the translations to it, its second waits for what is on its way to the frame and then moves its chains, its third copies
the frame, its fourth rewrites the leaves that name it, and its last takes the mark away. Where it rests on log entries 26, 27, 44 and 56 it is the
model's choice, and no rule of the spec. -/
def Obligations.OutsideAccesses : Prop :=
  (∀ (s : State) (part : Nat) (addr : Dword) (data : List Byte), s.boot = .ready → (s.part part).closed = false →
    (∀ (e : TlbEntry) (met : List Nat), data ≠ [] → data.length ≤ 64 - addr.toNat % 64 →
      s.walkAll (s.runXlat part) addr.toNat = (.ok e, met) →
      s.leavesSeen met = true → e.attrs.write = true → e.attrs.hist = false → e.dirty = true → s.mem.wf = true →
      ∃ u, exec (.remoteWrite part addr data) s = .next u ∧ u.mem.bytes (e.phys addr.toNat) data.length = data ∧
        (∀ a, a < e.phys addr.toNat ∨ e.phys addr.toNat + data.length ≤ a → u.mem.byte a = s.mem.byte a) ∧ u.out = s.out ++ [.ack part] ∧
        u.warps = s.warps ∧ u.reqs = s.reqs) ∧
    ∀ t, s.feStore (s.runXlat part) addr.toNat 0 data = (t, .later) →
      ∃ u, exec (.remoteWrite part addr data) s = .next u ∧ u = { t with out := t.out ++ [.retry part] }) ∧
  (∀ (s : State) (part : Nat) (addr x cmp : Dword) (op : AtomOp) (w64 signed : Bool) (e : TlbEntry) (met : List Nat) (n : Nat),
    s.boot = .ready → (s.part part).closed = false → n = (if w64 = true then 8 else 4) → addr.toNat % n = 0 →
    s.walkAll (s.runXlat part) addr.toNat = (.ok e, met) → s.leavesSeen met = true →
    (e.attrs.write = false ∨ e.attrs.sa = false → ∃ u, exec (.hostAtomic part addr op w64 signed x cmp) s = .next u ∧
      u = { s with out := s.out ++ [.errorReply part] }) ∧
    (e.attrs.write = true → e.attrs.sa = true → e.attrs.hist = false → e.dirty = true → lineOf (e.phys addr.toNat) ∉ s.poison → s.mem.wf = true →
      ∃ u, exec (.hostAtomic part addr op w64 signed x cmp) s = .next u ∧
        u.mem.nat (e.phys addr.toNat) n = (atomNew op w64 signed (BitVec.ofNat 64 (s.mem.nat (e.phys addr.toNat) n)) x cmp).toNat ∧
        (∀ a, a < e.phys addr.toNat ∨ e.phys addr.toNat + n ≤ a → u.mem.byte a = s.mem.byte a) ∧
        u.out = s.out ++ [.atomicReply part (BitVec.ofNat 64 (s.mem.nat (e.phys addr.toNat) n))] ∧ u.warps = s.warps ∧ u.reqs = s.reqs)) ∧
  (∀ (s : State) (part old new : Nat), s.migrations = [] → (∀ r ∈ s.reqs, r.stage ≠ .held) → old % 65536 = 0 → new % 65536 = 0 → old ≠ new →
    ∃ u, exec (.frameMigration part old new 0) s = .next u ∧
      u.migrations = [{ part := part, old := old, new := new, stage := 1, waits := [] }] ∧
      u.mem = s.mem ∧ u.warps = s.warps ∧ u.reqs = s.reqs ∧
      (∀ c e, e ∈ (u.core c).tlb ↔ e ∈ (s.core c).tlb ∧ ¬ (e.pa ≤ old ∧ old < e.pa + 2 ^ e.log))) ∧
  ∀ (s : State) (part old new : Nat) (m : Migration), s.migrations.find? (fun m => m.part == part && m.old == old && m.new == new) = some m →
    s.migrations = [m] → old % 65536 = 0 → new % 65536 = 0 → old ≠ new → s.mem.wf = true →
    (m.stage = 1 → s.onWay old = true → ∃ u, exec (.frameMigration part old new 1) s = .next u ∧ u = s) ∧
    (m.stage = 1 → s.onWay old = false → ∃ u, exec (.frameMigration part old new 1) s = .next u ∧ u.mem = s.mem ∧ u.warps = s.warps ∧
      u.migrations = [{ m with stage := 2 }] ∧
      ∀ p, (u.part p).pool = (s.part p).pool.map (fun e =>
        { e with line := if e.line / 1024 = old / 65536 then new / 65536 * 1024 + e.line % 1024 else e.line })) ∧
    (m.stage = 2 → ∃ u, exec (.frameMigration part old new 2) s = .next u ∧ u.warps = s.warps ∧ u.parts = s.parts ∧
      u.migrations = [{ m with stage := 3 }] ∧ (∀ i, i < 65536 → u.mem.byte (new + i) = s.mem.byte (old + i)) ∧
      (∀ a, a < new ∨ new + 65536 ≤ a → u.mem.byte a = s.mem.byte a)) ∧
    (∀ leaves, m.stage = 3 → new < 2 ^ 52 →
      leaves = ((s.roots2 part).flatMap (frameLeaves s.mem old walkLevels.length)).eraseDups →
      ∃ u, exec (.frameMigration part old new 3) s = .next u ∧ u.warps = s.warps ∧
        u.migrations = [{ m with stage := 4, waits := s.frozenWaits }] ∧
        (∀ a ∈ leaves, u.mem.nat a 8 + old = s.mem.nat a 8 + new) ∧
        ∀ b, (∀ a ∈ leaves, b < a ∨ a + 8 ≤ b) → u.mem.byte b = s.mem.byte b) ∧
    (m.stage = 4 → m.waits = [] → s.frozenWaits = [] → ∃ u, exec (.frameMigration part old new 4) s = .next u ∧ u = { s with migrations := [] })

/-- R244: POWER_ON checks the image's signature, starts firmware where it holds and keeps the failure's code where not, and on its second turn makes
the device ready with the tick at 1; until then a message from outside draws NOT_READY. ATTESTATION_REQUEST answers a signed report: the nonce, the
image's digest and version, and the partition entries. R245: POWER_CAP changes no state but the clock's: what is due in time stays as far off in it.
R246: SUPPLY_REMOVED keeps nothing, and nothing runs until power comes on. Where it rests on log entries 5, 6 and 9 it is the model's choice, and no
rule of the spec. -/
def Obligations.Power : Prop :=
  (∀ (s : State) (cfg : BootCfg), s.supply = true →
    (s.boot = .bringUp → s.imageOk = true →
      (cfg.sigOk = true → exec (.powerOn cfg) s = .next { s with boot := .starting, digest := cfg.digest, version := cfg.version }) ∧
      (cfg.sigOk = false → exec (.powerOn cfg) s = .next { s with imageOk := false, failCode := cfg.failCode })) ∧
    (s.boot = .bringUp → s.imageOk = false → exec (.powerOn cfg) s = .next s) ∧
    (s.boot = .starting → ∃ u, exec (.powerOn cfg) s = .next u ∧ u.boot = .ready ∧ u.refTick = 1 ∧ u.settled = 0 ∧ u.warps = s.warps ∧
      u.cxl = (cfg.cxl.take 4).map (fun n => min n (2 ^ 41)) ∧ (cfg.contexts = [] → u.slices = [] ∧ u.mem = s.mem ∧ u.launches = s.launches)) ∧
    (s.boot = .ready → exec (.powerOn cfg) s = .next s)) ∧
  (∀ (s : State) (cfg : BootCfg), s.supply = false → ∃ t, t.boot = .bringUp ∧ t.mem = [] ∧ t.warps = [] ∧ t.launches = [] ∧ t.parts = [] ∧
    t.supply = true ∧ exec (.powerOn cfg) s = exec (.powerOn cfg) t) ∧
  (∀ (s : State) (i : Instr), s.boot ≠ .ready →
    ((∃ v, i = .tickholdWrite v) ∨ (∃ k r v, i = .queueConfigWrite k r v) ∨ (∃ k v, i = .reqHeadWrite k v) ∨ (∃ k v, i = .rspTailWrite k v) ∨
      (∃ p k v a x, i = .mgmtInvalidate p k v a x) ∨ (∃ l, i = .contextDiscard l) ∨ (∃ p n d, i = .armInstall p n d) ∨
      (∃ n v, i = .partitionEntryWrite n v) ∨ (∃ n, i = .attestationRequest n) ∨ (∃ p m, i = .taggedMessage p (.ext m)) ∨
      (∃ p a d, i = .remoteWrite p a d) ∨ (∃ p a o w g x c, i = .hostAtomic p a o w g x c) ∨ (∃ r c, i = .errorCounterClear r c)) →
    exec i s = .next { s with out := s.out ++ [.notReady] }) ∧
  (∀ (s : State) (nonce report : List Byte), s.boot = .ready →
    report = nonce ++ s.digest ++ leBytes s.version.toNat 8 ++ (List.range 64).flatMap (fun n => leBytes (s.part n).entry.toNat 4) →
    exec (.attestationRequest nonce) s = .next { s with out := s.out ++ [.attest report (Config.slhDsaSign Config.identityKey report)] }) ∧
  (∀ s : State, (s.powerCap = true → exec .powerCap s = .next s) ∧
    (s.powerCap = false → ∃ u, exec .powerCap s = .next u ∧ u.powerCap = true ∧ u.cycle = s.cycle ∧ u.mem = s.mem ∧ u.warps = s.warps ∧
      u.blocks = s.blocks ∧ u.launches = s.launches ∧ u.cores = s.cores ∧ u.reqs = s.reqs ∧ u.refTick = s.refTick ∧ u.slices = s.slices ∧
      u.tickCycles < s.tickCycles ∧ u.tickDue = s.cycle + (s.tickDue - s.cycle) * u.tickCycles / s.tickCycles)) ∧
  ∀ s : State, ∃ u, exec .supplyRemoved s = .next u ∧ u.supply = false ∧ u.mem = [] ∧ u.warps = [] ∧ u.blocks = [] ∧ u.launches = [] ∧
    u.parts = [] ∧ u.reqs = [] ∧ u.cores = [] ∧ u.boot = .bringUp ∧ u.agenda = s.agenda ∧ (u.agenda = [] → step u = .fault .noSupply)

/-- R18, R58, R67, R68: a step whose turn is a port's runs the instruction that the port's next word decodes to, after its literal run, with time
moved on to the word's pass; a word that does not decode raises its fault. A step whose turn is an event's runs that event. -/
def Obligations.StepRunsWord : Prop :=
  (∀ (s : State) (port : Nat) (turns : List Turn) (b : Bundle) (k : TKey) (l : Launch) (w : Word) (run : List Word) (n start : Nat) (t : State),
    s.supply = true → s.agenda = .port port :: turns → Tab.find s.bundles port = some b → b.fetched = true → b.threads.head? = some k →
    s.launchOf k.warp = some l → n = b.pos + b.lits → b.words[n]? = some w → run = runBefore b.words n → start = max b.due s.cycle →
    t = { s.modBundle port (fun x => { x with pos := n, next := start }) with
          agenda := turns, cycle := start, cur := some { port := port, start := start, first := n - run.length } } →
    (∀ i, decodeWord (s.decCtx b l n) run w = .ok i → step s = exec i t) ∧
    (∀ f, decodeWord (s.decCtx b l n) run w = .error f → f.cause = .reserved → step s = exec (.reservedOpcode w) t) ∧
    ∀ f, decodeWord (s.decCtx b l n) run w = .error f → f.cause ≠ .reserved → step s = .next (t.decodeFault f)) ∧
  ∀ (s : State) (i : Instr) (turns : List Turn), s.supply = true → s.agenda = .event i :: turns → step s = exec i { s with agenda := turns }

/-- R17, R18, R34, R58: PICKER_FORM_BUNDLE leaves an idle port without candidates idle; of candidates that are none stopped it takes a group of one
block and one position, at most 32 of them; and it gives a bundle whose code page is translated and executable the header and the words that memory
holds at its program counter. Where it rests on log entries 12 and 13 it is the model's choice, and no rule of the spec. -/
def Obligations.PickerFormBundle : Prop :=
  (∀ (s : State) (core lane : Nat) (port : Port), Tab.find s.bundles (portKey core lane port) = none → s.cands core lane port = [] →
    exec (.pickerFormBundle core lane port) s = .next s) ∧
  (∀ (s : State) (core lane : Nat) (port : Port) (start : Nat) (now : List Cand),
    Tab.find s.bundles (portKey core lane port) = none →
    startOf ((Tab.find s.portFree (portKey core lane port)).getD 0) s.cycle (s.cands core lane port) = some start →
    now = standing ((Tab.find s.portFree (portKey core lane port)).getD 0) start (s.cands core lane port) → (∀ c ∈ now, c.stop = false) →
    choose start now ≠ [] →
    exec (.pickerFormBundle core lane port) s =
      exec (.pickerFormBundle core lane port) (State.formBundle (s.at_ start) (portKey core lane port) start (choose start now))) ∧
  (∀ (now : Nat) (cs : List Cand), (∀ c ∈ choose now cs, c ∈ cs) ∧
    (∀ c ∈ choose now cs, ∀ d ∈ choose now cs, c.block = d.block ∧ c.pos = d.pos ∧ c.handler = d.handler) ∧
    (bundleOf (choose now cs)).length ≤ 32 ∧ (cs ≠ [] → choose now cs ≠ []) ∧
    ((∃ c ∈ cs, c.paused = false) → ∀ c ∈ choose now cs, c.paused = false) ∧
    ((∀ c ∈ cs, c.waited now ≤ 1024) → (∀ c ∈ cs, c.paused = false) → ∀ c ∈ cs, (cs.filter c.mate).length ≤ (choose now cs).length)) ∧
  ∀ (s t : State) (core lane : Nat) (port : Port) (b : Bundle) (p : Pass) (l : Launch) (pg : Nat) (e : TlbEntry) (h : Header) (ws : List Word),
    Tab.find s.bundles (portKey core lane port) = some b → b.fetched = false →
    (s.at_ b.next).fetchPass (portKey core lane port) b = some p → Tab.find s.launches p.launch = some l →
    (s.at_ b.next).lookPages p l.xlat [p.pc.toNat] true = (t, [(pg, some (.ok e))]) → e.attrs.exec = true →
    h = Header.ofWord (BitVec.ofNat 32 (t.mem.nat (e.phys p.pc.toNat) 4)) → pageOf (p.pc.toNat + 4 * h.n) = pageOf p.pc.toNat → p.pc.toNat % 4 = 0 →
    (∀ i, i ≤ h.n → lineOf (e.phys (p.pc.toNat + 4 * i)) ∉ t.poison) →
    ws = (List.range h.n).map (fun i => BitVec.ofNat 32 (t.mem.nat (e.phys (p.pc.toNat + 4 + 4 * i)) 4)) →
    h.cls.port = port → lane < 32 → clauseReason h ws = none → p.pos < h.n →
    (∀ k ∈ p.keys, ∀ x, s.thread k = some x → x.deferred = []) → p.keys ≠ [] →
    (p.pos = 0 → ∀ k ∈ p.keys, ∀ w, Tab.find s.warps k.warp = some w → w.waitMet h.wait = true) →
    ∃ u b', exec (.pickerFormBundle core lane port) s = .next u ∧ u.mem = s.mem ∧ Tab.find u.bundles (portKey core lane port) = some b' ∧
      b'.fetched = true ∧ b'.hdr = h ∧ b'.words = ws ∧ b'.threads = b.threads ∧ b'.pos = b.pos ∧ ∀ k, u.thread k = s.thread k

/-- Words written out bit by bit from Tables 4.3 to 4.6 and the opcode maps of spec/04 decode to the instructions that they stand for, one of each
class; a guard of 12 to 14 raises ILLEGAL_GUARD, and a scalar register as D ILLEGAL_OPERAND. -/
def Obligations.DecodeWords : Prop :=
  let go (c : Cls) (run : List Word) (w : Word) := decodeWord (DecCtx.open c) run w
  let free : Hd := { guard := .always, k := false }
  (go .gen [] (0b1111#4 ++ 0#1 ++ 0#1 ++ 0#5 ++ 2#7 ++ 0#7 ++ 1#7) = .ok (.iadd { h := free, am := none, d := .v 2, a := .v 0, b := .sel (.v 1) })) ∧
  (go .wide [] (0b0011#4 ++ 1#1 ++ 1#1 ++ 10#5 ++ 4#7 ++ 64#7 ++ 74#7) =
    .ok (.ladd { h := { guard := .pred 3 true, k := true }, am := none, d := .v 4, a := .k 0, b := .sel (.s 2) })) ∧
  (go .mem [0x1F#5 ++ 1#3 ++ 1#24, 0x1F#5 ++ 0#3 ++ 8#24] (0b1111#4 ++ 0#1 ++ 0#1 ++ 4#5 ++ 5#7 ++ 2#7 ++ 70#7) =
    .ok (.ldw { h := free, mm := none, d := .v 5, a := .v 2, b := .imm2 1 8 })) ∧
  (go .ctl [] (0b0000#4 ++ 0#1 ++ 0#1 ++ 0#5 ++ 0x1FFFFE#21) = .ok (.bra { h := { guard := .pred 0 false, k := false }, off := -2 })) ∧
  (go .ctl [] (0b1111#4 ++ 0#1 ++ 0#1 ++ 22#5 ++ 3#7 ++ 4#7 ++ 96#7) = .ok (.sadd { h := free, d := .s 3, a := .s 4, b := .sel .z })) ∧
  (go .eng [] (0b1111#4 ++ 0#1 ++ 0#1 ++ 6#5 ++ 70#7 ++ 1#7 ++ 2#7) = .ok (.arvi { h := free, a := .v 1, b := .sel (.v 2) })) ∧
  (go .rul [] (0b1111#4 ++ 0#1 ++ 0#1 ++ 2#5 ++ 70#7 ++ 1#7 ++ 70#7) = .ok (.rstep { h := free, a := .v 1 })) ∧
  (go .pkd [] (0b1111#4 ++ 0#1 ++ 0#1 ++ 0#5 ++ 4#7 ++ 0#7 ++ 2#7) = .ok (.paddF2 { h := free, am := none, d := .v 4, a := .v 0, b := .v 2 })) ∧
  (go .sys [] (0b1111#4 ++ 0#1 ++ 0#1 ++ 5#5 ++ 70#7 ++ 70#7 ++ 70#7) = .ok (.xsync { h := free })) ∧
  (∃ f, go .gen [] (0b1101#4 ++ 0#1 ++ 0#1 ++ 0#5 ++ 2#7 ++ 0#7 ++ 1#7) = .error f ∧ f.cause = .guard) ∧
  ∃ f, go .gen [] (0b1111#4 ++ 0#1 ++ 0#1 ++ 0#5 ++ 72#7 ++ 0#7 ++ 1#7) = .error f ∧ f.cause = .operand

/-- Every well-formed instruction word, with every operand and literal that its encoding admits, is what its encoding decodes to: no bit of an
encoding is dropped. -/
def Obligations.DecodeEncode : Prop :=
  ∀ (i : Instr) (sg : Sig), i.sig = some sg → i.wf = true → ∃ run w, encode i = run ++ [w] ∧ decodeWord (DecCtx.open sg.cls) run w = .ok i

/-- R162, R167, R213, R244 and Tables 12.3 and 13.1: what reset leaves: the device in bring-up with nothing resident, the tick at 1 and the era 0,
every partition's entry 0, every core's tag table of 10, 2 and 6 with every way invalid, and QCFG 8; memory is in canonical form. Where it rests on
log entries 2, 4 and 5 it is the model's choice, and no rule of the spec. -/
def Obligations.ResetState : Prop :=
  State.reset.boot = .bringUp ∧ State.reset.supply = true ∧ State.reset.warps = [] ∧ State.reset.blocks = [] ∧ State.reset.launches = [] ∧
  State.reset.bundles = [] ∧ State.reset.reqs = [] ∧ State.reset.refTick = 1 ∧ State.reset.era = 0 ∧ State.reset.mem.wf = true ∧
  (∀ p, (State.reset.part p).entry = 0 ∧ (State.reset.part p).fenced = false ∧ (State.reset.part p).hold = 0) ∧
  (∀ c, (State.reset.core c).tags.ls = 10 ∧ (State.reset.core c).tags.lw = 2 ∧ (State.reset.core c).tags.lz = 6 ∧
    (State.reset.core c).tags.base = 0 ∧ (State.reset.core c).tags.ways = []) ∧
  ∀ q, (State.reset.queue q).cfg = 8 ∧ (State.reset.queue q).base = 0 ∧ (State.reset.queue q).reqTail = 0

/-- Every step keeps memory in canonical form, whatever it runs: an instruction word, an event from outside, or one that comes about by itself.
Where it rests on log entry 2 it is the model's choice, and no rule of the spec. -/
def Obligations.MemoryStaysCanonical : Prop := ∀ s u : State, MemoryCanonical s → step s = .next u → MemoryCanonical u

/-- The forms of R69 and Table 4.7 that R89 gives an immediate: the form that the assembler chooses supplies the constant's bits to the machine, no
form that does has fewer literals, and a constant that some form supplies is never refused. -/
def Obligations.ImmediateForms : Prop :=
  ∀ (k : ImmK) (c : Dword),
    (∀ (least : Nat) (f : Asm.ImmForm), Asm.constForm k c least = some f → Supplies k f c) ∧
    ∀ g : Asm.ImmForm, Supplies k g c → Patterned k c → ∃ f, Asm.constForm k c 0 = some f ∧ f.size ≤ g.size

/-- R84: the statuses of the assembler are 0, 1 and 2; an object is written at 0 alone; at 1 it has reported something; and no listing stands
without an object. Where it rests on log entry 53 it is the model's choice, and no rule of the spec. -/
def Obligations.AssemblerStatus : Prop :=
  ∀ (args : List Asm.Text) (files : List (Asm.Text × Asm.Text)),
    let r := Asm.stolf args files
    r.status ≤ 2 ∧ (r.status = 0 ↔ r.obj.isSome = true) ∧ (r.status = 1 → r.diags ≠ []) ∧ (r.lst.isSome = true → r.obj.isSome = true)

end Statements
end

