-- ==== Sys2Proof/Laws/Asm.lean ====
section
/-! SUPPORT. The assembler's shared operations: what a field put into a record keeps, what the fits say, and the forms of an immediate. -/

namespace Sys2Proof.Asm

theorem fitsSigned_iff (x : Int) (n : Nat) : fitsSigned x n = true ↔ -(2 ^ (n - 1) : Int) ≤ x ∧ x < (2 ^ (n - 1) : Int) := by
  simp [fitsSigned]

theorem fits32_iff (c : Dword) : fits32 c = true ↔ -(2 ^ 31 : Int) ≤ c.toInt ∧ c.toInt < (2 ^ 32 : Int) := by
  simp [fits32]

@[simp] theorem formIm_size (p : BitVec 24) : (formIm p).size = 1 := rfl

@[simp] theorem formPair_size (x : BitVec 48) : (formPair x).size = 2 := rfl

theorem formMovi_size_le (w : Word) (least : Nat) : (formMovi w least).size ≤ 1 := by
  unfold formMovi; split <;> simp [ImmForm.size]

/-- A form of a constant has at most two literals and needs no relocation. -/
theorem constForm_shape {k : ImmK} {c : Dword} {least : Nat} {f : ImmForm} (h : constForm k c least = some f) :
    f.size ≤ 2 ∧ f.rel = none := by
  have hm : ∀ w l, (formMovi w l).rel = none := fun w l => by unfold formMovi; split <;> rfl
  have hs := fun w l => formMovi_size_le w l
  cases k <;> simp only [constForm] at h <;> (repeat' split at h) <;>
    first
    | cases h; done
    | (obtain rfl := Option.some.inj h; first | exact ⟨Nat.le_succ_of_le (hs _ _), hm _ _⟩ | exact ⟨by simp, rfl⟩)

@[simp] theorem Options.cut_nil (o : Options) (n : Nat) : o.cut n [] = [] := rfl

/-- Every diagnostic that is reported is one that was found. -/
theorem Options.cut_subset (o : Options) (l : List Diag) (n : Nat) : ∀ d ∈ o.cut n l, d ∈ l := by
  induction l generalizing n with
  | nil => simp
  | cons x r ih =>
    intro d hd
    unfold Options.cut at hd
    split at hd
    · split at hd
      · exact List.mem_cons.2 (.inl (List.mem_singleton.1 hd))
      · rcases List.mem_cons.1 hd with rfl | h
        · simp
        · exact List.mem_cons_of_mem _ (ih _ _ h)
    · rcases List.mem_cons.1 hd with rfl | h
      · simp
      · exact List.mem_cons_of_mem _ (ih _ _ h)

@[simp] theorem abs64_applies (b : List Byte) (off : Nat) (v p : Dword) :
    applyReloc b off .abs64 v p = some (putField b off 8 v.toNat) := rfl

end Sys2Proof.Asm
end

