-- ==== Sys2Proof/Laws/Landing.lean ====
section
/-! SUPPORT. Register storage in time: what a location reads as once the writes in flight for it have landed. -/

namespace Sys2Proof.Machine

theorem setBit_same (m : BitVec n) (i : Nat) (b : Bool) (h : i < n) : (setBit m i b).getLsbD i = b := by
  have h1 : ((BitVec.ofNat n (1 <<< i)).getLsbD i) = true := by simp [BitVec.getLsbD_ofNat, h, Nat.testBit_shiftLeft]
  unfold setBit
  cases b <;> simp [h, h1]

theorem setBit_ne (m : BitVec n) (i j : Nat) (b : Bool) (h : j ≠ i) : (setBit m i b).getLsbD j = m.getLsbD j := by
  by_cases hj : j < n
  · have h1 : ((BitVec.ofNat n (1 <<< i)).getLsbD j) = false := by
      rw [BitVec.getLsbD_ofNat, Nat.one_shiftLeft, Nat.testBit_two_pow_of_ne (Ne.symm h), Bool.and_false]
    unfold setBit
    cases b
    · simp only [Bool.false_eq_true, if_false, BitVec.getLsbD_and, BitVec.getLsbD_not, h1, hj, decide_true, Bool.not_false,
        Bool.and_true]
    · simp only [if_true, BitVec.getLsbD_or, h1, Bool.or_false]
  · rw [BitVec.getLsbD_of_ge _ _ (Nat.le_of_not_lt hj), BitVec.getLsbD_of_ge _ _ (Nat.le_of_not_lt hj)]

@[simp] theorem Thread.raw_setVoid (t : Thread) (l l' : Nat) (b : Bool) : (t.setVoid l b).raw l' = t.raw l' := by
  unfold Thread.setVoid; split <;> rfl

@[simp] theorem Thread.pend_setVoid (t : Thread) (l : Nat) (b : Bool) : (t.setVoid l b).pend = t.pend := by
  unfold Thread.setVoid; split <;> rfl

@[simp] theorem Thread.async_setVoid (t : Thread) (l : Nat) (b : Bool) : (t.setVoid l b).async = t.async := by
  unfold Thread.setVoid; split <;> rfl

theorem setBit_out (m : BitVec n) (i : Nat) (b : Bool) (h : n ≤ i) : setBit m i b = m := by
  apply BitVec.eq_of_getLsbD_eq
  intro j hj
  exact setBit_ne m i j b (by omega)

theorem Thread.isVoid_setVoid (t : Thread) (l l' : Nat) (b : Bool) :
    (t.setVoid l b).isVoid l' = if l' = l ∧ l < 68 then b else t.isVoid l' := by
  unfold Thread.setVoid Thread.isVoid
  by_cases h1 : l < 64 <;> by_cases h2 : l' < 64 <;> simp only [h1, h2, if_true, if_false]
  · by_cases e : l' = l
    · subst e
      rw [if_pos ⟨rfl, by omega⟩]
      exact setBit_same _ _ _ h1
    · rw [if_neg (fun h => e h.1)]
      exact setBit_ne _ _ _ _ e
  · rw [if_neg (by omega)]
  · rw [if_neg (by omega)]
  · by_cases e : l' = l ∧ l < 68
    · rw [if_pos e]
      obtain ⟨rfl, h⟩ := e
      exact setBit_same _ _ _ (by omega)
    · rw [if_neg e]
      by_cases h3 : l < 68
      · exact setBit_ne _ _ _ _ (by omega)
      · rw [setBit_out _ _ _ (by omega)]

@[simp] theorem Thread.pend_store (t : Thread) (l : Nat) (x : Word) : (t.store l x).pend = t.pend := by
  unfold Thread.store
  rw [Thread.pend_setVoid]; split <;> rfl

@[simp] theorem Thread.async_store (t : Thread) (l : Nat) (x : Word) : (t.store l x).async = t.async := by
  unfold Thread.store
  rw [Thread.async_setVoid]; split <;> rfl

theorem Thread.raw_store (t : Thread) (l l' : Nat) (x : Word) :
    (t.store l x).raw l' = if l' = l ∧ l < 68 then x else t.raw l' := by
  unfold Thread.store
  rw [Thread.raw_setVoid]
  unfold Thread.raw
  by_cases h1 : l < 64 <;> by_cases h2 : l' < 64 <;> simp only [h1, h2, if_true, if_false]
  · by_cases e : l' = l
    · subst e; simp [h1, show l' < 68 by omega]
    · simp [e, Vector.toList_setIfInBounds, Ne.symm e]
  · rw [if_neg (by omega)]
  · rw [if_neg (by omega)]
  · by_cases e : l' = l ∧ l < 68
    · rw [if_pos e]
      obtain ⟨rfl, h⟩ := e
      simp [show l' - 64 < 4 by omega]
    · rw [if_neg e]
      by_cases h3 : l < 68
      · simp [Vector.toList_setIfInBounds, show ¬ l - 64 = l' - 64 by omega]
      · simp [Vector.toList_setIfInBounds, List.getElem?_set, show ¬ l - 64 < 4 by omega]
        by_cases h4 : l - 64 = l' - 64
        · rw [if_pos h4, Vector.getElem?_eq_none (by omega)]
        · rw [if_neg h4]

theorem Thread.isVoid_store (t : Thread) (l l' : Nat) (x : Word) :
    (t.store l x).isVoid l' = if l' = l ∧ l < 68 then false else t.isVoid l' := by
  unfold Thread.store
  rw [Thread.isVoid_setVoid]
  split
  · rfl
  · unfold Thread.isVoid; split <;> split <;> rfl

/-! ### Stores of a list of writes -/

theorem Thread.raw_stores_off (L : List Pend) (t : Thread) (l : Nat) (h : ∀ p ∈ L, p.loc ≠ l) :
    (L.foldl (fun t p => t.store p.loc p.val) t).raw l = t.raw l := by
  induction L generalizing t with
  | nil => rfl
  | cons p rest ih =>
    rw [List.foldl_cons, ih _ (fun q hq => h q (by simp [hq])), Thread.raw_store, if_neg (fun e => h p (by simp) e.1.symm)]

theorem Thread.raw_stores_on (L : List Pend) (t : Thread) (l : Nat) (x : Word) (hb : l < 68)
    (hv : ∀ p ∈ L, p.loc = l → p.val = x) (h : ∃ p ∈ L, p.loc = l) :
    (L.foldl (fun t p => t.store p.loc p.val) t).raw l = x := by
  induction L generalizing t with
  | nil => simp at h
  | cons p rest ih =>
    rw [List.foldl_cons]
    by_cases hr : ∃ q ∈ rest, q.loc = l
    · exact ih _ (fun q hq => hv q (by simp [hq])) hr
    · have hoff : ∀ q ∈ rest, q.loc ≠ l := fun q hq e => hr ⟨q, hq, e⟩
      rw [Thread.raw_stores_off rest _ l hoff]
      obtain ⟨q, hq, hql⟩ := h
      rcases List.mem_cons.1 hq with rfl | hq
      · rw [Thread.raw_store, if_pos ⟨hql.symm, by omega⟩, hv q (by simp) hql]
      · exact absurd hql (hoff q hq)

theorem Thread.isVoid_stores (L : List Pend) (t : Thread) (l : Nat) (h : t.isVoid l = false) :
    (L.foldl (fun t p => t.store p.loc p.val) t).isVoid l = false := by
  induction L generalizing t with
  | nil => exact h
  | cons p rest ih =>
    rw [List.foldl_cons]
    refine ih _ ?_
    rw [Thread.isVoid_store]
    split
    · rfl
    · exact h

/-! ### Sorting -/

theorem mem_insertBy {α : Type} (key : α → Nat) (x y : α) (l : List α) : y ∈ insertBy key x l ↔ y = x ∨ y ∈ l := by
  induction l with
  | nil => simp [insertBy]
  | cons z rest ih =>
    unfold insertBy
    split
    · simp
    · simp only [List.mem_cons, ih]
      constructor
      · rintro (h | h | h) <;> simp [h]
      · rintro (h | h | h) <;> simp [h]

theorem mem_foldl_insertBy {α : Type} (key : α → Nat) (y : α) (l acc : List α) :
    y ∈ l.foldl (fun acc x => insertBy key x acc) acc ↔ y ∈ acc ∨ y ∈ l := by
  induction l generalizing acc with
  | nil => simp
  | cons x rest ih =>
    rw [List.foldl_cons, ih, mem_insertBy]
    simp only [List.mem_cons]
    constructor
    · rintro ((h | h) | h) <;> simp [h]
    · rintro (h | h | h) <;> simp [h]

@[simp] theorem mem_sortBy {α : Type} (key : α → Nat) (y : α) (l : List α) : y ∈ sortBy key l ↔ y ∈ l := by
  simp [sortBy, mem_foldl_insertBy]

/-! ### Landing -/

/-- A location with one value in flight, landing by a cycle, reads as that value from then on. -/
theorem Thread.raw_land_on (t : Thread) (n l : Nat) (x : Word) (hb : l < 68)
    (hv : ∀ p ∈ t.pend, p.loc = l → p.val = x) (h : ∃ p ∈ t.pend, p.loc = l ∧ p.land ≤ n) : (t.land n).raw l = x := by
  unfold Thread.land
  refine Thread.raw_stores_on _ _ l x hb ?_ ?_
  · intro p hp; rw [mem_sortBy] at hp; exact hv p (List.mem_filter.1 hp).1
  · obtain ⟨p, hp, hl, hn⟩ := h
    exact ⟨p, by rw [mem_sortBy]; exact List.mem_filter.2 ⟨hp, by simpa using hn⟩, hl⟩

/-- A location with nothing in flight reads as it stands. -/
theorem Thread.raw_land_off (t : Thread) (n l : Nat) (h : ∀ p ∈ t.pend, p.loc ≠ l) : (t.land n).raw l = t.raw l := by
  unfold Thread.land
  rw [Thread.raw_stores_off]
  · rfl
  · intro p hp; rw [mem_sortBy] at hp; exact h p (List.mem_filter.1 hp).1

/-- Landing voids nothing. -/
theorem Thread.isVoid_land (t : Thread) (n l : Nat) (h : t.isVoid l = false) : (t.land n).isVoid l = false := by
  unfold Thread.land
  exact Thread.isVoid_stores _ _ l h

/-- The stores of a list reach a location through those that name it, in their order. -/
theorem Thread.raw_stores_filter (L : List Pend) (t u : Thread) (l : Nat) (h : t.raw l = u.raw l) :
    (L.foldl (fun t p => t.store p.loc p.val) t).raw l =
      ((L.filter (fun p => p.loc == l)).foldl (fun t p => t.store p.loc p.val) u).raw l := by
  induction L generalizing t u with
  | nil => exact h
  | cons p rest ih =>
    by_cases e : p.loc = l
    · simp only [List.foldl_cons, List.filter_cons, e, beq_self_eq_true, if_true]
      refine ih _ _ ?_
      rw [Thread.raw_store, Thread.raw_store, h]
    · have e' : (p.loc == l) = false := by simpa using e
      simp only [List.foldl_cons, List.filter_cons, e', Bool.false_eq_true, if_false]
      refine ih _ _ ?_
      rw [Thread.raw_store, if_neg (fun h => e h.1.symm), h]

theorem filter_insertBy_off {α : Type} (key : α → Nat) (q : α → Bool) (x : α) (l : List α) (h : q x = false) :
    (insertBy key x l).filter q = l.filter q := by
  induction l with
  | nil => simp [insertBy, h]
  | cons y rest ih =>
    unfold insertBy
    split
    · simp [h]
    · simp only [List.filter_cons, ih]

theorem filter_sortBy_append {α : Type} (key : α → Nat) (q : α → Bool) (l new : List α) (h : ∀ x ∈ new, q x = false) :
    (sortBy key (l ++ new)).filter q = (sortBy key l).filter q := by
  have : ∀ (new acc : List α), (∀ x ∈ new, q x = false) →
      (new.foldl (fun acc x => insertBy key x acc) acc).filter q = acc.filter q := by
    intro new
    induction new with
    | nil => intro acc _; rfl
    | cons x rest ih =>
      intro acc hx
      rw [List.foldl_cons, ih _ (fun y hy => hx y (by simp [hy])), filter_insertBy_off key q x acc (hx x (by simp))]
  unfold sortBy
  rw [List.foldl_append]
  exact this new _ h

/-- Writes issued to other locations leave what a location reads as at any cycle. -/
theorem Thread.raw_land_append (t u : Thread) (new : List Pend) (n l : Nat) (hp : u.pend = t.pend ++ new)
    (hr : u.raw l = t.raw l) (h : ∀ p ∈ new, p.loc ≠ l) : (u.land n).raw l = (t.land n).raw l := by
  unfold Thread.land
  rw [Thread.raw_stores_filter _ { u with pend := u.pend.filter (fun p => n < p.land) }
      { t with pend := t.pend.filter (fun p => n < p.land) } l hr,
    Thread.raw_stores_filter (sortBy Pend.land (t.pend.filter (fun p => p.land ≤ n))) _
      { t with pend := t.pend.filter (fun p => n < p.land) } l rfl]
  rw [hp, List.filter_append, filter_sortBy_append]
  intro x hx
  simpa using h x (List.mem_filter.1 hx).1

/-! ### A location that becomes live -/

@[simp] theorem Thread.pend_revive (t : Thread) (l : Nat) : (t.revive l).pend = t.pend := by
  unfold Thread.revive; split <;> simp

@[simp] theorem Thread.async_revive (t : Thread) (l : Nat) : (t.revive l).async = t.async := by
  unfold Thread.revive; split <;> simp

theorem Thread.raw_revive_ne (t : Thread) (l l' : Nat) (h : l' ≠ l) : (t.revive l).raw l' = t.raw l' := by
  unfold Thread.revive
  split
  · exact (Thread.raw_store _ _ _ _).trans (if_neg (fun e => h e.1))
  · rfl

theorem Thread.isVoid_revive_ne (t : Thread) (l l' : Nat) (h : l' ≠ l) : (t.revive l).isVoid l' = t.isVoid l' := by
  unfold Thread.revive
  split
  · exact (Thread.isVoid_store _ _ _ _).trans (if_neg (fun e => h e.1))
  · rfl

theorem Thread.isVoid_revive_same (t : Thread) (l : Nat) (hl : l < 68) : (t.revive l).isVoid l = false := by
  unfold Thread.revive
  split
  · exact (Thread.isVoid_store _ _ _ _).trans (if_pos ⟨rfl, hl⟩)
  · next h => exact Bool.eq_false_iff.2 h

/-! ### A fixed-latency result issued -/

@[simp] theorem Thread.pend_write (t : Thread) (l : Nat) (x : Word) (n : Nat) :
    (t.write l x n).pend = t.pend ++ [{ loc := l, val := x, land := n }] := by simp [Thread.write]

@[simp] theorem Thread.async_write (t : Thread) (l : Nat) (x : Word) (n : Nat) : (t.write l x n).async = t.async := by
  simp [Thread.write]

theorem Thread.raw_write_ne (t : Thread) (l l' : Nat) (x : Word) (n : Nat) (h : l' ≠ l) : (t.write l x n).raw l' = t.raw l' :=
  Thread.raw_revive_ne t l l' h

theorem Thread.isVoid_write_same (t : Thread) (l : Nat) (x : Word) (n : Nat) (hl : l < 68) : (t.write l x n).isVoid l = false :=
  Thread.isVoid_revive_same t l hl

theorem Thread.isVoid_write_ne (t : Thread) (l l' : Nat) (x : Word) (n : Nat) (h : l' ≠ l) :
    (t.write l x n).isVoid l' = t.isVoid l' := Thread.isVoid_revive_ne t l l' h

/-- Issuing one half touches no other location, and no thread value but registers and the writes on their way. -/
theorem TCtx.issueHalf_ne (c : TCtx) (land : Nat) (t : Thread) (i l l' : Nat) (x : Word) (h : l' ≠ l) :
    (c.issueHalf land t i l x).raw l' = t.raw l' ∧ (c.issueHalf land t i l x).isVoid l' = t.isVoid l' ∧
    ∃ new, (c.issueHalf land t i l x).pend = t.pend ++ new ∧ ∀ p ∈ new, p.loc = l := by
  unfold TCtx.issueHalf
  split
  · split
    · exact ⟨Thread.raw_write_ne _ _ _ _ _ h, Thread.isVoid_write_ne _ _ _ _ _ h, _, Thread.pend_write _ _ _ _, by simp⟩
    · exact ⟨Thread.raw_revive_ne _ _ _ h, Thread.isVoid_revive_ne _ _ _ h, [], by simp, by simp⟩
  · exact ⟨Thread.raw_write_ne _ _ _ _ _ h, Thread.isVoid_write_ne _ _ _ _ _ h, _, Thread.pend_write _ _ _ _, by simp⟩

/-- Where no asynchronous result is outstanding for a half's location, the half is a plain write. -/
theorem TCtx.issueHalf_idle (c : TCtx) (land : Nat) (t : Thread) (i l : Nat) (x : Word) (h : ∀ a ∈ t.async, a.loc ≠ l) :
    c.issueHalf land t i l x = t.write l x land := by
  unfold TCtx.issueHalf
  rw [if_neg]
  simp only [List.any_eq_true, Bool.and_eq_true, beq_iff_eq, not_exists, not_and]
  intro a h1 h2
  exact absurd h2 (h a h1)

theorem TCtx.async_issueHalf (c : TCtx) (land : Nat) (t : Thread) (i l : Nat) (x : Word) :
    (c.issueHalf land t i l x).async.map AsyncDst.loc = t.async.map AsyncDst.loc := by
  unfold TCtx.issueHalf
  split
  · split
    · simp only [Thread.async_write, List.map_map]
      congr 1
      funext a
      simp only [Function.comp]
      split <;> rfl
    · simp
  · simp

/-- A result issued: what it leaves at every location that is no destination, and the writes that it puts in flight. -/
theorem TCtx.issueTo_frame (c : TCtx) (land : Nat) (locs : List Nat) (ws : List Word) (t : Thread) (l : Nat) (h : l ∉ locs) :
    (c.issueTo land t locs ws).raw l = t.raw l ∧ (c.issueTo land t locs ws).isVoid l = t.isVoid l ∧
    ∃ new, (c.issueTo land t locs ws).pend = t.pend ++ new ∧ ∀ p ∈ new, p.loc ≠ l := by
  have key : ∀ (es : List (Nat × Word)) (n : Nat) (t : Thread), (∀ e ∈ es, e.1 ≠ l) →
      let u := (es.zipIdx n).foldl (fun t e => c.issueHalf land t e.2 e.1.1 e.1.2) t
      u.raw l = t.raw l ∧ u.isVoid l = t.isVoid l ∧ ∃ new, u.pend = t.pend ++ new ∧ ∀ p ∈ new, p.loc ≠ l := by
    intro es
    induction es with
    | nil => intro n t _; exact ⟨rfl, rfl, [], by simp, by simp⟩
    | cons e rest ih =>
      intro n t he
      obtain ⟨h1, h2, new, h3, h4⟩ := ih (n + 1) (c.issueHalf land t n e.1 e.2) (fun x hx => he x (by simp [hx]))
      obtain ⟨g1, g2, new2, g3, g4⟩ := TCtx.issueHalf_ne c land t n e.1 l e.2 (Ne.symm (he e (by simp)))
      simp only [List.zipIdx_cons, List.foldl_cons]
      refine ⟨h1.trans g1, h2.trans g2, new2 ++ new, by rw [h3, g3, List.append_assoc], ?_⟩
      intro p hp
      rcases List.mem_append.1 hp with hp | hp
      · rw [g4 p hp]; exact he e (by simp)
      · exact h4 p hp
  exact key (locs.zip ws) 0 t (fun e he h2 => h (h2 ▸ (List.of_mem_zip he).1))

/-- A destination that was idle reads as its half of the result once it has landed. -/
theorem TCtx.issueTo_reads (c : TCtx) (land : Nat) (locs : List Nat) (ws : List Word) (t : Thread) (hn : locs.Nodup)
    (e : Nat × Word) (hm : e ∈ locs.zip ws) (hb : e.1 < 68) (hi : t.Idle e.1) : (c.issueTo land t locs ws).Gets e.1 e.2 land := by
  have key : ∀ (es : List (Nat × Word)) (n : Nat) (t : Thread), (es.map Prod.fst).Nodup → e ∈ es → t.Idle e.1 →
      let u := (es.zipIdx n).foldl (fun t e => c.issueHalf land t e.2 e.1.1 e.1.2) t
      u.isVoid e.1 = false ∧ (∃ p ∈ u.pend, p.loc = e.1 ∧ p.land ≤ land) ∧ ∀ p ∈ u.pend, p.loc = e.1 → p.val = e.2 := by
    intro es
    induction es with
    | nil => intro n t _ h; simp at h
    | cons d rest ih =>
      intro n t hnd hm hi
      simp only [List.map_cons, List.nodup_cons] at hnd
      simp only [List.zipIdx_cons, List.foldl_cons]
      by_cases hd : e = d
      · subst hd
        rw [TCtx.issueHalf_idle _ _ _ _ _ _ hi.2]
        have hoff : ∀ x ∈ rest, x.1 ≠ e.1 := fun x hx h => hnd.1 (List.mem_map.2 ⟨x, hx, h⟩)
        have hf : ∀ (es : List (Nat × Word)) (n : Nat) (t : Thread), (∀ x ∈ es, x.1 ≠ e.1) →
            let u := (es.zipIdx n).foldl (fun t e => c.issueHalf land t e.2 e.1.1 e.1.2) t
            u.isVoid e.1 = t.isVoid e.1 ∧ ∃ new, u.pend = t.pend ++ new ∧ ∀ p ∈ new, p.loc ≠ e.1 := by
          intro es
          induction es with
          | nil => intro n t _; exact ⟨rfl, [], by simp, by simp⟩
          | cons y r ih2 =>
            intro n t hy
            obtain ⟨h2, new, h3, h4⟩ := ih2 (n + 1) (c.issueHalf land t n y.1 y.2) (fun x hx => hy x (by simp [hx]))
            obtain ⟨-, g2, new2, g3, g4⟩ := TCtx.issueHalf_ne c land t n y.1 e.1 y.2 (Ne.symm (hy y (by simp)))
            simp only [List.zipIdx_cons, List.foldl_cons]
            refine ⟨h2.trans g2, new2 ++ new, by rw [h3, g3, List.append_assoc], ?_⟩
            intro p hp
            rcases List.mem_append.1 hp with hp | hp
            · rw [g4 p hp]; exact hy y (by simp)
            · exact h4 p hp
        obtain ⟨h1, new, h2, h3⟩ := hf rest (n + 1) (t.write e.1 e.2 land) hoff
        refine ⟨h1.trans (Thread.isVoid_write_same _ _ _ _ hb), ⟨⟨e.1, e.2, land⟩, ?_, rfl, Nat.le_refl _⟩, ?_⟩
        · rw [h2, Thread.pend_write]; simp
        · intro p hp hl
          rw [h2, Thread.pend_write, List.mem_append, List.mem_append] at hp
          rcases hp with (hp | hp) | hp
          · exact absurd hl (hi.1 p hp)
          · simp at hp; rw [hp]
          · exact absurd hl (h3 p hp)
      · have hr : e ∈ rest := by simpa [hd] using hm
        have hne : e.1 ≠ d.1 := fun h => hnd.1 (h ▸ List.mem_map.2 ⟨e, hr, rfl⟩)
        refine ih (n + 1) _ hnd.2 hr ⟨?_, ?_⟩
        · obtain ⟨-, -, new, g3, g4⟩ := TCtx.issueHalf_ne c land t n d.1 e.1 d.2 hne
          rw [g3]
          intro p hp
          rcases List.mem_append.1 hp with hp | hp
          · exact hi.1 p hp
          · rw [g4 p hp]; exact Ne.symm hne
        · intro a ha hl
          have : e.1 ∈ (c.issueHalf land t n d.1 d.2).async.map AsyncDst.loc := List.mem_map.2 ⟨a, ha, hl⟩
          rw [TCtx.async_issueHalf] at this
          obtain ⟨b, hb', hbl⟩ := List.mem_map.1 this
          exact hi.2 b hb' hbl
  have hnd : ((locs.zip ws).map Prod.fst).Nodup := by
    have : ∀ (l : List Nat) (w : List Word), (l.zip w).map Prod.fst = l.take w.length := by
      intro l
      induction l with
      | nil => intro w; simp
      | cons a r ih => intro w; cases w <;> simp [ih]
    rw [this]
    exact hn.sublist (List.take_sublist _ _)
  obtain ⟨h1, h2, h3⟩ := key (locs.zip ws) 0 t hnd hm hi
  exact ⟨Thread.raw_land_on _ _ _ _ hb h3 h2, Thread.isVoid_land _ _ _ h1⟩

end Sys2Proof.Machine
end

