-- ==== Sys2Proof/Laws/Memory.lean ====
section
/-! SUPPORT. Memory bytes: a read after a write, and the canonical form that every write keeps. -/

namespace Sys2Proof.Machine

/-- The canonical form, with every address above a bound. -/
def Memory.wfFrom (n : Nat) : Memory → Prop
  | [] => True
  | c :: rest => n ≤ c.1 ∧ c.2 ≠ 0 ∧ Memory.wfFrom (c.1 + 1) rest

/-- A lower bound may be lowered. -/
theorem Memory.wfFrom_mono {m : Memory} {n k : Nat} (h : k ≤ n) (hm : Memory.wfFrom n m) : Memory.wfFrom k m := by
  cases m with
  | nil => trivial
  | cons c rest => exact ⟨Nat.le_trans h hm.1, hm.2⟩

/-- The canonical form says the same as a Bool. -/
theorem Memory.wf_iff (m : Memory) : Memory.wf m = true ↔ Memory.wfFrom 0 m := by
  have key : ∀ (m : Memory) (n : Nat), (∀ c ∈ m.head?, n ≤ c.1) → (Memory.wf m = true ↔ Memory.wfFrom n m) := by
    intro m
    induction m with
    | nil => intro n _; simp [Memory.wf, Memory.wfFrom]
    | cons c rest ih =>
      intro n hn
      have hc : n ≤ c.1 := hn c (by simp)
      cases rest with
      | nil => simp [Memory.wf, Memory.wfFrom, hc]
      | cons d r =>
        simp only [Memory.wf, Bool.and_eq_true, bne_iff_ne, ne_eq, decide_eq_true_eq]
        constructor
        · rintro ⟨⟨h1, h2⟩, h3⟩
          exact ⟨hc, h1, (ih (c.1 + 1) (by intro e he; cases he; exact h2)).1 h3⟩
        · rintro ⟨_, h1, h2⟩
          have h4 : c.1 < d.1 := h2.1
          exact ⟨⟨h1, h4⟩, (ih (c.1 + 1) (by intro e he; cases he; exact h4)).2 h2⟩
  exact key m 0 (fun _ _ => Nat.zero_le _)

/-- Below the bound nothing is listed. -/
theorem Memory.byte_below {m : Memory} {n a : Nat} (hm : Memory.wfFrom n m) (h : a < n) : Memory.byte m a = 0 := by
  cases m with
  | nil => rfl
  | cons c rest =>
    have := hm.1
    simp [Memory.byte, show ¬ c.1 = a by omega, show a < c.1 by omega]

/-- A write keeps the canonical form. -/
theorem Memory.wfFrom_put {m : Memory} {n a : Nat} (b : Byte) (h : n ≤ a) (hm : Memory.wfFrom n m) :
    Memory.wfFrom n (Memory.put m a b) := by
  induction m generalizing n with
  | nil =>
    simp only [Memory.put]
    split
    · trivial
    · next hb => exact ⟨h, hb, trivial⟩
  | cons c rest ih =>
    obtain ⟨h1, h2, h3⟩ := hm
    simp only [Memory.put]
    split
    · next he =>
      split
      · exact Memory.wfFrom_mono (by omega) h3
      · next hb => exact ⟨h, hb, by rw [← he]; exact h3⟩
    · split
      · next hlt =>
        split
        · exact ⟨h1, h2, h3⟩
        · next hb => exact ⟨h, hb, by omega, h2, h3⟩
      · exact ⟨h1, h2, ih (by omega) h3⟩

/-- A write of one byte keeps the canonical form. -/
theorem Memory.wf_put {m : Memory} (a : Nat) (b : Byte) (hm : m.wf = true) : (m.put a b).wf = true :=
  (Memory.wf_iff _).2 (Memory.wfFrom_put b (Nat.zero_le _) ((Memory.wf_iff m).1 hm))

/-- A write of bytes keeps the canonical form. -/
theorem Memory.wf_puts {m : Memory} (a : Nat) (l : List Byte) (hm : m.wf = true) : (m.puts a l).wf = true := by
  induction l generalizing m a with
  | nil => exact hm
  | cons b rest ih => exact ih (a + 1) (Memory.wf_put a b hm)

/-- Any number of writes keeps the canonical form. -/
theorem Memory.wf_foldl_put {α : Type} (l : List α) (f : α → Nat) (g : α → Byte) {m : Memory} (hm : m.wf = true) :
    (l.foldl (fun m x => Memory.put m (f x) (g x)) m).wf = true := by
  induction l generalizing m with
  | nil => exact hm
  | cons x rest ih => exact ih (Memory.wf_put _ _ hm)

/-- A read of the written byte. -/
@[simp] theorem Memory.byte_put_same (m : Memory) (a : Nat) (b : Byte) (hm : m.wf = true) : (m.put a b).byte a = b := by
  have key : ∀ (m : Memory) (n : Nat), Memory.wfFrom n m → (Memory.put m a b).byte a = b := by
    intro m
    induction m with
    | nil =>
      intro n _
      simp only [Memory.put]
      split
      · next hb => simp [Memory.byte, hb]
      · simp [Memory.byte]
    | cons c rest ih =>
      intro n hm
      obtain ⟨h1, h2, h3⟩ := hm
      simp only [Memory.put]
      split
      · next he =>
        split
        · next hb => rw [Memory.byte_below h3 (by omega), hb]
        · simp [Memory.byte]
      · next hne =>
        split
        · next hlt =>
          split
          · next hb => simp [Memory.byte, hne, hlt, hb]
          · simp [Memory.byte]
        · next hnl => simp [Memory.byte, hne, hnl, ih _ h3]
  exact key m 0 ((Memory.wf_iff m).1 hm)

/-- A read of another byte. -/
theorem Memory.byte_put_ne (m : Memory) (a x : Nat) (b : Byte) (hm : m.wf = true) (h : x ≠ a) : (m.put a b).byte x = m.byte x := by
  have key : ∀ (m : Memory) (n : Nat), Memory.wfFrom n m → (Memory.put m a b).byte x = Memory.byte m x := by
    intro m
    induction m with
    | nil =>
      intro n _
      simp only [Memory.put]
      split
      · rfl
      · simp [Memory.byte, Ne.symm h]
    | cons c rest ih =>
      intro n hm
      obtain ⟨h1, h2, h3⟩ := hm
      simp only [Memory.put]
      split
      · next he =>
        have hx : ¬ c.1 = x := by omega
        have hb : Memory.byte (c :: rest) x = if x < c.1 then 0 else Memory.byte rest x := by simp [Memory.byte, hx]
        split
        · rw [hb]
          split
          · next hlt => exact Memory.byte_below h3 (by omega)
          · rfl
        · rw [hb]
          simp only [Memory.byte, Ne.symm h, if_false]
          rw [he]
      · next hne =>
        split
        · next hlt =>
          split
          · rfl
          · simp only [Memory.byte, Ne.symm h, if_false]
            by_cases hxa : x < a
            · simp [hxa, show ¬ c.1 = x by omega, show x < c.1 by omega]
            · simp [hxa]
        · simp only [Memory.byte]
          rw [ih _ h3]
  exact key m 0 ((Memory.wf_iff m).1 hm)

/-- A read outside a written run of bytes. -/
theorem Memory.byte_puts_outside (m : Memory) (a x : Nat) (l : List Byte) (hm : m.wf = true) (h : x < a ∨ a + l.length ≤ x) :
    (m.puts a l).byte x = m.byte x := by
  induction l generalizing m a with
  | nil => rfl
  | cons b rest ih =>
    simp only [List.length_cons] at h
    simp only [Memory.puts]
    rw [ih (m.put a b) (a + 1) (Memory.wf_put a b hm) (by omega), Memory.byte_put_ne m a x b hm (by omega)]

/-- A read inside a written run of bytes. -/
theorem Memory.byte_puts_inside (m : Memory) (a i : Nat) (l : List Byte) (hm : m.wf = true) (h : i < l.length) :
    (m.puts a l).byte (a + i) = l[i] := by
  induction l generalizing m a i with
  | nil => simp at h
  | cons b rest ih =>
    simp only [Memory.puts]
    cases i with
    | zero =>
      rw [Memory.byte_puts_outside _ (a + 1) (a + 0) rest (Memory.wf_put a b hm) (by omega)]
      simp [hm]
    | succ k =>
      have := ih (m.put a b) (a + 1) k (Memory.wf_put a b hm) (by simpa using h)
      rw [show a + (k + 1) = a + 1 + k by omega]
      simpa using this

/-- Memory at reset has the canonical form. -/
theorem State.reset_mem_wf : State.reset.mem.wf = true := by decide

end Sys2Proof.Machine
end

