-- ==== Sys2Proof/Laws/State.lean ====
section
/-! SUPPORT. What each named update of the state leaves alone: one lemma for each update and each field that it does not change, so
that no later proof unfolds a record update. -/

namespace Sys2Proof.Machine

/-! ### `State.at_` changes `cycle` alone -/

@[simp] theorem State.at__agenda (s : State) (c : Nat) : (s.at_ c).agenda = s.agenda := rfl
@[simp] theorem State.at__fresh (s : State) (c : Nat) : (s.at_ c).fresh = s.fresh := rfl
@[simp] theorem State.at__uid (s : State) (c : Nat) : (s.at_ c).uid = s.uid := rfl
@[simp] theorem State.at__cur (s : State) (c : Nat) : (s.at_ c).cur = s.cur := rfl
@[simp] theorem State.at__out (s : State) (c : Nat) : (s.at_ c).out = s.out := rfl
@[simp] theorem State.at__supply (s : State) (c : Nat) : (s.at_ c).supply = s.supply := rfl
@[simp] theorem State.at__boot (s : State) (c : Nat) : (s.at_ c).boot = s.boot := rfl
@[simp] theorem State.at__failCode (s : State) (c : Nat) : (s.at_ c).failCode = s.failCode := rfl
@[simp] theorem State.at__imageOk (s : State) (c : Nat) : (s.at_ c).imageOk = s.imageOk := rfl
@[simp] theorem State.at__digest (s : State) (c : Nat) : (s.at_ c).digest = s.digest := rfl
@[simp] theorem State.at__version (s : State) (c : Nat) : (s.at_ c).version = s.version := rfl
@[simp] theorem State.at__powerCap (s : State) (c : Nat) : (s.at_ c).powerCap = s.powerCap := rfl
@[simp] theorem State.at__pausedDies (s : State) (c : Nat) : (s.at_ c).pausedDies = s.pausedDies := rfl
@[simp] theorem State.at__deadLinks (s : State) (c : Nat) : (s.at_ c).deadLinks = s.deadLinks := rfl
@[simp] theorem State.at__sliceCorrected (s : State) (c : Nat) : (s.at_ c).sliceCorrected = s.sliceCorrected := rfl
@[simp] theorem State.at__stackCorrected (s : State) (c : Nat) : (s.at_ c).stackCorrected = s.stackCorrected := rfl
@[simp] theorem State.at__linkFec (s : State) (c : Nat) : (s.at_ c).linkFec = s.linkFec := rfl
@[simp] theorem State.at__linkRetrains (s : State) (c : Nat) : (s.at_ c).linkRetrains = s.linkRetrains := rfl
@[simp] theorem State.at__linkLost (s : State) (c : Nat) : (s.at_ c).linkLost = s.linkLost := rfl
@[simp] theorem State.at__cxl (s : State) (c : Nat) : (s.at_ c).cxl = s.cxl := rfl
@[simp] theorem State.at__refTick (s : State) (c : Nat) : (s.at_ c).refTick = s.refTick := rfl
@[simp] theorem State.at__tickDue (s : State) (c : Nat) : (s.at_ c).tickDue = s.tickDue := rfl
@[simp] theorem State.at__hold (s : State) (c : Nat) : (s.at_ c).hold = s.hold := rfl
@[simp] theorem State.at__holdIgnored (s : State) (c : Nat) : (s.at_ c).holdIgnored = s.holdIgnored := rfl
@[simp] theorem State.at__settled (s : State) (c : Nat) : (s.at_ c).settled = s.settled := rfl
@[simp] theorem State.at__settleDue (s : State) (c : Nat) : (s.at_ c).settleDue = s.settleDue := rfl
@[simp] theorem State.at__era (s : State) (c : Nat) : (s.at_ c).era = s.era := rfl
@[simp] theorem State.at__slices (s : State) (c : Nat) : (s.at_ c).slices = s.slices := rfl
@[simp] theorem State.at__l2 (s : State) (c : Nat) : (s.at_ c).l2 = s.l2 := rfl
@[simp] theorem State.at__mem (s : State) (c : Nat) : (s.at_ c).mem = s.mem := rfl
@[simp] theorem State.at__poison (s : State) (c : Nat) : (s.at_ c).poison = s.poison := rfl
@[simp] theorem State.at__lineMeta (s : State) (c : Nat) : (s.at_ c).lineMeta = s.lineMeta := rfl
@[simp] theorem State.at__migrations (s : State) (c : Nat) : (s.at_ c).migrations = s.migrations := rfl
@[simp] theorem State.at__completions (s : State) (c : Nat) : (s.at_ c).completions = s.completions := rfl
@[simp] theorem State.at__reqs (s : State) (c : Nat) : (s.at_ c).reqs = s.reqs := rfl
@[simp] theorem State.at__walks (s : State) (c : Nat) : (s.at_ c).walks = s.walks := rfl
@[simp] theorem State.at__invals (s : State) (c : Nat) : (s.at_ c).invals = s.invals := rfl
@[simp] theorem State.at__queues (s : State) (c : Nat) : (s.at_ c).queues = s.queues := rfl
@[simp] theorem State.at__clusterTlb (s : State) (c : Nat) : (s.at_ c).clusterTlb = s.clusterTlb := rfl
@[simp] theorem State.at__cores (s : State) (c : Nat) : (s.at_ c).cores = s.cores := rfl
@[simp] theorem State.at__bundles (s : State) (c : Nat) : (s.at_ c).bundles = s.bundles := rfl
@[simp] theorem State.at__portFree (s : State) (c : Nat) : (s.at_ c).portFree = s.portFree := rfl
@[simp] theorem State.at__longs (s : State) (c : Nat) : (s.at_ c).longs = s.longs := rfl
@[simp] theorem State.at__shfls (s : State) (c : Nat) : (s.at_ c).shfls = s.shfls := rfl
@[simp] theorem State.at__warps (s : State) (c : Nat) : (s.at_ c).warps = s.warps := rfl
@[simp] theorem State.at__blocks (s : State) (c : Nat) : (s.at_ c).blocks = s.blocks := rfl
@[simp] theorem State.at__groups (s : State) (c : Nat) : (s.at_ c).groups = s.groups := rfl
@[simp] theorem State.at__launches (s : State) (c : Nat) : (s.at_ c).launches = s.launches := rfl
@[simp] theorem State.at__parts (s : State) (c : Nat) : (s.at_ c).parts = s.parts := rfl
@[simp] theorem State.at__sends (s : State) (c : Nat) : (s.at_ c).sends = s.sends := rfl
@[simp] theorem State.at__retries (s : State) (c : Nat) : (s.at_ c).retries = s.retries := rfl
@[simp] theorem State.at__ckpts (s : State) (c : Nat) : (s.at_ c).ckpts = s.ckpts := rfl
@[simp] theorem State.at__ctls (s : State) (c : Nat) : (s.at_ c).ctls = s.ctls := rfl
@[simp] theorem State.at__images (s : State) (c : Nat) : (s.at_ c).images = s.images := rfl
@[simp] theorem State.at__redVals (s : State) (c : Nat) : (s.at_ c).redVals = s.redVals := rfl
@[simp] theorem State.at__redWindows (s : State) (c : Nat) : (s.at_ c).redWindows = s.redWindows := rfl
@[simp] theorem State.at__redFaults (s : State) (c : Nat) : (s.at_ c).redFaults = s.redFaults := rfl
@[simp] theorem State.at__switchAt (s : State) (c : Nat) : (s.at_ c).switchAt = s.switchAt := rfl

/-! ### `State.modCore` changes `cores` alone -/

@[simp] theorem State.modCore_agenda (s : State) (k : Nat) (f : Core → Core) : (s.modCore k f).agenda = s.agenda := rfl
@[simp] theorem State.modCore_cycle (s : State) (k : Nat) (f : Core → Core) : (s.modCore k f).cycle = s.cycle := rfl
@[simp] theorem State.modCore_fresh (s : State) (k : Nat) (f : Core → Core) : (s.modCore k f).fresh = s.fresh := rfl
@[simp] theorem State.modCore_uid (s : State) (k : Nat) (f : Core → Core) : (s.modCore k f).uid = s.uid := rfl
@[simp] theorem State.modCore_cur (s : State) (k : Nat) (f : Core → Core) : (s.modCore k f).cur = s.cur := rfl
@[simp] theorem State.modCore_out (s : State) (k : Nat) (f : Core → Core) : (s.modCore k f).out = s.out := rfl
@[simp] theorem State.modCore_supply (s : State) (k : Nat) (f : Core → Core) : (s.modCore k f).supply = s.supply := rfl
@[simp] theorem State.modCore_boot (s : State) (k : Nat) (f : Core → Core) : (s.modCore k f).boot = s.boot := rfl
@[simp] theorem State.modCore_failCode (s : State) (k : Nat) (f : Core → Core) : (s.modCore k f).failCode = s.failCode := rfl
@[simp] theorem State.modCore_imageOk (s : State) (k : Nat) (f : Core → Core) : (s.modCore k f).imageOk = s.imageOk := rfl
@[simp] theorem State.modCore_digest (s : State) (k : Nat) (f : Core → Core) : (s.modCore k f).digest = s.digest := rfl
@[simp] theorem State.modCore_version (s : State) (k : Nat) (f : Core → Core) : (s.modCore k f).version = s.version := rfl
@[simp] theorem State.modCore_powerCap (s : State) (k : Nat) (f : Core → Core) : (s.modCore k f).powerCap = s.powerCap := rfl
@[simp] theorem State.modCore_pausedDies (s : State) (k : Nat) (f : Core → Core) : (s.modCore k f).pausedDies = s.pausedDies := rfl
@[simp] theorem State.modCore_deadLinks (s : State) (k : Nat) (f : Core → Core) : (s.modCore k f).deadLinks = s.deadLinks := rfl
@[simp] theorem State.modCore_sliceCorrected (s : State) (k : Nat) (f : Core → Core) : (s.modCore k f).sliceCorrected = s.sliceCorrected := rfl
@[simp] theorem State.modCore_stackCorrected (s : State) (k : Nat) (f : Core → Core) : (s.modCore k f).stackCorrected = s.stackCorrected := rfl
@[simp] theorem State.modCore_linkFec (s : State) (k : Nat) (f : Core → Core) : (s.modCore k f).linkFec = s.linkFec := rfl
@[simp] theorem State.modCore_linkRetrains (s : State) (k : Nat) (f : Core → Core) : (s.modCore k f).linkRetrains = s.linkRetrains := rfl
@[simp] theorem State.modCore_linkLost (s : State) (k : Nat) (f : Core → Core) : (s.modCore k f).linkLost = s.linkLost := rfl
@[simp] theorem State.modCore_cxl (s : State) (k : Nat) (f : Core → Core) : (s.modCore k f).cxl = s.cxl := rfl
@[simp] theorem State.modCore_refTick (s : State) (k : Nat) (f : Core → Core) : (s.modCore k f).refTick = s.refTick := rfl
@[simp] theorem State.modCore_tickDue (s : State) (k : Nat) (f : Core → Core) : (s.modCore k f).tickDue = s.tickDue := rfl
@[simp] theorem State.modCore_hold (s : State) (k : Nat) (f : Core → Core) : (s.modCore k f).hold = s.hold := rfl
@[simp] theorem State.modCore_holdIgnored (s : State) (k : Nat) (f : Core → Core) : (s.modCore k f).holdIgnored = s.holdIgnored := rfl
@[simp] theorem State.modCore_settled (s : State) (k : Nat) (f : Core → Core) : (s.modCore k f).settled = s.settled := rfl
@[simp] theorem State.modCore_settleDue (s : State) (k : Nat) (f : Core → Core) : (s.modCore k f).settleDue = s.settleDue := rfl
@[simp] theorem State.modCore_era (s : State) (k : Nat) (f : Core → Core) : (s.modCore k f).era = s.era := rfl
@[simp] theorem State.modCore_slices (s : State) (k : Nat) (f : Core → Core) : (s.modCore k f).slices = s.slices := rfl
@[simp] theorem State.modCore_l2 (s : State) (k : Nat) (f : Core → Core) : (s.modCore k f).l2 = s.l2 := rfl
@[simp] theorem State.modCore_mem (s : State) (k : Nat) (f : Core → Core) : (s.modCore k f).mem = s.mem := rfl
@[simp] theorem State.modCore_poison (s : State) (k : Nat) (f : Core → Core) : (s.modCore k f).poison = s.poison := rfl
@[simp] theorem State.modCore_lineMeta (s : State) (k : Nat) (f : Core → Core) : (s.modCore k f).lineMeta = s.lineMeta := rfl
@[simp] theorem State.modCore_migrations (s : State) (k : Nat) (f : Core → Core) : (s.modCore k f).migrations = s.migrations := rfl
@[simp] theorem State.modCore_completions (s : State) (k : Nat) (f : Core → Core) : (s.modCore k f).completions = s.completions := rfl
@[simp] theorem State.modCore_reqs (s : State) (k : Nat) (f : Core → Core) : (s.modCore k f).reqs = s.reqs := rfl
@[simp] theorem State.modCore_walks (s : State) (k : Nat) (f : Core → Core) : (s.modCore k f).walks = s.walks := rfl
@[simp] theorem State.modCore_invals (s : State) (k : Nat) (f : Core → Core) : (s.modCore k f).invals = s.invals := rfl
@[simp] theorem State.modCore_queues (s : State) (k : Nat) (f : Core → Core) : (s.modCore k f).queues = s.queues := rfl
@[simp] theorem State.modCore_clusterTlb (s : State) (k : Nat) (f : Core → Core) : (s.modCore k f).clusterTlb = s.clusterTlb := rfl
@[simp] theorem State.modCore_bundles (s : State) (k : Nat) (f : Core → Core) : (s.modCore k f).bundles = s.bundles := rfl
@[simp] theorem State.modCore_portFree (s : State) (k : Nat) (f : Core → Core) : (s.modCore k f).portFree = s.portFree := rfl
@[simp] theorem State.modCore_longs (s : State) (k : Nat) (f : Core → Core) : (s.modCore k f).longs = s.longs := rfl
@[simp] theorem State.modCore_shfls (s : State) (k : Nat) (f : Core → Core) : (s.modCore k f).shfls = s.shfls := rfl
@[simp] theorem State.modCore_warps (s : State) (k : Nat) (f : Core → Core) : (s.modCore k f).warps = s.warps := rfl
@[simp] theorem State.modCore_blocks (s : State) (k : Nat) (f : Core → Core) : (s.modCore k f).blocks = s.blocks := rfl
@[simp] theorem State.modCore_groups (s : State) (k : Nat) (f : Core → Core) : (s.modCore k f).groups = s.groups := rfl
@[simp] theorem State.modCore_launches (s : State) (k : Nat) (f : Core → Core) : (s.modCore k f).launches = s.launches := rfl
@[simp] theorem State.modCore_parts (s : State) (k : Nat) (f : Core → Core) : (s.modCore k f).parts = s.parts := rfl
@[simp] theorem State.modCore_sends (s : State) (k : Nat) (f : Core → Core) : (s.modCore k f).sends = s.sends := rfl
@[simp] theorem State.modCore_retries (s : State) (k : Nat) (f : Core → Core) : (s.modCore k f).retries = s.retries := rfl
@[simp] theorem State.modCore_ckpts (s : State) (k : Nat) (f : Core → Core) : (s.modCore k f).ckpts = s.ckpts := rfl
@[simp] theorem State.modCore_ctls (s : State) (k : Nat) (f : Core → Core) : (s.modCore k f).ctls = s.ctls := rfl
@[simp] theorem State.modCore_images (s : State) (k : Nat) (f : Core → Core) : (s.modCore k f).images = s.images := rfl
@[simp] theorem State.modCore_redVals (s : State) (k : Nat) (f : Core → Core) : (s.modCore k f).redVals = s.redVals := rfl
@[simp] theorem State.modCore_redWindows (s : State) (k : Nat) (f : Core → Core) : (s.modCore k f).redWindows = s.redWindows := rfl
@[simp] theorem State.modCore_redFaults (s : State) (k : Nat) (f : Core → Core) : (s.modCore k f).redFaults = s.redFaults := rfl
@[simp] theorem State.modCore_switchAt (s : State) (k : Nat) (f : Core → Core) : (s.modCore k f).switchAt = s.switchAt := rfl

/-! ### `State.modWarp` changes `warps` alone -/

@[simp] theorem State.modWarp_agenda (s : State) (k : Nat) (f : Warp → Warp) : (s.modWarp k f).agenda = s.agenda := rfl
@[simp] theorem State.modWarp_cycle (s : State) (k : Nat) (f : Warp → Warp) : (s.modWarp k f).cycle = s.cycle := rfl
@[simp] theorem State.modWarp_fresh (s : State) (k : Nat) (f : Warp → Warp) : (s.modWarp k f).fresh = s.fresh := rfl
@[simp] theorem State.modWarp_uid (s : State) (k : Nat) (f : Warp → Warp) : (s.modWarp k f).uid = s.uid := rfl
@[simp] theorem State.modWarp_cur (s : State) (k : Nat) (f : Warp → Warp) : (s.modWarp k f).cur = s.cur := rfl
@[simp] theorem State.modWarp_out (s : State) (k : Nat) (f : Warp → Warp) : (s.modWarp k f).out = s.out := rfl
@[simp] theorem State.modWarp_supply (s : State) (k : Nat) (f : Warp → Warp) : (s.modWarp k f).supply = s.supply := rfl
@[simp] theorem State.modWarp_boot (s : State) (k : Nat) (f : Warp → Warp) : (s.modWarp k f).boot = s.boot := rfl
@[simp] theorem State.modWarp_failCode (s : State) (k : Nat) (f : Warp → Warp) : (s.modWarp k f).failCode = s.failCode := rfl
@[simp] theorem State.modWarp_imageOk (s : State) (k : Nat) (f : Warp → Warp) : (s.modWarp k f).imageOk = s.imageOk := rfl
@[simp] theorem State.modWarp_digest (s : State) (k : Nat) (f : Warp → Warp) : (s.modWarp k f).digest = s.digest := rfl
@[simp] theorem State.modWarp_version (s : State) (k : Nat) (f : Warp → Warp) : (s.modWarp k f).version = s.version := rfl
@[simp] theorem State.modWarp_powerCap (s : State) (k : Nat) (f : Warp → Warp) : (s.modWarp k f).powerCap = s.powerCap := rfl
@[simp] theorem State.modWarp_pausedDies (s : State) (k : Nat) (f : Warp → Warp) : (s.modWarp k f).pausedDies = s.pausedDies := rfl
@[simp] theorem State.modWarp_deadLinks (s : State) (k : Nat) (f : Warp → Warp) : (s.modWarp k f).deadLinks = s.deadLinks := rfl
@[simp] theorem State.modWarp_sliceCorrected (s : State) (k : Nat) (f : Warp → Warp) : (s.modWarp k f).sliceCorrected = s.sliceCorrected := rfl
@[simp] theorem State.modWarp_stackCorrected (s : State) (k : Nat) (f : Warp → Warp) : (s.modWarp k f).stackCorrected = s.stackCorrected := rfl
@[simp] theorem State.modWarp_linkFec (s : State) (k : Nat) (f : Warp → Warp) : (s.modWarp k f).linkFec = s.linkFec := rfl
@[simp] theorem State.modWarp_linkRetrains (s : State) (k : Nat) (f : Warp → Warp) : (s.modWarp k f).linkRetrains = s.linkRetrains := rfl
@[simp] theorem State.modWarp_linkLost (s : State) (k : Nat) (f : Warp → Warp) : (s.modWarp k f).linkLost = s.linkLost := rfl
@[simp] theorem State.modWarp_cxl (s : State) (k : Nat) (f : Warp → Warp) : (s.modWarp k f).cxl = s.cxl := rfl
@[simp] theorem State.modWarp_refTick (s : State) (k : Nat) (f : Warp → Warp) : (s.modWarp k f).refTick = s.refTick := rfl
@[simp] theorem State.modWarp_tickDue (s : State) (k : Nat) (f : Warp → Warp) : (s.modWarp k f).tickDue = s.tickDue := rfl
@[simp] theorem State.modWarp_hold (s : State) (k : Nat) (f : Warp → Warp) : (s.modWarp k f).hold = s.hold := rfl
@[simp] theorem State.modWarp_holdIgnored (s : State) (k : Nat) (f : Warp → Warp) : (s.modWarp k f).holdIgnored = s.holdIgnored := rfl
@[simp] theorem State.modWarp_settled (s : State) (k : Nat) (f : Warp → Warp) : (s.modWarp k f).settled = s.settled := rfl
@[simp] theorem State.modWarp_settleDue (s : State) (k : Nat) (f : Warp → Warp) : (s.modWarp k f).settleDue = s.settleDue := rfl
@[simp] theorem State.modWarp_era (s : State) (k : Nat) (f : Warp → Warp) : (s.modWarp k f).era = s.era := rfl
@[simp] theorem State.modWarp_slices (s : State) (k : Nat) (f : Warp → Warp) : (s.modWarp k f).slices = s.slices := rfl
@[simp] theorem State.modWarp_l2 (s : State) (k : Nat) (f : Warp → Warp) : (s.modWarp k f).l2 = s.l2 := rfl
@[simp] theorem State.modWarp_mem (s : State) (k : Nat) (f : Warp → Warp) : (s.modWarp k f).mem = s.mem := rfl
@[simp] theorem State.modWarp_poison (s : State) (k : Nat) (f : Warp → Warp) : (s.modWarp k f).poison = s.poison := rfl
@[simp] theorem State.modWarp_lineMeta (s : State) (k : Nat) (f : Warp → Warp) : (s.modWarp k f).lineMeta = s.lineMeta := rfl
@[simp] theorem State.modWarp_migrations (s : State) (k : Nat) (f : Warp → Warp) : (s.modWarp k f).migrations = s.migrations := rfl
@[simp] theorem State.modWarp_completions (s : State) (k : Nat) (f : Warp → Warp) : (s.modWarp k f).completions = s.completions := rfl
@[simp] theorem State.modWarp_reqs (s : State) (k : Nat) (f : Warp → Warp) : (s.modWarp k f).reqs = s.reqs := rfl
@[simp] theorem State.modWarp_walks (s : State) (k : Nat) (f : Warp → Warp) : (s.modWarp k f).walks = s.walks := rfl
@[simp] theorem State.modWarp_invals (s : State) (k : Nat) (f : Warp → Warp) : (s.modWarp k f).invals = s.invals := rfl
@[simp] theorem State.modWarp_queues (s : State) (k : Nat) (f : Warp → Warp) : (s.modWarp k f).queues = s.queues := rfl
@[simp] theorem State.modWarp_clusterTlb (s : State) (k : Nat) (f : Warp → Warp) : (s.modWarp k f).clusterTlb = s.clusterTlb := rfl
@[simp] theorem State.modWarp_cores (s : State) (k : Nat) (f : Warp → Warp) : (s.modWarp k f).cores = s.cores := rfl
@[simp] theorem State.modWarp_bundles (s : State) (k : Nat) (f : Warp → Warp) : (s.modWarp k f).bundles = s.bundles := rfl
@[simp] theorem State.modWarp_portFree (s : State) (k : Nat) (f : Warp → Warp) : (s.modWarp k f).portFree = s.portFree := rfl
@[simp] theorem State.modWarp_longs (s : State) (k : Nat) (f : Warp → Warp) : (s.modWarp k f).longs = s.longs := rfl
@[simp] theorem State.modWarp_shfls (s : State) (k : Nat) (f : Warp → Warp) : (s.modWarp k f).shfls = s.shfls := rfl
@[simp] theorem State.modWarp_blocks (s : State) (k : Nat) (f : Warp → Warp) : (s.modWarp k f).blocks = s.blocks := rfl
@[simp] theorem State.modWarp_groups (s : State) (k : Nat) (f : Warp → Warp) : (s.modWarp k f).groups = s.groups := rfl
@[simp] theorem State.modWarp_launches (s : State) (k : Nat) (f : Warp → Warp) : (s.modWarp k f).launches = s.launches := rfl
@[simp] theorem State.modWarp_parts (s : State) (k : Nat) (f : Warp → Warp) : (s.modWarp k f).parts = s.parts := rfl
@[simp] theorem State.modWarp_sends (s : State) (k : Nat) (f : Warp → Warp) : (s.modWarp k f).sends = s.sends := rfl
@[simp] theorem State.modWarp_retries (s : State) (k : Nat) (f : Warp → Warp) : (s.modWarp k f).retries = s.retries := rfl
@[simp] theorem State.modWarp_ckpts (s : State) (k : Nat) (f : Warp → Warp) : (s.modWarp k f).ckpts = s.ckpts := rfl
@[simp] theorem State.modWarp_ctls (s : State) (k : Nat) (f : Warp → Warp) : (s.modWarp k f).ctls = s.ctls := rfl
@[simp] theorem State.modWarp_images (s : State) (k : Nat) (f : Warp → Warp) : (s.modWarp k f).images = s.images := rfl
@[simp] theorem State.modWarp_redVals (s : State) (k : Nat) (f : Warp → Warp) : (s.modWarp k f).redVals = s.redVals := rfl
@[simp] theorem State.modWarp_redWindows (s : State) (k : Nat) (f : Warp → Warp) : (s.modWarp k f).redWindows = s.redWindows := rfl
@[simp] theorem State.modWarp_redFaults (s : State) (k : Nat) (f : Warp → Warp) : (s.modWarp k f).redFaults = s.redFaults := rfl
@[simp] theorem State.modWarp_switchAt (s : State) (k : Nat) (f : Warp → Warp) : (s.modWarp k f).switchAt = s.switchAt := rfl

/-! ### `State.modBlock` changes `blocks` alone -/

@[simp] theorem State.modBlock_agenda (s : State) (k : Nat) (f : Block → Block) : (s.modBlock k f).agenda = s.agenda := rfl
@[simp] theorem State.modBlock_cycle (s : State) (k : Nat) (f : Block → Block) : (s.modBlock k f).cycle = s.cycle := rfl
@[simp] theorem State.modBlock_fresh (s : State) (k : Nat) (f : Block → Block) : (s.modBlock k f).fresh = s.fresh := rfl
@[simp] theorem State.modBlock_uid (s : State) (k : Nat) (f : Block → Block) : (s.modBlock k f).uid = s.uid := rfl
@[simp] theorem State.modBlock_cur (s : State) (k : Nat) (f : Block → Block) : (s.modBlock k f).cur = s.cur := rfl
@[simp] theorem State.modBlock_out (s : State) (k : Nat) (f : Block → Block) : (s.modBlock k f).out = s.out := rfl
@[simp] theorem State.modBlock_supply (s : State) (k : Nat) (f : Block → Block) : (s.modBlock k f).supply = s.supply := rfl
@[simp] theorem State.modBlock_boot (s : State) (k : Nat) (f : Block → Block) : (s.modBlock k f).boot = s.boot := rfl
@[simp] theorem State.modBlock_failCode (s : State) (k : Nat) (f : Block → Block) : (s.modBlock k f).failCode = s.failCode := rfl
@[simp] theorem State.modBlock_imageOk (s : State) (k : Nat) (f : Block → Block) : (s.modBlock k f).imageOk = s.imageOk := rfl
@[simp] theorem State.modBlock_digest (s : State) (k : Nat) (f : Block → Block) : (s.modBlock k f).digest = s.digest := rfl
@[simp] theorem State.modBlock_version (s : State) (k : Nat) (f : Block → Block) : (s.modBlock k f).version = s.version := rfl
@[simp] theorem State.modBlock_powerCap (s : State) (k : Nat) (f : Block → Block) : (s.modBlock k f).powerCap = s.powerCap := rfl
@[simp] theorem State.modBlock_pausedDies (s : State) (k : Nat) (f : Block → Block) : (s.modBlock k f).pausedDies = s.pausedDies := rfl
@[simp] theorem State.modBlock_deadLinks (s : State) (k : Nat) (f : Block → Block) : (s.modBlock k f).deadLinks = s.deadLinks := rfl
@[simp] theorem State.modBlock_sliceCorrected (s : State) (k : Nat) (f : Block → Block) : (s.modBlock k f).sliceCorrected = s.sliceCorrected := rfl
@[simp] theorem State.modBlock_stackCorrected (s : State) (k : Nat) (f : Block → Block) : (s.modBlock k f).stackCorrected = s.stackCorrected := rfl
@[simp] theorem State.modBlock_linkFec (s : State) (k : Nat) (f : Block → Block) : (s.modBlock k f).linkFec = s.linkFec := rfl
@[simp] theorem State.modBlock_linkRetrains (s : State) (k : Nat) (f : Block → Block) : (s.modBlock k f).linkRetrains = s.linkRetrains := rfl
@[simp] theorem State.modBlock_linkLost (s : State) (k : Nat) (f : Block → Block) : (s.modBlock k f).linkLost = s.linkLost := rfl
@[simp] theorem State.modBlock_cxl (s : State) (k : Nat) (f : Block → Block) : (s.modBlock k f).cxl = s.cxl := rfl
@[simp] theorem State.modBlock_refTick (s : State) (k : Nat) (f : Block → Block) : (s.modBlock k f).refTick = s.refTick := rfl
@[simp] theorem State.modBlock_tickDue (s : State) (k : Nat) (f : Block → Block) : (s.modBlock k f).tickDue = s.tickDue := rfl
@[simp] theorem State.modBlock_hold (s : State) (k : Nat) (f : Block → Block) : (s.modBlock k f).hold = s.hold := rfl
@[simp] theorem State.modBlock_holdIgnored (s : State) (k : Nat) (f : Block → Block) : (s.modBlock k f).holdIgnored = s.holdIgnored := rfl
@[simp] theorem State.modBlock_settled (s : State) (k : Nat) (f : Block → Block) : (s.modBlock k f).settled = s.settled := rfl
@[simp] theorem State.modBlock_settleDue (s : State) (k : Nat) (f : Block → Block) : (s.modBlock k f).settleDue = s.settleDue := rfl
@[simp] theorem State.modBlock_era (s : State) (k : Nat) (f : Block → Block) : (s.modBlock k f).era = s.era := rfl
@[simp] theorem State.modBlock_slices (s : State) (k : Nat) (f : Block → Block) : (s.modBlock k f).slices = s.slices := rfl
@[simp] theorem State.modBlock_l2 (s : State) (k : Nat) (f : Block → Block) : (s.modBlock k f).l2 = s.l2 := rfl
@[simp] theorem State.modBlock_mem (s : State) (k : Nat) (f : Block → Block) : (s.modBlock k f).mem = s.mem := rfl
@[simp] theorem State.modBlock_poison (s : State) (k : Nat) (f : Block → Block) : (s.modBlock k f).poison = s.poison := rfl
@[simp] theorem State.modBlock_lineMeta (s : State) (k : Nat) (f : Block → Block) : (s.modBlock k f).lineMeta = s.lineMeta := rfl
@[simp] theorem State.modBlock_migrations (s : State) (k : Nat) (f : Block → Block) : (s.modBlock k f).migrations = s.migrations := rfl
@[simp] theorem State.modBlock_completions (s : State) (k : Nat) (f : Block → Block) : (s.modBlock k f).completions = s.completions := rfl
@[simp] theorem State.modBlock_reqs (s : State) (k : Nat) (f : Block → Block) : (s.modBlock k f).reqs = s.reqs := rfl
@[simp] theorem State.modBlock_walks (s : State) (k : Nat) (f : Block → Block) : (s.modBlock k f).walks = s.walks := rfl
@[simp] theorem State.modBlock_invals (s : State) (k : Nat) (f : Block → Block) : (s.modBlock k f).invals = s.invals := rfl
@[simp] theorem State.modBlock_queues (s : State) (k : Nat) (f : Block → Block) : (s.modBlock k f).queues = s.queues := rfl
@[simp] theorem State.modBlock_clusterTlb (s : State) (k : Nat) (f : Block → Block) : (s.modBlock k f).clusterTlb = s.clusterTlb := rfl
@[simp] theorem State.modBlock_cores (s : State) (k : Nat) (f : Block → Block) : (s.modBlock k f).cores = s.cores := rfl
@[simp] theorem State.modBlock_bundles (s : State) (k : Nat) (f : Block → Block) : (s.modBlock k f).bundles = s.bundles := rfl
@[simp] theorem State.modBlock_portFree (s : State) (k : Nat) (f : Block → Block) : (s.modBlock k f).portFree = s.portFree := rfl
@[simp] theorem State.modBlock_longs (s : State) (k : Nat) (f : Block → Block) : (s.modBlock k f).longs = s.longs := rfl
@[simp] theorem State.modBlock_shfls (s : State) (k : Nat) (f : Block → Block) : (s.modBlock k f).shfls = s.shfls := rfl
@[simp] theorem State.modBlock_warps (s : State) (k : Nat) (f : Block → Block) : (s.modBlock k f).warps = s.warps := rfl
@[simp] theorem State.modBlock_groups (s : State) (k : Nat) (f : Block → Block) : (s.modBlock k f).groups = s.groups := rfl
@[simp] theorem State.modBlock_launches (s : State) (k : Nat) (f : Block → Block) : (s.modBlock k f).launches = s.launches := rfl
@[simp] theorem State.modBlock_parts (s : State) (k : Nat) (f : Block → Block) : (s.modBlock k f).parts = s.parts := rfl
@[simp] theorem State.modBlock_sends (s : State) (k : Nat) (f : Block → Block) : (s.modBlock k f).sends = s.sends := rfl
@[simp] theorem State.modBlock_retries (s : State) (k : Nat) (f : Block → Block) : (s.modBlock k f).retries = s.retries := rfl
@[simp] theorem State.modBlock_ckpts (s : State) (k : Nat) (f : Block → Block) : (s.modBlock k f).ckpts = s.ckpts := rfl
@[simp] theorem State.modBlock_ctls (s : State) (k : Nat) (f : Block → Block) : (s.modBlock k f).ctls = s.ctls := rfl
@[simp] theorem State.modBlock_images (s : State) (k : Nat) (f : Block → Block) : (s.modBlock k f).images = s.images := rfl
@[simp] theorem State.modBlock_redVals (s : State) (k : Nat) (f : Block → Block) : (s.modBlock k f).redVals = s.redVals := rfl
@[simp] theorem State.modBlock_redWindows (s : State) (k : Nat) (f : Block → Block) : (s.modBlock k f).redWindows = s.redWindows := rfl
@[simp] theorem State.modBlock_redFaults (s : State) (k : Nat) (f : Block → Block) : (s.modBlock k f).redFaults = s.redFaults := rfl
@[simp] theorem State.modBlock_switchAt (s : State) (k : Nat) (f : Block → Block) : (s.modBlock k f).switchAt = s.switchAt := rfl

/-! ### `State.modGroup` changes `groups` alone -/

@[simp] theorem State.modGroup_agenda (s : State) (k : Nat) (f : Group → Group) : (s.modGroup k f).agenda = s.agenda := rfl
@[simp] theorem State.modGroup_cycle (s : State) (k : Nat) (f : Group → Group) : (s.modGroup k f).cycle = s.cycle := rfl
@[simp] theorem State.modGroup_fresh (s : State) (k : Nat) (f : Group → Group) : (s.modGroup k f).fresh = s.fresh := rfl
@[simp] theorem State.modGroup_uid (s : State) (k : Nat) (f : Group → Group) : (s.modGroup k f).uid = s.uid := rfl
@[simp] theorem State.modGroup_cur (s : State) (k : Nat) (f : Group → Group) : (s.modGroup k f).cur = s.cur := rfl
@[simp] theorem State.modGroup_out (s : State) (k : Nat) (f : Group → Group) : (s.modGroup k f).out = s.out := rfl
@[simp] theorem State.modGroup_supply (s : State) (k : Nat) (f : Group → Group) : (s.modGroup k f).supply = s.supply := rfl
@[simp] theorem State.modGroup_boot (s : State) (k : Nat) (f : Group → Group) : (s.modGroup k f).boot = s.boot := rfl
@[simp] theorem State.modGroup_failCode (s : State) (k : Nat) (f : Group → Group) : (s.modGroup k f).failCode = s.failCode := rfl
@[simp] theorem State.modGroup_imageOk (s : State) (k : Nat) (f : Group → Group) : (s.modGroup k f).imageOk = s.imageOk := rfl
@[simp] theorem State.modGroup_digest (s : State) (k : Nat) (f : Group → Group) : (s.modGroup k f).digest = s.digest := rfl
@[simp] theorem State.modGroup_version (s : State) (k : Nat) (f : Group → Group) : (s.modGroup k f).version = s.version := rfl
@[simp] theorem State.modGroup_powerCap (s : State) (k : Nat) (f : Group → Group) : (s.modGroup k f).powerCap = s.powerCap := rfl
@[simp] theorem State.modGroup_pausedDies (s : State) (k : Nat) (f : Group → Group) : (s.modGroup k f).pausedDies = s.pausedDies := rfl
@[simp] theorem State.modGroup_deadLinks (s : State) (k : Nat) (f : Group → Group) : (s.modGroup k f).deadLinks = s.deadLinks := rfl
@[simp] theorem State.modGroup_sliceCorrected (s : State) (k : Nat) (f : Group → Group) : (s.modGroup k f).sliceCorrected = s.sliceCorrected := rfl
@[simp] theorem State.modGroup_stackCorrected (s : State) (k : Nat) (f : Group → Group) : (s.modGroup k f).stackCorrected = s.stackCorrected := rfl
@[simp] theorem State.modGroup_linkFec (s : State) (k : Nat) (f : Group → Group) : (s.modGroup k f).linkFec = s.linkFec := rfl
@[simp] theorem State.modGroup_linkRetrains (s : State) (k : Nat) (f : Group → Group) : (s.modGroup k f).linkRetrains = s.linkRetrains := rfl
@[simp] theorem State.modGroup_linkLost (s : State) (k : Nat) (f : Group → Group) : (s.modGroup k f).linkLost = s.linkLost := rfl
@[simp] theorem State.modGroup_cxl (s : State) (k : Nat) (f : Group → Group) : (s.modGroup k f).cxl = s.cxl := rfl
@[simp] theorem State.modGroup_refTick (s : State) (k : Nat) (f : Group → Group) : (s.modGroup k f).refTick = s.refTick := rfl
@[simp] theorem State.modGroup_tickDue (s : State) (k : Nat) (f : Group → Group) : (s.modGroup k f).tickDue = s.tickDue := rfl
@[simp] theorem State.modGroup_hold (s : State) (k : Nat) (f : Group → Group) : (s.modGroup k f).hold = s.hold := rfl
@[simp] theorem State.modGroup_holdIgnored (s : State) (k : Nat) (f : Group → Group) : (s.modGroup k f).holdIgnored = s.holdIgnored := rfl
@[simp] theorem State.modGroup_settled (s : State) (k : Nat) (f : Group → Group) : (s.modGroup k f).settled = s.settled := rfl
@[simp] theorem State.modGroup_settleDue (s : State) (k : Nat) (f : Group → Group) : (s.modGroup k f).settleDue = s.settleDue := rfl
@[simp] theorem State.modGroup_era (s : State) (k : Nat) (f : Group → Group) : (s.modGroup k f).era = s.era := rfl
@[simp] theorem State.modGroup_slices (s : State) (k : Nat) (f : Group → Group) : (s.modGroup k f).slices = s.slices := rfl
@[simp] theorem State.modGroup_l2 (s : State) (k : Nat) (f : Group → Group) : (s.modGroup k f).l2 = s.l2 := rfl
@[simp] theorem State.modGroup_mem (s : State) (k : Nat) (f : Group → Group) : (s.modGroup k f).mem = s.mem := rfl
@[simp] theorem State.modGroup_poison (s : State) (k : Nat) (f : Group → Group) : (s.modGroup k f).poison = s.poison := rfl
@[simp] theorem State.modGroup_lineMeta (s : State) (k : Nat) (f : Group → Group) : (s.modGroup k f).lineMeta = s.lineMeta := rfl
@[simp] theorem State.modGroup_migrations (s : State) (k : Nat) (f : Group → Group) : (s.modGroup k f).migrations = s.migrations := rfl
@[simp] theorem State.modGroup_completions (s : State) (k : Nat) (f : Group → Group) : (s.modGroup k f).completions = s.completions := rfl
@[simp] theorem State.modGroup_reqs (s : State) (k : Nat) (f : Group → Group) : (s.modGroup k f).reqs = s.reqs := rfl
@[simp] theorem State.modGroup_walks (s : State) (k : Nat) (f : Group → Group) : (s.modGroup k f).walks = s.walks := rfl
@[simp] theorem State.modGroup_invals (s : State) (k : Nat) (f : Group → Group) : (s.modGroup k f).invals = s.invals := rfl
@[simp] theorem State.modGroup_queues (s : State) (k : Nat) (f : Group → Group) : (s.modGroup k f).queues = s.queues := rfl
@[simp] theorem State.modGroup_clusterTlb (s : State) (k : Nat) (f : Group → Group) : (s.modGroup k f).clusterTlb = s.clusterTlb := rfl
@[simp] theorem State.modGroup_cores (s : State) (k : Nat) (f : Group → Group) : (s.modGroup k f).cores = s.cores := rfl
@[simp] theorem State.modGroup_bundles (s : State) (k : Nat) (f : Group → Group) : (s.modGroup k f).bundles = s.bundles := rfl
@[simp] theorem State.modGroup_portFree (s : State) (k : Nat) (f : Group → Group) : (s.modGroup k f).portFree = s.portFree := rfl
@[simp] theorem State.modGroup_longs (s : State) (k : Nat) (f : Group → Group) : (s.modGroup k f).longs = s.longs := rfl
@[simp] theorem State.modGroup_shfls (s : State) (k : Nat) (f : Group → Group) : (s.modGroup k f).shfls = s.shfls := rfl
@[simp] theorem State.modGroup_warps (s : State) (k : Nat) (f : Group → Group) : (s.modGroup k f).warps = s.warps := rfl
@[simp] theorem State.modGroup_blocks (s : State) (k : Nat) (f : Group → Group) : (s.modGroup k f).blocks = s.blocks := rfl
@[simp] theorem State.modGroup_launches (s : State) (k : Nat) (f : Group → Group) : (s.modGroup k f).launches = s.launches := rfl
@[simp] theorem State.modGroup_parts (s : State) (k : Nat) (f : Group → Group) : (s.modGroup k f).parts = s.parts := rfl
@[simp] theorem State.modGroup_sends (s : State) (k : Nat) (f : Group → Group) : (s.modGroup k f).sends = s.sends := rfl
@[simp] theorem State.modGroup_retries (s : State) (k : Nat) (f : Group → Group) : (s.modGroup k f).retries = s.retries := rfl
@[simp] theorem State.modGroup_ckpts (s : State) (k : Nat) (f : Group → Group) : (s.modGroup k f).ckpts = s.ckpts := rfl
@[simp] theorem State.modGroup_ctls (s : State) (k : Nat) (f : Group → Group) : (s.modGroup k f).ctls = s.ctls := rfl
@[simp] theorem State.modGroup_images (s : State) (k : Nat) (f : Group → Group) : (s.modGroup k f).images = s.images := rfl
@[simp] theorem State.modGroup_redVals (s : State) (k : Nat) (f : Group → Group) : (s.modGroup k f).redVals = s.redVals := rfl
@[simp] theorem State.modGroup_redWindows (s : State) (k : Nat) (f : Group → Group) : (s.modGroup k f).redWindows = s.redWindows := rfl
@[simp] theorem State.modGroup_redFaults (s : State) (k : Nat) (f : Group → Group) : (s.modGroup k f).redFaults = s.redFaults := rfl
@[simp] theorem State.modGroup_switchAt (s : State) (k : Nat) (f : Group → Group) : (s.modGroup k f).switchAt = s.switchAt := rfl

/-! ### `State.modLaunch` changes `launches` alone -/

@[simp] theorem State.modLaunch_agenda (s : State) (k : Nat) (f : Launch → Launch) : (s.modLaunch k f).agenda = s.agenda := rfl
@[simp] theorem State.modLaunch_cycle (s : State) (k : Nat) (f : Launch → Launch) : (s.modLaunch k f).cycle = s.cycle := rfl
@[simp] theorem State.modLaunch_fresh (s : State) (k : Nat) (f : Launch → Launch) : (s.modLaunch k f).fresh = s.fresh := rfl
@[simp] theorem State.modLaunch_uid (s : State) (k : Nat) (f : Launch → Launch) : (s.modLaunch k f).uid = s.uid := rfl
@[simp] theorem State.modLaunch_cur (s : State) (k : Nat) (f : Launch → Launch) : (s.modLaunch k f).cur = s.cur := rfl
@[simp] theorem State.modLaunch_out (s : State) (k : Nat) (f : Launch → Launch) : (s.modLaunch k f).out = s.out := rfl
@[simp] theorem State.modLaunch_supply (s : State) (k : Nat) (f : Launch → Launch) : (s.modLaunch k f).supply = s.supply := rfl
@[simp] theorem State.modLaunch_boot (s : State) (k : Nat) (f : Launch → Launch) : (s.modLaunch k f).boot = s.boot := rfl
@[simp] theorem State.modLaunch_failCode (s : State) (k : Nat) (f : Launch → Launch) : (s.modLaunch k f).failCode = s.failCode := rfl
@[simp] theorem State.modLaunch_imageOk (s : State) (k : Nat) (f : Launch → Launch) : (s.modLaunch k f).imageOk = s.imageOk := rfl
@[simp] theorem State.modLaunch_digest (s : State) (k : Nat) (f : Launch → Launch) : (s.modLaunch k f).digest = s.digest := rfl
@[simp] theorem State.modLaunch_version (s : State) (k : Nat) (f : Launch → Launch) : (s.modLaunch k f).version = s.version := rfl
@[simp] theorem State.modLaunch_powerCap (s : State) (k : Nat) (f : Launch → Launch) : (s.modLaunch k f).powerCap = s.powerCap := rfl
@[simp] theorem State.modLaunch_pausedDies (s : State) (k : Nat) (f : Launch → Launch) : (s.modLaunch k f).pausedDies = s.pausedDies := rfl
@[simp] theorem State.modLaunch_deadLinks (s : State) (k : Nat) (f : Launch → Launch) : (s.modLaunch k f).deadLinks = s.deadLinks := rfl
@[simp] theorem State.modLaunch_sliceCorrected (s : State) (k : Nat) (f : Launch → Launch) : (s.modLaunch k f).sliceCorrected = s.sliceCorrected := rfl
@[simp] theorem State.modLaunch_stackCorrected (s : State) (k : Nat) (f : Launch → Launch) : (s.modLaunch k f).stackCorrected = s.stackCorrected := rfl
@[simp] theorem State.modLaunch_linkFec (s : State) (k : Nat) (f : Launch → Launch) : (s.modLaunch k f).linkFec = s.linkFec := rfl
@[simp] theorem State.modLaunch_linkRetrains (s : State) (k : Nat) (f : Launch → Launch) : (s.modLaunch k f).linkRetrains = s.linkRetrains := rfl
@[simp] theorem State.modLaunch_linkLost (s : State) (k : Nat) (f : Launch → Launch) : (s.modLaunch k f).linkLost = s.linkLost := rfl
@[simp] theorem State.modLaunch_cxl (s : State) (k : Nat) (f : Launch → Launch) : (s.modLaunch k f).cxl = s.cxl := rfl
@[simp] theorem State.modLaunch_refTick (s : State) (k : Nat) (f : Launch → Launch) : (s.modLaunch k f).refTick = s.refTick := rfl
@[simp] theorem State.modLaunch_tickDue (s : State) (k : Nat) (f : Launch → Launch) : (s.modLaunch k f).tickDue = s.tickDue := rfl
@[simp] theorem State.modLaunch_hold (s : State) (k : Nat) (f : Launch → Launch) : (s.modLaunch k f).hold = s.hold := rfl
@[simp] theorem State.modLaunch_holdIgnored (s : State) (k : Nat) (f : Launch → Launch) : (s.modLaunch k f).holdIgnored = s.holdIgnored := rfl
@[simp] theorem State.modLaunch_settled (s : State) (k : Nat) (f : Launch → Launch) : (s.modLaunch k f).settled = s.settled := rfl
@[simp] theorem State.modLaunch_settleDue (s : State) (k : Nat) (f : Launch → Launch) : (s.modLaunch k f).settleDue = s.settleDue := rfl
@[simp] theorem State.modLaunch_era (s : State) (k : Nat) (f : Launch → Launch) : (s.modLaunch k f).era = s.era := rfl
@[simp] theorem State.modLaunch_slices (s : State) (k : Nat) (f : Launch → Launch) : (s.modLaunch k f).slices = s.slices := rfl
@[simp] theorem State.modLaunch_l2 (s : State) (k : Nat) (f : Launch → Launch) : (s.modLaunch k f).l2 = s.l2 := rfl
@[simp] theorem State.modLaunch_mem (s : State) (k : Nat) (f : Launch → Launch) : (s.modLaunch k f).mem = s.mem := rfl
@[simp] theorem State.modLaunch_poison (s : State) (k : Nat) (f : Launch → Launch) : (s.modLaunch k f).poison = s.poison := rfl
@[simp] theorem State.modLaunch_lineMeta (s : State) (k : Nat) (f : Launch → Launch) : (s.modLaunch k f).lineMeta = s.lineMeta := rfl
@[simp] theorem State.modLaunch_migrations (s : State) (k : Nat) (f : Launch → Launch) : (s.modLaunch k f).migrations = s.migrations := rfl
@[simp] theorem State.modLaunch_completions (s : State) (k : Nat) (f : Launch → Launch) : (s.modLaunch k f).completions = s.completions := rfl
@[simp] theorem State.modLaunch_reqs (s : State) (k : Nat) (f : Launch → Launch) : (s.modLaunch k f).reqs = s.reqs := rfl
@[simp] theorem State.modLaunch_walks (s : State) (k : Nat) (f : Launch → Launch) : (s.modLaunch k f).walks = s.walks := rfl
@[simp] theorem State.modLaunch_invals (s : State) (k : Nat) (f : Launch → Launch) : (s.modLaunch k f).invals = s.invals := rfl
@[simp] theorem State.modLaunch_queues (s : State) (k : Nat) (f : Launch → Launch) : (s.modLaunch k f).queues = s.queues := rfl
@[simp] theorem State.modLaunch_clusterTlb (s : State) (k : Nat) (f : Launch → Launch) : (s.modLaunch k f).clusterTlb = s.clusterTlb := rfl
@[simp] theorem State.modLaunch_cores (s : State) (k : Nat) (f : Launch → Launch) : (s.modLaunch k f).cores = s.cores := rfl
@[simp] theorem State.modLaunch_bundles (s : State) (k : Nat) (f : Launch → Launch) : (s.modLaunch k f).bundles = s.bundles := rfl
@[simp] theorem State.modLaunch_portFree (s : State) (k : Nat) (f : Launch → Launch) : (s.modLaunch k f).portFree = s.portFree := rfl
@[simp] theorem State.modLaunch_longs (s : State) (k : Nat) (f : Launch → Launch) : (s.modLaunch k f).longs = s.longs := rfl
@[simp] theorem State.modLaunch_shfls (s : State) (k : Nat) (f : Launch → Launch) : (s.modLaunch k f).shfls = s.shfls := rfl
@[simp] theorem State.modLaunch_warps (s : State) (k : Nat) (f : Launch → Launch) : (s.modLaunch k f).warps = s.warps := rfl
@[simp] theorem State.modLaunch_blocks (s : State) (k : Nat) (f : Launch → Launch) : (s.modLaunch k f).blocks = s.blocks := rfl
@[simp] theorem State.modLaunch_groups (s : State) (k : Nat) (f : Launch → Launch) : (s.modLaunch k f).groups = s.groups := rfl
@[simp] theorem State.modLaunch_parts (s : State) (k : Nat) (f : Launch → Launch) : (s.modLaunch k f).parts = s.parts := rfl
@[simp] theorem State.modLaunch_sends (s : State) (k : Nat) (f : Launch → Launch) : (s.modLaunch k f).sends = s.sends := rfl
@[simp] theorem State.modLaunch_retries (s : State) (k : Nat) (f : Launch → Launch) : (s.modLaunch k f).retries = s.retries := rfl
@[simp] theorem State.modLaunch_ckpts (s : State) (k : Nat) (f : Launch → Launch) : (s.modLaunch k f).ckpts = s.ckpts := rfl
@[simp] theorem State.modLaunch_ctls (s : State) (k : Nat) (f : Launch → Launch) : (s.modLaunch k f).ctls = s.ctls := rfl
@[simp] theorem State.modLaunch_images (s : State) (k : Nat) (f : Launch → Launch) : (s.modLaunch k f).images = s.images := rfl
@[simp] theorem State.modLaunch_redVals (s : State) (k : Nat) (f : Launch → Launch) : (s.modLaunch k f).redVals = s.redVals := rfl
@[simp] theorem State.modLaunch_redWindows (s : State) (k : Nat) (f : Launch → Launch) : (s.modLaunch k f).redWindows = s.redWindows := rfl
@[simp] theorem State.modLaunch_redFaults (s : State) (k : Nat) (f : Launch → Launch) : (s.modLaunch k f).redFaults = s.redFaults := rfl
@[simp] theorem State.modLaunch_switchAt (s : State) (k : Nat) (f : Launch → Launch) : (s.modLaunch k f).switchAt = s.switchAt := rfl

/-! ### `State.modBundle` changes `bundles` alone -/

@[simp] theorem State.modBundle_agenda (s : State) (k : Nat) (f : Bundle → Bundle) : (s.modBundle k f).agenda = s.agenda := rfl
@[simp] theorem State.modBundle_cycle (s : State) (k : Nat) (f : Bundle → Bundle) : (s.modBundle k f).cycle = s.cycle := rfl
@[simp] theorem State.modBundle_fresh (s : State) (k : Nat) (f : Bundle → Bundle) : (s.modBundle k f).fresh = s.fresh := rfl
@[simp] theorem State.modBundle_uid (s : State) (k : Nat) (f : Bundle → Bundle) : (s.modBundle k f).uid = s.uid := rfl
@[simp] theorem State.modBundle_cur (s : State) (k : Nat) (f : Bundle → Bundle) : (s.modBundle k f).cur = s.cur := rfl
@[simp] theorem State.modBundle_out (s : State) (k : Nat) (f : Bundle → Bundle) : (s.modBundle k f).out = s.out := rfl
@[simp] theorem State.modBundle_supply (s : State) (k : Nat) (f : Bundle → Bundle) : (s.modBundle k f).supply = s.supply := rfl
@[simp] theorem State.modBundle_boot (s : State) (k : Nat) (f : Bundle → Bundle) : (s.modBundle k f).boot = s.boot := rfl
@[simp] theorem State.modBundle_failCode (s : State) (k : Nat) (f : Bundle → Bundle) : (s.modBundle k f).failCode = s.failCode := rfl
@[simp] theorem State.modBundle_imageOk (s : State) (k : Nat) (f : Bundle → Bundle) : (s.modBundle k f).imageOk = s.imageOk := rfl
@[simp] theorem State.modBundle_digest (s : State) (k : Nat) (f : Bundle → Bundle) : (s.modBundle k f).digest = s.digest := rfl
@[simp] theorem State.modBundle_version (s : State) (k : Nat) (f : Bundle → Bundle) : (s.modBundle k f).version = s.version := rfl
@[simp] theorem State.modBundle_powerCap (s : State) (k : Nat) (f : Bundle → Bundle) : (s.modBundle k f).powerCap = s.powerCap := rfl
@[simp] theorem State.modBundle_pausedDies (s : State) (k : Nat) (f : Bundle → Bundle) : (s.modBundle k f).pausedDies = s.pausedDies := rfl
@[simp] theorem State.modBundle_deadLinks (s : State) (k : Nat) (f : Bundle → Bundle) : (s.modBundle k f).deadLinks = s.deadLinks := rfl
@[simp] theorem State.modBundle_sliceCorrected (s : State) (k : Nat) (f : Bundle → Bundle) : (s.modBundle k f).sliceCorrected = s.sliceCorrected := rfl
@[simp] theorem State.modBundle_stackCorrected (s : State) (k : Nat) (f : Bundle → Bundle) : (s.modBundle k f).stackCorrected = s.stackCorrected := rfl
@[simp] theorem State.modBundle_linkFec (s : State) (k : Nat) (f : Bundle → Bundle) : (s.modBundle k f).linkFec = s.linkFec := rfl
@[simp] theorem State.modBundle_linkRetrains (s : State) (k : Nat) (f : Bundle → Bundle) : (s.modBundle k f).linkRetrains = s.linkRetrains := rfl
@[simp] theorem State.modBundle_linkLost (s : State) (k : Nat) (f : Bundle → Bundle) : (s.modBundle k f).linkLost = s.linkLost := rfl
@[simp] theorem State.modBundle_cxl (s : State) (k : Nat) (f : Bundle → Bundle) : (s.modBundle k f).cxl = s.cxl := rfl
@[simp] theorem State.modBundle_refTick (s : State) (k : Nat) (f : Bundle → Bundle) : (s.modBundle k f).refTick = s.refTick := rfl
@[simp] theorem State.modBundle_tickDue (s : State) (k : Nat) (f : Bundle → Bundle) : (s.modBundle k f).tickDue = s.tickDue := rfl
@[simp] theorem State.modBundle_hold (s : State) (k : Nat) (f : Bundle → Bundle) : (s.modBundle k f).hold = s.hold := rfl
@[simp] theorem State.modBundle_holdIgnored (s : State) (k : Nat) (f : Bundle → Bundle) : (s.modBundle k f).holdIgnored = s.holdIgnored := rfl
@[simp] theorem State.modBundle_settled (s : State) (k : Nat) (f : Bundle → Bundle) : (s.modBundle k f).settled = s.settled := rfl
@[simp] theorem State.modBundle_settleDue (s : State) (k : Nat) (f : Bundle → Bundle) : (s.modBundle k f).settleDue = s.settleDue := rfl
@[simp] theorem State.modBundle_era (s : State) (k : Nat) (f : Bundle → Bundle) : (s.modBundle k f).era = s.era := rfl
@[simp] theorem State.modBundle_slices (s : State) (k : Nat) (f : Bundle → Bundle) : (s.modBundle k f).slices = s.slices := rfl
@[simp] theorem State.modBundle_l2 (s : State) (k : Nat) (f : Bundle → Bundle) : (s.modBundle k f).l2 = s.l2 := rfl
@[simp] theorem State.modBundle_mem (s : State) (k : Nat) (f : Bundle → Bundle) : (s.modBundle k f).mem = s.mem := rfl
@[simp] theorem State.modBundle_poison (s : State) (k : Nat) (f : Bundle → Bundle) : (s.modBundle k f).poison = s.poison := rfl
@[simp] theorem State.modBundle_lineMeta (s : State) (k : Nat) (f : Bundle → Bundle) : (s.modBundle k f).lineMeta = s.lineMeta := rfl
@[simp] theorem State.modBundle_migrations (s : State) (k : Nat) (f : Bundle → Bundle) : (s.modBundle k f).migrations = s.migrations := rfl
@[simp] theorem State.modBundle_completions (s : State) (k : Nat) (f : Bundle → Bundle) : (s.modBundle k f).completions = s.completions := rfl
@[simp] theorem State.modBundle_reqs (s : State) (k : Nat) (f : Bundle → Bundle) : (s.modBundle k f).reqs = s.reqs := rfl
@[simp] theorem State.modBundle_walks (s : State) (k : Nat) (f : Bundle → Bundle) : (s.modBundle k f).walks = s.walks := rfl
@[simp] theorem State.modBundle_invals (s : State) (k : Nat) (f : Bundle → Bundle) : (s.modBundle k f).invals = s.invals := rfl
@[simp] theorem State.modBundle_queues (s : State) (k : Nat) (f : Bundle → Bundle) : (s.modBundle k f).queues = s.queues := rfl
@[simp] theorem State.modBundle_clusterTlb (s : State) (k : Nat) (f : Bundle → Bundle) : (s.modBundle k f).clusterTlb = s.clusterTlb := rfl
@[simp] theorem State.modBundle_cores (s : State) (k : Nat) (f : Bundle → Bundle) : (s.modBundle k f).cores = s.cores := rfl
@[simp] theorem State.modBundle_portFree (s : State) (k : Nat) (f : Bundle → Bundle) : (s.modBundle k f).portFree = s.portFree := rfl
@[simp] theorem State.modBundle_longs (s : State) (k : Nat) (f : Bundle → Bundle) : (s.modBundle k f).longs = s.longs := rfl
@[simp] theorem State.modBundle_shfls (s : State) (k : Nat) (f : Bundle → Bundle) : (s.modBundle k f).shfls = s.shfls := rfl
@[simp] theorem State.modBundle_warps (s : State) (k : Nat) (f : Bundle → Bundle) : (s.modBundle k f).warps = s.warps := rfl
@[simp] theorem State.modBundle_blocks (s : State) (k : Nat) (f : Bundle → Bundle) : (s.modBundle k f).blocks = s.blocks := rfl
@[simp] theorem State.modBundle_groups (s : State) (k : Nat) (f : Bundle → Bundle) : (s.modBundle k f).groups = s.groups := rfl
@[simp] theorem State.modBundle_launches (s : State) (k : Nat) (f : Bundle → Bundle) : (s.modBundle k f).launches = s.launches := rfl
@[simp] theorem State.modBundle_parts (s : State) (k : Nat) (f : Bundle → Bundle) : (s.modBundle k f).parts = s.parts := rfl
@[simp] theorem State.modBundle_sends (s : State) (k : Nat) (f : Bundle → Bundle) : (s.modBundle k f).sends = s.sends := rfl
@[simp] theorem State.modBundle_retries (s : State) (k : Nat) (f : Bundle → Bundle) : (s.modBundle k f).retries = s.retries := rfl
@[simp] theorem State.modBundle_ckpts (s : State) (k : Nat) (f : Bundle → Bundle) : (s.modBundle k f).ckpts = s.ckpts := rfl
@[simp] theorem State.modBundle_ctls (s : State) (k : Nat) (f : Bundle → Bundle) : (s.modBundle k f).ctls = s.ctls := rfl
@[simp] theorem State.modBundle_images (s : State) (k : Nat) (f : Bundle → Bundle) : (s.modBundle k f).images = s.images := rfl
@[simp] theorem State.modBundle_redVals (s : State) (k : Nat) (f : Bundle → Bundle) : (s.modBundle k f).redVals = s.redVals := rfl
@[simp] theorem State.modBundle_redWindows (s : State) (k : Nat) (f : Bundle → Bundle) : (s.modBundle k f).redWindows = s.redWindows := rfl
@[simp] theorem State.modBundle_redFaults (s : State) (k : Nat) (f : Bundle → Bundle) : (s.modBundle k f).redFaults = s.redFaults := rfl
@[simp] theorem State.modBundle_switchAt (s : State) (k : Nat) (f : Bundle → Bundle) : (s.modBundle k f).switchAt = s.switchAt := rfl

/-! ### `State.modPart` changes `parts` alone -/

@[simp] theorem State.modPart_agenda (s : State) (k : Nat) (f : Partition → Partition) : (s.modPart k f).agenda = s.agenda := rfl
@[simp] theorem State.modPart_cycle (s : State) (k : Nat) (f : Partition → Partition) : (s.modPart k f).cycle = s.cycle := rfl
@[simp] theorem State.modPart_fresh (s : State) (k : Nat) (f : Partition → Partition) : (s.modPart k f).fresh = s.fresh := rfl
@[simp] theorem State.modPart_uid (s : State) (k : Nat) (f : Partition → Partition) : (s.modPart k f).uid = s.uid := rfl
@[simp] theorem State.modPart_cur (s : State) (k : Nat) (f : Partition → Partition) : (s.modPart k f).cur = s.cur := rfl
@[simp] theorem State.modPart_out (s : State) (k : Nat) (f : Partition → Partition) : (s.modPart k f).out = s.out := rfl
@[simp] theorem State.modPart_supply (s : State) (k : Nat) (f : Partition → Partition) : (s.modPart k f).supply = s.supply := rfl
@[simp] theorem State.modPart_boot (s : State) (k : Nat) (f : Partition → Partition) : (s.modPart k f).boot = s.boot := rfl
@[simp] theorem State.modPart_failCode (s : State) (k : Nat) (f : Partition → Partition) : (s.modPart k f).failCode = s.failCode := rfl
@[simp] theorem State.modPart_imageOk (s : State) (k : Nat) (f : Partition → Partition) : (s.modPart k f).imageOk = s.imageOk := rfl
@[simp] theorem State.modPart_digest (s : State) (k : Nat) (f : Partition → Partition) : (s.modPart k f).digest = s.digest := rfl
@[simp] theorem State.modPart_version (s : State) (k : Nat) (f : Partition → Partition) : (s.modPart k f).version = s.version := rfl
@[simp] theorem State.modPart_powerCap (s : State) (k : Nat) (f : Partition → Partition) : (s.modPart k f).powerCap = s.powerCap := rfl
@[simp] theorem State.modPart_pausedDies (s : State) (k : Nat) (f : Partition → Partition) : (s.modPart k f).pausedDies = s.pausedDies := rfl
@[simp] theorem State.modPart_deadLinks (s : State) (k : Nat) (f : Partition → Partition) : (s.modPart k f).deadLinks = s.deadLinks := rfl
@[simp] theorem State.modPart_sliceCorrected (s : State) (k : Nat) (f : Partition → Partition) : (s.modPart k f).sliceCorrected = s.sliceCorrected := rfl
@[simp] theorem State.modPart_stackCorrected (s : State) (k : Nat) (f : Partition → Partition) : (s.modPart k f).stackCorrected = s.stackCorrected := rfl
@[simp] theorem State.modPart_linkFec (s : State) (k : Nat) (f : Partition → Partition) : (s.modPart k f).linkFec = s.linkFec := rfl
@[simp] theorem State.modPart_linkRetrains (s : State) (k : Nat) (f : Partition → Partition) : (s.modPart k f).linkRetrains = s.linkRetrains := rfl
@[simp] theorem State.modPart_linkLost (s : State) (k : Nat) (f : Partition → Partition) : (s.modPart k f).linkLost = s.linkLost := rfl
@[simp] theorem State.modPart_cxl (s : State) (k : Nat) (f : Partition → Partition) : (s.modPart k f).cxl = s.cxl := rfl
@[simp] theorem State.modPart_refTick (s : State) (k : Nat) (f : Partition → Partition) : (s.modPart k f).refTick = s.refTick := rfl
@[simp] theorem State.modPart_tickDue (s : State) (k : Nat) (f : Partition → Partition) : (s.modPart k f).tickDue = s.tickDue := rfl
@[simp] theorem State.modPart_hold (s : State) (k : Nat) (f : Partition → Partition) : (s.modPart k f).hold = s.hold := rfl
@[simp] theorem State.modPart_holdIgnored (s : State) (k : Nat) (f : Partition → Partition) : (s.modPart k f).holdIgnored = s.holdIgnored := rfl
@[simp] theorem State.modPart_settled (s : State) (k : Nat) (f : Partition → Partition) : (s.modPart k f).settled = s.settled := rfl
@[simp] theorem State.modPart_settleDue (s : State) (k : Nat) (f : Partition → Partition) : (s.modPart k f).settleDue = s.settleDue := rfl
@[simp] theorem State.modPart_era (s : State) (k : Nat) (f : Partition → Partition) : (s.modPart k f).era = s.era := rfl
@[simp] theorem State.modPart_slices (s : State) (k : Nat) (f : Partition → Partition) : (s.modPart k f).slices = s.slices := rfl
@[simp] theorem State.modPart_l2 (s : State) (k : Nat) (f : Partition → Partition) : (s.modPart k f).l2 = s.l2 := rfl
@[simp] theorem State.modPart_mem (s : State) (k : Nat) (f : Partition → Partition) : (s.modPart k f).mem = s.mem := rfl
@[simp] theorem State.modPart_poison (s : State) (k : Nat) (f : Partition → Partition) : (s.modPart k f).poison = s.poison := rfl
@[simp] theorem State.modPart_lineMeta (s : State) (k : Nat) (f : Partition → Partition) : (s.modPart k f).lineMeta = s.lineMeta := rfl
@[simp] theorem State.modPart_migrations (s : State) (k : Nat) (f : Partition → Partition) : (s.modPart k f).migrations = s.migrations := rfl
@[simp] theorem State.modPart_completions (s : State) (k : Nat) (f : Partition → Partition) : (s.modPart k f).completions = s.completions := rfl
@[simp] theorem State.modPart_reqs (s : State) (k : Nat) (f : Partition → Partition) : (s.modPart k f).reqs = s.reqs := rfl
@[simp] theorem State.modPart_walks (s : State) (k : Nat) (f : Partition → Partition) : (s.modPart k f).walks = s.walks := rfl
@[simp] theorem State.modPart_invals (s : State) (k : Nat) (f : Partition → Partition) : (s.modPart k f).invals = s.invals := rfl
@[simp] theorem State.modPart_queues (s : State) (k : Nat) (f : Partition → Partition) : (s.modPart k f).queues = s.queues := rfl
@[simp] theorem State.modPart_clusterTlb (s : State) (k : Nat) (f : Partition → Partition) : (s.modPart k f).clusterTlb = s.clusterTlb := rfl
@[simp] theorem State.modPart_cores (s : State) (k : Nat) (f : Partition → Partition) : (s.modPart k f).cores = s.cores := rfl
@[simp] theorem State.modPart_bundles (s : State) (k : Nat) (f : Partition → Partition) : (s.modPart k f).bundles = s.bundles := rfl
@[simp] theorem State.modPart_portFree (s : State) (k : Nat) (f : Partition → Partition) : (s.modPart k f).portFree = s.portFree := rfl
@[simp] theorem State.modPart_longs (s : State) (k : Nat) (f : Partition → Partition) : (s.modPart k f).longs = s.longs := rfl
@[simp] theorem State.modPart_shfls (s : State) (k : Nat) (f : Partition → Partition) : (s.modPart k f).shfls = s.shfls := rfl
@[simp] theorem State.modPart_warps (s : State) (k : Nat) (f : Partition → Partition) : (s.modPart k f).warps = s.warps := rfl
@[simp] theorem State.modPart_blocks (s : State) (k : Nat) (f : Partition → Partition) : (s.modPart k f).blocks = s.blocks := rfl
@[simp] theorem State.modPart_groups (s : State) (k : Nat) (f : Partition → Partition) : (s.modPart k f).groups = s.groups := rfl
@[simp] theorem State.modPart_launches (s : State) (k : Nat) (f : Partition → Partition) : (s.modPart k f).launches = s.launches := rfl
@[simp] theorem State.modPart_sends (s : State) (k : Nat) (f : Partition → Partition) : (s.modPart k f).sends = s.sends := rfl
@[simp] theorem State.modPart_retries (s : State) (k : Nat) (f : Partition → Partition) : (s.modPart k f).retries = s.retries := rfl
@[simp] theorem State.modPart_ckpts (s : State) (k : Nat) (f : Partition → Partition) : (s.modPart k f).ckpts = s.ckpts := rfl
@[simp] theorem State.modPart_ctls (s : State) (k : Nat) (f : Partition → Partition) : (s.modPart k f).ctls = s.ctls := rfl
@[simp] theorem State.modPart_images (s : State) (k : Nat) (f : Partition → Partition) : (s.modPart k f).images = s.images := rfl
@[simp] theorem State.modPart_redVals (s : State) (k : Nat) (f : Partition → Partition) : (s.modPart k f).redVals = s.redVals := rfl
@[simp] theorem State.modPart_redWindows (s : State) (k : Nat) (f : Partition → Partition) : (s.modPart k f).redWindows = s.redWindows := rfl
@[simp] theorem State.modPart_redFaults (s : State) (k : Nat) (f : Partition → Partition) : (s.modPart k f).redFaults = s.redFaults := rfl
@[simp] theorem State.modPart_switchAt (s : State) (k : Nat) (f : Partition → Partition) : (s.modPart k f).switchAt = s.switchAt := rfl

/-! ### `State.modThread` changes `warps` alone -/

@[simp] theorem State.modThread_agenda (s : State) (k : TKey) (f : Thread → Thread) : (s.modThread k f).agenda = s.agenda := rfl
@[simp] theorem State.modThread_cycle (s : State) (k : TKey) (f : Thread → Thread) : (s.modThread k f).cycle = s.cycle := rfl
@[simp] theorem State.modThread_fresh (s : State) (k : TKey) (f : Thread → Thread) : (s.modThread k f).fresh = s.fresh := rfl
@[simp] theorem State.modThread_uid (s : State) (k : TKey) (f : Thread → Thread) : (s.modThread k f).uid = s.uid := rfl
@[simp] theorem State.modThread_cur (s : State) (k : TKey) (f : Thread → Thread) : (s.modThread k f).cur = s.cur := rfl
@[simp] theorem State.modThread_out (s : State) (k : TKey) (f : Thread → Thread) : (s.modThread k f).out = s.out := rfl
@[simp] theorem State.modThread_supply (s : State) (k : TKey) (f : Thread → Thread) : (s.modThread k f).supply = s.supply := rfl
@[simp] theorem State.modThread_boot (s : State) (k : TKey) (f : Thread → Thread) : (s.modThread k f).boot = s.boot := rfl
@[simp] theorem State.modThread_failCode (s : State) (k : TKey) (f : Thread → Thread) : (s.modThread k f).failCode = s.failCode := rfl
@[simp] theorem State.modThread_imageOk (s : State) (k : TKey) (f : Thread → Thread) : (s.modThread k f).imageOk = s.imageOk := rfl
@[simp] theorem State.modThread_digest (s : State) (k : TKey) (f : Thread → Thread) : (s.modThread k f).digest = s.digest := rfl
@[simp] theorem State.modThread_version (s : State) (k : TKey) (f : Thread → Thread) : (s.modThread k f).version = s.version := rfl
@[simp] theorem State.modThread_powerCap (s : State) (k : TKey) (f : Thread → Thread) : (s.modThread k f).powerCap = s.powerCap := rfl
@[simp] theorem State.modThread_pausedDies (s : State) (k : TKey) (f : Thread → Thread) : (s.modThread k f).pausedDies = s.pausedDies := rfl
@[simp] theorem State.modThread_deadLinks (s : State) (k : TKey) (f : Thread → Thread) : (s.modThread k f).deadLinks = s.deadLinks := rfl
@[simp] theorem State.modThread_sliceCorrected (s : State) (k : TKey) (f : Thread → Thread) : (s.modThread k f).sliceCorrected = s.sliceCorrected := rfl
@[simp] theorem State.modThread_stackCorrected (s : State) (k : TKey) (f : Thread → Thread) : (s.modThread k f).stackCorrected = s.stackCorrected := rfl
@[simp] theorem State.modThread_linkFec (s : State) (k : TKey) (f : Thread → Thread) : (s.modThread k f).linkFec = s.linkFec := rfl
@[simp] theorem State.modThread_linkRetrains (s : State) (k : TKey) (f : Thread → Thread) : (s.modThread k f).linkRetrains = s.linkRetrains := rfl
@[simp] theorem State.modThread_linkLost (s : State) (k : TKey) (f : Thread → Thread) : (s.modThread k f).linkLost = s.linkLost := rfl
@[simp] theorem State.modThread_cxl (s : State) (k : TKey) (f : Thread → Thread) : (s.modThread k f).cxl = s.cxl := rfl
@[simp] theorem State.modThread_refTick (s : State) (k : TKey) (f : Thread → Thread) : (s.modThread k f).refTick = s.refTick := rfl
@[simp] theorem State.modThread_tickDue (s : State) (k : TKey) (f : Thread → Thread) : (s.modThread k f).tickDue = s.tickDue := rfl
@[simp] theorem State.modThread_hold (s : State) (k : TKey) (f : Thread → Thread) : (s.modThread k f).hold = s.hold := rfl
@[simp] theorem State.modThread_holdIgnored (s : State) (k : TKey) (f : Thread → Thread) : (s.modThread k f).holdIgnored = s.holdIgnored := rfl
@[simp] theorem State.modThread_settled (s : State) (k : TKey) (f : Thread → Thread) : (s.modThread k f).settled = s.settled := rfl
@[simp] theorem State.modThread_settleDue (s : State) (k : TKey) (f : Thread → Thread) : (s.modThread k f).settleDue = s.settleDue := rfl
@[simp] theorem State.modThread_era (s : State) (k : TKey) (f : Thread → Thread) : (s.modThread k f).era = s.era := rfl
@[simp] theorem State.modThread_slices (s : State) (k : TKey) (f : Thread → Thread) : (s.modThread k f).slices = s.slices := rfl
@[simp] theorem State.modThread_l2 (s : State) (k : TKey) (f : Thread → Thread) : (s.modThread k f).l2 = s.l2 := rfl
@[simp] theorem State.modThread_mem (s : State) (k : TKey) (f : Thread → Thread) : (s.modThread k f).mem = s.mem := rfl
@[simp] theorem State.modThread_poison (s : State) (k : TKey) (f : Thread → Thread) : (s.modThread k f).poison = s.poison := rfl
@[simp] theorem State.modThread_lineMeta (s : State) (k : TKey) (f : Thread → Thread) : (s.modThread k f).lineMeta = s.lineMeta := rfl
@[simp] theorem State.modThread_migrations (s : State) (k : TKey) (f : Thread → Thread) : (s.modThread k f).migrations = s.migrations := rfl
@[simp] theorem State.modThread_completions (s : State) (k : TKey) (f : Thread → Thread) : (s.modThread k f).completions = s.completions := rfl
@[simp] theorem State.modThread_reqs (s : State) (k : TKey) (f : Thread → Thread) : (s.modThread k f).reqs = s.reqs := rfl
@[simp] theorem State.modThread_walks (s : State) (k : TKey) (f : Thread → Thread) : (s.modThread k f).walks = s.walks := rfl
@[simp] theorem State.modThread_invals (s : State) (k : TKey) (f : Thread → Thread) : (s.modThread k f).invals = s.invals := rfl
@[simp] theorem State.modThread_queues (s : State) (k : TKey) (f : Thread → Thread) : (s.modThread k f).queues = s.queues := rfl
@[simp] theorem State.modThread_clusterTlb (s : State) (k : TKey) (f : Thread → Thread) : (s.modThread k f).clusterTlb = s.clusterTlb := rfl
@[simp] theorem State.modThread_cores (s : State) (k : TKey) (f : Thread → Thread) : (s.modThread k f).cores = s.cores := rfl
@[simp] theorem State.modThread_bundles (s : State) (k : TKey) (f : Thread → Thread) : (s.modThread k f).bundles = s.bundles := rfl
@[simp] theorem State.modThread_portFree (s : State) (k : TKey) (f : Thread → Thread) : (s.modThread k f).portFree = s.portFree := rfl
@[simp] theorem State.modThread_longs (s : State) (k : TKey) (f : Thread → Thread) : (s.modThread k f).longs = s.longs := rfl
@[simp] theorem State.modThread_shfls (s : State) (k : TKey) (f : Thread → Thread) : (s.modThread k f).shfls = s.shfls := rfl
@[simp] theorem State.modThread_blocks (s : State) (k : TKey) (f : Thread → Thread) : (s.modThread k f).blocks = s.blocks := rfl
@[simp] theorem State.modThread_groups (s : State) (k : TKey) (f : Thread → Thread) : (s.modThread k f).groups = s.groups := rfl
@[simp] theorem State.modThread_launches (s : State) (k : TKey) (f : Thread → Thread) : (s.modThread k f).launches = s.launches := rfl
@[simp] theorem State.modThread_parts (s : State) (k : TKey) (f : Thread → Thread) : (s.modThread k f).parts = s.parts := rfl
@[simp] theorem State.modThread_sends (s : State) (k : TKey) (f : Thread → Thread) : (s.modThread k f).sends = s.sends := rfl
@[simp] theorem State.modThread_retries (s : State) (k : TKey) (f : Thread → Thread) : (s.modThread k f).retries = s.retries := rfl
@[simp] theorem State.modThread_ckpts (s : State) (k : TKey) (f : Thread → Thread) : (s.modThread k f).ckpts = s.ckpts := rfl
@[simp] theorem State.modThread_ctls (s : State) (k : TKey) (f : Thread → Thread) : (s.modThread k f).ctls = s.ctls := rfl
@[simp] theorem State.modThread_images (s : State) (k : TKey) (f : Thread → Thread) : (s.modThread k f).images = s.images := rfl
@[simp] theorem State.modThread_redVals (s : State) (k : TKey) (f : Thread → Thread) : (s.modThread k f).redVals = s.redVals := rfl
@[simp] theorem State.modThread_redWindows (s : State) (k : TKey) (f : Thread → Thread) : (s.modThread k f).redWindows = s.redWindows := rfl
@[simp] theorem State.modThread_redFaults (s : State) (k : TKey) (f : Thread → Thread) : (s.modThread k f).redFaults = s.redFaults := rfl
@[simp] theorem State.modThread_switchAt (s : State) (k : TKey) (f : Thread → Thread) : (s.modThread k f).switchAt = s.switchAt := rfl

/-! ### `State.emit` changes `out` alone -/

@[simp] theorem State.emit_agenda (s : State) (o : Out) : (s.emit o).agenda = s.agenda := rfl
@[simp] theorem State.emit_cycle (s : State) (o : Out) : (s.emit o).cycle = s.cycle := rfl
@[simp] theorem State.emit_fresh (s : State) (o : Out) : (s.emit o).fresh = s.fresh := rfl
@[simp] theorem State.emit_uid (s : State) (o : Out) : (s.emit o).uid = s.uid := rfl
@[simp] theorem State.emit_cur (s : State) (o : Out) : (s.emit o).cur = s.cur := rfl
@[simp] theorem State.emit_supply (s : State) (o : Out) : (s.emit o).supply = s.supply := rfl
@[simp] theorem State.emit_boot (s : State) (o : Out) : (s.emit o).boot = s.boot := rfl
@[simp] theorem State.emit_failCode (s : State) (o : Out) : (s.emit o).failCode = s.failCode := rfl
@[simp] theorem State.emit_imageOk (s : State) (o : Out) : (s.emit o).imageOk = s.imageOk := rfl
@[simp] theorem State.emit_digest (s : State) (o : Out) : (s.emit o).digest = s.digest := rfl
@[simp] theorem State.emit_version (s : State) (o : Out) : (s.emit o).version = s.version := rfl
@[simp] theorem State.emit_powerCap (s : State) (o : Out) : (s.emit o).powerCap = s.powerCap := rfl
@[simp] theorem State.emit_pausedDies (s : State) (o : Out) : (s.emit o).pausedDies = s.pausedDies := rfl
@[simp] theorem State.emit_deadLinks (s : State) (o : Out) : (s.emit o).deadLinks = s.deadLinks := rfl
@[simp] theorem State.emit_sliceCorrected (s : State) (o : Out) : (s.emit o).sliceCorrected = s.sliceCorrected := rfl
@[simp] theorem State.emit_stackCorrected (s : State) (o : Out) : (s.emit o).stackCorrected = s.stackCorrected := rfl
@[simp] theorem State.emit_linkFec (s : State) (o : Out) : (s.emit o).linkFec = s.linkFec := rfl
@[simp] theorem State.emit_linkRetrains (s : State) (o : Out) : (s.emit o).linkRetrains = s.linkRetrains := rfl
@[simp] theorem State.emit_linkLost (s : State) (o : Out) : (s.emit o).linkLost = s.linkLost := rfl
@[simp] theorem State.emit_cxl (s : State) (o : Out) : (s.emit o).cxl = s.cxl := rfl
@[simp] theorem State.emit_refTick (s : State) (o : Out) : (s.emit o).refTick = s.refTick := rfl
@[simp] theorem State.emit_tickDue (s : State) (o : Out) : (s.emit o).tickDue = s.tickDue := rfl
@[simp] theorem State.emit_hold (s : State) (o : Out) : (s.emit o).hold = s.hold := rfl
@[simp] theorem State.emit_holdIgnored (s : State) (o : Out) : (s.emit o).holdIgnored = s.holdIgnored := rfl
@[simp] theorem State.emit_settled (s : State) (o : Out) : (s.emit o).settled = s.settled := rfl
@[simp] theorem State.emit_settleDue (s : State) (o : Out) : (s.emit o).settleDue = s.settleDue := rfl
@[simp] theorem State.emit_era (s : State) (o : Out) : (s.emit o).era = s.era := rfl
@[simp] theorem State.emit_slices (s : State) (o : Out) : (s.emit o).slices = s.slices := rfl
@[simp] theorem State.emit_l2 (s : State) (o : Out) : (s.emit o).l2 = s.l2 := rfl
@[simp] theorem State.emit_mem (s : State) (o : Out) : (s.emit o).mem = s.mem := rfl
@[simp] theorem State.emit_poison (s : State) (o : Out) : (s.emit o).poison = s.poison := rfl
@[simp] theorem State.emit_lineMeta (s : State) (o : Out) : (s.emit o).lineMeta = s.lineMeta := rfl
@[simp] theorem State.emit_migrations (s : State) (o : Out) : (s.emit o).migrations = s.migrations := rfl
@[simp] theorem State.emit_completions (s : State) (o : Out) : (s.emit o).completions = s.completions := rfl
@[simp] theorem State.emit_reqs (s : State) (o : Out) : (s.emit o).reqs = s.reqs := rfl
@[simp] theorem State.emit_walks (s : State) (o : Out) : (s.emit o).walks = s.walks := rfl
@[simp] theorem State.emit_invals (s : State) (o : Out) : (s.emit o).invals = s.invals := rfl
@[simp] theorem State.emit_queues (s : State) (o : Out) : (s.emit o).queues = s.queues := rfl
@[simp] theorem State.emit_clusterTlb (s : State) (o : Out) : (s.emit o).clusterTlb = s.clusterTlb := rfl
@[simp] theorem State.emit_cores (s : State) (o : Out) : (s.emit o).cores = s.cores := rfl
@[simp] theorem State.emit_bundles (s : State) (o : Out) : (s.emit o).bundles = s.bundles := rfl
@[simp] theorem State.emit_portFree (s : State) (o : Out) : (s.emit o).portFree = s.portFree := rfl
@[simp] theorem State.emit_longs (s : State) (o : Out) : (s.emit o).longs = s.longs := rfl
@[simp] theorem State.emit_shfls (s : State) (o : Out) : (s.emit o).shfls = s.shfls := rfl
@[simp] theorem State.emit_warps (s : State) (o : Out) : (s.emit o).warps = s.warps := rfl
@[simp] theorem State.emit_blocks (s : State) (o : Out) : (s.emit o).blocks = s.blocks := rfl
@[simp] theorem State.emit_groups (s : State) (o : Out) : (s.emit o).groups = s.groups := rfl
@[simp] theorem State.emit_launches (s : State) (o : Out) : (s.emit o).launches = s.launches := rfl
@[simp] theorem State.emit_parts (s : State) (o : Out) : (s.emit o).parts = s.parts := rfl
@[simp] theorem State.emit_sends (s : State) (o : Out) : (s.emit o).sends = s.sends := rfl
@[simp] theorem State.emit_retries (s : State) (o : Out) : (s.emit o).retries = s.retries := rfl
@[simp] theorem State.emit_ckpts (s : State) (o : Out) : (s.emit o).ckpts = s.ckpts := rfl
@[simp] theorem State.emit_ctls (s : State) (o : Out) : (s.emit o).ctls = s.ctls := rfl
@[simp] theorem State.emit_images (s : State) (o : Out) : (s.emit o).images = s.images := rfl
@[simp] theorem State.emit_redVals (s : State) (o : Out) : (s.emit o).redVals = s.redVals := rfl
@[simp] theorem State.emit_redWindows (s : State) (o : Out) : (s.emit o).redWindows = s.redWindows := rfl
@[simp] theorem State.emit_redFaults (s : State) (o : Out) : (s.emit o).redFaults = s.redFaults := rfl
@[simp] theorem State.emit_switchAt (s : State) (o : Out) : (s.emit o).switchAt = s.switchAt := rfl

/-! ### The field that each update changes -/

@[simp] theorem State.at__cycle (s : State) (c : Nat) : (s.at_ c).cycle = max s.cycle c := rfl
@[simp] theorem State.modCore_cores (s : State) (k : Nat) (f : Core → Core) : (s.modCore k f).cores = Tab.put s.cores k (f (s.core k)) := rfl
@[simp] theorem State.modWarp_warps (s : State) (k : Nat) (f : Warp → Warp) : (s.modWarp k f).warps = Tab.upd s.warps k f := rfl
@[simp] theorem State.modBlock_blocks (s : State) (k : Nat) (f : Block → Block) : (s.modBlock k f).blocks = Tab.upd s.blocks k f := rfl
@[simp] theorem State.modGroup_groups (s : State) (k : Nat) (f : Group → Group) : (s.modGroup k f).groups = Tab.upd s.groups k f := rfl
@[simp] theorem State.modLaunch_launches (s : State) (k : Nat) (f : Launch → Launch) :
    (s.modLaunch k f).launches = Tab.upd s.launches k f := rfl
@[simp] theorem State.modBundle_bundles (s : State) (k : Nat) (f : Bundle → Bundle) :
    (s.modBundle k f).bundles = Tab.upd s.bundles k f := rfl
@[simp] theorem State.modPart_parts (s : State) (k : Nat) (f : Partition → Partition) :
    (s.modPart k f).parts = Tab.put s.parts k (f (s.part k)) := rfl
@[simp] theorem State.emit_out (s : State) (o : Out) : (s.emit o).out = s.out ++ [o] := rfl

end Sys2Proof.Machine
end

