-- ==== Sys2Proof/Laws/Table.lean ====
section
/-! SUPPORT. Tables keyed by numbers: what a look-up finds after a put, a change, or a removal. -/

namespace Sys2Proof.Machine

/-- A put entry is found under its key. -/
@[simp] theorem Tab.find_put_same (l : Tab α) (k : Nat) (v : α) : Tab.find (Tab.put l k v) k = some v := by
  induction l with
  | nil => simp [Tab.put, Tab.find]
  | cons e rest ih =>
    obtain ⟨j, x⟩ := e
    by_cases h1 : j = k
    · subst h1; simp [Tab.put, Tab.find]
    · by_cases h2 : k < j
      · simp [Tab.put, Tab.find, h1, h2]
      · simp [Tab.put, Tab.find, h1, h2, ih]

/-- The keys of a table rise strictly. -/
def Tab.rising (l : Tab α) : Prop := l.Pairwise (fun a b => a.1 < b.1)

/-- In a table with rising keys a key below the first is absent. -/
theorem Tab.find_below (l : Tab α) (k : Nat) (h : ∀ e ∈ l, k < e.1) : Tab.find l k = none := by
  cases l with
  | nil => rfl
  | cons e rest =>
    have hk := h e (by simp)
    obtain ⟨j, x⟩ := e
    have h1 : ¬ j = k := by simp at hk; omega
    simp [Tab.find, h1, show k < j from hk]

/-- A put leaves the entries of other keys. -/
theorem Tab.find_put_ne (l : Tab α) (k j : Nat) (v : α) (hl : Tab.rising l) (h : j ≠ k) :
    Tab.find (Tab.put l k v) j = Tab.find l j := by
  induction l with
  | nil => by_cases h2 : j < k <;> simp [Tab.put, Tab.find, Ne.symm h]
  | cons e rest ih =>
    obtain ⟨i, x⟩ := e
    simp only [Tab.rising, List.pairwise_cons] at hl
    by_cases h1 : i = k
    · subst h1; simp [Tab.put, Tab.find, Ne.symm h]
    · by_cases h2 : k < i
      · simp only [Tab.put, h1, h2, if_true, if_false]
        by_cases h3 : j < k
        · have : j < i := by omega
          simp [Tab.find, Ne.symm h, h3, show ¬ i = j by omega, this]
        · simp [Tab.find, Ne.symm h, h3]
      · simp only [Tab.put, h1, h2, if_false, Tab.find]
        rw [ih hl.2]

/-- A change under a key is found there. -/
@[simp] theorem Tab.find_upd_same (l : Tab α) (k : Nat) (f : α → α) : Tab.find (Tab.upd l k f) k = (Tab.find l k).map f := by
  induction l with
  | nil => rfl
  | cons e rest ih =>
    obtain ⟨j, x⟩ := e
    unfold Tab.upd at ih ⊢
    by_cases h1 : j = k
    · subst h1; simp [Tab.find]
    · by_cases h2 : k < j
      · simp [Tab.find, h1, h2]
      · simp [Tab.find, h1, h2, ih]

/-- A change under a key leaves the entries of other keys. -/
theorem Tab.find_upd_ne (l : Tab α) (k j : Nat) (f : α → α) (h : j ≠ k) : Tab.find (Tab.upd l k f) j = Tab.find l j := by
  induction l with
  | nil => rfl
  | cons e rest ih =>
    obtain ⟨i, x⟩ := e
    unfold Tab.upd at ih ⊢
    by_cases h1 : i = k
    · subst h1; simp [Tab.find, Ne.symm h, ih]
    · simp [Tab.find, h1, ih]

/-- What a look-up finds after a change. -/
theorem Tab.find_upd (l : Tab α) (k j : Nat) (f : α → α) :
    Tab.find (Tab.upd l k f) j = if j = k then (Tab.find l j).map f else Tab.find l j := by
  by_cases h : j = k
  · subst h; simp
  · simp [h, Tab.find_upd_ne l k j f h]

/-- A removed key is absent. -/
theorem Tab.find_drop_same (l : Tab α) (k : Nat) (hl : Tab.rising l) : Tab.find (Tab.drop l k) k = none := by
  induction l with
  | nil => rfl
  | cons e rest ih =>
    obtain ⟨i, x⟩ := e
    simp only [Tab.rising, List.pairwise_cons] at hl
    have := ih hl.2
    unfold Tab.drop at this ⊢
    by_cases h1 : i = k
    · subst h1; simpa using this
    · simp [h1, Tab.find, this]

/-- Removing a key leaves the entries of other keys. -/
theorem Tab.find_drop_ne (l : Tab α) (k j : Nat) (hl : Tab.rising l) (h : j ≠ k) : Tab.find (Tab.drop l k) j = Tab.find l j := by
  induction l with
  | nil => rfl
  | cons e rest ih =>
    obtain ⟨i, x⟩ := e
    simp only [Tab.rising, List.pairwise_cons] at hl
    have ih := ih hl.2
    unfold Tab.drop at ih ⊢
    by_cases h1 : i = k
    · subst h1
      simp only [List.filter_cons, bne_self_eq_false, Bool.false_eq_true, if_false, Tab.find, Ne.symm h]
      by_cases h2 : j < i
      · simp only [h2, if_true, ih]
        exact Tab.find_below rest j (fun e he => Nat.lt_trans h2 (hl.1 e he))
      · simp [h2, ih]
    · simp [h1, Tab.find, ih]

/-- A put keeps the keys rising. -/
theorem Tab.rising_put (l : Tab α) (k : Nat) (v : α) (hl : Tab.rising l) : Tab.rising (Tab.put l k v) := by
  induction l with
  | nil => simp [Tab.put, Tab.rising]
  | cons e rest ih =>
    obtain ⟨i, x⟩ := e
    simp only [Tab.rising, List.pairwise_cons] at hl ih ⊢
    by_cases h1 : i = k
    · subst h1; simpa [Tab.put] using hl
    · by_cases h2 : k < i
      · simp only [Tab.put, h1, h2, if_true, if_false, List.pairwise_cons]
        refine ⟨?_, hl⟩
        intro e he
        rcases List.mem_cons.1 he with rfl | he
        · exact h2
        · exact Nat.lt_trans h2 (hl.1 e he)
      · simp only [Tab.put, h1, h2, if_false, List.pairwise_cons]
        refine ⟨?_, ih hl.2⟩
        have key : ∀ (l : Tab α), ∀ e ∈ Tab.put l k v, e.1 = k ∨ e ∈ l := by
          intro l
          induction l with
          | nil => intro e he; simp [Tab.put] at he; left; simp [he]
          | cons d r ihr =>
            obtain ⟨q, y⟩ := d
            intro e he
            simp only [Tab.put] at he
            split at he
            · rcases List.mem_cons.1 he with rfl | he
              · exact .inl rfl
              · exact .inr (by simp [he])
            · split at he
              · rcases List.mem_cons.1 he with rfl | he
                · exact .inl rfl
                · exact .inr he
              · rcases List.mem_cons.1 he with rfl | he
                · exact .inr (by simp)
                · rcases ihr e he with h | h
                  · exact .inl h
                  · exact .inr (by simp [h])
        intro e he
        rcases key rest e he with h | h
        · show i < e.1; omega
        · exact hl.1 e h

end Sys2Proof.Machine
end

