-- ==== Sys2Proof/Laws/Threads.lean ====
section
/-! SUPPORT. Threads under changes of one thread and of many: what a change reaches, and what it leaves. -/

namespace Sys2Proof.Machine

/-- A fold whose every turn leaves a value leaves it. -/
theorem foldl_leaves {α β γ : Type} (F : β → γ) (f : β → α → β) (h : ∀ b a, F (f b a) = F b) (l : List α) (b : β) :
    F (l.foldl f b) = F b := by
  induction l generalizing b with
  | nil => rfl
  | cons a rest ih => rw [List.foldl_cons, ih, h]

/-- A fold whose every turn keeps a property keeps it. -/
theorem foldl_keeps {α β : Type} (P : β → Prop) (f : β → α → β) (l : List α) (b : β) (hb : P b)
    (h : ∀ b, ∀ a ∈ l, P b → P (f b a)) : P (l.foldl f b) := by
  induction l generalizing b with
  | nil => exact hb
  | cons a rest ih =>
    exact ih (f b a) (h b a (by simp) hb) (fun b x hx => h b x (by simp [hx]))

/-- What a change of one thread does to every thread. -/
theorem State.thread_modThread (s : State) (k j : TKey) (f : Thread → Thread) :
    (s.modThread k f).thread j = if j = k then (s.thread j).map f else s.thread j := by
  simp only [State.thread, State.modThread, State.modWarp_warps, Tab.find_upd]
  by_cases h : j.warp = k.warp
  · simp only [h, if_true]
    cases hw : Tab.find s.warps k.warp with
    | none => simp
    | some w =>
      simp only [Option.map_some, Option.bind_some, Warp.modThread, List.getElem?_modify]
      by_cases h2 : j.slot = k.slot
      · have : j = k := by cases j; cases k; simp_all
        simp [this]
      · have : j ≠ k := fun e => h2 (by rw [e])
        simp [this, Ne.symm h2]
  · have : j ≠ k := fun e => h (by rw [e])
    simp [h, this]

@[simp] theorem State.thread_modThread_same (s : State) (k : TKey) (f : Thread → Thread) :
    (s.modThread k f).thread k = (s.thread k).map f := by simp [State.thread_modThread]

theorem State.thread_modThread_ne (s : State) (k j : TKey) (f : Thread → Thread) (h : j ≠ k) :
    (s.modThread k f).thread j = s.thread j := by simp [State.thread_modThread, h]

/-- A change that leaves some value of a thread leaves it in every thread. -/
theorem State.thread_map_modThread {β : Type} (F : Thread → β) (s : State) (k j : TKey) (f : Thread → Thread)
    (h : ∀ t, F (f t) = F t) : ((s.modThread k f).thread j).map F = (s.thread j).map F := by
  rw [State.thread_modThread]
  split
  · cases s.thread j <;> simp [h]
  · rfl

/-- A change of one thread leaves the rest of every warp. -/
theorem State.shell_modThread (s : State) (k : TKey) (w : Nat) (f : Thread → Thread) :
    (Tab.find (s.modThread k f).warps w).map Warp.shell = (Tab.find s.warps w).map Warp.shell := by
  simp only [State.modThread, State.modWarp_warps, Tab.find_upd]
  split
  · cases Tab.find s.warps w <;> simp [Warp.shell, Warp.modThread]
  · rfl

@[simp] theorem State.outside_modThread (s : State) (k : TKey) (f : Thread → Thread) : (s.modThread k f).outside = s.outside := rfl

@[simp] theorem State.outside_modWarp (s : State) (w : Nat) (f : Warp → Warp) : (s.modWarp w f).outside = s.outside := rfl

@[simp] theorem State.outside_modBundle (s : State) (p : Nat) (f : Bundle → Bundle) : (s.modBundle p f).outside = s.outside := rfl

@[simp] theorem State.thread_modBundle (s : State) (p : Nat) (f : Bundle → Bundle) (k : TKey) :
    (s.modBundle p f).thread k = s.thread k := rfl

/-- A change of a warp that leaves its threads leaves every thread. -/
theorem State.thread_modWarp (s : State) (w : Nat) (f : Warp → Warp) (k : TKey) (h : ∀ x, (f x).threads = x.threads) :
    (s.modWarp w f).thread k = s.thread k := by
  simp only [State.thread, State.modWarp_warps, Tab.find_upd]
  split
  · cases Tab.find s.warps k.warp <;> simp [h]
  · rfl

/-- A thread that no key of a list of changes names keeps every value. -/
theorem State.thread_foldl_off {α : Type} (key : α → TKey) (g : State → α → Thread → Thread) (l : List α) (s : State) (k : TKey)
    (h : ∀ a ∈ l, key a ≠ k) : (l.foldl (fun s a => s.modThread (key a) (g s a)) s).thread k = s.thread k := by
  induction l generalizing s with
  | nil => rfl
  | cons a rest ih =>
    rw [List.foldl_cons, ih _ (fun x hx => h x (by simp [hx])), State.thread_modThread_ne _ _ _ _ (Ne.symm (h a (by simp)))]

/-- A list of changes with distinct keys makes each of them once. -/
theorem State.thread_foldl_on {α : Type} (key : α → TKey) (g : α → Thread → Thread) (l : List α) (s : State) (a : α)
    (ha : a ∈ l) (h : (l.map key).Nodup) :
    (l.foldl (fun s a => s.modThread (key a) (g a)) s).thread (key a) = (s.thread (key a)).map (g a) := by
  induction l generalizing s with
  | nil => simp at ha
  | cons b rest ih =>
    simp only [List.map_cons, List.nodup_cons, List.mem_map, not_exists, not_and] at h
    rw [List.foldl_cons]
    rcases List.mem_cons.1 ha with rfl | ha
    · rw [State.thread_foldl_off key (fun _ a => g a) rest _ (key a) (fun x hx => h.1 x hx)]
      simp
    · rw [ih _ ha h.2, State.thread_modThread_ne]
      exact h.1 a ha

end Sys2Proof.Machine
end

