-- ==== Sys2Proof/Laws/Pass.lean ====
section
/-! SUPPORT. The end of a pass and the pass of a word: what a thread holds after it, and what it leaves. -/

namespace Sys2Proof.Machine

/-- A thread without the fields that leaving a bundle changes. -/
def Thread.steady (t : Thread) : Thread := { t with st := .ready, ready := 0, candAt := 0, since := 0 }

@[simp] theorem Thread.timeless_steady (t : Thread) : t.steady.timeless = t.timeless := rfl
@[simp] theorem Thread.issued_steady (t : Thread) : t.steady.issued = t.issued := rfl
@[simp] theorem Thread.pos_steady (t : Thread) : t.steady.pos = t.pos := rfl
@[simp] theorem Thread.toff_steady (t : Thread) : t.steady.toff = t.toff := rfl

/-- What the end of a pass does to a thread never shows in its timeless values. -/
@[simp] theorem Thread.timeless_passed (t : Thread) (slot step : Nat) (after : Pos) (late : Bool) :
    (t.passed slot step after late).timeless = t.timeless := by
  simp [Thread.passed, Thread.timeless]

@[simp] theorem Thread.issued_passed (t : Thread) (slot step : Nat) (after : Pos) (late : Bool) :
    (t.passed slot step after late).issued = t.issued + 1 := rfl

theorem Thread.pos_passed (t : Thread) (slot step : Nat) (after : Pos) (late : Bool) :
    (t.passed slot step after late).pos = if t.st = .issuing then after else t.pos := rfl

theorem Thread.toff_passed (t : Thread) (slot step : Nat) (after : Pos) (late : Bool) :
    (t.passed slot step after late).toff = if t.st = .issuing then 0 else t.toff := rfl

/-- A fold of changes whose function looks at the state makes each of them once, as some state has it. -/
theorem State.thread_foldl_at {α : Type} (key : α → TKey) (g : State → α → Thread → Thread) (l : List α) (s : State) (a : α)
    (ha : a ∈ l) (h : (l.map key).Nodup) :
    ∃ u : State, (l.foldl (fun s a => s.modThread (key a) (g s a)) s).thread (key a) = (s.thread (key a)).map (g u a) := by
  induction l generalizing s with
  | nil => simp at ha
  | cons b rest ih =>
    simp only [List.map_cons, List.nodup_cons, List.mem_map, not_exists, not_and] at h
    rw [List.foldl_cons]
    rcases List.mem_cons.1 ha with rfl | ha
    · refine ⟨s, ?_⟩
      rw [State.thread_foldl_off key g rest _ (key a) (fun x hx => h.1 x hx)]
      simp
    · obtain ⟨u, hu⟩ := ih (s.modThread (key b) (g s b)) ha h.2
      refine ⟨u, ?_⟩
      rw [hu, State.thread_modThread_ne]
      exact h.1 a ha

/-! ### Leaving a bundle -/

theorem State.outside_leaveGroup (s : State) (keys : List TKey) (stop : Nat) : (s.leaveGroup keys stop).outside = s.outside := by
  simp only [State.leaveGroup]
  exact foldl_leaves State.outside _ (fun _ _ => State.outside_modThread _ _ _) _ _

theorem State.shell_leaveGroup (s : State) (keys : List TKey) (stop w : Nat) :
    (Tab.find (s.leaveGroup keys stop).warps w).map Warp.shell = (Tab.find s.warps w).map Warp.shell := by
  simp only [State.leaveGroup]
  exact foldl_leaves (fun s : State => (Tab.find s.warps w).map Warp.shell) _ (fun _ _ => State.shell_modThread _ _ _ _) _ _

theorem State.steady_leaveGroup (s : State) (keys : List TKey) (stop : Nat) (k : TKey) :
    ((s.leaveGroup keys stop).thread k).map Thread.steady = (s.thread k).map Thread.steady := by
  simp only [State.leaveGroup]
  refine foldl_leaves (fun s : State => (s.thread k).map Thread.steady) _ (fun _ _ => ?_) _ _
  exact State.thread_map_modThread Thread.steady _ _ _ _ (fun _ => rfl)

theorem State.thread_leaveGroup_off (s : State) (keys : List TKey) (stop : Nat) (k : TKey) (h : k ∉ keys) :
    (s.leaveGroup keys stop).thread k = s.thread k := by
  simp only [State.leaveGroup]
  exact State.thread_foldl_off (fun k => k) _ keys s k (fun a ha e => h (e ▸ ha))

theorem State.outside_endBundle (s : State) (port : Nat) : (s.endBundle port).outside = s.outside := by
  unfold State.endBundle
  split
  · rfl
  · exact foldl_leaves State.outside _ (fun _ _ => State.outside_leaveGroup _ _ _) _ _

theorem State.shell_endBundle (s : State) (port w : Nat) :
    (Tab.find (s.endBundle port).warps w).map Warp.shell = (Tab.find s.warps w).map Warp.shell := by
  unfold State.endBundle
  split
  · rfl
  · exact foldl_leaves (fun s : State => (Tab.find s.warps w).map Warp.shell) _ (fun _ _ => State.shell_leaveGroup _ _ _ _) _ _

theorem State.steady_endBundle (s : State) (port : Nat) (k : TKey) :
    ((s.endBundle port).thread k).map Thread.steady = (s.thread k).map Thread.steady := by
  unfold State.endBundle
  split
  · rfl
  · exact foldl_leaves (fun s : State => (s.thread k).map Thread.steady) _ (fun _ _ => State.steady_leaveGroup _ _ _ _) _ _

theorem State.thread_endBundle_off (s : State) (port : Nat) (k : TKey)
    (h : ∀ b, Tab.find s.bundles port = some b → k ∉ b.threads) : (s.endBundle port).thread k = s.thread k := by
  unfold State.endBundle
  split
  · rfl
  · next b hb =>
    have hk := h b hb
    refine foldl_keeps (fun u : State => u.thread k = s.thread k) _ _ _ rfl ?_
    intro u g hg hu
    rw [State.thread_leaveGroup_off, hu]
    intro hkg
    simp only [groupsOf, List.mem_map] at hg
    obtain ⟨q, _, rfl⟩ := hg
    exact hk (List.mem_filter.1 (List.mem_filter.1 hkg).1).1

/-! ### The end of a pass without faults -/

@[simp] theorem Pass.goesTo_nil (p : Pass) (k : TKey) : p.goesTo [] k = p.after := rfl

theorem State.outside_passOn (s : State) (p : Pass) (targets : List (TKey × Dword)) : (s.passOn p targets).outside = s.outside := by
  simp only [State.passOn, State.outside_modBundle]
  rw [foldl_leaves State.outside _ (fun _ _ => State.outside_modThread _ _ _)]
  rfl

theorem State.shell_passOn (s : State) (p : Pass) (targets : List (TKey × Dword)) (w : Nat) :
    (Tab.find (s.passOn p targets).warps w).map Warp.shell = (Tab.find s.warps w).map Warp.shell := by
  simp only [State.passOn, State.modBundle_warps]
  rw [foldl_leaves (fun s : State => (Tab.find s.warps w).map Warp.shell) _ (fun _ _ => State.shell_modThread _ _ _ _)]

theorem State.bundles_passOn (s : State) (p : Pass) (targets : List (TKey × Dword)) :
    (s.passOn p targets).bundles = Tab.upd s.bundles p.port (fun b =>
      { b with pos := p.pos + 1, next := p.stop + p.stepAfter, walked := [], acted := [], acts := 0, failed := [] }) := by
  simp only [State.passOn, State.modBundle_bundles]
  rw [foldl_leaves State.bundles _ (fun _ _ => State.modThread_bundles _ _ _)]

/-- Where a thread of a pass stands when its times and counts are done. -/
theorem State.thread_passOn (s : State) (p : Pass) (targets : List (TKey × Dword)) (k : TKey) (t : Thread)
    (hk : k ∈ p.keys) (hn : p.keys.Nodup) (ht : s.thread k = some t) :
    ∃ u, (s.passOn p targets).thread k = some u ∧ WentOn (p.goesTo targets k) t u := by
  obtain ⟨j, hj⟩ : ∃ j, (k, j) ∈ p.keys.zipIdx := by
    obtain ⟨j, hj, rfl⟩ := List.mem_iff_getElem.1 hk
    exact ⟨j, by simp [List.mem_zipIdx_iff_getElem?, hj]⟩
  obtain ⟨v, hv⟩ := State.thread_foldl_at (fun e : TKey × Nat => e.1)
    (fun s e t => t.passed (p.start + e.2 * p.dur) p.stepAfter (p.goesTo targets e.1) (s.haltedBy e.1.warp p.start))
    p.keys.zipIdx { s with cur := none, fresh := max s.fresh p.fresh + 1024 } (k, j) hj (by simpa using hn)
  have hs : ({ s with cur := none, fresh := max s.fresh p.fresh + 1024 } : State).thread k = some t := ht
  simp only [hs, Option.map_some] at hv
  exact ⟨_, hv, by simp, by simp, by simp [Thread.pos_passed], by simp [Thread.toff_passed]⟩

theorem State.thread_passOn_off (s : State) (p : Pass) (targets : List (TKey × Dword)) (k : TKey) (hk : k ∉ p.keys) :
    (s.passOn p targets).thread k = s.thread k := by
  simp only [State.passOn, State.thread_modBundle]
  rw [State.thread_foldl_off (fun e : TKey × Nat => e.1)]
  · rfl
  · intro e he h
    exact hk (h ▸ List.fst_mem_of_mem_zipIdx he)

theorem State.outside_keepIn (s : State) (port : Nat) (keep : TKey → Bool) : (s.keepIn port keep).outside = s.outside := rfl

@[simp] theorem State.warps_keepIn (s : State) (port : Nat) (keep : TKey → Bool) : (s.keepIn port keep).warps = s.warps := rfl

@[simp] theorem State.thread_keepIn (s : State) (port : Nat) (keep : TKey → Bool) (k : TKey) : (s.keepIn port keep).thread k = s.thread k := rfl

/-- The threads of a bundle after some have left it are among those before. -/
theorem State.mem_keepIn (s : State) (port : Nat) (keep : TKey → Bool) (b : Bundle) (k : TKey)
    (hb : Tab.find (s.keepIn port keep).bundles port = some b) (hk : k ∈ b.threads) :
    ∃ b0, Tab.find s.bundles port = some b0 ∧ k ∈ b0.threads := by
  simp only [State.keepIn, State.modBundle_bundles, Tab.find_upd_same, Option.map_eq_some_iff] at hb
  obtain ⟨b0, hb0, rfl⟩ := hb
  exact ⟨b0, hb0, (List.mem_filter.1 hk).1⟩

theorem State.outside_thinBundle (s : State) (p : Pass) : (s.thinBundle p).outside = s.outside := by
  simp only [State.thinBundle]
  split
  · rw [State.outside_endBundle, State.outside_keepIn]
  · exact State.outside_keepIn _ _ _

theorem State.shell_thinBundle (s : State) (p : Pass) (w : Nat) :
    (Tab.find (s.thinBundle p).warps w).map Warp.shell = (Tab.find s.warps w).map Warp.shell := by
  simp only [State.thinBundle]
  split
  · rw [State.shell_endBundle]; rfl
  · rfl

theorem State.steady_thinBundle (s : State) (p : Pass) (k : TKey) :
    ((s.thinBundle p).thread k).map Thread.steady = (s.thread k).map Thread.steady := by
  simp only [State.thinBundle]
  split
  · rw [State.steady_endBundle]; rfl
  · rfl

theorem State.thread_thinBundle_off (s : State) (p : Pass) (k : TKey)
    (hb : ∀ b, Tab.find s.bundles p.port = some b → k ∉ b.threads) : (s.thinBundle p).thread k = s.thread k := by
  simp only [State.thinBundle]
  split
  · rw [State.thread_endBundle_off]
    · rfl
    · intro b hb' h
      obtain ⟨b0, hb0, h0⟩ := State.mem_keepIn s p.port _ b k hb' h
      exact hb b0 hb0 h0
  · rfl

theorem State.endPass_nil (s : State) (p : Pass) (targets : List (TKey × Dword)) :
    s.endPass p targets [] = (s.passOn p targets).thinBundle p := by simp [State.endPass]

theorem State.outside_endPass (s : State) (p : Pass) (targets : List (TKey × Dword)) :
    (s.endPass p targets []).outside = s.outside := by
  rw [State.endPass_nil, State.outside_thinBundle, State.outside_passOn]

theorem State.shell_endPass (s : State) (p : Pass) (targets : List (TKey × Dword)) (w : Nat) :
    (Tab.find (s.endPass p targets []).warps w).map Warp.shell = (Tab.find s.warps w).map Warp.shell := by
  rw [State.endPass_nil, State.shell_thinBundle, State.shell_passOn]

/-- Where a thread of a pass stands after it. -/
theorem State.thread_endPass (s : State) (p : Pass) (targets : List (TKey × Dword)) (k : TKey) (t : Thread)
    (hk : k ∈ p.keys) (hn : p.keys.Nodup) (ht : s.thread k = some t) :
    ∃ u, (s.endPass p targets []).thread k = some u ∧ WentOn (p.goesTo targets k) t u := by
  obtain ⟨w, hw, h1, h2, h3, h4⟩ := State.thread_passOn s p targets k t hk hn ht
  rw [State.endPass_nil]
  have h := State.steady_thinBundle (s.passOn p targets) p k
  rw [hw] at h
  cases hu : ((s.passOn p targets).thinBundle p).thread k with
  | none => simp [hu] at h
  | some u =>
    simp only [hu, Option.map_some, Option.some.injEq] at h
    refine ⟨u, rfl, ?_, ?_, ?_, ?_⟩
    · rw [← Thread.timeless_steady, h, Thread.timeless_steady, h1]
    · rw [← Thread.issued_steady, h, Thread.issued_steady, h2]
    · rw [← Thread.pos_steady, h, Thread.pos_steady, h3]
    · rw [← Thread.toff_steady, h, Thread.toff_steady, h4]

/-- A thread outside a pass and its bundle is as it was. -/
theorem State.thread_endPass_off (s : State) (p : Pass) (targets : List (TKey × Dword)) (k : TKey) (hk : k ∉ p.keys)
    (hb : ∀ b, Tab.find s.bundles p.port = some b → k ∉ b.threads) : (s.endPass p targets []).thread k = s.thread k := by
  rw [State.endPass_nil, State.thread_thinBundle_off, State.thread_passOn_off _ _ _ _ hk]
  intro b hb'
  rw [State.bundles_passOn, Tab.find_upd_same, Option.map_eq_some_iff] at hb'
  obtain ⟨b0, hb0, rfl⟩ := hb'
  exact hb b0 hb0

/-! ### The pass of a word -/

/-- The bundle of a pass holds the pass's threads. -/
theorem State.pass_bundle {s : State} {p : Pass} (h : s.pass = some p) : ∃ b, Tab.find s.bundles p.port = some b ∧ b.threads = p.keys := by
  unfold State.pass at h
  split at h
  · cases h
  · split at h
    · cases h
    · next b hb =>
      split at h
      · cases h
      · split at h
        · cases h
        · cases h
          exact ⟨b, hb, rfl⟩

/-- What a context of a pass is: a thread of the pass, landed at its slot. -/
theorem Pass.mem_ctxs {p : Pass} {s : State} {c : TCtx} (h : c ∈ p.ctxs s) :
    c.key ∈ p.keys ∧ c.p = p ∧ c.slot = p.start + c.j * p.dur ∧ (∃ t, s.thread c.key = some t ∧ c.th = t.land c.slot)
      ∧ Tab.find s.warps c.key.warp = some c.w := by
  simp only [Pass.ctxs, List.mem_filterMap] at h
  obtain ⟨⟨k, j⟩, hkj, h⟩ := h
  simp only at h
  split at h
  · cases h
  · next w hw =>
    simp only [Option.map_eq_some_iff] at h
    obtain ⟨t, ht, rfl⟩ := h
    exact ⟨List.fst_mem_of_mem_zipIdx hkj, rfl, rfl, ⟨t, by simp [State.thread, hw, ht], rfl⟩, hw⟩

/-- The contexts of a pass with distinct threads have distinct keys. -/
theorem Pass.nodup_ctxs {p : Pass} (s : State) (h : p.keys.Nodup) : ((p.ctxs s).map TCtx.key).Nodup := by
  have key : (p.ctxs s).map TCtx.key = (p.keys.zipIdx.filterMap (fun e =>
      if ((Tab.find s.warps e.1.warp).bind (fun w => w.threads[e.1.slot]?)).isSome then some e.1 else none)) := by
    simp only [Pass.ctxs, List.map_filterMap]
    congr 1
    funext e
    cases hw : Tab.find s.warps e.1.warp with
    | none => simp
    | some w => cases ht : w.threads[e.1.slot]? <;> simp [ht]
  have : ∀ (l : List TKey) (n : Nat) (f : TKey → Bool), l.Nodup →
      ((l.zipIdx n).filterMap (fun e => if f e.1 then some e.1 else none)).Nodup ∧
      (∀ k ∈ (l.zipIdx n).filterMap (fun e => if f e.1 then some e.1 else none), k ∈ l) := by
    intro l
    induction l with
    | nil => intro n f _; simp
    | cons k rest ih =>
      intro n f hl
      obtain ⟨h1, h2⟩ := ih (n + 1) f (List.nodup_cons.1 hl).2
      simp only [List.zipIdx_cons, List.filterMap_cons]
      split
      · exact ⟨h1, fun x hx => List.mem_cons_of_mem _ (h2 x hx)⟩
      · next b hb =>
        split at hb
        · cases hb
          exact ⟨List.nodup_cons.2 ⟨fun hx => (List.nodup_cons.1 hl).1 (h2 _ hx), h1⟩,
            fun x hx => by
              rcases List.mem_cons.1 hx with rfl | hx
              · simp
              · exact List.mem_cons_of_mem _ (h2 x hx)⟩
        · cases hb
  rw [key]
  exact (this p.keys 0 (fun k => ((Tab.find s.warps k.warp).bind (fun w => w.threads[k.slot]?)).isSome) h).1

theorem State.outside_putDone (s : State) (rs : List (TCtx × Did)) : (s.putDone rs).outside = s.outside := by
  unfold State.putDone
  refine foldl_leaves State.outside _ (fun s r => ?_) _ _
  cases r.2 <;> rfl

theorem State.bundles_putDone (s : State) (rs : List (TCtx × Did)) : (s.putDone rs).bundles = s.bundles := by
  unfold State.putDone
  refine foldl_leaves State.bundles _ (fun s r => ?_) _ _
  cases r.2 <;> rfl

theorem State.shell_putDone (s : State) (rs : List (TCtx × Did)) (w : Nat) :
    (Tab.find (s.putDone rs).warps w).map Warp.shell = (Tab.find s.warps w).map Warp.shell := by
  unfold State.putDone
  refine foldl_leaves (fun s : State => (Tab.find s.warps w).map Warp.shell) _ (fun s r => ?_) _ _
  cases r.2 <;> simp only [State.shell_modThread]

theorem State.thread_putDone_off (s : State) (rs : List (TCtx × Did)) (k : TKey) (h : ∀ r ∈ rs, r.1.key ≠ k) :
    (s.putDone rs).thread k = s.thread k := by
  unfold State.putDone
  refine foldl_keeps (fun u : State => u.thread k = s.thread k) _ _ _ rfl (fun u r hr hu => ?_)
  have := h r hr
  split
  · rw [State.thread_modThread_ne _ _ _ _ (Ne.symm this), hu]
  · rw [State.thread_modThread_ne _ _ _ _ (Ne.symm this), hu]
  · exact hu

/-- The thread that a word leaves is the one put back. -/
theorem State.thread_putDone (s : State) (rs : List (TCtx × Did)) (c : TCtx) (d : Did) (t u : Thread) (hm : (c, d) ∈ rs)
    (hn : (rs.map (fun r => r.1.key)).Nodup) (hd : d = .skip t ∨ ∃ ws, d = .done t ws) (hu : s.thread c.key = some u) :
    (s.putDone rs).thread c.key = some t := by
  induction rs generalizing s with
  | nil => simp at hm
  | cons r rest ih =>
    simp only [List.map_cons, List.nodup_cons, List.mem_map, not_exists, not_and] at hn
    have hstep : s.putDone (r :: rest) = State.putDone (s.putDone [r]) rest := by simp [State.putDone]
    rw [hstep]
    rcases List.mem_cons.1 hm with rfl | hr
    · rw [State.thread_putDone_off _ _ _ (fun x hx => hn.1 x hx)]
      rcases hd with rfl | ⟨ws, rfl⟩ <;> simp [State.putDone, hu]
    · refine ih _ hr hn.2 ?_
      rw [State.thread_putDone_off, hu]
      intro x hx
      simp only [List.mem_singleton] at hx
      subst hx
      exact fun e => hn.1 (c, d) hr e.symm

theorem State.thread_putPreds (s : State) (p : Pass) (n : Option (Fin 12)) (rs : List (TCtx × List Word)) (k : TKey) :
    (s.putPreds p n rs).thread k = s.thread k := by
  unfold State.putPreds
  split
  · rfl
  · refine foldl_leaves (fun s : State => s.thread k) _ (fun s r => ?_) _ _
    exact State.thread_modWarp _ _ _ _ (fun _ => rfl)

theorem State.outside_putPreds (s : State) (p : Pass) (n : Option (Fin 12)) (rs : List (TCtx × List Word)) :
    (s.putPreds p n rs).outside = s.outside := by
  unfold State.putPreds
  split
  · rfl
  · exact foldl_leaves State.outside _ (fun s r => State.outside_modWarp _ _ _) _ _

theorem State.bundles_putPreds (s : State) (p : Pass) (n : Option (Fin 12)) (rs : List (TCtx × List Word)) :
    (s.putPreds p n rs).bundles = s.bundles := by
  unfold State.putPreds
  split
  · rfl
  · exact foldl_leaves State.bundles _ (fun s r => State.modWarp_bundles _ _ _) _ _

/-- No thread of a pass faults at its word. -/
def noFault (rs : List (TCtx × Did)) : Prop := ∀ r ∈ rs, ∀ i, r.2 ≠ .fault i

theorem faultsOf_noFault {rs : List (TCtx × Did)} (h : noFault rs) : faultsOf rs = [] := by
  unfold faultsOf
  rw [List.filterMap_eq_nil_iff]
  intro r hr
  have := h r hr
  split
  · next i hi => exact absurd hi (this i)
  · rfl

/-- A pass in lock step in which no thread faults: each thread as its word left it and gone on. -/
theorem State.thread_lockstep (s : State) (srcs : List Src) (pred : Option (Fin 12)) (run : List TCtx → List (TCtx × Did))
    (p0 p : Pass) (hp0 : s.pass = some p0) (hp : p = { p0 with dur := p0.slotDur s srcs }) (hn : p.keys.Nodup)
    (hkeys : (run (p.ctxs s)).map Prod.fst = p.ctxs s) (hf : noFault (run (p.ctxs s)))
    (c : TCtx) (d : Did) (t : Thread) (hm : (c, d) ∈ run (p.ctxs s)) (hd : d = .skip t ∨ ∃ ws, d = .done t ws) :
    ∃ u, (s.lockstep srcs pred run).thread c.key = some u ∧ WentOn p.after t u := by
  have hc : c ∈ p.ctxs s := by rw [← hkeys]; exact List.mem_map.2 ⟨_, hm, rfl⟩
  obtain ⟨hck, -, -, ⟨t0, ht0, -⟩, -⟩ := Pass.mem_ctxs hc
  have hnd : ((run (p.ctxs s)).map (fun r => r.1.key)).Nodup := by
    have := Pass.nodup_ctxs s hn
    rw [← hkeys, List.map_map] at this
    exact this
  unfold State.lockstep
  simp only [hp0, ← hp, faultsOf_noFault hf]
  have h1 := State.thread_putDone s _ c d t t0 hm hnd hd ht0
  obtain ⟨u, hu, hw⟩ := State.thread_endPass ((s.putDone (run (p.ctxs s))).putPreds p pred (doneOf (run (p.ctxs s)))) p [] c.key t
    hck hn (by rw [State.thread_putPreds]; exact h1)
  exact ⟨u, hu, by simpa using hw⟩

/-- A pass in lock step leaves everything outside warps, bundles and ports, and every thread outside the pass. -/
theorem State.lockstep_frame (s : State) (srcs : List Src) (pred : Option (Fin 12)) (run : List TCtx → List (TCtx × Did))
    (p0 p : Pass) (hp0 : s.pass = some p0) (hp : p = { p0 with dur := p0.slotDur s srcs })
    (hkeys : (run (p.ctxs s)).map Prod.fst = p.ctxs s) (hf : noFault (run (p.ctxs s))) :
    (s.lockstep srcs pred run).outside = s.outside ∧
    (∀ k, k ∉ p.keys → (s.lockstep srcs pred run).thread k = s.thread k) := by
  obtain ⟨b, hb, hbk⟩ := State.pass_bundle hp0
  have hb' : Tab.find s.bundles p.port = some b := by subst hp; exact hb
  have hbk' : b.threads = p.keys := by subst hp; exact hbk
  unfold State.lockstep
  simp only [hp0, ← hp, faultsOf_noFault hf]
  refine ⟨by rw [State.outside_endPass, State.outside_putPreds, State.outside_putDone], fun k hk => ?_⟩
  rw [State.thread_endPass_off _ _ _ _ hk, State.thread_putPreds, State.thread_putDone_off]
  · intro r hr e
    have : r.1 ∈ p.ctxs s := by rw [← hkeys]; exact List.mem_map.2 ⟨_, hr, rfl⟩
    exact hk (e ▸ (Pass.mem_ctxs this).1)
  · intro b1 h1
    rw [State.bundles_putPreds, State.bundles_putDone, hb'] at h1
    cases h1
    rw [hbk']; exact hk

/-- Apart from its threads a warp keeps everything in a pass that writes no predicate. -/
theorem State.shell_lockstep (s : State) (srcs : List Src) (run : List TCtx → List (TCtx × Did)) (w : Nat)
    (hf : ∀ p0, s.pass = some p0 → noFault (run ({ p0 with dur := p0.slotDur s srcs }.ctxs s))) :
    (Tab.find (s.lockstep srcs none run).warps w).map Warp.shell = (Tab.find s.warps w).map Warp.shell := by
  unfold State.lockstep
  split
  · rfl
  · next p0 hp0 =>
    have := hf p0 hp0
    simp only [faultsOf_noFault this]
    rw [State.shell_endPass]
    exact State.shell_putDone _ _ _

end Sys2Proof.Machine
end

