-- ==== Sys2Proof/Laws/Vector.lean ====
section
/-! SUPPORT. What a vector word does: the one law that every word of the arithmetic kind is an application of. -/

namespace Sys2Proof.Machine

/-! ### What stays apart from a write -/

@[simp] theorem Thread.apart_timeless (t : Thread) : t.timeless.apart = t.apart := rfl

theorem Thread.apart_of_timeless {t u : Thread} (h : u.timeless = t.timeless) : u.apart = t.apart := by
  rw [← Thread.apart_timeless u, h, Thread.apart_timeless]

@[simp] theorem Thread.apart_setVoid (t : Thread) (l : Nat) (b : Bool) : (t.setVoid l b).apart = t.apart := by
  unfold Thread.setVoid; split <;> rfl

@[simp] theorem Thread.apart_store (t : Thread) (l : Nat) (x : Word) : (t.store l x).apart = t.apart := by
  unfold Thread.store
  rw [Thread.apart_setVoid]; split <;> rfl

@[simp] theorem Thread.apart_revive (t : Thread) (l : Nat) : (t.revive l).apart = t.apart := by
  unfold Thread.revive
  split
  · exact Thread.apart_store _ _ _
  · rfl

@[simp] theorem Thread.apart_write (t : Thread) (l : Nat) (x : Word) (n : Nat) : (t.write l x n).apart = t.apart :=
  Thread.apart_revive t l

@[simp] theorem TCtx.apart_issueHalf (c : TCtx) (land : Nat) (t : Thread) (i l : Nat) (x : Word) :
    (c.issueHalf land t i l x).apart = t.apart := by
  unfold TCtx.issueHalf
  split
  · split
    · rw [Thread.apart_write]; rfl
    · simp
  · simp

@[simp] theorem TCtx.apart_issueTo (c : TCtx) (land : Nat) (t : Thread) (locs : List Nat) (ws : List Word) :
    (c.issueTo land t locs ws).apart = t.apart := by
  unfold TCtx.issueTo
  exact foldl_leaves Thread.apart _ (fun t e => TCtx.apart_issueHalf _ _ _ _ _ _) _ _

/-- What a value of a thread is after an issue, when stores leave it. -/
theorem TCtx.issueTo_leaves {β : Type} (F : Thread → β) (hs : ∀ t l x, F (Thread.store t l x) = F t)
    (hp : ∀ (t : Thread) (q : List Pend), F { t with pend := q } = F t)
    (ha : ∀ (t : Thread) (q : List AsyncDst), F { t with async := q } = F t)
    (c : TCtx) (land : Nat) (t : Thread) (locs : List Nat) (ws : List Word) : F (c.issueTo land t locs ws) = F t := by
  unfold TCtx.issueTo
  refine foldl_leaves F _ (fun t e => ?_) _ _
  have hr : ∀ (t : Thread) l, F (Thread.revive t l) = F t := by
    intro t l
    unfold Thread.revive
    split
    · rw [hs]
    · rfl
  have hw : ∀ (t : Thread) l x n, F (Thread.write t l x n) = F t := by
    intro t l x n
    unfold Thread.write
    rw [hp, hr]
  unfold TCtx.issueHalf
  split
  · split
    · rw [hw, ha]
    · rw [hr]
  · rw [hw]

theorem TCtx.mark_leaves {β : Type} (F : Thread → β) (hs : ∀ t l b, F (Thread.setVoid t l b) = F t)
    (c : TCtx) (h : Hd) (x : Src) (t : Thread) : F (c.mark h x t) = F t := by
  unfold TCtx.mark
  split
  · exact foldl_leaves F _ (fun t l => hs t l true) _ _
  · rfl

@[simp] theorem Thread.lat_setVoid (t : Thread) (l : Nat) (b : Bool) : (t.setVoid l b).lat = t.lat := by
  unfold Thread.setVoid; split <;> rfl

@[simp] theorem Thread.toff_setVoid (t : Thread) (l : Nat) (b : Bool) : (t.setVoid l b).toff = t.toff := by
  unfold Thread.setVoid; split <;> rfl

@[simp] theorem Thread.toff_store (t : Thread) (l : Nat) (x : Word) : (t.store l x).toff = t.toff := by
  unfold Thread.store
  rw [Thread.toff_setVoid]; split <;> rfl

@[simp] theorem Thread.flags_setVoid (t : Thread) (l : Nat) (b : Bool) : (t.setVoid l b).flags = t.flags := by
  unfold Thread.setVoid; split <;> rfl

theorem Thread.lat_store (t : Thread) (l : Nat) (x : Word) : (t.store l x).lat = t.lat := by
  unfold Thread.store
  rw [Thread.lat_setVoid]; split <;> rfl

theorem Thread.flags_store (t : Thread) (l : Nat) (x : Word) : (t.store l x).flags = t.flags := by
  unfold Thread.store
  rw [Thread.flags_setVoid]; split <;> rfl

/-- The run state, position and count of a thread. -/
def Thread.place (t : Thread) : ThState × Pos × Nat := (t.st, t.pos, t.issued)

theorem Thread.place_setVoid (t : Thread) (l : Nat) (b : Bool) : (t.setVoid l b).place = t.place := by
  unfold Thread.setVoid; split <;> rfl

theorem Thread.place_store (t : Thread) (l : Nat) (x : Word) : (t.store l x).place = t.place := by
  unfold Thread.store
  rw [Thread.place_setVoid]; split <;> rfl

@[simp] theorem TCtx.raw_mark (c : TCtx) (h : Hd) (x : Src) (t : Thread) (l : Nat) : (c.mark h x t).raw l = t.raw l :=
  TCtx.mark_leaves (fun t => t.raw l) (fun _ _ _ => Thread.raw_setVoid _ _ _ _) c h x t

@[simp] theorem TCtx.pend_mark (c : TCtx) (h : Hd) (x : Src) (t : Thread) : (c.mark h x t).pend = t.pend :=
  TCtx.mark_leaves Thread.pend (fun _ _ _ => Thread.pend_setVoid _ _ _) c h x t

@[simp] theorem TCtx.async_mark (c : TCtx) (h : Hd) (x : Src) (t : Thread) : (c.mark h x t).async = t.async :=
  TCtx.mark_leaves Thread.async (fun _ _ _ => Thread.async_setVoid _ _ _) c h x t

@[simp] theorem TCtx.apart_mark (c : TCtx) (h : Hd) (x : Src) (t : Thread) : (c.mark h x t).apart = t.apart :=
  TCtx.mark_leaves Thread.apart (fun _ _ _ => Thread.apart_setVoid _ _ _) c h x t

/-! ### What shows once a pass is over -/

theorem Thread.land_timeless {t u : Thread} (h : u.timeless = t.timeless) (n l : Nat) :
    (u.land n).raw l = (t.land n).raw l ∧ (u.land n).isVoid l = (t.land n).isVoid l := by
  have hp : u.pend = t.pend := by simpa [Thread.timeless] using congrArg Thread.pend h
  have key : ∀ (L : List Pend) (a b : Thread), (∀ l, a.raw l = b.raw l) → (∀ l, a.isVoid l = b.isVoid l) →
      (L.foldl (fun t p => t.store p.loc p.val) a).raw l = (L.foldl (fun t p => t.store p.loc p.val) b).raw l ∧
      (L.foldl (fun t p => t.store p.loc p.val) a).isVoid l = (L.foldl (fun t p => t.store p.loc p.val) b).isVoid l := by
    intro L
    induction L with
    | nil => intro a b h1 h2; exact ⟨h1 l, h2 l⟩
    | cons p rest ih =>
      intro a b h1 h2
      rw [List.foldl_cons, List.foldl_cons]
      refine ih _ _ (fun l => ?_) (fun l => ?_)
      · rw [Thread.raw_store, Thread.raw_store, h1]
      · rw [Thread.isVoid_store, Thread.isVoid_store, h2]
  have hr : ∀ l, u.raw l = t.raw l := fun l => by
    have hv : u.v = t.v := by simpa [Thread.timeless] using congrArg Thread.v h
    have hk : u.k = t.k := by simpa [Thread.timeless] using congrArg Thread.k h
    unfold Thread.raw; rw [hv, hk]
  have hv : ∀ l, u.isVoid l = t.isVoid l := fun l => by
    have hv : u.vvoid = t.vvoid := by simpa [Thread.timeless] using congrArg Thread.vvoid h
    have hk : u.kvoid = t.kvoid := by simpa [Thread.timeless] using congrArg Thread.kvoid h
    unfold Thread.isVoid; rw [hv, hk]
  unfold Thread.land
  rw [hp]
  exact key _ _ _ hr hv

/-- The effect of a committed result, once the pass is over. -/
theorem TCtx.wrote_of_commit (c : TCtx) (v : VWord) (locs : List Nat) (r : List Word × FlagSet) (land : Nat) (u : Thread)
    (hn : locs.Nodup)
    (hu : WentOn c.p.after
      (let t := c.mark v.h v.a { c.th with toff := 0 }
       let t := c.issueTo land t locs r.1
       let t := { t with flags := t.flags ||| r.2 }
       if v.shifts then t.shift (dwordOf r.1) land else t) u) : c.Wrote v locs r land u := by
  obtain ⟨h1, h2, h3, h4⟩ := hu
  simp only at h1 h2 h3 h4
  generalize hm : c.mark v.h v.a { c.th with toff := 0 } = m at h1 h2 h3 h4
  generalize ht : c.issueTo land m locs r.1 = t at h1 h2 h3 h4
  have hplace : t.place = c.th.place := by
    rw [← ht, TCtx.issueTo_leaves Thread.place Thread.place_store (fun _ _ => rfl) (fun _ _ => rfl), ← hm,
      TCtx.mark_leaves Thread.place Thread.place_setVoid]
    rfl
  have hlat : t.lat = c.th.lat := by
    rw [← ht, TCtx.issueTo_leaves Thread.lat Thread.lat_store (fun _ _ => rfl) (fun _ _ => rfl), ← hm,
      TCtx.mark_leaves Thread.lat Thread.lat_setVoid]
  have htoff : t.toff = 0 := by
    rw [← ht, TCtx.issueTo_leaves Thread.toff Thread.toff_store (fun _ _ => rfl) (fun _ _ => rfl), ← hm,
      TCtx.mark_leaves Thread.toff Thread.toff_setVoid]
  have hflags : t.flags = c.th.flags := by
    rw [← ht, TCtx.issueTo_leaves Thread.flags Thread.flags_store (fun _ _ => rfl) (fun _ _ => rfl), ← hm,
      TCtx.mark_leaves Thread.flags Thread.flags_setVoid]
  have hapart : t.apart = c.th.apart := by
    rw [← ht, TCtx.apart_issueTo, ← hm, TCtx.apart_mark]; rfl
  have hst : t.st = c.th.st := congrArg Prod.fst hplace
  have hpos : t.pos = c.th.pos := congrArg (fun x => x.2.1) hplace
  have hiss : t.issued = c.th.issued := congrArg (fun x => x.2.2) hplace
  -- the registers as the last thread has them are t's
  have hlast : ∀ n l, (u.land n).raw l = (t.land n).raw l ∧ (u.land n).isVoid l = (t.land n).isVoid l := by
    intro n l
    have h := Thread.land_timeless h1 n l
    have hs : ∀ x : Thread, (∃ f q, x = { t with flags := f, lat := q }) →
        (x.land n).raw l = (t.land n).raw l ∧ (x.land n).isVoid l = (t.land n).isVoid l := by
      rintro x ⟨f, q, rfl⟩
      have key : ∀ (L : List Pend) (a b : Thread), (∀ l, a.raw l = b.raw l) → (∀ l, a.isVoid l = b.isVoid l) →
          (L.foldl (fun t p => t.store p.loc p.val) a).raw l = (L.foldl (fun t p => t.store p.loc p.val) b).raw l ∧
          (L.foldl (fun t p => t.store p.loc p.val) a).isVoid l = (L.foldl (fun t p => t.store p.loc p.val) b).isVoid l := by
        intro L
        induction L with
        | nil => intro a b h1 h2; exact ⟨h1 l, h2 l⟩
        | cons p rest ih =>
          intro a b h1 h2
          rw [List.foldl_cons, List.foldl_cons]
          refine ih _ _ (fun l => ?_) (fun l => ?_)
          · rw [Thread.raw_store, Thread.raw_store, h1]
          · rw [Thread.isVoid_store, Thread.isVoid_store, h2]
      unfold Thread.land
      exact key _ _ _ (fun _ => rfl) (fun _ => rfl)
    refine ⟨h.1.trans (hs _ ?_).1, h.2.trans (hs _ ?_).2⟩ <;>
    · split
      · exact ⟨_, _, rfl⟩
      · exact ⟨_, t.lat, rfl⟩
  refine ⟨?_, ?_, ?_, ?_, ?_, ?_, ?_, ?_⟩
  · rw [h2]
    split
    · show t.issued + 1 = _; rw [hiss]
    · show t.issued + 1 = _; rw [hiss]
  · rw [h3]
    split
    · show (if t.st = .issuing then _ else t.pos) = _; rw [hst, hpos]
    · show (if t.st = .issuing then _ else t.pos) = _; rw [hst, hpos]
  · rw [Thread.apart_of_timeless h1]
    split
    · exact hapart
    · exact hapart
  · rw [h4]
    split
    · split
      · rfl
      · exact htoff
    · split
      · rfl
      · exact htoff
  · have := congrArg Thread.flags h1
    have e : u.flags = t.flags ||| r.2 := by
      refine this.trans ?_
      split <;> rfl
    rw [e, hflags]
  · have := congrArg Thread.lat h1
    refine this.trans ?_
    split
    · show (_ :: t.lat).take 3 = _; rw [hlat]
    · exact hlat
  · intro e he hb hi
    have := TCtx.issueTo_reads c land locs r.1 m hn e he hb (by
      rw [← hm]
      exact ⟨by simpa using hi.1, by simpa using hi.2⟩)
    rw [ht] at this
    exact ⟨(hlast _ _).1.trans this.1, (hlast _ _).2.trans this.2⟩
  · intro l hl n
    rw [(hlast n l).1]
    obtain ⟨g1, -, new, g3, g4⟩ := TCtx.issueTo_frame c land locs r.1 m l hl
    rw [ht] at g1 g3
    refine Thread.raw_land_append c.th t new n l ?_ ?_ g4
    · rw [g3, ← hm, TCtx.pend_mark]
    · rw [g1, ← hm, TCtx.raw_mark]; rfl

/-- A destination's locations are distinct. -/
theorem TCtx.dest_nodup {c : TCtx} {d : Option (Sel × Nat)} {locs : List Nat} (h : c.dest d = .ok locs) : locs.Nodup := by
  unfold TCtx.dest at h
  split at h
  · cases h; simp
  · split at h
    · cases h
    · cases h
      refine List.Pairwise.map _ (fun a b hab => ?_) List.nodup_range
      omega
    · cases h; simp

/-! ### Predicates -/

theorem Warp.pget_append (w : Warp) (q : List PPend) (n b c : Nat) :
    ({ w with ppend := w.ppend ++ q } : Warp).pget n b c =
      q.foldl (fun m p => if p.pred == n && (if p.bundle == b then decide (p.own ≤ c) else decide (p.other ≤ c)) then
        (m &&& ~~~ p.mask) ||| (p.bits &&& p.mask) else m) (w.pget n b c) := by
  unfold Warp.pget
  simp only [List.foldl_append]

theorem one_shl_bit (i : Nat) (h : i < 32) (j : Nat) : (BitVec.ofNat 32 (1 <<< i)).getLsbD j = decide (j = i) := by
  rw [BitVec.getLsbD_ofNat, Nat.one_shiftLeft]
  by_cases hj : j = i
  · subst hj; simp [h]
  · simp [Nat.testBit_two_pow_of_ne (Ne.symm hj), hj]

/-- The predicate bit that a completed compare of a pass wrote. -/
theorem State.predGets_putPreds (s : State) (p : Pass) (n : Fin 12) (rs : List (TCtx × List Word)) (c : TCtx) (ws : List Word)
    (hm : (c, ws) ∈ rs) (hn : (rs.map (fun r => r.1.key)).Nodup) :
    PredGets (s.putPreds p (some n) rs) p c.key n (decide (w0 ws ≠ 0)) (c.slot + 4) := by
  intro h32
  have key : ∀ (rs : List (TCtx × List Word)) (s : State), (rs.map (fun r => r.1.key)).Nodup →
      ∀ w', Tab.find (s.putPreds p (some n) rs).warps c.key.warp = some w' →
      ∃ w, Tab.find s.warps c.key.warp = some w ∧ ∀ cyc, c.slot + 4 ≤ cyc →
        (((c, ws) ∈ rs → (w'.pget n p.bundle cyc).getLsbD c.key.slot = decide (w0 ws ≠ 0)) ∧
         ((∀ r ∈ rs, r.1.key ≠ c.key) → (w'.pget n p.bundle cyc).getLsbD c.key.slot = (w.pget n p.bundle cyc).getLsbD c.key.slot)) := by
    intro rs
    induction rs with
    | nil => intro s _ w' hw; exact ⟨w', hw, fun cyc _ => ⟨fun h => by simp at h, fun _ => rfl⟩⟩
    | cons r rest ih =>
      intro s hnd w' hw
      simp only [List.map_cons, List.nodup_cons, List.mem_map, not_exists, not_and] at hnd
      generalize hs1 : s.modWarp r.1.key.warp (fun w => w.pput n (BitVec.ofNat 32 (1 <<< r.1.key.slot))
        (if r.2.headD 0 = 0 then 0 else BitVec.ofNat 32 (1 <<< r.1.key.slot)) p.bundle r.1.slot) = s1
      have hfold : s.putPreds p (some n) (r :: rest) = s1.putPreds p (some n) rest := by rw [← hs1]; rfl
      rw [hfold] at hw
      obtain ⟨w1, hw1, h1⟩ := ih s1 hnd.2 w' hw
      rw [← hs1, State.modWarp_warps, Tab.find_upd] at hw1
      by_cases hwarp : c.key.warp = r.1.key.warp
      · rw [if_pos hwarp, Option.map_eq_some_iff] at hw1
        obtain ⟨w, hw0, rfl⟩ := hw1
        refine ⟨w, hw0, fun cyc hc => ?_⟩
        obtain ⟨h2, h3⟩ := h1 cyc hc
        have hput : ∀ cyc, Warp.pget (w.pput n (BitVec.ofNat 32 (1 <<< r.1.key.slot))
            (if r.2.headD 0 = 0 then 0 else BitVec.ofNat 32 (1 <<< r.1.key.slot)) p.bundle r.1.slot) n p.bundle cyc =
            if r.1.slot + 4 ≤ cyc then (w.pget n p.bundle cyc &&& ~~~ BitVec.ofNat 32 (1 <<< r.1.key.slot)) |||
              ((if r.2.headD 0 = 0 then 0 else BitVec.ofNat 32 (1 <<< r.1.key.slot)) &&& BitVec.ofNat 32 (1 <<< r.1.key.slot))
            else w.pget n p.bundle cyc := by
          intro cyc
          unfold Warp.pput
          rw [Warp.pget_append]
          simp
        constructor
        · intro hmem
          rcases List.mem_cons.1 hmem with hr | hr
          · subst hr
            rw [h3 (fun x hx => hnd.1 x hx), hput, if_pos hc]
            simp only [BitVec.getLsbD_or, BitVec.getLsbD_and, BitVec.getLsbD_not, one_shl_bit _ h32, h32, decide_true,
              Bool.not_true, Bool.and_false, Bool.false_or, Bool.and_true]
            show (if w0 ws = 0 then (0 : Word) else BitVec.ofNat 32 (1 <<< c.key.slot)).getLsbD c.key.slot = _
            by_cases hz : w0 ws = 0
            · rw [if_pos hz]; simp [hz]
            · rw [if_neg hz, one_shl_bit _ h32]; exact (decide_eq_true rfl).trans (decide_eq_true hz).symm
          · exact h2 hr
        · intro hne
          rw [h3 (fun x hx => hne x (by simp [hx])), hput]
          have hslot : c.key.slot ≠ r.1.key.slot := by
            intro h
            exact hne r (by simp) (by cases hk : c.key; cases hk2 : r.1.key; simp_all)
          split
          · have hb : (BitVec.ofNat 32 (1 <<< r.1.key.slot)).getLsbD c.key.slot = false := by
              rw [BitVec.getLsbD_ofNat, Nat.one_shiftLeft, Nat.testBit_two_pow_of_ne (Ne.symm hslot), Bool.and_false]
            rw [BitVec.getLsbD_or, BitVec.getLsbD_and, BitVec.getLsbD_and, BitVec.getLsbD_not, hb]
            simp only [h32, decide_true, Bool.not_false, Bool.and_true, Bool.and_false, Bool.or_false]
          · rfl
      · rw [if_neg hwarp] at hw1
        refine ⟨w1, hw1, fun cyc hc => ?_⟩
        obtain ⟨h2, h3⟩ := h1 cyc hc
        refine ⟨fun hmem => ?_, fun hne => h3 (fun x hx => hne x (by simp [hx]))⟩
        rcases List.mem_cons.1 hmem with hr | hr
        · subst hr; exact absurd rfl hwarp
        · exact h2 hr
  intro w' hw cyc hc
  obtain ⟨w, -, h⟩ := key rs s hn w' hw
  exact (h cyc hc).1 hm

/-- What a warp reads as its predicates does not depend on its threads. -/
theorem Warp.pget_shell (w : Warp) (n b c : Nat) : w.shell.pget n b c = w.pget n b c := rfl

theorem State.husk_putPreds (s : State) (p : Pass) (n : Option (Fin 12)) (rs : List (TCtx × List Word)) (w : Nat) :
    (Tab.find (s.putPreds p n rs).warps w).map Warp.husk = (Tab.find s.warps w).map Warp.husk := by
  unfold State.putPreds
  split
  · rfl
  · refine foldl_leaves (fun s : State => (Tab.find s.warps w).map Warp.husk) _ (fun s r => ?_) _ _
    simp only [State.modWarp_warps, Tab.find_upd]
    split
    · cases Tab.find s.warps w <;> rfl
    · rfl

theorem Warp.husk_of_shell {a b : Option Warp} (h : a.map Warp.shell = b.map Warp.shell) : a.map Warp.husk = b.map Warp.husk := by
  have e : ∀ x : Option Warp, x.map Warp.husk = (x.map Warp.shell).map Warp.husk := fun x => by cases x <;> rfl
  rw [e a, e b, h]

/-! ### The law -/

theorem TCtx.run_of_completes {c : TCtx} {v : VWord} {op : VOp} (h : c.Completes v op) : ∀ i, c.run v op ≠ .fault i := by
  intro i hi
  unfold TCtx.run at hi
  rcases h with h | ⟨h, a, b, x, locs, h1, h2, h3, h4⟩
  · simp [h] at hi
  · simp [h, h1, TCtx.commit, h2, h3, h4] at hi

/-- Every word that runs as a vector word is one. -/
theorem vectorWord_of (i : Instr) (v : VWord) (op : VOp) (h : ∀ s, exec i s = .next (s.vector v op)) : VectorWord i v op := by
  intro s p hdue hc
  obtain ⟨p0, hp0, hp, hn⟩ := hdue
  have hkeys : ((p.ctxs s).map (fun c => (c, c.run v op))).map Prod.fst = p.ctxs s := by
    rw [List.map_map]
    exact (List.map_congr_left (fun _ _ => rfl)).trans (List.map_id _)
  have hf : noFault ((p.ctxs s).map (fun c => (c, c.run v op))) := by
    intro r hr i
    obtain ⟨c, hcm, rfl⟩ := List.mem_map.1 hr
    exact TCtx.run_of_completes (hc c hcm) i
  refine ⟨_, h s, ?_, ?_, ?_⟩
  · exact State.lockstep_frame s _ v.pred _ p0 p hp0 hp hkeys hf
  · split
    · next hpn =>
      intro w
      unfold State.vector
      rw [hpn]
      refine State.shell_lockstep s _ _ w (fun q hq => ?_)
      rw [hp0] at hq
      cases hq
      rw [← hp]
      exact hf
    · intro w
      unfold State.vector State.lockstep
      simp only [hp0, ← hp, faultsOf_noFault hf]
      rw [Warp.husk_of_shell (State.shell_endPass _ _ _ _), State.husk_putPreds, Warp.husk_of_shell (State.shell_putDone _ _ _)]
  · intro c hcm
    have hslot := Pass.mem_ctxs hcm
    have hmem : (c, c.run v op) ∈ (p.ctxs s).map (fun c => (c, c.run v op)) := List.mem_map.2 ⟨c, hcm, rfl⟩
    refine ⟨fun hg => ?_, fun a b x locs hg ho hd => ⟨?_, ?_⟩⟩
    · have hr : c.run v op = .skip (c.skipped v) := by unfold TCtx.run; simp [hg]
      exact State.thread_lockstep s _ v.pred _ p0 p hp0 hp hn hkeys hf c _ _ hmem (.inl hr)
    · have hcmp := hc c hcm
      rcases hcmp with h1 | ⟨_, a', b', x', locs', h1, h2, h3, h4⟩
      · rw [hg] at h1; cases h1
      · rw [ho] at h1; cases h1
        rw [hd] at h3; cases h3
        have hr := by
          have : c.run v op = c.commit v (op c a b x).1 (op c a b x).2 (c.slot + v.lat) := by unfold TCtx.run; simp [hg, ho]
          exact this
        have hr2 : ∃ t, c.run v op = .done t (op c a b x).1 ∧ t =
            (let t := c.mark v.h v.a { c.th with toff := 0 }
             let t := c.issueTo (c.slot + v.lat) t locs (op c a b x).1
             let t := { t with flags := t.flags ||| (op c a b x).2 }
             if v.shifts then t.shift (dwordOf (op c a b x).1) (c.slot + v.lat) else t) := by
          rw [hr]
          unfold TCtx.commit
          simp only [h2, hd, h4, ne_eq, not_true_eq_false, if_false]
          exact ⟨_, rfl, rfl⟩
        obtain ⟨t, ht, hteq⟩ := hr2
        obtain ⟨u, hu, hw⟩ := State.thread_lockstep s _ v.pred _ p0 p hp0 hp hn hkeys hf c _ t hmem (.inr ⟨_, ht⟩)
        refine ⟨u, hu, TCtx.wrote_of_commit c v locs (op c a b x) (c.slot + v.lat) u (TCtx.dest_nodup hd) ?_⟩
        rw [hslot.2.1, ← hteq]
        exact hw
    · intro n hpn h32
      intro w hw cyc hcyc
      rcases hc c hcm with h1 | ⟨_, a', b', x', locs', h1, h2, h3, h4⟩
      · rw [hg] at h1; cases h1
      · rw [ho] at h1; cases h1
        rw [hd] at h3; cases h3
        have hrun : ∃ t, c.run v op = .done t (op c a b x).1 := by
          unfold TCtx.run TCtx.commit
          simp only [hg, ho, h2, hd, h4, ne_eq, not_true_eq_false, if_false]
          exact ⟨_, rfl⟩
        obtain ⟨t, ht⟩ := hrun
        unfold State.vector State.lockstep at hw
        simp only [hp0, ← hp, faultsOf_noFault hf, hpn] at hw
        have hsh := State.shell_endPass ((s.putDone ((p.ctxs s).map (fun c => (c, c.run v op)))).putPreds p (some n)
          (doneOf ((p.ctxs s).map (fun c => (c, c.run v op))))) p [] c.key.warp
        rw [hw] at hsh
        cases hw2 : Tab.find ((s.putDone ((p.ctxs s).map (fun c => (c, c.run v op)))).putPreds p (some n)
          (doneOf ((p.ctxs s).map (fun c => (c, c.run v op))))).warps c.key.warp with
        | none => rw [hw2] at hsh; cases hsh
        | some w2 =>
          rw [hw2] at hsh
          simp only [Option.map_some, Option.some.injEq] at hsh
          rw [← Warp.pget_shell, hsh, Warp.pget_shell]
          have hdone : (c, (op c a b x).1) ∈ doneOf ((p.ctxs s).map (fun c => (c, c.run v op))) := by
            unfold doneOf
            exact List.mem_filterMap.2 ⟨(c, c.run v op), hmem, by rw [ht]⟩
          have hnd : ((doneOf ((p.ctxs s).map (fun c => (c, c.run v op)))).map (fun r => r.1.key)).Nodup := by
            have h0 := Pass.nodup_ctxs s hn
            have hsub : ((doneOf ((p.ctxs s).map (fun c => (c, c.run v op)))).map (fun r => r.1.key)).Sublist ((p.ctxs s).map TCtx.key) := by
              generalize p.ctxs s = l
              unfold doneOf
              induction l with
              | nil => simp
              | cons d r ih =>
                simp only [List.map_cons, List.filterMap_cons]
                cases hd : d.run v op <;> simp only [List.map_cons]
                · exact ih.cons _
                · exact ih.cons _
                · exact ih.cons_cons _
            exact h0.sublist hsub
          exact State.predGets_putPreds _ p n _ c _ hdone hnd h32 w2 hw2 cyc hcyc

/-- A vector word's result may be said otherwise where the two agree on every operands that can be read. -/
theorem VectorWord.congr {i : Instr} {v : VWord} {op op' : VOp} (h : VectorWord i v op)
    (he : ∀ c a b x, c.operands v = .ok (a, b, x) → op c a b x = op' c a b x) : VectorWord i v op' := by
  have hc : ∀ c : TCtx, c.Completes v op' → c.Completes v op := by
    rintro c (h1 | ⟨h1, a, b, x, locs, h2, h3, h4, h5⟩)
    · exact .inl h1
    · exact .inr ⟨h1, a, b, x, locs, h2, by rw [he c a b x h2]; exact h3, h4, h5⟩
  intro s p hdue hcs
  obtain ⟨t, h1, h2, h3, h4⟩ := h s p hdue (fun c hcm => hc c (hcs c hcm))
  refine ⟨t, h1, h2, h3, fun c hcm => ⟨(h4 c hcm).1, fun a b x locs hg ho hd => ?_⟩⟩
  rw [← he c a b x ho]
  exact (h4 c hcm).2 a b x locs hg ho hd

theorem TCtx.length_halves {c : TCtx} {fld h loc n : Nat} {ws : List Word} (hr : c.halves fld h loc n = .ok ws) : ws.length = n := by
  induction n generalizing h loc ws with
  | zero => simp only [TCtx.halves] at hr; cases hr; rfl
  | succ k ih =>
    simp only [TCtx.halves] at hr
    split at hr
    · cases hr
    · split at hr
      · cases hr
      · next xs hx => cases hr; simp [ih hx]

theorem TCtx.length_scalars {c : TCtx} {fld m n : Nat} {ws : List Word} (hr : c.scalars fld m n = .ok ws) : ws.length = n := by
  induction n generalizing m ws with
  | zero => simp only [TCtx.scalars] at hr; cases hr; rfl
  | succ k ih =>
    simp only [TCtx.scalars] at hr
    split at hr
    · cases hr
    · split at hr
      · cases hr
      · next xs hx => cases hr; simp [ih hx]

/-- A selector read as at most two words supplies as many. -/
theorem TCtx.length_read {c : TCtx} {fld n : Nat} {x : Sel} {ws : List Word} (hn : n ≤ 2) (hr : c.read fld (.sel x n) = .ok ws) :
    ws.length = n := by
  simp only [TCtx.read] at hr
  split at hr
  · cases hr
  · cases hr; simp
  · exact TCtx.length_halves hr
  · exact TCtx.length_scalars hr
  · split at hr
    · cases hr
    · cases hr; simp [Dword.words]; omega

/-- Operand A of a vector word that could be read. -/
theorem TCtx.operands_a {c : TCtx} {v : VWord} {a b x : List Word} (h : c.operands v = .ok (a, b, x)) : c.read 0 v.a = .ok a := by
  unfold TCtx.operands at h
  split at h
  · cases h
  · next a' ha =>
    split at h
    · cases h
    · split at h
      · cases h
      · cases h; exact ha

end Sys2Proof.Machine
end

