-- ==== Sys2Proof/Machine/Abi.lean ====
section
/-! DEFINITION. The calling convention of compiled functions (spec/05 R98), as checks on the states at which a thread calls a
function and at which the function returns to it. The device itself enforces none of it. -/

namespace Sys2Proof.Machine

/-- How the convention treats a place of a thread's or its warp's storage. -/
inductive AbiRule where
  | value       -- arguments and results
  | caller      -- caller-saved
  | callee      -- callee-saved
  | stack       -- the private stack pointer
  | held        -- usable only when the caller guarantees the extended block
  | program     -- the program's own
deriving DecidableEq, Repr

/-- The rule of file register vN. -/
def abiFile (n : Nat) : AbiRule :=
  if n < 8 then .value else if n < 16 then .caller else if n < 30 then .callee else if n < 32 then .stack else .held

/-- The rule of operand-cache slot kN. -/
def abiCache (_ : Nat) : AbiRule := .caller

/-- The rule of scalar register sN. -/
def abiScalar (n : Nat) : AbiRule := if n < 56 then .program else .caller

/-- The rule of predicate pN. -/
def abiPred (n : Nat) : AbiRule := if n < 6 then .caller else .callee

/-- What a function uses beyond the file's base block: the registers v32 to v63, and writes of s56 to s95. -/
structure AbiUse where
  ext : Bool
  scalars : Bool
deriving DecidableEq, Repr

/-- The private stack pointer, v30:v31. -/
def Thread.stackPointer (t : Thread) : Dword := Dword.ofPair (t.raw 30) (t.raw 31)

/-- Whether every counter of a warp is zero. -/
def Warp.quiet (w : Warp) : Bool := w.ctr.toList.all (fun c => c == 0)

/-- Whether every non-exited thread of a warp stands at one place: all of them call at once. -/
def Warp.together (w : Warp) (t : Thread) : Bool := w.threads.all (fun u => u.st == .exited || u.pos == t.pos)

/-- A call keeps the convention's conditions: the stack pointer is 16-byte aligned, every counter is zero, the extended block is held where
the function uses it, and the whole warp calls a function that writes s56 to s95. -/
def State.abiCall (s : State) (use : AbiUse) (k : TKey) : Bool :=
  match s.thread k, Tab.find s.warps k.warp with
  | some t, some w =>
    t.stackPointer.toNat % 16 == 0 && w.quiet && (!use.ext || w.ext) && (!use.scalars || w.together t)
  | _, _ => false

/-- The registers of a thread that a function gives back as they were when it was entered: v16 to v29 and the stack pointer with their void
state, LINK, which RET goes by, and RMODE; FLAGS only accumulate. -/
def Thread.abiKept (t u : Thread) : Bool :=
  (List.range 64).all (fun n => !(abiFile n == .callee || abiFile n == .stack) || (t.raw n == u.raw n && t.isVoid n == u.isVoid n))
    && t.link == u.link && t.rmode == u.rmode && t.flags &&& u.flags == t.flags

/-- What a warp shows of a function that kept the convention for one thread: its own bits of p6 to p11, the program's scalar
registers, and counters at zero. -/
def Warp.abiKept (w x : Warp) (slot : Nat) : Bool :=
  (List.range 12).all (fun n => abiPred n != .callee || ((w.preds.toList.getD n 0).getLsbD slot == (x.preds.toList.getD n 0).getLsbD slot))
    && (List.range 96).all (fun n => abiScalar n != .program || (w.s.toList.getD n 0 == x.s.toList.getD n 0)) && x.quiet

/-- A function entered at `s` kept the convention for a thread when it returned at `u`. -/
def State.abiReturn (s u : State) (k : TKey) : Bool :=
  match s.thread k, Tab.find s.warps k.warp, u.thread k, Tab.find u.warps k.warp with
  | some t, some w, some t1, some w1 => t.abiKept t1 && w.abiKept w1 k.slot
  | _, _, _, _ => false

end Sys2Proof.Machine
end

