-- ==== Sys2Proof/Tests/Slice0.lean ====
section
/-! SUPPORT. Tests: terms that are not well formed and words written out from the encoding tables; and, for every statement that has
hypotheses, a state and operands that meet them together (`meets_…`). -/

namespace Sys2Proof

open Machine

set_option Elab.async false

/-! ### Terms that are refused -/

/-- An unguarded word. -/
def free : Hd := { guard := .always, k := false }

/-- The operands v0, v1 and destination v2 of an integer word. -/
def tri : Tri := { h := free, am := none, d := .v 2, a := .v 0, b := .sel (.v 1) }

/-- IADD accepts no ARITHMOD with a rounding mode (Table 20.1 of the integer words: SAT alone). -/
theorem test_wf_literals : (Instr.iadd { tri with am := some { toff := 0, sat := false, ftz := false, rm := some .up } }).literalsOk = false ∧
    (Instr.iadd tri).literalsOk = true := by decide

/-- A scalar register is no destination of a vector word (R66). -/
theorem test_wf_operands : (Instr.iadd { tri with d := .s 1 }).operandsOk = false ∧ (Instr.iadd tri).operandsOk = true := by decide

/-- Die 4 does not exist (R1). -/
theorem test_wf_units : (Instr.tardyDeadline 4).unitsOk = false ∧ (Instr.tardyDeadline 3).unitsOk = true := by decide

theorem test_wf : (Instr.iadd { tri with d := .s 1 }).wf = false ∧ (Instr.iadd tri).wf = true := by decide

/-! ### Words bit by bit (Tables 4.3 to 4.9) -/

/-- A word read in a class, its literal run before it. -/
def reads (c : Cls) (run : List Word) (w : Word) (i : Instr) : Bool :=
  match decodeWord (DecCtx.open c) run w with
  | .ok j => i == j
  | .error _ => false

theorem test_decode_gen : reads .gen [] 0b1111_0_0_00000_0000010_0000000_0000001#32 (.iadd tri) = true := by decide

theorem test_decode_arithmod :
    reads .gen [0b11111_011_000000000000000000010000#32] 0b1111_0_0_00000_0000010_0000000_0000001#32
      (.iadd { tri with am := some { toff := 0, sat := true, ftz := false, rm := none } }) = true := by decide

theorem test_decode_movi : reads .gen [0xF8123456#32] 0b1111_0_0_10101_0000011_0000000_1111000#32
    (.movi { h := free, am := none, d := .v 3, imm14 := 0x78, lit := some 0x123456 }) = true := by decide

theorem test_decode_wide : reads .wide [] 0b0011_1_1_01010_0000100_1000000_1001010#32
    (.ladd { h := { guard := .pred 3 true, k := true }, am := none, d := .v 4, a := .k 0, b := .sel (.s 2) }) = true := by decide

theorem test_decode_mem : reads .mem [0b11111_001_000000000000000000000001#32, 0b11111_000_000000000000000000001000#32]
    0b1111_0_0_00100_0000101_0000010_1000110#32 (.ldw { h := free, mm := none, d := .v 5, a := .v 2, b := .imm2 1 8 }) = true := by decide

theorem test_decode_ctl : reads .ctl [] 0b0000_0_0_00000_111111111111111111110#32
    (.bra { h := { guard := .pred 0 false, k := false }, off := -2 }) = true := by decide

theorem test_decode_scalar : reads .ctl [] 0b1111_0_0_10110_0000011_0000100_1100000#32
    (.sadd { h := free, d := .s 3, a := .s 4, b := .sel .z }) = true := by decide

theorem test_decode_eng : reads .eng [] 0b1111_0_0_00110_1000110_0000001_0000010#32 (.arvi { h := free, a := .v 1, b := .sel (.v 2) }) = true := by
  decide

theorem test_decode_rul : reads .rul [] 0b1111_0_0_00010_1000110_0000001_1000110#32 (.rstep { h := free, a := .v 1 }) = true := by decide

theorem test_decode_pkd : reads .pkd [] 0b1111_0_0_00000_0000100_0000000_0000010#32
    (.paddF2 { h := free, am := none, d := .v 4, a := .v 0, b := .v 2 }) = true := by decide

theorem test_decode_sys : reads .sys [] 0b1111_0_0_00101_1000110_1000110_1000110#32 (.xsync { h := free }) = true := by decide

/-- Table 4.10: the worked encodings of spec/04. -/
theorem test_decode_table :
    reads .gen [] 0xF24003D5 (.isetp { h := free, am := none, cond := 0, p := 0, a := .v 7, b := .sel (.s 13) }) = true ∧
    reads .gen [] 0x0281E9C6 (.mov { h := { guard := .pred 0 false, k := false }, am := none, d := .v 7, a := .s 11 }) = true ∧
    reads .gen [0xFB000005] 0xF3100409
      (.fadd { h := free, am := some { toff := 0, sat := false, ftz := false, rm := some .tz }, d := .k 0, a := .v 8, b := .sel (.v 9) }) = true ∧
    reads .mem [0xFA00602A, 0xF8000040] 0xF0822446
      (.ldw { h := free, mm := some { signed := false, w64 := false, noagg := false, ctr := 6, cache := none, space := none,
                                      scope := some .dev, ord := some .acq }, d := .v 8, a := .s 0, b := .imm 0x40 }) = true ∧
    Header.ofWord 0x00000023 = { drain := 0, tc := false, step := 0, wait := 0, cls := .mem, n := 3 } := by decide

/-- A guard of 13 is refused, whatever the word (R61). -/
theorem test_decode_guard : reads .gen [] 0b1101_0_0_00000_0000010_0000000_0000001#32 (.iadd tri) = false := by decide

/-! ### A device at a word -/

/-- The device about to run a word, for one thread in privileged state with an identical mapping of all memory. -/
def atWord (c : Cls) (w : Word) : State :=
  match (State.reset.placeWord c w 0x10000).issue (portKey 0 0 c.port) with
  | .word s _ => s
  | _ => State.reset

/-- The device at the word IADD v2, v0, v1. Warp 2, block 1, group 3 and launch 0 are its thread's. -/
def base : State := atWord .gen 0xF0008001

/-- Its thread. -/
def k0 : TKey := ⟨2, 0⟩

/-- `base` with its thread's registers v0 to v3 set. -/
def regs (a b c d : Word) : State :=
  base.modThread k0 (fun t => { t with v := (((t.v.set 0 a).set 1 b).set 2 c).set 3 d })

/-- The same outside privileged state. -/
def user (s : State) : State := s.modLaunch 0 (fun l => { l with priv := false })

theorem forall_one {l : List α} {c : α} {P : α → Prop} (h : l = [c]) (hp : P c) : ∀ x ∈ l, P x := by
  subst h; simpa using hp

theorem forall_nil {l : List α} {P : α → Prop} (h : l = []) : ∀ x ∈ l, P x := by
  subst h; simp

/-- A state at which the threads of a pass complete a vector word. -/
def Seen (v : VWord) (op : VOp) : Prop :=
  ∃ (s : State) (p : Pass), s.Due [v.a, v.b, v.c] p ∧ p.ctxs s ≠ [] ∧ ∀ c ∈ p.ctxs s, c.Completes v op ∧ c.guard v.h.guard = .ok true

theorem meets_vector {v : VWord} {op : VOp} {s : State} {p0 : Pass} {c : TCtx} {a b x : List Word} {locs : List Nat} (h0 : s.pass = some p0)
    (hk : p0.keys = [k0]) (hc : ({ p0 with dur := p0.slotDur s [v.a, v.b, v.c] } : Pass).ctxs s = [c]) (hg : c.guard v.h.guard = .ok true)
    (ho : c.operands v = .ok (a, b, x)) (ht : c.trapping v.am (op c a b x).2 = 0) (hd : c.dest v.d = .ok locs)
    (hw : c.writeCheck locs = none) : Seen v op :=
  ⟨s, _, ⟨p0, h0, rfl, by simp [hk]⟩, by simp [hc], by
    rw [hc]; simp only [List.mem_singleton, forall_eq]; exact ⟨.inr ⟨hg, a, b, x, locs, ho, ht, hd, hw⟩, hg⟩⟩

/-- The operands of a word of one source. -/
def duo : Duo := { h := free, am := none, d := .v 2, a := .v 0 }

theorem meets_LogicShiftsAndBits : Seen (Tri.int tri 4 false) (gives32 (fun a b _ => a &&& b)) ∧
    Seen (Duo.word duo 1 1 4) (gives32 (fun a _ _ => a ^^^ 0xFFFFFFFF)) :=
  ⟨meets_vector (s := regs 5 3 0 0) rfl rfl rfl rfl rfl rfl rfl rfl, meets_vector (s := regs 5 3 0 0) rfl rfl rfl rfl rfl rfl rfl rfl⟩

theorem meets_IntegerWords : Seen (Tri.int tri 6 true) (givesSat32 none (fun a b c => a * b + c) (fun a b c => a * b + c)) ∧
    Seen (Cmp.word { h := free, am := none, cond := 2, p := 1, a := .v 0, b := .sel (.v 1) } (bI32 (.sel (.v 1))) 1)
      (fun _ _ _ _ => ([1], 0)) :=
  ⟨meets_vector (s := regs 5 3 0 0) rfl rfl rfl rfl rfl rfl rfl rfl, meets_vector (s := regs 5 3 0 0) rfl rfl rfl rfl rfl rfl rfl rfl⟩

theorem meets_Moves : dstOk (Sel.bits (.v 2)) = true ∧ ((0#7 ++ 0x78#7 : BitVec 14).extractLsb' 8 6 = 0) ∧
    ((2#7 ++ 0#7 : BitVec 14).extractLsb' 8 6 ≠ 0) ∧ Seen (Duo.word duo 1 1 4) (gives32 (fun a _ _ => a)) :=
  ⟨by decide, by decide, by decide, meets_vector (s := regs 5 3 0 0) rfl rfl rfl rfl rfl rfl rfl rfl⟩

theorem meets_Binary32AndConversions : Seen (Tri.f32 tri 6 (.sel tri.d 1) 2) (f32Op none (fun v a b c => b32.fma v a b c)) ∧
    Seen (Duo.word duo 1 1 4) (f32Op none (fun v a _ _ => intToFp b32 v.rm (BitVec.ofNat 32 a).toInt)) ∧
    Seen (SlotW.word { h := free, am := none, d := .v 2, a := .v 0, s := 0 } 1 1 4) (fun c a _ _ =>
      let r := fromSlot b32 (slotA (c.p.rcd.slots.getD 0 0)) (w0 a).toNat
      ([BitVec.ofNat 32 r.1], r.2)) :=
  ⟨meets_vector (s := regs 0x3F800000 0x40000000 0 0) rfl rfl rfl rfl rfl (by decide +kernel) rfl rfl,
    meets_vector (s := regs 5 3 0 0) rfl rfl rfl rfl rfl (by decide +kernel) rfl rfl,
    meets_vector (s := regs 5 3 0 0) rfl rfl rfl rfl rfl (by decide +kernel) rfl rfl⟩

theorem meets_LongIntegers : Seen (Tri.wide { tri with b := .sel (.v 2) } (bI64 (.sel (.v 2))) 4 .none 2)
      (givesSat64 none (fun a b => a + b) (fun a b => a + b)) ∧
    Seen (Duo.word duo 2 2 4) (gives64 (fun a _ => a)) :=
  ⟨meets_vector (s := regs 5 3 0 0) rfl rfl rfl rfl rfl rfl rfl rfl, meets_vector (s := regs 5 3 0 0) rfl rfl rfl rfl rfl rfl rfl rfl⟩

theorem meets_Binary64AndConversions : Seen (Tri.wide { tri with b := .sel (.v 2) } (bF64 (.sel (.v 2))) 8 .none 2)
      (f64Op none (fun v a b _ => b64.add v a b)) ∧
    Seen (Duo.word duo 1 2 8) (twoWords none (fun v a => fpConv b32 b64 v a)) :=
  ⟨meets_vector (s := regs 0 0x3FF00000 0 0x40000000) rfl rfl rfl rfl rfl (by decide +kernel) rfl rfl,
    meets_vector (s := regs 0x3F800000 3 0 0) rfl rfl rfl rfl rfl (by decide +kernel) rfl rfl⟩

theorem meets_PackedWords : Seen (PTri.word { h := free, am := none, d := .v 2, a := .v 0, b := .v 1 } 1 false 1 6)
      (halves none (fun v a b _ => b16.add v a b)) ∧
    Seen (PTri.word { h := free, am := none, d := .v 4, a := .v 0, b := .v 2 } 2 true 2 6) (pairs none (fun v a b c => b32.fma v a b c)) ∧
    Seen (Duo.word duo 2 1 6) (narrowOp none b16) ∧
    Seen (SlotW.word { h := free, am := none, d := .v 4, a := .v 0, s := 0 } 1 4 8) (fun c a _ _ =>
      let rs := (bytesOf (w0 a)).map (fun y => fromSlot b32 (slotA (c.p.rcd.slots.getD 0 0)) y)
      (rs.map (fun r => BitVec.ofNat 32 r.1), orFlags rs)) :=
  ⟨meets_vector (s := regs 0x3C003C00 0 0 0) rfl rfl rfl rfl rfl (by decide +kernel) rfl rfl,
    meets_vector (s := regs 0x3F800000 0 0 0) rfl rfl rfl rfl rfl (by decide +kernel) rfl rfl,
    meets_vector (s := regs 0x3F800000 0 0 0) rfl rfl rfl rfl rfl (by decide +kernel) rfl rfl,
    meets_vector (s := regs 5 3 0 0) rfl rfl rfl rfl rfl (by decide +kernel) rfl rfl⟩

/-! ### Words of one thread -/

/-- `base` with a second thread in its warp and its bundle. -/
def pair : State :=
  (base.modWarp 2 (fun w => { w with threads := w.threads ++ w.threads })).modBundle 0 (fun b => { b with threads := [⟨2, 0⟩, ⟨2, 1⟩] })

/-- `base` with a second thread in its warp, which is in no bundle. -/
def other : State := base.modWarp 2 (fun w => { w with threads := w.threads ++ w.threads.map (fun t => { t with st := .ready }) })

theorem meets_FlagsAndRounding : ∃ (s : State) (p : Pass), s.Due [] p ∧ p.ctxs s ≠ [] ∧
    ∀ c ∈ p.ctxs s, c.guard .always = .ok true ∧ ∃ locs, c.dest (some (.v 2, 1)) = .ok locs ∧ c.writeCheck locs = none :=
  ⟨base, _, ⟨_, rfl, rfl, by decide⟩, List.cons_ne_nil _ _, forall_one rfl ⟨rfl, _, rfl, rfl⟩⟩

theorem meets_SelWordRule : ∃ (s : State) (p : Pass), s.Due [.sel (.v 0) 1, bI32 (.sel (.v 1))] p ∧
    ∀ c ∈ p.ctxs s, ∃ take ws locs, c.guard .always = .ok take ∧
      (if take then c.read 0 (.sel (.v 0) 1) else c.read 1 (bI32 (.sel (.v 1)))) = .ok ws ∧ c.dest (some (.v 2, 1)) = .ok locs ∧
      c.writeCheck locs = none :=
  ⟨regs 5 3 0 0, _, ⟨_, rfl, rfl, by decide⟩, forall_one rfl ⟨true, _, _, rfl, rfl, rfl, rfl⟩⟩

theorem meets_ShflWordRule : ∃ (s : State) (p : Pass), s.Due [.sel (.v 0) 1, bI32 (.sel (.v 1))] p ∧
    ∀ c ∈ p.ctxs s, (∃ x, Gives tri c x) ∧ c.guard .always = .ok true ∧
      ∃ b locs, c.read 1 (bI32 (.sel (.v 1))) = .ok b ∧ c.dest (some (.v 2, 1)) = .ok locs ∧ c.writeCheck locs = none ∧
        (∃ d ∈ p.ctxs s, d.key = ⟨c.key.warp, (w0 b).toNat % 32⟩) ∧ ¬ c.w.threads.length ≤ (w0 b).toNat % 32 :=
  ⟨regs 5 0 0 0, _, ⟨_, rfl, rfl, by decide⟩, forall_one rfl ⟨⟨_, .inr ⟨rfl, _, rfl, rfl⟩⟩, rfl, _, _, rfl, rfl, rfl,
    ⟨_, List.mem_cons_self, rfl⟩, by decide +kernel⟩⟩

/-- The slot that SHFL names is absent from the warp. -/
theorem meets_ShflWordRule_absent : ∃ (s : State) (p : Pass), s.Due [.sel (.v 0) 1, bI32 (.sel (.v 1))] p ∧
    ∀ c ∈ p.ctxs s, (∃ x, Gives tri c x) ∧ c.guard .always = .ok true ∧
      ∃ b locs, c.read 1 (bI32 (.sel (.v 1))) = .ok b ∧ c.dest (some (.v 2, 1)) = .ok locs ∧ c.writeCheck locs = none ∧
        c.w.threads.length ≤ (w0 b).toNat % 32 :=
  ⟨regs 5 31 0 0, _, ⟨_, rfl, rfl, by decide⟩, forall_one rfl ⟨⟨_, .inr ⟨rfl, _, rfl, rfl⟩⟩, rfl, _, _, rfl, rfl, rfl, by decide +kernel⟩⟩

/-- The slot that SHFL names holds a thread that is in no bundle. -/
theorem meets_ShflWordRule_outside : ∃ (s : State) (p : Pass), s.Due [.sel (.v 0) 1, bI32 (.sel (.v 1))] p ∧ shflLoc (.v 0) = some 0 ∧
    ∀ c ∈ p.ctxs s, (∃ x, Gives tri c x) ∧ c.guard .always = .ok true ∧
      ∃ b locs, c.read 1 (bI32 (.sel (.v 1))) = .ok b ∧ c.dest (some (.v 2, 1)) = .ok locs ∧ c.writeCheck locs = none ∧
        (w0 b).toNat % 32 < c.w.threads.length ∧ ∀ d ∈ p.ctxs s, d.key ≠ ⟨c.key.warp, (w0 b).toNat % 32⟩ :=
  ⟨(regs 5 1 0 0).modWarp 2 (fun w => { w with threads := w.threads ++ w.threads.map (fun t => { t with st := .ready }) }), _,
    ⟨_, rfl, rfl, by decide⟩, rfl, forall_one rfl ⟨⟨_, .inr ⟨rfl, _, rfl, rfl⟩⟩, rfl, _, _, rfl, rfl, rfl, by decide +kernel,
      forall_one rfl (by decide +kernel)⟩⟩

theorem meets_Votes : ∃ (s : State) (p : Pass), s.Due [] p ∧
    ∀ c ∈ p.ctxs s, c.guard .always = .ok true ∧ (∃ b, c.guard (.pred 1 false) = .ok b) ∧
      ∃ locs, c.dest (some (.v 2, 1)) = .ok locs ∧ c.writeCheck locs = none :=
  ⟨base, _, ⟨_, rfl, rfl, by decide⟩, forall_one rfl ⟨rfl, ⟨_, rfl⟩, _, rfl, rfl⟩⟩

/-- Two threads of one warp, of which ELECT chooses the first. -/
theorem meets_Elect : ∃ (s : State) (p : Pass) (c d : TCtx), s.Due [] p ∧ p.ctxs s = [c, d] ∧ p.executing s free = [c, d] ∧
    p.keys.Pairwise (fun a b => a.warp = b.warp → a.slot < b.slot) ∧ c.key.warp = d.key.warp ∧ c.key.slot < d.key.slot :=
  ⟨pair, _, _, _, ⟨_, rfl, rfl, by decide⟩, rfl, rfl, by decide, rfl, by decide⟩

/-- A thread whose guard fails keeps its bit. -/
theorem meets_Elect_skips : ∃ (s : State) (p : Pass), s.Due [] p ∧ ∀ c ∈ p.ctxs s, c.guard (.pred 0 false) = .ok false :=
  ⟨base, _, ⟨_, rfl, rfl, by decide⟩, forall_one rfl rfl⟩

theorem meets_LongOperationsRule : ∃ (s : State) (p : Pass), s.Due [.sel (.v 0) 1, bF32 (.sel (.v 1)), .none] p ∧ p.full s 5 = false ∧
    ∀ c ∈ p.ctxs s, c.Completes (Tri.f32 tri 30 .none 2) (f32Op none (fun v a b _ => b32.div v a b)) :=
  ⟨regs 0x3F800000 0x40000000 0 0, _, ⟨_, rfl, rfl, by decide⟩, rfl,
    forall_one rfl (.inr ⟨rfl, _, _, _, _, rfl, by decide +kernel, rfl, rfl⟩)⟩

/-- `base` after a long operation has issued. -/
def longSent : State :=
  match exec (.fdiv tri) (regs 0x3F800000 0x40000000 0 0) with
  | .next s => s
  | _ => base

theorem meets_LongOpResultRule : ∃ (s : State) (id : Nat) (o : LongOp) (y : Thread) (w : Warp) (e : OutWord),
    s.longs.find? (fun q => q.id == id) = some o ∧ s.thread o.thread = some y ∧ y.st ≠ .exited ∧
    Tab.find s.warps o.thread.warp = some w ∧ w.out.find? (fun q => q.word == o.word) = some e ∧ e.ctr = 5 ∧ e.left = 1 ∧
    (∃ d, o.dst = some d ∧ ∃ a ∈ y.async, a.req = o.id ∧ a.loc = d + 0 ∧ a.lost = false) ∧ o.vals = [0x3F000000] :=
  ⟨longSent, 37, _, _, _, _, rfl, rfl, by decide +kernel, rfl, rfl, rfl, rfl, ⟨_, rfl, _, List.mem_cons_self, rfl, rfl, rfl⟩,
    by decide +kernel⟩

/-- A result that is not its word's last, of a thread that has exited. -/
theorem meets_LongOpResultRule_more : ∃ (s : State) (o : LongOp) (y : Thread) (w : Warp) (e : OutWord),
    s.longs.find? (fun q => q.id == 37) = some o ∧ s.thread o.thread = some y ∧ y.st = .exited ∧
    Tab.find s.warps o.thread.warp = some w ∧ w.out.find? (fun q => q.word == o.word) = some e ∧ 1 < e.left :=
  ⟨(longSent.modWarp 2 (fun w => { w with out := w.out.map (fun e => { e with left := 2 }) })).modThread k0 (fun t => { t with st := .exited }),
    _, _, _, _, rfl, rfl, rfl, rfl, rfl, by decide +kernel⟩

theorem meets_TransfersRule : ∃ (s : State) (p : Pass), s.Due [.sel (.v 0) 2] p ∧
    ∀ c ∈ p.ctxs s, c.guard .always = .ok true ∧ ∃ x, c.read 0 (.sel (.v 0) 2) = .ok x ∧ (dwordOf x).toNat % 4 = 0 ∧
      (dwordOf x).toNat < 2 ^ 55 :=
  ⟨regs 0xFFFFFFFC 0x7FFFFF 0 0, _, ⟨_, rfl, rfl, by decide⟩, forall_one rfl ⟨rfl, _, rfl, by decide +kernel, by decide +kernel⟩⟩

/-- A target that is odd, and one just past the last address. -/
theorem meets_TransferFaultsRule : ∃ (s t : State) (p q : Pass), s.Due [.sel (.v 0) 2] p ∧ t.Due [.sel (.v 0) 2] q ∧
    (∀ c ∈ p.ctxs s, c.guard .always = .ok true ∧ ∃ x, c.read 0 (.sel (.v 0) 2) = .ok x ∧ (dwordOf x).toNat % 4 ≠ 0) ∧
    ∀ c ∈ q.ctxs t, c.guard .always = .ok true ∧ ∃ x, c.read 0 (.sel (.v 0) 2) = .ok x ∧ (dwordOf x).toNat % 4 = 0 ∧
      2 ^ 55 ≤ (dwordOf x).toNat :=
  ⟨regs 1 0 0 0, regs 0 0x800000 0 0, _, _, ⟨_, rfl, rfl, by decide⟩, ⟨_, rfl, rfl, by decide⟩, forall_one rfl ⟨rfl, _, rfl, by decide +kernel⟩,
    forall_one rfl ⟨rfl, _, rfl, by decide +kernel, by decide +kernel⟩⟩

theorem meets_NopWord : ¬ ((70#7 = 70#7) ∧ (70#7 = 70#7) ∧ (71#7 = 70#7)) ∧
    ∃ (s : State) (p : Pass), s.Due [] p ∧ (∀ c ∈ p.ctxs s, ∃ b, c.guard .always = .ok b) ∧ (∃ b, Tab.find s.bundles p.port = some b) ∧
      ∀ k ∈ p.keys, ∃ y, s.thread k = some y ∧ y.st = .issuing :=
  ⟨by decide, base, _, ⟨_, rfl, rfl, by decide⟩, forall_one rfl ⟨_, rfl⟩, ⟨_, rfl⟩, forall_one rfl ⟨_, rfl, rfl⟩⟩

/-- A thread of `base` reads two operands of 32 bits; SWRITE of VIX names no FLOOR; and KILL of v4, v5 and z names no extended register. -/
theorem meets_ThreadWords : WReg.vix ≠ WReg.floor ∧ ∃ (s : State) (p : Pass), s.Due [.sel (.v 0) 1, bI32 (.sel (.v 1))] p ∧
    ∀ c ∈ p.ctxs s, c.guard .always = .ok true ∧
      (∃ x y, c.read 0 (.sel (.v 0) 1) = .ok x ∧ c.read 1 (bI32 (.sel (.v 1))) = .ok y) ∧
      ∀ l ∈ killLoc (.v 4) ++ killLoc (.v 5) ++ killLoc .z, ¬ (32 ≤ l ∧ l < 64 ∧ c.w.ext = false) :=
  ⟨by decide, regs 5 3 0 0, _, ⟨_, rfl, rfl, by decide⟩, forall_one rfl ⟨rfl, ⟨_, _, rfl, rfl⟩, by decide +kernel⟩⟩

theorem meets_RegisterReads : ∃ (s : State) (p : Pass), s.Due [] p ∧ ∀ c ∈ p.ctxs s, c.guard .always = .ok true ∧
    (∃ locs, c.dest (some (.v 2, 2)) = .ok locs ∧ c.writeCheck locs = none) ∧ s.special c .clock = [0, 0] ∧ SReg.clock ≠ SReg.flags :=
  ⟨base, _, ⟨_, rfl, rfl, by decide⟩, forall_one rfl ⟨rfl, ⟨_, rfl, rfl⟩, by decide +kernel, by decide⟩⟩

/-- `base` with a handler. -/
def handled : State := base.modLaunch 0 (fun l => { l with ptvec := 0x20000 })

theorem meets_SoftwareTraps : ∃ (s : State) (p : Pass) (c0 : TCtx) (l : Launch) (b : Block), s.Due [] p ∧
    (∀ c ∈ p.ctxs s, ∃ b, c.guard .always = .ok b) ∧ (p.executing s free).head? = some c0 ∧ s.launchOf c0.key.warp = some l ∧
    Tab.find s.blocks c0.w.block = some b ∧ (if l.priv then l.ptvec else l.rcd.trap) ≠ 0 ∧
    (∀ c ∈ p.executing s free, c.th.handler = false ∧ c.w.launch = c0.w.launch) ∧ b.halt = none :=
  ⟨handled, _, _, _, _, ⟨_, rfl, rfl, by decide⟩, forall_one rfl ⟨_, rfl⟩, rfl, rfl, rfl, by decide +kernel, forall_one rfl ⟨rfl, rfl⟩, rfl⟩

theorem meets_ReservedOpcodesRule : ∃ (s : State) (p : Pass) (x : Thread), s.Now p ∧ p.keys ≠ [] ∧ s.thread k0 = some x ∧ x.pend = [] :=
  ⟨base, _, _, ⟨rfl, by decide⟩, List.cons_ne_nil _ _, rfl, rfl⟩

theorem meets_PrivilegeRule : ∃ (s : State) (p : Pass) (x : Thread), s.Now p ∧ p.priv = false ∧ p.keys = [k0] ∧ s.thread k0 = some x ∧
    x.handler = false ∧ x.pend = [] :=
  ⟨user base, _, _, ⟨rfl, by decide⟩, rfl, rfl, rfl, rfl, rfl⟩

/-! ### Scalar words -/

theorem meets_ScalarWordsRule : ∃ (s : State) (p : Pass), s.Now p ∧ (∀ c ∈ p.ctxs s, ∃ b, c.guard .always = .ok b) ∧
    ∀ c ∈ p.executing s free, ∃ ws, c.stri { h := free, d := .s 10, a := .s 8, b := .sel (.s 9) } (fun a b => a + b) = .ok ws ∧ ws.length = 1 ∧
      c.sWriteCheck (.s 10) 1 = none ∧ FirstOfWarp (p.executing s free) c :=
  ⟨base, _, ⟨rfl, by decide⟩, forall_one rfl ⟨_, rfl⟩, forall_one rfl ⟨_, rfl, rfl, rfl, rfl⟩⟩

theorem meets_ScalarCompareAndVtosRule : ∃ (s : State) (p q : Pass), s.Now p ∧ (∀ c ∈ p.ctxs s, ∃ b, c.guard .always = .ok b) ∧
    (∀ c ∈ p.executing s free, FirstOfWarp (p.executing s free) c ∧ ∃ a b, c.sread 0 (.s 8) 1 = .ok a ∧ c.sopnd (.sel (.s 9)) = .ok b) ∧
    s.Due [.sel (.v 0) 1] q ∧ (∀ c ∈ q.ctxs s, ∃ b, c.guard .always = .ok b) ∧
    ∀ c ∈ q.executing s free, FirstOfWarp (q.executing s free) c ∧ (∃ x, c.read 0 (.sel (.v 0) 1) = .ok x) ∧
      TCtx.sWriteCheck { c with wslot := c.slot } (.s 10) 1 = none :=
  ⟨base, _, _, ⟨rfl, by decide⟩, forall_one rfl ⟨_, rfl⟩, forall_one rfl ⟨rfl, _, _, rfl, rfl⟩, ⟨_, rfl, rfl, by decide⟩, forall_one rfl ⟨_, rfl⟩,
    forall_one rfl ⟨rfl, ⟨_, rfl⟩, rfl⟩⟩

theorem meets_FloorWords : ∃ (s : State) (p : Pass) (k : TKey) (c : TCtx) (x : List Word) (w : Warp) (locs : List Nat),
    s.Due [.sel (.v 0) 2] p ∧ p.keys = [k] ∧ p.ctxs s = [c] ∧ c.guard .always = .ok true ∧ c.read 0 (.sel (.v 0) 2) = .ok x ∧
    Tab.find s.warps k.warp = some w ∧ c.dest (some (.v 2, 2)) = .ok locs ∧ c.writeCheck locs = none :=
  ⟨regs 5 3 0 0, _, _, _, _, _, _, ⟨_, rfl, rfl, by decide⟩, rfl, rfl, rfl, rfl, rfl, rfl, rfl⟩

/-! ### Barriers, exits, the extended block -/

/-- A barrier of the block. -/
def barW : BarW := { h := free, level := 1, num := 0 }

theorem barMay_base (b : Bool) : BarrierMay base (base.pass.getD
    { port := 0, bundle := 0, launch := 0, rcd := tableRecord 0, priv := true, part := 0, keys := [], start := 0, dur := 1, pos := 0, first := 0,
      pc := 0, hdr := Header.ofWord 0, size := 0, fresh := 0, walked := [] }) barW b :=
  ⟨⟨rfl, by decide⟩, forall_one rfl ⟨_, rfl⟩, forall_one rfl rfl, forall_one rfl ⟨rfl, rfl, by decide, fun _ => ⟨rfl, rfl⟩⟩⟩

theorem meets_BarrierArrivalRule : ∃ (s : State) (p : Pass), BarrierMay s p barW true ∧
    ∀ c ∈ p.executing s free, ∃ k, s.barKey c.key 1 0 = some k ∧ c.th.arrivedAt k ≠ some (s.bar k).phase :=
  ⟨base, _, barMay_base true, forall_one rfl ⟨_, rfl, by decide +kernel⟩⟩

/-- `base` with its thread arrived at barrier 0 of the block, in the phase that stands. -/
def arrived : State := base.modThread k0 (fun t => { t with arrival := [{ level := 1, num := 0, phase := 0 }] })

/-- A thread whose phase has yet to complete waits; one whose phase is over goes on. -/
theorem meets_BarrierWaitRule_barw : ∃ (s t : State) (p q : Pass), BarrierMay s p barW false ∧ BarrierMay t q barW false ∧
    (∀ c ∈ p.executing s free, ∃ k, s.barKey c.key 1 0 = some k ∧ c.th.arrivedAt k = some 0 ∧ (s.bar k).last = none ∧ ¬ 0 < (s.bar k).phase) ∧
    ∀ c ∈ q.executing t free, ∃ k, t.barKey c.key 1 0 = some k ∧ c.th.arrivedAt k = some 0 ∧ (t.bar k).last = none ∧ 0 < (t.bar k).phase :=
  ⟨arrived, arrived.putBar ⟨1, 1, 0⟩ { phase := 1, last := none }, _, _,
    ⟨⟨rfl, by decide⟩, forall_one rfl ⟨_, rfl⟩, forall_one rfl rfl, forall_one rfl ⟨rfl, rfl, by decide, fun _ => ⟨rfl, rfl⟩⟩⟩,
    ⟨⟨rfl, by decide⟩, forall_one rfl ⟨_, rfl⟩, forall_one rfl rfl, forall_one rfl ⟨rfl, rfl, by decide, fun _ => ⟨rfl, rfl⟩⟩⟩,
    forall_one rfl ⟨_, rfl, rfl, rfl, by decide +kernel⟩, forall_one rfl ⟨_, rfl, rfl, rfl, by decide +kernel⟩⟩

theorem meets_BarrierWaitRule_bar : ∃ (s : State) (p : Pass), BarrierMay s p barW true ∧
    ∀ c ∈ p.executing s free, ∃ k, s.barKey c.key 1 0 = some k ∧ c.th.arrivedAt k ≠ some (s.bar k).phase ∧ (s.bar k).last = none ∧
      ∃ m ∈ s.barMembers k, (∀ d ∈ p.executing s free, d.key ≠ m) ∧ ∃ z, s.thread m = some z ∧ z.counts k (s.bar k).phase = false :=
  ⟨other, _, ⟨⟨rfl, by decide⟩, forall_one rfl ⟨_, rfl⟩, forall_one rfl rfl, forall_one rfl ⟨rfl, rfl, by decide, fun _ => ⟨rfl, rfl⟩⟩⟩,
    forall_one rfl ⟨_, rfl, by decide +kernel, rfl, ⟨2, 1⟩, by decide +kernel, forall_one rfl (by decide +kernel), _, rfl, by decide +kernel⟩⟩

/-- A barrier of the block at which the one member waits. -/
def lastHere : State :=
  (arrived.putBar ⟨1, 1, 0⟩ { phase := 0, last := some 0 }).modThread k0 (fun t => { t with st := .waiting, wait := some (.barrier 1 0 0) })

theorem meets_BarrierPhase : ∃ (s : State) (k : BarKey), (s.bar k).last = some 0 ∧ s.barReady k = true ∧ s.barHere k = true ∧
    ∃ x, k0 ∈ s.barMembers k ∧ s.thread k0 = some x ∧ x.wait = some (.barrier k.level (barNum k) (s.bar k).phase) ∧
      x.counts k (s.bar k).phase = true :=
  ⟨lastHere, ⟨1, 1, 0⟩, rfl, rfl, rfl, _, by decide +kernel, rfl, rfl, by decide +kernel⟩

theorem whole_base : ∃ (w : Warp) (p : Pass), WholeWarp base p free 2 w ∧ w.ext = false ∧ base.extFree w = true ∧
    ∀ c ∈ p.executing base free, c.th.handler = false :=
  ⟨_, _, ⟨⟨rfl, by decide⟩, forall_one rfl rfl, rfl, rfl, List.cons_ne_nil _ _, forall_one rfl ⟨_, rfl⟩⟩, rfl, by decide +kernel,
    forall_one rfl rfl⟩

/-- `base` with its lane full: seven more warps on it. -/
def crowded : State :=
  (List.range 7).foldl (fun s i => match Tab.find s.warps 2 with
    | some w => { s with warps := Tab.put s.warps (10 + i) w }
    | none => s) base

/-- `base` with the extended block held. -/
def extended : State := base.modWarp 2 (fun w => { w with ext := true })

theorem meets_ExtendedBlock :
    (∃ (w : Warp) (p : Pass), WholeWarp base p free 2 w ∧ w.ext = false ∧ base.extFree w = true ∧ ∀ c ∈ p.executing base free, c.th.handler = false) ∧
    (∃ (w : Warp) (p : Pass), WholeWarp crowded p free 2 w ∧ w.ext = false ∧ crowded.extFree w = false ∧
      ∀ c ∈ p.executing crowded free, c.th.handler = false) ∧
    ∃ (w : Warp) (p : Pass), WholeWarp extended p free 2 w ∧ w.ext = true ∧ extended.laneQueue w.core w.lane = [] :=
  ⟨whole_base, ⟨_, _, ⟨⟨rfl, by decide⟩, forall_one rfl rfl, rfl, rfl, List.cons_ne_nil _ _, forall_one rfl ⟨_, rfl⟩⟩, rfl, by decide +kernel,
    forall_one rfl rfl⟩, _, _, ⟨⟨rfl, by decide⟩, forall_one rfl rfl, rfl, rfl, List.cons_ne_nil _ _, forall_one rfl ⟨_, rfl⟩⟩, rfl, rfl⟩

theorem meets_ExitWordRule : ∃ (s : State) (p : Pass), s.Now p ∧ (∀ c ∈ p.ctxs s, ∃ b, c.guard .always = .ok b) ∧
    (∀ k ∈ p.keys, s.redCopy k.warp = none) ∧
    ∀ c ∈ p.executing s free, s.exitDue c.key = false ∧ c.th.handler = false ∧ c.th.deferred = [] ∧ ∃ x, c.sread 0 .z 2 = .ok x :=
  ⟨base, _, ⟨rfl, by decide⟩, forall_one rfl ⟨_, rfl⟩, forall_one rfl rfl, forall_one rfl ⟨rfl, rfl, rfl, _, rfl⟩⟩

/-- A thread in handler state. -/
theorem meets_ExitWordRule_handler : ∃ (s : State) (p : Pass) (c : TCtx), s.Now p ∧ (∀ d ∈ p.ctxs s, ∃ b, d.guard .always = .ok b) ∧
    (∀ k ∈ p.keys, s.redCopy k.warp = none) ∧ p.executing s free = [c] ∧ c.th.handler = true ∧ s.exitDue c.key = false ∧ c.th.deferred = [] ∧
    (∃ x, c.sread 0 .z 2 = .ok x) ∧ k0 ∈ s.blockKeys c.w.block :=
  ⟨base.modThread k0 (fun t => { t with handler := true }), _, _, ⟨rfl, by decide⟩, forall_one rfl ⟨_, rfl⟩, forall_one rfl rfl, rfl, rfl, rfl, rfl,
    ⟨_, rfl⟩, by decide +kernel⟩

theorem meets_AssertWordRule : ∃ (s : State) (p : Pass) (c0 : TCtx) (l : Launch), s.Now p ∧ (∀ c ∈ p.ctxs s, ∃ b, c.guard .always = .ok b) ∧
    (∀ k ∈ p.keys, s.redCopy k.warp = none) ∧ (p.executing s free).head? = some c0 ∧ Tab.find s.launches p.launch = some l ∧
    ∀ c ∈ p.executing s free, s.exitDue c.key = false ∧ ∃ x, c.sread 0 (.s 2) 2 = .ok x :=
  ⟨base, _, _, _, ⟨rfl, by decide⟩, forall_one rfl ⟨_, rfl⟩, forall_one rfl rfl, rfl, rfl, forall_one rfl ⟨rfl, _, rfl⟩⟩

/-! ### Memory words -/

/-- A memory word of v0 and v1, with z as its offset. -/
def memW : MemW := { h := free, mm := none, d := .v 2, a := .v 0, b := .sel .z }

/-- The conditions of `MemoryMay` for a word of one thread on a page that is translated. -/
theorem memoryMay {s : State} {p : Pass} {l : Launch} {mw : MWord} {mods : Mods} {c : TCtx} {m : MPlan} {pg : Nat} {e : TlbEntry}
    (h1 : Tab.find s.launches p.launch = some l) (h2 : l.rcd.red = false) (hk : p.keys = [k0]) (h3 : s.redCopy 2 = none)
    (h4 : p.full s mods.ctr = false) (h5 : s.parkedOn p.core ≤ 256) (hc : p.ctxs s = [c]) (hg : c.guard mw.h.guard = .ok true)
    (hx : p.executing s mw.h = [c]) (ht : c.th.st = .issuing) (h6 : s.blocked c.key = false) (h7 : s.mirrorDue c.key = false)
    (h8 : s.writesDue c.key = false) (h9 : c.th.deferred = []) (hm : s.memPlan c mw mods = .ok m) (hv : m.pages = [pg])
    (he : Looks s p l mw mods pg e) (ha : Admits s l.xlat mw.kind m e) : MemoryMay s p l mw mods :=
  ⟨h1, h2, by simpa [hk, k0] using h3, h4, h5, forall_one hc ⟨_, hg⟩,
    forall_one hx ⟨by simp [ht], h6, h7, fun _ => h8, fun _ => h9, m, hm, forall_one hv ⟨e, he, ha⟩⟩⟩

theorem looks {s : State} {p : Pass} {l : Launch} {mw : MWord} {mods : Mods} {pg : Nat} {e : TlbEntry} {rest : List (Nat × Option WalkEnd)}
    (h : (s.lookPages p l.xlat ((plansOf s p mw mods).flatMap MPlan.pages) (mods.space != .par)).2 = (pg, some (.ok e)) :: rest) :
    Looks s p l mw mods pg e := by simp [Looks, h]

theorem meets_MemoryWords_load : ∃ (s : State) (p : Pass) (l : Launch), s.Due [.sel (.v 0) 2, .sel .z 1, .none, .none] p ∧
    MemoryMay s p l (MemW.load memW 4 false 1) (modsOf none p.rcd.mdef .ld 0) :=
  ⟨regs 0x100 0 0 0, _, _, ⟨_, rfl, rfl, by decide⟩, memoryMay rfl rfl rfl rfl rfl (by decide +kernel) rfl rfl rfl rfl rfl rfl rfl rfl rfl rfl
    (looks rfl) ⟨nofun, nofun⟩⟩

theorem meets_MemoryWords_store : ∃ (s : State) (p : Pass) (l : Launch), s.Due [.sel (.v 0) 2, .sel .z 1, .sel (.v 2) 1, .none] p ∧
    MemoryMay s p l (MemW.store memW 4 1) (modsOf none p.rcd.mdef .st 1) :=
  ⟨regs 0x100 0 7 0, _, _, ⟨_, rfl, rfl, by decide⟩, memoryMay rfl rfl rfl rfl rfl (by decide +kernel) rfl rfl rfl rfl rfl rfl rfl rfl rfl rfl
    (looks rfl) ⟨fun _ => ⟨rfl, rfl⟩, nofun⟩⟩

/-- A memory word of three registers. -/
def memS : MemS := { h := free, mm := none, d := .v 4, a := .v 0, b := .v 2 }

theorem meets_MemoryWords_asof : ∃ (s : State) (p : Pass) (l : Launch), s.Due [.sel (.v 0) 2, .none, .none, .sel (.v 2) 2] p ∧
    MemoryMay s p l (MemS.asof memS 4 1) (modsOf none p.rcd.mdef .as 3) :=
  ⟨regs 0x100 0 0x10000 0, _, _, ⟨_, rfl, rfl, by decide⟩, memoryMay rfl rfl rfl rfl rfl (by decide +kernel) rfl rfl rfl rfl rfl rfl rfl rfl rfl
    rfl (looks rfl) ⟨nofun, fun _ _ => ⟨by decide +kernel, rfl⟩⟩⟩

theorem meets_MemoryWords_atomic : ∃ (s : State) (p : Pass) (l : Launch), s.Due [.sel (.v 0) 2, .none, .sel (.v 4) 1, .sel (.v 2) 1] p ∧
    MemoryMay s p l (MemS.cas memS) (modsOf none p.rcd.mdef .at 2) :=
  ⟨regs 0x100 0 5 0, _, _, ⟨_, rfl, rfl, by decide⟩, memoryMay rfl rfl rfl rfl rfl (by decide +kernel) rfl rfl rfl rfl rfl rfl rfl rfl rfl rfl
    (looks rfl) ⟨fun _ => ⟨rfl, rfl⟩, nofun⟩⟩

/-- `regs` after a store to address 0x100 has issued, its thread at a further word. -/
def storeSent : State :=
  match exec (.stw memW) (regs 0x100 0 7 0) with
  | .next s => { base with reqs := s.reqs, uid := s.uid, warps := s.warps.map (fun w => (w.1, { w.2 with threads := w.2.threads.map (fun t =>
      { t with st := .issuing }) })) }
  | _ => base

/-- A fence. -/
def fence : FenceW := { h := free, scope := .dev }

/-- A fence with nothing in flight, and one behind a store. -/
theorem meets_FencesRule : ∃ (s t : State) (p q : Pass), FenceMay s p fence ∧ FenceMay t q fence ∧ p.executing s free ≠ [] ∧
    (∀ c ∈ p.executing s free, ∀ r ∈ s.reqs, r.of c.key = true → r.access_ = true → false = true) ∧
    ∃ c ∈ q.executing t free, ∃ r ∈ t.reqs, r.of c.key = true ∧ r.access_ = true :=
  ⟨base, storeSent, _, _, ⟨⟨rfl, by decide⟩, forall_one rfl ⟨_, rfl⟩, forall_one rfl rfl, forall_one rfl rfl⟩,
    ⟨⟨rfl, by decide⟩, forall_one rfl ⟨_, rfl⟩, forall_one rfl rfl, forall_one rfl rfl⟩, List.cons_ne_nil _ _,
    forall_one rfl (fun _ h => nomatch h), _, List.mem_cons_self, _, List.mem_cons_self, rfl, rfl⟩

/-- `base` with its warp's scalar registers s8 and s9 holding the address 0x100. -/
def scalars : State := base.modWarp 2 (fun w => { w with s := (w.s.set 8 0x100).set 9 0 })

/-- An SLD of s10 from s8 with z as its offset. -/
def sld : SLdW := { h := free, mm := none, d := .s 10, a := .s 8, b := .sel .z }

set_option maxRecDepth 20000 in
theorem meets_ScalarLoadsAndSettleRule_sld : ∃ (s : State) (p : Pass) (l : Launch) (mods : Mods) (c : TCtx) (m : MPlan) (pg : Nat)
      (a off : List Word) (e : TlbEntry),
    mods = modsOf none p.rcd.mdef .ld 0 ∧ s.Now p ∧ Tab.find s.launches p.launch = some l ∧ (∀ k ∈ p.keys, s.redCopy k.warp = none) ∧
    p.full s mods.ctr = false ∧ s.parkedOn p.core ≤ 256 ∧ (∀ c ∈ p.ctxs s, ∃ b, c.guard .always = .ok b) ∧ p.executing s free = [c] ∧
    s.blocked c.key = false ∧ s.mirrorDue c.key = false ∧ c.th.deferred = [] ∧ c.th.st ≠ .parked ∧ FirstOfWarp [c] c ∧
    s.sldPlan c sld mods = .ok m ∧ m.pages = [pg] ∧
    (pg, some (WalkEnd.ok e)) ∈ (s.lookPages p l.xlat ((byWarp (p.executing s free)).flatMap (fun g =>
      match g.2.head?.map (fun d => s.sldPlan d sld mods) with | some (.ok m) => m.pages | _ => [])) (mods.space != .par)).2 ∧
    c.sread 0 (.s 8) 2 = .ok a ∧ c.soff (.sel .z) = .ok off ∧ mods.ctr < 6 :=
  ⟨scalars, _, _, _, _, _, _, _, _, _, rfl, ⟨rfl, by decide⟩, rfl, forall_one rfl rfl, rfl, by decide +kernel, forall_one rfl ⟨_, rfl⟩, rfl, rfl,
    rfl, rfl, by decide +kernel, rfl, rfl, rfl, List.mem_cons_self, rfl, rfl, by decide +kernel⟩

/-- A stamp that SETTLED has not reached. -/
theorem meets_ScalarLoadsAndSettleRule_settle : ∃ (s : State) (p : Pass) (mods : Mods), mods = modsOf none p.rcd.mdef .se 3 ∧
    s.Due [.sel (.v 0) 2] p ∧ p.full s mods.ctr = false ∧ mods.ctr < 6 ∧
    ∀ c ∈ p.ctxs s, c.guard .always = .ok true ∧ ∃ x, c.read 0 (.sel (.v 0) 2) = .ok x ∧ ¬ (dwordOf x).toNat ≤ s.settled.toNat :=
  ⟨regs 0 1 0 0, _, _, rfl, ⟨_, rfl, rfl, by decide⟩, rfl, by decide +kernel, forall_one rfl ⟨rfl, _, rfl, by decide +kernel⟩⟩

/-- A prefetch whose address has a translation. -/
theorem meets_ScalarLoadsAndSettleRule_pref : ∃ (s : State) (p : Pass) (l : Launch) (c : TCtx) (e : TlbEntry) (va : Nat),
    s.Due [.sel (.v 0) 2, .sel .z 1] p ∧ Tab.find s.launches p.launch = some l ∧ c ∈ p.executing s free ∧
    s.prefOf c (modsOf none p.rcd.mdef .pf 7).space (.sel (.v 0) 2) (.sel .z 1) l.xlat = (some e, va) :=
  ⟨regs 0x100 0 0 0, _, _, _, _, _, ⟨_, rfl, rfl, by decide⟩, rfl, List.mem_cons_self, rfl⟩

/-! ### Tags -/

/-- Key 5 in v0 and v1, of a core whose tag table is `tab`. -/
def tagged (tab : TagTable) (d : Word) : State := (regs 5 0 d 0).modCore 0 (fun c => { c with tags := tab })

/-- A table of one set of one way. -/
def oneWay (key : Dword) : TagTable := { ls := 0, lw := 0, lz := 6, base := 0, ways := [⟨0, 0, key, 1⟩], clock := 1 }

/-- What a tag word reads and may write, in a pass of one thread. -/
def TagSeen (s : State) (v : VWord) (srcs : List Src) (key : Dword) : Prop :=
  ∃ p c a x locs, s.Due srcs p ∧ p.keys = [k0] ∧ p.ctxs s = [c] ∧ c.guard v.h.guard = .ok true ∧ c.read 0 v.a = .ok a ∧ c.read 2 v.c = .ok x ∧
    c.dest v.d = .ok locs ∧ c.writeCheck locs = none ∧ dwordOf a = key

/-- TAGL of a key that is there, one whose set has room, and one whose set has none. -/
theorem meets_TagWords_tagl :
    TagSeen (tagged (oneWay 5) 0) (quietWord free (.sel (.v 0) 2) .none (some (.v 2, 1))) [.sel (.v 0) 2] 5 ∧
    (∃ w ∈ (oneWay 5).ways, w.set = (5 : Dword).toNat % 2 ^ 0 ∧ w.key = 5) ∧
    TagSeen base (quietWord free (.sel (.v 0) 2) .none (some (.v 2, 1))) [.sel (.v 0) 2] 0 ∧ (base.core 0).tags.ways = [] ∧
    TagSeen (tagged (oneWay 9) 0) (quietWord free (.sel (.v 0) 2) .none (some (.v 2, 1))) [.sel (.v 0) 2] 5 ∧
    (∀ y ∈ (oneWay 9).ways, y.key ≠ 5) ∧ ∀ j, j < 2 ^ 0 → ∃ y ∈ (oneWay 9).ways, y.way = j :=
  ⟨⟨_, _, _, _, _, ⟨_, rfl, rfl, by decide⟩, rfl, rfl, rfl, rfl, rfl, rfl, rfl, rfl⟩, by decide,
    ⟨_, _, _, _, _, ⟨_, rfl, rfl, by decide⟩, rfl, rfl, rfl, rfl, rfl, rfl, rfl, rfl⟩, rfl,
    ⟨_, _, _, _, _, ⟨_, rfl, rfl, by decide⟩, rfl, rfl, rfl, rfl, rfl, rfl, rfl, rfl⟩, by decide, by decide⟩

/-- TAGS at the last slot of the table, TAGI of a key, and TAGC of the geometry 3, 2, 6 at base 64. -/
theorem meets_TagWords_others :
    TagSeen (tagged { oneWay 9 with ls := 10, lw := 2 } 4095) (quietWord free (.sel (.v 0) 2) (.sel (.v 2) 1) none) [.sel (.v 0) 2, .sel (.v 2) 1] 5 ∧
    4095 < 2 ^ 10 * 2 ^ 2 ∧
    TagSeen (tagged (oneWay 5) 0) (quietWord free (.sel (.v 0) 2) .none none) [.sel (.v 0) 2] 5 ∧
    TagSeen (regs 0x623 64 0 0) (quietWord free (.sel (.v 0) 2) .none none) [.sel (.v 0) 2] 0x4000000623 ∧
    (let n := 0x4000000623
     n / 2 ^ 52 = 0 ∧ n / 2 ^ 13 % 2 ^ 19 = 0 ∧ n / 2 ^ 32 % 2 ^ 20 % 2 ^ (n / 2 ^ 8 % 32) = 0 ∧ 4 ≤ n / 2 ^ 8 % 32 ∧ n / 2 ^ 8 % 32 ≤ 16 ∧
     n % 16 + n / 16 % 16 ≤ 12) ∧
    ∃ b, Tab.find base.blocks 1 = some b ∧ 64 + 2 ^ (3 + 2 + 6) ≤ b.size :=
  ⟨⟨_, _, _, _, _, ⟨_, rfl, rfl, by decide⟩, rfl, rfl, rfl, rfl, rfl, rfl, rfl, rfl⟩, by decide,
    ⟨_, _, _, _, _, ⟨_, rfl, rfl, by decide⟩, rfl, rfl, rfl, rfl, rfl, rfl, rfl, rfl⟩,
    ⟨_, _, _, _, _, ⟨_, rfl, rfl, by decide⟩, rfl, rfl, rfl, rfl, rfl, rfl, rfl, rfl⟩, by decide, _, rfl, by decide +kernel⟩

/-! ### Memory at its place -/

/-- The state with one request of its thread in flight. -/
def sent (k : ReqKind) (place : Place) (pa : Nat) (dst : List Nat) (stage : Stage) : State :=
  { base with reqs := [
      { id := 9, launch := 0, gen := 0, core := 0, lane := 0, word := 5, tpc := 0, kind := k, place := place, va := 0x100, xlat := { part := 0, vf := 0, asid := 0, s1root := 0x20000, s2root := 0 }, tlb := none, pa := pa, pa2 := 0,
        attrs := { cache := 0, sa := true, sc := false, hist := true, write := true, exec := true }, hint := .keep, acq := false, rel := false,
        ctr := 1, floor := 0,
        parts := [{ thread := k0, dst := dst, x := 3, cmp := 0, pre := none, access := 0, word := 5, value := [0x77] }],
        sdst := none, order := 1, slice := homeSlice pa, stage := stage, due := 0, stamp := 0, raise := some 0x10000, ue := false, gone := false, issued := [],
        killA := [], left := [1] }] }

/-- The request of `sent`, if it is the one that a state holds. -/
def Holds9 (s : State) (r : Req) : Prop := s.reqs.find? (fun y => y.id == 9) = some r

/-- What SLICE_COMMIT needs of a request of a state, the page's history apart. -/
def CommitSeen (s : State) (r : Req) : Prop :=
  Holds9 s r ∧ r.place = .global ∧ s.sliceMay r = true ∧ s.mem.wf = true ∧ s.reqShadow r = false ∧ r.slice = homeSlice r.pa ∧
  (∀ e, r.tlb = some e → ∀ a ∈ e.leaf1 :: e.leaf2.toList, natBit (s.mem.nat a 8) 9 = true) ∧
  (s.slice (homeSlice r.pa)).last.toNat < 2 ^ 63 ∧ (s.slice (homeSlice r.pa)).tick.toNat < 2 ^ 47 ∧ s.refTick.toNat < 2 ^ 47 ∧ r.floor.toNat < 2 ^ 63

theorem commitSeen {s : State} {r : Req} (h1 : Holds9 s r) (h2 : r.place = .global) (h3 : s.sliceMay r = true) (h4 : s.mem.wf = true)
    (h5 : s.reqShadow r = false) (h6 : r.slice = homeSlice r.pa) (h7 : r.tlb = none)
    (h8 : (s.slice (homeSlice r.pa)).last.toNat < 2 ^ 63 ∧ (s.slice (homeSlice r.pa)).tick.toNat < 2 ^ 47 ∧ s.refTick.toNat < 2 ^ 47 ∧
      r.floor.toNat < 2 ^ 63) : CommitSeen s r :=
  ⟨h1, h2, h3, h4, h5, h6, by simp [h7], h8.1, h8.2.1, h8.2.2.1, h8.2.2.2⟩

/-- The state of `sent` with room for `n` entries, and its request on a page with history or without. -/
def writing (k : ReqKind) (n : Nat) (hist : Bool) : State :=
  { (sent k .global 0x100 [2] .sent).modPart 0 (fun p => { p with poolSize := n }) with
    reqs := (sent k .global 0x100 [2] .sent).reqs.map (fun r => { r with attrs := { r.attrs with hist := hist } }) }

/-- A store and an atomic at address 0x100 of a historied page, with room in the partition's pool; and of a page without history. -/
theorem meets_SliceCommit : ∀ k ∈ [ReqKind.store [1, 2, 3, 4], .stamped [1, 2, 3, 4], .atomic .add false false],
    (∃ r q, CommitSeen (writing k 4 true) r ∧ r.kind = k ∧ r.parts = [q] ∧ r.attrs.hist = true ∧ lineOf r.pa ∉ (writing k 4 true).poison ∧
      ((writing k 4 true).part ((writing k 4 true).reqPart r)).live < ((writing k 4 true).part ((writing k 4 true).reqPart r)).cap) ∧
    ∃ r, CommitSeen (writing k 0 false) r ∧ r.kind = k ∧ r.attrs.hist = false := by
  intro k hk
  simp only [List.mem_cons, List.not_mem_nil, or_false] at hk
  obtain rfl | rfl | rfl := hk <;>
  exact ⟨⟨_, _, commitSeen rfl rfl (by decide +kernel) rfl rfl rfl rfl (by decide +kernel), rfl, rfl, rfl, by decide +kernel, by decide +kernel⟩,
    _, commitSeen rfl rfl (by decide +kernel) rfl rfl rfl rfl (by decide +kernel), rfl, rfl⟩

/-- A store that the hold at stamp 1 stops: the pool has no room, and its entry would be the first to go. -/
def stopped : State := (writing (.store [1, 2, 3, 4]) 0 true).modPart 0 (fun p => { p with hold := 1, horizon := 0 })

theorem meets_SliceCommit_stall : ∃ r, CommitSeen stopped r ∧ r.writes = true ∧ r.attrs.hist = true ∧
    stopped.wouldStall (stopped.reqPart r) (stopped.assignStamp (homeSlice r.pa) r.floor).2 = true ∧ r.stage = .sent :=
  ⟨_, commitSeen rfl rfl (by decide +kernel) rfl rfl rfl rfl (by decide +kernel), rfl, rfl, by decide +kernel, rfl⟩

/-- What SLICE_LOAD needs of a request of a state. -/
def ReadSeen (s : State) (r : Req) : Prop := Holds9 s r ∧ s.current r = true ∧ s.sliceMay r = true ∧ s.reqRed r = false

/-- A load at address 0x100, an LSTAMP there, and a read of parameter space of which 2 bytes are backed, the second in the next page. -/
theorem meets_SliceReads : (∃ s r, ReadSeen s r ∧ r.kind = .load 4 false ∧ r.place = .global ∧ ∀ l ∈ r.linesOf 4, l ∉ s.poison) ∧
    (∃ s r, ReadSeen s r ∧ r.kind = .load 4 false ∧ r.place = .param 2 ∧ (∀ l ∈ r.linesOf (min 4 2), l ∉ s.poison) ∧
      r.pa % 65536 + 0 < 65536 ∧ ¬ r.pa % 65536 + 1 < 65536) ∧
    (∃ s r, ReadSeen s r ∧ r.kind = .lstamp ∧ r.place = .global) ∧
    ∃ (s : State) (r : Req) (line : List Byte) (x : Dword), Holds9 s r ∧ r.kind = .asof 4 0 ∧ s.asofMay r 0 = true ∧ s.reqRed r = false ∧
      s.asofLine (s.reqPart r) (lineOf r.pa) 0 = .found line x ∧ s.dataLine (lineOf r.pa) = lineOf r.pa :=
  ⟨⟨sent (.load 4 false) .global 0x100 [2] .sent, _, ⟨rfl, rfl, by decide +kernel, rfl⟩, rfl, rfl, by decide +kernel⟩,
    ⟨sent (.load 4 false) (.param 2) 0xFFFF [2] .sent, _, ⟨rfl, rfl, by decide +kernel, rfl⟩, rfl, rfl, by decide +kernel, by decide +kernel,
      by decide +kernel⟩,
    ⟨sent .lstamp .global 0x100 [2] .sent, _, ⟨rfl, rfl, by decide +kernel, rfl⟩, rfl, rfl⟩,
    sent (.asof 4 0) .global 0x100 [2] .sent, _, _, _, rfl, rfl, by decide +kernel, rfl, rfl, rfl⟩

/-- A line whose own stamp is at or below S. -/
theorem meets_SliceReads_own : ∃ (s : State) (r : Req) (line : List Byte) (x : Dword) (m : LineMeta), Holds9 s r ∧ r.kind = .asof 4 5 ∧
    s.asofMay r 5 = true ∧ s.reqRed r = false ∧ s.asofLine (s.reqPart r) (lineOf r.pa) 5 = .found line x ∧
    Tab.find s.lineMeta (lineOf r.pa) = some m ∧ m.stamp.toNat ≤ (5 : Dword).toNat ∧ s.dataLine (lineOf r.pa) = lineOf r.pa :=
  ⟨{ sent (.asof 4 5) .global 0x100 [2] .sent with
      settled := 5
      lineMeta := [(lineOf 0x100, { stamp := 5, link := none, cut := false })] }, _, _, _, _, rfl, rfl, by decide +kernel, rfl, rfl, rfl,
    by decide +kernel, rfl⟩

/-- The state of a served request of number 9 whose word awaits `left` responses, to a register that awaits it. -/
def answered (k : ReqKind) (left : Nat) (f : Req → Req) : State :=
  { (sent k .global 0x100 [2] .served).modWarp 2 (fun w =>
      { w with ctr := w.ctr.set 1 1, out := [{ word := 5, ctr := 1, left := left, floor := 0 }],
               sasync := [{ reg := 10, word := 5, req := 9, bundle := 0, value := none, lost := false }],
               threads := w.threads.map (fun t => { t with async := [{ loc := 2, word := 5, req := 9, idx := 0, value := none, lost := false }] }) })
    with reqs := (sent k .global 0x100 [2] .served).reqs.map f }

/-- What MEM_RESPONSE needs of a request of a state. -/
def ResponseSeen (s : State) (r : Req) : Prop :=
  s.reqs.find? (fun z => z.id == 9 && z.stage == .served) = some r ∧ s.current r = true ∧ s.reqRed r = false

/-- A load's response, the last of its word and one of two, to a register that awaits it. -/
theorem meets_MemResponse : ∀ n ∈ [1, 2], ∃ (s : State) (r : Req) (q : Part) (y : Thread) (w : Warp) (e : OutWord), ResponseSeen s r ∧
    r.ue = false ∧ r.gone = false ∧ r.parts = [q] ∧ q.dst.Nodup ∧ r.sdst = none ∧ s.thread q.thread = some y ∧ y.st ≠ .exited ∧
    (∃ a ∈ y.async, a.req = 9 ∧ a.loc = 2 ∧ a.lost = false) ∧ Tab.find s.warps 2 = some w ∧ w.out = [e] ∧ e.word ∈ r.wordIds ∧ r.ctr ≠ 7 ∧
    e.left = n := by
  intro n hn
  simp only [List.mem_cons, List.not_mem_nil, or_false] at hn
  obtain rfl | rfl := hn <;>
  exact ⟨answered (.load 4 false) _ id, _, _, _, _, _, ⟨rfl, rfl, rfl⟩, rfl, rfl, rfl, by decide, rfl, rfl, by decide +kernel,
    ⟨_, List.mem_cons_self, rfl, rfl, rfl⟩, rfl, rfl, by decide +kernel, by decide +kernel, rfl⟩

/-- A scalar load's response; a global store's on no counter; and a response that carries an error. -/
theorem meets_MemResponse_others :
    (∃ (s : State) (r : Req) (q : Part) (w : Warp), ResponseSeen s r ∧ r.ue = false ∧ r.gone = false ∧ r.sdst = some 10 ∧ r.parts = [q] ∧
      Tab.find s.warps q.thread.warp = some w ∧ ∃ a ∈ w.sasync, a.req = 9 ∧ a.reg = 10 ∧ a.lost = false) ∧
    (∃ (s : State) (r : Req) (q : Part) (w : Warp) (x : Dword), ResponseSeen s r ∧ r.ctr = 7 ∧ r.globalWrite = true ∧ r.raise = some x ∧
      r.parts = [q] ∧ Tab.find s.warps q.thread.warp = some w ∧ w.out = []) ∧
    ∃ (s : State) (r : Req) (e : Part × Nat) (y : Thread), ResponseSeen s r ∧ r.ue = true ∧ r.parts.zip r.issued = [e] ∧
      s.thread e.1.thread = some y ∧ y.st ≠ .exited :=
  ⟨⟨answered (.load 4 false) 1 (fun r => { r with sdst := some 10 }), _, _, _, ⟨rfl, rfl, rfl⟩, rfl, rfl, rfl, rfl, rfl, _, List.mem_cons_self,
      rfl, rfl, rfl⟩,
    ⟨{ sent (.store [1]) .global 0x100 [] .served with reqs := (sent (.store [1]) .global 0x100 [] .served).reqs.map (fun r => { r with ctr := 7 }) },
      _, _, _, _, ⟨rfl, rfl, rfl⟩, rfl, rfl, rfl, rfl, rfl, rfl⟩,
    answered (.load 4 false) 1 (fun r => { r with ue := true, issued := [3] }), _, _, _, ⟨rfl, rfl, rfl⟩, rfl, rfl, rfl, by decide +kernel⟩

/-- What CLUSTER_WINDOW_WRITE needs of a request of a state, to the scratchpad of core `q`. -/
def WindowSeen (s : State) (r : Req) (q : Nat) (k : ReqKind) : Prop :=
  Holds9 s r ∧ r.kind = k ∧ s.windowMay r = true ∧ (s.core q).scratch.wf = true

/-- The state of `sent` with a lock on bytes 0x40 to 0x44 of core 1. -/
def barred (s : State) : State :=
  s.modCore 1 (fun c => { c with locks := [{ op := 3, block := 1, space := .scratch, lo := 0x40, hi := 0x44, dst := true }] })

/-- A store, a load and an atomic through the cluster window at core 1, and at the own scratchpad; and a store that meets a lock there. -/
theorem meets_ScratchArrivals_window : (∀ k ∈ [ReqKind.store [1, 2, 3, 4], .load 4 false, .atomic .add false false],
      (∃ s r, WindowSeen s r 1 k ∧ r.place = .cluster 1 ∧ 1 ≠ r.core ∧ (s.core 1).locks = []) ∧
      ∃ s r, WindowSeen s r 0 k ∧ r.place = .scratch 0 ∧ 0 = r.core) ∧
    ∃ s r, WindowSeen s r 1 (.store [1, 2, 3, 4]) ∧ r.place = .cluster 1 ∧ 1 ≠ r.core ∧ ∃ l ∈ (s.core 1).locks, l.covers .scratch r.pa 4 = true := by
  refine ⟨?_, barred (sent (.store [1, 2, 3, 4]) (.cluster 1) 0x40 [] .sent), _, ⟨rfl, rfl, by decide +kernel, rfl⟩, rfl, by decide +kernel, _,
    List.mem_cons_self, by decide +kernel⟩
  intro k hk
  simp only [List.mem_cons, List.not_mem_nil, or_false] at hk
  obtain rfl | rfl | rfl := hk <;>
  exact ⟨⟨sent _ (.cluster 1) 0x40 [2] .sent, _, ⟨rfl, rfl, by decide +kernel, rfl⟩, rfl, by decide +kernel, rfl⟩,
    sent _ (.scratch 0) 0x40 [2] .sent, _, ⟨rfl, rfl, by decide +kernel, rfl⟩, rfl, rfl⟩

/-- A mirror store that core 1 has yet to take, in the window at `off` of its area. -/
def mirrored (off : BitVec 32) : State :=
  (((sent (.store [1, 2, 3, 4]) (.mirror 0 [1]) 0x40 [] .sent).modLaunch 0 (fun l =>
    { l with rcd := { l.rcd with mirrors := [⟨off.toNat, 0x100, 2, 0⟩, ⟨0, 0, 0, 0⟩, ⟨0, 0, 0, 0⟩, ⟨0, 0, 0, 0⟩] } })).modBlock 1 (fun b =>
      { b with areas := [(0, 0), (1, 0)] }))

/-- A mirror store within the member's area, and one past its end. -/
theorem meets_ScratchArrivals_mirror : ∀ b ∈ [true, false], ∃ (s : State) (r : Req) (n : Launch) (w : Mirror) (base size : Nat),
    Holds9 s r ∧ r.place = .mirror 0 [1] ∧ r.kind = .store [1, 2, 3, 4] ∧ Tab.find s.launches r.launch = some n ∧
    s.mirrorMay r 1 = true ∧ n.rcd.window 0 = some w ∧ s.mirrorArea r.launch 1 (s.reqShadow r) = some (base, size) ∧
    decide (w.base + r.mirrorOff + 4 ≤ size) = b ∧ (s.core 1).scratch.wf = true ∧ (s.core 1).locks = [] := by
  intro b hb
  simp only [List.mem_cons, List.not_mem_nil, or_false] at hb
  obtain rfl | rfl := hb
  · exact ⟨mirrored 0x100, _, _, _, _, _, rfl, rfl, rfl, rfl, rfl, rfl, rfl, by decide +kernel, rfl, rfl⟩
  · exact ⟨mirrored 0x7FFFFFFF, _, _, _, _, _, rfl, rfl, rfl, rfl, rfl, rfl, rfl, by decide +kernel, rfl, rfl⟩

/-! ### Words that hand a command over -/

/-- The conditions of `HandMay` for a pass of one thread with nothing in flight. -/
theorem handMay {s : State} {srcs : List Src} {p p0 : Pass} {c : TCtx} {b : Bundle} {r l counts : Bool} (h0 : s.pass = some p0)
    (h1 : p = { p0 with dur := p0.slotDur s srcs }) (hk : p.keys = [k0]) (hc : p.ctxs s = [c]) (hg : c.guard .always = .ok true)
    (hb : Tab.find s.bundles p.port = some b) (ha : b.acted = []) (hf : b.failed = []) (hr : s.redCopy 2 = none) (hl : s.blocked k0 = false)
    (hw : s.writesDue k0 = false) (hv : s.valuesDue k0 = false) (hn : p.full s 4 = false) (ho : c.w.out = []) :
    HandMay s p k0 c free srcs r l counts :=
  ⟨⟨p0, h0, h1, by simp [hk]⟩, hk, hc, hg, ⟨b, hb, ha, hf⟩, hr, hl, fun _ => ⟨hw, fun _ => hv⟩, fun _ => ⟨hn, by simp [ho]⟩⟩

theorem meets_MatrixWords : (∀ n arr, (n = 128 ∧ arr = 0x34) ∨ (n = 64 ∧ arr = 0x14) →
    ∃ (s : State) (p : Pass) (c : TCtx) (a : List Word) (x z : Nat), HandMay s p k0 c free [.sel (.v 0) 1] true true true ∧
      HandMay s p k0 c free [.sel (.v 0) 1] true true false ∧ c.read 0 (.sel (.v 0) 1) = .ok a ∧ (w0 a).toNat % n = 0 ∧
      s.ownBytes c.w.block p.core (w0 a).toNat n = some x ∧
      field (s.scratchGet p.core x n) arr 4 % 8 = 0 ∧ s.ownBytes c.w.block p.core (field (s.scratchGet p.core x n) arr 4) 8 = some z ∧
      (s.core p.core).locks = [] ∧ ((s.core p.core).mat.filter (fun o => !o.started)).length < 8) ∧
    ∃ (s : State) (p : Pass) (c : TCtx) (a b : List Word), HandMay s p k0 c free [.sel (.v 0) 1, bI32 (.sel (.v 1))] false false false ∧
      c.read 0 (.sel (.v 0) 1) = .ok a ∧ c.read 1 (bI32 (.sel (.v 1))) = .ok b ∧ (w0 a).toNat = 65535 ∧ (w0 b).toNat % 8 = 0 ∧
      (s.ownBytes c.w.block p.core (w0 b).toNat 8).isSome = true ∧ (s.core p.core).locks = [] ∧ (s.core p.core).mat = [] := by
  refine ⟨?_, regs 0xFFFF 8 0 0, _, _, _, _, handMay rfl rfl rfl rfl rfl rfl rfl rfl rfl rfl rfl rfl rfl rfl, rfl, rfl, rfl, rfl, rfl, rfl, rfl⟩
  rintro n arr (⟨rfl, rfl⟩ | ⟨rfl, rfl⟩) <;>
  exact ⟨regs 0x80 0 0 0, _, _, _, _, _, handMay rfl rfl rfl rfl rfl rfl rfl rfl rfl rfl rfl rfl rfl rfl,
    handMay rfl rfl rfl rfl rfl rfl rfl rfl rfl rfl rfl rfl rfl rfl, rfl, by decide +kernel, rfl, by decide +kernel, rfl, rfl, by decide +kernel⟩

theorem meets_ChainsAndStepsRule_kick : ∃ (s : State) (p : Pass) (c : TCtx) (a : List Word),
    HandMay s p k0 c free [.sel (.v 0) 1] true true true ∧
    c.read 0 (.sel (.v 0) 1) = .ok a ∧ (w0 a).toNat % 64 = 0 ∧ ((s.core p.core).copy.queue.filter (fun q => q.count == 0)).length < 16 :=
  ⟨regs 0x40 0 0 0, _, _, _, handMay rfl rfl rfl rfl rfl rfl rfl rfl rfl rfl rfl rfl rfl rfl, rfl, by decide +kernel, by decide +kernel⟩

/-- A rule descriptor: planes of 32 by 4 cells of one bit at 0x200 and 0x400, an arrival word at 0x180, four neighbours, and a target of one
generation. -/
def descBytes (mode target run : Nat) : List Byte :=
  leBytes 0x200 4 ++ leBytes 0x400 4 ++ leBytes 32 2 ++ leBytes 4 2 ++ [1, 1, 0, 0, BitVec.ofNat 8 mode, 0, 0, 0] ++ leBytes 0 4 ++ leBytes target 4 ++
    leBytes run 4 ++ leBytes 0x180 4

/-- A state with that descriptor at 0x100 and bound. -/
def ruled (s : State) (mode target run : Nat) : State :=
  s.modCore 0 (fun c => { c with scratch := c.scratch.puts 0x100 (descBytes mode target run), waffle := { c.waffle with bound := some (1, 0x100) } })

theorem meets_ChainsAndStepsRule_rstep : ∃ (s : State) (p : Pass) (c : TCtx) (a : List Word),
    HandMay s p k0 c free [.sel (.v 0) 1] true true true ∧
    c.read 0 (.sel (.v 0) 1) = .ok a ∧ (s.boundDesc p.core).isSome = true ∧ (s.waffle p.core).queue.length < 8 :=
  ⟨ruled base 0 0 0, _, _, _, handMay rfl rfl rfl rfl rfl rfl rfl rfl rfl rfl rfl rfl rfl rfl, rfl, rfl, by decide +kernel⟩

/-- `regs` with a capability that may send 4,096 bytes, and nothing more. -/
def capable : State := (regs 0 0x40 4096 0).modLaunch 0 (fun l =>
  { l with rcd := { l.rcd with capn := 1 }, caps := [{ valid := true, pkg := 0, part := 0, tag := 7, allow := 4096, rwrite := false, fire := true, send := true }] })

theorem meets_SendWordRule : ∃ (s : State) (p : Pass) (c : TCtx) (a b : List Word) (locs : List Nat) (l : Launch) (cap : Cap) (x : Nat),
    HandMay s p k0 c free [.sel (.v 0) 2, bI32 (.sel (.v 2))] true false true ∧ c.read 0 (.sel (.v 0) 2) = .ok a ∧ c.read 1 (bI32 (.sel (.v 2))) = .ok b ∧
    c.dest (some (.v 4, 1)) = .ok locs ∧ c.writeCheck locs = none ∧ Tab.find s.launches p.launch = some l ∧ (w0 a).toNat < l.rcd.capn ∧
    l.caps[(w0 a).toNat]? = some cap ∧ cap.valid = true ∧ cap.send = true ∧ (w0 b).toNat ≤ 4096 ∧ (w0 b).toNat ≤ cap.allow ∧
    s.ownBytes c.w.block p.core (dwordOf a).hi.toNat (w0 b).toNat = some x ∧ (s.core p.core).locks.length < 32 :=
  ⟨capable, _, _, _, _, _, _, _, _, handMay rfl rfl rfl rfl rfl rfl rfl rfl rfl rfl rfl rfl rfl rfl, rfl, rfl, rfl, rfl, rfl, by decide +kernel, rfl, rfl, rfl,
    by decide +kernel, by decide +kernel, rfl, by decide +kernel⟩

/-- A leaf at 0x20000 that maps every address below 2^42 to itself, with WRITE, EXEC, ACCESSED, DIRTY and SA set, on no historied page; `l` is its
low half-word. -/
def leafAt (l : Nat) (s : State) : State := { s with mem := s.mem.puts 0x20000 (leBytes l 2) }

/-- A state whose launch translates through that leaf. -/
def mapped (l : Nat) (s : State) : State := (leafAt l s).modLaunch 0 (fun x => { x with xlat := { x.xlat with s1root := 0x20000 } })

theorem meets_CkptWord : ∃ (s : State) (p : Pass) (c : TCtx) (a : List Word) (locs : List Nat) (l : Launch),
    HandMay s p k0 c free [.sel (.v 0) 2] true true true ∧ p.priv = true ∧ c.read 0 (.sel (.v 0) 2) = .ok a ∧ c.dest (some (.v 4, 1)) = .ok locs ∧
    c.writeCheck locs = none ∧ decodeAddr .glb (dwordOf a) = .glb 0x30000 ∧ 0x30000 % 64 = 0 ∧ Tab.find s.launches p.launch = some l :=
  ⟨regs 0x30000 0 0 0, _, _, _, _, _, handMay rfl rfl rfl rfl rfl rfl rfl rfl rfl rfl rfl rfl rfl rfl, rfl, rfl, rfl, rfl, rfl, by decide, rfl⟩

/-- A stream that has yet to read its descriptor at 0x30000, under the translation of a state's launch. -/
def opening (s : State) : Ckpt :=
  { id := 40, launch := 0, xlat := (s.launchOf 2).elim { part := 0, vf := 0, asid := 0, s1root := 0, s2root := 0 } Launch.xlat, thread := k0, core := 0,
    word := 5, dst := some 4, desc := 0x30000, base := 0, len := 0, ckid := 0, endpoint := 0, floor := 0, shadow := false, access := 0, chunk := 0,
    stage := .begin, data := [], status := none, due := 0 }

def streaming (s : State) : State := { s with ckpts := [opening s] }

/-- Whether a stream at its beginning finds what `f` says of its descriptor's page. -/
def Opens (s : State) (f : State → Except Nat (Option TlbEntry) → Prop) : Prop :=
  ∃ s' r, (streaming s).ckpts.find? (fun y => y.id == (opening s).id) = some (opening s) ∧ (opening s).shadow = false ∧ (opening s).status = none ∧
    (opening s).stage = .begin ∧ (streaming s).pausedDies.contains (dieOf (opening s).core) = false ∧
    (streaming s).ckptXlat (opening s).xlat (opening s).desc = (s', r) ∧ f s' r

/-- A page in a frame that firmware is moving, mapped through both stages. -/
def frozenPage : State :=
  (fun s : State => { s with
    mem := s.mem.puts 0x28000 (leBytes 0x33F 8)
    migrations := [{ part := 0, old := 0x30000, new := 0x50000, stage := 1, waits := [] }] })
  ((mapped 0x33F base).modLaunch 0 (fun l => { l with xlat := { l.xlat with s2root := 0x28000 } }))

/-- A descriptor's page without a translation; one whose frame is being moved; a poisoned descriptor; one of zero length; and a sound one, of one
chunk at 0x40000. -/
theorem meets_CkptWord_begin : Opens base (fun _ r => r = .error 2) ∧ Opens frozenPage (fun _ r => r = .ok none) ∧
    Opens { mapped 0x33F base with poison := [lineOf 0x30000] }
      (fun s r => ∃ e, r = .ok (some e) ∧ lineOf (e.phys 0x30000) ∈ s.poison) ∧
    Opens (mapped 0x33F base) (fun s r => ∃ e, r = .ok (some e) ∧ lineOf (e.phys 0x30000) ∉ s.poison ∧
      badDescriptor (s.mem.bytes (e.phys 0x30000) 64) = true) ∧
    Opens ((fun s : State => { s with mem := s.mem.puts 0x30000 (leBytes 0x40000 8 ++ leBytes 0x10000 8) }) (mapped 0x33F base))
      (fun s r => ∃ e, r = .ok (some e) ∧ lineOf (e.phys 0x30000) ∉ s.poison ∧ badDescriptor (s.mem.bytes (e.phys 0x30000) 64) = false) :=
  ⟨⟨_, _, rfl, rfl, rfl, rfl, rfl, rfl, rfl⟩, ⟨_, _, rfl, rfl, rfl, rfl, rfl, rfl, rfl⟩,
    ⟨_, _, rfl, rfl, rfl, rfl, rfl, rfl, _, rfl, by decide +kernel⟩,
    ⟨_, _, rfl, rfl, rfl, rfl, rfl, rfl, _, rfl, by decide +kernel, by decide +kernel⟩,
    _, _, rfl, rfl, rfl, rfl, rfl, rfl, _, rfl, by decide +kernel, by decide +kernel⟩

theorem test_ckptDescriptors : badDescriptor (leBytes 0 64) = true ∧ badDescriptor (leBytes 0x40000 8 ++ leBytes 0x10000 8 ++ leBytes 0 48) = false := by
  decide +kernel

/-! ### Words on a core's own memory -/

/-- What a word on its core needs in a pass of one thread, `pre` included. -/
def CoreSeen (s : State) (v : VWord) (pre : TCtx → State → Word → Word → Prop) : Prop :=
  ∃ p c a b locs, s.Due [v.a, v.b] p ∧ p.keys = [k0] ∧ p.ctxs s = [c] ∧ c.guard v.h.guard = .ok true ∧ c.read 0 v.a = .ok a ∧
    c.read 1 v.b = .ok b ∧ c.dest v.d = .ok locs ∧ c.writeCheck locs = none ∧ pre c s (w0 a) (w0 b)

theorem meets_EngineReads_arvi : CoreSeen (regs 0x180 7 0 0) (ownWord free (.sel (.v 0) 1) (bI32 (.sel (.v 1))) none 4 false)
    (fun c s a _ => s.accessDue c.key true = false ∧ (s.core c.p.core).scratch.wf = true ∧ a.toNat % 8 = 0 ∧
      (s.ownBytes c.w.block c.p.core a.toNat 8).isSome = true ∧ (s.core c.p.core).locks = []) :=
  ⟨_, _, _, _, _, ⟨_, rfl, rfl, by decide⟩, rfl, rfl, rfl, rfl, rfl, rfl, rfl, rfl, rfl, by decide +kernel, rfl, rfl⟩

/-- The last element of the last tile. -/
theorem meets_EngineReads_accld :
    CoreSeen (regs 1023 63 0 0) (ownWord free (.sel (.v 0) 1) (bI32 (.sel (.v 1))) (some (.v 2, 1)) 8 true)
      (fun c s a b => a.toNat < 1024 ∧ b.toNat < 64 ∧ (s.core c.p.core).tileLocked (a.toNat / 64) false = false) :=
  ⟨_, _, _, _, _, ⟨_, rfl, rfl, by decide⟩, rfl, rfl, rfl, rfl, rfl, rfl, rfl, by decide +kernel, by decide +kernel, rfl⟩

/-- `regs` with the own scratchpad's address 0x40 in v0 and v1, 8 in v2, and a lock on the eight bytes there. -/
def locked (dst : Bool) : State :=
  (regs 0x40 0xFF000000 8 0).modCore 0 (fun c => { c with locks := [{ op := 3, block := 1, space := .scratch, lo := 0x40, hi := 0x48, dst := dst }] })

/-- An access that a range lock meets, and one that none meets. -/
theorem meets_EngineReads_rlq : ∃ (s t : State) (p q : Pass) (c d : TCtx) (a b : List Word) (sp : LockSpace) (x : Nat),
    s.Due [.sel (.v 0) 2, bI32 (.sel (.v 2)), .none] p ∧ p.ctxs s = [c] ∧ c.guard .always = .ok true ∧ c.read 0 (.sel (.v 0) 2) = .ok a ∧
    c.read 1 (bI32 (.sel (.v 2))) = .ok b ∧ s.lockPlace c (dwordOf a) = some (sp, x) ∧
    (0 < (w0 b).toNat ∧ ∃ l ∈ (s.core p.core).locks, l.space = sp ∧ l.lo < x + (w0 b).toNat ∧ x < l.hi ∧ l.dst = true) ∧
    t.Due [.sel (.v 0) 2, bI32 (.sel (.v 2)), .none] q ∧ q.ctxs t = [d] ∧ d.read 0 (.sel (.v 0) 2) = .ok a ∧ t.lockPlace d (dwordOf a) = some (sp, x) ∧
    ∀ l ∈ (t.core q.core).locks, l.dst = false :=
  ⟨locked true, locked false, _, _, _, _, _, _, _, _, ⟨_, rfl, rfl, by decide⟩, rfl, rfl, rfl, rfl, rfl,
    ⟨by decide +kernel, _, List.mem_cons_self, rfl, by decide +kernel, by decide +kernel, rfl⟩, ⟨_, rfl, rfl, by decide⟩, rfl, rfl, rfl,
    by decide +kernel⟩

theorem meets_RuleWordsRule_rcfg : CoreSeen (ruled (regs 0x100 0 0 0) 0 0 0) (ownWord free (.sel (.v 0) 1) .none none 4 false)
    (fun c s a _ => s.accessDue c.key false = false ∧ (s.waffle c.p.core).queue = [] ∧ a.toNat % 64 = 0 ∧ ∃ ar x, s.ownArea c.w.block c.p.core = some ar ∧
      s.ownBytes c.w.block c.p.core a.toNat 64 = some x ∧ (ruleDesc (s.scratchGet c.p.core x 64)).ok ar.2 = true) :=
  ⟨_, _, _, _, _, ⟨_, rfl, rfl, by decide⟩, rfl, rfl, rfl, rfl, rfl, rfl, rfl, rfl, rfl, by decide +kernel, _, _, rfl, rfl, by decide +kernel⟩

/-- The whole table. -/
theorem meets_RuleWordsRule_rtld : CoreSeen (regs 0x40 4096 0 0) (ownWord free (.sel (.v 0) 1) (bI32 (.sel (.v 1))) none 4 false)
    (fun c s a b => s.accessDue c.key false = false ∧ (s.waffle c.p.core).queue = [] ∧ b.toNat % 2 = 0 ∧ 2 ≤ b.toNat ∧ b.toNat ≤ 4096 ∧ a.toNat % 4 = 0 ∧
      (s.ownBytes c.w.block c.p.core a.toNat (b.toNat / 2)).isSome = true ∧
      (s.waffle c.p.core).table.Pairwise (fun x y => x.1 < y.1)) :=
  ⟨_, _, _, _, _, ⟨_, rfl, rfl, by decide⟩, rfl, rfl, rfl, rfl, rfl, rfl, rfl, rfl, rfl, by decide +kernel, by decide +kernel, by decide +kernel,
    by decide +kernel, by decide +kernel, .nil⟩

/-- The rectangle of the tile's last cell, and of the whole tile. -/
theorem meets_RuleWordsRule_pack : ∀ a ∈ [(0x0101031F : Word), 0x04200000],
    CoreSeen (ruled (regs a 0x800 0 0) 0 0 0) (ownWord free (.sel (.v 0) 1) (bI32 (.sel (.v 1))) none 4 false)
      (fun c s a b => ∃ base d, RectMay c s a base d true ∧ b.toNat % 4 = 0 ∧
        (s.ownBytes c.w.block c.p.core b.toNat (4 * (rectOf a).h * (rectOf a).rowWords d)).isSome = true) := by
  simp only [List.mem_cons, List.not_mem_nil, or_false, forall_eq_or_imp, forall_eq]
  exact ⟨⟨_, _, _, _, _, ⟨_, rfl, rfl, by decide⟩, rfl, rfl, rfl, rfl, rfl, rfl, rfl, _, _,
      ⟨rfl, _, _, rfl, by decide +kernel, by decide +kernel, rfl, by decide +kernel⟩, by decide +kernel, by decide +kernel⟩,
    _, _, _, _, _, ⟨_, rfl, rfl, by decide⟩, rfl, rfl, rfl, rfl, rfl, rfl, rfl, _, _,
      ⟨rfl, _, _, rfl, by decide +kernel, by decide +kernel, rfl, by decide +kernel⟩, by decide +kernel, by decide +kernel⟩

theorem meets_RuleWordsRule_rcount : CoreSeen (ruled (regs 0x0101031F 15 0 0) 0 0 0)
    (ownWord free (.sel (.v 0) 1) (bI32 (.sel (.v 1))) (some (.v 2, 2)) 4 false) (fun c s a b => b.toNat ≤ 15 ∧ ∃ base d, RectMay c s a base d false) :=
  ⟨_, _, _, _, _, ⟨_, rfl, rfl, by decide⟩, rfl, rfl, rfl, rfl, rfl, rfl, rfl, by decide +kernel, _, _,
    ⟨rfl, _, _, rfl, by decide +kernel, by decide +kernel, rfl, by decide +kernel⟩⟩

theorem meets_RuleWordsRule_rgen : CoreSeen (ruled base 0 0 0) (ownWord free .none .none (some (.v 2, 2)) 4 false)
    (fun c s _ _ => (s.boundDesc c.p.core).isSome = true) :=
  ⟨_, _, _, _, _, ⟨_, rfl, rfl, by decide⟩, rfl, rfl, rfl, rfl, rfl, rfl, rfl, rfl⟩

/-- A state with one rule step queued, started or not. -/
def stepped (s : State) (started : Bool) : State :=
  s.modCore 0 (fun c => { c with waffle := { c.waffle with
    queue := [{ op := 3, block := 1, warp := 2, word := 5, g := 1, started := started, kept := false }] } })

theorem meets_AbortWordRule : ∀ started : Bool, ∃ (s : State) (p : Pass) (c : TCtx) (b : Bundle), s = stepped base started ∧ s.Now p ∧ p.keys = [k0] ∧
    p.ctxs s = [c] ∧ c.guard .always = .ok true ∧ c.th.wait = none ∧ Tab.find s.bundles p.port = some b ∧ b.acted = [] ∧
    ∀ o ∈ (s.waffle p.core).queue, o.started = started := by
  intro started
  cases started <;> exact ⟨_, _, _, _, rfl, ⟨rfl, by decide⟩, rfl, rfl, rfl, rfl, rfl, rfl, forall_one rfl rfl⟩

/-! ### The SYS words -/

theorem meets_ControlRegisters_csrr : ∃ (s : State) (p : Pass), p.priv = true ∧ s.Due [.none, .none, .none] p ∧
    ∀ c ∈ p.ctxs s, c.Completes (ownWord free .none .none (some (.v 2, 2)) 4 false) (fun c _ _ _ => ((s.controlsBy c.slot).control c .s1root, 0)) :=
  ⟨base, _, rfl, ⟨_, rfl, rfl, by decide⟩, forall_one rfl (.inr ⟨rfl, _, _, _, _, rfl, rfl, rfl, rfl⟩)⟩

/-- CSRW and HSET of a value in v0 and v1, with no control write on its way; the selected queue holds no request. -/
theorem meets_ControlRegisters_csrw : ∃ (s : State) (p : Pass) (c : TCtx) (x : List Word) (l : Launch), p.priv = true ∧ s.Due [.sel (.v 0) 2] p ∧
    p.keys = [k0] ∧ p.ctxs s = [c] ∧ c.guard .always = .ok true ∧ (p.executing s free).getLast? = some c ∧ c.read 0 (.sel (.v 0) 2) = .ok x ∧
    s.ctls = [] ∧ Tab.find s.launches p.launch = some l ∧ (s.queue l.selected).reqs = [] ∧ natBits (dwordOf x).toNat 48 15 = 0 ∧
    (dwordOf x).getLsbD 63 = false :=
  ⟨regs 0x10000 0 0 0, _, _, _, _, rfl, ⟨_, rfl, rfl, by decide⟩, rfl, rfl, rfl, rfl, rfl, rfl, rfl, rfl, by decide +kernel, by decide +kernel⟩

/-- Values of TICKHOLD with EN set, with one partition enabled and with two. -/
theorem meets_ControlRegisters_tickhold : natBits (0x8000000000000005 : Dword).toNat 48 15 = 0 ∧
    (0x8000000000000005 : Dword).getLsbD 63 = true ∧ base.enabled.length ≤ 1 ∧
    1 < ((base.modPart 0 (fun q => { q with entry := q.entry ||| 0x80000000 })).modPart 1 (fun q => { q with entry := q.entry ||| 0x80000000 })).enabled.length := by
  decide +kernel

theorem meets_InvalidationsRule_words : ∃ (s : State) (p : Pass) (c : TCtx) (a b : List Word), p.priv = true ∧
    s.Due [.sel (.v 0) 2, bI32 (.sel (.v 2))] p ∧ p.keys = [k0] ∧ p.ctxs s = [c] ∧ c.guard .always = .ok true ∧ c.read 0 (.sel (.v 0) 2) = .ok a ∧
    c.read 1 (bI32 (.sel (.v 2))) = .ok b ∧ s.globalDue k0 = false ∧ (∃ e ∈ (s.core 0).tlb, True) ∧ s.boot = .ready ∧ s.invals = [] ∧
    s.walks = [] ∧ s.reqs = [] :=
  ⟨regs 0x10000 0 0 0, _, _, _, _, rfl, ⟨_, rfl, rfl, by decide⟩, rfl, rfl, rfl, rfl, rfl, rfl, ⟨_, List.mem_cons_self, trivial⟩, rfl, rfl, rfl, rfl⟩

/-- An invalidation of a page that a request in flight uses. -/
theorem meets_Invalidations_request : ∃ (s : State) (n : InvSpec), s.boot = .ready ∧ n = ⟨0, .va, 0, 0, 0x100⟩ ∧
    (∃ r ∈ s.reqs, n.touches r = true) ∧ (∀ r ∈ s.reqs, n.touches r = true → r.stage ≠ .held) ∧ s.invals = [] :=
  ⟨{ sent (.load 4 false) .global 0x100 [2] .sent with
      reqs := (sent (.load 4 false) .global 0x100 [2] .sent).reqs.map (fun r =>
        { r with tlb := (State.core base 0).tlb.head? }) }, _, rfl, rfl, ⟨_, List.mem_cons_self, by decide +kernel⟩,
    by intro r hr _; simp only [sent, List.map_cons, List.map_nil, List.mem_singleton] at hr; subst hr; simp, rfl⟩

/-- An invalidation of the thread's own, at its end. -/
def posted : State := { base with invals := [{ id := 3, part := 0, by_ := some k0, walks := [], reqs := [] }] }

/-- An invalidation of the thread's own that a walk holds up. -/
theorem meets_Invalidations_waits : ∃ (s : State) (p : Pass), p.priv = true ∧ s.Now p ∧ (∀ c ∈ p.ctxs s, ∃ b, c.guard .always = .ok b) ∧
    ∃ n ∈ s.invals, (∃ c ∈ p.executing s free, n.by_ = some c.key) ∧ s.invalOver n = false :=
  ⟨{ sent (.load 4 false) .global 0x100 [2] .sent with invals := [{ id := 3, part := 0, by_ := some k0, walks := [], reqs := [9] }] }, _, rfl,
    ⟨rfl, by decide⟩, forall_one rfl ⟨_, rfl⟩, _, List.mem_cons_self, ⟨_, List.mem_cons_self, rfl⟩, by decide +kernel⟩

theorem meets_InvalidationsRule_xsync : ∃ (s : State) (p : Pass), p.priv = true ∧ s.Now p ∧ (∀ c ∈ p.ctxs s, ∃ b, c.guard .always = .ok b) ∧
    ∀ n ∈ s.invals, n.by_ = some k0 ∧ s.invalOver n = true :=
  ⟨posted, _, rfl, ⟨rfl, by decide⟩, forall_one rfl ⟨_, rfl⟩, forall_one rfl ⟨rfl, by decide +kernel⟩⟩

/-! ### Halts and handlers -/

/-- A block whose halt, raised by its thread's trap, has reached no lane yet, or the one that it has. -/
def halting (reached : List Nat) : State :=
  (handled.modThread k0 (fun t => { t with st := .halted })).modBlock 1 (fun b =>
    { b with halt := some { raised := 0, reached := reached, thread := k0 } })

/-- A lane of a block that its halt has not reached, with a thread that would go on issuing. -/
theorem meets_HandlerEntryRule_halt : ∃ (s : State) (b : Block) (h : Halt) (x : Thread), Tab.find s.blocks 1 = some b ∧ b.halt = some h ∧
    0 < Config.lanes ∧ s.blockSaved 1 = false ∧ 0 * Config.lanes + 0 ∉ h.reached ∧ 0 * Config.lanes + 0 ∈ s.blockLanes 1 ∧
    s.thread ⟨2, 1⟩ = some x ∧ s.stoppable ⟨2, 1⟩ = true :=
  ⟨(halting []).modWarp 2 (fun w => { w with threads := w.threads ++ w.threads.map (fun t => { t with st := .issuing }) }), _, _, _, rfl, rfl,
    by decide, by decide +kernel, by decide, by decide +kernel, rfl, by decide +kernel⟩

theorem meets_HandlerEntryRule_entry : ∃ (s : State) (b : Block) (h : Halt) (x : Thread) (l : Launch), Tab.find s.blocks 1 = some b ∧
    b.halt = some h ∧ s.entryDue 1 = true ∧ s.thread h.thread = some x ∧ s.launchOf h.thread.warp = some l :=
  ⟨halting [0], _, _, _, _, rfl, rfl, by decide +kernel, rfl, rfl⟩

/-- `base` with its thread in the handler, after FP_EXC on the inexact flag. -/
def inHandler : State :=
  (handled.modThread k0 (fun t => { t with handler := true, trap := { t.trap with cause := .fpExc, info := 16 }, save := some { lat := [], k := t.k, kvoid := 0, resume := ⟨0x20000, 1⟩, wait := none } })).modBlock 1 (fun b =>
      { b with halt := some { raised := 0, reached := [0], thread := k0 } })

theorem meets_HandlerReturnRule : ∃ (s : State) (p : Pass) (c : TCtx) (x : Thread) (a : SaveArea) (b : Block), s.Now p ∧ p.keys = [k0] ∧
    p.ctxs s = [c] ∧ c.guard .always = .ok true ∧ s.thread k0 = some x ∧ x.handler = true ∧ x.save = some a ∧ x.wait = none ∧
    x.trap.cause ≠ .sdcMismatch ∧ Tab.find s.blocks c.w.block = some b ∧ k0 ∈ s.blockKeys c.w.block :=
  ⟨inHandler, _, _, _, _, _, ⟨rfl, by decide⟩, rfl, rfl, rfl, rfl, rfl, rfl, rfl, by decide +kernel, rfl, by decide +kernel⟩

/-! ### Clocks, holds and eras -/

theorem meets_Clocks : (∃ (s : State) (r : Req), 1 ≤ s.refTick.toNat ∧ s.pausedDies = [] ∧ r ∈ s.reqs ∧ r.kind = .settle 0x20000 ∧ r.stage = .sent) ∧
    ∃ (s : State) (x : Thread) (l : Launch), s.thread k0 = some x ∧ x.st = .paused ∧ s.launchOf k0.warp = some l ∧ l.saved = false ∧ s.warpOff k0.warp = false ∧ s.powerCap = false :=
  ⟨⟨sent (.settle 0x20000) .global 0 [] .sent, _, by decide +kernel, rfl, List.mem_cons_self, rfl, rfl⟩,
    base.modThread k0 (fun t => { t with st := .paused, pause := 50 }), _, _, rfl, rfl, rfl, rfl, rfl, rfl⟩

/-- A hold with one partition enabled and with two; the end of a hold; a stall; and a rebase with every context saved. -/
theorem meets_Holds : base.boot = .ready ∧ natBits (0x8000000000000005 : Dword).toNat 48 15 = 0 ∧ (0x8000000000000005 : Dword).getLsbD 63 = true ∧
    base.enabled.length ≤ 1 ∧
    (∃ s : State, s.boot = .ready ∧ 1 < s.enabled.length) ∧
    (∃ s : State, s.boot = .ready ∧ s.tickHeld = true ∧ natBits (0 : Dword).toNat 48 15 = 0 ∧ (0 : Dword).getLsbD 63 = false ∧
      ∀ n, n < 192 → s.sliceTick n + 1 < 2 ^ 48) ∧
    ∃ s : State, s.blocks ≠ [] ∧ ∀ b ∈ s.blocks, s.blockSaved b.1 = true :=
  ⟨rfl, by decide, by decide, by decide +kernel,
    ⟨(base.modPart 0 (fun p => { p with entry := 0x80000000 })).modPart 1 (fun p => { p with entry := 0x80000000 }), rfl, by decide +kernel⟩,
    ⟨{ base with hold := 0x8000000000000005 }, rfl, by decide +kernel, by decide, by decide, by decide +kernel⟩,
    ⟨base.modLaunch 0 (fun l => { l with saved := true }), List.cons_ne_nil _ _, forall_one rfl rfl⟩⟩

/-- A stall that ends with the pool full, and one with room in it again. -/
theorem meets_Holds_stall : (∃ s : State, (s.part 0).stallSince = some 0 ∧ (s.part 0).live < (s.part 0).cap) ∧
    ∃ (s : State) (e : HistEntry), (s.part 0).stallSince = some 0 ∧ (s.part 0).cap ≤ (s.part 0).live ∧
      (s.part 0).pool.find? (fun y => !y.freed) = some e :=
  ⟨⟨base.modPart 0 (fun p => { p with stallSince := some 0, poolSize := 1 }), rfl, by decide +kernel⟩,
    base.modPart 0 (fun p => { p with
      stallSince := some 0
      poolSize := 1
      pool := [{ num := 0, data := [], stamp := 0, line := 4, link := none, part := 0, colour := 0, later := 9, spilled := false, poisoned := false,
                 freed := false }] }), _, rfl,
    by decide +kernel, rfl⟩

/-! ### Walks and page queues -/

/-- A walk to address 0x100, through the leaf `l`. -/
def walkTo (l : Nat) (waits : List WalkFor) (marks : Bool) (drops : List InvSpec) (s : State) : State :=
  { mapped l s with walks := [{ id := 9, xlat := { part := 0, vf := 0, asid := 0, s1root := 0x20000, s2root := 0 }, va := 0x100, core := 0,
                                waits := waits, due := 0, marks := marks, drops := drops, done := none }] }

/-- A walk that a bundle waits for. -/
def walking (l : Nat) : State := walkTo l [.bundle 4] true [] base

/-- What WALK_COMPLETE needs of a walk that bundles wait for. -/
def WalkSeen (s : State) (w : Walk) (e : WalkEnd) (met : List Nat) : Prop :=
  s.walks.find? (fun y => y.id == 9 && y.done.isNone) = some w ∧ w.waits ≠ [] ∧ (∀ x ∈ w.waits, ∃ b, x = .bundle b ∧ ∃ y ∈ s.bundles, y.2.id = b) ∧
  s.mem.wf = true ∧ (∀ r ∈ s.reqs, ∀ g, r.stage ≠ .walking g) ∧ s.walkAll w.xlat w.va = (e, met)

theorem walkSeen {l : Nat} {m : Bool} {d : List InvSpec} {w : Walk} (h1 : (walkTo l [.bundle 4] m d base).walks = [w])
    (h2 : (walkTo l [.bundle 4] m d base).mem.wf = true) (h3 : (walkTo l [.bundle 4] m d base).reqs = []) :
    WalkSeen (walkTo l [.bundle 4] m d base) w ((walkTo l [.bundle 4] m d base).walkAll w.xlat w.va).1
      ((walkTo l [.bundle 4] m d base).walkAll w.xlat w.va).2 := by
  obtain rfl : _ = w := List.head_eq_of_cons_eq h1
  exact ⟨rfl, List.cons_ne_nil _ _, forall_one rfl ⟨_, rfl, _, List.mem_cons_self, rfl⟩, h2, by simp [h3], (Prod.eta _).symm⟩

/-- A walk that finds a leaf without ACCESSED, one that finds an invalid entry, one whose find an invalidation has matched, and one for parameter
reads alone. -/
theorem meets_WalkComplete : ∀ a ∈ [(0x32F, true, []), (0, true, []), (0x33F, true, [(⟨0, .asid, 0, 0, 0⟩ : InvSpec)]), (0x33F, false, []),
      (0x32F, false, [])],
    ∃ (w : Walk) (e : WalkEnd) (met : List Nat), WalkSeen (walkTo a.1 [.bundle 4] a.2.1 a.2.2 base) w e met ∧ w.marks = a.2.1 := by
  intro a ha
  simp only [List.mem_cons, List.not_mem_nil, or_false] at ha
  obtain rfl | rfl | rfl | rfl | rfl := ha <;>
  exact ⟨_, _, _, walkSeen rfl (by decide +kernel) rfl, rfl⟩

/-- What WALK_COMPLETE needs of a walk that one released access waits for. -/
def AccessSeen (s : State) (w : Walk) (e : WalkEnd) (met : List Nat) (r : Req) : Prop :=
  s.walks.find? (fun y => y.id == 9 && y.done.isNone) = some w ∧ (∀ y ∈ s.walks, y.id = 9 → y = w) ∧ w.waits = [.request r.id] ∧ w.drops = [] ∧
  r ∈ s.reqs ∧ r.stage = .walking 0 ∧ s.current r = true ∧ (s.reqs.map Req.id).Nodup ∧ (∀ y ∈ s.reqs, ∀ h, y.stage = .walking h → y = r) ∧
  (∀ y ∈ s.walks, y ≠ w → .request r.id ∉ y.waits) ∧ s.reqRed r = false ∧ r.secondPage = none ∧ s.walkAll w.xlat w.va = (e, met)

/-- A released load and a released store that find their page, and a load that meets a malformed leaf. -/
theorem meets_WalkComplete_access : ∀ a ∈ [(ReqKind.load 4 false, 0x33F, false), (.store [1], 0x33F, false), (.load 4 false, 0x73F, true)],
    ∃ (w : Walk) (e : WalkEnd) (met : List Nat) (r : Req),
      AccessSeen (walkTo a.2.1 [.request 9] true [] (sent a.1 .global 0x100 [2] (.walking 0))) w e met r ∧ r.kind = a.1 ∧
      (if a.2.2 then e = .fatal false else ∃ x, e = .ok x ∧ x.attrs.write = true ∧ x.dirty = true) := by
  intro a ha
  simp only [List.mem_cons, List.not_mem_nil, or_false] at ha
  obtain rfl | rfl | rfl := ha
  · exact ⟨_, _, _, _, ⟨rfl, forall_one rfl (fun _ => rfl), rfl, rfl, List.mem_cons_self, rfl, rfl, by decide, forall_one rfl (fun _ _ => rfl),
      forall_one rfl (fun h => absurd rfl h), rfl, rfl, rfl⟩, rfl, _, rfl, rfl, rfl⟩
  · exact ⟨_, _, _, _, ⟨rfl, forall_one rfl (fun _ => rfl), rfl, rfl, List.mem_cons_self, rfl, rfl, by decide, forall_one rfl (fun _ _ => rfl),
      forall_one rfl (fun h => absurd rfl h), rfl, rfl, rfl⟩, rfl, _, rfl, rfl, rfl⟩
  · exact ⟨_, _, _, _, ⟨rfl, forall_one rfl (fun _ => rfl), rfl, rfl, List.mem_cons_self, rfl, rfl, by decide, forall_one rfl (fun _ _ => rfl),
      forall_one rfl (fun h => absurd rfl h), rfl, rfl, rfl⟩, rfl, rfl⟩

theorem test_walkEnds : (∃ e, ((walking 0x32F).walkAll ⟨0, 0, 0, 0x20000, 0⟩ 0x100).1 = .ok e) ∧
    ((walking 0).walkAll ⟨0, 0, 0, 0x20000, 0⟩ 0x100).1 = .miss false 0 false := ⟨⟨_, rfl⟩, rfl⟩

/-- The queue of partition 0, VF 0, first stage. -/
def qk : QKey := { part := 0, vf := 0, s2 := false }

/-- A queue with one request posted and one response to take. -/
def oneResponse : PageQueue :=
  { base := 0x30000, cfg := 8, reqHead := 0, reqTail := 1, rspHead := 0, rspTail := 1, nextId := 6,
    reqs := [{ id := some 5, kind := 0, page := 0, core := 0, asid := 0 }], errors := 0 }

/-- A state whose queue has posted one request, for page 0 of core 0 under ID 5, and has one response, with 0x300 entries before it; a load is
parked on the page. -/
def responding (entry : Nat) (k : ReqKind) : State :=
  let s := sent k .global 0 [2] (.parked false 0)
  { s with
    mem := s.mem.puts (0x30000 + 32 * 256) (leBytes entry 8)
    queues := [(qk, oneResponse)] }

/-- A response that names no outstanding request, one of STATUS 2, one with a reserved bit, and responses of STATUS 0 and 1. -/
theorem meets_PageResponse : oneResponse.disabled = false ∧ oneResponse.rspHead ≠ oneResponse.rspTail ∧ (∀ y ∈ oneResponse.reqs, y.id ≠ none) ∧
    (∀ e ∈ [4, 0x20005, 0x1000005], (responding e (.load 4 false)).queue qk = oneResponse ∧ (responding e (.load 4 false)).respEntry oneResponse = e ∧
      (oneResponse.reqs.find? (fun r => r.id == some (natBits e 0 16)) = none ∨ 1 < natBits e 16 8 ∨ natBits e 24 40 ≠ 0)) ∧
    ∀ k ∈ [ReqKind.load 4 false, .fetch], ∀ e ∈ [5, 0x10005], ∃ (r : PageReq) (l : Launch) (x : Req) (s : State), s = responding e k ∧
      s.queue qk = oneResponse ∧ s.respEntry oneResponse = e ∧ oneResponse.reqs.find? (fun r => r.id == some (natBits e 0 16)) = some r ∧
      natBits e 16 8 ≤ 1 ∧ natBits e 24 40 = 0 ∧ s.awayFor qk r = [] ∧ (s.reqs.map Req.id).Nodup ∧ Tab.find s.launches 0 = some l ∧
      l.offAt r.core = false ∧ x ∈ s.reqs ∧ x.launch = 0 ∧ x.core = r.core ∧ x.stage = .parked false r.page ∧ x.xlat.part = qk.part ∧
      x.xlat.vf.toNat = qk.vf ∧ x.xlat.asid = r.asid ∧ x.kind = k := by
  refine ⟨by decide, by decide, by decide, by decide +kernel, ?_⟩
  intro k hk e he
  simp only [List.mem_cons, List.not_mem_nil, or_false] at hk he
  obtain rfl | rfl := hk <;> obtain rfl | rfl := he <;>
  exact ⟨_, _, _, _, rfl, rfl, by decide +kernel, rfl, by decide, by decide, rfl, by decide, rfl, rfl, List.mem_cons_self, rfl, rfl, rfl, rfl, rfl, rfl, rfl⟩

/-- A queue with nothing outstanding, one whose requests are all posted, and one that holds a request back. -/
theorem meets_QueueWritesRule : base.boot = .ready ∧ (base.queue qk).reqs = [] ∧
    (∀ y ∈ ((responding 5 (.load 4 false)).queue qk).reqs, y.id ≠ none) ∧
    ∃ (s : State) (q : PageQueue) (r : PageReq), s.boot = .ready ∧ q = s.queue qk ∧ q.reqs = [] ++ [r] ∧ r.id = none ∧ q.disabled = false ∧
      (q.reqTail - 1).toNat < q.entries ∧ s.mem.wf = true :=
  ⟨rfl, by decide +kernel, by decide +kernel, { base with queues := [(qk,
      { base := 0x30000, cfg := 8, reqHead := 0, reqTail := 256, rspHead := 0, rspTail := 0, nextId := 0,
        reqs := [{ id := none, kind := 0, page := 0x40000, core := 0, asid := 0 }], errors := 0 })] }, _, _, rfl, rfl, rfl, rfl, by decide,
    by decide, by decide +kernel⟩

/-! ### Contexts -/

/-- A context that is to stop while its thread is in the handler; and one that may be saved at once, or on its deadline. -/
theorem meets_Preemption : (∃ (s : State) (l : Launch) (x : Thread), Tab.find s.launches 0 = some l ∧ l.saved = false ∧
      (∀ w ∈ s.warps, w.2.launch = 0 → w.2.core / Config.coresPerCluster ∈ s.onClusters 0) ∧
      s.cycle < l.stopAt.getD (s.cycle + 20000) ∧ k0 ∈ s.launchKeys 0 ∧ s.thread k0 = some x ∧ x.inHandler = true) ∧
    (∃ (s : State) (l : Launch), Tab.find s.launches 0 = some l ∧ l.saved = false ∧
      (∀ w ∈ s.warps, w.2.launch = 0 → w.2.core / Config.coresPerCluster ∈ s.onClusters 0) ∧ s.halting 0 = false ∧ s.mirroring 0 = false ∧
      s.longs = [] ∧ s.bundles.Pairwise (fun a b => a.1 < b.1) ∧ ∀ k ∈ s.launchKeys 0, ∀ x, s.thread k = some x → x.inHandler = false) ∧
    ∃ (s : State) (l : Launch), Tab.find s.launches 0 = some l ∧ l.saved = false ∧
      (∀ w ∈ s.warps, w.2.launch = 0 → w.2.core / Config.coresPerCluster ∈ s.onClusters 0) ∧ s.halting 0 = false ∧ s.mirroring 0 = false ∧
      s.longs = [] ∧ s.bundles.Pairwise (fun a b => a.1 < b.1) ∧ l.stopAt = some 20000 :=
  ⟨⟨inHandler, _, _, rfl, rfl, forall_one rfl (by decide +kernel), by decide +kernel, by decide +kernel, rfl, rfl⟩,
    ⟨base, _, rfl, rfl, forall_one rfl (by decide +kernel), rfl, rfl, rfl, by decide +kernel, forall_one rfl (fun x h => by cases h; rfl)⟩,
    inHandler.modLaunch 0 (fun l => { l with stopAt := some 20000 }), _, rfl, rfl, forall_one rfl (by decide +kernel), by decide +kernel, rfl, rfl,
    by decide +kernel, rfl⟩

/-- `base` with its context saved, its core's state in the save area. -/
def saved : State :=
  { ((base.modLaunch 0 (fun l => { l with saved := true, gen := 1 })).modCore 0 Core.cleared).modThread k0 (fun t => { t with st := .ready }) with
    bundles := [], images := [{ core := 0, launches := [0], data := base.core 0 }] }

/-- The same with a block area in cluster 1 too, where another context runs. -/
def apart : State :=
  match Tab.find base.launches 0, Tab.find base.blocks 1 with
  | some l, some b =>
    { saved with
      launches := saved.launches ++ [(7, l)]
      blocks := [(1, { b with areas := [(0, 0), (4, 0)] }), (50, { b with launch := 7, areas := [(4, 0)] })]
      images := saved.images ++ [{ core := 4, launches := [0], data := Core.reset }] }
  | _, _ => saved

/-- A context all of whose clusters are free, and one that gets one of its two clusters back; a context to discard, and one still running. -/
theorem meets_RestoreAndDiscard : (∃ l : Launch, Tab.find saved.launches 0 = some l ∧ saved.restoreMay 0 = true ∧ l.heldResp = [] ∧
      saved.sends = [] ∧ saved.ckpts = [] ∧ (∀ c ∈ saved.launchCores 0, c / Config.coresPerCluster ∈ saved.backTo 0) ∧
      (saved.imageOf 0 0).isSome = true) ∧
    (∃ l : Launch, Tab.find apart.launches 0 = some l ∧ apart.restoreMay 0 = true ∧ l.heldResp = [] ∧ apart.sends = [] ∧ apart.ckpts = [] ∧
      ∃ c ∈ apart.launchCores 0, c / Config.coresPerCluster ∉ apart.backTo 0 ∧ l.offAt c = true) ∧
    (∃ l : Launch, base.boot = .ready ∧ Tab.find base.launches 0 = some l ∧ l.status ≠ .ended) ∧
    ∃ (s : State) (l : Launch), s.boot = .ready ∧ Tab.find s.launches 0 = some l ∧ l.status = .ended :=
  ⟨⟨_, rfl, by decide +kernel, rfl, rfl, rfl, by decide +kernel, by decide +kernel⟩,
    ⟨_, rfl, by decide +kernel, rfl, rfl, rfl, 4, by decide +kernel, by decide +kernel, by decide +kernel⟩, ⟨_, rfl, rfl, by decide +kernel⟩,
    base.modLaunch 0 (fun l => { l with status := .ended }), _, rfl, rfl, rfl⟩

/-- The next VF of partition 0. -/
def vf1 : VfCfg := { part := 0, vf := 1, asid := 0, s1root := 0, s2root := 0 }

/-- A switch with no context of another VF, one with a context of VF 0 on its core, and a deadline that passes with it still there, at the first
late switch and at the fourth. -/
theorem meets_GangSwitch : (∃ s : State, (s.part 0).vf ≠ vf1.vf ∧ s.leaving 0 1 = []) ∧
    (∃ (s : State) (l : Launch), (s.part 0).vf ≠ vf1.vf ∧ 0 ∈ s.leaving 0 1 ∧ Tab.find s.launches 0 = some l) ∧
    ∀ n ∈ [2, 3], ∃ (s : State) (x : Partition), s.switchAt = some 7 ∧ s.parts.Pairwise (fun a b => a.1 < b.1) ∧
      s.launches.Pairwise (fun a b => a.1 < b.1) ∧ Tab.find s.parts 0 = some x ∧ x.nextVf = some vf1 ∧ s.lateOn 0 0 = true ∧ x.tardyRun = n := by
  refine ⟨⟨State.reset, by decide +kernel, by decide +kernel⟩, ⟨base, _, by decide +kernel, by decide +kernel, rfl⟩, ?_⟩
  intro n hn
  simp only [List.mem_cons, List.not_mem_nil, or_false] at hn
  obtain rfl | rfl := hn
  · exact ⟨({ base with switchAt := some 7 }).modPart 0 (fun p => { p with nextVf := some vf1, tardyRun := 2 }), _, rfl, by decide +kernel,
      by decide +kernel, rfl, rfl, by decide +kernel, rfl⟩
  · exact ⟨({ base with switchAt := some 7 }).modPart 0 (fun p => { p with nextVf := some vf1, tardyRun := 3 }), _, rfl, by decide +kernel,
      by decide +kernel, rfl, rfl, by decide +kernel, rfl⟩

/-- A redundant launch with a block and its shadow, and what its copies have left to compare. -/
def twins (bar : Option Nat) (ws : List RedWindow) (fs : List RedFault) : State :=
  match Tab.find base.warps 2, Tab.find base.blocks 1, Tab.find base.groups 3 with
  | some w, some b, some g =>
    let b := { b with bars := (bar.map (fun n => (n, { phase := 0, last := some 0 }))).toList }
    { base with
      launches := base.launches.map (fun l => (l.1, { l.2 with rcd := { l.2.rcd with red := true } }))
      groups := [(3, { g with partner := some 8 }), (8, { g with blocks := [20], shadow := true, partner := some 3 })]
      blocks := [(1, b), (20, { b with group := 8, shadow := true, warps := [30] })]
      warps := [(2, w), (30, { w with block := 20 })]
      redWindows := ws
      redFaults := fs }
  | _, _, _ => base

/-- The windows of the two copies' threads, of signatures `x` and `y`. -/
def windows (bar : Option Nat) (x y : Dword) : List RedWindow :=
  [{ thread := k0, block := 1, sig := x, records := 1, tpc := 0, shadow := false, barrier := bar, order := 5, forced := false },
   { thread := ⟨30, 0⟩, block := 20, sig := y, records := 1, tpc := 0, shadow := true, barrier := bar, order := 5, forced := false }]

/-- Two threads' windows that agree and that differ. -/
theorem meets_WindowCompare : ∀ y ∈ [(6 : Dword), 7], ∃ (s : State) (t q : TKey) (x z : RedWindow) (th : Thread) (w : Warp) (l : Launch) (b : Block),
    s = twins none (windows none 6 y) [] ∧ s.compareDue 1 = true ∧ s.twinBlock 1 = some 20 ∧ s.threadWindow 1 = some (t, q, x, z) ∧ x.sig = 6 ∧
    z.sig = y ∧ s.thread t = some th ∧ Tab.find s.warps t.warp = some w ∧ w.block = 1 ∧ s.launchOf t.warp = some l ∧ Tab.find s.blocks 20 = some b := by
  intro y hy
  simp only [List.mem_cons, List.not_mem_nil, or_false] at hy
  obtain rfl | rfl := hy <;> exact ⟨_, _, _, _, _, _, _, _, _, rfl, rfl, rfl, rfl, rfl, rfl, rfl, rfl, rfl, rfl, rfl⟩

/-- A block barrier's windows that agree; and a fault that the primary alone has taken at its first word. -/
theorem meets_WindowCompare_others : (∃ (s : State) (xs ys : List RedWindow), s.compareDue 1 = true ∧ s.twinBlock 1 = some 20 ∧
      s.threadWindow 1 = none ∧ s.barrierWindow 1 20 = some (xs, ys) ∧ xs ≠ [] ∧ (windowSum xs).1 = (windowSum ys).1) ∧
    ∃ (s : State) (t q : TKey) (f : RedFault) (th : Thread), s.compareDue 1 = true ∧ s.twinBlock 1 = some 20 ∧ s.threadWindow 1 = none ∧
      s.barrierWindow 1 20 = none ∧ s.faultPair 1 = some (.differ t q f) ∧ s.thread t = some th ∧ s.reqs = [] :=
  ⟨⟨twins (some 0) (windows (some 0) 6 6) [], _, _, rfl, rfl, rfl, rfl, by decide +kernel, by decide +kernel⟩,
    twins none [] [{ thread := k0, issued := 0, cause := .fpExc, tpc := 0x10000 }], _, _, _, _, rfl, rfl, rfl, rfl, rfl, rfl, rfl⟩

/-! ### Messages and arms -/

/-- A launch record of one block of one thread, with nothing else set. -/
def recordBytes (magic : Nat) : List Byte :=
  leBytes magic 4 ++ leBytes 0 4 ++ leBytes 0x50000 8 ++ leBytes 5 8 ++ (List.replicate 6 (leBytes 1 4)).flatten ++ leBytes 0x1000 4 ++ leBytes 0 24 ++ leBytes 0x249 4 ++ leBytes 0 176

/-- An arm of tag 7 with the record at 0x30000 and a ring of two entries of 64 bytes at 0x40000. -/
def arm7 (busy : List (Nat × Nat)) : Arm :=
  { tag := 7, armed := true, prio := 1, launch := 0x30000, ring := 0x40000, count := 2, size := 64, fill := 0, busy := busy, past := [], soft := none,
    since := 0 }

/-- A device whose partition 0 translates through the leaf `leaf` at 0x20000 and has that arm. -/
def armedAt (leaf magic : Nat) (busy : List (Nat × Nat)) : State :=
  ({ leafAt leaf State.reset with
      boot := .ready
      mem := (leafAt leaf State.reset).mem.puts 0x30000 (recordBytes magic) }).modPart 0 (fun p =>
    { p with cfgs := [{ part := 0, vf := 0, asid := 0, s1root := 0x20000, s2root := 0 }], arms := [(0, arm7 busy)] })

def armed (magic : Nat) (busy : List (Nat × Nat)) : State := armedAt 0x33F magic busy

/-- A message of tag 7. -/
def msg (payload : List Byte) : Msg := { tag := 7, payload := payload, stamp := 0 }

/-- A closed partition; one with an earlier message put off; a tag that no arm takes; one that a software arm takes; and an arm that takes one. -/
theorem meets_TaggedMessage_status : (∃ s : State, s.boot = .ready ∧ (s.part 0).closed = true) ∧
    (∃ s : State, s.boot = .ready ∧ (s.part 0).closed = false ∧ s.behindLate 0 s.uid = true) ∧
    ((armed 0x4B490001 []).part 0).closed = false ∧ (armed 0x4B490001 []).behindLate 0 (armed 0x4B490001 []).uid = false ∧
    Unarmed ((armed 0x4B490001 []).part 0) 8 ∧
    (∃ s : State, s.boot = .ready ∧ (s.part 0).closed = false ∧ s.behindLate 0 s.uid = false ∧
      (s.part 0).arms.find? (fun e => e.2.armed && e.2.tag == 9) = none ∧ ∃ y ∈ (s.part 0).soft, y.tag = 9) ∧
    ((armed 0x4B490001 []).part 0).arms.find? (fun e => e.2.armed && e.2.tag == (msg []).tag) = some (0, arm7 []) ∧
    Tab.find ((armed 0x4B490001 []).part 0).arms 0 = some (arm7 []) :=
  ⟨⟨base.modPart 0 (fun p => { p with fenced := true }), rfl, by decide +kernel⟩,
    ⟨{ base with uid := 10, retries := [⟨9, 0, msg [], 0, some 5, 0⟩] }, rfl, by decide +kernel, by decide +kernel⟩, by decide +kernel,
    by decide +kernel, ⟨by decide +kernel, forall_nil rfl⟩,
    ⟨base.modPart 0 (fun p => { p with soft := [{ tag := 9, addr := 0, mapped := none, pending := false, fill := 0, busy := [] }] }), rfl,
      by decide +kernel, by decide +kernel, by decide +kernel, _, List.mem_cons_self, rfl⟩, by decide +kernel, by decide +kernel⟩

theorem pair_some {α β : Type} (f : α → β → Bool) {x : α × Option β} (h : (x.2.any (fun b => f x.1 b)) = true) :
    ∃ a b, x = (a, some b) ∧ f a b = true := by
  obtain ⟨a, _ | b⟩ := x
  · simp at h
  · exact ⟨a, b, rfl, by simpa using h⟩

/-- A record that is sound and one that is not. -/
theorem meets_TaggedMessage_fire : (∃ (s1 : State) (l : List Byte), (armed 0x4B490001 []).feRead ((armed 0x4B490001 []).runXlat 0)
      (arm7 []).launch.toNat 256 = (s1, some l) ∧ refusal l (s1.part 0) = 0) ∧
    (∃ (s1 : State) (l : List Byte), (armed 0 []).feRead ((armed 0 []).runXlat 0) (arm7 []).launch.toNat 256 = (s1, some l) ∧
      refusal l (s1.part 0) ≠ 0) ∧
    (armed 0 []).boot = .ready ∧ (msg []).payload = [] ∧ (arm7 []).launch.toNat % 256 = 0 := by
  refine ⟨?_, ?_, rfl, rfl, by decide⟩
  · obtain ⟨a, b, h, hf⟩ := pair_some (fun s l => refusal l (s.part 0) == 0) (x := (armed 0x4B490001 []).feRead
      ((armed 0x4B490001 []).runXlat 0) (arm7 []).launch.toNat 256) (by decide +kernel)
    exact ⟨a, b, h, by simpa using hf⟩
  · obtain ⟨a, b, h, hf⟩ := pair_some (fun s l => refusal l (s.part 0) != 0) (x := (armed 0 []).feRead
      ((armed 0 []).runXlat 0) (arm7 []).launch.toNat 256) (by decide +kernel)
    exact ⟨a, b, h, by simpa using hf⟩

/-- A payload that is too long, and one for an arm without a ring; and an entry that is busy. -/
theorem meets_TaggedMessage_busy : (List.replicate 65 (0 : Byte)).length > (arm7 []).size ∧ { arm7 [] with count := 0 }.count = 0 ∧
    (msg [1]).payload ≠ [] ∧ (msg [1]).payload.length ≤ (arm7 [(0, 4)]).size ∧ (arm7 [(0, 4)]).count ≠ 0 ∧
    ((arm7 [(0, 4)]).fill, 4) ∈ (arm7 [(0, 4)]).busy ∧ (armed 0x4B490001 [(0, 4)]).boot = .ready := by decide +kernel

/-- Whether a store of the front end is done. -/
def isDone (x : FeStore) : Bool := match x with | .done _ => true | _ => false

theorem done_of {x : State × FeStore} (h : isDone x.2 = true) : ∃ top, x = (x.1, .done top) := by
  obtain ⟨a, _ | _ | _⟩ := x
  all_goals first | exact ⟨_, rfl⟩ | simp [isDone] at h

theorem end_of {α β : Type} {x : α × β} {y : β} (h : x.2 = y) : x = (x.1, y) := by subst h; rfl

/-- The state after the payload of one byte is stored, and its entry busy. -/
def paid : State :=
  let s1 := ((armed 0x4B490001 []).feStore ((armed 0x4B490001 []).runXlat 0) 0x40000 0 [1]).1
  State.modPart { s1 with uid := s1.uid + 1 } 0 (fun p =>
    { p with arms := Tab.upd p.arms 0 (fun y =>
      { y with busy := y.busy ++ [((arm7 []).fill, s1.uid)], fill := ((arm7 []).fill + 1) % (arm7 []).count }) })

/-- An entry that is free. -/
theorem meets_TaggedMessage_ring : ∃ (s s1 s2 s3 : State) (top : Dword) (l : List Byte), s = armed 0x4B490001 [] ∧
    (∀ e ∈ (arm7 []).busy, e.1 ≠ (arm7 []).fill) ∧ (arm7 []).ring + BitVec.ofNat 64 ((arm7 []).fill * (arm7 []).size) = 0x40000 ∧
    s.feStore (s.runXlat 0) 0x40000 0 [1] = (s1, .done top) ∧
    s2 = State.modPart { s1 with uid := s1.uid + 1 } 0 (fun p => { p with arms := Tab.upd p.arms 0 (fun y =>
      { y with busy := y.busy ++ [((arm7 []).fill, s1.uid)], fill := ((arm7 []).fill + 1) % (arm7 []).count }) }) ∧
    s2.feRead (s.runXlat 0) (arm7 []).launch.toNat 256 = (s3, some l) ∧ refusal l (s3.part 0) = 0 := by
  obtain ⟨top, h1⟩ := done_of (x := (armed 0x4B490001 []).feStore ((armed 0x4B490001 []).runXlat 0) 0x40000 0 [1]) (by decide +kernel)
  obtain ⟨a, b, h, hf⟩ := pair_some (fun s l => refusal l (s.part 0) == 0) (x := paid.feRead
    ((armed 0x4B490001 []).runXlat 0) (arm7 []).launch.toNat 256) (by decide +kernel)
  exact ⟨_, _, _, a, top, b, rfl, nofun, by decide, h1, rfl, h, by simpa using hf⟩

/-- A ring without WRITE, and one on a historied page where a hold stops the store. -/
theorem meets_TaggedMessage_stores :
    (∃ s1, (armedAt 0x33B 0x4B490001 []).feStore ((armedAt 0x33B 0x4B490001 []).runXlat 0) 0x40000 0 [1] = (s1, .bad)) ∧
    ∃ (s s1 : State), s = (armedAt 0x37F 0x4B490001 []).modPart 0 (fun p => { p with hold := 1 }) ∧ (s.part 0).closed = false ∧
      s.feStore (s.runXlat 0) 0x40000 0 [1] = (s1, .later) :=
  ⟨⟨_, end_of (by decide +kernel)⟩, _, _, rfl, by decide +kernel, end_of (by decide +kernel)⟩


/-- A SEND of `base`'s thread to its own package, from 64 bytes at 0x100, without FIRE. -/
def send7 (payload : Option (List Byte)) : SendMsg :=
  { id := 9, launch := 0, thread := k0, word := 5, dst := some 2, cap := 0, pkg := 0, part := 0, tag := 7, fire := false, rwrite := false, floor := 0,
    shadow := false, access := 0, core := 0, off := 0x100, len := 64, op := 3, payload := payload, status := none, retry := 0, late := none, due := 0 }

/-- `capable` with that SEND on its way, its register awaiting the status. -/
def sending (payload : Option (List Byte)) : State :=
  ({ capable with sends := [send7 payload] } : State).modWarp 2 (fun w =>
    { w with ctr := w.ctr.set 4 1, out := [{ word := 5, ctr := 4, left := 1, floor := 0 }],
             threads := w.threads.map (fun t => { t with async := [{ loc := 2, word := 5, req := 9, idx := 0, value := none, lost := false }] }) })

theorem meets_TaggedMessage_send : ∃ s : State, s = sending (some [1]) ∧
    s.sends.find? (fun y => y.id == 9 && y.part == 0 && y.retry == 0) = some (send7 (some [1])) ∧
    s.sends.find? (fun y => y.id == 9 && y.payload.isSome) = some (send7 (some [1])) ∧ (send7 (some [1])).shadow = false ∧
    s.sendPaused (send7 (some [1])) = false ∧ (s.part 0).closed = false ∧ (send7 (some [1])).fire = false ∧
    ({ s with pausedDies := [0] } : State).sendPaused (send7 (some [1])) = true ∧ ((s.modPart 0 (fun p => { p with fenced := true })).part 0).closed = true :=
  ⟨_, rfl, rfl, rfl, rfl, by decide +kernel, by decide +kernel, rfl, by decide +kernel, by decide +kernel⟩

/-- A SEND with FIRE whose message ends with a status, and one that a software arm turns away with BUSY. -/
theorem meets_TaggedMessage_sendFire : ∃ (s t : State), s.behindLate 0 s.uid = false ∧ (∃ x w, s.message 0 7 [1] 0 = (x, .status w)) ∧
    t.behindLate 0 t.uid = false ∧ ∃ x, t.message 0 7 [1] 0 = (x, .busy) :=
  ⟨sending (some [1]), (sending (some [1])).modPart 0 (fun p =>
      { p with soft := [{ tag := 7, addr := 0, mapped := none, pending := false, fill := 0, busy := [] }] }), by decide +kernel,
    ⟨_, 1, end_of (by decide +kernel)⟩, by decide +kernel, _, end_of (by decide +kernel)⟩

theorem meets_SendsAndStreams_read : ∃ s : State, s.sends.find? (fun y => y.id == 9 && y.payload.isNone) = some (send7 none) ∧
    s.sendStill (send7 none) = false := ⟨sending none, rfl, by decide +kernel⟩

theorem meets_SendsAndStreams_response : ∃ (s : State) (l : Launch) (w : Warp) (x : Thread) (k : Cap),
    s.sends.find? (fun y => y.id == 9 && y.payload.isSome) = some (send7 (some [1])) ∧ (send7 (some [1])).shadow = false ∧
    Tab.find s.launches 0 = some l ∧ l.offAt (send7 (some [1])).core = false ∧ Tab.find s.warps 2 = some w ∧ s.thread k0 = some x ∧
    x.st ≠ .exited ∧ l.caps[0]? = some k ∧ (∃ a ∈ x.async, a.req = 9 ∧ a.loc = 2 ∧ a.lost = false) ∧
    ∃ o, w.out.find? (fun o => o.word == 5) = some o ∧ o.left ≤ 1 :=
  ⟨sending (some [1]), _, _, _, _, rfl, rfl, rfl, rfl, rfl, rfl, by decide +kernel, rfl, ⟨_, List.mem_cons_self, rfl, rfl, rfl⟩, _, rfl, by decide⟩

/-- A SEND of a shadow copy, whose primary has had its status. -/
theorem meets_SendsAndStreams_shadow : ∃ (s : State) (m : SendMsg) (r : RedVal) (l : Launch) (w : Warp) (x : Thread),
    s.sends.find? (fun y => y.id == 9 && y.payload.isSome) = some m ∧ m.shadow = true ∧ s.redValue m.thread m.access = some r ∧
    Tab.find s.launches m.launch = some l ∧ l.offAt m.core = false ∧ Tab.find s.warps m.thread.warp = some w ∧ s.thread m.thread = some x ∧
    x.st ≠ .exited :=
  ⟨{ twins none [] [] with
      sends := [{ send7 (some [1]) with shadow := true, thread := ⟨30, 0⟩ }]
      redVals := [{ thread := k0, access := 0, value := [0], stamp := 0 }] }, _, _, _, _, _, rfl, rfl, rfl, rfl, rfl, rfl, rfl, by decide +kernel⟩

/-- A SEND whose context is away. -/
theorem meets_SendsAndStreams_away : ∃ (s : State) (l : Launch), s.sends.find? (fun y => y.id == 9 && y.payload.isSome) = some (send7 (some [1])) ∧
    Tab.find s.launches 0 = some l ∧ l.offAt (send7 (some [1])).core = true :=
  ⟨(sending (some [1])).modLaunch 0 (fun l => { l with saved := true }), _, rfl, rfl, by decide +kernel⟩

/-- A stream of one chunk at a stage, as of the stamp `c`. -/
def stream (stage : CkStage) (status : Option Word) (c : Dword) : State :=
  { mapped 0x37F (sending none) with
    sends := []
    ckpts := [{ id := 9, launch := 0, xlat := ⟨0, 0, 0, 0x20000, 0⟩, thread := k0, core := 0, word := 5, dst := some 2, desc := 0x30000,
                base := 0x40000, len := 0x10000, ckid := 1, endpoint := 2, floor := c, shadow := false, access := 0, chunk := 0, stage := stage,
                data := [], status := status, due := 0 }] }

/-- A chunk that is asked for, sent, or waits for its die; and a status that stands, of a context that is there and of one that is away. -/
theorem meets_SendsAndStreams_ckpt : (∀ stage ∈ [CkStage.asked, .sent, .sending], ∃ c, (stream stage none 0).ckpts.find? (fun y => y.id == 9) = some c ∧
      c.shadow = false ∧ c.status = none ∧ c.stage = stage ∧ dieOf c.core ∉ (stream stage none 0).pausedDies ∧ c.len / 65536 ≤ c.chunk + 1) ∧
    (∃ (s : State) (c : Ckpt), s.ckpts.find? (fun y => y.id == 9) = some c ∧ c.shadow = false ∧ c.status = none ∧ c.stage = .asked ∧
      dieOf c.core ∈ s.pausedDies) ∧
    (∃ (s : State) (c : Ckpt) (l : Launch) (x : Thread), s.ckpts.find? (fun y => y.id == 9) = some c ∧ c.shadow = false ∧ c.status = some 0 ∧
      Tab.find s.launches c.launch = some l ∧ l.awayAt c.core = false ∧ s.thread c.thread = some x ∧ x.st ≠ .exited ∧
      ∃ a ∈ x.async, a.req = 9 ∧ a.loc = 2 ∧ a.lost = false) ∧
    ∃ (s : State) (c : Ckpt) (l : Launch), s.ckpts.find? (fun y => y.id == 9) = some c ∧ c.shadow = false ∧ c.status = some 0 ∧
      Tab.find s.launches c.launch = some l ∧ l.awayAt c.core = true := by
  refine ⟨?_, ⟨{ stream .asked none 0 with pausedDies := [0] }, _, rfl, rfl, rfl, rfl, by decide +kernel⟩,
    ⟨stream .sent (some 0) 0, _, _, _, rfl, rfl, rfl, rfl, by decide +kernel, rfl, by decide +kernel, _, List.mem_cons_self, rfl, rfl, rfl⟩,
    (stream .sent (some 0) 0).modLaunch 0 (fun l => { l with saved := true }), _, _, rfl, rfl, rfl, rfl, by decide +kernel⟩
  intro st h
  simp only [List.mem_cons, List.not_mem_nil, or_false] at h
  obtain rfl | rfl | rfl := h <;> exact ⟨_, rfl, rfl, rfl, rfl, by decide +kernel, by decide⟩

theorem bytes_past {m : Memory} {b : Nat} (h : m.all (fun c => decide (c.1 < b)) = true) :
    ∀ n a, b ≤ a → m.bytes a n = List.replicate n 0 := by
  have one : ∀ a, b ≤ a → m.byte a = 0 := by
    intro a ha
    induction m with
    | nil => rfl
    | cons c m ih =>
      simp only [List.all_cons, Bool.and_eq_true, decide_eq_true_eq] at h
      have h1 : c.1 ≠ a := by omega
      have h2 : ¬ a < c.1 := by omega
      simp only [Memory.byte, h1, h2, if_false, ih h.2]
  intro n
  induction n with
  | zero => intro a _; rfl
  | succ n ih => intro a ha; simp only [Memory.bytes, one a ha, ih (a + 1) (by omega), List.replicate_succ]

theorem asof_past {s : State} {b part line : Nat} (h : s.mem.all (fun c => decide (c.1 < b)) = true) (h1 : s.lineMeta = []) (h2 : s.poison = [])
    (h3 : s.migrations = []) (hl : b ≤ line * 64) : s.asofLine part line 0 = .found (List.replicate 64 0) 0 := by
  simp [State.asofLine, State.dataLine, h1, h2, h3, Tab.find, bytes_past h 64 _ hl]

/-- A chunk of a historied page that is being read as of the stamp 0; and one for which SETTLED has yet to come. -/
theorem meets_SendsAndStreams_reading :
    (∃ (t : State) (e : TlbEntry) (c : Ckpt) (data : List Byte), (stream .reading none 0).ckpts.find? (fun y => y.id == 9) = some c ∧
      c.stage = .reading ∧ (stream .reading none 0).ckptXlat c.xlat c.va = (t, .ok (some e)) ∧ e.attrs.hist = true ∧
      c.floor.toNat ≤ t.settled.toNat ∧ t.chainMoving (e.phys c.va) = false ∧ data.length = 65536 ∧
      ∀ i, i < 1024 → ∃ x, t.asofLine c.xlat.part (e.phys c.va / 64 + i) c.floor = .found ((data.drop (64 * i)).take 64) x) ∧
    ∃ (t : State) (e : TlbEntry) (c : Ckpt), (stream .reading none 9).ckpts.find? (fun y => y.id == 9) = some c ∧ c.stage = .reading ∧
      (stream .reading none 9).ckptXlat c.xlat c.va = (t, .ok (some e)) ∧ e.attrs.hist = true ∧ t.tickHeld = false ∧
      t.settled.toNat < c.floor.toNat := by
  refine ⟨⟨_, _, _, List.replicate 65536 0, rfl, rfl, rfl, rfl, by decide +kernel, by decide +kernel, List.length_replicate, fun i h => ⟨0, ?_⟩⟩,
    _, _, _, rfl, rfl, rfl, rfl, by decide +kernel, by decide +kernel⟩
  have e : ((List.replicate 65536 (0 : Byte)).drop (64 * i)).take 64 = List.replicate 64 0 := by
    rw [List.drop_replicate, List.take_replicate]; congr 1; omega
  rw [e]
  exact asof_past (b := 0x30000) (by decide +kernel) rfl rfl rfl (Nat.le_trans (by decide) (Nat.mul_le_mul_right 64 (Nat.le_add_right 0x1000 i)))

/-- A descriptor that is sound, and one with a ring that is no multiple of 64; arm 63, the last, and 64. -/
theorem meets_Arms_install : base.boot = .ready ∧ 63 < 64 ∧ (64 : Nat) ≤ 64 ∧
    (base.part 0).armBad 63 (leBytes (7 + 2 ^ 63 + 0x30000 * 2 ^ 64 + 0x40000 * 2 ^ 128 + 2 * 2 ^ 192 + 64 * 2 ^ 208) 32) = false ∧
    (base.part 0).armBad 63 (leBytes (7 + 2 ^ 63 + 0x30000 * 2 ^ 64 + 0x40001 * 2 ^ 128 + 2 * 2 ^ 192 + 64 * 2 ^ 208) 32) = true := by
  decide +kernel

/-- An installation over an arm that a software arm is mapped to. -/
theorem meets_Arms_over : ∃ (p : Partition) (o : Arm) (y : SoftArm), p = { Partition.reset with
      arms := [(63, { arm7 [(0, 4)] with past := [(1, 5)], soft := some 0 })]
      soft := [{ tag := 7, addr := 0x30000, mapped := some 63, pending := false, fill := 0, busy := [] }] } ∧
    Tab.find p.arms 63 = some o ∧ o.soft = some 0 ∧ p.soft[0]? = some y := ⟨_, _, _, rfl, rfl, rfl, rfl⟩

/-- A message that waits at an entry, which is still busy; and one whose tag no arm takes now. -/
theorem meets_Arms_retry : ∃ (s t : State) (r : Retry), s = { armed 0x4B490001 [(0, 4)] with retries := [⟨9, 0, msg [1], 1, none, 1500⟩] } ∧
    s.retries.find? (fun y => y.id == 9) = some r ∧
    t = { s with cycle := max s.cycle r.due, retries := s.retries.filter (fun y => y.id != 9) } ∧ (s.part r.part).closed = false ∧
    t.behindLate r.part (r.late.getD s.uid) = false ∧
    (s.part 0).arms.find? (fun e => e.2.armed && e.2.tag == r.msg.tag) = some (0, arm7 [(0, 4)]) ∧ r.msg.payload ≠ [] ∧
    r.msg.payload.length ≤ (arm7 [(0, 4)]).size ∧ (arm7 [(0, 4)]).count ≠ 0 ∧ ((arm7 [(0, 4)]).fill, 4) ∈ (arm7 [(0, 4)]).busy ∧ r.interval ≠ 0 ∧
    Unarmed (State.reset.part 0) r.msg.tag ∧ (State.reset.part 0).closed = false :=
  ⟨_, _, _, rfl, rfl, rfl, by decide +kernel, by decide +kernel, by decide +kernel, by decide, by decide, by decide, by decide, by decide,
    ⟨by decide +kernel, forall_nil rfl⟩, by decide +kernel⟩

/-- A software arm that a message waits for, its descriptor at 0x30000, and no hardware arm in use. -/
def soft : State :=
  ({ leafAt 0x33F State.reset with
      boot := .ready
      mem := (leafAt 0x33F State.reset).mem.puts 0x30000 (leBytes (7 + 2 ^ 63 + 0x50000 * 2 ^ 64 + 0x40000 * 2 ^ 128 + 2 * 2 ^ 192 + 64 * 2 ^ 208) 32) }).modPart
    0 (fun p => { p with cfgs := [{ part := 0, vf := 0, asid := 0, s1root := 0x20000, s2root := 0 }],
                         soft := [{ tag := 7, addr := 0x30000, mapped := none, pending := true, fill := 0, busy := [] }] })

theorem meets_Arms_quantum : (∀ y ∈ (State.reset.part 0).soft, y.pending = false) ∧
    ∃ (s t t' : State) (y : SoftArm) (l : List Byte), s = soft ∧ (s.part 0).soft = [y] ∧ y.pending = true ∧ y.mapped = none ∧ (s.part 0).arms = [] ∧
      t = (s.at_ (s.part 0).quantumDue).modPart 0 (fun p => { p with quantumDue := p.quantumDue + p.quantum * s.micro }) ∧
      t.feRead (t.runXlat 0) y.addr 32 = (t', some l) ∧ (t'.part 0).armBad 0 l = false ∧ natBit (leNat l) 63 = true ∧
      natBits (leNat l) 0 32 = y.tag.toNat := by
  obtain ⟨t', l, h, hf⟩ := pair_some (fun s l => !(s.part 0).armBad 0 l && natBit (leNat l) 63 && decide (natBits (leNat l) 0 32 = 7))
    (x := ((soft.at_ (soft.part 0).quantumDue).modPart 0 (fun p => { p with quantumDue := p.quantumDue + p.quantum * soft.micro })).feRead
      (((soft.at_ (soft.part 0).quantumDue).modPart 0 (fun p => { p with quantumDue := p.quantumDue + p.quantum * soft.micro })).runXlat 0) 0x30000 32)
    (by decide +kernel)
  simp only [Bool.and_eq_true, Bool.not_eq_true', decide_eq_true_eq] at hf
  exact ⟨forall_nil rfl, _, _, t', _, l, rfl, rfl, rfl, rfl, rfl, rfl, h, hf.1.1, hf.1.2, hf.2⟩

/-! ### The dispatcher -/

/-- A launch of one block pending in partition 0, which has cluster 0. -/
def waiting : State :=
  ({ (base.modLaunch 0 (fun l => { l with status := .pending, nextBlock := 0, rcd := { l.rcd with res := false } })) with
    warps := [], blocks := [], groups := [], bundles := [], boot := .ready } : State).modPart 0 (fun p => { p with entry := 0x80000000 })

theorem meets_Dispatcher_place : ∃ (l : Launch), waiting.pending 0 = 0 :: [] ∧ Tab.find waiting.launches 0 = some l ∧ l.rcd.res = false ∧
    l.rcd.red = false ∧ l.capsRead = true ∧ l.nextBlock < l.rcd.blocks ∧ waiting.spot 0 l = some (0, none) ∧
    waiting.backfillDue 0 = some (0, l.waitSince + 10000 * waiting.micro) :=
  ⟨_, by decide +kernel, rfl, rfl, rfl, rfl, by decide +kernel, by decide +kernel, by decide +kernel⟩

/-- `base` with its thread exited; its launch has one block to retire, or two. -/
def exited (n : Nat) : State :=
  ((base.modThread k0 (fun t => { t with st := .exited })).modLaunch 0 (fun l => { l with rcd := { l.rcd with extents := [1, 1, n, 1, 1, 1] } }))

theorem meets_Dispatcher_retire : ∀ n ∈ [1, 2], ∃ (s : State) (x : Block) (l : Launch), s = exited n ∧ Tab.find s.blocks 1 = some x ∧ x.launch = 0 ∧
    Tab.find s.launches 0 = some l ∧ s.retireMay 1 = true ∧ s.twinBlock 1 = none ∧ s.unitsDone 1 = true ∧ s.foreignOps 1 = [] ∧ s.blockSucc 1 = none ∧
    l.rcd.succ = 0 ∧ (l.rcd.blocks ≤ l.nextBlock ↔ n = 1) ∧ l.retired = 0 := by
  intro n h
  simp only [List.mem_cons, List.not_mem_nil, or_false] at h
  obtain rfl | rfl := h <;>
  exact ⟨_, _, _, rfl, rfl, rfl, rfl, by decide +kernel, by decide +kernel, by decide +kernel, by decide +kernel, by decide +kernel, rfl, by decide +kernel, rfl⟩

/-! ### The engines at work -/

/-- A copy of 512 bytes from 0x1000 to 0x2000 of the own area, its request at 0x80 and its arrival word, of 512 bytes to come, at 0x180. -/
def copying (running : Bool) (count : Nat) : State :=
  base.modCore 0 (fun c =>
    { c with
      scratch := (c.scratch.puts 0x80 (leBytes 0x120 4 ++ leBytes 0x180 4 ++ leBytes 0xFF00000000001000 8 ++ leBytes 0xFF00000000002000 8 ++ leBytes 512 4)).puts
        0x180 (leBytes 512 4)
      copy := { c.copy with running := running, queue := [{ op := 3, block := 1, warp := 2, word := 5, at_ := 0x80, count := count, floor := 0, told := true }] } })

theorem meets_CopyEngine_start : ∃ (s : State) (q : Chain) (x : EngCtx) (a : Nat) (r : CopyReq), s = copying false 0 ∧
    (s.core 0).copy.queue = q :: [] ∧ (s.core 0).copy.running = false ∧ (s.core 0).copy.waiting = none ∧ (s.core 0).copy.read = false ∧
    s.engStill q.block = false ∧ s.engCtx 0 q.block = some x ∧ s.ownBytes q.block 0 q.at_ 64 = some a ∧ r = copyReq (s.scratchGet 0 a 64) ∧
    (s.copyArrive x r).isSome = true ∧ s.copyOk x r = true ∧ (q.count + 1 = 64 → r.last = true) ∧ s.locksFit (s.copyLocks x q.op a r) = true ∧
    s.locksClash (s.copyLocks x q.op a r) = false :=
  ⟨_, _, _, _, _, rfl, rfl, rfl, rfl, rfl, rfl, rfl, rfl, rfl, rfl, by decide +kernel, by decide +kernel, by decide +kernel, by decide +kernel⟩

/-- The copy of `copying` once its request has been read. -/
def granular : State :=
  (copying true 1).modCore 0 (fun c => { c with copy := { c.copy with req := some (copyReq ((copying true 1).scratchGet 0 0x80 64)) } })

/-- What a copy's granule needs, with 512 bytes left: the request's place, its arrival word's, and every element's place. -/
theorem meets_CopyEngine_granule : ∃ (q : Chain) (x : EngCtx) (r : CopyReq), (granular.core 0).copy.queue = q :: [] ∧
    (granular.core 0).copy.running = true ∧ (granular.core 0).copy.hit = false ∧ (granular.core 0).copy.waiting = none ∧
    granular.engStill q.block = false ∧ granular.engCtx 0 q.block = some x ∧ granular.ownBytes q.block 0 q.at_ 64 = some 0x80 ∧
    (granular.core 0).copy.req = some r ∧ granular.copyArrive x r = some 0x180 ∧ r.op = 0 ∧ r.esz ≤ 4 ∧ r.len0 < 2 ^ 32 ∧ r.len0 % 2 ^ r.esz = 0 ∧
    r.resume % 256 = 0 ∧ r.resume < r.len0 ∧ r.len0 = 512 ∧
    (∀ i : Nat, i < 512 → granular.engPlace x (2 ^ r.esz) (r.src + BitVec.ofInt 64 i) = .scr [(0, 0x1000 + i)] false) ∧
    (∀ i : Nat, i < 512 → granular.engPlace x (2 ^ r.esz) (r.dst + BitVec.ofInt 64 i) = .scr [(0, 0x2000 + i)] false) ∧
    Disjoint4 0x1000 512 0x2000 512 0x80 64 0x180 8 ∧ (granular.core 0).scratch.wf = true ∧
    min 256 (512 - r.resume) ≤ (granular.core 0).scratch.nat 0x180 4 :=
  ⟨_, _, _, rfl, rfl, rfl, rfl, rfl, rfl, rfl, rfl, rfl, by decide +kernel, by decide +kernel, by decide +kernel, by decide +kernel, by decide +kernel,
    by decide +kernel, by decide +kernel, by decide +kernel, by decide +kernel, by unfold Disjoint4; decide, by decide +kernel, by decide +kernel⟩

/-- A matrix operation of the block, with its parameter block. -/
def matOp (kind : MatKind) (flags : Nat) (arrive : Option Nat) (started group : Bool) : MatOp :=
  { op := 3, block := 1, warp := 2, word := 5, kind := kind, slot := 0,
    params := leBytes 0xFF00000000004000 8 ++ leBytes 0xFF00000000008000 8 ++ leBytes 64 2 ++ leBytes 64 2 ++ leBytes 128 4 ++ leBytes 128 4 ++
      leBytes 64 4 ++ leBytes 0 16 ++ leBytes 0 4 ++ leBytes 0x180 4 ++ leBytes 0 8 ++ leBytes flags 4 ++ leBytes 0 60,
    arrive := arrive, floor := 0, started := started, steps := 0, stamp := 0, lines := [], group := group, waiting := none, hit := false, due := 0 }

/-- A state whose launch has INT8 for A and B in slot 0, and whose cores have matrix operations. -/
def matrix (ops : Tab MatOp) : State :=
  ops.foldl (fun s o => s.modCore o.1 (fun c => { c with mat := [o.2] }))
    (((base.modLaunch 0 (fun l => { l with rcd := { l.rcd with slots := [0x66] } })).modBlock 1 (fun b => { b with areas := [(0, 0), (1, 0)] })).modCore 0
      (fun c => { c with scratch := c.scratch.puts 0x180 (leBytes 1 4) }))

/-- An MMA of one K step and an ACCZ. -/
theorem meets_MatrixEngine_start : ∀ o ∈ [matOp (.mma false) 0 (some 0x180) false false, matOp (.zero 0xFFFF) 0 none false false],
    ∃ (s : State) (c : EngCtx), s = matrix [(0, o)] ∧ (s.core 0).mat.find? (fun o => !o.started) = some o ∧ s.engStill o.block = false ∧
      s.engCtx 0 o.block = some c ∧ o.behind c (s.core 0).mat (s.engCtx 0) = false ∧ s.matOk c o = true ∧ s.locksFit (s.matLocks c o) = true ∧
      s.matClash (s.matLocks c o) = false := by
  intro o h
  simp only [List.mem_cons, List.not_mem_nil, or_false] at h
  obtain rfl | rfl := h <;>
  exact ⟨_, _, rfl, rfl, rfl, rfl, by decide +kernel, by decide +kernel, by decide +kernel, by decide +kernel⟩

/-- Two cores in one multicast. -/
theorem meets_MatrixEngine_group : ∃ (s : State) (ms : List (Nat × MatOp × Mma)) (o : MatOp) (x : Mma),
    s = matrix [(0, matOp (.mma false) 3 none true true), (1, matOp (.mma false) 3 none true true)] ∧ s.groupReady 0 = some ms ∧
    s.groupOp 0 = some (o, x) ∧ (∀ r ∈ ms, x.agree r.2.2 = true) ∧ ms.length = 2 :=
  ⟨_, _, _, _, rfl, rfl, rfl, by decide +kernel, by decide +kernel⟩

theorem meets_MatrixEngine_zero : ∃ (s : State) (o : MatOp) (c : EngCtx), s = matrix [(0, matOp (.zero 0x8001) 0 none true false)] ∧
    (s.core 0).mat.find? (fun o => o.op == 3 && o.started && !o.group) = some o ∧ o.kind = .zero 0x8001 ∧ o.hit = false ∧ o.waiting = none ∧
    o.arrive = none ∧ s.engStill o.block = false ∧ s.engCtx 0 o.block = some c ∧ (∀ t ∈ maskTiles 0x8001, t ∉ (s.core 0).stuckTiles) ∧
    (s.core 0).tiles.Pairwise (fun a b => a.1 < b.1) :=
  ⟨_, _, _, rfl, rfl, rfl, rfl, rfl, rfl, rfl, rfl, by decide +kernel, .nil⟩

theorem meets_MatrixEngine_mma : ∃ (s : State) (o : MatOp) (c : EngCtx) (x : Mma) (s1 : State) (pages : List ((Nat × Bool) × TlbEntry)),
    s = matrix [(0, matOp (.mma false) 0x40 (some 0x180) true false)] ∧
    (s.core 0).mat.find? (fun o => o.op == 3 && o.started && !o.group) = some o ∧ o.kind = .mma false ∧ o.hit = false ∧ o.waiting = none ∧
    s.engStill o.block = false ∧ s.engCtx 0 o.block = some c ∧ x = mmaOf false (c.slot o.slot) o.params ∧ o.steps = 0 ∧ x.k = kStep (slotA_ x.slot) ∧
    dimOk x.m = true ∧ dimOk x.n = true ∧ tilesOk (slotA_ x.slot) x.tile x.m x.n = true ∧ (s.core 0).tiles.Pairwise (fun a b => a.1 < b.1) ∧
    s.matHeld 0 o = false ∧ s.matPages 0 c o 0 (s.piecePages c false x.pieces) = (s1, some pages) ∧ s1.tileUe 0 c o = false ∧ s1.piecePoison c pages x.pieces = false ∧
    s1.badMeta c pages x = false ∧ o.arrive = some 0x180 ∧ s.ownBytes o.block 0 0x180 8 = some 0x180 ∧ 1 ≤ (s.core 0).scratch.nat 0x180 4 ∧
    x.acc = true :=
  ⟨_, _, _, _, _, _, rfl, rfl, rfl, rfl, rfl, rfl, rfl, rfl, rfl, by decide +kernel, by decide +kernel, by decide +kernel, by decide +kernel, .nil, rfl, rfl,
    by decide +kernel, by decide +kernel, by decide +kernel, rfl, rfl, by decide +kernel, by decide +kernel⟩

/-- A step of one generation that is queued. -/
theorem meets_Waffle_start : ∃ (s : State) (o : RuleStep) (d : RuleDesc), s = ruled (stepped base false) 0 0 0 ∧ (s.waffle 0).queue = o :: [] ∧
    o.started = false ∧ s.engStill o.block = false ∧ s.boundDesc 0 = some (0, Config.scratchBytes, 0x100, d) ∧ d.ok Config.scratchBytes = true ∧
    d.apart 0x100 = true ∧ d.run = false ∧ 1 ≤ o.g.toNat ∧ o.g.toNat ≤ d.h ∧ s.locksFit (ruleLocks 0 o 0 0x100 d) = true ∧
    s.locksClash (ruleLocks 0 o 0 0x100 d) = false ∧ (s.core 0).scratch.wf = true :=
  ⟨_, _, _, rfl, rfl, rfl, rfl, rfl, by decide +kernel, by decide +kernel, by decide +kernel, by decide, by decide +kernel, by decide +kernel,
    by decide +kernel, by decide +kernel⟩

/-- A generation of each mode. -/
theorem meets_Waffle_generation : ∀ m ∈ [0, 1], ∃ (s : State) (o : RuleStep) (d : RuleDesc), s = ruled (stepped base true) m 1 1 ∧
    (s.waffle 0).queue = o :: [] ∧ o.started = true ∧ s.engStill o.block = false ∧ (s.waffle 0).hit = false ∧ (s.waffle 0).half = false ∧
    s.boundDesc 0 = some (0, Config.scratchBytes, 0x100, d) ∧ d.ok Config.scratchBytes = true ∧ d.apart 0x100 = true ∧
    overlap d.arrive 8 0x100 64 = false ∧ d.gen < d.target ∧ (s.core 0).scratch.wf = true ∧ d.mode = m := by
  intro m h
  simp only [List.mem_cons, List.not_mem_nil, or_false] at h
  obtain rfl | rfl := h <;>
  exact ⟨_, _, _, rfl, rfl, rfl, rfl, rfl, rfl, rfl, by decide +kernel, by decide +kernel, by decide +kernel, by decide +kernel, by decide +kernel,
    by decide +kernel⟩

/-! ### Partitions, the platform, and the outside -/

/-- An entry that is bad, a first one that is sound, and one that replaces an enabled entry, whose partition has an invalidation and a message
waiting; a partition in reset; and a link of a die, the last, and one past it. -/
theorem meets_Partitions : base.boot = .ready ∧ base.entryBad 0 0x80000201 = true ∧ base.entryBad 0 0x80010000 = false ∧
    natBit (base.part 0).entry.toNat 31 = false ∧
    (∃ s : State, s.boot = .ready ∧ s.entryBad 0 0x80010000 = false ∧ natBit (s.part 0).entry.toNat 31 = true ∧
      (∃ i ∈ s.invals, i.part = 0 ∧ i.by_ = none) ∧ ∃ r ∈ s.retries, r.part = 0) ∧
    (∃ s : State, (s.part 0).resetting = true) ∧ Config.linkOk 3 9 = true ∧ Config.linkOk 3 10 = false :=
  ⟨rfl, by decide +kernel, by decide +kernel, by decide +kernel,
    ⟨({ base with
        invals := [{ id := 3, part := 0, by_ := none, walks := [], reqs := [] }]
        retries := [⟨9, 0, msg [1], 1, none, 1500⟩] } : State).modPart 0 (fun p => { p with entry := 0x80010000 }), rfl, by decide +kernel,
      by decide +kernel, ⟨_, List.mem_cons_self, rfl, rfl⟩, _, List.mem_cons_self, rfl⟩,
    ⟨base.modPart 0 (fun p => { p with resetting := true }), by decide +kernel⟩, by decide, by decide⟩

/-- A device whose partition translates through a leaf of low half-word `l`. -/
def mappedPart (l : Nat) : State := (({ leafAt l State.reset with boot := .ready } : State).modPart 0 (fun p =>
  { p with cfgs := [{ part := 0, vf := 0, asid := 0, s1root := 0x20000, s2root := 0 }] }))

/-- A write of a whole line less its first byte, an atomic of eight bytes, and one on a page without SA. -/
theorem meets_OutsideAccesses_writes : ∃ (s : State) (e : TlbEntry) (met : List Nat), s = mappedPart 0x33F ∧ s.boot = .ready ∧ (s.part 0).closed = false ∧
    (List.replicate 63 (1 : Byte)).length ≤ 64 - (0x30001 : Dword).toNat % 64 ∧ s.walkAll (s.runXlat 0) 0x30001 = (.ok e, met) ∧
    s.leavesSeen met = true ∧ e.attrs.write = true ∧ e.attrs.hist = false ∧ e.dirty = true ∧ s.mem.wf = true ∧
    ∃ (e2 : TlbEntry) (met2 : List Nat), (0x30008 : Dword).toNat % 8 = 0 ∧ s.walkAll (s.runXlat 0) 0x30008 = (.ok e2, met2) ∧ s.leavesSeen met2 = true ∧
      e2.attrs.write = true ∧ e2.attrs.sa = true ∧ e2.attrs.hist = false ∧ e2.dirty = true ∧ lineOf (e2.phys 0x30008) ∉ s.poison ∧
    ∃ (t : State) (e3 : TlbEntry) (met3 : List Nat), t = mappedPart 0x23F ∧ t.boot = .ready ∧ (t.part 0).closed = false ∧
      t.walkAll (t.runXlat 0) 0x30008 = (.ok e3, met3) ∧ t.leavesSeen met3 = true ∧ e3.attrs.sa = false :=
  ⟨_, _, _, rfl, rfl, by decide +kernel, by decide, rfl, by decide +kernel, rfl, rfl, rfl, by decide +kernel, _, _, by decide, rfl,
    by decide +kernel, rfl, rfl, rfl, rfl, by decide +kernel, _, _, _, rfl, rfl, by decide +kernel, rfl, by decide +kernel, rfl⟩

/-- A write to a frame that is being moved. -/
theorem meets_OutsideAccesses_later : ∃ (s t : State), s.boot = .ready ∧ (s.part 0).closed = false ∧
    s.feStore (s.runXlat 0) 0x30000 0 [1] = (t, .later) :=
  ⟨(fun s : State => { s with
      mem := s.mem.puts 0x28000 (leBytes 0x33F 8)
      migrations := [{ part := 0, old := 0x30000, new := 0x50000, stage := 1, waits := [] }] })
    ((mappedPart 0x33F).modPart 0 (fun p => { p with cfgs := [{ part := 0, vf := 0, asid := 0, s1root := 0x20000, s2root := 0x28000 }] })), _, rfl,
    by decide +kernel, end_of (by decide +kernel)⟩

/-- A migration of frame 0x30000 at a stage. -/
def migrating (stage : Nat) (s : State) : State :=
  { s with migrations := [{ part := 0, old := 0x30000, new := 0x50000, stage := stage, waits := [] }] }

/-- The first step of a migration; the second while a store to the frame is on its way, and with none; the fourth; and the last. -/
theorem meets_OutsideAccesses_migration : base.migrations = [] ∧ base.reqs = [] ∧ 0x30000 % 65536 = 0 ∧ 0x50000 % 65536 = 0 ∧ 0x30000 ≠ 0x50000 ∧
    0x50000 < 2 ^ 52 ∧ (migrating 1 base).mem.wf = true ∧
    (∀ n, ∃ m, (migrating n base).migrations.find? (fun m => m.part == 0 && m.old == 0x30000 && m.new == 0x50000) = some m ∧
      (migrating n base).migrations = [m] ∧ m.stage = n ∧ m.waits = []) ∧
    (migrating 1 (sent (.store [1]) .global 0x30000 [] .sent)).onWay 0x30000 = true ∧ (migrating 1 base).onWay 0x30000 = false ∧
    (migrating 4 base).frozenWaits = [] :=
  ⟨rfl, rfl, by decide, by decide, by decide, by decide, by decide +kernel, fun _ => ⟨_, rfl, rfl, rfl, rfl⟩, by decide +kernel, by decide +kernel,
    by decide +kernel⟩

/-- The device at reset, in bring-up with a sound image; after an image failed; and as its firmware starts. -/
theorem meets_Power : State.reset.supply = true ∧ State.reset.boot = .bringUp ∧ State.reset.imageOk = true ∧
    ({ State.reset with imageOk := false } : State).boot = .bringUp ∧ ({ State.reset with boot := .starting } : State).boot = .starting ∧
    State.reset.boot ≠ .ready ∧ base.boot = .ready ∧ ({ State.reset with supply := false } : State).supply = false ∧
    State.reset.powerCap = false ∧ ({ State.reset with powerCap := true } : State).powerCap = true := by decide

/-! ### The machine as a whole -/

/-- A port's turn at a word that decodes, at a reserved opcode, and at a word whose operand faults. -/
theorem meets_StepRunsWord : ∀ w ∈ [(0xF0008001 : Word), 0xF3E0007F, 0xF0128001], ∃ (s : State) (turns : List Turn) (b : Bundle) (l : Launch),
    s = State.reset.placeWord .gen w 0x10000 ∧ s.supply = true ∧ s.agenda = .port 0 :: turns ∧ Tab.find s.bundles 0 = some b ∧ b.fetched = true ∧
    b.threads.head? = some k0 ∧ s.launchOf k0.warp = some l ∧ b.words[b.pos + b.lits]? = some w := by
  intro w h
  simp only [List.mem_cons, List.not_mem_nil, or_false] at h
  obtain rfl | rfl | rfl := h <;> exact ⟨_, _, _, _, rfl, rfl, rfl, rfl, rfl, rfl, rfl, by decide +kernel⟩

/-- The three fates of those words. -/
theorem test_fates : (∃ i, decodeWord (DecCtx.open .gen) [] 0xF0008001 = .ok i) ∧
    (∃ f, decodeWord (DecCtx.open .gen) [] 0xF3E0007F = .error f ∧ f.cause = .reserved) ∧
    ∃ f, decodeWord (DecCtx.open .gen) [] 0xF0128001 = .error f ∧ f.cause = .operand :=
  ⟨⟨_, rfl⟩, ⟨_, rfl, rfl⟩, ⟨_, rfl, rfl⟩⟩

/-- An event's turn. -/
theorem meets_StepRunsWord_event : ∃ (s : State) (i : Instr) (turns : List Turn), s.supply = true ∧ s.agenda = .event i :: turns :=
  ⟨{ State.reset with agenda := [.event .referenceTick] }, _, _, rfl, rfl⟩

/-- `base` with its thread ready and in no bundle, the port idle. -/
def idle : State := { base with bundles := [], warps := base.warps.map (fun w => (w.1, { w.2 with threads := w.2.threads.map (fun t =>
  { t with st := .ready, pos := ⟨0x10000, 0⟩ }) })) }

/-- A port without candidates, and one with a candidate. -/
theorem meets_PickerFormBundle_form : (Tab.find State.reset.bundles (portKey 0 0 .arith) = none ∧ State.reset.cands 0 0 .arith = []) ∧
    ∃ (start : Nat) (now : List Cand), Tab.find idle.bundles (portKey 0 0 .arith) = none ∧
      startOf ((Tab.find idle.portFree (portKey 0 0 .arith)).getD 0) idle.cycle (idle.cands 0 0 .arith) = some start ∧
      now = standing ((Tab.find idle.portFree (portKey 0 0 .arith)).getD 0) start (idle.cands 0 0 .arith) ∧ (∀ c ∈ now, c.stop = false) ∧
      choose start now ≠ [] :=
  ⟨⟨rfl, by decide +kernel⟩, _, _, rfl, rfl, rfl, by decide +kernel, by decide +kernel⟩

/-- The placed word's bundle before its clause is fetched. -/
def unfetched : State :=
  (State.reset.placeWord .gen 0xF0008001 0x10000).modBundle 0 (fun b =>
    { b with fetched := false, pos := 0, words := [], hdr := { drain := 0, tc := false, step := 0, wait := 0, cls := .gen, n := 0 } })

theorem meets_PickerFormBundle_fetch : ∃ (s t : State) (b : Bundle) (p : Pass) (l : Launch) (pg : Nat) (e : TlbEntry) (h : Header) (ws : List Word),
    s = unfetched ∧ Tab.find s.bundles (portKey 0 0 .arith) = some b ∧ b.fetched = false ∧ (s.at_ b.next).fetchPass (portKey 0 0 .arith) b = some p ∧
    Tab.find s.launches p.launch = some l ∧ (s.at_ b.next).lookPages p l.xlat [p.pc.toNat] true = (t, [(pg, some (.ok e))]) ∧ e.attrs.exec = true ∧
    h = Header.ofWord (BitVec.ofNat 32 (t.mem.nat (e.phys p.pc.toNat) 4)) ∧ pageOf (p.pc.toNat + 4 * h.n) = pageOf p.pc.toNat ∧
    p.pc.toNat % 4 = 0 ∧ (∀ i, i ≤ h.n → lineOf (e.phys (p.pc.toNat + 4 * i)) ∉ t.poison) ∧
    ws = (List.range h.n).map (fun i => BitVec.ofNat 32 (t.mem.nat (e.phys (p.pc.toNat + 4 + 4 * i)) 4)) ∧ h.cls.port = .arith ∧
    clauseReason h ws = none ∧ p.pos < h.n ∧ (∀ k ∈ p.keys, ∃ x, s.thread k = some x ∧ x.deferred = []) ∧ p.keys ≠ [] ∧
    ∀ k ∈ p.keys, ∃ w, Tab.find s.warps k.warp = some w ∧ w.waitMet h.wait = true :=
  ⟨_, _, _, _, _, _, _, _, _, rfl, rfl, rfl, rfl, rfl, rfl, rfl, rfl, by decide +kernel, by decide +kernel, fun _ _ => List.not_mem_nil, rfl,
    by decide +kernel, by decide +kernel, by decide +kernel, forall_one rfl ⟨_, rfl, rfl⟩, List.cons_ne_nil _ _,
    forall_one rfl ⟨_, rfl, by decide +kernel⟩⟩

/-- A word with literals that is well formed. -/
theorem meets_DecodeEncode : ∃ (i : Instr) (sg : Sig), i.sig = some sg ∧ i.wf = true ∧ (encode i).length = 3 :=
  ⟨.ldw { h := free, mm := none, d := .v 5, a := .v 2, b := .imm2 1 8 }, _, rfl, by decide, by decide⟩

/-- The first step of the device with its supply on. -/
theorem meets_MemoryStaysCanonical : ∃ s u : State, MemoryCanonical s ∧ step s = .next u :=
  ⟨{ State.reset with agenda := [.event .referenceTick] }, _, by unfold MemoryCanonical; decide +kernel, rfl⟩

/-! ### One step -/

/-- A word placed after reset runs as the next step's instruction: IADD of 0 and 0, its thread gone on. -/
theorem test_step_iadd : ∃ t x, step (State.reset.withFetchWord 32 0xF0008001) = .next t ∧ t.thread k0 = some x ∧ x.issued = 1 := ⟨_, _, rfl, rfl, rfl⟩

/-- IADD wraps at 32 bits (R128): 0xFFFFFFFF + 3 is 2, readable 4 cycles on. -/
theorem test_iadd_wraps : ∃ t x, exec (.iadd tri) (regs 0xFFFFFFFF 3 0 0) = .next t ∧ t.thread k0 = some x ∧ (x.land 4).raw 2 = 2 :=
  ⟨_, _, rfl, rfl, by decide +kernel⟩

/-- MOVI's example of R136: `movi v3, #0x1234_5678`. -/
theorem test_movi : ∃ t x, exec (.movi { h := free, am := none, d := .v 3, imm14 := 0x78, lit := some 0x123456 }) base = .next t ∧
    t.thread k0 = some x ∧ (x.land 4).raw 3 = 0x12345678 := ⟨_, _, rfl, rfl, by decide +kernel⟩

/-! ### The assembler (spec/05) -/

section Assembler

open Asm

/-- A line of source. -/
def line1 : Asm.Src := { file := [], line := 1, body := none, ix := 0, col := 1, text := [] }

/-- A scope in which nothing is defined. -/
def bare : Scope_ := { cur := [], prev := [], others := [], here := Val.const 0 }

/-- The words of one line of source, or the number of its error. -/
def asm (t : String) : Except ExprErr (List Word) := (codeWord bare line1 (lex t.toList).1 0).map Coded.words

/-- The value of an expression. -/
def val (t : String) : Except ExprErr Dword := evalConst bare (lex t.toList).1

/-- A result that is this value. -/
def gives [DecidableEq α] (r : Except ExprErr α) (x : α) : Bool := match r with | .ok y => y == x | .error _ => false

/-- A result that is this error. -/
def fails (r : Except ExprErr α) (n : Nat) : Bool := match r with | .ok _ => false | .error e => e == .code n

/-- The words of Table 4.10. -/
theorem test_asm_isetp : gives (asm "isetp p0, v7, s13, eq") [0xF24003D5] = true := by decide +kernel

theorem test_asm_guarded : gives (asm "(p0) mov v7, s11") [0x0281E9C6] = true := by decide +kernel

theorem test_asm_run : gives (asm "ldw.acq.dev v8, s0, #0x40") [0xFA00602A, 0xF8000040, 0xF0822446] = true := by decide +kernel

theorem test_asm_rounded : gives (asm "fadd.rz k0, v8, v9") [0xFB000005, 0xF3100409] = true := by decide +kernel

/-- The words of the listing of R97. -/
theorem test_asm_listing : gives (asm "ffma k0, vx, s15 !") [0xF35023D7] = true ∧ gives (asm "mov vx, ~v4") [0xF691C246] = true ∧
    gives (asm "iadd v7, v7, s12") [0xF001C3D4] = true := by decide +kernel

/-- Table 5.5: an odd register for a pair, a latch as destination, a scalar destination outside the S space, an unknown name. -/
theorem test_asm_errors : fails (asm "ladd v3, v0, v2") 12 = true ∧ fails (asm "iadd l0, v0, v1") 11 = true ∧
    fails (asm "iadd s1, v0, v1") 13 = true ∧ fails (asm "iadd3 v3, v0, v1") 1 = true := by decide +kernel

/-- R89: `#1` on a binary32 B is raw bits that no literal holds; a decimal on an integer word is the bit pattern of its letter. -/
theorem test_asm_immediates : fails (asm "fadd v0, v1, #1") 3 = true ∧ gives (asm "fadd v0, v1, #1.0f") [0xF83F8000, 0xF30000C6] = true ∧
    gives (asm "movi v0, #1.0f") [0xF83F8000, 0xF2A00000] = true := by decide +kernel

/-- The examples of R90. -/
theorem test_asm_divide : gives (val "-7 / 2") (-3) = true ∧ gives (val "-7 % 2") (-1) = true ∧ fails (val "1 / 0") 5 = true ∧
    gives (val "(-1 << 63) / -1") 0x8000000000000000 = true ∧ gives (val "(-1 << 63) % -1") 0 = true := by decide +kernel

/-- R90's order of the operators. -/
theorem test_asm_order : gives (val "1 | 2 ^ 3 & 1 << 1 + 2 * ~-3") 3 = true := by decide +kernel

/-- The example of R94. -/
theorem test_asm_slot : gives ((keysOf (parts (lex "a=e4m3, b=e4m3, out=bf16, ascale=row, bscale=tile, sat".toList).1)).elim (.error (.code 1)) slotValue)
    0x19244 = true := by decide +kernel

/-- R84: a command line with an unknown name writes nothing and ends with status 2. -/
theorem test_asm_usage : (stolf ["--none".toList, "p.s".toList] []).status = 2 := by decide +kernel

/-- A program of one clause: the header and the word, 8 bytes of `.text` (R86, Table 5.2). -/
theorem test_asm_object : ((stolf ["p.s".toList] [("p.s".toList, ".target isaeg\n.clause ctl tc\nexit\n".toList)]).obj.map (fun o =>
    (o.1, (o.2.place (fun _ => 0) [] .text)))) = some ("p.o".toList, some [0x31, 0, 1, 0, 0x60, 0x30, 0xB8, 0xF0]) := by decide +kernel

/-- A constant that needs the pair of literals, and a form that supplies it. -/
theorem meets_ImmediateForms : ∃ (c : Dword) (f : ImmForm), constForm .i64 c 0 = some f ∧ Supplies .i64 f c ∧ Patterned .i64 c ∧ f.size = 2 :=
  ⟨0x800000, formPair 0x800000, by decide +kernel, rfl, trivial, rfl⟩

/-- A constant that MOVI holds in imm14 alone, and one in a binary32 B. -/
theorem meets_ImmediateForms_words : (∃ f, constForm .movi 0x1FFF 0 = some f ∧ Supplies .movi f 0x1FFF ∧ Patterned .movi 0x1FFF ∧ f.size = 0) ∧
    ∃ f, constForm .f32 0x3F800000 0 = some f ∧ Supplies .f32 f 0x3F800000 ∧ Patterned .f32 0x3F800000 ∧ f.size = 1 :=
  ⟨⟨formMovi 0x1FFF 0, by decide +kernel, rfl, rfl, by decide +kernel⟩,
   ⟨formIm 0x3F8000, by decide +kernel, rfl, rfl, by decide +kernel⟩⟩

end Assembler

/-! ### The calling convention (R98) -/

/-- A stack pointer of 8 is not aligned; v16 is kept across a call, v8 is not. -/
theorem test_abi : abiFile 16 = .callee ∧ abiFile 8 = .caller ∧ abiScalar 95 = .caller ∧ abiPred 6 = .callee := by decide

end Sys2Proof
end

section
/-! SUPPORT. Memory through a step. First the frames: every operation of the model that leaves memory alone, one lemma `..._mem` for each.
Then what every operation that writes memory keeps: the canonical form, one lemma `..._mem_wf` for each, from the single writes up to the
front end. Then the outcomes: words, events, and the turn of the agenda that a step is. -/

namespace Sys2Proof.Machine

/-! ### Choices and folds -/

/-- A choice between two states leaves a memory both of them have. -/
@[simp] theorem State.ite_mem (c : Prop) [Decidable c] (a b : State) : (if c then a else b).mem = if c then a.mem else b.mem :=
  apply_ite State.mem c a b

@[simp] theorem State.ite_fst_mem {β : Type} (c : Prop) [Decidable c] (a b : State × β) :
    (if c then a else b).1.mem = if c then a.1.mem else b.1.mem := apply_ite (fun x : State × β => x.1.mem) c a b

/-- A fold whose every turn leaves memory alone leaves memory alone. -/
@[simp] theorem State.foldl_mem {α : Type} {f : State → α → State} (hf : ∀ s x, (f s x).mem = s.mem) (l : List α) (s : State) :
    (l.foldl f s).mem = s.mem := by
  induction l generalizing s with
  | nil => rfl
  | cons x rest ih => rw [List.foldl_cons, ih, hf]

/-- The same of a fold that carries a value beside the state. -/
@[simp] theorem State.foldl_fst_mem {α β : Type} {f : State × β → α → State × β} (hf : ∀ a x, (f a x).1.mem = a.1.mem) (l : List α)
    (a : State × β) : (l.foldl f a).1.mem = a.1.mem := by
  induction l generalizing a with
  | nil => rfl
  | cons x rest ih => rw [List.foldl_cons, ih, hf]

/-! Folds of one update: the pattern says what the update is of, so that `simp` needs no proof of a side condition. -/

@[simp] theorem State.foldl_modThread_mem {α : Type} (k : State → α → TKey) (g : State → α → Thread → Thread) (l : List α) (s : State) :
    (l.foldl (fun s x => s.modThread (k s x) (g s x)) s).mem = s.mem := State.foldl_mem (fun _ _ => State.modThread_mem _ _ _) l s

@[simp] theorem State.foldl_modWarp_mem {α : Type} (k : State → α → Nat) (g : State → α → Warp → Warp) (l : List α) (s : State) :
    (l.foldl (fun s x => s.modWarp (k s x) (g s x)) s).mem = s.mem := State.foldl_mem (fun _ _ => State.modWarp_mem _ _ _) l s

@[simp] theorem State.foldl_modCore_mem {α : Type} (k : State → α → Nat) (g : State → α → Core → Core) (l : List α) (s : State) :
    (l.foldl (fun s x => s.modCore (k s x) (g s x)) s).mem = s.mem := State.foldl_mem (fun _ _ => State.modCore_mem _ _ _) l s

@[simp] theorem State.foldl_modPart_mem {α : Type} (k : State → α → Nat) (g : State → α → Partition → Partition) (l : List α) (s : State) :
    (l.foldl (fun s x => s.modPart (k s x) (g s x)) s).mem = s.mem := State.foldl_mem (fun _ _ => State.modPart_mem _ _ _) l s

@[simp] theorem State.foldl_modLaunch_mem {α : Type} (k : State → α → Nat) (g : State → α → Launch → Launch) (l : List α) (s : State) :
    (l.foldl (fun s x => s.modLaunch (k s x) (g s x)) s).mem = s.mem := State.foldl_mem (fun _ _ => State.modLaunch_mem _ _ _) l s

/-! ### Frames: traps, halts and the end of a pass (spec/18, spec/04) -/

section

variable (s : State)

@[simp] theorem State.modQueue_mem (q : QKey) (f : PageQueue → PageQueue) : (s.modQueue q f).mem = s.mem := by simp [State.modQueue]

@[simp] theorem State.whenReady_mem {f : State → State} (hf : (f s).mem = s.mem) : (s.whenReady f).mem = s.mem := by
  simp [State.whenReady, hf]

@[simp] theorem State.stopContext_mem (l : Nat) : (s.stopContext l).mem = s.mem := rfl

@[simp] theorem State.endContext_mem (l : Nat) (c : Cause) (tpc w : Dword) : (s.endContext l c tpc w).mem = s.mem := by
  unfold State.endContext
  split <;> simp

@[simp] theorem State.raiseHalt_mem (t : TKey) (h : Bool) (now : Nat) : (s.raiseHalt t h now).mem = s.mem := by
  simp only [State.raiseHalt]
  repeat' split
  all_goals simp

@[simp] theorem State.enterHandler_mem (t : TKey) : (s.enterHandler t).mem = s.mem := by
  unfold State.enterHandler
  split <;> rfl

@[simp] theorem State.mergeFlags_mem (srcs : List Src) : (s.mergeFlags srcs).mem = s.mem := by
  unfold State.mergeFlags
  split <;> simp

@[simp] theorem State.putDone_mem (rs : List (TCtx × Did)) : (s.putDone rs).mem = s.mem :=
  State.foldl_mem (fun s r => by split <;> rfl) rs s

@[simp] theorem State.leaveGroup_mem (keys : List TKey) (stop : Nat) : (s.leaveGroup keys stop).mem = s.mem := by
  simp [State.leaveGroup]

@[simp] theorem State.endBundle_mem (port : Nat) : (s.endBundle port).mem = s.mem := by
  unfold State.endBundle
  split <;> simp

@[simp] theorem State.faultPass_mem (p : Pass) (faults : List (TKey × TrapInfo)) : (s.faultPass p faults).mem = s.mem := by
  simp [State.faultPass]

@[simp] theorem State.passOn_mem (p : Pass) (t : List (TKey × Dword)) : (s.passOn p t).mem = s.mem := by
  simp [State.passOn]

@[simp] theorem State.keepIn_mem (port : Nat) (keep : TKey → Bool) : (s.keepIn port keep).mem = s.mem := rfl

@[simp] theorem State.thinBundle_mem (p : Pass) : (s.thinBundle p).mem = s.mem := by simp [State.thinBundle]

/-- The end of a pass moves threads and bundles on, and halts blocks; it writes no memory. -/
@[simp] theorem State.endPass_mem (p : Pass) (t : List (TKey × Dword)) (faults : List (TKey × TrapInfo)) :
    (s.endPass p t faults).mem = s.mem := by simp [State.endPass]

@[simp] theorem State.holdPass_mem (p : Pass) : (s.holdPass p).mem = s.mem := rfl

@[simp] theorem State.putPreds_mem (p : Pass) (n : Option (Fin 12)) (rs : List (TCtx × List Word)) : (s.putPreds p n rs).mem = s.mem := by
  unfold State.putPreds
  split <;> simp

@[simp] theorem State.lockstep_mem (srcs : List Src) (pred : Option (Fin 12)) (run : List TCtx → List (TCtx × Did)) :
    (s.lockstep srcs pred run).mem = s.mem := by
  unfold State.lockstep
  split <;> simp

@[simp] theorem State.vector_mem (v : VWord) (op : VOp) : (s.vector v op).mem = s.mem := by simp [State.vector]

theorem State.serial_mem (srcs : List Src) {f : State → TCtx → State × Did} (hf : ∀ s c, (f s c).1.mem = s.mem) :
    (s.serial srcs f).mem = s.mem := by
  unfold State.serial
  split <;> simp [hf]

end

/-! ### Frames: what a pass does (spec/04, spec/95) -/

@[simp] theorem State.long_mem (s : State) (v : VWord) (op : VOp) : (s.long v op).mem = s.mem := by
  simp only [State.long]
  split
  · rfl
  · split
    · rfl
    · rw [State.endPass_mem, State.foldl_mem (fun s r => by split <;> rfl)]
      simp

@[simp] theorem State.decodeFault_mem (s : State) (f : DecFault) : (s.decodeFault f).mem = s.mem := by
  unfold State.decodeFault
  split <;> simp

@[simp] theorem State.shflEnd_mem (s : State) : (s.shflEnd).mem = s.mem := by
  simp only [State.shflEnd]
  split
  · rfl
  · split <;> simp

/-! ### Frames: translations, stamps and history (spec/09, spec/12) -/

@[simp] theorem State.tlbInstall_mem (s : State) (core : Nat) (e : TlbEntry) : (s.tlbInstall core e).mem = s.mem := by
  simp [State.tlbInstall]

theorem State.tlbLookup_mem {s t : State} {core : Nat} {x : Xlat} {va : Nat} {e : TlbEntry} (h : s.tlbLookup core x va = some (e, t)) :
    t.mem = s.mem := by
  unfold State.tlbLookup at h
  split at h
  · cases h; rfl
  · obtain ⟨e', -, h⟩ := Option.map_eq_some_iff.1 h
    cases h; simp

@[simp] theorem State.tlbDrop_mem (s : State) (f : TlbEntry → Bool) : (s.tlbDrop f).mem = s.mem := rfl

@[simp] theorem State.assignStamp_mem (s : State) (n : Nat) (floor : Dword) : (s.assignStamp n floor).1.mem = s.mem := rfl

@[simp] theorem State.foldl_emit_mem {α : Type} (o : State → α → Out) (l : List α) (s : State) :
    (l.foldl (fun s x => s.emit (o s x)) s).mem = s.mem := State.foldl_mem (fun _ _ => State.emit_mem _ _) l s

@[simp] theorem State.countUe_mem (s : State) (part : Nat) : (s.countUe part).mem = s.mem := rfl

@[simp] theorem State.askWalk_mem (s : State) (core : Nat) (x : Xlat) (va : Nat) (marks : Bool) (who : WalkFor) :
    (s.askWalk core x va marks who).1.mem = s.mem := by
  unfold State.askWalk
  split <;> rfl

@[simp] theorem State.forget_mem (s : State) (f : TlbEntry → Bool) : (s.forget f).mem = s.mem := rfl

@[simp] theorem State.dropWalks_mem (s : State) (ids : List Nat) (bundle : Nat) : (s.dropWalks ids bundle).mem = s.mem := rfl

@[simp] theorem State.freeOldest_mem (s : State) (part : Nat) : (s.freeOldest part).mem = s.mem := by
  unfold State.freeOldest
  split <;> rfl

@[simp] theorem State.purgePool_mem (s : State) (part : Nat) : (s.purgePool part).mem = s.mem := rfl

@[simp] theorem State.makeEntry_mem (s : State) (part pa : Nat) (x : Dword) : (s.makeEntry part pa x).mem = s.mem := by
  simp [State.makeEntry]

@[simp] theorem State.noteHistory_mem (s : State) (part pa : Nat) (hist : Bool) (x : Dword) : (s.noteHistory part pa hist x).mem = s.mem := by
  unfold State.noteHistory
  split
  · simp
  · split <;> rfl

@[simp] theorem State.l1Fill_mem (s : State) (core pa : Nat) (alloc : Option Cache) (carried : Dword) :
    (s.l1Fill core pa alloc carried).mem = s.mem := rfl

@[simp] theorem State.l2Fill_mem (s : State) (part pa page : Nat) : (s.l2Fill part pa page).mem = s.mem := by
  simp [State.l2Fill]

@[simp] theorem State.l1Clear_mem (s : State) (core : Nat) : (s.l1Clear core).mem = s.mem := by
  simp [State.l1Clear]

@[simp] theorem State.l1Store_mem (s : State) (core pa : Nat) (hint : Cache) (page : Nat) (data : List Byte) :
    (s.l1Store core pa hint page data).mem = s.mem := rfl

/-! ### Frames: redundant windows and the passes of memory words (spec/10, spec/17) -/

@[simp] theorem State.hitOps_mem (s : State) (hit : List Nat) : (s.hitOps hit).mem = s.mem := rfl

@[simp] theorem State.redClose_mem (s : State) (t : TKey) (tpc : Dword) (barrier : Option Nat) (forced : Bool) :
    (s.redClose t tpc barrier forced).mem = s.mem := by
  unfold State.redClose
  split <;> rfl

@[simp] theorem State.redForced_mem (s : State) (t : TKey) : (s.redForced t).mem = s.mem := by
  unfold State.redForced
  split <;> simp

@[simp] theorem State.closeHeld_mem (s : State) (f : Req → Bool) (place : TKey → Option Dword) : (s.closeHeld f place).mem = s.mem := by
  rw [State.closeHeld, State.foldl_mem]
  intro s t
  dsimp only
  repeat' split
  all_goals simp

@[simp] theorem State.redPass_mem (s : State) (ts : List TKey) (tpc : Dword) : (s.redPass ts tpc).1.mem = s.mem := by
  rw [State.redPass, State.foldl_fst_mem]
  intro a t
  split <;> simp

@[simp] theorem State.redThrough_mem (s : State) (ts : List TKey) : (s.redThrough ts).mem = s.mem := by
  simp [State.redThrough]

@[simp] theorem State.lookPage_mem (s : State) (p : Pass) (x : Xlat) (va : Nat) (marks : Bool) : (s.lookPage p x va marks).1.mem = s.mem := by
  simp only [State.lookPage]
  split
  · rfl
  · split
    · next e t h => exact State.tlbLookup_mem h
    · simp

@[simp] theorem State.lookPages_mem (s : State) (p : Pass) (x : Xlat) (vas : List Nat) (marks : Bool) :
    (s.lookPages p x vas marks).1.mem = s.mem := by
  simp [State.lookPages]

@[simp] theorem State.keepPages_mem (s : State) (p : Pass) (x : Xlat) (l : List (Nat × Option WalkEnd)) : (s.keepPages p x l).mem = s.mem := by
  rw [State.keepPages, State.foldl_mem]
  intro s e
  split <;> simp

@[simp] theorem State.serveValue_mem (s : State) (r : Req) (value : Part → List Word) (raise : Option Dword) (due : Nat) :
    (s.serveValue r value raise due).1.mem = s.mem := by
  simp [State.serveValue]

@[simp] theorem State.known_mem (s : State) (r : Req) : (s.known r).mem = s.mem := by
  simp only [State.known]
  split
  · simp
  · split <;> simp

@[simp] theorem State.noteParked_mem (s : State) (ks : List TKey) : (s.noteParked ks).mem = s.mem := by
  simp [State.noteParked]

@[simp] theorem State.redSend_mem (s : State) (copy : Option Bool) (r : Req) : (s.redSend copy r).1.mem = s.mem := by
  unfold State.redSend
  split <;> simp

@[simp] theorem State.redNote_mem (s : State) (p : Pass) (k : MKind) (m : MPlan) : (s.redNote p k m).mem = s.mem := by
  unfold State.redNote
  split <;> simp

@[simp] theorem State.fenceWord_mem (s : State) (h : Hd) (acq rel : Bool) : (s.fenceWord h acq rel).mem = s.mem := by
  unfold State.fenceWord
  split <;> simp

@[simp] theorem State.modTags_mem (s : State) (core : Nat) (f : TagTable → TagTable) : (s.modTags core f).mem = s.mem := rfl

/-! ### Frames: barriers, exits and control words (spec/16) -/

@[simp] theorem State.putBar_mem (s : State) (k : BarKey) (b : Barrier) : (s.putBar k b).mem = s.mem := by
  unfold State.putBar
  split <;> rfl

@[simp] theorem State.barCheck_mem (s : State) (k : BarKey) (slot : Nat) : (s.barCheck k slot).mem = s.mem := by
  simp [State.barCheck]

@[simp] theorem State.phaseComplete_mem (s : State) (k : BarKey) (now : Nat) : (s.phaseComplete k now).mem = s.mem := by
  simp only [State.phaseComplete, State.putBar_mem, State.foldl_modThread_mem]
  rw [State.foldl_mem (fun s t => by split <;> simp), State.foldl_modWarp_mem]

@[simp] theorem State.grantLane_mem (s : State) (core lane now n : Nat) : (s.grantLane core lane now n).mem = s.mem := by
  induction n generalizing s with
  | zero => rfl
  | succ n ih =>
    unfold State.grantLane
    split
    · rfl
    · split <;> simp [ih]

@[simp] theorem State.exitThread_mem (s : State) (t : TKey) (succ : Option Dword) (slot : Nat) :
    (s.exitThread t succ slot).mem = s.mem := by
  simp only [State.exitThread]
  split <;> simp

@[simp] theorem State.endBlock_mem (s : State) (b slot : Nat) : (s.endBlock b slot).mem = s.mem := by
  simp [State.endBlock]

@[simp] theorem State.transfer_mem (s : State) (h : Hd) (a : Src) (call check : Bool) (target : TCtx → List Word → Dword) :
    (s.transfer h a call check target).mem = s.mem := by
  unfold State.transfer
  split <;> simp

theorem State.barArrive_mem {s t : State} {c : TCtx} {k : BarKey} (h : s.barArrive c k = .ok t) : t.mem = s.mem := by
  simp only [State.barArrive] at h
  split at h
  · cases h
  · cases h
    simp

@[simp] theorem State.barWord_mem (s : State) (t : BarW) (arrive wait : Bool) : (s.barWord t arrive wait).mem = s.mem := by
  simp only [State.barWord]
  split
  · rfl
  · rw [State.ite_mem, State.holdPass_mem, State.endPass_mem, State.foldl_mem, State.foldl_mem, State.foldl_fst_mem]
    · simp
    · intro a c
      split
      · rfl
      · rfl
      · split
        · split
          · rfl
          · next h => exact State.barArrive_mem h
        · split <;> rfl
    · intro s k
      split
      · split <;> simp
      · rfl
    · intro s c
      split
      · rfl
      · split
        · rfl
        · split <;> simp

/-- A scalar word leaves memory alone where what it does for one warp does. -/
theorem State.scalarWord_mem (s : State) (h : Hd) {f : State → TCtx → Except TrapInfo State} (hf : ∀ s c t, f s c = .ok t → t.mem = s.mem) :
    (s.scalarWord h f).mem = s.mem := by
  simp only [State.scalarWord]
  split
  · rfl
  · rw [State.endPass_mem, State.foldl_fst_mem]
    intro a g
    split
    · rfl
    · split
      · rfl
      · next h => exact hf _ _ _ h

@[simp] theorem State.scalarOp_mem (s : State) (h : Hd) (d : SSel) (n lat : Nat) (f : TCtx → Except TrapInfo (List Word)) :
    (s.scalarOp h d n lat f).mem = s.mem := by
  refine s.scalarWord_mem h fun s c t ht => ?_
  split at ht
  · cases ht
  · split at ht
    · cases ht
    · cases ht; rfl

@[simp] theorem State.quickWord_mem (s : State) (h : Hd) (a b : Src) (f : TCtx → List Word → List Word → Except TrapInfo Thread) :
    (s.quickWord h a b f).mem = s.mem := State.lockstep_mem ..

/-- A word on the extended block leaves memory alone where what it does for one warp does. -/
theorem State.extWord_mem (s : State) (h : Hd) (handlerOk : Bool) {f : State → Pass → Nat → Warp → List TCtx → Except Nat State}
    (hf : ∀ s p n w cs t, f s p n w cs = .ok t → t.mem = s.mem) : (s.extWord h handlerOk f).mem = s.mem := by
  simp only [State.extWord]
  split
  · rfl
  · rw [State.endPass_mem, State.foldl_fst_mem]
    intro a g
    split
    · rfl
    · split
      · rfl
      · next h =>
        split at h
        · exact hf _ _ _ _ _ _ h
        · cases h

@[simp] theorem State.voidKs_mem (s : State) (cs : List TCtx) : (s.voidKs cs).mem = s.mem := by
  simp [State.voidKs]

/-- Commands are handed over without memory where the handing over of one is. -/
theorem Hand.all_mem {α : Type} {d : Hand α} (hd : ∀ s c w i x, (d.act s c w i x).mem = s.mem) (p : Pass) (base : Nat) (l : List TCtx)
    (s : State) : (d.all p base l s).1.mem = s.mem := by
  induction l generalizing s with
  | nil => rfl
  | cons c rest ih =>
    simp only [Hand.all]
    split
    · exact ih s
    · repeat' split
      all_goals simp [ih, hd]

theorem State.handWord_mem {α : Type} (s : State) {d : Hand α} (hd : ∀ s c w i x, (d.act s c w i x).mem = s.mem) : (s.handWord d).mem = s.mem := by
  simp only [State.handWord]
  split
  · rfl
  · simp [Hand.all_mem hd]

theorem State.quiet_mem {s : State} {c : TCtx} {v : VWord} {f : State → List Word → List Word → Except TrapInfo (State × List Word)}
    (hf : ∀ s a x t ws, f s a x = .ok (t, ws) → t.mem = s.mem) : (s.quiet c v f).1.mem = s.mem := by
  unfold State.quiet
  split
  · rfl
  · rfl
  · split
    · rfl
    · split
      · rfl
      · next h =>
        split
        · rfl
        · exact hf _ _ _ _ _ h

theorem State.onOwn_mem {s : State} {c : TCtx} {v : VWord} {f : State → List Word → List Word → Except TrapInfo (State × List Word)}
    (hf : ∀ s a b t ws, f s a b = .ok (t, ws) → t.mem = s.mem) : (s.onOwn c v f).1.mem = s.mem := by
  unfold State.onOwn
  split
  · rfl
  · rfl
  · split
    · rfl
    · split
      · rfl
      · next h =>
        split
        · rfl
        · exact hf _ _ _ _ _ h

/-- A word on the own scratchpad leaves memory alone where what it does for one thread does. -/
theorem State.ownPass_mem (s : State) (v : VWord) {f : State → TCtx → List Word → List Word → Except TrapInfo (State × List Word)}
    (hf : ∀ s c a b t ws, f s c a b = .ok (t, ws) → t.mem = s.mem) : (s.ownPass v f).mem = s.mem :=
  s.serial_mem _ fun _ c => State.onOwn_mem fun s a b => hf s c a b

theorem State.afterOwn_mem {s : State} (h : Hd) (writes : Bool) {go : State → State} (hg : (go s).mem = s.mem) :
    (s.afterOwn h writes go).mem = s.mem := by
  unfold State.afterOwn
  split
  · rfl
  · split <;> simp [hg]

theorem State.rulWait_mem {s : State} (h : Hd) {go : State → State} (hg : (go s).mem = s.mem) : (s.rulWait h go).mem = s.mem := by
  simp only [State.rulWait]
  split
  · rfl
  · split <;> simp [hg]

theorem State.sysWord_mem {s : State} (handlerOk : Bool) {go : Pass → State} (hg : ∀ p, (go p).mem = s.mem) :
    (s.sysWord handlerOk go).mem = s.mem := by
  unfold State.sysWord
  split
  · rfl
  · split <;> simp [hg]

@[simp] theorem State.rlqWord_mem (s : State) (t : RlqW) (write : Bool) : (s.rlqWord t write).mem = s.mem := by
  simp [State.rlqWord]

/-! ### Frames: engines and their words (spec/17, spec/21, spec/23) -/

@[simp] theorem State.modCopy_mem (s : State) (core : Nat) (f : CopyEng → CopyEng) : (s.modCopy core f).mem = s.mem := rfl

@[simp] theorem State.modAllow_mem (s : State) (launch i : Nat) (f : Nat → Nat) : (s.modAllow launch i f).mem = s.mem := rfl

@[simp] theorem State.redOperand_mem (s : State) (t : TKey) (x : Dword) (n : Nat) : (s.redOperand t x n).mem = s.mem := by
  unfold State.redOperand
  split <;> rfl

@[simp] theorem State.addLocks_mem (s : State) (ls : List (Nat × Lock)) : (s.addLocks ls).mem = s.mem := by
  simp [State.addLocks]

@[simp] theorem State.freeLocks_mem (s : State) (op : Nat) : (s.freeLocks op).mem = s.mem := rfl

@[simp] theorem State.noteStall_mem (s : State) (part : Nat) : (s.noteStall part).mem = s.mem := rfl

@[simp] theorem State.poisonLines_mem (s : State) (pas : List Nat) : (s.poisonLines pas).mem = s.mem := rfl

@[simp] theorem State.copyTell_mem (s : State) (core : Nat) : (s.copyTell core).mem = s.mem := by
  unfold State.copyTell
  split <;> simp

@[simp] theorem State.chainEnd_mem (s : State) (core : Nat) : (s.chainEnd core).mem = s.mem := by
  simp [State.chainEnd]

@[simp] theorem State.copyNext_mem (s : State) (core : Nat) (q : Chain) (last : Bool) : (s.copyNext core q last).mem = s.mem := by
  simp [State.copyNext]

@[simp] theorem State.modMat_mem (s : State) (core : Nat) (f : List MatOp → List MatOp) : (s.modMat core f).mem = s.mem := rfl

@[simp] theorem State.matHand_mem (s : State) (t : FsA) (kind : MatKind) (n arr : Nat) (counts checkTiles : Bool) :
    (s.matHand t kind n arr counts checkTiles).mem = s.mem :=
  s.handWord_mem fun _ _ _ _ _ => by simp

@[simp] theorem State.matTell_mem (s : State) (o : MatOp) : (s.matTell o).mem = s.mem := by
  unfold State.matTell
  split <;> simp

@[simp] theorem State.spoilTiles_mem (s : State) (core : Nat) (tiles : List Nat) : (s.spoilTiles core tiles).mem = s.mem := rfl

@[simp] theorem State.mmaSteps_mem (s : State) (c : EngCtx) (pages : List ((Nat × Bool) × TlbEntry)) (x : Mma) (from_ n : Nat) :
    (s.mmaSteps c pages x from_ n).mem = s.mem := rfl

@[simp] theorem State.tilesGood_mem (s : State) (core : Nat) (tiles : List Nat) : (s.tilesGood core tiles).mem = s.mem := rfl

@[simp] theorem State.matWait_mem (s : State) (core : Nat) (o : MatOp) (w : Bool × Nat) : (s.matWait core o w).mem = s.mem := rfl

@[simp] theorem State.modWaffle_mem (s : State) (core : Nat) (f : Waffle → Waffle) : (s.modWaffle core f).mem = s.mem := rfl

@[simp] theorem State.ruleTell_mem (s : State) (o : RuleStep) : (s.ruleTell o).mem = s.mem := by
  simp [State.ruleTell]

/-! ### Frames: halts, requests and invalidations (spec/12, spec/18) -/

@[simp] theorem State.dissolve_mem (s : State) (port : Nat) : (s.dissolve port).mem = s.mem := by
  unfold State.dissolve
  split <;> simp

@[simp] theorem State.dissolveIf_mem (s : State) (lane : Nat) (f : TKey → Bool) : (s.dissolveIf lane f).mem = s.mem := by
  simp [State.dissolveIf]

@[simp] theorem State.haltLane_mem (s : State) (block lane : Nat) : (s.haltLane block lane).mem = s.mem := by
  simp [State.haltLane]

@[simp] theorem State.answerReq_mem (s : State) (r : Req) (value : Option Dword) : (s.answerReq r value).mem = s.mem := rfl

@[simp] theorem State.dropReq_mem (s : State) (r : Req) : (s.dropReq r).mem = s.mem := rfl

@[simp] theorem State.faultReq_mem (s : State) (r : Req) (i : TrapInfo) : (s.faultReq r i).mem = s.mem := by
  simp [State.faultReq]

@[simp] theorem State.releaseFetch_mem (s : State) (r : Req) : (s.releaseFetch r).mem = s.mem := by
  simp [State.releaseFetch]

@[simp] theorem State.putReq_mem (s : State) (r : Req) : (s.putReq r).mem = s.mem := rfl

@[simp] theorem State.sendReleased_mem (s : State) (r : Req) (e : TlbEntry) (pa2 : Nat) : (s.sendReleased r e pa2).mem = s.mem := by
  simp [State.sendReleased]

@[simp] theorem State.tidyWalks_mem (s : State) : (s.tidyWalks).mem = s.mem := rfl

@[simp] theorem State.ackInvals_mem (s : State) : s.ackInvals.mem = s.mem := by
  simp [State.ackInvals]

@[simp] theorem State.rspTailPut_mem (s : State) (k : QKey) (v : Word) : (s.rspTailPut k v).mem = s.mem := by
  simp [State.rspTailPut]

@[simp] theorem State.invalidate_mem (s : State) (i : InvSpec) (by_ : Option TKey) : (s.invalidate i by_).mem = s.mem := by
  simp [State.invalidate]

/-! ### Frames: redundant execution, commits and time (spec/09, spec/24) -/

@[simp] theorem State.windowsDone_mem (s : State) (ts : List TKey) : (s.windowsDone ts).mem = s.mem := by
  simp [State.windowsDone]

@[simp] theorem State.commitHeld_mem (s : State) (t : TKey) (before : Nat) : (s.commitHeld t before).mem = s.mem := by
  simp [State.commitHeld]

@[simp] theorem State.haltFor_mem (s : State) (b : Nat) (t : TKey) : (s.haltFor b t).mem = s.mem := rfl

@[simp] theorem State.mismatch_mem (s : State) (b tb : Nat) (t q : TKey) (cut : List (TKey × Nat)) (synd : Dword)
    (records : Nat) (tpc : Dword) :
    (s.mismatch b tb t q cut synd records tpc).mem = s.mem := by
  simp [State.mismatch]

@[simp] theorem State.l1Read_mem (s : State) (r : Req) (line : Nat) : (s.l1Read r line).mem = s.mem := by
  simp [State.l1Read]

@[simp] theorem State.noteCommit_mem (s : State) (r : Req) : (s.noteCommit r).mem = s.mem := by
  simp [State.noteCommit]

@[simp] theorem State.stallCheck_mem (s : State) (part : Nat) : (s.stallCheck part).mem = s.mem := by
  simp [State.stallCheck]

@[simp] theorem State.noteStamp_mem (s : State) (r : Req) (x : Dword) : (s.noteStamp r x).mem = s.mem := by
  simp [State.noteStamp]

@[simp] theorem State.deferReq_mem (s : State) (r : Req) : (s.deferReq r).mem = s.mem := by
  simp [State.deferReq]

@[simp] theorem State.noteRed_mem (s : State) (r : Req) : (s.noteRed r).mem = s.mem := by
  simp [State.noteRed]

@[simp] theorem State.raiseHeld_mem (s : State) (r : Req) : (s.raiseHeld r).mem = s.mem := by
  unfold State.raiseHeld
  split <;> simp

@[simp] theorem State.longDone_mem (s : State) (o : LongOp) : (s.longDone o).mem = s.mem := rfl

@[simp] theorem State.freeSettles_mem (s : State) : (s.freeSettles).mem = s.mem := rfl

@[simp] theorem State.pinSlices_mem (s : State) : (s.pinSlices).mem = s.mem := rfl

@[simp] theorem State.tickholdPut_mem (s : State) (v : Dword) : (s.tickholdPut v).mem = s.mem := by
  simp [State.tickholdPut]

@[simp] theorem State.clearHold_mem (s : State) (part : Nat) : (s.clearHold part).mem = s.mem := rfl

@[simp] theorem State.rebased_mem (s : State) : (s.rebased).mem = s.mem := rfl

/-! ### Frames: contexts, messages and launches (spec/15, spec/18) -/

@[simp] theorem State.stash_mem (s : State) (core : Nat) : (s.stash core).mem = s.mem := by
  simp [State.stash]

@[simp] theorem State.unstash_mem (s : State) (launch core : Nat) : (s.unstash launch core).mem = s.mem := by
  unfold State.unstash
  split <;> rfl

@[simp] theorem State.switchCheck_mem (s : State) (part : Nat) : (s.switchCheck part).mem = s.mem := by
  unfold State.switchCheck
  split <;> simp

@[simp] theorem State.askStop_mem (s : State) (l : Nat) : (s.askStop l).mem = s.mem := by
  simp [State.askStop]

@[simp] theorem State.sendDone_mem (s : State) (m : SendMsg) (status : Word) : (s.sendDone m status).mem = s.mem := by
  simp [State.sendDone]

@[simp] theorem State.ckptDone_mem (s : State) (c : Ckpt) (status : Word) : (s.ckptDone c status).mem = s.mem := by
  simp [State.ckptDone]

@[simp] theorem State.dropLaunch_mem (s : State) (l : Nat) : (s.dropLaunch l).mem = s.mem := by
  unfold State.dropLaunch
  split <;> rfl

@[simp] theorem State.clearCores_mem (s : State) (cores : List Nat) : (s.clearCores cores).mem = s.mem := by
  simp [State.clearCores]

@[simp] theorem State.engAgain_mem (s : State) (launch : Nat) : (s.engAgain launch).mem = s.mem := rfl

@[simp] theorem State.ctlSend_mem (s : State) (w : CtlWrite) : (s.ctlSend w).mem = s.mem := rfl

@[simp] theorem State.returnFrom_mem (s : State) (c : TCtx) (all : Bool) (now : Nat) : (s.returnFrom c all now).mem = s.mem := by
  simp [State.returnFrom]

@[simp] theorem State.eretWord_mem (s : State) (h : Hd) (all : Bool) : (s.eretWord h all).mem = s.mem :=
  State.sysWord_mem true fun p => by simp

@[simp] theorem State.xinvWord_mem (s : State) (h : Hd) (kind : InvKind) (a b : Src) : (s.xinvWord h kind a b).mem = s.mem := by
  refine State.sysWord_mem false fun p => ?_
  split
  · rfl
  · refine s.serial_mem _ fun s c => ?_
    split <;> simp

@[simp] theorem State.putCkpt_mem (s : State) (c : Ckpt) : (s.putCkpt c).mem = s.mem := rfl

@[simp] theorem State.ckptEnd_mem (s : State) (c : Ckpt) (status : Nat) : (s.ckptEnd c status).mem = s.mem := rfl

@[simp] theorem State.ckptSend_mem (s : State) (c : Ckpt) : (s.ckptSend c).mem = s.mem := rfl

@[simp] theorem State.ckptDeliver_mem (s : State) (c : Ckpt) (status : Word) : (s.ckptDeliver c status).mem = s.mem := by
  simp [State.ckptDeliver]

@[simp] theorem State.putSend_mem (s : State) (m : SendMsg) : (s.putSend m).mem = s.mem := rfl

@[simp] theorem State.sendDeliver_mem (s : State) (m : SendMsg) (status : Word) : (s.sendDeliver m status).mem = s.mem := by
  unfold State.sendDeliver
  split <;> simp

@[simp] theorem State.addBlock_mem (s : State) (l : Launch) (launch key id group : Nat) (shadow : Bool) (areas : Tab Nat)
    (homes : List (Nat × Nat)) (floor : Dword) :
    (s.addBlock l launch key id group shadow areas homes floor).mem = s.mem := by
  simp [State.addBlock]

@[simp] theorem State.groupFor_mem (s : State) (launch id cluster : Nat) (shadow : Bool) :
    (s.groupFor launch id cluster shadow).1.mem = s.mem := by
  unfold State.groupFor
  split <;> rfl

@[simp] theorem State.joinGroup_mem (s : State) (g b : Nat) : (s.joinGroup g b).mem = s.mem := by
  simp [State.joinGroup]

@[simp] theorem State.pairGroups_mem (s : State) (g h : Nat) : (s.pairGroups g h).mem = s.mem := rfl

@[simp] theorem State.quitGroup_mem (s : State) (b : Nat) : (s.quitGroup b).mem = s.mem := rfl

@[simp] theorem State.placeGroup_mem (s : State) (launch : Nat) (l : Launch) (cluster g : Nat) (is : List Nat) (shadow : Bool) :
    (s.placeGroup launch l cluster g is shadow).1.mem = s.mem := by
  simp [State.placeGroup]

@[simp] theorem State.endTwin_mem (s : State) (b : Nat) : (s.endTwin b).mem = s.mem := by
  simp [State.endTwin]

@[simp] theorem State.forgetBlock_mem (s : State) (b : Nat) : (s.forgetBlock b).mem = s.mem := rfl

@[simp] theorem State.releaseBlock_mem (s : State) (b : Nat) : (s.releaseBlock b).mem = s.mem := by
  unfold State.releaseBlock
  split <;> simp

@[simp] theorem State.takeBlock_mem (s : State) (b succ : Nat) (l : Launch) (n : Nat) (floor : Dword) (shadow : Bool) :
    (s.takeBlock b succ l n floor shadow).1.mem = s.mem := by
  unfold State.takeBlock
  split <;> simp

@[simp] theorem State.resetPart_mem (s : State) (part : Nat) : (s.resetPart part).mem = s.mem := by
  simp only [State.resetPart, State.modPart_mem]
  rw [State.foldl_mem (fun s c => State.foldl_modCore_mem _ _ _ s)]
  simp

@[simp] theorem State.switchTo_mem (s : State) (c : VfCfg) : (s.switchTo c).mem = s.mem := by
  simp [State.switchTo]

@[simp] theorem State.tardySwitch_mem (s : State) (part : Nat) : (s.tardySwitch part).mem = s.mem := by
  unfold State.tardySwitch
  split <;> simp

@[simp] theorem State.countLost_mem (s : State) (sources : List Nat) : (s.countLost sources).mem = s.mem := rfl

@[simp] theorem State.markFrame_mem (s : State) (m : Migration) : (s.markFrame m).mem = s.mem := by
  simp [State.markFrame]

@[simp] theorem State.moveChains_mem (s : State) (m : Migration) : (s.moveChains m).mem = s.mem := rfl

/-! ### Frames: bundles and the start of a clause (spec/04) -/

@[simp] theorem State.formBundle_mem (s : State) (port start : Nat) (g : List Cand) : (s.formBundle port start g).mem = s.mem := by
  unfold State.formBundle
  split <;> simp

@[simp] theorem State.startFaults_mem (s : State) (p : Pass) (fs : List (TKey × TrapInfo)) : (s.startFaults p fs).mem = s.mem := by
  simp [State.startFaults]

@[simp] theorem State.startFault_mem (s : State) (p : Pass) (i : TrapInfo) : (s.startFault p i).mem = s.mem := by
  simp [State.startFault]

@[simp] theorem State.giveBack_mem (s : State) (p : Pass) (ks : List TKey) : (s.giveBack p ks).mem = s.mem := by
  simp [State.giveBack]

@[simp] theorem State.startClause_mem (s : State) (p : Pass) (h : Header) (ws : List Word) : (s.startClause p h ws).mem = s.mem := by
  simp only [State.startClause]
  split
  · simp
  · split
    · simp
    · split
      · simp
      · split <;> simp

@[simp] theorem State.fxop_mem (s : State) (h : Hd) (am : Option Arith) (d : Sel) (f : Thread → Thread × Word) :
    (s.fxop h am d f).mem = s.mem := by
  simp [State.fxop]

/-! ### Frames: scratchpads, and what engines and memory words do there (spec/10, spec/17, spec/23) -/

@[simp] theorem State.scratchPut_mem (s : State) (core a : Nat) (data : List Byte) : (s.scratchPut core a data).mem = s.mem := rfl

@[simp] theorem State.foldl_scratchPut_mem {α : Type} (c a : State → α → Nat) (d : State → α → List Byte) (l : List α) (s : State) :
    (l.foldl (fun s x => s.scratchPut (c s x) (a s x) (d s x)) s).mem = s.mem :=
  State.foldl_mem (fun _ _ => State.scratchPut_mem _ _ _ _) l s

@[simp] theorem State.arrivalPut_mem (s : State) (core a : Nat) (value floor : Dword) (final : Bool) :
    (s.arrivalPut core a value floor final).mem = s.mem := rfl

@[simp] theorem State.remotePut_mem (s : State) (core a : Nat) (data : List Byte) : (s.remotePut core a data).mem = s.mem := by
  simp [State.remotePut]

@[simp] theorem State.serveScratch_mem (s : State) (r : Req) (core a : Nat) : (s.serveScratch r core a).1.mem = s.mem := by
  simp only [State.serveScratch]
  split <;> simp

@[simp] theorem State.serveMirror_mem (s : State) (r : Req) (n a room : Nat) (signed : Bool) :
    (s.serveMirror r n a room signed).1.mem = s.mem := by
  simp [State.serveMirror]

/-- What is served as it is sent is served from a scratchpad, a mirror or the L1: memory is written at the commit. -/
@[simp] theorem State.sendReq_mem (s : State) (mods : Mods) (m : MPlan) (r : Req) : (s.sendReq mods m r).1.mem = s.mem := by
  simp only [State.sendReq]
  split
  · simp
  · split
    · rw [State.ite_fst_mem]
      simp
    · simp
    · simp
  · split <;> simp
  · split
    · split <;> simp
    · rfl
  · rfl

@[simp] theorem State.engPut_mem (s : State) (op : Nat) (far : Bool) (core a : Nat) (data : List Byte) :
    (s.engPut op far core a data).mem = s.mem := by
  simp [State.engPut]

@[simp] theorem State.arrive__mem (s : State) (core a kind units err : Nat) (floor : Dword) :
    (s.arrive_ core a kind units err floor).1.mem = s.mem := rfl

@[simp] theorem State.matEnd_mem (s : State) (core : Nat) (o : MatOp) (err : Nat) (stamp : Dword) :
    (s.matEnd core o err stamp).1.mem = s.mem := by
  simp only [State.matEnd]
  split <;> simp

@[simp] theorem State.ruleEnd_mem (s : State) (core : Nat) (o : RuleStep) (arrive : Option Nat) (err : Nat) :
    (s.ruleEnd core o arrive err).mem = s.mem := by
  simp only [State.ruleEnd]
  split <;> simp

@[simp] theorem State.ruleAbort_mem (s : State) (core : Nat) : (s.ruleAbort core).mem = s.mem := by
  simp [State.ruleAbort]

@[simp] theorem State.rulePlane_mem (s : State) (core parity : Nat) : (s.rulePlane core parity).mem = s.mem := by
  unfold State.rulePlane
  split <;> rfl

@[simp] theorem State.ruleStep_mem (s : State) (core : Nat) : (s.ruleStep core).mem = s.mem := by
  unfold State.ruleStep
  split <;> simp

@[simp] theorem State.ruleHalf_mem (s : State) (core : Nat) : (s.ruleHalf core).mem = s.mem := by
  unfold State.ruleHalf
  split <;> simp

@[simp] theorem State.ruleDone_mem (s : State) (core : Nat) (o : RuleStep) : (s.ruleDone core o).mem = s.mem := by
  unfold State.ruleDone
  split <;> simp

@[simp] theorem State.ruleSpoil_mem (s : State) (core : Nat) : (s.ruleSpoil core).mem = s.mem := by
  unfold State.ruleSpoil
  split <;> rfl

@[simp] theorem State.ruleFail_mem (s : State) (core : Nat) (o : RuleStep) (err : Nat) (cut : Bool) :
    (s.ruleFail core o err cut).mem = s.mem := by
  simp [State.ruleFail]

/-! ### The canonical form through choices, pairs and folds -/

@[simp] theorem Memory.wf_ite {c : Prop} [Decidable c] {a b : Memory} (ha : a.wf = true) (hb : b.wf = true) :
    (if c then a else b).wf = true := by
  split <;> assumption

/-- What is left of a canonical memory when cells are taken out of it is canonical. -/
theorem Memory.wf_filter (f : Host.Cell → Bool) {m : Memory} (hm : m.wf = true) : Memory.wf (m.filter f) = true := by
  have key : ∀ (m : Memory) (n : Nat), Memory.wfFrom n m → Memory.wfFrom n (m.filter f) := by
    intro m
    induction m with
    | nil => exact fun _ _ => trivial
    | cons c rest ih =>
      rintro n ⟨hn, hc, hrest⟩
      rw [List.filter_cons]
      split
      · exact ⟨hn, hc, ih _ hrest⟩
      · exact Memory.wfFrom_mono (by omega) (ih _ hrest)
  exact (Memory.wf_iff _).2 (key m 0 ((Memory.wf_iff m).1 hm))

@[simp] theorem State.ite_mem_wf {c : Prop} [Decidable c] {a b : State} (ha : a.mem.wf = true) (hb : b.mem.wf = true) :
    (if c then a else b).mem.wf = true := by
  split <;> assumption

/-- The state of a pair that is taken apart. -/
theorem State.mem_wf_of_eq {β : Type} {p : State × β} {t : State} {b : β} (h : p = (t, b)) (hp : p.1.mem.wf = true) : t.mem.wf = true := by
  subst h; exact hp

/-- A fold whose every turn keeps the canonical form keeps it. -/
theorem State.foldl_mem_wf {α : Type} {f : State → α → State} (hf : ∀ s x, s.mem.wf = true → (f s x).mem.wf = true) (l : List α) {s : State}
    (hs : s.mem.wf = true) : (l.foldl f s).mem.wf = true :=
  List.foldlRecOn l f hs fun s hs x _ => hf s x hs

/-- The same of a fold that carries a value beside the state. -/
theorem State.foldl_fst_mem_wf {α β : Type} {f : State × β → α → State × β} (hf : ∀ a x, a.1.mem.wf = true → (f a x).1.mem.wf = true) (l : List α)
    {a : State × β} (ha : a.1.mem.wf = true) : (l.foldl f a).1.mem.wf = true :=
  List.foldlRecOn l f ha fun a ha x _ => hf a x ha

/-! ### Writes to memory -/

section

variable {s : State} (hs : s.mem.wf = true)
include hs

/-- A write of the device is a write of bytes. -/
@[simp] theorem State.devicePut_mem_wf (pa : Nat) (data : List Byte) : (s.devicePut pa data).mem.wf = true :=
  Memory.wf_puts pa data hs

@[simp] theorem State.orEntry_mem_wf (pa bits : Nat) : (s.orEntry pa bits).mem.wf = true := State.devicePut_mem_wf hs _ _

/-- A store's write is a write of bytes. -/
@[simp] theorem State.putBytes_mem_wf (pa : Nat) (data : List Byte) : (s.putBytes pa data).mem.wf = true := Memory.wf_puts pa data hs

@[simp] theorem State.commitStore_mem_wf (part pa : Nat) (hist : Bool) (floor : Dword) (data : List Byte) :
    (s.commitStore part pa hist floor data).1.mem.wf = true := by
  simp [State.commitStore, hs]

@[simp] theorem State.commitAtomic_mem_wf (part pa : Nat) (hist : Bool) (floor : Dword) (n : Nat) (f : Dword → Dword) :
    (s.commitAtomic part pa hist floor n f).1.mem.wf = true := State.commitStore_mem_wf hs ..

/-- A frame is moved by taking its old cells out and writing them where they now stand. -/
@[simp] theorem State.copyFrame_mem_wf (m : Migration) : (s.copyFrame m).mem.wf = true := by
  exact Memory.wf_foldl_put _ _ _ (Memory.wf_filter _ hs)

theorem State.whenReady_mem_wf {f : State → State} (hf : (f s).mem.wf = true) : (s.whenReady f).mem.wf = true := by
  unfold State.whenReady
  split
  · exact hf
  · exact hs

/-! ### Page tables and page requests -/

@[simp] theorem State.setAccessed_mem_wf (met : List Nat) : (s.setAccessed met).mem.wf = true :=
  State.foldl_mem_wf (fun s a hs => by split <;> simp [hs]) met hs

@[simp] theorem State.setDirty_mem_wf (e : TlbEntry) (va : Nat) : (s.setDirty e va).1.mem.wf = true := by
  simp only [State.setDirty]
  split
  · exact hs
  · split
    · simp [hs]
    · split
      · simp [hs]
      · split <;> simp [hs]

theorem State.postOne_mem_wf {t : State} {k : QKey} (h : s.postOne k = some t) : t.mem.wf = true := by
  simp only [State.postOne] at h
  split at h
  · cases h
  · split at h
    · cases h
    · cases h
      simp [hs]

@[simp] theorem State.postHeld_mem_wf (k : QKey) (n : Nat) : (s.postHeld k n).mem.wf = true := by
  induction n generalizing s with
  | zero => exact hs
  | succ n ih =>
    unfold State.postHeld
    split
    · next h => exact ih (State.postOne_mem_wf hs h)
    · exact hs

@[simp] theorem State.pageRequest_mem_wf (x : Xlat) (core kind : Nat) (s2 : Bool) (page : Nat) :
    (s.pageRequest x core kind s2 page).mem.wf = true := by
  simp only [State.pageRequest]
  split <;> simp [hs]

/-! ### Memory words -/

@[simp] theorem State.memFate_mem_wf (k : MKind) (x : Xlat) (pages : List (Nat × Option WalkEnd)) (m : MPlan) :
    (s.memFate k x pages m).1.mem.wf = true := by
  unfold State.memFate
  split
  · exact hs
  · split
    · exact hs
    · exact hs
    · exact hs
    · split <;> exact hs
    · split
      · exact hs
      · split
        · split <;> exact hs
        · split
          · have ht := State.setDirty_mem_wf hs ‹_› ‹_›
            split
            · next h => exact State.mem_wf_of_eq h ht
            · next h => split <;> exact State.mem_wf_of_eq h ht
          · exact hs

@[simp] theorem State.memSend_mem_wf (p : Pass) (mw : MWord) (mods : Mods) (x : Xlat) (fates : List (TCtx × MFate)) :
    (s.memSend p mw mods x fates).mem.wf = true := by
  simp only [State.memSend, State.endPass_mem, State.noteParked_mem]
  refine State.foldl_mem_wf (fun s k hs => ?_) _ ?_
  · split <;> simp [hs]
  · rw [State.foldl_mem]
    · simp [hs]
    · intro s g
      split <;> simp

/-- A memory word writes memory where it looks translations up and marks leaves, and where it asks for pages. -/
@[simp] theorem State.memWord_mem_wf (mw : MWord) : (s.memWord mw).mem.wf = true := by
  simp only [State.memWord]
  split
  · exact hs
  · split
    · exact hs
    · refine State.ite_mem_wf (by simp [hs]) (State.ite_mem_wf (by simp [hs]) (State.ite_mem_wf (by simp [hs]) (State.ite_mem_wf (by simp [hs])
        (State.ite_mem_wf (by simp [hs]) (State.ite_mem_wf (by simp [hs]) (State.ite_mem_wf (by simp [hs]) ?_))))))
      rw [State.ite_mem, State.redThrough_mem, ite_self]
      refine State.memSend_mem_wf (State.foldl_fst_mem_wf (fun a r ha => ?_) _ (by simp [hs])) ..
      split <;> simp [ha]

/-! ### The engines' translations and writes -/

@[simp] theorem State.engMiss_mem_wf (core : Nat) (x : Xlat) (kind : Nat) (s2 : Bool) (page : Nat) :
    (s.engMiss core x kind s2 page).1.mem.wf = true := by
  simp only [State.engMiss]
  split <;> simp [hs]

@[simp] theorem State.engUse_mem_wf (core : Nat) (x : Xlat) (va : Nat) (write : Bool) (e : TlbEntry) :
    (s.engUse core x va write e).1.mem.wf = true := by
  unfold State.engUse
  have hd := State.setDirty_mem_wf hs e va
  split
  · exact hs
  · split
    · split
      · next h => exact State.mem_wf_of_eq h hd
      · next h => exact State.engMiss_mem_wf (State.mem_wf_of_eq h hd) ..
    · exact hs

@[simp] theorem State.engXlat_mem_wf (core : Nat) (x : Xlat) (va : Nat) (write : Bool) : (s.engXlat core x va write).1.mem.wf = true := by
  unfold State.engXlat
  split
  · next h => exact State.engUse_mem_wf (by rw [State.tlbLookup_mem h, hs]) ..
  · dsimp only
    split <;> simp [hs]

@[simp] theorem State.engPages_mem_wf (core : Nat) (x : Xlat) (l : List (Nat × Bool)) : (s.engPages core x l).1.mem.wf = true := by
  induction l generalizing s with
  | nil => exact hs
  | cons p rest ih =>
    unfold State.engPages
    have hx := State.engXlat_mem_wf hs core x p.1 p.2
    split
    · next h =>
      have hr := ih (State.mem_wf_of_eq h hx)
      split
      · next h => exact State.mem_wf_of_eq h hr
      · exact hr
    · next h => exact State.mem_wf_of_eq h hx

theorem State.engStore_mem_wf {x : EngCtx} {e : TlbEntry} {va : Nat} {floor : Dword} {data : List Byte} {lines : List (Nat × Dword)}
    {r : State × Dword × List (Nat × Dword)} (h : s.engStore x e va floor data lines = some r) : r.1.mem.wf = true := by
  simp only [State.engStore] at h
  split at h
  · cases h; exact hs
  · split at h
    · cases h; simp [hs]
    · split at h
      · cases h
      · cases h; simp [hs]

/-- What an operation that ends in an error leaves undefined is written with free bytes. -/
@[simp] theorem State.spoil_mem_wf (x : EngCtx) (ps : List EPlace) (n : Nat) : (s.spoil x ps n).mem.wf = true := by
  refine State.foldl_mem_wf (fun s e hs => ?_) _ hs
  dsimp only
  split
  · simp [hs]
  · split
    · exact Memory.wf_puts _ _ hs
    · exact hs

/-! ### The copy engine -/

@[simp] theorem State.copyAbort_mem_wf (x : EngCtx) (off count n : Nat) : (s.copyAbort x off count n).mem.wf = true := by
  induction n generalizing s off count with
  | zero => exact hs
  | succ n ih =>
    unfold State.copyAbort
    split
    · exact hs
    · split
      · exact hs
      · dsimp only
        refine State.ite_mem_wf ?_ (ih ?_ ..) <;> split <;> simp [hs]

@[simp] theorem State.copyFail_mem_wf (core err : Nat) (told : Bool) : (s.copyFail core err told).mem.wf = true := by
  unfold State.copyFail
  split
  · exact hs
  · split
    · simp [hs]
    · split
      · simp [hs]
      · dsimp only
        rw [State.chainEnd_mem]
        refine State.ite_mem_wf ?_ (State.copyAbort_mem_wf ?_ ..)
        all_goals
          rw [State.freeLocks_mem]
          refine State.ite_mem_wf (State.spoil_mem_wf (State.spoil_mem_wf ?_ ..) ..) (State.spoil_mem_wf ?_ ..)
          all_goals refine State.ite_mem_wf hs ?_
          all_goals split <;> simp [hs]

theorem State.copyElem_mem_wf {x : EngCtx} {q : Chain} {r : CopyReq} {pages : List ((Nat × Bool) × TlbEntry)} {i : Nat}
    {acc : Dword × List (Nat × Dword)} {t : State × Dword × List (Nat × Dword)} (h : s.copyElem x q r pages i acc = some t) :
    t.1.mem.wf = true := by
  simp only [State.copyElem] at h
  split at h
  · cases h
    exact State.foldl_mem_wf (fun s c hs => by simp [hs]) _ hs
  · split at h
    · cases h; exact hs
    · obtain ⟨y, hy, h⟩ := Option.map_eq_some_iff.1 h
      cases h
      have ht := State.engStore_mem_wf hs hy
      exact ht

theorem State.copyElems_mem_wf {x : EngCtx} {q : Chain} {r : CopyReq} {pages : List ((Nat × Bool) × TlbEntry)} {l : List Nat}
    {acc : Dword × List (Nat × Dword)} {t : State × Dword × List (Nat × Dword)} (h : s.copyElems x q r pages l acc = some t) :
    t.1.mem.wf = true := by
  induction l generalizing s acc with
  | nil => cases h; exact hs
  | cons i rest ih =>
    unfold State.copyElems at h
    split at h
    · cases h
    · next hy => exact ih (State.copyElem_mem_wf hs hy) h

/-! ### The matrix engine -/

@[simp] theorem State.matSpoil_mem_wf (core : Nat) (o : MatOp) (rows : Nat) : (s.matSpoil core o rows).mem.wf = true := by
  unfold State.matSpoil
  split
  · exact hs
  · dsimp only
    split <;> simp [hs]

@[simp] theorem State.matFail_mem_wf (core : Nat) (o : MatOp) (err rows : Nat) : (s.matFail core o err rows).mem.wf = true := by
  simp [State.matFail, hs]

@[simp] theorem State.matDone_mem_wf (core : Nat) (o : MatOp) (stamp : Dword) : (s.matDone core o stamp).mem.wf = true := by
  simp [State.matDone, hs]

@[simp] theorem State.matPages_mem_wf (core : Nat) (c : EngCtx) (o : MatOp) (rows : Nat) (ps : List (Nat × Bool)) :
    (s.matPages core c o rows ps).1.mem.wf = true := by
  unfold State.matPages
  have hp := State.engPages_mem_wf hs core c.xlat ps
  split
  all_goals
    next h =>
      have ht := State.mem_wf_of_eq h hp
      simp [ht]

theorem State.storeRow_mem_wf {c : EngCtx} {o : MatOp} {x : AccSt} {pages : List ((Nat × Bool) × TlbEntry)} {row : Nat}
    {t : State × Dword × List (Nat × Dword)} (h : s.storeRow c o x pages row = some t) : t.1.mem.wf = true := by
  simp only [State.storeRow] at h
  refine List.foldlRecOn (motive := fun acc => ∀ t, acc = some t → t.1.mem.wf = true) _ _ ?_ ?_ t h
  · rintro t ⟨⟩
    exact hs
  · rintro acc ih j - t ht
    obtain ⟨a, rfl, ht⟩ := Option.bind_eq_some_iff.1 ht
    have ha := ih a rfl
    rw [Option.bind_some] at ht
    split at ht
    · cases ht
      exact State.foldl_mem_wf (fun s c hs => by simp [hs]) _ ha
    · split at ht
      · cases ht; exact ha
      · obtain ⟨y, hy, ht⟩ := Option.map_eq_some_iff.1 ht
        cases ht
        have ht := State.engStore_mem_wf ha hy
        exact ht

@[simp] theorem State.storeRows_mem_wf (core : Nat) (c : EngCtx) (op : Nat) (x : AccSt) (n : Nat) :
    (s.storeRows core c op x n).mem.wf = true := by
  induction n generalizing s with
  | zero => exact hs
  | succ n ih =>
    unfold State.storeRows
    split
    · exact hs
    · next o _ =>
      dsimp only
      split
      · next h => exact State.mem_wf_of_eq h (State.matPages_mem_wf hs ..)
      · next h =>
        have ht := State.mem_wf_of_eq h (State.matPages_mem_wf hs ..)
        split
        · simp [ht]
        · split
          · simp [ht]
          · next hr =>
            have hr := State.storeRow_mem_wf ht hr
            exact State.ite_mem_wf (State.matDone_mem_wf (by simpa using hr) ..) (ih (by simpa using hr))

@[simp] theorem State.matZero_mem_wf (core : Nat) (o : MatOp) (mask : BitVec 16) : (s.matZero core o mask).mem.wf = true := by
  simp [State.matZero, hs]

@[simp] theorem State.mmaEnd_mem_wf (core : Nat) (o : MatOp) (x : Mma) : (s.mmaEnd core o x).mem.wf = true := by
  simp [State.mmaEnd, hs]

/-! ### Requests that go on after a walk, and pages that are answered -/

@[simp] theorem State.parkAgain_mem_wf (r : Req) (x : Xlat) (s2 : Bool) (page : Nat) (table : Bool) :
    (s.parkAgain r x s2 page table).mem.wf = true := by
  simp only [State.parkAgain]
  split <;> simp [hs]

@[simp] theorem State.resumeReq_mem_wf (r : Req) (x : Xlat) (w : WalkEnd) : (s.resumeReq r x w).mem.wf = true := by
  unfold State.resumeReq
  split
  · simp [hs]
  · simp [hs]
  · simp [hs]
  · next e =>
    have hd := State.setDirty_mem_wf hs e r.va.toNat
    refine State.ite_mem_wf (by simp [hs]) ?_
    split
    · simp [hs]
    · simp [hs]
    · simp [hs]
    · simp [hs]
    · split
      · simp [hs]
      · refine State.ite_mem_wf ?_ (by simp [hs])
        split
        · next h => simp [State.mem_wf_of_eq h hd]
        · next h => simp [State.mem_wf_of_eq h hd]

@[simp] theorem State.goReleased_mem_wf (n : Nat) : (s.goReleased n).mem.wf = true := by
  induction n generalizing s with
  | zero => exact hs
  | succ n ih =>
    unfold State.goReleased
    split
    · exact hs
    · exact ih (by simp [hs])

/-- An answered page frees requests, which writes nothing, or ends engine operations, which may spoil what they wrote. -/
@[simp] theorem State.pageAct_mem_wf (launch : Nat) (k : QKey) (q : PageReq) (deny : Bool) : (s.pageAct launch k q deny).mem.wf = true := by
  simp only [State.pageAct]
  split
  · exact hs
  · generalize hp : List.foldl _ s (s.parkedFor launch k q) = t
    have ht : t.mem.wf = true := by
      rw [← hp, State.foldl_mem, hs]
      intro s r
      split
      · simp
      · split <;> simp
    refine State.ite_mem_wf ht (State.foldl_mem_wf (fun s o hs => State.ite_mem_wf (by simp [hs]) (by simp [hs])) _ ?_)
    exact State.ite_mem_wf (State.ite_mem_wf (by simp [ht]) (by simp [ht])) ht

@[simp] theorem State.pageOutcome_mem_wf (k : QKey) (q : PageReq) (deny : Bool) : (s.pageOutcome k q deny).mem.wf = true := by
  simp only [State.pageOutcome]
  exact State.foldl_mem_wf (fun s l hs => State.pageAct_mem_wf hs ..) _ (by simp [hs])

@[simp] theorem State.queueReset_mem_wf (k : QKey) (f : PageQueue → PageQueue) : (s.queueReset k f).mem.wf = true := by
  simp only [State.queueReset]
  exact State.foldl_mem_wf (fun s r hs => State.pageOutcome_mem_wf hs ..) _ (by simp [hs])

@[simp] theorem State.queueWrite_mem_wf (k : QKey) (r : QReg) (v : Dword) : (s.queueWrite k r v).mem.wf = true := by
  unfold State.queueWrite
  split <;> simp [hs]

@[simp] theorem State.reqHeadPut_mem_wf (k : QKey) (v : Word) : (s.reqHeadPut k v).mem.wf = true := by
  simp [State.reqHeadPut, hs]

/-! ### Commits -/

@[simp] theorem State.commitReq_mem_wf (r : Req) : (s.commitReq r).mem.wf = true := by
  simp only [State.commitReq]
  split
  · simp [hs]
  · simp [hs]
  · split <;> simp [hs]
  · exact hs

@[simp] theorem State.ckptAgain_mem_wf (r : Req) (x : Dword) : (s.ckptAgain r x).mem.wf = true := by
  simp only [State.ckptAgain]
  split
  · exact hs
  · exact State.ite_mem_wf hs (State.foldl_mem_wf (fun s a hs => by simp [hs]) _ hs)

/-! ### Saved contexts and control registers -/

@[simp] theorem State.stopMat_mem_wf (core : Nat) (plan : List (Nat × Nat × Bool)) : (s.stopMat core plan).mem.wf = true := by
  refine State.foldl_mem_wf (fun s o hs => ?_) _ hs
  dsimp only
  split
  · simp [hs]
  · split
    · exact hs
    · rw [State.modMat_mem]
      refine State.ite_mem_wf hs ?_
      split
      · next h => simp [State.mem_wf_of_eq h (State.engPages_mem_wf hs ..)]
      · next h => exact State.mem_wf_of_eq h (State.engPages_mem_wf hs ..)
  · exact hs

@[simp] theorem State.saveContext_mem_wf (l : Nat) : (s.saveContext l).mem.wf = true := by
  simp only [State.saveContext, State.stallCheck_mem, State.tidyWalks_mem]
  rw [State.foldl_mem (fun _ _ => State.stash_mem _ _)]
  refine State.foldl_mem_wf (fun s c hs => ?_) _ ?_
  · simp [hs]
  · rw [State.foldl_mem (fun _ _ => State.longDone_mem _ _)]
    rw [State.foldl_mem (fun _ _ => State.dissolve_mem _ _), hs]

@[simp] theorem State.saveNow_mem_wf (l : Nat) : (s.saveNow l).mem.wf = true := by simp [State.saveNow, hs]

@[simp] theorem State.controlPut_mem_wf (launch : Nat) (r : CWReg) (ws : List Word) : (s.controlPut launch r ws).mem.wf = true := by
  simp only [State.controlPut]
  split
  · exact hs
  · split <;> simp [hs]

@[simp] theorem State.ctlEffect_mem_wf (w : CtlWrite) : (s.ctlEffect w).mem.wf = true := by
  simp only [State.ctlEffect]
  split <;> simp [hs]

@[simp] theorem State.controlsBy_mem_wf (now : Nat) : (s.controlsBy now).mem.wf = true :=
  State.foldl_mem_wf (fun _ w hs => State.ctlEffect_mem_wf hs w) _ hs

/-! ### Checkpoint streams -/

@[simp] theorem State.clearCkpt_mem_wf (leaves : List Nat) : (s.clearCkpt leaves).mem.wf = true := by
  rw [State.clearCkpt, State.forget_mem]
  exact State.foldl_mem_wf (fun _ _ hs => State.devicePut_mem_wf hs ..) _ hs

@[simp] theorem State.ckptXlat_mem_wf (x : Xlat) (va : Nat) : (s.ckptXlat x va).1.mem.wf = true := by
  simp only [State.ckptXlat]
  split <;> simp [hs]

@[simp] theorem State.takeChunk_mem_wf (c : Ckpt) : (s.takeChunk c).1.mem.wf = true := by
  unfold State.takeChunk
  have hx := State.ckptXlat_mem_wf hs c.xlat c.va
  split
  · next h => exact State.mem_wf_of_eq h hx
  · next h => exact State.mem_wf_of_eq h hx
  · next h =>
    have ht := State.mem_wf_of_eq h hx
    dsimp only
    split <;> simp [ht]

@[simp] theorem State.ckptRead_mem_wf (c : Ckpt) : (s.ckptRead c).mem.wf = true := by
  simp only [State.ckptRead]
  have hx := State.ckptXlat_mem_wf hs c.xlat c.va
  split
  · next h => simp [State.mem_wf_of_eq h hx]
  · next h => simp [State.mem_wf_of_eq h hx]
  · next h =>
    have ht := State.mem_wf_of_eq h hx
    refine State.ite_mem_wf (by simp [ht]) ?_
    split <;> simp [ht]

@[simp] theorem State.ckptGo_mem_wf (c : Ckpt) (n : Nat) : (s.ckptGo c n).mem.wf = true := by
  induction n generalizing s c with
  | zero => simp [State.ckptGo, hs]
  | succ n ih =>
    unfold State.ckptGo
    have hc := State.takeChunk_mem_wf hs c
    split
    · next h => exact ih (State.mem_wf_of_eq h hc) _
    · next h => simp [State.mem_wf_of_eq h hc]
    · next h => simp [State.mem_wf_of_eq h hc]
    · next h => simp [State.mem_wf_of_eq h hc]

@[simp] theorem State.ckptNext_mem_wf (c : Ckpt) : (s.ckptNext c).mem.wf = true := State.ckptGo_mem_wf hs ..

@[simp] theorem State.ckptStart_mem_wf (c : Ckpt) : (s.ckptStart c).mem.wf = true := by
  simp only [State.ckptStart]
  have hx := State.ckptXlat_mem_wf hs c.xlat c.desc
  split
  · next h => simp [State.mem_wf_of_eq h hx]
  · next h => simp [State.mem_wf_of_eq h hx]
  · next h =>
    have ht := State.mem_wf_of_eq h hx
    exact State.ite_mem_wf (by simp [ht]) (State.ite_mem_wf (by simp [ht]) (by simp [ht]))

@[simp] theorem State.ckptOn_mem_wf (c : Ckpt) : (s.ckptOn c).mem.wf = true := by
  unfold State.ckptOn
  split <;> simp [hs]

/-! ### The front end: what it reads and stores, launches that fire, arms and messages -/

@[simp] theorem State.feXlat_mem_wf (x : Xlat) (va : Nat) : (s.feXlat x va).1.mem.wf = true := by
  simp only [State.feXlat]
  split <;> simp [hs]

@[simp] theorem State.fePage_mem_wf (x : Xlat) (va n : Nat) : (s.fePage x va n).1.mem.wf = true := by
  simp only [State.fePage]
  have hx := State.feXlat_mem_wf hs x va
  split
  · next h => simp [State.mem_wf_of_eq h hx]
  · next h => exact State.mem_wf_of_eq h hx

@[simp] theorem State.feRead_mem_wf (x : Xlat) (va n : Nat) : (s.feRead x va n).1.mem.wf = true := by
  simp only [State.feRead]
  have hp := State.fePage_mem_wf hs x va (min n (65536 - va % 65536))
  split
  · next h => exact State.mem_wf_of_eq h hp
  · next h =>
    have ht := State.mem_wf_of_eq h hp
    split
    · exact ht
    · split
      · next h => exact State.mem_wf_of_eq h (State.fePage_mem_wf ht ..)
      · next h => exact State.mem_wf_of_eq h (State.fePage_mem_wf ht ..)

@[simp] theorem State.fePieces_mem_wf (x : Xlat) (floor : Dword) (l : List (Nat × List Byte)) (top : Dword) :
    (s.fePieces x floor l top).1.mem.wf = true := by
  induction l generalizing s top with
  | nil => exact hs
  | cons p rest ih =>
    unfold State.fePieces
    have hx := State.feXlat_mem_wf hs x p.1
    split
    · next h => exact State.mem_wf_of_eq h hx
    · next h => exact State.mem_wf_of_eq h hx
    · next h =>
      have ht := State.mem_wf_of_eq h hx
      split
      · exact ht
      · split
        · next h => exact State.mem_wf_of_eq h (State.setDirty_mem_wf ht ..)
        · next h =>
          have hu := State.mem_wf_of_eq h (State.setDirty_mem_wf ht ..)
          dsimp only
          split
          · simp [hu]
          · exact ih (State.commitStore_mem_wf hu ..) _

@[simp] theorem State.feStore_mem_wf (x : Xlat) (va : Nat) (floor : Dword) (data : List Byte) : (s.feStore x va floor data).1.mem.wf = true := by
  simp only [State.feStore]
  split <;> simp [hs]

@[simp] theorem State.fire_mem_wf (f : Fire) : (s.fire f).1.mem.wf = true := by
  simp only [State.fire]
  have hr := State.feRead_mem_wf hs f.xlat f.addr.toNat 256
  split
  · simp [hs]
  · split
    · next h => simp [State.mem_wf_of_eq h hr]
    · next h => simp [State.mem_wf_of_eq h hr]

@[simp] theorem State.mapArm_mem_wf (part i : Nat) : (s.mapArm part i).mem.wf = true := by
  simp only [State.mapArm]
  split
  · split
    · next h => exact State.mem_wf_of_eq h (State.feRead_mem_wf hs ..)
    · next h => simp [State.mem_wf_of_eq h (State.feRead_mem_wf hs ..)]
  · exact hs

@[simp] theorem State.atArm_mem_wf (part n : Nat) (a : Arm) (payload : List Byte) (stamp : Dword) :
    (s.atArm part n a payload stamp).1.mem.wf = true := by
  simp only [State.atArm]
  split
  · split <;> simp [hs]
  · split
    · exact hs
    · split
      · exact hs
      · split
        · next h => exact State.mem_wf_of_eq h (State.feStore_mem_wf hs ..)
        · next h => exact State.mem_wf_of_eq h (State.feStore_mem_wf hs ..)
        · next h =>
          have ht := State.mem_wf_of_eq h (State.feStore_mem_wf hs ..)
          split <;> simp [ht]

@[simp] theorem State.message_mem_wf (part : Nat) (tag : Word) (payload : List Byte) (stamp : Dword) :
    (s.message part tag payload stamp).1.mem.wf = true := by
  simp only [State.message]
  split <;> simp [hs]

@[simp] theorem State.sendArrive_mem_wf (m : SendMsg) : (s.sendArrive m).mem.wf = true := by
  simp only [State.sendArrive]
  split
  · refine State.ite_mem_wf hs (State.ite_mem_wf (by simp [hs]) (State.ite_mem_wf (by simp [hs]) (State.ite_mem_wf (by simp [hs]) ?_)))
    split
    all_goals
      next h => simp [State.mem_wf_of_eq h (State.message_mem_wf hs ..)]
  · exact hs

@[simp] theorem State.extArrive_mem_wf (part : Nat) (m : Msg) (interval : Nat) (late : Option Nat) :
    (s.extArrive part m interval late).mem.wf = true := by
  simp only [State.extArrive]
  refine State.ite_mem_wf (by simp [hs]) (State.ite_mem_wf (by simp [hs]) ?_)
  split
  all_goals
    next h => simp [State.mem_wf_of_eq h (State.message_mem_wf hs ..)]

/-! ### Placement and retirement -/

@[simp] theorem State.firstPlace_mem_wf (launch : Nat) : (s.firstPlace launch).mem.wf = true := by
  simp only [State.firstPlace]
  split
  · exact hs
  · refine State.ite_mem_wf hs ?_
    rw [State.modLaunch_mem]
    refine State.foldl_fst_mem_wf (fun a i ha => ?_) _ hs
    split
    all_goals
      next h => exact State.mem_wf_of_eq h (State.feRead_mem_wf ha ..)

theorem State.placeNext_mem_wf {t : State} {launch : Nat} (h : s.placeNext launch = some t) : t.mem.wf = true := by
  simp only [State.placeNext] at h
  split at h
  · cases h
  · split at h
    · cases h
    · obtain ⟨c, -, h⟩ := Option.map_eq_some_iff.1 h
      cases h
      rw [State.modLaunch_mem]
      split <;> simp [hs]

theorem State.placeAll_mem_wf {t : State} {launch n : Nat} (h : s.placeAll launch n = some t) : t.mem.wf = true := by
  induction n generalizing s with
  | zero => cases h; exact hs
  | succ n ih =>
    obtain ⟨u, hu, h⟩ := Option.bind_eq_some_iff.1 h
    exact ih (State.placeNext_mem_wf hs hu) h

@[simp] theorem State.placeFirst_mem_wf (l : List Nat) : (s.placeFirst l).mem.wf = true := by
  induction l with
  | nil => exact hs
  | cons l rest ih =>
    unfold State.placeFirst
    split
    · exact ih
    · split
      · cases h : s.placeAll l _ with
        | none => exact hs
        | some t => exact State.placeAll_mem_wf hs h
      · split
        · next h => exact State.placeNext_mem_wf hs h
        · exact State.ite_mem_wf hs ih

@[simp] theorem State.fireExit_mem_wf (pred : Nat) (l : Launch) (a floor : Dword) : (s.fireExit pred l a floor).1.mem.wf = true := by
  simp only [State.fireExit]
  split
  · exact hs
  · split
    · split <;> simp [hs]
    · split <;> simp [hs]

@[simp] theorem State.takeOver_mem_wf (b : Nat) (twin : Option Nat) (succ : Nat) (floor : Dword) : (s.takeOver b twin succ floor).mem.wf = true := by
  simp only [State.takeOver]
  split
  · simp [hs]
  · rw [State.ite_mem, State.askStop_mem, ite_self, State.modLaunch_mem]
    split
    · simp [hs]
    · split <;> simp [hs]

@[simp] theorem State.completeCheck_mem_wf (launch : Nat) : (s.completeCheck launch).mem.wf = true := by
  simp only [State.completeCheck]
  split
  · exact hs
  · split
    · exact hs
    · split <;> simp [hs]

@[simp] theorem State.retire_mem_wf (b : Nat) (twin : Option Nat) : (s.retire b twin).mem.wf = true := by
  simp only [State.retire]
  split
  · exact hs
  · split
    · exact hs
    · refine State.completeCheck_mem_wf ?_ _
      split
      · refine State.takeOver_mem_wf ?_ ..
        rw [State.modLaunch_mem]
        split <;> simp [hs]
      · rw [State.foldl_mem (fun _ _ => State.releaseBlock_mem _ _), State.modLaunch_mem]
        split <;> simp [hs]

/-! ### Errors from outside, frame migration, power -/

@[simp] theorem State.engineLost_mem_wf (core : Nat) (e : Engine) : (s.engineLost core e).mem.wf = true := by
  unfold State.engineLost
  split
  · simp [hs]
  · split <;> simp [hs]
  · exact hs

@[simp] theorem State.engineUe_mem_wf (core : Nat) (e : Engine) : (s.engineUe core e).mem.wf = true := by
  have count : ∀ b, (match s.engCtx core b with | some c => s.countUe c.xlat.part | none => s).mem.wf = true := by
    intro b
    split <;> simp [hs]
  simp only [State.engineUe]
  split
  · split
    · exact State.ite_mem_wf (State.copyFail_mem_wf (count _) ..) hs
    · exact hs
  · split
    · exact State.matFail_mem_wf (count _) ..
    · exact hs
  · split
    · rw [State.ruleFail_mem]
      exact count _
    · exact hs

@[simp] theorem State.takeOutside_mem_wf (o : Outside) : (s.takeOutside o).mem.wf = true := by
  cases o with
  | sramCorrected c =>
    simp only [State.takeOutside]
    split <;> simp [hs]
  | quantum p n => exact State.whenReady_mem_wf hs hs
  | _ => simp [State.takeOutside, hs]

@[simp] theorem State.moveLeaves_mem_wf (m : Migration) : (s.moveLeaves m).mem.wf = true :=
  State.foldl_mem_wf (fun _ _ hs => State.devicePut_mem_wf hs ..) _ hs

@[simp] theorem State.clearMark_mem_wf (m : Migration) : (s.clearMark m).mem.wf = true :=
  State.foldl_mem_wf (fun _ _ hs => State.pageOutcome_mem_wf hs ..) _ hs

@[simp] theorem State.configure_mem_wf (cfg : BootCfg) : (s.configure cfg).mem.wf = true := by
  simp only [State.configure]
  exact State.foldl_mem_wf (fun s c hs => State.fire_mem_wf hs _) _ (by simp [hs])

omit hs in
/-- Memory without supply is empty, as at reset (log 2). -/
@[simp] theorem State.blank_mem_wf (supply : Bool) : (s.blank supply).mem.wf = true := State.reset_mem_wf

/-! ### Fetch -/

@[simp] theorem State.parkFetch_mem_wf (p : Pass) (l : Launch) (va : Dword) (s2 : Bool) (page : Nat) (table : Bool) :
    (s.parkFetch p l va s2 page table).mem.wf = true := by
  simp [State.parkFetch, hs]

@[simp] theorem State.fetch_mem_wf (p : Pass) (l : Launch) (b : Bundle) : (s.fetch p l b).mem.wf = true := by
  simp only [State.fetch]
  split
  · split
    · simp [hs]
    · refine State.ite_mem_wf ?_ ?_
      · split <;> simp [hs]
      · split
        · split <;> simp [hs]
        · split
          · split <;> simp [hs]
          · simp [hs]
          · simp [hs]
  · split
    · split <;> simp [hs]
    · simp [hs]
    · simp [hs]

@[simp] theorem State.fetchAt_mem_wf (port : Nat) : (s.fetchAt port).mem.wf = true := by
  simp only [State.fetchAt]
  split
  · exact hs
  · refine State.ite_mem_wf hs ?_
    split
    · exact hs
    · split <;> simp [hs]

end

/-! ### Outcomes -/

/-- The next state of an outcome, where it has one, holds its memory in canonical form. -/
def NextCanonical (o : Host.Outcome State Fault Refusal) : Prop := ∀ u, o = .next u → MemoryCanonical u

theorem nextCanonical_next {t : State} (h : t.mem.wf = true) : NextCanonical (.next t) := by
  rintro u ⟨⟩
  exact h

/-- A word that leaves memory alone. -/
theorem nextCanonical_of_mem {s t : State} (hs : s.mem.wf = true) (h : t.mem = s.mem) : NextCanonical (.next t) :=
  nextCanonical_next (h ▸ hs)

section

variable {s : State} (hs : s.mem.wf = true)
include hs

/-! ### Words of threads -/

theorem execShfl_canonical (t : Tri) : NextCanonical (execShfl t s) := nextCanonical_of_mem hs (State.lockstep_mem ..)

theorem execSettle_canonical (t : MemA) : NextCanonical (execSettle t s) := by
  refine nextCanonical_of_mem hs ?_
  split
  · rfl
  · dsimp only
    split
    · rfl
    · rw [State.endPass_mem]
      split
      · rw [State.foldl_mem]
        · exact State.putDone_mem ..
        · intro s w
          rfl
      · exact State.putDone_mem ..

theorem execPref_canonical (t : MemAB) : NextCanonical (execPref t s) := by
  refine nextCanonical_of_mem hs ?_
  split
  · rfl
  · dsimp only
    split <;> simp

theorem execVtos_canonical (t : VtosW) : NextCanonical (execVtos t s) := by
  refine nextCanonical_of_mem hs ?_
  split
  · rfl
  · dsimp only
    rw [State.endPass_mem, State.foldl_fst_mem]
    intro a g
    split
    · rfl
    · split
      · rfl
      · split <;> rfl

theorem execSld_canonical (t : SLdW) : NextCanonical (execSld t s) := by
  refine nextCanonical_next ?_
  split
  · exact hs
  · split
    · exact hs
    · dsimp only
      refine State.ite_mem_wf (by simp [hs]) (State.ite_mem_wf (by simp [hs]) (State.ite_mem_wf (by simp [hs]) (State.ite_mem_wf (by simp [hs]) ?_)))
      rw [State.endPass_mem, State.noteParked_mem]
      refine State.foldl_fst_mem_wf (fun a g ha => ?_) _ (by simp [hs])
      split
      · exact ha
      · split
        · simp [ha]
        · simp [ha]
        · split <;> simp [ha]
        · split <;> simp [ha]

theorem execExit_canonical (t : SAW) : NextCanonical (execExit t s) := by
  refine nextCanonical_of_mem hs ?_
  split
  · rfl
  · dsimp only
    rw [State.ite_mem, State.holdPass_mem, State.endPass_mem, State.redPass_mem, State.foldl_fst_mem]
    · simp
    · intro a c
      split
      · rfl
      · split
        · rfl
        · simp

theorem execAssert_canonical (t : SAW) : NextCanonical (execAssert t s) := by
  refine nextCanonical_of_mem hs ?_
  split
  · rfl
  · dsimp only
    split
    · simp
    · split
      · simp
      · split <;> simp

theorem execSread_canonical (t : SReadW) : NextCanonical (execSread t s) := nextCanonical_of_mem hs (by simp)

theorem execSwrite_canonical (t : SWriteW) : NextCanonical (execSwrite t s) := by
  refine nextCanonical_of_mem hs ((State.serial_mem _ _ fun s c => ?_).trans (by simp))
  split
  · dsimp only
    split <;> rfl
  · rfl

theorem execFloorup_canonical (t : WDA) : NextCanonical (execFloorup t s) := by
  refine nextCanonical_of_mem hs (State.serial_mem _ _ fun s c => State.quiet_mem fun s a x u ws h => ?_)
  split at h <;> cases h <;> rfl

theorem execTagl_canonical (t : WDA) : NextCanonical (execTagl t s) :=
  nextCanonical_of_mem hs (State.serial_mem _ _ fun s c => State.quiet_mem fun s a x u ws h => by cases h; rfl)

theorem execTags_canonical (t : WDA) : NextCanonical (execTags t s) := by
  refine nextCanonical_of_mem hs (State.serial_mem _ _ fun s c => State.quiet_mem fun s a x u ws h => ?_)
  dsimp only at h
  split at h <;> cases h
  rfl

theorem execTagi_canonical (t : WA) : NextCanonical (execTagi t s) :=
  nextCanonical_of_mem hs (State.serial_mem _ _ fun s c => State.quiet_mem fun s a x u ws h => by cases h; rfl)

theorem execTagc_canonical (t : WA) : NextCanonical (execTagc t s) := by
  refine nextCanonical_of_mem hs (State.serial_mem _ _ fun s c => State.quiet_mem fun s a x u ws h => ?_)
  split at h <;> cases h
  rfl

theorem execSsetp_canonical (t : SCmp) : NextCanonical (execSsetp t s) := by
  refine nextCanonical_of_mem hs (State.scalarWord_mem _ _ fun s c u h => ?_)
  split at h
  · cases h
  · split at h <;> cases h
    rfl

theorem execRegacq_canonical (t : HdW) : NextCanonical (execRegacq t s) := by
  refine nextCanonical_of_mem hs (State.extWord_mem _ _ _ fun s p n w cs u h => ?_)
  split at h
  · cases h
  · split at h <;> cases h <;> simp

theorem execRegtry_canonical (t : PW) : NextCanonical (execRegtry t s) :=
  nextCanonical_of_mem hs (State.extWord_mem _ _ _ fun s p n w cs u h => by cases h; simp)

theorem execRegrel_canonical (t : HdW) : NextCanonical (execRegrel t s) := by
  refine nextCanonical_of_mem hs (State.extWord_mem _ _ _ fun s p n w cs u h => ?_)
  split at h <;> cases h
  simp

theorem execArvi_canonical (t : WAB) : NextCanonical (execArvi t s) := by
  refine nextCanonical_of_mem hs (State.afterOwn_mem _ _ (State.ownPass_mem _ _ fun s c a b u ws h => ?_))
  split at h <;> cases h
  rfl

theorem execRpack_canonical (t : WAB) : NextCanonical (execRpack t s) := by
  refine nextCanonical_of_mem hs (State.afterOwn_mem _ _ (State.ownPass_mem _ _ fun s c a b u ws h => ?_))
  dsimp only at h
  repeat' split at h
  all_goals cases h
  rfl

theorem execRunpack_canonical (t : WAB) : NextCanonical (execRunpack t s) := by
  refine nextCanonical_of_mem hs (State.afterOwn_mem _ _ (State.ownPass_mem _ _ fun s c a b u ws h => ?_))
  dsimp only at h
  repeat' split at h
  all_goals cases h
  rfl

theorem execRcount_canonical (t : WDAB) : NextCanonical (execRcount t s) := by
  refine nextCanonical_of_mem hs (State.afterOwn_mem _ _ (State.ownPass_mem _ _ fun s c a b u ws h => ?_))
  dsimp only at h
  repeat' split at h
  all_goals cases h
  rfl

theorem execRgen_canonical (t : WD) : NextCanonical (execRgen t s) := by
  refine nextCanonical_of_mem hs (State.ownPass_mem _ _ fun s c a b u ws h => ?_)
  split at h <;> cases h
  rfl

theorem execAccld_canonical (t : WDAB) : NextCanonical (execAccld t s) := by
  refine nextCanonical_of_mem hs (State.ownPass_mem _ _ fun s c a b u ws h => ?_)
  dsimp only at h
  repeat' split at h
  all_goals cases h
  rfl

theorem execRcfg_canonical (t : WA) : NextCanonical (execRcfg t s) := by
  refine nextCanonical_of_mem hs (State.rulWait_mem _ (State.ownPass_mem _ _ fun s c a b u ws h => ?_))
  dsimp only at h
  repeat' split at h
  all_goals cases h
  rfl

theorem execRtld_canonical (t : WAB) : NextCanonical (execRtld t s) := by
  refine nextCanonical_of_mem hs (State.rulWait_mem _ (State.ownPass_mem _ _ fun s c a b u ws h => ?_))
  dsimp only at h
  repeat' split at h
  all_goals cases h
  rfl

theorem execKick_canonical (t : WA) : NextCanonical (execKick t s) := nextCanonical_of_mem hs (State.handWord_mem _ fun _ _ _ _ _ => rfl)

theorem execAccz_canonical (t : WAB) : NextCanonical (execAccz t s) := nextCanonical_of_mem hs (State.handWord_mem _ fun _ _ _ _ _ => rfl)

theorem execRstep_canonical (t : WA) : NextCanonical (execRstep t s) := nextCanonical_of_mem hs (State.handWord_mem _ fun _ _ _ _ _ => rfl)

theorem execSend_canonical (t : WDAB) : NextCanonical (execSend t s) :=
  nextCanonical_of_mem hs (State.handWord_mem _ fun _ _ _ _ _ => by simp)

theorem execCkpt_canonical (t : WDA) : NextCanonical (execCkpt t s) := by
  refine nextCanonical_of_mem hs (State.sysWord_mem _ fun _ => State.handWord_mem _ fun _ _ _ _ _ => ?_)
  dsimp only
  split <;> simp

theorem execCsrr_canonical (t : CsrrW) : NextCanonical (execCsrr t s) :=
  nextCanonical_of_mem hs (State.sysWord_mem _ fun _ => State.vector_mem ..)

theorem execCsrw_canonical (t : CsrwW) : NextCanonical (execCsrw t s) := by
  refine nextCanonical_of_mem hs (State.sysWord_mem _ fun _ => ?_)
  dsimp only
  split <;> simp

theorem execHset_canonical (t : WA) : NextCanonical (execHset t s) := by
  refine nextCanonical_of_mem hs (State.sysWord_mem _ fun _ => State.serial_mem _ _ fun s c => ?_)
  split <;> rfl

theorem execXsync_canonical (t : HdW) : NextCanonical (execXsync t s) :=
  nextCanonical_of_mem hs (State.sysWord_mem _ fun _ => by simp)

theorem execRabort_canonical (t : HdW) : NextCanonical (execRabort t s) := by
  refine nextCanonical_of_mem hs ?_
  split
  · rfl
  · simp

/-! ### Events of the engines -/

theorem execCopyRequestStart_canonical (core : Nat) : NextCanonical (execCopyRequestStart core s) := by
  refine nextCanonical_next ?_
  dsimp only
  split
  · exact hs
  · refine State.ite_mem_wf hs ?_
    split
    · refine State.ite_mem_wf (State.copyFail_mem_wf ?_ ..) (State.ite_mem_wf ?_ (State.ite_mem_wf (State.copyFail_mem_wf ?_ ..) ?_))
      all_goals simp [hs]
    · simp [hs]

theorem execCopyGranule_canonical (core : Nat) : NextCanonical (execCopyGranule core s) := by
  refine nextCanonical_next ?_
  dsimp only
  split
  · exact hs
  · refine State.ite_mem_wf hs (State.ite_mem_wf (by simp [hs]) (State.ite_mem_wf hs ?_))
    split
    · split
      · next h => simp [State.mem_wf_of_eq h (State.engPages_mem_wf hs ..)]
      · next h => simp [State.mem_wf_of_eq h (State.engPages_mem_wf hs ..)]
      · next h => exact State.mem_wf_of_eq h (State.engPages_mem_wf hs ..)
      · next h =>
        have ht := State.mem_wf_of_eq h (State.engPages_mem_wf hs ..)
        split
        · simp [ht]
        · split
          · simp [ht]
          · next hc =>
            have hu := State.copyElems_mem_wf ht hc
            dsimp only at hu
            split
            · exact State.copyFail_mem_wf (by simp [hu]) ..
            · exact State.ite_mem_wf (State.copyFail_mem_wf (by simp [hu]) ..) (State.ite_mem_wf (by simp [hu]) (by simp [hu]))
    · simp [hs]

theorem execMatrixOpStart_canonical (core : Nat) : NextCanonical (execMatrixOpStart core s) := by
  refine nextCanonical_next ?_
  dsimp only
  split
  · exact hs
  · refine State.ite_mem_wf hs ?_
    split
    · simp [hs]
    · refine State.ite_mem_wf (by simp [hs]) (State.ite_mem_wf (by simp [hs]) (State.ite_mem_wf (by simp [hs]) (State.ite_mem_wf (by simp [hs]) ?_)))
      simp [hs]

theorem execMulticastGroupReady_canonical (core : Nat) : NextCanonical (execMulticastGroupReady core s) := by
  refine nextCanonical_next ?_
  split
  · refine State.ite_mem_wf (State.foldl_mem_wf (fun s r hs => by simp [hs]) _ hs) (State.foldl_mem_wf (fun s r hs => by simp [hs]) _ hs)
  · exact hs

theorem execMatrixOpComplete_canonical (core op : Nat) : NextCanonical (execMatrixOpComplete core op s) := by
  refine nextCanonical_next ?_
  split
  · exact hs
  · refine State.ite_mem_wf hs ?_
    split
    · simp [hs]
    · refine State.ite_mem_wf (by simp [hs]) (State.ite_mem_wf hs ?_)
      split
      · simp [hs]
      · simp [hs]
      · dsimp only
        split
        · next h => exact State.mem_wf_of_eq h (State.matPages_mem_wf hs ..)
        · next h =>
          have ht := State.mem_wf_of_eq h (State.matPages_mem_wf hs ..)
          exact State.ite_mem_wf (by simp [ht]) (State.ite_mem_wf (by simp [ht]) (State.ite_mem_wf (by simp [ht]) (by simp [ht])))

theorem execRuleStepStart_canonical (core : Nat) : NextCanonical (execRuleStepStart core s) := by
  refine nextCanonical_of_mem hs ?_
  split
  · rfl
  · rw [State.ite_mem]
    split
    · rfl
    · split
      · simp
      · simp

theorem execRuleGeneration_canonical (core : Nat) : NextCanonical (execRuleGeneration core s) := by
  refine nextCanonical_of_mem hs ?_
  split
  · rfl
  · rw [State.ite_mem, State.ite_mem]
    split
    · rfl
    · split
      · simp
      · split
        · simp
        · dsimp only
          split <;> simp

/-! ### Events of memory and translation -/

theorem execWalkComplete_canonical (id : Nat) : NextCanonical (execWalkComplete id s) := by
  refine nextCanonical_next ?_
  split
  · simp [hs]
  · dsimp only
    rw [State.ackInvals_mem, State.tidyWalks_mem]
    refine State.goReleased_mem_wf ?_ _
    split
    · refine State.ite_mem_wf ?_ ?_ <;> simp [hs]
    · simp [hs]
    · simp [hs]

theorem execPageResponse_canonical (k : QKey) : NextCanonical (execPageResponse k s) := by
  refine nextCanonical_next ?_
  dsimp only
  refine State.ite_mem_wf hs ?_
  split
  · exact State.ite_mem_wf (by simp [hs]) (State.ite_mem_wf hs (by simp [hs]))
  · simp [hs]

theorem execQueueConfigWrite_canonical (k : QKey) (r : QReg) (v : Dword) : NextCanonical (execQueueConfigWrite k r v s) :=
  nextCanonical_next (State.whenReady_mem_wf hs (State.queueWrite_mem_wf hs ..))

theorem execReqHeadWrite_canonical (k : QKey) (v : Word) : NextCanonical (execReqHeadWrite k v s) :=
  nextCanonical_next (State.whenReady_mem_wf hs (State.reqHeadPut_mem_wf hs ..))

theorem execMgmtInvalidate_canonical (part : Nat) (kind : InvKind) (vf : BitVec 8) (asid : BitVec 16) (addr : Dword) :
    NextCanonical (execMgmtInvalidate part kind vf asid addr s) :=
  nextCanonical_of_mem hs (State.whenReady_mem _ (by simp))

theorem execWindowCompare_canonical (block : Nat) : NextCanonical (execWindowCompare block s) := by
  refine nextCanonical_of_mem hs ?_
  rw [State.ite_mem]
  split
  · rfl
  · split
    · rfl
    · split
      · split <;> simp
      · split
        · dsimp only
          split
          · simp
          · split <;> simp
        · split <;> simp

theorem execSliceLoad_canonical (id : Nat) : NextCanonical (execSliceLoad id s) := by
  refine nextCanonical_of_mem hs ?_
  split
  · rfl
  · rw [State.ite_mem, State.ite_mem]
    split
    · rfl
    · split
      · split <;> simp
      · split
        · simp
        · simp
        · simp

theorem execAsofWalk_canonical (id : Nat) : NextCanonical (execAsofWalk id s) := by
  refine nextCanonical_of_mem hs ?_
  split
  · rfl
  · split
    · dsimp only
      split
      · rfl
      · split
        · split <;> simp
        · split <;> simp
    · rfl

theorem execSliceCommit_canonical (id : Nat) : NextCanonical (execSliceCommit id s) := by
  refine nextCanonical_next ?_
  split
  · exact hs
  · refine State.ite_mem_wf hs (State.ite_mem_wf ?_ (State.ite_mem_wf ?_ (by simp [hs])))
    · split <;> simp [hs]
    · split <;> simp [hs]

theorem execMirrorStoreArrival_canonical (id core : Nat) : NextCanonical (execMirrorStoreArrival id core s) := by
  refine nextCanonical_of_mem hs ?_
  split
  · rfl
  · split
    · dsimp only
      split
      · rfl
      · split <;> simp
    · rfl

theorem execClusterWindowWrite_canonical (id : Nat) : NextCanonical (execClusterWindowWrite id s) := by
  refine nextCanonical_of_mem hs ?_
  split
  · rfl
  · split <;> simp

theorem execMemResponse_canonical (id : Nat) : NextCanonical (execMemResponse id s) := by
  refine nextCanonical_of_mem hs ?_
  split
  · rfl
  · dsimp only
    split
    · rfl
    · split
      · rfl
      · rw [State.ackInvals_mem]
        split
        · simp
        · split <;> simp

/-! ### Events of threads, time, contexts and partitions -/

theorem execPauseExpiry_canonical (t : TKey) : NextCanonical (execPauseExpiry t s) := by
  refine nextCanonical_of_mem hs ?_
  split
  · rfl
  · simp

theorem execLongOpResult_canonical (id : Nat) : NextCanonical (execLongOpResult id s) := by
  refine nextCanonical_of_mem hs ?_
  split <;> simp

theorem execBarrierPhaseComplete_canonical (k : BarKey) : NextCanonical (execBarrierPhaseComplete k s) := by
  refine nextCanonical_of_mem hs ?_
  split <;> simp

theorem execHaltBroadcast_canonical (block core lane : Nat) : NextCanonical (execHaltBroadcast block core lane s) := by
  refine nextCanonical_of_mem hs ?_
  dsimp only
  split <;> simp

theorem execHandlerEntry_canonical (block : Nat) : NextCanonical (execHandlerEntry block s) := by
  refine nextCanonical_of_mem hs ?_
  split <;> simp

theorem execReferenceTick_canonical : NextCanonical (execReferenceTick s) := nextCanonical_of_mem hs rfl

theorem execSettledUpdate_canonical : NextCanonical (execSettledUpdate s) := nextCanonical_of_mem hs rfl

theorem execHoldStallTimeout_canonical (part : Nat) : NextCanonical (execHoldStallTimeout part s) := by
  refine nextCanonical_of_mem hs ?_
  split <;> simp

theorem execEraRebase_canonical : NextCanonical (execEraRebase s) := nextCanonical_of_mem hs (by simp)

theorem execPreempt_canonical (launch : Nat) : NextCanonical (execPreempt launch s) := nextCanonical_next (by simp [hs])

theorem execPreemptDeferralTimeout_canonical (launch : Nat) : NextCanonical (execPreemptDeferralTimeout launch s) := by
  refine nextCanonical_next ?_
  split <;> simp [hs]

theorem execContextRestore_canonical (launch : Nat) : NextCanonical (execContextRestore launch s) := by
  refine nextCanonical_next ?_
  split
  · exact hs
  · refine State.ite_mem_wf hs ?_
    dsimp only
    rw [State.freeSettles_mem, State.foldl_mem, State.foldl_mem]
    · refine State.foldl_mem_wf (fun s h hs => State.pageAct_mem_wf hs ..) _ ?_
      rw [State.foldl_mem (fun _ _ => State.grantLane_mem ..), State.foldl_mem (fun _ _ => State.askWalk_mem ..)]
      rw [State.foldl_mem (fun _ _ => by rw [State.modCopy_mem, State.unstash_mem]), hs]
    · intro s m
      split <;> simp
    · intro s c
      split <;> simp

theorem execContextDiscard_canonical (launch : Nat) : NextCanonical (execContextDiscard launch s) := by
  refine nextCanonical_of_mem hs (State.whenReady_mem _ ?_)
  split <;> simp

theorem execGangSwitchTick_canonical (sched : List VfCfg) : NextCanonical (execGangSwitchTick sched s) := nextCanonical_of_mem hs (by simp)

theorem execTardyDeadline_canonical (die : Nat) : NextCanonical (execTardyDeadline die s) := by
  refine nextCanonical_of_mem hs ?_
  split <;> simp

/-! ### Events of the front end and the platform -/

theorem execCkptServiceReply_canonical (id : Nat) (reply : CkptReply) : NextCanonical (execCkptServiceReply id reply s) := by
  refine nextCanonical_next ?_
  split
  · exact hs
  · refine State.ite_mem_wf ?_ ?_
    · split <;> simp [hs]
    · split
      case h_5 | h_10 => split <;> simp [hs]
      all_goals simp [hs]

theorem execArmInstall_canonical (part n : Nat) (desc : BitVec 256) : NextCanonical (execArmInstall part n desc s) :=
  nextCanonical_of_mem hs (State.whenReady_mem _ (by simp))

theorem execArmQuantum_canonical (part : Nat) : NextCanonical (execArmQuantum part s) :=
  nextCanonical_next (State.foldl_mem_wf (fun _ _ hs => State.mapArm_mem_wf hs ..) _ (by simp [hs]))

theorem execTaggedMessage_canonical (part : Nat) (src : MsgSrc) : NextCanonical (execTaggedMessage part src s) := by
  refine nextCanonical_next ?_
  split
  · exact State.whenReady_mem_wf hs (State.extArrive_mem_wf hs ..)
  · split <;> simp [hs]

theorem execBusyRetry_canonical (id : Nat) : NextCanonical (execBusyRetry id s) := by
  refine nextCanonical_next ?_
  split <;> simp [hs]

theorem execSendPayloadRead_canonical (id : Nat) : NextCanonical (execSendPayloadRead id s) := by
  refine nextCanonical_of_mem hs ?_
  split <;> simp

theorem execSendResponse_canonical (id : Nat) (status : Word) : NextCanonical (execSendResponse id status s) := by
  refine nextCanonical_of_mem hs ?_
  split
  · rfl
  · split
    · split <;> simp
    · simp

theorem execBackfillBlockTimeout_canonical (part : Nat) : NextCanonical (execBackfillBlockTimeout part s) := by
  refine nextCanonical_of_mem hs ?_
  split <;> rfl

theorem execBlockRetire_canonical (block : Nat) : NextCanonical (execBlockRetire block s) := by
  refine nextCanonical_next (State.ite_mem_wf hs ?_)
  dsimp only
  split
  · simp [hs]
  · refine State.ite_mem_wf hs ?_
    split <;> simp [hs]

theorem execPartitionEntryWrite_canonical (n : Nat) (v : Word) : NextCanonical (execPartitionEntryWrite n v s) :=
  nextCanonical_of_mem hs (State.whenReady_mem _ (by simp))

theorem execLinkDead_canonical (die link : Nat) (lostReqs : List Nat) (lostEngines : List (Nat × Engine)) :
    NextCanonical (execLinkDead die link lostReqs lostEngines s) := by
  refine nextCanonical_next (State.ite_mem_wf hs ?_)
  dsimp only
  rw [State.countLost_mem]
  exact State.foldl_mem_wf (fun s e hs => State.engineLost_mem_wf hs ..) _ hs

theorem execRemoteWrite_canonical (part : Nat) (addr : Dword) (data : List Byte) : NextCanonical (execRemoteWrite part addr data s) := by
  refine nextCanonical_next (State.whenReady_mem_wf hs (State.ite_mem_wf (by simp [hs]) ?_))
  split
  all_goals
    next h => simp [State.mem_wf_of_eq h (State.feStore_mem_wf hs ..)]

theorem execHostAtomic_canonical (part : Nat) (addr : Dword) (op : AtomOp) (w64 signed : Bool) (x cmp : Dword) :
    NextCanonical (execHostAtomic part addr op w64 signed x cmp s) := by
  refine nextCanonical_next (State.whenReady_mem_wf hs (State.ite_mem_wf (by simp [hs]) ?_))
  split
  · next h => simp [State.mem_wf_of_eq h (State.feXlat_mem_wf hs ..)]
  · next h => simp [State.mem_wf_of_eq h (State.feXlat_mem_wf hs ..)]
  · next h =>
    have ht := State.mem_wf_of_eq h (State.feXlat_mem_wf hs ..)
    dsimp only
    refine State.ite_mem_wf (by simp [ht]) (State.ite_mem_wf (by simp [ht]) ?_)
    split
    · next h => simp [State.mem_wf_of_eq h (State.setDirty_mem_wf ht ..)]
    · next h =>
      have hu := State.mem_wf_of_eq h (State.setDirty_mem_wf ht ..)
      exact State.ite_mem_wf (by simp [hu]) (by simp [hu])

theorem execFrameMigration_canonical (part old new : Nat) (stage : Fin 5) : NextCanonical (execFrameMigration part old new stage s) := by
  refine nextCanonical_next ?_
  split
  · simp [hs]
  · refine State.ite_mem_wf hs ?_
    dsimp only
    split <;> simp [hs]

theorem execErrorCounterClear_canonical (reader : CtrReader) (c : ErrCtr) : NextCanonical (execErrorCounterClear reader c s) := by
  refine nextCanonical_of_mem hs (State.whenReady_mem _ ?_)
  rw [State.ite_mem]
  split
  · rfl
  · split <;> rfl

theorem execPowerOn_canonical (cfg : BootCfg) : NextCanonical (execPowerOn cfg s) := by
  have h : (if s.supply then s else s.blank true).mem.wf = true := State.ite_mem_wf hs (State.blank_mem_wf true)
  refine nextCanonical_next ?_
  generalize (if s.supply then s else s.blank true) = t at h
  dsimp only
  split
  · exact State.ite_mem_wf h (State.ite_mem_wf h h)
  · exact State.configure_mem_wf h cfg
  · exact h

theorem execPowerCap_canonical : NextCanonical (execPowerCap s) := nextCanonical_of_mem hs (by simp)

theorem execPickerFormBundle_canonical (core lane : Nat) (port : Port) : NextCanonical (execPickerFormBundle core lane port s) := by
  refine nextCanonical_next (State.ite_mem_wf (by simp [hs]) ?_)
  dsimp only
  split
  · exact hs
  · simp [hs]

end

/-! ### The step -/

/-- Every instruction and every event keeps memory in canonical form. -/
theorem exec_canonical {s : State} (hs : s.mem.wf = true) (i : Instr) : NextCanonical (exec i s) := by
  cases i with
  | iadd | isub | imul | imad | imulh | imulhn | and | or | xor | andn | shl | shr | sar | imin | imax | nmin | nmax | isetp | mov | movi
  | fadd | fmul | ffma | ffmal | fmin | fmax | fsetp | ineg | iabs | not | popc | clz | brev | bswap | fneg | fabs | fclass | frint
  | cvtF32I32 | cvtF32N32 | cvtI32F32 | cvtN32F32 | cvtF16F32 | cvtF32F16 | cvtBf16F32 | cvtF32Bf16 | cvtI32I8 | cvtI32I16 | quant | deq
  | dadd | dsub | dmul | dfma | dfmal | dmin | dmax | dsetp | dscale | ladd | lsub | lmul | lmulh | lmulhn | land | lor | lxor | lshl
  | lshr | lsar | lsetp | lmin | lmax | lea | lea4 | lea8 | lmov | dneg | dabs | dclass | drint | dgetexp | dgetmant | lneg | lpopc
  | lclz | cvtF64F32 | cvtF32F64 | cvtF64I32 | cvtF64N32 | cvtF64I64 | cvtF64N64 | cvtI32F64 | cvtN32F64 | cvtI64F64 | cvtN64F64
  | cvtI64I32 | cvtN64N32 | paddF2 | pmulF2 | pfmaF2 | paddH2 | pmulH2 | pfmaH2 | paddB2 | pmulB2 | pfmaB2 | pminH2 | pmaxH2 | pminB2
  | pmaxB2 | pdot2H | pdot2B | pdot4I8 | pdot4N8 | paddI16 | psubI16 | f2toh2 | f2tob2 | h2tof2 | b2tof2 | quant4 | deq4 | slotrd =>
    exact nextCanonical_of_mem hs (State.vector_mem ..)
  | fdiv | frcp | fsqrt | frsq | fex2 | flg2 | fsin | fcos | ddiv | dsqrt =>
    exact nextCanonical_of_mem hs (State.long_mem ..)
  | sel | voteAny | voteAll | voteBallot | elect =>
    exact nextCanonical_of_mem hs (State.lockstep_mem ..)
  | rdfx | clrfx | setfx | rdrm | setrm =>
    exact nextCanonical_of_mem hs (State.fxop_mem ..)
  | bra | brx | call | callx | ret =>
    exact nextCanonical_of_mem hs (State.transfer_mem ..)
  | sadd | ssub | smul | smov | smovi | slea | sand =>
    exact nextCanonical_of_mem hs (State.scalarOp_mem ..)
  | pause | kill | setx | trap | bkpt | nop =>
    exact nextCanonical_of_mem hs (State.quickWord_mem ..)
  | bar | bara | barw =>
    exact nextCanonical_of_mem hs (State.barWord_mem ..)
  | fenceFull | fenceAcq | fenceRel =>
    exact nextCanonical_of_mem hs (State.fenceWord_mem ..)
  | rlqRd | rlqWr =>
    exact nextCanonical_of_mem hs (State.rlqWord_mem ..)
  | mma | mmasp | accst =>
    exact nextCanonical_of_mem hs (State.matHand_mem ..)
  | eret | eretall =>
    exact nextCanonical_of_mem hs (State.eretWord_mem ..)
  | xinvVa | xinvAsid | xinvIpa | xinvVmid =>
    exact nextCanonical_of_mem hs (State.xinvWord_mem ..)
  | ldb | ldbs | ldh | ldhs | ldw | ldd | ldq | stb | sth | stw | std | stq | stws | stds | asw | asd | asq | aadd | amin | amax | aand
  | aor | axor | axch | acas | afadd | adadd | lstamp =>
    exact nextCanonical_next (State.memWord_mem_wf hs _)
  | shfl t => exact execShfl_canonical hs t
  | floorup t => exact execFloorup_canonical hs t
  | settle t => exact execSettle_canonical hs t
  | tagl t => exact execTagl_canonical hs t
  | tags t => exact execTags_canonical hs t
  | tagi t => exact execTagi_canonical hs t
  | tagc t => exact execTagc_canonical hs t
  | pref t => exact execPref_canonical hs t
  | exit t => exact execExit_canonical hs t
  | regacq t => exact execRegacq_canonical hs t
  | regtry t => exact execRegtry_canonical hs t
  | regrel t => exact execRegrel_canonical hs t
  | sread t => exact execSread_canonical hs t
  | swrite t => exact execSwrite_canonical hs t
  | assert t => exact execAssert_canonical hs t
  | ssetp t => exact execSsetp_canonical hs t
  | sld t => exact execSld_canonical hs t
  | vtos t => exact execVtos_canonical hs t
  | accz t => exact execAccz_canonical hs t
  | accld t => exact execAccld_canonical hs t
  | kick t => exact execKick_canonical hs t
  | arvi t => exact execArvi_canonical hs t
  | send t => exact execSend_canonical hs t
  | rcfg t => exact execRcfg_canonical hs t
  | rtld t => exact execRtld_canonical hs t
  | rstep t => exact execRstep_canonical hs t
  | rpack t => exact execRpack_canonical hs t
  | runpack t => exact execRunpack_canonical hs t
  | rcount t => exact execRcount_canonical hs t
  | rgen t => exact execRgen_canonical hs t
  | rabort t => exact execRabort_canonical hs t
  | csrr t => exact execCsrr_canonical hs t
  | csrw t => exact execCsrw_canonical hs t
  | xsync t => exact execXsync_canonical hs t
  | hset t => exact execHset_canonical hs t
  | ckpt t => exact execCkpt_canonical hs t
  | pickerFormBundle core lane port => exact execPickerFormBundle_canonical hs core lane port
  | pauseExpiry t => exact execPauseExpiry_canonical hs t
  | longOpResult id => exact execLongOpResult_canonical hs id
  | memResponse id => exact execMemResponse_canonical hs id
  | sliceCommit id => exact execSliceCommit_canonical hs id
  | sliceLoad id => exact execSliceLoad_canonical hs id
  | asofWalk id => exact execAsofWalk_canonical hs id
  | referenceTick => exact execReferenceTick_canonical hs
  | settledUpdate => exact execSettledUpdate_canonical hs
  | holdStallTimeout part => exact execHoldStallTimeout_canonical hs part
  | eraRebase => exact execEraRebase_canonical hs
  | tickholdWrite v => exact nextCanonical_of_mem hs (State.whenReady_mem _ (State.tickholdPut_mem ..))
  | barrierPhaseComplete b => exact execBarrierPhaseComplete_canonical hs b
  | walkComplete id => exact execWalkComplete_canonical hs id
  | pageResponse q => exact execPageResponse_canonical hs q
  | queueConfigWrite q r v => exact execQueueConfigWrite_canonical hs q r v
  | reqHeadWrite q v => exact execReqHeadWrite_canonical hs q v
  | rspTailWrite q v => exact nextCanonical_of_mem hs (State.whenReady_mem _ (State.rspTailPut_mem ..))
  | mgmtInvalidate part kind vf asid addr => exact execMgmtInvalidate_canonical hs part kind vf asid addr
  | haltBroadcast block core lane => exact execHaltBroadcast_canonical hs block core lane
  | handlerEntry block => exact execHandlerEntry_canonical hs block
  | preempt launch => exact execPreempt_canonical hs launch
  | preemptDeferralTimeout launch => exact execPreemptDeferralTimeout_canonical hs launch
  | contextRestore launch => exact execContextRestore_canonical hs launch
  | contextDiscard launch => exact execContextDiscard_canonical hs launch
  | gangSwitchTick sched => exact execGangSwitchTick_canonical hs sched
  | tardyDeadline die => exact execTardyDeadline_canonical hs die
  | windowCompare block => exact execWindowCompare_canonical hs block
  | taggedMessage part src => exact execTaggedMessage_canonical hs part src
  | armInstall part n desc => exact execArmInstall_canonical hs part n desc
  | armQuantum part => exact execArmQuantum_canonical hs part
  | dispatchPlace part => exact nextCanonical_next (State.placeFirst_mem_wf hs _)
  | backfillBlockTimeout part => exact execBackfillBlockTimeout_canonical hs part
  | blockRetire block => exact execBlockRetire_canonical hs block
  | copyRequestStart core => exact execCopyRequestStart_canonical hs core
  | copyGranule core => exact execCopyGranule_canonical hs core
  | sendResponse id status => exact execSendResponse_canonical hs id status
  | mirrorStoreArrival id core => exact execMirrorStoreArrival_canonical hs id core
  | clusterWindowWrite id => exact execClusterWindowWrite_canonical hs id
  | matrixOpStart core => exact execMatrixOpStart_canonical hs core
  | multicastGroupReady core => exact execMulticastGroupReady_canonical hs core
  | matrixOpComplete core op => exact execMatrixOpComplete_canonical hs core op
  | ruleStepStart core => exact execRuleStepStart_canonical hs core
  | ruleGeneration core => exact execRuleGeneration_canonical hs core
  | ckptServiceReply id reply => exact execCkptServiceReply_canonical hs id reply
  | partitionEntryWrite n v => exact execPartitionEntryWrite_canonical hs n v
  | linkDead die link lostReqs lostEngines => exact execLinkDead_canonical hs die link lostReqs lostEngines
  | rerouteResume die => exact nextCanonical_next hs
  | remoteWrite part addr data => exact execRemoteWrite_canonical hs part addr data
  | hostAtomic part addr op w64 signed x cmp => exact execHostAtomic_canonical hs part addr op w64 signed x cmp
  | frameMigration part old new stage => exact execFrameMigration_canonical hs part old new stage
  | errorCounterClear reader c => exact execErrorCounterClear_canonical hs reader c
  | powerOn cfg => exact execPowerOn_canonical hs cfg
  | attestationRequest nonce => exact nextCanonical_of_mem hs (State.whenReady_mem _ (State.emit_mem ..))
  | powerCap => exact execPowerCap_canonical hs
  | reservedOpcode w => exact nextCanonical_of_mem hs (State.decodeFault_mem ..)
  | sendPayloadRead id => exact execSendPayloadRead_canonical hs id
  | busyRetry id => exact execBusyRetry_canonical hs id
  | supplyRemoved => exact nextCanonical_next (State.blank_mem_wf false)
  | linkRetrain link => exact nextCanonical_next (State.ite_mem_wf hs hs)
  | partitionResetComplete part => exact nextCanonical_next (State.ite_mem_wf hs hs)

/-- What comes about by itself keeps memory in canonical form. -/
theorem Auto.run_canonical {s : State} (hs : s.mem.wf = true) (a : Auto) : NextCanonical (a.run s) := by
  cases a with
  | picker c l p => exact exec_canonical hs (.pickerFormBundle c l p)
  | pass _ => exact nextCanonical_next hs
  | pause t => exact exec_canonical hs (.pauseExpiry t)
  | longOp i => exact exec_canonical hs (.longOpResult i)
  | shflEnd => exact nextCanonical_of_mem hs (State.shflEnd_mem s)
  | controls => exact nextCanonical_next (State.controlsBy_mem_wf hs _)
  | response i => exact exec_canonical hs (.memResponse i)
  | commit i => exact exec_canonical hs (.sliceCommit i)
  | load i => exact exec_canonical hs (.sliceLoad i)
  | asof i => exact exec_canonical hs (.asofWalk i)
  | tick => exact exec_canonical hs .referenceTick
  | settled => exact exec_canonical hs .settledUpdate
  | holdStall p => exact exec_canonical hs (.holdStallTimeout p)
  | barrier k => exact exec_canonical hs (.barrierPhaseComplete k)
  | walk i => exact exec_canonical hs (.walkComplete i)
  | page k => exact exec_canonical hs (.pageResponse k)
  | halt b c l => exact exec_canonical hs (.haltBroadcast b c l)
  | handler b => exact exec_canonical hs (.handlerEntry b)
  | preempt l => exact exec_canonical hs (.preempt l)
  | deferral l => exact exec_canonical hs (.preemptDeferralTimeout l)
  | restore l => exact exec_canonical hs (.contextRestore l)
  | tardy d => exact exec_canonical hs (.tardyDeadline d)
  | compare b => exact exec_canonical hs (.windowCompare b)
  | message p i => exact exec_canonical hs (.taggedMessage p (.send i))
  | quantum p => exact exec_canonical hs (.armQuantum p)
  | place p => exact exec_canonical hs (.dispatchPlace p)
  | backfill p => exact exec_canonical hs (.backfillBlockTimeout p)
  | retire b => exact exec_canonical hs (.blockRetire b)
  | copyStart c => exact exec_canonical hs (.copyRequestStart c)
  | copyGranule c => exact exec_canonical hs (.copyGranule c)
  | answer i => exact exec_canonical hs (.sendResponse i 0)
  | mirror i c => exact exec_canonical hs (.mirrorStoreArrival i c)
  | window i => exact exec_canonical hs (.clusterWindowWrite i)
  | matStart c => exact exec_canonical hs (.matrixOpStart c)
  | multicast c => exact exec_canonical hs (.multicastGroupReady c)
  | matDone c o => exact exec_canonical hs (.matrixOpComplete c o)
  | ruleStart c => exact exec_canonical hs (.ruleStepStart c)
  | ruleGen c => exact exec_canonical hs (.ruleGeneration c)
  | ckpt i => exact exec_canonical hs (.ckptServiceReply i .held)
  | payload i => exact exec_canonical hs (.sendPayloadRead i)
  | retry i => exact exec_canonical hs (.busyRetry i)
  | partReset p => exact exec_canonical hs (.partitionResetComplete p)

/-- The state that a port hands on with its next word, where it hands one on. -/
def Issue.state : Issue → Option State
  | .none | .fetch _ _ _ => Option.none
  | .word s _ | .reserved s _ | .bad s _ => some s

theorem State.issue_mem {s t : State} {port : Nat} (h : (s.issue port).state = some t) : t.mem = s.mem := by
  simp only [State.issue] at h
  repeat' split at h
  all_goals cases h
  all_goals rfl

theorem portTurn_canonical {s : State} (hs : s.mem.wf = true) (port : Nat) : NextCanonical (portTurn port s) := by
  have hi : ∀ {t}, (s.issue port).state = some t → t.mem.wf = true := fun h => State.issue_mem h ▸ hs
  unfold portTurn
  split
  · exact nextCanonical_next hs
  · exact exec_canonical hs (.pickerFormBundle _ _ _)
  · next h => exact exec_canonical (hi (by rw [h]; rfl)) _
  · next h => exact exec_canonical (hi (by rw [h]; rfl)) (.reservedOpcode _)
  · next h => exact nextCanonical_of_mem (hi (by rw [h]; rfl)) (State.decodeFault_mem ..)

theorem autoTurn_canonical {s : State} (hs : s.mem.wf = true) : NextCanonical (autoTurn s) := by
  unfold autoTurn
  split
  · exact nextCanonical_next hs
  · exact portTurn_canonical hs _
  · exact Auto.run_canonical (s := s.at_ _) hs _

theorem nextCanonical_fault (f : Fault) : NextCanonical (.fault f) := fun _ h => nomatch h

theorem nextCanonical_ite {c : Prop} [Decidable c] {a b : Host.Outcome State Fault Refusal} (ha : NextCanonical a) (hb : NextCanonical b) :
    NextCanonical (if c then a else b) := by
  split <;> assumption

/-- A step is a turn of the agenda: an event, an input from outside, a port's word, or what is due first. -/
theorem step_canonical {s : State} (hs : s.mem.wf = true) : NextCanonical (step s) := by
  have hr : ∀ rest, ({ s with agenda := rest } : State).mem.wf = true := fun _ => hs
  unfold step
  split
  · exact nextCanonical_ite (exec_canonical (hr _) _) (nextCanonical_fault _)
  · exact nextCanonical_ite (nextCanonical_next (State.takeOutside_mem_wf (hr _) _)) (nextCanonical_fault _)
  · exact nextCanonical_ite (portTurn_canonical (hr _) _) (nextCanonical_fault _)
  · exact nextCanonical_ite (autoTurn_canonical (hr _)) (nextCanonical_fault _)
  · exact nextCanonical_ite (autoTurn_canonical hs) (nextCanonical_fault _)

end Sys2Proof.Machine

namespace Sys2Proof

/-- Settles O58: a step is a turn of the agenda, and whatever it runs, an instruction, an event or an input from outside, changes memory by
writes of bytes, by moving a frame, or by blanking it, each of which keeps the canonical form (log 2). -/
theorem memoryStaysCanonical : Obligations.MemoryStaysCanonical := by
  unfold Obligations.MemoryStaysCanonical
  exact fun _ u hs h => Machine.step_canonical hs u h

end Sys2Proof
end

section
/-! SUPPORT. A step's turn: a port's next word, or an event. -/

namespace Sys2Proof.Machine

/-! ### The turn that the agenda names -/

theorem step_of_port {s : State} {port : Nat} {turns : List Turn} (hs : s.supply = true) (ha : s.agenda = .port port :: turns) :
    step s = portTurn port { s with agenda := turns } := by
  simp [step, ha, hs]

theorem step_of_event {s : State} {i : Instr} {turns : List Turn} (hs : s.supply = true) (ha : s.agenda = .event i :: turns) :
    step s = exec i { s with agenda := turns } := by
  simp [step, ha, hs]

/-! ### A port's next word -/

/-- The state that a port hands on with its bundle's next word: time at the word's pass, its literal run behind it (R67). -/
def State.atWord (s : State) (port : Nat) (b : Bundle) : State :=
  { s.modBundle port (fun x => { x with pos := b.pos + b.lits, next := max b.due s.cycle }) with
    cycle := max b.due s.cycle
    cur := some { port := port, start := max b.due s.cycle, first := b.pos + b.lits - (runBefore b.words (b.pos + b.lits)).length } }

/-- What a port does with a word by what it decodes to (R72): one that does not decode is reserved, or has a field at fault. -/
def issueOf (s : State) (w : Word) : Except DecFault Instr → Issue
  | .ok i => .word s i
  | .error f => if f.cause = .reserved then .reserved s w else .bad s f

section

variable {s : State} {port : Nat} {b : Bundle} {k : TKey} {l : Launch} {w : Word}
  (hb : Tab.find s.bundles port = some b) (hf : b.fetched = true) (hk : b.threads.head? = some k)
  (hl : s.launchOf k.warp = some l) (hw : b.words[b.pos + b.lits]? = some w)
include hb hf hk hl hw

/-- The place of the word changes nothing that decode knows. -/
theorem State.issue_eq : s.issue port =
    issueOf (s.atWord port b) w (decodeWord (s.decCtx b l (b.pos + b.lits)) (runBefore b.words (b.pos + b.lits)) w) := by
  simp only [State.issue, hb, hf, hk, Option.bind_some, hl, hw, Bool.not_true, Bool.false_eq_true, if_false]
  rfl

theorem portTurn_of_word {i : Instr}
    (hd : decodeWord (s.decCtx b l (b.pos + b.lits)) (runBefore b.words (b.pos + b.lits)) w = .ok i) :
    portTurn port s = exec i (s.atWord port b) := by
  rw [portTurn, State.issue_eq hb hf hk hl hw, hd, issueOf]

theorem portTurn_of_reserved {f : DecFault}
    (hd : decodeWord (s.decCtx b l (b.pos + b.lits)) (runBefore b.words (b.pos + b.lits)) w = .error f) (hc : f.cause = .reserved) :
    portTurn port s = exec (.reservedOpcode w) (s.atWord port b) := by
  rw [portTurn, State.issue_eq hb hf hk hl hw, hd, issueOf, if_pos hc]
  rfl

theorem portTurn_of_fault {f : DecFault}
    (hd : decodeWord (s.decCtx b l (b.pos + b.lits)) (runBefore b.words (b.pos + b.lits)) w = .error f) (hc : f.cause ≠ .reserved) :
    portTurn port s = .next ((s.atWord port b).decodeFault f) := by
  rw [portTurn, State.issue_eq hb hf hk hl hw, hd, issueOf, if_neg hc]

end

end Sys2Proof.Machine

namespace Sys2Proof

open Machine

/-- Settles O53: the agenda's turn is the port's (log 1), whose next word stands behind its literal run and has one of three fates: it
decodes, its opcode is reserved, or one of its fields is at fault. -/
theorem stepRunsWord : Obligations.StepRunsWord := by
  unfold Obligations.StepRunsWord
  refine ⟨?_, fun s i turns => step_of_event⟩
  rintro s port turns b k l w run n start t hs ha hb hf hk hl rfl hw rfl rfl rfl
  rw [step_of_port hs ha]
  have hb' : Tab.find ({ s with agenda := turns } : State).bundles port = some b := hb
  exact ⟨fun i => portTurn_of_word hb' hf hk hl hw, fun f => portTurn_of_reserved hb' hf hk hl hw,
    fun f => portTurn_of_fault hb' hf hk hl hw⟩

end Sys2Proof
end

section
/-! SUPPORT. The completion of a barrier's phase (R28, R29, R274), stage by stage: the FLOORs merged, the L1s cleared, the waiting members
freed, the next phase begun. -/

namespace Sys2Proof.Machine

/-! ### Repeated updates -/

/-- A change made of a list of threads, however often a thread stands in it: the last of a thread's changes starts from what its earlier ones
keep. -/
theorem State.thread_foldl_keeps {P : Thread → Prop} {f : Thread → Thread} (hf : ∀ y, P y → P (f y)) {l : List TKey} {s : State} {k : TKey}
    {x : Thread} (hk : k ∈ l) (hx : s.thread k = some x) (hp : P x) :
    ∃ y, P y ∧ (l.foldl (fun s t => s.modThread t f) s).thread k = some (f y) := by
  induction l generalizing s x with
  | nil => cases hk
  | cons t rest ih =>
    rw [List.foldl_cons]
    by_cases hr : k ∈ rest
    · by_cases ht : k = t
      · refine ih hr (x := f x) ?_ (hf x hp)
        rw [← ht, State.thread_modThread_same, hx, Option.map_some]
      · exact ih hr (by rw [State.thread_modThread_ne _ _ _ _ ht, hx]) hp
    · obtain rfl : k = t := (List.mem_cons.1 hk).resolve_right hr
      refine ⟨x, hp, ?_⟩
      rw [State.thread_foldl_off (fun t => t) (fun _ _ => f) rest _ k (fun a ha e => hr (e ▸ ha)), State.thread_modThread_same, hx,
        Option.map_some]

/-! ### The greatest FLOOR -/

theorem umax_toNat {n : Nat} (a b : BitVec n) : (umax a b).toNat = max a.toNat b.toNat := by
  unfold umax
  split <;> omega

/-- A running maximum is no less than where it starts, nor than any value it takes in. -/
theorem foldl_umax_ge {α : Type} {n : Nat} (g : α → BitVec n) (l : List α) (b : BitVec n) :
    b.toNat ≤ (l.foldl (fun f x => umax f (g x)) b).toNat ∧
      ∀ x ∈ l, (g x).toNat ≤ (l.foldl (fun f x => umax f (g x)) b).toNat := by
  induction l generalizing b with
  | nil => simp
  | cons y rest ih =>
    obtain ⟨hb, hr⟩ := ih (umax b (g y))
    rw [umax_toNat] at hb
    refine ⟨by rw [List.foldl_cons]; omega, fun x hx => ?_⟩
    rw [List.foldl_cons]
    rcases List.mem_cons.1 hx with rfl | hx
    · omega
    · exact hr x hx

theorem Warp.floor_le_floorAll (w : Warp) : w.floor.toNat ≤ w.floorAll.toNat := (foldl_umax_ge FPend.val w.fpend w.floor).1

theorem Warp.floor_raise (w : Warp) (x : Dword) : (w.raise x).floor.toNat = max w.floor.toNat x.toNat := umax_toNat _ _

/-- A warp raised keeps a FLOOR that is no less than a bound, and one that is raised to the bound comes to have it. -/
theorem State.floor_modWarp_ge {s : State} {n v : Nat} {x : Dword}
    (h : v = n ∨ ∀ w, Tab.find s.warps n = some w → x.toNat ≤ w.floor.toNat) :
    ∀ w, Tab.find (s.modWarp v (fun y => y.raise x)).warps n = some w → x.toNat ≤ w.floor.toNat := by
  intro w hw
  rw [State.modWarp_warps, Tab.find_upd] at hw
  split at hw
  · obtain ⟨w0, -, rfl⟩ := Option.map_eq_some_iff.1 hw
    rw [Warp.floor_raise]
    exact Nat.le_max_right _ _
  · next hn => exact h.resolve_left (fun e => hn e.symm) w hw

/-! ### The stages -/

/-- The warps of the members that have arrived in a barrier's phase (R29). -/
def State.cameTo (s : State) (k : BarKey) : List Nat :=
  (((s.barMembers k).filter (fun t => ((s.thread t).map (fun x => x.counts k (s.bar k).phase)).getD false)).map TKey.warp).eraseDups

/-- The greatest FLOOR among warps. -/
def State.floorOf (s : State) (ws : List Nat) : Dword :=
  ws.foldl (fun f w => umax f (((Tab.find s.warps w).map Warp.floorAll).getD 0)) 0

/-- Warps with FLOOR raised. -/
def State.raiseAll (s : State) (ws : List Nat) (x : Dword) : State := ws.foldl (fun s w => s.modWarp w (fun y => y.raise x)) s

/-- The threads among some that wait at a barrier for its phase. -/
def State.waitersOf (s : State) (k : BarKey) (phase : Nat) (ms : List TKey) : List TKey :=
  ms.filter (fun t => ((s.thread t).map (fun x => x.wait == some (.barrier k.level (barNum k) phase))).getD false)

/-- The L1s of threads' cores cleared (R274). -/
def State.clearL1s (s : State) (ts : List TKey) : State :=
  ts.foldl (fun s t => match Tab.find s.warps t.warp with
    | some w => s.l1Clear w.core
    | none => s) s

/-- A thread that a phase's completion frees: its writes landed, its k slots void, its arrival spent. -/
def Thread.freed (k : BarKey) (now : Nat) (t : Thread) : Thread := ((t.land now).voidK.unarrive k).release now

/-- Threads freed. -/
def State.freeAll (s : State) (k : BarKey) (now : Nat) (ts : List TKey) : State := ts.foldl (fun s t => s.modThread t (Thread.freed k now)) s

/-- The state in which a phase's waiting members are freed: the FLOORs of those that came raised. -/
def State.phaseRaised (s : State) (k : BarKey) : State := s.raiseAll (s.cameTo k) (s.floorOf (s.cameTo k))

/-- The members that a phase's completion frees. -/
def State.phaseWaiters (s : State) (k : BarKey) : List TKey := (s.phaseRaised k).waitersOf k (s.bar k).phase (s.barMembers k)

theorem State.phaseComplete_eq (s : State) (k : BarKey) (now : Nat) :
    s.phaseComplete k now = ((((s.phaseRaised k).clearL1s (s.phaseWaiters k)).freeAll k now (s.phaseWaiters k)).putBar k
      { phase := (s.bar k).phase + 1, last := none }) := rfl

/-! ### What each stage leaves -/

theorem State.raiseAll_leaves {β : Type} (F : State → β) (x : Dword) (hF : ∀ s w, F (State.modWarp s w (fun y => y.raise x)) = F s)
    (s : State) (ws : List Nat) : F (s.raiseAll ws x) = F s := foldl_leaves F _ hF ws s

theorem State.clearL1s_leaves {β : Type} (F : State → β) (hF : ∀ s c, F (State.l1Clear s c) = F s) (s : State) (ts : List TKey) :
    F (s.clearL1s ts) = F s := by
  refine foldl_leaves F _ (fun s t => ?_) ts s
  split
  · exact hF _ _
  · rfl

theorem State.freeAll_leaves {β : Type} (F : State → β) (hF : ∀ s t f, F (State.modThread s t f) = F s)
    (s : State) (k : BarKey) (now : Nat) (ts : List TKey) : F (s.freeAll k now ts) = F s := foldl_leaves F _ (fun s t => hF s t _) ts s

/-- What a raise of FLOOR, a clearing of an L1, a change of a thread and a write of a barrier all leave, the completion of a phase leaves. -/
theorem State.phaseComplete_leaves {β : Type} (F : State → β) (hw : ∀ s w f, F (State.modWarp s w f) = F s)
    (hc : ∀ s c, F (State.l1Clear s c) = F s) (hb : ∀ s k b, F (State.putBar s k b) = F s) (s : State) (k : BarKey) (now : Nat) :
    F (s.phaseComplete k now) = F s := by
  rw [State.phaseComplete_eq, hb, State.freeAll_leaves F (fun s t _ => hw s t.warp _), State.clearL1s_leaves F hc]
  exact State.raiseAll_leaves F _ (fun s w => hw s w _) ..

@[simp] theorem State.thread_raiseAll (s : State) (ws : List Nat) (x : Dword) (k : TKey) : (s.raiseAll ws x).thread k = s.thread k :=
  State.raiseAll_leaves (fun s => s.thread k) x (fun s w => State.thread_modWarp s w _ k (fun _ => rfl)) s ws

@[simp] theorem State.thread_clearL1s (s : State) (ts : List TKey) (k : TKey) : (s.clearL1s ts).thread k = s.thread k :=
  State.clearL1s_leaves (fun s => s.thread k) (fun _ _ => rfl) s ts

/-! ### Barriers written and read -/

@[simp] theorem State.putBar_cycle (s : State) (k : BarKey) (b : Barrier) : (s.putBar k b).cycle = s.cycle := by
  unfold State.putBar; split <;> rfl

@[simp] theorem State.putBar_reqs (s : State) (k : BarKey) (b : Barrier) : (s.putBar k b).reqs = s.reqs := by
  unfold State.putBar; split <;> rfl

@[simp] theorem State.putBar_parts (s : State) (k : BarKey) (b : Barrier) : (s.putBar k b).parts = s.parts := by
  unfold State.putBar; split <;> rfl

@[simp] theorem State.thread_putBar (s : State) (k : BarKey) (b : Barrier) (t : TKey) : (s.putBar k b).thread t = s.thread t := by
  unfold State.putBar
  split
  · exact State.thread_modWarp _ _ _ _ (fun _ => rfl)
  all_goals rfl

theorem State.floorAll_modThread (s : State) (t : TKey) (f : Thread → Thread) (n : Nat) :
    (Tab.find (s.modThread t f).warps n).map Warp.floorAll = (Tab.find s.warps n).map Warp.floorAll := by
  simp only [State.modThread, State.modWarp_warps, Tab.find_upd]
  split
  · rw [Option.map_map]; rfl
  · rfl

theorem State.floorAll_putBar (s : State) (k : BarKey) (b : Barrier) (n : Nat) :
    (Tab.find (s.putBar k b).warps n).map Warp.floorAll = (Tab.find s.warps n).map Warp.floorAll := by
  unfold State.putBar
  split
  · simp only [State.modWarp_warps, Tab.find_upd]
    split
    · rw [Option.map_map]; rfl
    · rfl
  all_goals rfl

/-- A change of a warp that leaves its barriers leaves every barrier. -/
theorem State.barsOf_modWarp (s : State) (w : Nat) (f : Warp → Warp) (h : ∀ x, (f x).bars = x.bars) (level unit : Nat) :
    (s.modWarp w f).barsOf level unit = s.barsOf level unit := by
  unfold State.barsOf
  split
  · simp only [State.modWarp_warps, Tab.find_upd]
    split
    · rw [Option.map_map]; congr 2; exact funext h
    · rfl
  all_goals rfl

theorem State.barsOf_modThread (s : State) (t : TKey) (f : Thread → Thread) (level unit : Nat) :
    (s.modThread t f).barsOf level unit = s.barsOf level unit :=
  State.barsOf_modWarp s t.warp (fun w => w.modThread t.slot f) (fun _ => rfl) level unit

/-- A barrier put among those of a unit that is there reads as put. -/
theorem getD_find_put {α : Type} {o : Option α} {g : α → Tab Barrier} {f : α → α} {n : Nat} {b : Barrier} (h : (o.map g).getD [] ≠ [])
    (hf : ∀ x, g (f x) = Tab.put (g x) n b) : (Tab.find (((o.map f).map g).getD []) n).getD Barrier.start = b := by
  cases o with
  | none => exact absurd rfl h
  | some x => simp [hf]

/-- A barrier of a unit that has barriers reads as it is written. -/
theorem State.bar_putBar (s : State) (k : BarKey) (b : Barrier) (h : s.barsOf k.level k.unit ≠ []) : (s.putBar k b).bar k = b := by
  unfold State.bar State.putBar
  unfold State.barsOf at h ⊢
  split at h
  · simpa using getD_find_put h fun _ => rfl
  · simpa using getD_find_put h fun _ => rfl
  · simpa using getD_find_put h fun _ => rfl
  · simpa using getD_find_put h fun _ => rfl

/-- A unit with a barrier that has been arrived at has barriers. -/
theorem State.barsOf_ne_nil {s : State} {k : BarKey} {c : Nat} (h : (s.bar k).last = some c) : s.barsOf k.level k.unit ≠ [] := by
  intro hn
  rw [State.bar, hn] at h
  cases h

/-! ### A thread that is freed -/

/-- What stores leave of a thread, the landing of its writes leaves. -/
theorem Thread.land_leaves {β : Type} (F : Thread → β) (hs : ∀ t l x, F (Thread.store t l x) = F t)
    (hp : ∀ (t : Thread) (q : List Pend), F { t with pend := q } = F t) (t : Thread) (n : Nat) : F (t.land n) = F t :=
  (foldl_leaves F _ (fun t (p : Pend) => hs t p.loc p.val) _ _).trans (hp t _)

@[simp] theorem Thread.pos_land (t : Thread) (n : Nat) : (t.land n).pos = t.pos :=
  (congrArg (fun q => q.2.1) (Thread.land_leaves Thread.place Thread.place_store (fun _ _ => rfl) t n) :)

@[simp] theorem Thread.pause_land (t : Thread) (n : Nat) : (t.land n).pause = t.pause :=
  (congrArg Thread.pause (Thread.land_leaves Thread.apart Thread.apart_store (fun _ _ => rfl) t n) :)

section

variable (k : BarKey) (now : Nat) (t : Thread)

@[simp] theorem Thread.wait_freed : (t.freed k now).wait = none := rfl

@[simp] theorem Thread.kvoid_freed : (t.freed k now).kvoid = 0xF := rfl

@[simp] theorem Thread.pos_freed : (t.freed k now).pos = t.pos := Thread.pos_land t now

@[simp] theorem Thread.pause_freed : (t.freed k now).pause = t.pause := Thread.pause_land t now

@[simp] theorem Thread.arrivedAt_freed : (t.freed k now).arrivedAt k = none := by
  have h : (t.freed k now).arrival = (t.land now).voidK.arrival.filter (fun a => !(a.level == k.level && a.num == barNum k)) := rfl
  rw [Thread.arrivedAt, h, Option.map_eq_none_iff, List.find?_eq_none]
  exact fun a ha h => Bool.false_ne_true ((congrArg not h).symm.trans (List.mem_filter.1 ha).2)

theorem Thread.st_freed : (t.freed k now).st = if t.pos.word = 0 && decide (now ≤ t.pause) then .paused else .ready := by
  rw [← Thread.pos_land t now, ← Thread.pause_land t now]
  rfl

/-- A thread among those freed is freed, from its own place and pause. -/
theorem State.thread_freeAll {s : State} {ts : List TKey} {m : TKey} {x : Thread} (hm : m ∈ ts) (hx : s.thread m = some x) :
    ∃ y : Thread, (s.freeAll k now ts).thread m = some (y.freed k now) ∧ y.pos = x.pos ∧ y.pause = x.pause := by
  obtain ⟨y, hy, h⟩ := State.thread_foldl_keeps (P := fun y => y.pos = x.pos ∧ y.pause = x.pause) (f := Thread.freed k now)
    (fun y hy => ⟨(Thread.pos_freed k now y).trans hy.1, (Thread.pause_freed k now y).trans hy.2⟩) hm hx ⟨rfl, rfl⟩
  exact ⟨y, h, hy⟩

end

/-! ### A phase's completion -/

section

variable (s : State) (k : BarKey) (now : Nat)

theorem State.mem_phaseWaiters {m : TKey} : m ∈ s.phaseWaiters k ↔ m ∈ s.barMembers k ∧
    ∃ x, s.thread m = some x ∧ x.wait = some (.barrier k.level (barNum k) (s.bar k).phase) := by
  cases h : s.thread m <;> simp [State.phaseWaiters, State.waitersOf, State.phaseRaised, h]

theorem State.mem_cameTo {m : TKey} {x : Thread} (hm : m ∈ s.barMembers k) (hx : s.thread m = some x)
    (hc : x.counts k (s.bar k).phase = true) : m.warp ∈ s.cameTo k := by
  rw [State.cameTo, List.mem_eraseDups]
  exact List.mem_map_of_mem (List.mem_filter.2 ⟨hm, by simpa [hx] using hc⟩)

@[simp] theorem State.phaseComplete_cycle : (s.phaseComplete k now).cycle = s.cycle :=
  State.phaseComplete_leaves State.cycle (fun _ _ _ => rfl) (fun _ _ => rfl) State.putBar_cycle s k now

@[simp] theorem State.phaseComplete_reqs : (s.phaseComplete k now).reqs = s.reqs :=
  State.phaseComplete_leaves State.reqs (fun _ _ _ => rfl) (fun _ _ => rfl) State.putBar_reqs s k now

@[simp] theorem State.phaseComplete_parts : (s.phaseComplete k now).parts = s.parts :=
  State.phaseComplete_leaves State.parts (fun _ _ _ => rfl) (fun _ _ => rfl) State.putBar_parts s k now

/-- The next phase begins, with no arrival. -/
theorem State.bar_phaseComplete {c : Nat} (h : (s.bar k).last = some c) :
    (s.phaseComplete k now).bar k = { phase := (s.bar k).phase + 1, last := none } := by
  rw [State.phaseComplete_eq]
  refine State.bar_putBar _ _ _ ?_
  rw [State.freeAll_leaves (fun s => s.barsOf k.level k.unit) (fun s t f => State.barsOf_modThread s t f _ _),
    State.clearL1s_leaves (fun s => s.barsOf k.level k.unit) (fun _ _ => rfl), State.phaseRaised,
    State.raiseAll_leaves (fun s => s.barsOf k.level k.unit) _ (fun s w => State.barsOf_modWarp s w (fun y => y.raise _) (fun _ => rfl) _ _)]
  exact State.barsOf_ne_nil h

/-- A member that waits for the phase is freed. -/
theorem State.thread_phaseComplete_freed {m : TKey} {x : Thread} (hm : m ∈ s.barMembers k) (hx : s.thread m = some x)
    (hw : x.wait = some (.barrier k.level (barNum k) (s.bar k).phase)) :
    ∃ y : Thread, (s.phaseComplete k now).thread m = some (y.freed k now) ∧ y.pos = x.pos ∧ y.pause = x.pause := by
  rw [State.phaseComplete_eq, State.thread_putBar]
  exact State.thread_freeAll k now ((s.mem_phaseWaiters k).2 ⟨hm, x, hx, hw⟩) (by simpa [State.phaseRaised] using hx)

/-- A thread that waits on nothing is left as it is. -/
theorem State.thread_phaseComplete_idle {m : TKey} {x : Thread} (hx : s.thread m = some x) (hw : x.wait = none) :
    (s.phaseComplete k now).thread m = some x := by
  rw [State.phaseComplete_eq, State.thread_putBar, State.freeAll, State.thread_foldl_off (fun t => t)]
  · simpa [State.phaseRaised] using hx
  · rintro m' hm rfl
    obtain ⟨-, y, hy, hyw⟩ := (s.mem_phaseWaiters k).1 hm
    rw [hx] at hy
    cases hy
    rw [hw] at hyw
    cases hyw

/-- FLOOR of a warp after a phase is what the merge of the FLOORs has made it (R29). -/
theorem State.floorAll_phaseComplete (n : Nat) :
    (Tab.find (s.phaseComplete k now).warps n).map Warp.floorAll = (Tab.find (s.phaseRaised k).warps n).map Warp.floorAll := by
  rw [State.phaseComplete_eq, State.floorAll_putBar,
    State.freeAll_leaves (fun s => (Tab.find s.warps n).map Warp.floorAll) (fun s t f => State.floorAll_modThread s t f n),
    State.clearL1s_leaves (fun s => (Tab.find s.warps n).map Warp.floorAll) (fun _ _ => rfl)]

theorem State.floorOf_ge {ws : List Nat} {n : Nat} {w : Warp} (hn : n ∈ ws) (hw : Tab.find s.warps n = some w) :
    w.floorAll.toNat ≤ (s.floorOf ws).toNat := by
  have h := (foldl_umax_ge (fun w => ((Tab.find s.warps w).map Warp.floorAll).getD 0) ws 0).2 n hn
  rwa [hw] at h

theorem State.raiseAll_ge {ws : List Nat} {x : Dword} {n : Nat} {w : Warp} (hn : n ∈ ws) (hw : Tab.find (s.raiseAll ws x).warps n = some w) :
    x.toNat ≤ w.floorAll.toNat := by
  obtain ⟨before, rest, rfl⟩ := List.append_of_mem hn
  rw [State.raiseAll, List.foldl_append, List.foldl_cons] at hw
  have hf := foldl_keeps (fun t : State => ∀ w, Tab.find t.warps n = some w → x.toNat ≤ w.floor.toNat) _ rest _
    (State.floor_modWarp_ge (.inl rfl)) (fun t v _ ht => State.floor_modWarp_ge (v := v) (.inr ht)) w hw
  exact Nat.le_trans hf (Warp.floor_le_floorAll w)

/-- After a phase the FLOOR of each warp that came is no less than that of any of them before. -/
theorem State.floorAll_phaseComplete_ge {m n : Nat} {w w' : Warp} (hm : m ∈ s.cameTo k) (hn : n ∈ s.cameTo k)
    (hw : Tab.find s.warps m = some w) (hw' : Tab.find (s.phaseComplete k now).warps n = some w') :
    w.floorAll.toNat ≤ w'.floorAll.toNat := by
  have h := s.floorAll_phaseComplete k now n
  rw [hw', Option.map_some, eq_comm, Option.map_eq_some_iff] at h
  obtain ⟨v, hv, hvf⟩ := h
  rw [← hvf]
  exact Nat.le_trans (s.floorOf_ge hm hw) (State.raiseAll_ge _ hn hv)

end

/-- The event, once the phase may complete and its members are on their cores: at the phase's cycle the phase completes. -/
theorem exec_barrierPhaseComplete {s : State} {k : BarKey} {last : Nat} (hl : (s.bar k).last = some last) (hr : s.barReady k = true)
    (hh : s.barHere k = true) :
    exec (.barrierPhaseComplete k) s = .next ((s.at_ (last + barLatency k.level)).phaseComplete k (max s.cycle (last + barLatency k.level))) := by
  show execBarrierPhaseComplete k s = _
  simp [execBarrierPhaseComplete, hl, hr, hh]

end Sys2Proof.Machine

namespace Sys2Proof

open Machine

/-- Settles O21: the phase's completion by stages. FLOOR is raised once at least in every warp that came, to a maximum that each of theirs is
taken into; a member that waits is freed; a thread that waits on nothing is none of the freed. -/
theorem barrierPhase : Obligations.BarrierPhase := by
  unfold Obligations.BarrierPhase
  intro s k last hl hr hh
  refine ⟨_, exec_barrierPhaseComplete hl hr hh, by simp, by simp, by simp, by simp, State.bar_phaseComplete _ k _ hl, ?_,
    fun m x hx hw => State.thread_phaseComplete_idle (s.at_ _) k _ hx hw, ?_⟩
  · intro m hm x hx hw
    obtain ⟨y, hy, hpos, hpause⟩ := State.thread_phaseComplete_freed (s.at_ (last + barLatency k.level)) k
      (max s.cycle (last + barLatency k.level)) hm hx hw
    refine ⟨_, hy, Thread.wait_freed .., Thread.kvoid_freed .., Thread.arrivedAt_freed .., ?_, ?_⟩
    · rw [Thread.pos_freed, hpos]
    · rw [Thread.st_freed, hpos, hpause, State.phaseComplete_cycle, State.at__cycle]
  · intro m hm n hn x z hx hxc hz hzc w w' hw hw'
    exact State.floorAll_phaseComplete_ge (s.at_ _) k _ (State.mem_cameTo _ k hm hx hxc) (State.mem_cameTo _ k hn hz hzc) hw hw'

end Sys2Proof
end

section
/-! SUPPORT. The picker (R17, R18): which group of candidates it chooses, and the bundle that it forms. -/

namespace Sys2Proof.Machine

/-! ### The candidate that comes first -/

/-- A running choice is where it starts or among what it passes. -/
theorem foldl_choice_mem (before : Cand → Cand → Bool) (l : List Cand) (m : Cand) :
    l.foldl (fun m x => if before x m then x else m) m ∈ m :: l := by
  induction l generalizing m with
  | nil => simp
  | cons y rest ih =>
    rw [List.foldl_cons]
    rcases List.mem_cons.1 (ih (if before y m then y else m)) with h | h
    · rw [h]; split <;> simp
    · simp [h]

/-- A running choice by a measure is no smaller than where it starts, nor than what it passes. -/
theorem foldl_choice_ge {before : Cand → Cand → Bool} {g : Cand → Nat} (h1 : ∀ x m, before x m = true → g m ≤ g x)
    (h2 : ∀ x m, before x m = false → g x ≤ g m) (l : List Cand) (m : Cand) :
    ∀ y ∈ m :: l, g y ≤ g (l.foldl (fun m x => if before x m then x else m) m) := by
  induction l generalizing m with
  | nil => simp
  | cons x rest ih =>
    have hc : g m ≤ g (if before x m then x else m) ∧ g x ≤ g (if before x m then x else m) := by
      cases hb : before x m with
      | true => exact ⟨h1 x m hb, Nat.le_refl _⟩
      | false => exact ⟨Nat.le_refl _, h2 x m hb⟩
    have hm := ih (if before x m then x else m) _ (List.mem_cons_self ..)
    intro y hy
    rw [List.foldl_cons]
    rcases List.mem_cons.1 hy with rfl | hy
    · exact Nat.le_trans hc.1 hm
    · rcases List.mem_cons.1 hy with rfl | hy
      · exact Nat.le_trans hc.2 hm
      · exact ih _ y (List.mem_cons_of_mem _ hy)

theorem firstCand_mem {before : Cand → Cand → Bool} {cs : List Cand} {c : Cand} (h : firstCand before cs = some c) : c ∈ cs := by
  cases cs with
  | nil => cases h
  | cons m rest => cases h; exact foldl_choice_mem before rest m

theorem firstCand_ge {before : Cand → Cand → Bool} {g : Cand → Nat} (h1 : ∀ x m, before x m = true → g m ≤ g x)
    (h2 : ∀ x m, before x m = false → g x ≤ g m) {cs : List Cand} {c : Cand} (h : firstCand before cs = some c) :
    ∀ y ∈ cs, g y ≤ g c := by
  cases cs with
  | nil => cases h
  | cons m rest => cases h; exact foldl_choice_ge h1 h2 rest m

theorem firstCand_isSome {before : Cand → Cand → Bool} {cs : List Cand} (h : cs ≠ []) : ∃ c, firstCand before cs = some c := by
  cases cs with
  | nil => exact absurd rfl h
  | cons m rest => exact ⟨_, rfl⟩

/-! ### The group chosen -/

theorem Cand.mate_iff (a b : Cand) : a.mate b = true ↔ a.block = b.block ∧ a.pos = b.pos ∧ a.handler = b.handler := by
  simp [Cand.mate, and_assoc]

/-- The candidates that a picker chooses among: those not paused, where there are such (R18 step 1). -/
def livelyOf (cs : List Cand) : List Cand := if cs.any (fun c => !c.paused) then cs.filter (fun c => !c.paused) else cs

theorem livelyOf_subset (cs : List Cand) : ∀ c ∈ livelyOf cs, c ∈ cs := by
  unfold livelyOf
  split
  · exact fun c hc => (List.mem_filter.1 hc).1
  · exact fun c hc => hc

theorem livelyOf_ne_nil {cs : List Cand} (h : cs ≠ []) : livelyOf cs ≠ [] := by
  unfold livelyOf
  split
  · next ha =>
    obtain ⟨c, hc, hp⟩ := List.any_eq_true.1 ha
    exact List.ne_nil_of_mem (List.mem_filter.2 ⟨hc, hp⟩)
  · exact h

theorem livelyOf_paused {cs : List Cand} (h : ∃ c ∈ cs, c.paused = false) : ∀ c ∈ livelyOf cs, c.paused = false := by
  have ha : cs.any (fun c => !c.paused) = true := by simpa using h
  intro c hc
  rw [livelyOf, if_pos ha] at hc
  simpa using (List.mem_filter.1 hc).2

theorem livelyOf_unpaused {cs : List Cand} (h : ∀ c ∈ cs, c.paused = false) : livelyOf cs = cs := by
  unfold livelyOf
  split
  · exact List.filter_eq_self.2 (fun c hc => by simp [h c hc])
  · rfl

/-- The number of candidates of one's group. -/
def Cand.groupSize (cs : List Cand) (c : Cand) : Nat := (cs.filter c.mate).length

/-- The candidate whose group is chosen (R18 steps 2 and 3): among those that have waited too long the one that has waited longest, and where
there is none the one of the largest group. -/
def leader (now : Nat) (cs : List Cand) : Option Cand :=
  let aged := cs.filter (fun c => 1024 < c.waited now)
  if aged.isEmpty then
    firstCand (fun x m => decide (m.groupSize cs < x.groupSize cs) || (x.groupSize cs == m.groupSize cs && ranksBefore x.rank m.rank)) cs
  else
    firstCand (fun x m => decide (m.waited now < x.waited now) || (x.waited now == m.waited now && ranksBefore x.rank m.rank)) aged

theorem choose_eq (now : Nat) (cs : List Cand) :
    choose now cs = ((leader now (livelyOf cs)).map (fun c => (livelyOf cs).filter c.mate)).getD [] := by
  have h : choose now cs = match leader now (livelyOf cs) with
      | none => []
      | some c => (livelyOf cs).filter c.mate := rfl
  rw [h]
  cases leader now (livelyOf cs) <;> rfl

theorem leader_mem {now : Nat} {cs : List Cand} {c : Cand} (h : leader now cs = some c) : c ∈ cs := by
  simp only [leader] at h
  split at h
  · exact firstCand_mem h
  · exact (List.mem_filter.1 (firstCand_mem h)).1

theorem leader_isSome {now : Nat} {cs : List Cand} (h : cs ≠ []) : ∃ c, leader now cs = some c := by
  simp only [leader]
  split
  · exact firstCand_isSome h
  · next ha => exact firstCand_isSome (by simpa using ha)

/-- Where no candidate has waited too long, the leader's group is the largest. -/
theorem leader_largest {now : Nat} {cs : List Cand} {c : Cand} (hw : ∀ c ∈ cs, c.waited now ≤ 1024) (h : leader now cs = some c) :
    ∀ d ∈ cs, d.groupSize cs ≤ c.groupSize cs := by
  have ha : cs.filter (fun c => 1024 < c.waited now) = [] := List.filter_eq_nil_iff.2 fun c hc => by simpa using hw c hc
  rw [leader, ha] at h
  refine firstCand_ge (g := Cand.groupSize cs) (fun x m hb => ?_) (fun x m hb => ?_) h
  · simp only [Bool.or_eq_true, decide_eq_true_eq, Bool.and_eq_true, beq_iff_eq] at hb
    omega
  · simp only [Bool.or_eq_false_iff, decide_eq_false_iff_not] at hb
    omega

/-- What is chosen is the whole group, among the lively candidates, of one of them. -/
theorem choose_of_leader {now : Nat} {cs : List Cand} {c : Cand} (h : leader now (livelyOf cs) = some c) :
    choose now cs = (livelyOf cs).filter c.mate := by
  rw [choose_eq, h]; rfl

theorem mem_choose {now : Nat} {cs : List Cand} {d : Cand} (hd : d ∈ choose now cs) :
    d ∈ livelyOf cs ∧ ∃ c, leader now (livelyOf cs) = some c ∧ c.mate d = true := by
  cases hc : leader now (livelyOf cs) with
  | none => simp [choose_eq, hc] at hd
  | some c =>
    rw [choose_of_leader hc] at hd
    exact ⟨(List.mem_filter.1 hd).1, c, rfl, (List.mem_filter.1 hd).2⟩

theorem choose_alike {now : Nat} {cs : List Cand} {c d : Cand} (hc : c ∈ choose now cs) (hd : d ∈ choose now cs) :
    c.block = d.block ∧ c.pos = d.pos ∧ c.handler = d.handler := by
  obtain ⟨-, x, hx, hxc⟩ := mem_choose hc
  obtain ⟨-, y, hy, hyd⟩ := mem_choose hd
  obtain rfl : x = y := by rw [hx] at hy; exact Option.some.inj hy
  obtain ⟨hb, hp, hh⟩ := (Cand.mate_iff x c).1 hxc
  obtain ⟨hb', hp', hh'⟩ := (Cand.mate_iff x d).1 hyd
  exact ⟨hb ▸ hb', hp ▸ hp', hh ▸ hh'⟩

theorem choose_ne_nil {now : Nat} {cs : List Cand} (h : cs ≠ []) : choose now cs ≠ [] := by
  obtain ⟨c, hc⟩ := leader_isSome (now := now) (livelyOf_ne_nil h)
  rw [choose_of_leader hc]
  exact List.ne_nil_of_mem (List.mem_filter.2 ⟨leader_mem hc, (Cand.mate_iff c c).2 ⟨rfl, rfl, rfl⟩⟩)

theorem choose_largest {now : Nat} {cs : List Cand} (hw : ∀ c ∈ cs, c.waited now ≤ 1024) (hp : ∀ c ∈ cs, c.paused = false) :
    ∀ d ∈ cs, (cs.filter d.mate).length ≤ (choose now cs).length := by
  intro d hd
  have hl := livelyOf_unpaused hp
  obtain ⟨c, hc⟩ := leader_isSome (now := now) (List.ne_nil_of_mem hd)
  rw [choose_of_leader (hl.symm ▸ hc), hl]
  exact leader_largest hw hc d hd

theorem bundleOf_length (g : List Cand) : (bundleOf g).length ≤ 32 := by
  rw [bundleOf, List.length_map, List.length_take]
  exact Nat.min_le_left _ _

/-! ### The turn of an idle port (R18) -/

theorem exec_pickerFormBundle (core lane : Nat) (port : Port) (s : State) :
    exec (.pickerFormBundle core lane port) s = execPickerFormBundle core lane port s := rfl

/-- A port with a bundle fetches the bundle's clause. -/
theorem execPickerFormBundle_busy {s : State} {core lane : Nat} {port : Port} (hb : (Tab.find s.bundles (portKey core lane port)).isSome) :
    execPickerFormBundle core lane port s = .next (s.fetchAt (portKey core lane port)) := by
  simp only [execPickerFormBundle, hb, if_true]

/-- An idle port without candidates stays idle. -/
theorem execPickerFormBundle_idle {s : State} {core lane : Nat} {port : Port} (hb : Tab.find s.bundles (portKey core lane port) = none)
    (hc : s.cands core lane port = []) : execPickerFormBundle core lane port s = .next s := by
  simp [execPickerFormBundle, hb, hc, startOf]

theorem State.formBundle_busy (s : State) (port start : Nat) {g : List Cand} (hg : g ≠ []) :
    (Tab.find (s.formBundle port start g).bundles port).isSome := by
  cases g with
  | nil => exact absurd rfl hg
  | cons c rest => simp [State.formBundle]

/-- An idle port with candidates that none of their halts stops forms a bundle of those chosen, and fetches its clause. -/
theorem execPickerFormBundle_forms {s : State} {core lane : Nat} {port : Port} {start : Nat} {now : List Cand}
    (hb : Tab.find s.bundles (portKey core lane port) = none)
    (hs : startOf ((Tab.find s.portFree (portKey core lane port)).getD 0) s.cycle (s.cands core lane port) = some start)
    (hn : now = standing ((Tab.find s.portFree (portKey core lane port)).getD 0) start (s.cands core lane port))
    (hstop : ∀ c ∈ now, c.stop = false) :
    execPickerFormBundle core lane port s = .next
      (((s.at_ start).formBundle (portKey core lane port) start (choose start now)).fetchAt (portKey core lane port)) := by
  have hgo : now.filter (fun c => !c.stop) = now := List.filter_eq_self.2 fun c hc => by simp [hstop c hc]
  have hno : now.filter Cand.stop = [] := List.filter_eq_nil_iff.2 fun c hc => by simp [hstop c hc]
  simp [execPickerFormBundle, hb, hs, ← hn, hgo, hno]

end Sys2Proof.Machine
end

section
/-! SUPPORT. The fetch of a clause that stands in one page, and its start (R17, R58, R60). -/

namespace Sys2Proof.Machine

/-! ### Translations that a fetch has at once -/

theorem State.tlbLookup_frame {s t : State} {core : Nat} {x : Xlat} {va : Nat} {e : TlbEntry} (h : s.tlbLookup core x va = some (e, t)) :
    t.bundles = s.bundles ∧ t.warps = s.warps := by
  unfold State.tlbLookup at h
  split at h
  · cases h; exact ⟨rfl, rfl⟩
  · obtain ⟨e', -, h⟩ := Option.map_eq_some_iff.1 h
    cases h; exact ⟨rfl, rfl⟩

/-- A page whose translation is known, or whose walk has ended, leaves the bundle and the warps. -/
theorem State.lookPage_frame {s t : State} {p : Pass} {x : Xlat} {va : Nat} {marks : Bool} {w : WalkEnd}
    (h : s.lookPage p x va marks = (t, some w)) : t.bundles = s.bundles ∧ t.warps = s.warps := by
  unfold State.lookPage at h
  split at h
  · obtain ⟨rfl, -⟩ := Prod.mk.inj h; exact ⟨rfl, rfl⟩
  · split at h
    · next hl => cases h; exact State.tlbLookup_frame hl
    · cases h

theorem State.lookPages_one (s : State) (p : Pass) (x : Xlat) (va : Nat) (marks : Bool) :
    s.lookPages p x [va] marks = ((s.lookPage p x (pageOf va) marks).1, [(pageOf va, (s.lookPage p x (pageOf va) marks).2)]) := by
  simp [State.lookPages, List.eraseDups_cons]

theorem State.lookPages_frame {s t : State} {p : Pass} {x : Xlat} {va pg : Nat} {marks : Bool} {w : WalkEnd}
    (h : s.lookPages p x [va] marks = (t, [(pg, some w)])) : t.bundles = s.bundles ∧ t.warps = s.warps ∧ t.mem = s.mem := by
  have hm := congrArg (fun r => r.1.mem) h
  rw [State.lookPages_one] at h
  simp only [Prod.mk.injEq, List.cons.injEq, and_true] at h
  obtain ⟨ht, -, hw⟩ := h
  obtain ⟨hb, hws⟩ := State.lookPage_frame (Prod.ext ht hw)
  exact ⟨hb, hws, by simpa using hm.symm⟩

@[simp] theorem State.dropWalks_bundles (s : State) (ids : List Nat) (bundle : Nat) : (s.dropWalks ids bundle).bundles = s.bundles := rfl

@[simp] theorem State.dropWalks_warps (s : State) (ids : List Nat) (bundle : Nat) : (s.dropWalks ids bundle).warps = s.warps := rfl

/-! ### The fetch of a clause in one page (R58) -/

theorem State.badCode_eq_none {s : State} {e : TlbEntry} {va n : Nat} (h : ∀ i < n, lineOf (e.phys (va + 4 * i)) ∉ s.poison) :
    s.badCode e va n = none := by
  simpa [State.badCode] using h

/-- Of the words of a clause that ends in its header's page all stand there. -/
theorem words_in_page {pc n : Nat} (ha : pc % 4 = 0) (hp : pageOf (pc + 4 * n) = pageOf pc) :
    min n ((pageOf pc + 65536 - (pc + 4)) / 4) = n := by
  unfold pageOf at hp ⊢
  omega

/-- A clause whose one page is translated and executable, and holds no poisoned line, starts with the words read there. -/
theorem State.fetch_in_page {s t : State} {p : Pass} {l : Launch} {b : Bundle} {pg : Nat} {e : TlbEntry} {h : Header}
    (hl : s.lookPages p l.xlat [p.pc.toNat] true = (t, [(pg, some (.ok e))])) (hx : e.attrs.exec = true)
    (hh : h = Header.ofWord (BitVec.ofNat 32 (t.mem.nat (e.phys p.pc.toNat) 4)))
    (hp : pageOf (p.pc.toNat + 4 * h.n) = pageOf p.pc.toNat) (ha : p.pc.toNat % 4 = 0)
    (hb : ∀ i, i ≤ h.n → lineOf (e.phys (p.pc.toNat + 4 * i)) ∉ t.poison) :
    ∃ ids, s.fetch p l b = (t.dropWalks ids p.bundle).startClause p h (t.codeWords e (p.pc.toNat + 4) h.n) := by
  have h0 : Header.ofWord ((t.codeWords e p.pc.toNat 1).headD 0) = h := by rw [hh]; rfl
  have hb1 : t.badCode e p.pc.toNat 1 = none := State.badCode_eq_none fun i hi => hb i (by omega)
  have hb2 : t.badCode e (p.pc.toNat + 4) h.n = none :=
    State.badCode_eq_none fun i hi => by rw [show p.pc.toNat + 4 + 4 * i = p.pc.toNat + 4 * (i + 1) by omega]; exact hb (i + 1) hi
  refine ⟨((Tab.find t.bundles p.port).map Bundle.walked).getD b.walked, ?_⟩
  simp only [State.fetch, hl, State.codeFate, List.head?_cons, Option.bind_some, hx, if_true, hb1, h0, hp, words_in_page ha hp, hb2]

/-! ### The start of a clause (R17, R60) -/

theorem Tab.upd_self {α : Type} (l : Tab α) (k : Nat) (f : α → α) (h : ∀ x, f x = x) : Tab.upd l k f = l := by
  simp [Tab.upd, h]

@[simp] theorem State.keepIn_true (s : State) (port : Nat) : s.keepIn port (fun _ => true) = s := by
  have h : ∀ b : Bundle, b.threads.filter (fun _ => true) = b.threads := fun b => List.filter_eq_self.2 fun _ _ => rfl
  simp only [State.keepIn, State.modBundle, h, if_true]
  rw [Tab.upd_self _ _ _ (fun _ => rfl)]

theorem State.giveBack_nil (s : State) {p : Pass} (hk : p.keys ≠ []) : s.giveBack p [] = s := by
  obtain ⟨k, hk⟩ := List.exists_mem_of_ne_nil _ hk
  have hn : ¬ p.keys.all [].contains = true := fun h => by simpa using List.all_eq_true.1 h k hk
  simp only [State.giveBack, List.foldl_nil, if_neg hn, List.contains_nil, Bool.not_false, State.keepIn_true]

theorem State.startFaults_nil {s : State} {p : Pass} {b : Bundle} (hb : Tab.find s.bundles p.port = some b) (ht : b.threads ≠ []) :
    s.startFaults p [] = s.modBundle p.port (fun b => { b with next := p.start }) := by
  simp [State.startFaults, hb, ht]

theorem portKey_of_parts (core lane : Nat) (port q : Port) (hl : lane < 32) :
    portKey (portKey core lane port / 3 / Config.lanes) (portKey core lane port / 3 % Config.lanes) q = portKey core lane q := by
  have h : portKey core lane port / 3 = core * 32 + lane := by
    cases port <;> simp only [portKey, Config.lanes] <;> omega
  rw [h, show (core * 32 + lane) / Config.lanes = core by simp only [Config.lanes]; omega,
    show (core * 32 + lane) % Config.lanes = lane by simp only [Config.lanes]; omega]

/-- The state in which a bundle has its clause in hand. -/
def State.inHand (s : State) (p : Pass) (h : Header) (ws : List Word) : State :=
  let s := s.modBundle p.port (fun b => { b with next := p.start })
  s.modBundle p.port (fun b => { b with fetched := true, hdr := h, words := ws, next := s.nextFor p.start b.threads, walked := [] })

theorem State.find_inHand {s : State} {p : Pass} {b : Bundle} (hb : Tab.find s.bundles p.port = some b) (h : Header) (ws : List Word) :
    ∃ b', Tab.find (s.inHand p h ws).bundles p.port = some b' ∧ b'.fetched = true ∧ b'.hdr = h ∧ b'.words = ws ∧ b'.threads = b.threads ∧
      b'.pos = b.pos := by
  simp [State.inHand, hb]

section

variable {s : State} {p : Pass} {h : Header} {ws : List Word} {b : Bundle} (hb : Tab.find s.bundles p.port = some b)
  (hk : b.threads = p.keys) (hne : p.keys ≠ [])
  (hport : portKey (p.port / 3 / Config.lanes) (p.port / 3 % Config.lanes) h.cls.port = p.port) (hu : s.unmet p h = [])
  (hc : clauseReason h ws = none) (hn : p.pos < h.n) (hd : ∀ k ∈ p.keys, ∀ x, s.thread k = some x → x.deferred = [])
include hb hk hne hport hu hc hn hd

/-- A clause of the port's class, whose counters stand at zero and whose structure is sound, with no error due at its start: the bundle has it
in hand. -/
theorem State.startClause_eq_inHand :
    s.startClause p h ws = (s.inHand p h ws).modBundle p.port (fun b => { b with next := p.start }) := by
  have hgo : p.keys.filter (fun k => !([] : List TKey).contains k) = p.keys := List.filter_eq_self.2 fun _ _ => rfl
  have hgo' : p.keys.isEmpty = false := by simpa using hne
  have hf : p.keys.filterMap (fun k => (((s.inHand p h ws).thread k).bind (fun t => t.dueError h.wait)).map (fun i => (k, i))) = [] := by
    refine List.filterMap_eq_nil_iff.2 fun k hk => ?_
    show ((s.thread k).bind (fun t => t.dueError h.wait)).map _ = none
    cases hx : s.thread k with
    | none => rfl
    | some x => simp [Thread.dueError, hd k hk x hx]
  obtain ⟨b', hb', -, -, -, ht, -⟩ := State.find_inHand hb h ws
  simp only [State.startClause, hport, hu, hgo, hgo', hc, Nat.not_le.2 hn, ne_eq, not_true, if_false, Bool.false_eq_true]
  rw [State.giveBack_nil _ hne]
  exact (congrArg (State.startFaults _ p) hf).trans (State.startFaults_nil hb' (by rw [ht, hk]; exact hne))

/-- What such a start leaves: the bundle with its clause, its threads and its place, and every warp. -/
theorem State.startClause_sound : (s.startClause p h ws).warps = s.warps ∧ ∃ b', Tab.find (s.startClause p h ws).bundles p.port = some b' ∧
    b'.fetched = true ∧ b'.hdr = h ∧ b'.words = ws ∧ b'.threads = b.threads ∧ b'.pos = b.pos := by
  obtain ⟨b', hb', hrest⟩ := State.find_inHand hb h ws
  rw [State.startClause_eq_inHand hb hk hne hport hu hc hn hd]
  exact ⟨rfl, { b' with next := p.start }, by rw [State.modBundle_bundles, Tab.find_upd_same, hb']; rfl, hrest⟩

end

/-! ### The fetch of a port's bundle -/

theorem State.fetchPass_bundle {s : State} {port : Nat} {b : Bundle} {p : Pass} (hb : Tab.find s.bundles port = some b)
    (h : s.fetchPass port b = some p) : p.port = port ∧ p.keys = b.threads := by
  have hport : p.port = port := by
    simp only [State.fetchPass, State.pass] at h
    repeat' split at h
    all_goals cases h
    rfl
  obtain ⟨b', hb', hk⟩ := State.pass_bundle h
  have hbb : Tab.find s.bundles port = some b' := hport ▸ hb'
  rw [hb] at hbb
  cases hbb
  exact ⟨hport, hk.symm⟩

theorem State.fetchAt_eq {s : State} {port : Nat} {b : Bundle} {p : Pass} {l : Launch} (hb : Tab.find s.bundles port = some b)
    (hf : b.fetched = false) (hp : (s.at_ b.next).fetchPass port b = some p) (hl : Tab.find s.launches p.launch = some l) :
    s.fetchAt port = (s.at_ b.next).fetch p l b := by
  simp [State.fetchAt, hb, hf, hp, hl]

theorem State.unmet_eq_nil {s : State} {p : Pass} {h : Header}
    (hw : p.pos = 0 → ∀ k ∈ p.keys, ∀ w, Tab.find s.warps k.warp = some w → w.waitMet h.wait = true) : s.unmet p h = [] := by
  unfold State.unmet
  split
  · rfl
  · next hp =>
    refine List.filter_eq_nil_iff.2 fun k hk => ?_
    cases hx : Tab.find s.warps k.warp with
    | none => simp
    | some w => simp [hw (Decidable.not_not.1 hp) k hk w hx]

end Sys2Proof.Machine

namespace Sys2Proof

open Machine

/-- Settles O54: the picker's four faces. A port without candidates has no slot to begin at; of candidates none of which is stopped the chosen form
the bundle that the fetch then finds; the chosen are one candidate's whole group (log 12); and a fetch whose page is translated reads there what
memory holds (log 13), and the clause starts. -/
theorem pickerFormBundle : Obligations.PickerFormBundle := by
  unfold Obligations.PickerFormBundle
  refine ⟨fun s core lane port => execPickerFormBundle_idle, ?_, ?_, ?_⟩
  · intro s core lane port start now hb hs hn hstop hne
    rw [exec_pickerFormBundle, exec_pickerFormBundle, execPickerFormBundle_forms hb hs hn hstop,
      execPickerFormBundle_busy (State.formBundle_busy _ _ _ hne)]
  · exact fun now cs => ⟨fun c hc => livelyOf_subset cs c (mem_choose hc).1, fun c hc d hd => choose_alike hc hd, bundleOf_length _,
      choose_ne_nil, fun hp c hc => livelyOf_paused hp c (mem_choose hc).1, choose_largest⟩
  · intro s t core lane port b p l pg e h ws hb hf hp hl hlook hx hh hpage ha hpoison hws hport hlane hc hn hd hne hw
    obtain ⟨hpp, hpk⟩ := State.fetchPass_bundle (s := s.at_ b.next) hb hp
    obtain ⟨htb, htw, htm⟩ := State.lookPages_frame hlook
    obtain ⟨ids, hfetch⟩ := State.fetch_in_page (b := b) hlook hx hh hpage ha hpoison
    have hb' : Tab.find (t.dropWalks ids p.bundle).bundles p.port = some b := by rw [hpp, State.dropWalks_bundles, htb]; exact hb
    have hthread : ∀ k, (t.dropWalks ids p.bundle).thread k = s.thread k := fun k => by
      rw [State.thread, State.dropWalks_warps, htw]; rfl
    have hunmet : (t.dropWalks ids p.bundle).unmet p h = [] := State.unmet_eq_nil fun h0 k hk w hkw => hw h0 k hk w (by
      rw [State.dropWalks_warps, htw] at hkw; exact hkw)
    obtain ⟨hwarps, b', hfind, hrest⟩ := State.startClause_sound hb' hpk.symm hne
      (by rw [hpp, hport, portKey_of_parts _ _ _ _ hlane]) hunmet hc hn fun k hk x => hthread k ▸ hd k hk x
    have hexec : exec (.pickerFormBundle core lane port) s = .next ((t.dropWalks ids p.bundle).startClause p h ws) := by
      rw [exec_pickerFormBundle, execPickerFormBundle_busy (by rw [hb]; rfl), State.fetchAt_eq hb hf hp hl, hfetch, hws]
      rfl
    obtain ⟨hfetched, hhdr, hwords, hthreads, hpos⟩ := hrest
    refine ⟨_, b', hexec, ?_, hpp ▸ hfind, hfetched, hhdr, hwords, hthreads, hpos, fun k => ?_⟩
    · rw [State.startClause_mem, State.dropWalks_mem, htm, State.at__mem]
    · rw [← hthread k, State.thread, hwarps]; rfl

end Sys2Proof
end

section
/-! SUPPORT. The faults of a pass (R10, R80, R309, R312): what a stopped thread holds, and what its halt leaves of the device. -/

namespace Sys2Proof.Machine

/-! ### A stopped thread -/

/-- The registers of a thread that a trap leaves: v with its void marks, the k slots, FLAGS and LINK. -/
def Thread.registers (t : Thread) : Vector Word 64 × BitVec 64 × Vector Word 4 × BitVec 5 × Dword := (t.v, t.vvoid, t.k, t.flags, t.link)

/-- `y` is the thread `x`, with nothing in flight, stopped by a fault whose TPC is `tpc`. -/
structure Stopped (i : TrapInfo) (tpc : Dword) (x y : Thread) : Prop where
  st : y.st = .halted
  cause : y.trap.cause = i.cause
  info : y.trap.info = i.info
  tpc : y.trap.tpc = tpc
  pend : y.pend = []
  registers : y.registers = x.registers

section

variable {i : TrapInfo} {tpc : Dword} {x y : Thread} (h : Stopped i tpc x y)
include h

theorem Stopped.v : y.v = x.v := congrArg (·.1) h.registers
theorem Stopped.vvoid : y.vvoid = x.vvoid := congrArg (·.2.1) h.registers
theorem Stopped.k : y.k = x.k := congrArg (·.2.2.1) h.registers
theorem Stopped.flags : y.flags = x.flags := congrArg (·.2.2.2.1) h.registers
theorem Stopped.link : y.link = x.link := congrArg (·.2.2.2.2) h.registers

end

/-- With nothing in flight settling changes the latches' times alone. -/
theorem Thread.settle_of_pend_nil {t : Thread} (h : t.pend = []) :
    t.settle = { t with lat := t.lat.map (fun l => { l with land := 0 }) } := by
  cases t
  cases h
  rfl

theorem Stopped.settle {i : TrapInfo} {tpc : Dword} {x y : Thread} (h : Stopped i tpc x y) : Stopped i tpc x y.settle := by
  rw [Thread.settle_of_pend_nil h.pend]
  exact ⟨h.st, h.cause, h.info, h.tpc, h.pend, h.registers⟩

theorem Thread.stopped_recordTrap {x : Thread} {i : TrapInfo} (hp : x.pend = []) (hi : i.from_ = none) (tpc : Dword) (skid : Nat)
    (resume : Pos) : Stopped i tpc x (x.recordTrap i tpc skid resume) := by
  rw [Thread.recordTrap, Thread.settle_of_pend_nil hp, hi]
  exact ⟨rfl, rfl, rfl, rfl, hp, rfl⟩

theorem Thread.stopped_faultAt {x : Thread} {i : TrapInfo} (hp : x.pend = []) (hi : i.from_ = none) (p : Pass) :
    Stopped i p.tpc x (x.faultAt i p) := by
  have h := Thread.stopped_recordTrap hp hi p.tpc x.skid ⟨p.pc, p.first⟩
  unfold Thread.faultAt
  split
  · exact ⟨h.st, h.cause, h.info, h.tpc, h.pend, h.registers⟩
  · exact h

/-- What the end of a pass does to a thread never shows in what its trap holds. -/
theorem Stopped.of_timeless {i : TrapInfo} {tpc : Dword} {x u y : Thread} (h : Stopped i tpc u y) (hu : u.timeless = x.timeless) :
    Stopped i tpc x y :=
  { h with registers := h.registers.trans (congrArg Thread.registers hu :) }

/-! ### What a halt does -/

/-- A halt notes the fault for the other copy of a redundant launch, and then changes the block, or ends the context, or does nothing: what
these keep it keeps. -/
theorem State.raiseHalt_keeps {P : State → Prop} {s : State} (t : TKey) (handler : Bool) (now : Nat)
    (hr : ∀ s r, P s → P { s with redFaults := r }) (hb : ∀ s b f, P s → P (State.modBlock s b f))
    (he : ∀ s l c tpc w, P s → P (State.endContext s l c tpc w)) (hs : P s) : P (s.raiseHalt t handler now) := by
  unfold State.raiseHalt
  split
  · extract_lets u trapTo
    have hu : P u := by
      unfold u
      split
      · split
        · exact hr _ _ hs
        · exact hs
      · exact hs
    clear_value u trapTo
    split
    · split
      · exact he _ _ _ _ _ hu
      · exact hu
    · exact hb _ _ _ hu
  · exact hs

/-- What a fault leaves of the device: all that is outside the warps, bundles and ports, but the blocks, the launches, the faults noted of
redundant launches, and the messages sent. -/
def State.unhalted (s : State) : State := { s.outside with blocks := [], launches := [], redFaults := [], out := [] }

theorem State.unhalted_of_outside {s u : State} (h : u.outside = s.outside) : u.unhalted = s.unhalted :=
  congrArg (fun s : State => { s with blocks := [], launches := [], redFaults := [], out := [] }) h

@[simp] theorem State.unhalted_modThread (s : State) (k : TKey) (f : Thread → Thread) : (s.modThread k f).unhalted = s.unhalted := rfl

@[simp] theorem State.unhalted_endContext (s : State) (l : Nat) (c : Cause) (tpc w : Dword) :
    (s.endContext l c tpc w).unhalted = s.unhalted := by
  unfold State.endContext
  split
  · rfl
  · split <;> rfl

@[simp] theorem State.unhalted_raiseHalt (s : State) (t : TKey) (handler : Bool) (now : Nat) :
    (s.raiseHalt t handler now).unhalted = s.unhalted :=
  State.raiseHalt_keeps (P := fun u => u.unhalted = s.unhalted) t handler now (fun _ _ h => h) (fun _ _ _ h => h)
    (fun _ _ _ _ _ h => (State.unhalted_endContext ..).trans h) rfl

/-- What a table holds once some of its entries are changed. -/
theorem Tab.find_map_if {α : Type} (q : α → Prop) [DecidablePred q] (f : α → α) (l : Tab α) (n : Nat) :
    Tab.find (l.map (fun e => if q e.2 then (e.1, f e.2) else e)) n = (Tab.find l n).map (fun a => if q a then f a else a) := by
  induction l with
  | nil => rfl
  | cons e rest ih =>
    obtain ⟨j, a⟩ := e
    by_cases hq : q a <;> by_cases hj : j = n <;> by_cases hlt : n < j <;> simp [Tab.find, hq, hj, hlt, ih]

/-- The end of a context settles its threads and leaves the others. -/
theorem State.thread_stopContext (s : State) (l : Nat) (k : TKey) :
    (s.stopContext l).thread k = s.thread k ∨ (s.stopContext l).thread k = (s.thread k).map Thread.settle := by
  simp only [State.thread, State.stopContext, Tab.find_map_if (fun w : Warp => w.launch = l)]
  cases Tab.find s.warps k.warp with
  | none => exact .inl rfl
  | some w =>
    by_cases h : w.launch = l
    · exact .inr (by simp [h, Warp.settle])
    · exact .inl (by simp [h])

/-- `k` stands stopped as a thread of `x`'s registers. -/
def State.Stops (s : State) (i : TrapInfo) (tpc : Dword) (x : Thread) (k : TKey) : Prop := ∃ y, s.thread k = some y ∧ Stopped i tpc x y

section

variable {s : State} {i : TrapInfo} {tpc : Dword} {x : Thread} {k : TKey}

theorem State.Stops.of_thread_eq {u : State} (h : s.Stops i tpc x k) (hu : u.thread k = s.thread k) : u.Stops i tpc x k := by
  rwa [State.Stops, hu]

theorem State.Stops.endContext (h : s.Stops i tpc x k) (l : Nat) (c : Cause) (a w : Dword) : (s.endContext l c a w).Stops i tpc x k := by
  unfold State.endContext
  split
  · exact h
  · split
    · exact h
    · obtain ⟨y, hy, hst⟩ := h
      rcases s.thread_stopContext l k with hu | hu
      · exact ⟨y, hu.trans hy, hst⟩
      · exact ⟨y.settle, by rw [hy] at hu; exact hu, hst.settle⟩

theorem State.Stops.raiseHalt (h : s.Stops i tpc x k) (t : TKey) (handler : Bool) (now : Nat) : (s.raiseHalt t handler now).Stops i tpc x k :=
  State.raiseHalt_keeps (P := fun u => u.Stops i tpc x k) t handler now (fun _ _ hu => hu) (fun _ _ _ hu => hu)
    (fun _ l c a w hu => hu.endContext l c a w) h

/-- The end of a bundle leaves the threads that have stopped. -/
theorem State.Stops.endBundle (h : s.Stops i tpc x k) (port : Nat) : (s.endBundle port).Stops i tpc x k := by
  obtain ⟨y, hy, hst⟩ := h
  unfold State.endBundle
  split
  · exact ⟨y, hy, hst⟩
  · refine ⟨y, foldl_keeps (fun u : State => u.thread k = some y) _ _ _ hy fun u g hg hu => ?_, hst⟩
    rw [State.thread_leaveGroup_off, hu]
    intro hk
    obtain ⟨q, -, rfl⟩ := List.mem_map.1 hg
    have hlive := (List.mem_filter.1 (List.mem_filter.1 hk).1).2
    simp [hy, hst.st] at hlive

/-- A halt that reaches the issuing threads of a pass leaves those that have stopped. -/
theorem State.Stops.haltIssuing (h : s.Stops i tpc x k) (ks : List TKey) :
    (ks.foldl (fun s k => s.modThread k (fun t => if t.st = .issuing then t.halt else t)) s).Stops i tpc x k := by
  refine foldl_keeps (fun u : State => u.Stops i tpc x k) _ _ _ h fun u j _ hu => ?_
  obtain ⟨y, hy, hst⟩ := hu
  refine ⟨y, ?_, hst⟩
  rw [State.thread_modThread]
  split
  · rw [hy, Option.map_some, if_neg (by rw [hst.st]; exact nofun)]
  · exact hy

end

/-! ### The faults of a pass -/

@[simp] theorem State.unhalted_faultPass (s : State) (p : Pass) (fs : List (TKey × TrapInfo)) : (s.faultPass p fs).unhalted = s.unhalted := by
  unfold State.faultPass
  have haltIssuing (u : State) : (p.keys.foldl (fun s k => s.modThread k (fun t => if t.st = .issuing then t.halt else t)) u).unhalted =
      u.unhalted := foldl_leaves State.unhalted _ (fun _ _ => State.unhalted_modThread ..) _ _
  have record : (fs.foldl (fun s e => s.modThread e.1 (fun t => t.faultAt e.2 p)) s).unhalted = s.unhalted :=
    foldl_leaves State.unhalted _ (fun _ _ => State.unhalted_modThread ..) _ _
  exact (foldl_leaves State.unhalted _ (fun _ _ => State.unhalted_raiseHalt ..) _ _).trans
    ((State.unhalted_of_outside (State.outside_endBundle ..)).trans ((haltIssuing _).trans record))

@[simp] theorem State.unhalted_endPass (s : State) (p : Pass) (ts : List (TKey × Dword)) (fs : List (TKey × TrapInfo)) :
    (s.endPass p ts fs).unhalted = s.unhalted := by
  unfold State.endPass
  split
  · rw [State.unhalted_faultPass, State.unhalted_of_outside (State.outside_passOn ..)]
  · rw [State.unhalted_of_outside (State.outside_thinBundle ..), State.unhalted_of_outside (State.outside_passOn ..)]

/-- A thread that faults, with nothing in flight and no error of an earlier word, stops at the word with its registers as they were. -/
theorem State.stops_faultPass {s : State} {p : Pass} {fs : List (TKey × TrapInfo)} {k : TKey} {i : TrapInfo} {x : Thread}
    (hk : (k, i) ∈ fs) (hn : (fs.map Prod.fst).Nodup) (hx : s.thread k = some x) (hp : x.pend = []) (hi : i.from_ = none) :
    (s.faultPass p fs).Stops i p.tpc x k := by
  have hfault : (fs.foldl (fun s e => s.modThread e.1 (fun t => t.faultAt e.2 p)) s).Stops i p.tpc x k :=
    ⟨_, (State.thread_foldl_on Prod.fst (fun e t => t.faultAt e.2 p) fs s (k, i) hk hn).trans (congrArg _ hx), Thread.stopped_faultAt hp hi p⟩
  unfold State.faultPass
  exact foldl_keeps (fun u : State => u.Stops i p.tpc x k) _ _ _ ((hfault.haltIssuing p.keys).endBundle p.port) fun u e _ hu => hu.raiseHalt ..

/-- What the fault of a word that does not decode records (R80). -/
def TrapInfo.ofDecode (f : DecFault) : TrapInfo := { cause := Cause.ofDecode f.cause, info := f.info, addr := 0, stamp := 0, from_ := none }

theorem State.decodeFault_of_now {s : State} {p : Pass} (h : s.Now p) (f : DecFault) :
    s.decodeFault f = s.endPass p [] (p.keys.map (fun k => (k, TrapInfo.ofDecode f))) := by
  rw [State.decodeFault, h.1]
  rfl

theorem State.unhalted_decodeFault (s : State) (f : DecFault) : (s.decodeFault f).unhalted = s.unhalted := by
  unfold State.decodeFault
  split
  · rfl
  · exact State.unhalted_endPass ..

/-- A decode fault stops every thread of the pass (R80). -/
theorem State.stops_decodeFault {s : State} {p : Pass} {k : TKey} {x : Thread} (h : s.Now p) (f : DecFault) (hk : k ∈ p.keys)
    (hx : s.thread k = some x) (hp : x.pend = []) : (s.decodeFault f).Stops (TrapInfo.ofDecode f) p.tpc x k := by
  obtain ⟨u, hu, hw, -⟩ := State.thread_passOn s p [] k x hk h.2 hx
  have hne : p.keys.map (fun k => (k, TrapInfo.ofDecode f)) ≠ [] := List.ne_nil_of_mem (List.mem_map_of_mem hk)
  have hpend : u.pend = [] := (congrArg Thread.pend hw :).trans hp
  rw [State.decodeFault_of_now h, State.endPass, if_pos hne]
  have hn : ((p.keys.map (fun k => (k, TrapInfo.ofDecode f))).map Prod.fst).Nodup := by simpa [Function.comp_def] using h.2
  obtain ⟨y, hy, hst⟩ := State.stops_faultPass (p := p) (List.mem_map_of_mem (f := fun k => (k, TrapInfo.ofDecode f)) hk) hn hu hpend rfl
  exact ⟨y, hy, hst.of_timeless hw⟩

/-! ### A SYS word in user state (R79) -/

/-- In user state, and outside the handler where it would do, a SYS word is a decode fault. -/
theorem State.sysWord_user {s : State} {p : Pass} (h : s.pass = some p) (hp : p.priv = false) {handlerOk : Bool}
    (hh : handlerOk = true → ∀ k ∈ p.keys, ∀ x, s.thread k = some x → x.handler = false) (go : Pass → State) :
    s.sysWord handlerOk go = s.decodeFault ⟨.priv, s.wordBits p⟩ := by
  have hno : (handlerOk && p.keys.any (fun k => ((s.thread k).map Thread.handler).getD false)) = false := by
    refine Bool.and_eq_false_imp.2 fun hok => List.any_eq_false.2 fun k hk => ?_
    cases hx : s.thread k with
    | none => exact Bool.false_ne_true
    | some x => simp [hh hok k hk x hx]
  simp only [State.sysWord, h, hp, hno, Bool.or_false, Bool.false_eq_true, if_false]

end Sys2Proof.Machine

namespace Sys2Proof

open Machine

theorem reservedOpcodesRule : ReservedOpcodesRule := by
  intro s p w h _
  refine ⟨_, rfl, State.decodeFault_mem .., fun k hk x hx hp => ?_⟩
  obtain ⟨y, hy, hst⟩ := State.stops_decodeFault h ⟨.reserved, w⟩ hk hx hp
  exact ⟨y, hy, hst.st, hst.cause, hst.info, hst.tpc, hst.v, hst.vvoid, hst.k, hst.flags⟩

theorem privilegeRule : PrivilegeRule := by
  intro s p i h hpriv hi
  have hexec : exec i s = .next (s.decodeFault ⟨.priv, s.wordBits p⟩) := by
    have user (go : Pass → State) : s.sysWord false go = s.decodeFault ⟨.priv, s.wordBits p⟩ :=
      State.sysWord_user h.1 hpriv (fun hf => absurd hf Bool.false_ne_true) go
    rcases hi with ⟨t, rfl⟩ | ⟨t, rfl⟩ | ⟨t, rfl⟩ | ⟨t, rfl⟩ | ⟨t, rfl⟩ | ⟨t, rfl⟩ | ⟨t, rfl⟩ | ⟨t, rfl⟩ | ⟨t, rfl⟩ |
      ⟨⟨t, rfl⟩ | ⟨t, rfl⟩, hh⟩
    iterate 9 exact congrArg _ (user _)
    iterate 2 exact congrArg _ (State.sysWord_user h.1 hpriv (fun _ => hh) _)
  have hleft := State.unhalted_decodeFault s ⟨.priv, s.wordBits p⟩
  refine ⟨_, hexec, (congrArg State.mem hleft :), (congrArg State.parts hleft :), (congrArg State.cores hleft :),
    (congrArg State.queues hleft :), (congrArg State.reqs hleft :), (congrArg State.invals hleft :), (congrArg State.ctls hleft :),
    (congrArg State.ckpts hleft :), (congrArg State.slices hleft :), fun k hk x hx hp => ?_⟩
  obtain ⟨y, hy, hst⟩ := State.stops_decodeFault h ⟨.priv, s.wordBits p⟩ hk hx hp
  exact ⟨y, hy, hst.st, hst.cause, hst.tpc, hst.v, hst.link⟩

/-- Settles O33: both are decode faults of the whole pass. Each thread's own fault stops it before its registers can change, and what follows
(the halt of the others, the end of the bundle, the block's halt or the context's end) leaves a thread that has stopped. -/
theorem reservedAndPrivileged : Obligations.ReservedAndPrivileged := ⟨reservedOpcodesRule, privilegeRule⟩

end Sys2Proof
end

section
/-! SUPPORT. The forms of an immediate (R69, R89, Table 4.7): when the machine reads a constant in one, and which of them is the shortest. -/

namespace Sys2Proof.Asm

open Machine

/-! ### Fields that stand for a constant -/

theorem fitsSigned_toInt {n : Nat} (x : BitVec n) : fitsSigned x.toInt n = true :=
  (fitsSigned_iff ..).2 ⟨x.le_toInt, x.toInt_lt⟩

/-- A constant that is a field extended by its sign fits the field. -/
theorem fitsSigned_signExtend {n m : Nat} (p : BitVec n) (h : n ≤ m) : fitsSigned (p.signExtend m).toInt n = true := by
  rw [BitVec.toInt_signExtend_of_le h]
  exact fitsSigned_toInt p

/-- A constant that fits a field is the field's bits extended by their sign. -/
theorem signExtend_extractLsb' {n m : Nat} {x : BitVec m} (hn : 0 < n) (h : n ≤ m) (hf : fitsSigned x.toInt n = true) :
    (x.extractLsb' 0 n).signExtend m = x := by
  obtain ⟨hlo, hhi⟩ := (fitsSigned_iff ..).1 hf
  have hpow : (2 ^ n : Int) = 2 * 2 ^ (n - 1) := by rw [← Int.pow_succ', Nat.sub_add_cancel hn]
  refine BitVec.eq_of_toInt_eq ?_
  rw [BitVec.toInt_signExtend_of_le h, ← BitVec.setWidth_eq_extractLsb' h, ← BitVec.signExtend_eq_setWidth_of_le x h, BitVec.toInt_signExtend,
    Nat.min_eq_left h]
  refine Int.bmod_eq_of_le ?_ ?_ <;> push_cast <;> omega

/-- A constant whose low bits are zero is its high bits with zeros below. -/
theorem extractLsb'_append_zero {n m : Nat} {x : BitVec (m + n)} (h : x.extractLsb' 0 n = 0) : x.extractLsb' n m ++ (0 : BitVec n) = x := by
  rw [← h, BitVec.extractLsb'_append_extractLsb'_eq_extractLsb' (Nat.zero_add n).symm, BitVec.extractLsb'_eq_self]

theorem pay48_extractLsb' (x : BitVec 48) : pay48 (x.extractLsb' 24 24) (x.extractLsb' 0 24) = x := by
  rw [pay48, BitVec.extractLsb'_append_extractLsb'_eq_extractLsb' (start₁ := 0) (len₁ := 24) rfl, BitVec.extractLsb'_eq_self]

/-- A 64-bit value is its two words. -/
theorem dword_ofPair_lo_hi (x : Dword) : Dword.ofPair x.lo x.hi = x := by
  have hhi : x.hi = x.extractLsb' 32 32 := BitVec.eq_of_toNat_eq (by simp [Dword.hi])
  rw [Dword.ofPair, hhi, Dword.lo, BitVec.setWidth_eq_extractLsb' (by decide),
    BitVec.extractLsb'_append_extractLsb'_eq_extractLsb' (start₁ := 0) (len₁ := 32) rfl, BitVec.extractLsb'_eq_self]

theorem dword_words_inj {x y : Dword} : Dword.words x = Dword.words y ↔ x = y := by
  refine ⟨fun h => ?_, congrArg _⟩
  obtain ⟨hlo, hhi⟩ : x.lo = y.lo ∧ x.hi = y.hi := by simpa [Dword.words] using h
  rw [← dword_ofPair_lo_hi x, hlo, hhi, dword_ofPair_lo_hi]

/-! ### What a form supplies -/

section

variable {f : ImmForm} {c : Dword}

theorem supplies_i32_iff : Supplies .i32 f c ↔ f.hi = none ∧ ∃ p, f.im = some p ∧ p.signExtend 32 = c.setWidth 32 := by
  obtain ⟨_ | _, _ | _, _, _⟩ := f <;> simp [Supplies, bI32]

theorem supplies_f32_iff : Supplies .f32 f c ↔ f.hi = none ∧ ∃ p, f.im = some p ∧ p ++ (0 : BitVec 8) = c.setWidth 32 := by
  obtain ⟨_ | _, _ | _, _, _⟩ := f <;> simp [Supplies, bF32]

theorem supplies_i64_iff : Supplies .i64 f c ↔ ∃ p, f.im = some p ∧
    (f.hi = none ∧ p.signExtend 64 = c ∨ ∃ h, f.hi = some h ∧ (pay48 h p).signExtend 64 = c) := by
  obtain ⟨_ | _, _ | _, _, _⟩ := f <;> simp [Supplies, bI64, dword_words_inj]

theorem supplies_off_iff : Supplies .off f c ↔ Supplies .i64 f c := by
  obtain ⟨_ | _, _ | _, _, _⟩ := f <;> rfl

theorem supplies_f64_iff : Supplies .f64 f c ↔ ∃ p, f.im = some p ∧
    (f.hi = none ∧ p ++ (0 : BitVec 40) = c ∨ ∃ h, f.hi = some h ∧ pay48 h p ++ (0 : BitVec 16) = c) := by
  obtain ⟨_ | _, _ | _, _, _⟩ := f <;> simp [Supplies, bF64, dword_words_inj]

theorem supplies_movi_iff : Supplies .movi f c ↔ f.hi = none ∧ moviValue f.imm14 f.im = c.setWidth 32 := by
  obtain ⟨_ | _, _, _, _⟩ := f <;> simp [Supplies]

end

/-! ### The form chosen -/

theorem constForm_off (c : Dword) (least : Nat) : constForm .off c least = constForm .i64 c least := rfl

/-- MOVI's form gives the word, from imm14 alone or from a literal above 8 bits of imm14. -/
theorem moviValue_formMovi (w : Word) (least : Nat) : moviValue (formMovi w least).imm14 (formMovi w least).im = w := by
  unfold formMovi
  split
  · next h => exact eq_of_beq (Bool.and_eq_true_iff.1 h).2
  · show w.extractLsb' 8 24 ++ ((w.extractLsb' 0 8).setWidth 14).extractLsb' 0 8 = w
    rw [← BitVec.setWidth_eq_extractLsb' (by decide), BitVec.setWidth_setWidth_of_le _ (by decide), BitVec.setWidth_eq,
      BitVec.extractLsb'_append_extractLsb'_eq_extractLsb' (start₁ := 0) (len₁ := 8) rfl, BitVec.extractLsb'_eq_self]

theorem hi_formMovi (w : Word) (least : Nat) : (formMovi w least).hi = none := by unfold formMovi; split <;> rfl

theorem constForm_supplies_i64 {c : Dword} {least : Nat} {f : ImmForm} (h : constForm .i64 c least = some f) : Supplies .i64 f c := by
  rw [supplies_i64_iff]
  simp only [constForm] at h
  split at h
  · next hf =>
    cases h
    exact ⟨_, rfl, .inl ⟨rfl, signExtend_extractLsb' (by decide) (by decide) (Bool.and_eq_true_iff.1 hf).2⟩⟩
  · split at h
    · next hf =>
      cases h
      refine ⟨_, rfl, .inr ⟨_, rfl, ?_⟩⟩
      rw [pay48_extractLsb']
      exact signExtend_extractLsb' (by decide) (by decide) hf
    · cases h

theorem constForm_supplies_f64 {c : Dword} {least : Nat} {f : ImmForm} (h : constForm .f64 c least = some f) : Supplies .f64 f c := by
  rw [supplies_f64_iff]
  simp only [constForm] at h
  split at h
  · next hf =>
    cases h
    exact ⟨_, rfl, .inl ⟨rfl, extractLsb'_append_zero (m := 24) (eq_of_beq (Bool.and_eq_true_iff.1 hf).2)⟩⟩
  · split at h
    · next hf =>
      cases h
      refine ⟨_, rfl, .inr ⟨_, rfl, ?_⟩⟩
      rw [pay48_extractLsb']
      exact extractLsb'_append_zero (m := 48) (eq_of_beq hf)
    · cases h

/-- The form chosen for a constant supplies it. -/
theorem constForm_supplies {k : ImmK} {c : Dword} {least : Nat} {f : ImmForm} (h : constForm k c least = some f) : Supplies k f c := by
  cases k with
  | no => cases h
  | movi =>
    obtain ⟨-, ⟨⟩⟩ := Option.ite_none_right_eq_some.1 h
    exact supplies_movi_iff.2 ⟨hi_formMovi .., moviValue_formMovi ..⟩
  | i32 =>
    obtain ⟨hf, ⟨⟩⟩ := Option.ite_none_right_eq_some.1 h
    exact supplies_i32_iff.2 ⟨rfl, _, rfl, signExtend_extractLsb' (by decide) (by decide) (Bool.and_eq_true_iff.1 hf).2⟩
  | f32 =>
    obtain ⟨hf, ⟨⟩⟩ := Option.ite_none_right_eq_some.1 h
    exact supplies_f32_iff.2 ⟨rfl, _, rfl, extractLsb'_append_zero (m := 24) (eq_of_beq (Bool.and_eq_true_iff.1 hf).2)⟩
  | i64 => exact constForm_supplies_i64 h
  | off => exact supplies_off_iff.2 (constForm_supplies_i64 h)
  | f64 => exact constForm_supplies_f64 h

/-! ### The shortest form -/

section

variable {f g : ImmForm} {c : Dword}

theorem size_of_im {p : BitVec 24} (hi : g.hi = none) (im : g.im = some p) : g.size = 1 := by simp [ImmForm.size, hi, im]

theorem size_of_pair {h p : BitVec 24} (hi : g.hi = some h) (im : g.im = some p) : g.size = 2 := by simp [ImmForm.size, hi, im]

/-- A word that imm14 alone gives takes no literal. -/
theorem formMovi_size_signExtend (p : BitVec 14) : (formMovi (p.signExtend 32) 0).size = 0 := by
  have h : ((p.signExtend 32).extractLsb' 0 14).signExtend 32 = p.signExtend 32 :=
    signExtend_extractLsb' (by decide) (by decide) (fitsSigned_signExtend p (by decide))
  rw [formMovi, h, if_pos (by simp)]
  rfl

/-- A 64-bit constant that one literal holds is given one, and one that the pair holds is given two at the most. -/
theorem constForm_shortest_i64 (hg : Supplies .i64 g c) : ∃ f, constForm .i64 c 0 = some f ∧ f.size ≤ g.size := by
  obtain ⟨p, him, ⟨hhi, rfl⟩ | ⟨h, hhi, rfl⟩⟩ := supplies_i64_iff.1 hg
  · refine ⟨_, if_pos ?_, Nat.le_of_eq (size_of_im hhi him).symm⟩
    simpa using fitsSigned_signExtend p (by decide)
  · have hf : fitsSigned ((pay48 h p).signExtend 64).toInt 48 = true := fitsSigned_signExtend _ (by decide)
    have hsome : (constForm .i64 ((pay48 h p).signExtend 64) 0).isSome := by simp only [constForm, hf]; split <;> rfl
    obtain ⟨f, hf⟩ := Option.isSome_iff_exists.1 hsome
    exact ⟨f, hf, Nat.le_trans (constForm_shape hf).1 (Nat.le_of_eq (size_of_pair hhi him).symm)⟩

theorem constForm_shortest_f64 (hg : Supplies .f64 g c) : ∃ f, constForm .f64 c 0 = some f ∧ f.size ≤ g.size := by
  obtain ⟨p, him, ⟨hhi, rfl⟩ | ⟨h, hhi, rfl⟩⟩ := supplies_f64_iff.1 hg
  · refine ⟨_, if_pos ?_, Nat.le_of_eq (size_of_im hhi him).symm⟩
    exact beq_of_eq BitVec.extractLsb'_append_eq_right
  · have hz : (pay48 h p ++ (0 : BitVec 16)).extractLsb' 0 16 = 0 := BitVec.extractLsb'_append_eq_right
    have hsome : (constForm .f64 (pay48 h p ++ (0 : BitVec 16)) 0).isSome := by simp only [constForm, hz]; split <;> rfl
    obtain ⟨f, hf⟩ := Option.isSome_iff_exists.1 hsome
    exact ⟨f, hf, Nat.le_trans (constForm_shape hf).1 (Nat.le_of_eq (size_of_pair hhi him).symm)⟩

/-- No form that supplies a constant of the word's patterns has fewer literals than the one chosen. -/
theorem constForm_shortest {k : ImmK} (hg : Supplies k g c) (hc : Patterned k c) : ∃ f, constForm k c 0 = some f ∧ f.size ≤ g.size := by
  cases k with
  | no => cases hg
  | movi =>
    obtain ⟨hhi, hv⟩ := supplies_movi_iff.1 hg
    refine ⟨_, if_pos hc, ?_⟩
    cases him : g.im with
    | some p => exact Nat.le_trans (formMovi_size_le ..) (Nat.le_of_eq (size_of_im hhi him).symm)
    | none =>
      rw [him] at hv
      rw [← hv, moviValue, formMovi_size_signExtend]
      exact Nat.zero_le _
  | i32 =>
    obtain ⟨hhi, p, him, hp⟩ := supplies_i32_iff.1 hg
    refine ⟨_, if_pos (Bool.and_eq_true_iff.2 ⟨hc, ?_⟩), Nat.le_of_eq (size_of_im hhi him).symm⟩
    rw [← hp]
    exact fitsSigned_signExtend p (by decide)
  | f32 =>
    obtain ⟨hhi, p, him, hp⟩ := supplies_f32_iff.1 hg
    refine ⟨_, if_pos (Bool.and_eq_true_iff.2 ⟨hc, ?_⟩), Nat.le_of_eq (size_of_im hhi him).symm⟩
    rw [← hp]
    exact beq_of_eq BitVec.extractLsb'_append_eq_right
  | i64 => exact constForm_shortest_i64 hg
  | off => exact constForm_shortest_i64 (supplies_off_iff.1 hg)
  | f64 => exact constForm_shortest_f64 hg

end

end Sys2Proof.Asm

namespace Sys2Proof

/-- Settles O59: what a form supplies said as an equation of its literals, the chosen form satisfies it; and where some form satisfies it, the test
of the form chosen with as many literals, or fewer, holds. -/
theorem immediateForms : Obligations.ImmediateForms := by
  unfold Obligations.ImmediateForms
  exact fun k c => ⟨fun _ _ => Asm.constForm_supplies, fun _ => Asm.constForm_shortest⟩

end Sys2Proof
end

section
/-! SUPPORT. Decode faults in their order (R80), and the words of the encoding tables. -/

namespace Sys2Proof

/-- A guard of 12 to 14 is refused before anything else of the word is looked at (R61, R80). -/
theorem decodeWord_guard {c : DecCtx} {run : List Word} {w : Word} (hg : 12 ≤ (rawFields w).g.toNat ∧ (rawFields w).g.toNat < 15) :
    decodeWord c run w = .error ⟨.guard, w⟩ := by
  simp [decodeWord, hg]

/-- A word with a guard and an opcode has the fault of its signature, where it has one. -/
theorem decodeWord_fault {c : DecCtx} {run : List Word} {w : Word} {i : Instr} {sg : Sig} {f : DecFault}
    (hg : ¬ (12 ≤ (rawFields w).g.toNat ∧ (rawFields w).g.toNat < 15)) (hb : build c.cls (wordOp w).toNat (rawFields w) = some i)
    (hs : i.sig = some sg) (hf : sg.fault c w (withRun (rawFields w) run) = some f) : decodeWord c run w = .error f := by
  have hg' : ¬ (decide (12 ≤ (rawFields w).g.toNat) && decide ((rawFields w).g.toNat < 15)) = true := by simpa using hg
  simp only [decodeWord, if_neg hg', hb, hs, hf]

/-- Settles O55: the decoder evaluated at the nine words, one of each class; the two faults by the decoder's first check and its last. -/
theorem decodeWords : Obligations.DecodeWords := by
  unfold Obligations.DecodeWords
  intro go free
  have guarded : ∃ f, go .gen [] (0b1101#4 ++ 0#1 ++ 0#1 ++ 0#5 ++ 2#7 ++ 0#7 ++ 1#7) = .error f ∧ f.cause = .guard :=
    ⟨_, decodeWord_guard (by decide), rfl⟩
  have scalarD : ∃ f, go .gen [] (0b1111#4 ++ 0#1 ++ 0#1 ++ 0#5 ++ 72#7 ++ 0#7 ++ 1#7) = .error f ∧ f.cause = .operand :=
    ⟨_, decodeWord_fault (by decide) rfl rfl rfl, rfl⟩
  exact ⟨rfl, rfl, rfl, rfl, rfl, rfl, rfl, rfl, rfl, guarded, scalarD⟩

end Sys2Proof
end

section
/-! SUPPORT. What a run of the assembler leaves (R84). -/

namespace Sys2Proof.Asm

/-- The ways a run of the assembler ends: refused; or, under the options of its command line, with an error among what it reports and nothing
written, or with an object and no error. -/
theorem stolf_cases (args : List Text) (files : List (Text × Text)) :
    stolf args files = ⟨2, none, none, []⟩ ∨
    ∃ (c : Command) (ds : List Diag), Command.args (args.length + 1) ⟨Options.start, none, none, none⟩ args = some c ∧
      ((ds.any c.o.counts = true ∧ stolf args files = ⟨1, none, none, ds⟩) ∨
        ∃ obj lst, ds.any c.o.counts = false ∧ stolf args files = ⟨0, some obj, lst, ds⟩) := by
  unfold stolf
  split
  case h_1 => exact .inl rfl
  case h_2 c hc =>
  split
  case h_1 => exact .inl rfl
  case h_2 f _ =>
  split
  case h_1 => exact .inl rfl
  case h_2 x w pieces ds _ =>
  refine .inr ⟨c, c.o.cut 0 ((sortDiags ds).filterMap c.o.filter), hc, ?_⟩
  cases hfails : (c.o.cut 0 ((sortDiags ds).filterMap c.o.filter)).any c.o.counts with
  | true => exact .inl ⟨rfl, by simp only [hfails, if_true]⟩
  | false => exact .inr ⟨_, _, rfl, by simp only [hfails, Bool.false_eq_true, if_false]; rfl⟩

/-- Diagnostics with an error among them are not empty. -/
theorem ne_nil_of_any_counts {o : Options} {ds : List Diag} (h : ds.any o.counts = true) : ds ≠ [] := by
  rintro rfl
  cases h

end Sys2Proof.Asm

namespace Sys2Proof

/-- Settles O60: each way a run ends has its own status, with an object at status 0 alone and an error at status 1. -/
theorem assemblerStatus : Obligations.AssemblerStatus := by
  unfold Obligations.AssemblerStatus
  intro args files
  obtain h | ⟨c, ds, -, ⟨herr, h⟩ | ⟨obj, lst, -, h⟩⟩ := Asm.stolf_cases args files <;> rw [h]
  case inl => simp
  case inr.inl => simp [Asm.ne_nil_of_any_counts herr]
  case inr.inr => simp

end Sys2Proof
end

section
/-! SUPPORT. Requests at the slices (spec/09, spec/10): the stamps that a slice gives, the history of a line that is written, and what the
service of a request leaves of the device; then the writes, loads and as-of walks themselves. -/

namespace Sys2Proof.Machine

/-! ### Units under changes -/

/-- A put leaves the entries of other keys, even where the keys do not rise: a look-up stops where it stopped before. -/
theorem Tab.find_put_other (l : Tab α) {k j : Nat} (v : α) (h : j ≠ k) : Tab.find (Tab.put l k v) j = Tab.find l j := by
  induction l with
  | nil => simp [Tab.put, Tab.find, h.symm]
  | cons e rest ih =>
    obtain ⟨i, x⟩ := e
    by_cases h1 : i = k
    · subst h1; simp [Tab.put, Tab.find, h.symm]
    · by_cases h2 : k < i
      · simp only [Tab.put, h1, h2, if_true, if_false]
        by_cases h3 : j < k
        · simp [Tab.find, h.symm, h3, show ¬ i = j by omega, show j < i by omega]
        · simp [Tab.find, h.symm, h3]
      · simp only [Tab.put, h1, h2, if_false, Tab.find, ih]

@[simp] theorem State.core_modCore_same (s : State) (k : Nat) (f : Core → Core) : (s.modCore k f).core k = f (s.core k) := by
  simp [State.core]

theorem State.core_modCore_ne (s : State) {k q : Nat} (f : Core → Core) (h : q ≠ k) : (s.modCore k f).core q = s.core q := by
  simp [State.core, Tab.find_put_other _ _ h]

@[simp] theorem State.part_modPart_same (s : State) (k : Nat) (f : Partition → Partition) : (s.modPart k f).part k = f (s.part k) := by
  simp [State.part]

theorem State.part_modPart_ne (s : State) {k q : Nat} (f : Partition → Partition) (h : q ≠ k) : (s.modPart k f).part q = s.part q := by
  simp [State.part, Tab.find_put_other _ _ h]

/-! ### Bytes -/

theorem Memory.length_bytes (m : Memory) (a n : Nat) : (m.bytes a n).length = n := by
  induction n generalizing a with
  | zero => rfl
  | succ n ih => simp [Memory.bytes, ih]

theorem Memory.getElem_bytes (m : Memory) (a n i : Nat) (h : i < (m.bytes a n).length) : (m.bytes a n)[i] = m.byte (a + i) := by
  induction n generalizing a i with
  | zero => simp [Memory.bytes] at h
  | succ n ih =>
    cases i with
    | zero => rfl
    | succ i => simp [Memory.bytes, ih, Nat.add_assoc, Nat.add_comm 1 i]

/-- Bytes written read back. -/
theorem Memory.bytes_puts (m : Memory) (a : Nat) (l : List Byte) (hm : m.wf = true) : (m.puts a l).bytes a l.length = l :=
  List.ext_getElem (Memory.length_bytes ..) (fun i _ h => by rw [Memory.getElem_bytes, Memory.byte_puts_inside m a i l hm h])

theorem length_leBytes (x n : Nat) : (leBytes x n).length = n := by
  induction n generalizing x with
  | zero => rfl
  | succ n ih => simp [leBytes, ih]

theorem leNat_leBytes (x n : Nat) : leNat (leBytes x n) = x % 256 ^ n := by
  induction n generalizing x with
  | zero => simp [leBytes, leNat, Nat.mod_one]
  | succ n ih => simp [leBytes, leNat, ih, Nat.pow_succ', Nat.mod_mul]

/-- A number written as bytes reads back. -/
theorem Memory.nat_puts_leBytes (m : Memory) (a : Nat) {x n : Nat} (hm : m.wf = true) (hx : x < 256 ^ n) :
    (m.puts a (leBytes x n)).nat a n = x := by
  have h := Memory.bytes_puts m a (leBytes x n) hm
  rw [length_leBytes] at h
  rw [Memory.nat, h, leNat_leBytes, Nat.mod_eq_of_lt hx]

/-! ### Stamps (R149) -/

/-- The least stamp of a slice: above the bound, at or after the tick, with the slice's number, and no more than two ticks on. -/
theorem stampAfter_spec {n : Nat} (tick bound : Nat) (hn : n < 256) :
    bound < stampAfter n tick bound ∧ tick ≤ stampAfter n tick bound / 65536 ∧ stampAfter n tick bound % 65536 / 256 = n ∧
      stampAfter n tick bound < (max tick (bound / 65536) + 2) * 65536 := by
  simp only [stampAfter, Bool.or_eq_true, Bool.and_eq_true, decide_eq_true_eq]
  split
  · omega
  · split <;> omega

theorem homeSlice_lt (pa : Nat) : homeSlice pa < Config.slices := Nat.mod_lt _ (by decide)

/-- The stamp that a home slice assigns is one that it may give. -/
theorem freshStamp_assignStamp {s : State} {pa : Nat} {floor : Dword} (hlast : (s.slice (homeSlice pa)).last.toNat < 2 ^ 63)
    (htick : (s.slice (homeSlice pa)).tick.toNat < 2 ^ 47) (href : s.refTick.toNat < 2 ^ 47) (hfloor : floor.toNat < 2 ^ 63) :
    FreshStamp s (homeSlice pa) floor (s.assignStamp (homeSlice pa) floor).2 := by
  have hn : homeSlice pa < 192 := homeSlice_lt pa
  obtain ⟨hb, ht, hs, hu⟩ := stampAfter_spec (s.sliceTick (homeSlice pa)) (max (s.slice (homeSlice pa)).last.toNat floor.toNat)
    (show homeSlice pa < 256 by omega)
  simp only [FreshStamp, State.assignStamp, BitVec.toNat_ofNat]
  rw [Nat.mod_eq_of_lt (by simp only [State.sliceTick] at hu ⊢; omega)]
  simp only [State.sliceTick] at hb ht hs ⊢
  omega

/-! ### History (R169) -/

theorem live_purge (s : State) (part : Nat) : ((s.purgePool part).part part).live = (s.part part).live := by
  simp only [State.purgePool, State.part_modPart_same, Partition.live, List.filter_filter]
  congr 2
  funext e
  cases e.freed <;> rfl

/-- The mark of the spill area is all that changes in an entry. -/
theorem exists_mem_markSpill {size : Nat} {l : List HistEntry} {e : HistEntry} (h : e ∈ l) :
    ∃ b, { e with spilled := b } ∈ markSpill size l := by
  obtain ⟨i, hi, rfl⟩ := List.getElem_of_mem h
  exact ⟨_, List.mem_map.2 ⟨(l[i], i), List.mem_zipIdx_iff_getElem?.2 (List.getElem?_eq_getElem hi), rfl⟩⟩

/-- The entry that a write makes of a line as it stands, superseded at `x` (Table 9.7). -/
def State.entryAt (s : State) (part pa : Nat) (x : Dword) : HistEntry :=
  let m := (Tab.find s.lineMeta (lineOf pa)).getD { stamp := 0, link := none, cut := false }
  { num := (s.part part).poolNext, data := s.mem.bytes (lineOf pa * 64) 64, stamp := m.stamp, line := lineOf pa, link := m.link,
    part := part, colour := (s.part part).colour, later := x, spilled := false, poisoned := s.poison.contains (lineOf pa), freed := false }

/-- The state with a write's entry in the pool. -/
def State.pooled (s : State) (part pa : Nat) (x : Dword) : State :=
  ((s.purgePool part).modPart part (fun p => { p with pool := p.pool ++ [s.entryAt part pa x], poolNext := p.poolNext + 1 })).modPart part
    (fun p => { p with pool := markSpill p.poolSize p.pool })

theorem State.part_pooled_ne (s : State) {part m : Nat} (pa : Nat) (x : Dword) (h : m ≠ part) : (s.pooled part pa x).part m = s.part m := by
  simp only [State.pooled, State.purgePool, State.part_modPart_ne _ _ h]

theorem State.exists_mem_pooled (s : State) (part pa : Nat) (x : Dword) :
    ∃ b, { s.entryAt part pa x with spilled := b } ∈ ((s.pooled part pa x).part part).pool := by
  simp only [State.pooled, State.part_modPart_same]
  exact exists_mem_markSpill (List.mem_append_right _ (List.mem_singleton_self _))

/-- While the pool has room a write adds its entry, and frees none. -/
theorem State.makeEntry_room {s : State} {part : Nat} (pa : Nat) (x : Dword) (h : (s.part part).live < (s.part part).cap) :
    ∃ lm, s.makeEntry part pa x = { s.pooled part pa x with lineMeta := lm } := by
  have hl : ((s.purgePool part).part part).live + 1 ≤ ((s.purgePool part).part part).cap := by
    rw [live_purge]
    simp only [State.purgePool, State.part_modPart_same]
    exact h
  simp only [State.makeEntry]
  rw [if_neg]
  · exact ⟨_, rfl⟩
  · simp only [State.part_modPart_same, Partition.live, Partition.cap, List.filter_append, List.length_append] at hl ⊢
    rw [List.filter_cons_of_pos rfl, List.filter_nil, List.length_singleton]
    omega

/-- The device without its partitions and the history of its lines. -/
def State.besideHistory (s : State) : State := { s with parts := [], lineMeta := [] }

theorem State.besideHistory_modPart (s : State) (k : Nat) (f : Partition → Partition) : (s.modPart k f).besideHistory = s.besideHistory := rfl

section

variable {s : State} {part pa : Nat} {hist : Bool} {x : Dword}

/-- What a write does to a line's history, while the pool has room: other partitions and the rest of the device stay, and on a historied page
the line as it stood is among the entries. -/
theorem State.noteHistory_spec (h : hist = true ∧ (s.part part).live < (s.part part).cap ∨ hist = false) :
    (s.noteHistory part pa hist x).besideHistory = s.besideHistory ∧
      (∀ m, m ≠ part → (s.noteHistory part pa hist x).part m = s.part m) ∧
      (hist = true → ∃ e ∈ ((s.noteHistory part pa hist x).part part).pool, e.line = lineOf pa ∧ e.later = x ∧ e.freed = false ∧
        e.data = s.mem.bytes (lineOf pa * 64) 64) := by
  obtain ⟨rfl, hroom⟩ | rfl := h
  · obtain ⟨lm, he⟩ := State.makeEntry_room pa x hroom
    rw [State.noteHistory, if_pos rfl, he]
    obtain ⟨b, hb⟩ := s.exists_mem_pooled part pa x
    refine ⟨?_, fun m hm => s.part_pooled_ne pa x hm, fun _ => ⟨_, hb, rfl, rfl, rfl, rfl⟩⟩
    show (s.pooled part pa x).besideHistory = _
    simp only [State.pooled, State.purgePool, State.besideHistory_modPart]
  · rw [State.noteHistory, if_neg (by decide)]
    split <;> exact ⟨rfl, fun _ _ => rfl, fun h => by cases h⟩

end

/-- The device without what a write of memory changes. -/
def State.besideMemory (s : State) : State := { s.besideHistory with mem := [], poison := [], slices := [] }

section

variable {s : State} {part pa : Nat} {hist : Bool} (floor : Dword) (d : List Byte)

@[simp] theorem State.commitStore_mem : (s.commitStore part pa hist floor d).1.mem = s.mem.puts pa d := by
  simp [State.commitStore, State.putBytes]

variable (h : hist = true ∧ (s.part part).live < (s.part part).cap ∨ hist = false)
include h

theorem State.besideMemory_commitStore : (s.commitStore part pa hist floor d).1.besideMemory = s.besideMemory :=
  (congrArg State.besideMemory (State.noteHistory_spec (s := (s.assignStamp (homeSlice pa) floor).1) h).1 :)

theorem State.slices_commitStore : (s.commitStore part pa hist floor d).1.slices = (s.assignStamp (homeSlice pa) floor).1.slices :=
  (congrArg State.slices (State.noteHistory_spec (s := (s.assignStamp (homeSlice pa) floor).1) h).1 :)

theorem State.last_commitStore : ((s.commitStore part pa hist floor d).1.slice (homeSlice pa)).last = (s.assignStamp (homeSlice pa) floor).2 := by
  rw [State.slice, State.slices_commitStore floor d h]
  simp [State.assignStamp]

theorem State.slice_commitStore_ne {m : Nat} (hm : m ≠ homeSlice pa) : (s.commitStore part pa hist floor d).1.slice m = s.slice m := by
  rw [State.slice, State.slices_commitStore floor d h]
  simp [State.assignStamp, Tab.find_put_other _ _ hm, State.slice]

theorem State.part_commitStore_ne {m : Nat} (hm : m ≠ part) : (s.commitStore part pa hist floor d).1.part m = s.part m := by
  obtain ⟨-, hpart, -⟩ := State.noteHistory_spec (s := (s.assignStamp (homeSlice pa) floor).1) (x := (s.assignStamp (homeSlice pa) floor).2) h
  exact hpart m hm

theorem State.entry_commitStore (hh : hist = true) : ∃ e ∈ ((s.commitStore part pa hist floor d).1.part part).pool, e.line = lineOf pa ∧
    e.later = (s.assignStamp (homeSlice pa) floor).2 ∧ e.freed = false ∧ e.data = s.mem.bytes (lineOf pa * 64) 64 := by
  obtain ⟨-, -, hentry⟩ := State.noteHistory_spec (s := (s.assignStamp (homeSlice pa) floor).1) (x := (s.assignStamp (homeSlice pa) floor).2) h
  exact hentry hh

end

/-! ### Caches -/

/-- The device without its cores and its L2. -/
def State.besideCaches (s : State) : State := { s with cores := [], l2 := [] }

/-- What a request's service does to the caches: one core's, whose scratchpad it leaves, and the L2. -/
def CachesOnly (core : Nat) (s t : State) : Prop :=
  t.besideCaches = s.besideCaches ∧ (∀ q, q ≠ core → t.core q = s.core q) ∧ (t.core core).scratch = (s.core core).scratch

theorem CachesOnly.refl (core : Nat) (s : State) : CachesOnly core s s := ⟨rfl, fun _ _ => rfl, rfl⟩

theorem CachesOnly.trans {core : Nat} {s t u : State} (h : CachesOnly core s t) (h' : CachesOnly core t u) : CachesOnly core s u := by
  obtain ⟨h1, h2, h3⟩ := h
  obtain ⟨g1, g2, g3⟩ := h'
  exact ⟨g1.trans h1, fun q hq => (g2 q hq).trans (h2 q hq), g3.trans h3⟩

theorem CachesOnly.scratch {core : Nat} {s t : State} (h : CachesOnly core s t) (q : Nat) : (t.core q).scratch = (s.core q).scratch := by
  by_cases hq : q = core
  · rw [hq, h.2.2]
  · rw [h.2.1 q hq]

theorem cachesOnly_modCore (s : State) (core : Nat) {f : Core → Core} (hf : ∀ c, (f c).scratch = c.scratch) :
    CachesOnly core s (s.modCore core f) :=
  ⟨rfl, fun _ hq => State.core_modCore_ne s f hq, by rw [State.core_modCore_same, hf]⟩

theorem cachesOnly_l2Fill (s : State) (core part pa page : Nat) : CachesOnly core s (s.l2Fill part pa page) := by
  unfold State.l2Fill
  split <;> exact ⟨rfl, fun _ _ => rfl, rfl⟩

theorem cachesOnly_l1Clear (s : State) (core : Nat) : CachesOnly core s (s.l1Clear core) := cachesOnly_modCore s core (fun _ => rfl)

theorem cachesOnly_l1Store (s : State) (core pa : Nat) (hint : Cache) (page : Nat) (d : List Byte) :
    CachesOnly core s (s.l1Store core pa hint page d) :=
  cachesOnly_modCore s core (fun _ => by split <;> rfl)

theorem cachesOnly_l1Read (s : State) (r : Req) (line : Nat) : CachesOnly r.core s (s.l1Read r line) := by
  unfold State.l1Read
  split
  · exact cachesOnly_modCore s r.core (fun _ => rfl)
  · exact cachesOnly_modCore s r.core (fun _ => by split <;> rfl)

/-- The lines that a load reads, filled in one after another. -/
theorem cachesOnly_fills (s : State) (r : Req) (part page : Nat) (lines : List Nat) :
    CachesOnly r.core s (lines.foldl (fun s l => (s.l1Read r l).l2Fill part (l * 64) page) s) :=
  foldl_keeps (CachesOnly r.core s) _ lines s (.refl ..)
    (fun u l _ h => h.trans ((cachesOnly_l1Read u r l).trans (cachesOnly_l2Fill ..)))

/-! ### Threads and warps -/

/-- What a request's service leaves of the warps: every thread but what is known of values on their way and the stamp that its writes have had,
and of a warp its scalar registers, predicates, counters and FLOOR. -/
def WarpsServed (s t : State) (wrote : TKey → Dword → Dword) : Prop :=
  (∀ m w, Tab.find s.warps m = some w → ∃ w', Tab.find t.warps m = some w' ∧
    w'.s = w.s ∧ w'.preds = w.preds ∧ w'.ctr = w.ctr ∧ w'.floor = w.floor) ∧
  ∀ k y, s.thread k = some y → ∃ z, t.thread k = some z ∧ z = { y with async := z.async, wrote := wrote k y.wrote }

theorem warpsServed_of_warps_eq {s t : State} (h : t.warps = s.warps) : WarpsServed s t (fun _ x => x) := by
  unfold WarpsServed State.thread
  rw [h]
  exact ⟨fun _ w hw => ⟨w, hw, rfl, rfl, rfl, rfl⟩, fun _ y hy => ⟨y, hy, rfl⟩⟩

theorem WarpsServed.congr {s t : State} {f g : TKey → Dword → Dword} (h : WarpsServed s t f) (hfg : ∀ k x, f k x = g k x) :
    WarpsServed s t g := by
  have e : f = g := funext fun k => funext (hfg k)
  rwa [← e]

theorem WarpsServed.trans {s t u : State} {f g : TKey → Dword → Dword} (h : WarpsServed s t f) (h' : WarpsServed t u g) :
    WarpsServed s u (fun k x => g k (f k x)) := by
  refine ⟨fun m w hw => ?_, fun k y hy => ?_⟩
  · obtain ⟨w1, hw1, a1, a2, a3, a4⟩ := h.1 m w hw
    obtain ⟨w2, hw2, b1, b2, b3, b4⟩ := h'.1 m w1 hw1
    exact ⟨w2, hw2, b1.trans a1, b2.trans a2, b3.trans a3, b4.trans a4⟩
  · obtain ⟨z1, hz1, e1⟩ := h.2 k y hy
    obtain ⟨z2, hz2, e2⟩ := h'.2 k z1 hz1
    refine ⟨z2, hz2, e2.trans ?_⟩
    rw [e1]

theorem warpsServed_modThread (s : State) (k : TKey) {f : Thread → Thread} {g : Dword → Dword}
    (hf : ∀ y, f y = { y with async := (f y).async, wrote := g y.wrote }) :
    WarpsServed s (s.modThread k f) (fun j x => if j = k then g x else x) := by
  refine ⟨fun m w hw => ?_, fun j y hy => ?_⟩
  · have h := State.shell_modThread s k m f
    rw [hw] at h
    obtain ⟨w', hw', e⟩ := Option.map_eq_some_iff.1 h
    exact ⟨w', hw', (congrArg Warp.s e :), (congrArg Warp.preds e :), (congrArg Warp.ctr e :), (congrArg Warp.floor e :)⟩
  · rw [State.thread_modThread, hy]
    by_cases hj : j = k
    · simp only [hj, if_true]
      exact ⟨f y, rfl, hf y⟩
    · simp only [hj, if_false]
      exact ⟨y, rfl, rfl⟩

theorem warpsServed_modWarp (s : State) (n : Nat) {f : Warp → Warp}
    (hf : ∀ w, (f w).threads = w.threads ∧ (f w).s = w.s ∧ (f w).preds = w.preds ∧ (f w).ctr = w.ctr ∧ (f w).floor = w.floor) :
    WarpsServed s (s.modWarp n f) (fun _ x => x) := by
  refine ⟨fun m w hw => ?_, fun k y hy => ⟨y, ?_, rfl⟩⟩
  · rw [State.modWarp_warps, Tab.find_upd, hw]
    split
    · exact ⟨f w, rfl, (hf w).2⟩
    · exact ⟨w, rfl, rfl, rfl, rfl, rfl⟩
  · rw [State.thread_modWarp s n f k (fun w => (hf w).1), hy]

/-- Values made known on their way change no register. -/
theorem warpsServed_known (s : State) (r : Req) : WarpsServed s (s.known r) (fun _ x => x) := by
  have hparts : ∀ (f : Part → Thread → Thread), (∀ q y, f q y = { y with async := (f q y).async }) →
      WarpsServed s (r.parts.foldl (fun s q => s.modThread q.thread (f q)) s) (fun _ x => x) := fun f hf =>
    foldl_keeps (fun u => WarpsServed s u (fun _ x => x)) _ r.parts s (warpsServed_of_warps_eq rfl) (fun u q _ h => by
      simpa using h.trans (warpsServed_modThread u q.thread (g := id) (hf q)))
  simp only [State.known]
  split
  · exact hparts _ (fun _ _ => rfl)
  · split
    · exact hparts _ (fun _ _ => rfl)
    · exact (hparts _ (fun _ _ => rfl)).trans (warpsServed_modWarp _ _ (fun _ => ⟨rfl, rfl, rfl, rfl, rfl⟩))

theorem umax_umax (a b : Dword) : umax (umax a b) b = umax a b :=
  BitVec.eq_of_toNat_eq (by simp only [umax_toNat]; omega)

/-- The stamp of a commit is noted in the threads that made it, once or more. -/
theorem warpsServed_noteStamp (s : State) (r : Req) (x : Dword) :
    WarpsServed s (s.noteStamp r x) (fun k y => if r.parts.any (fun q => q.thread == k) then umax y x else y) := by
  have hfold : ∀ (l : List Part) (s : State), WarpsServed s
      (l.foldl (fun s q => s.modThread q.thread (fun t => { t with wrote := umax t.wrote x })) s)
      (fun k y => if l.any (fun q => q.thread == k) then umax y x else y) := by
    intro l
    induction l with
    | nil => exact fun s => warpsServed_of_warps_eq rfl
    | cons q rest ih =>
      intro s
      have h := (warpsServed_modThread s q.thread (f := fun t => { t with wrote := umax t.wrote x }) (g := fun y => umax y x)
        (fun _ => rfl)).trans (ih _)
      refine h.congr fun k y => ?_
      by_cases hk : k = q.thread
      · simp [hk, umax_umax]
      · simp [hk, Ne.symm hk]
  exact hfold r.parts s

/-! ### Requests served -/

/-- The device without its warps, bundles and ports, and without what is kept of requests. -/
def State.besideRequests (s : State) : State := { s.outside with reqs := [], completions := [] }

theorem State.outside_known (s : State) (r : Req) : (s.known r).outside = s.outside := by
  have hparts : ∀ (f : Part → Thread → Thread), (r.parts.foldl (fun s q => s.modThread q.thread (f q)) s).outside = s.outside :=
    fun f => foldl_leaves State.outside (fun s q => s.modThread q.thread (f q)) (fun _ _ => rfl) r.parts s
  simp only [State.known]
  split
  · exact hparts _
  · split
    · exact hparts _
    · exact (State.outside_modWarp ..).trans (hparts _)

theorem State.besideRequests_noteStamp (s : State) (r : Req) (x : Dword) : (s.noteStamp r x).besideRequests = s.besideRequests :=
  congrArg (fun u : State => { u with reqs := [], completions := [] })
    (foldl_leaves State.outside (fun s q => s.modThread q.thread (fun t => { t with wrote := umax t.wrote x })) (fun _ _ => rfl) r.parts s)

theorem State.besideRequests_noteCommit (s : State) (r : Req) : (s.noteCommit r).besideRequests = s.besideRequests := by
  unfold State.noteCommit
  split <;> rfl

/-- A write that has committed told to its threads and to the requests behind it. -/
def State.told (s : State) (q : Req) (x : Dword) : State := (((s.putReq q).known q).noteCommit q).noteStamp q x

theorem State.besideRequests_told (s : State) (q : Req) (x : Dword) : (s.told q x).besideRequests = s.besideRequests := by
  rw [State.told, State.besideRequests_noteStamp, State.besideRequests_noteCommit, State.besideRequests, State.outside_known]
  rfl

theorem State.noteCommit_warps (s : State) (r : Req) : (s.noteCommit r).warps = s.warps := by
  unfold State.noteCommit
  split <;> rfl

theorem State.noteCommit_reqs (s : State) (r : Req) : (s.noteCommit r).reqs = s.reqs := by
  unfold State.noteCommit
  split <;> rfl

theorem warpsServed_told (s : State) (q : Req) (x : Dword) :
    WarpsServed s (s.told q x) (fun k y => if q.parts.any (fun p => p.thread == k) then umax y x else y) :=
  ((warpsServed_known (s.putReq q) q).trans (warpsServed_of_warps_eq (State.noteCommit_warps ..))).trans (warpsServed_noteStamp ..)

theorem served_mono {s t : State} {id : Nat} {f g : Req → Prop} (h : Served s t id f) (hfg : ∀ y, f y → g y) : Served s t id g := by
  obtain ⟨⟨y, hy, hid, hst, hf⟩, ho⟩ := h
  exact ⟨⟨y, hy, hid, hst, hfg y hf⟩, ho⟩

theorem served_of_reqs_eq {s t u : State} {id : Nat} {f : Req → Prop} (h : Served s t id f) (e : u.reqs = t.reqs) : Served s u id f := by
  unfold Served
  rwa [e]

/-- A request put in place of the one of its number, served, and its values made known. -/
theorem served_known {s u : State} {id : Nat} {q : Req} (hf : (s.reqs.find? (fun y => y.id == id)).isSome) (hu : u.reqs = s.reqs)
    (hid : q.id = id) (hst : q.stage = .served) : Served s ((u.putReq q).known q) id (fun y => y = q) := by
  have e : ((u.putReq q).known q).reqs = s.reqs.map (fun y => if y.id = q.id then q else y) := by
    rw [← hu]
    exact (congrArg State.reqs (State.outside_known (u.putReq q) q) :)
  obtain ⟨r, hr, hrid⟩ := List.find?_isSome.1 hf
  have hrid : r.id = id := by simpa using hrid
  refine ⟨⟨q, ?_, hid, hst, rfl⟩, fun y hy hne => ⟨y, ?_, rfl⟩⟩
  · exact e ▸ List.mem_map.2 ⟨r, hr, if_pos (hrid.trans hid.symm)⟩
  · exact e ▸ List.mem_map.2 ⟨y, hy, if_neg (fun h => hne (h.trans hid))⟩

/-- The least stamp that later requests carry is raised in no request that is served. -/
theorem served_noteStamp {s t : State} {id : Nat} {f : Req → Prop} (h : Served s t id f) (q : Req) (x : Dword) :
    Served s (t.noteStamp q x) id f := by
  obtain ⟨⟨y, hy, hid, hst, hfy⟩, ho⟩ := h
  refine ⟨⟨y, List.mem_map.2 ⟨y, hy, by simp [hst]⟩, hid, hst, hfy⟩, fun y hy hne => ?_⟩
  obtain ⟨z, hz, e⟩ := ho y hy hne
  refine ⟨_, List.mem_map_of_mem hz, ?_⟩
  split
  · rw [e]
  · exact e

/-! ### SLICE_COMMIT (R149, R169, R173, R204) -/

theorem State.stallCheck_spec (s : State) (part : Nat) :
    (s.stallCheck part).besideHistory = s.besideHistory ∧ (∀ m, m ≠ part → (s.stallCheck part).part m = s.part m) ∧
      ((s.stallCheck part).part part).pool = (s.part part).pool := by
  unfold State.stallCheck
  split
  · exact ⟨rfl, fun _ _ => rfl, rfl⟩
  · exact ⟨rfl, fun _ hm => State.part_modPart_ne _ _ hm, by rw [State.part_modPart_same]⟩

/-- A commit closed: on a historied page the partition's stall may end. -/
def State.closed (s : State) (part : Nat) (hist : Bool) : State := if hist then s.stallCheck part else s

theorem State.closed_spec (s : State) (part : Nat) (hist : Bool) :
    (s.closed part hist).besideHistory = s.besideHistory ∧ (∀ m, m ≠ part → (s.closed part hist).part m = s.part m) ∧
      ((s.closed part hist).part part).pool = (s.part part).pool := by
  unfold State.closed
  split
  · exact s.stallCheck_spec part
  · exact ⟨rfl, fun _ _ => rfl, rfl⟩

/-- While the pool has room no hold stalls a write. -/
theorem wouldStall_of_room {s : State} {part : Nat} (x : Dword) (h : (s.part part).live < (s.part part).cap) :
    s.wouldStall part x = false := by
  simp [State.wouldStall, h]

/-- Where every leaf shows CKPT there is none to set again. -/
theorem ckptAgain_eq {s : State} {r : Req} (x : Dword)
    (h : ∀ e, r.tlb = some e → ∀ a ∈ e.leaf1 :: e.leaf2.toList, natBit (s.mem.nat a 8) 9 = true) : s.ckptAgain r x = s := by
  unfold State.ckptAgain
  split
  · rfl
  · next e he =>
    dsimp only
    split
    · rfl
    · exact foldl_keeps (fun u => u = s) _ _ s rfl (fun u a ha hu => by
        rw [hu, h e he a ha]
        simp)

/-- The device without what the service of a request changes beside memory. -/
def State.besideService (s : State) : State := s.besideCaches.besideHistory.besideRequests

/-- States that agree once some fields are blanked agree in whatever those fields have no part in. -/
theorem eq_of_blank {β : Type} {b : State → State} {s t : State} (h : b t = b s) (F : State → β)
    (hF : ∀ u, F (b u) = F u := by exact fun _ => rfl) : F t = F s := by
  rw [← hF t, h, hF]

/-- The outcome of an atomic fits in the bytes of its access. -/
theorem atomNew_lt (op : AtomOp) (w sg : Bool) (m x cmp : Dword) : (atomNew op w sg m x cmp).toNat < 256 ^ atomBytes w := by
  cases w with
  | true => exact (atomNew op true sg m x cmp).isLt
  | false =>
    simp only [atomNew, atomBytes, Bool.false_eq_true, if_false]
    rw [BitVec.toNat_setWidth]
    omega

theorem groupNew_lt (op : AtomOp) (w sg : Bool) (parts : List Part) (m : Dword) : (groupNew op w sg parts m).toNat < 256 ^ atomBytes w :=
  atomNew_lt ..

/-- The stamp that a request's commit takes. -/
def State.stampFor (s : State) (r : Req) : Dword := (s.assignStamp (homeSlice r.pa) r.floor).2

/-- The state with a request's bytes committed, its caches not yet. -/
def State.stored (s : State) (r : Req) (d : List Byte) : State := (s.commitStore (s.reqPart r) r.pa r.attrs.hist r.floor d).1

/-- A request as its commit leaves it. -/
def Req.committed (r : Req) (x : Dword) (parts : List Part) : Req := { r with stage := .served, stamp := x, raise := some x, parts := parts }

/-- The state that a commit leaves, from one whose caches have followed. -/
def State.committed (s h : State) (r : Req) (parts : List Part) : State :=
  (h.told (r.committed (s.stampFor r) parts) (s.stampFor r)).closed (s.reqPart r) r.attrs.hist

/-- What memory holds before an atomic of a request. -/
def State.oldAt (s : State) (r : Req) (w : Bool) : Dword := BitVec.ofNat 64 (s.mem.nat r.pa (atomBytes w))

/-- The bytes that an atomic of a request writes. -/
def State.atomData (s : State) (r : Req) (op : AtomOp) (w sg : Bool) : List Byte :=
  leBytes (groupNew op w sg r.parts (s.oldAt r w)).toNat (atomBytes w)

/-- What SLICE_COMMIT is stated of: a request on its way that commits at its home slice, whose leaves show CKPT, with its clocks in range. -/
structure CommitReady (s : State) (id : Nat) (r : Req) : Prop where
  found : s.reqs.find? (fun y => y.id == id) = some r
  place : r.place = .global
  may : s.sliceMay r = true
  memory : s.mem.wf = true
  primary : s.reqShadow r = false
  home : r.slice = homeSlice r.pa
  leaves : ∀ e, r.tlb = some e → ∀ a ∈ e.leaf1 :: e.leaf2.toList, natBit (s.mem.nat a 8) 9 = true
  fresh : FreshStamp s (homeSlice r.pa) r.floor (s.stampFor r)

/-- The pool takes an entry of a request's write without freeing one, or the page keeps no history. -/
def Roomy (s : State) (r : Req) : Prop :=
  r.attrs.hist = true ∧ (s.part (s.reqPart r)).live < (s.part (s.reqPart r)).cap ∨ r.attrs.hist = false

section

variable {s : State} {id : Nat} {r : Req}

section

variable {d : List Byte} {h : State} {parts : List Part} (hcaches : CachesOnly r.core (s.stored r d) h)
include hcaches

theorem besideService_committed : (s.committed h r parts).besideService = (s.stored r d).besideService :=
  (eq_of_blank (State.closed_spec ..).1 State.besideService).trans
    ((eq_of_blank (h.besideRequests_told ..) State.besideService).trans (eq_of_blank hcaches.1 State.besideService))

theorem mem_committed : (s.committed h r parts).mem = s.mem.puts r.pa d :=
  (eq_of_blank (besideService_committed hcaches) State.mem).trans (State.commitStore_mem ..)

variable (hroom : Roomy s r)
include hroom

/-- The threads of a commit have its stamp noted. -/
theorem warpsServed_committed (hq : parts.map Part.thread = r.parts.map Part.thread) :
    WarpsServed s (s.committed h r parts) (fun k y => if r.parts.any (fun q => q.thread == k) then umax y (s.stampFor r) else y) := by
  have hs : (s.stored r d).besideMemory = s.besideMemory := State.besideMemory_commitStore r.floor d hroom
  have hw : h.warps = s.warps := (eq_of_blank hcaches.1 State.warps).trans (eq_of_blank hs State.warps)
  have hany : ∀ (l : List Part) (k : TKey), l.any (fun q => q.thread == k) = (l.map Part.thread).any (· == k) := fun l k => by
    rw [List.any_map]
    rfl
  refine (((warpsServed_of_warps_eq hw).trans (warpsServed_told h (r.committed (s.stampFor r) parts) (s.stampFor r))).trans
    (warpsServed_of_warps_eq (eq_of_blank (State.closed_spec ..).1 State.warps))).congr fun k y => ?_
  simp only [Req.committed, hany, hq]

variable (hr : CommitReady s id r)
include hr

/-- What a commit leaves, beside the bytes it writes. -/
theorem commitsAt_committed (hq : parts.map Part.thread = r.parts.map Part.thread) :
    CommitsAt s (s.committed h r parts) r d.length (s.stampFor r) := by
  obtain ⟨hclosed, hparts, hpool⟩ := (h.told (r.committed (s.stampFor r) parts) (s.stampFor r)).closed_spec (s.reqPart r) r.attrs.hist
  have htold := h.besideRequests_told (r.committed (s.stampFor r) parts) (s.stampFor r)
  have hall := besideService_committed (parts := parts) hcaches
  have hs : (s.stored r d).besideMemory = s.besideMemory := State.besideMemory_commitStore r.floor d hroom
  have ⟨hbeside, hcores, hscratch⟩ := hcaches
  have hslice : ∀ m, (s.committed h r parts).slice m = (s.stored r d).slice m := fun m => eq_of_blank hall (State.slice · m)
  have hcore : ∀ m, (s.committed h r parts).core m = h.core m := fun m =>
    (eq_of_blank hclosed (State.core · m)).trans (eq_of_blank htold (State.core · m))
  have hcore' : ∀ m, (s.stored r d).core m = s.core m := fun m => eq_of_blank hs (State.core · m)
  have hpart : ∀ m, (h.told (r.committed (s.stampFor r) parts) (s.stampFor r)).part m = (s.stored r d).part m := fun m =>
    (eq_of_blank htold (State.part · m)).trans (eq_of_blank hbeside (State.part · m))
  refine ⟨⟨?_, ?_, fun a ha => ?_, warpsServed_committed hcaches hroom hq⟩, hr.fresh, ?_, fun m hm => ?_,
    fun m hm => ?_, fun m hm => ?_, ?_, fun hh => ?_⟩
  · exact (eq_of_blank hall State.launches).trans (eq_of_blank hs State.launches)
  · exact (eq_of_blank hall State.blocks).trans (eq_of_blank hs State.blocks)
  · rw [mem_committed hcaches, Memory.byte_puts_outside s.mem r.pa a d hr.memory ha]
  · exact (congrArg Slice.last (hslice _)).trans (State.last_commitStore r.floor d hroom)
  · exact (hslice m).trans (State.slice_commitStore_ne r.floor d hroom hm)
  · exact (hparts m hm).trans ((hpart m).trans (State.part_commitStore_ne r.floor d hroom hm))
  · exact (hcore m).trans ((hcores m hm).trans (hcore' m))
  · rw [hcore, hscratch, hcore']
  · have hentry := State.entry_commitStore (pa := r.pa) r.floor d hroom hh
    rwa [State.committed, hpool, hpart]

/-- The request of a commit is served, and no other has more than its least stamp changed. -/
theorem served_committed : Served s (s.committed h r parts) id (fun y => y = r.committed (s.stampFor r) parts) := by
  have hreqs : h.reqs = s.reqs :=
    (eq_of_blank hcaches.1 State.reqs).trans (eq_of_blank (State.besideMemory_commitStore r.floor d hroom) State.reqs)
  have hid : r.id = id := by simpa using List.find?_some hr.found
  have hknown := served_known (q := r.committed (s.stampFor r) parts) (by rw [hr.found]; rfl) hreqs hid rfl
  exact served_of_reqs_eq (served_noteStamp (served_of_reqs_eq hknown (State.noteCommit_reqs ..)) _ _)
    (eq_of_blank (State.closed_spec ..).1 State.reqs)

end

variable (hr : CommitReady s id r) (hroom : Roomy s r)
include hr hroom

/-- A write that no hold stops commits. -/
theorem exec_sliceCommit_ready (hw : r.writes = true) : exec (.sliceCommit id) s = .next (s.commitReq r) := by
  have hstall : (r.attrs.hist && s.wouldStall (s.reqPart r) (s.assignStamp r.slice r.floor).2) = false := by
    obtain ⟨-, h⟩ | h := hroom
    · rw [wouldStall_of_room _ h, Bool.and_false]
    · rw [h, Bool.false_and]
  show execSliceCommit id s = _
  simp [execSliceCommit, hr.found, Req.sliceWrites, hr.place, hw, hr.may, hr.primary, hstall, ckptAgain_eq _ hr.leaves]

/-- The commit of a store: its bytes written, its line in the storing core's L1 followed; the threads of a stamped one get its stamp. -/
theorem sliceCommit_store {d : List Byte} (hk : r.kind = .store d ∨ r.kind = .stamped d) :
    ∃ t x, exec (.sliceCommit id) s = .next t ∧ CommitsAt s t r d.length x ∧ t.mem.bytes r.pa d.length = d ∧
      Served s t id (fun y => y.stamp = x ∧ y.raise = some x ∧ (r.kind = .stamped d → ∀ z ∈ y.parts, z.value = Dword.words x)) := by
  have hw : r.writes = true := by obtain h | h := hk <;> simp [Req.writes, h]
  have hcaches : CachesOnly r.core (s.stored r d)
      (((s.stored r d).l1Store r.core r.pa r.hint r.attrs.cache d).l2Fill (s.reqPart r) r.pa r.attrs.cache) :=
    (cachesOnly_l1Store ..).trans (cachesOnly_l2Fill ..)
  obtain ⟨v, hv, hcommit⟩ : ∃ v, (r.kind = .stamped d → v = Dword.words (s.stampFor r)) ∧
      s.commitReq r = s.committed (((s.stored r d).l1Store r.core r.pa r.hint r.attrs.cache d).l2Fill (s.reqPart r) r.pa r.attrs.cache) r
        (r.parts.map (fun p => { p with value := v })) := by
    obtain h | h := hk
    · exact ⟨[], by simp [h], by simp only [State.commitReq, h]; rw [← h]; rfl⟩
    · exact ⟨_, fun _ => rfl, by simp only [State.commitReq, h]; rw [← h]; rfl⟩
  refine ⟨_, _, (exec_sliceCommit_ready hr hroom hw).trans (congrArg _ hcommit), commitsAt_committed hcaches hroom hr (by simp), ?_,
    served_mono (served_committed hcaches hroom hr) ?_⟩
  · rw [mem_committed hcaches, Memory.bytes_puts _ _ _ hr.memory]
  · rintro _ rfl
    refine ⟨rfl, rfl, fun hs z hz => ?_⟩
    obtain ⟨p, -, rfl⟩ := List.mem_map.1 hz
    exact hv hs

/-- The commit of an atomic: the outcome of its group on what memory held, which its threads get. -/
theorem sliceCommit_atomic {op : AtomOp} {w sg : Bool} (hk : r.kind = .atomic op w sg) (hp : lineOf r.pa ∉ s.poison) :
    ∃ t x old, exec (.sliceCommit id) s = .next t ∧ CommitsAt s t r (atomBytes w) x ∧
      old = BitVec.ofNat 64 (s.mem.nat r.pa (atomBytes w)) ∧ t.mem.nat r.pa (atomBytes w) = (groupNew op w sg r.parts old).toNat ∧
      (∀ q, r.parts = [q] → t.mem.nat r.pa (atomBytes w) = (atomNew op w sg old q.x q.cmp).toNat) ∧
      Served s t id (fun y => y.stamp = x ∧ y.raise = some x ∧ y.parts = groupValues op w sg old r.parts) := by
  have hw : r.writes = true := by simp [Req.writes, hk]
  obtain ⟨h, hcaches, hcommit⟩ : ∃ h, CachesOnly r.core (s.stored r (s.atomData r op w sg)) h ∧
      s.commitReq r = s.committed h r (groupValues op w sg (s.oldAt r w) r.parts) := by
    have hacq : CachesOnly r.core (s.stored r (s.atomData r op w sg))
        (if r.acq then (s.stored r (s.atomData r op w sg)).l1Clear r.core
          else (s.stored r (s.atomData r op w sg)).modCore r.core (fun y => y.l1Drop r.pa)) := by
      split
      · exact cachesOnly_l1Clear ..
      · exact cachesOnly_modCore _ _ (fun _ => rfl)
    refine ⟨_, hacq.trans (cachesOnly_l2Fill _ r.core (s.reqPart r) r.pa r.attrs.cache), ?_⟩
    simp only [State.commitReq, hk, List.contains_eq_mem, hp, decide_false, Bool.false_eq_true, if_false]
    rw [← hk]
    rfl
  have hlen : (s.atomData r op w sg).length = atomBytes w := length_leBytes ..
  have hnew : (s.committed h r (groupValues op w sg (s.oldAt r w) r.parts)).mem.nat r.pa (atomBytes w) =
      (groupNew op w sg r.parts (s.oldAt r w)).toNat := by
    rw [mem_committed hcaches, State.atomData, Memory.nat_puts_leBytes _ _ hr.memory (groupNew_lt ..)]
  refine ⟨_, s.stampFor r, s.oldAt r w, (exec_sliceCommit_ready hr hroom hw).trans (congrArg _ hcommit), ?_, rfl, hnew, fun q hq => ?_,
    served_mono (served_committed hcaches hroom hr) ?_⟩
  · exact hlen ▸ commitsAt_committed hcaches hroom hr (by simp [groupValues])
  · rw [hnew, hq]
    rfl
  · rintro _ rfl
    exact ⟨rfl, rfl, rfl⟩

end

/-- A historied write that a hold stops waits at its slice. -/
theorem sliceCommit_stall {s : State} {id : Nat} {r : Req} (hr : CommitReady s id r) (hw : r.writes = true) (hh : r.attrs.hist = true)
    (hstall : s.wouldStall (s.reqPart r) (s.stampFor r) = true) (hsent : r.stage = .sent) :
    ∃ t, exec (.sliceCommit id) s = .next t ∧ t.mem = s.mem ∧ t.warps = s.warps ∧ t.slices = s.slices ∧
      t.reqs = s.reqs.map (fun y => if y.id = id then { r with stage := .stalled s.cycle } else y) := by
  have hid : r.id = id := by simpa using List.find?_some hr.found
  have hstall' : s.wouldStall (s.reqPart r) (s.assignStamp r.slice r.floor).2 = true := by rw [hr.home]; exact hstall
  refine ⟨(s.putReq { r with stage := .stalled s.cycle }).noteStall (s.reqPart r), ?_, rfl, rfl, rfl, ?_⟩
  · show execSliceCommit id s = _
    simp [execSliceCommit, hr.found, Req.sliceWrites, hr.place, hw, hr.may, hr.primary, hstall', hh, hsent]
  · rw [← hid]
    rfl

/-! ### SLICE_LOAD (R155, R195, R196, R209) -/

/-- A request served whose values are made known changes no more than the caches have changed already. -/
theorem onlyReads_known {s u : State} {core : Nat} (h : CachesOnly core s u) (q : Req) : OnlyReads s ((u.putReq q).known q) := by
  have hall : ((u.putReq q).known q).besideService = s.besideService :=
    (eq_of_blank (State.outside_known (u.putReq q) q) State.besideService).trans (eq_of_blank h.1 State.besideService)
  refine ⟨eq_of_blank hall State.mem, eq_of_blank hall State.slices, eq_of_blank hall State.launches, eq_of_blank hall State.blocks,
    fun _ _ => by rw [eq_of_blank hall State.mem], ?_⟩
  exact (warpsServed_of_warps_eq (t := u.putReq q) (eq_of_blank h.1 State.warps)).trans (warpsServed_known ..)

theorem core_known (u : State) (q : Req) (m : Nat) : ((u.putReq q).known q).core m = u.core m :=
  (eq_of_blank (State.outside_known (u.putReq q) q) (State.core · m) :)

/-- A request of no redundant launch is none of a shadow copy. -/
theorem reqShadow_of_reqRed {s : State} {r : Req} (h : s.reqRed r = false) : s.reqShadow r = false := by
  simp only [State.reqRed, Option.isSome_eq_false_iff, Option.isNone_iff_eq_none] at h
  rw [State.reqShadow, h]
  rfl

/-- The bytes of a parameter read: those past its page's end from the next page, zeros past what backs it (R155). -/
theorem getElem_param {s : State} {r : Req} {n len : Nat} (hp : r.place = .param len) (i : Nat) (h : i < (s.loadBytes r n).length) :
    (s.loadBytes r n)[i] = if len ≤ i then 0 else if r.pa % 65536 + i < 65536 then s.mem.byte (r.pa + i)
      else s.mem.byte (r.pa2 + (i - (65536 - r.pa % 65536))) := by
  have hk : r.firstBytes n = min n (65536 - r.pa % 65536) := rfl
  have hi : i < n := by
    simp only [State.loadBytes, hp, cutBytes, List.length_map, List.length_zipIdx, List.length_append, Memory.length_bytes] at h
    omega
  simp only [State.loadBytes, hp, cutBytes, List.getElem_map, List.getElem_zipIdx, Nat.zero_add]
  by_cases hlen : len ≤ i
  · rw [if_neg (by omega), if_pos hlen]
  · rw [if_pos (by omega), if_neg hlen]
    by_cases hpage : r.pa % 65536 + i < 65536
    · rw [if_pos hpage, List.getElem_append_left (by rw [Memory.length_bytes]; omega), Memory.getElem_bytes]
    · rw [if_neg hpage, List.getElem_append_right (by rw [Memory.length_bytes]; omega), Memory.getElem_bytes, Memory.length_bytes, hk,
        Nat.min_eq_right (by omega)]

theorem length_param {s : State} {r : Req} {n len : Nat} (hp : r.place = .param len) : (s.loadBytes r n).length = n := by
  simp only [State.loadBytes, hp, cutBytes, List.length_map, List.length_zipIdx, List.length_append, Memory.length_bytes, Req.firstBytes]
  omega

/-- A request that is served by giving each of its parts a value. -/
def Req.answered (r : Req) (ws : List Word) (x : Option Dword) (ue : Bool) : Req :=
  { r with parts := r.parts.map (fun p => { p with value := ws }), raise := x, ue := ue, stage := .served }

theorem value_answered {r : Req} {ws : List Word} {x : Option Dword} {ue : Bool} : ∀ z ∈ (r.answered ws x ue).parts, z.value = ws := by
  intro z hz
  obtain ⟨p, -, rfl⟩ := List.mem_map.1 hz
  rfl

/-- The state of a load that has read its lines. -/
def State.filled (s : State) (r : Req) (n : Nat) : State :=
  (r.linesOf (r.backed n)).foldl (fun u l => (u.l1Read r l).l2Fill (s.reqPart r) (l * 64) r.attrs.cache)
    (if r.acq then s.l1Clear r.core else s)

theorem cachesOnly_filled (s : State) (r : Req) (n : Nat) : CachesOnly r.core s (s.filled r n) := by
  refine CachesOnly.trans (t := if r.acq then s.l1Clear r.core else s) ?_ (cachesOnly_fills _ r (s.reqPart r) r.attrs.cache _)
  split
  · exact cachesOnly_l1Clear ..
  · exact .refl ..

/-- The request of a load that has read its lines. -/
def Req.loaded (r : Req) (s : State) (n : Nat) (sg : Bool) : Req :=
  r.answered (loadWords n sg (s.loadBytes r n)) (if r.place == .global then some (s.readCarries r.pa) else none) false

theorem value_loaded {r : Req} {s : State} {n : Nat} {sg : Bool} :
    ∀ z ∈ (r.loaded s n sg).parts, z.value = loadWords n sg (s.loadBytes r n) := by
  unfold Req.loaded
  exact value_answered

/-- The stamp of a request's line, on a historied page. -/
def State.lineStamp (s : State) (r : Req) : Dword :=
  if r.attrs.hist then ((Tab.find s.lineMeta (lineOf r.pa)).map LineMeta.stamp).getD 0 else 0

section

variable {s : State} {id : Nat} {r : Req} (hfind : s.reqs.find? (fun y => y.id == id) = some r)
include hfind

/-- A request answered is served with its values. -/
theorem served_answered {core : Nat} {u : State} (h : CachesOnly core s u) (ws : List Word) (x : Option Dword) (ue : Bool) :
    Served s ((u.putReq (r.answered ws x ue)).known (r.answered ws x ue)) id (fun y => y = r.answered ws x ue) := by
  have hid : r.id = id := by simpa using List.find?_some hfind
  exact served_known (by rw [hfind]; rfl) (eq_of_blank h.1 State.reqs) hid rfl

variable (hred : s.reqRed r = false) (hcur : s.current r = true) (hmay : s.sliceMay r = true)
include hred hcur hmay

/-- A load of global or parameter space whose lines are sound brings the bytes at its address, and fills no more than caches. -/
theorem sliceLoad_load {n : Nat} {sg : Bool} (hk : r.kind = .load n sg) (hp : r.place = .global ∨ ∃ len, r.place = .param len)
    (hsound : ∀ l ∈ r.linesOf (r.backed n), l ∉ s.poison) :
    ∃ t, exec (.sliceLoad id) s = .next t ∧ OnlyReads s t ∧ (∀ q, (t.core q).scratch = (s.core q).scratch) ∧
      Served s t id (fun y => y = r.loaded s n sg) := by
  have hloads : r.sliceLoads = true := by
    obtain h | ⟨len, h⟩ := hp <;> simp [Req.sliceLoads, h, hk]
  have hbad : (r.linesOf (r.backed n)).any s.poison.contains = false := by
    simpa using hsound
  have hexec : execSliceLoad id s = .next (((s.filled r n).putReq (r.loaded s n sg)).known (r.loaded s n sg)) := by
    simp only [execSliceLoad, hfind, hloads, hcur, hmay, reqShadow_of_reqRed hred, hbad, hk, Bool.not_true, Bool.or_self, Bool.false_and,
      Bool.false_eq_true, if_false]
    rw [← hk]
    rfl
  exact ⟨_, hexec, onlyReads_known (cachesOnly_filled s r n) _,
    fun q => (congrArg Core.scratch (core_known ..)).trans ((cachesOnly_filled s r n).scratch q),
    served_answered hfind (cachesOnly_filled s r n) ..⟩

/-- LSTAMP brings the stamp of its line on a historied page, and else 0. -/
theorem sliceLoad_lstamp (hk : r.kind = .lstamp) (hp : r.place = .global) :
    ∃ t, exec (.sliceLoad id) s = .next t ∧ OnlyReads s t ∧ t.cores = s.cores ∧
      Served s t id (fun y => ∀ z ∈ y.parts, z.value = Dword.words (s.lineStamp r)) := by
  have hloads : r.sliceLoads = true := by simp [Req.sliceLoads, hp, hk]
  have hexec : execSliceLoad id s = .next ((s.putReq (r.answered (Dword.words (s.lineStamp r)) (some (s.lineStamp r)) r.ue)).known
      (r.answered (Dword.words (s.lineStamp r)) (some (s.lineStamp r)) r.ue)) := by
    simp only [execSliceLoad, hfind, hloads, hcur, hmay, reqShadow_of_reqRed hred, hk, Bool.not_true, Bool.or_self, Bool.false_and,
      Bool.false_eq_true, if_false]
    rw [← hk]
    rfl
  refine ⟨_, hexec, onlyReads_known (.refl r.core s) _, (eq_of_blank (State.outside_known ..) State.cores :),
    served_mono (served_answered hfind (.refl r.core s) ..) ?_⟩
  rintro _ rfl
  exact value_answered

end

/-! ### ASOF_WALK (R171, R200) -/

/-- A walk finds versions at or below its stamp. -/
theorem walkChain_found {pool : List HistEntry} {st x : Dword} {line : List Byte} {n : Nat} {link : Option Nat}
    (h : walkChain pool st n link = .found line x) : x.toNat ≤ st.toNat := by
  induction n generalizing link with
  | zero => cases h
  | succ n ih =>
    simp only [walkChain] at h
    split at h
    · cases h
    · split at h
      · cases h
      · split at h
        · next hle =>
          cases h
          exact hle
        · exact ih h

/-- The version found has a stamp at or below S; it is the line itself where the line's own stamp is. -/
theorem asofLine_found {s : State} {part line : Nat} {st x : Dword} {l : List Byte} (h : s.asofLine part line st = .found l x) :
    x.toNat ≤ st.toNat ∧ ∀ m, Tab.find s.lineMeta line = some m → m.stamp.toNat ≤ st.toNat → s.dataLine line = line →
      l = s.mem.bytes (line * 64) 64 ∧ x = m.stamp := by
  simp only [State.asofLine] at h
  split at h
  · next hle =>
    split at h
    · cases h
    · cases h
      refine ⟨hle, fun m hm _ hd => ?_⟩
      rw [hd, hm]
      exact ⟨rfl, rfl⟩
  · next hgt =>
    refine ⟨walkChain_found h, fun m hm hle => ?_⟩
    rw [hm] at hgt
    exact absurd hle hgt

/-- An as-of load that may be served brings the bytes of the version that its walk finds. -/
theorem asofWalk_found {s : State} {id n : Nat} {r : Req} {st x : Dword} {line : List Byte}
    (hfind : s.reqs.find? (fun y => y.id == id) = some r) (hk : r.kind = .asof n st) (hmay : s.asofMay r st = true)
    (hred : s.reqRed r = false) (hline : s.asofLine (s.reqPart r) (lineOf r.pa) st = .found line x) :
    ∃ t, exec (.asofWalk id) s = .next t ∧ OnlyReads s t ∧ t.cores = s.cores ∧ Served s t id (fun y => y =
      r.answered (loadWords n false ((line.drop (r.pa % 64)).take n)) (some x) r.ue) := by
  have hexec : execAsofWalk id s = .next
      (((s.putReq (r.answered (loadWords n false ((line.drop (r.pa % 64)).take n)) (some x) r.ue)).known
        (r.answered (loadWords n false ((line.drop (r.pa % 64)).take n)) (some x) r.ue)).purgePool (s.reqPart r)) := by
    simp only [execAsofWalk, hfind, hk, hmay, reqShadow_of_reqRed hred, hred, hline, Bool.not_true, Bool.false_eq_true, if_false]
    rw [← hk]
    rfl
  exact ⟨_, hexec, onlyReads_known (.refl r.core s) _, (eq_of_blank (State.outside_known ..) State.cores :),
    served_of_reqs_eq (served_answered hfind (.refl r.core s) ..) rfl⟩

end Sys2Proof.Machine

namespace Sys2Proof

open Machine

/-- SLICE_COMMIT, in its three ways: a store, an atomic, and a write that a hold stops. -/
theorem sliceCommitRule : SliceCommitRule := by
  intro s id r hfind hplace hmay hmem hshadow hslice hleaves hlast htick href hfloor
  have hr : CommitReady s id r :=
    ⟨hfind, hplace, hmay, hmem, hshadow, hslice, hleaves, freshStamp_assignStamp hlast htick href hfloor⟩
  exact ⟨fun hroom => ⟨fun _ hk => sliceCommit_store hr hroom hk, fun _ _ _ hk hp => sliceCommit_atomic hr hroom hk hp⟩,
    fun hw hh hstall hsent => sliceCommit_stall hr hw hh hstall hsent⟩

/-- SLICE_LOAD of global space, of parameter space and for LSTAMP; and ASOF_WALK. -/
theorem sliceReadsRule : SliceReadsRule := by
  refine ⟨fun s id r hfind hcur hmay hred => ⟨fun n sg hk hp hsound => ?_, fun n sg len hk hp hsound => ?_,
    fun hk hp => ?_⟩, fun s id n r st line x hfind hk hmay hred hline => ?_⟩
  · obtain ⟨t, hexec, hreads, hscratch, hserved⟩ :=
      sliceLoad_load hfind hred hcur hmay hk (.inl hp) (by simpa only [Req.backed, hp] using hsound)
    refine ⟨t, hexec, hreads, hscratch, served_mono hserved ?_⟩
    rintro _ rfl
    have hbytes : s.loadBytes r n = s.mem.bytes r.pa n := by simp [State.loadBytes, hp, hred]
    exact ⟨by simp [Req.loaded, Req.answered, hp], by simp [Req.loaded, Req.answered], hbytes ▸ value_loaded⟩
  · obtain ⟨t, hexec, hreads, hscratch, hserved⟩ :=
      sliceLoad_load hfind hred hcur hmay hk (.inr ⟨len, hp⟩) (by simpa only [Req.backed, hp] using hsound)
    refine ⟨t, hexec, hreads, hscratch, served_mono hserved ?_⟩
    rintro _ rfl
    exact ⟨s.loadBytes r n, length_param hp, value_loaded, getElem_param hp⟩
  · obtain ⟨t, hexec, hreads, hcores, hserved⟩ := sliceLoad_lstamp hfind hred hcur hmay hk hp
    refine ⟨t, s.lineStamp r, hexec, hreads, hcores, ?_, hserved⟩
    unfold State.lineStamp
    cases Tab.find s.lineMeta (lineOf r.pa) with
    | none => simp only [Option.map_none, Option.getD_none, ite_self]
    | some m => rfl
  · obtain ⟨t, hexec, hreads, hcores, hserved⟩ := asofWalk_found hfind hk hmay hred hline
    obtain ⟨hle, hown⟩ := asofLine_found hline
    refine ⟨t, hexec, hreads, hcores, hle, hown, served_mono hserved ?_⟩
    rintro _ rfl
    exact ⟨rfl, value_answered⟩

/-- Settles O27: a commit writes its bytes under a fresh stamp and keeps the line's history; reads bring what memory, or the version that an
as-of walk finds, holds, and change none of it. -/
theorem sliceAccesses : Obligations.SliceAccesses := ⟨sliceCommitRule, sliceReadsRule⟩

end Sys2Proof
end
